-- ==== Sys2Proof/Word.lean ====
section
/-! DEFINITION. The word types of the device: 32-bit lane values, 64-bit values, masks of 32 lanes
(R161, R193), and rows of 32 lane values. -/

namespace Sys2Proof

/-- A 32-bit lane value of a vector register or of a token (R161, Table 9.3). -/
abbrev Word := BitVec 32

/-- A 64-bit value: a scalar register, an address, a memory word (R195, R33). -/
abbrev DWord := BitVec 64

/-- A lane mask: bit l stands for lane l. -/
abbrev Mask := BitVec 32

/-- One value for each lane, lane 0 first; a missing entry reads as 0. -/
abbrev Lanes := List (BitVec 32)

/-- The value of lane `l` in a row. -/
def Lanes.at (v : Lanes) (l : Nat) : Word := v.getD l 0

/-- The row whose lane `l` holds `f l`, for the 32 lanes. -/
def Lanes.of (f : Nat → Word) : Lanes := (List.range 32).map f

/-- The row of zeros. -/
def Lanes.zero : Lanes := List.replicate 32 0

/-- The 64-bit value whose low half is `lo` and whose high half is `hi` (R255). -/
def joinHalves (lo hi : Word) : DWord := hi ++ lo

/-- Bits [31:0] of a 64-bit value. -/
def lowHalf (x : DWord) : Word := x.setWidth 32

/-- Bits [63:32] of a 64-bit value. -/
def highHalf (x : DWord) : Word := (x >>> 32).setWidth 32

/-- The lanes of a mask, ascending. -/
def lanesOf (m : Mask) : List Nat := (List.range 32).filter (fun l => m.getLsbD l)

/-- The mask that holds exactly the lanes of a list. -/
def maskOf (ls : List Nat) : Mask := ls.foldl (fun m l => m ||| (1 : Mask) <<< l) 0

/-- The lowest lane of a mask (0 for an empty mask). -/
def lowestLane (m : Mask) : Nat := (lanesOf m).headD 0

end Sys2Proof
end

