-- ==== Sys2Proof/Config.lean ====
section
/-! DEFINITION. What is fixed for the machine (the counts of R1, R15, R16, R38, R45) and the free values:
constants without a body, so that no proof can see what they are. -/

namespace Sys2Proof.Config

/-- Serac dies of the panel, 24 columns of 4 (R15). -/
def seracDies : Nat := 96
/-- Cores built on each Serac die (R16). -/
def coresPerDie : Nat := 10
/-- Cores built on the panel. -/
def coresBuilt : Nat := 960
/-- HBM stacks, one for each Firn die (R38). -/
def hbmStacks : Nat := 96
/-- Bytes of one HBM stack (R38). -/
def stackBytes : Nat := 64000000000
/-- Virtual functions (R458). -/
def functions : Nat := 96
/-- Bytes of one scratchpad (R45). -/
def spadBytes : Nat := 524288
/-- Warp slots of a core (R194). -/
def warpSlots : Nat := 32
/-- Contexts resident on one core (R194). -/
def coreContexts : Nat := 4
/-- Nodes of a core (R201). -/
def nodes : Nat := 24
/-- Entries of a node's matching store (R203). -/
def matchEntries : Nat := 64
/-- Ticks of 1/6 ns in one nanosecond of the 1 GHz reference (R20, log 2). -/
def ticksPerNs : Nat := 6
/-- Ticks of one cycle of the 1.5 GHz core clock (R20, log 2). -/
def ticksPerCycle : Nat := 4
/-- Ticks of one cycle of the 1.2 GHz clock of a Firn die (R20, log 2). -/
def ticksPerFirnCycle : Nat := 5
/-- Vocia ports of the panel, one for each Moraine die (Table 0.1). -/
def vociaPorts : Nat := 48

/-- Free value: a choice the spec leaves to the implementation or to timing (who moves next, a victim, a
replica count), indexed by the counter `State.free` (logs 1, 21). -/
opaque freeChoice : Nat → Nat

/-- Free value: a byte the spec calls undefined, indexed by the counter `State.free` (log 23). -/
opaque freeByte : Nat → BitVec 8

/-- Free value: what the bytes of a spill or call area show to other readers, by address: the area holds the hardware's bytes
XOR these (R235, R288, log 23). -/
opaque areaPad : Nat → BitVec 8

/-- The approximate functions of R316. -/
inductive ApproxFn where
  | rcp | rsq | ex2 | lg2 | sin | cos
  deriving DecidableEq, Repr

/-- Free value: the FP32 bits an approximation gives, a fixed function of its operand's bits, used where it
meets the bound of R316 (log 20). -/
opaque approx : ApproxFn → BitVec 32 → BitVec 32

/-- Free value: the latency word of a stitch port of a die, bits [29:0] of LATBAND (R401, log 4). -/
opaque latBand : Nat → Nat → BitVec 30

/-- Free value: by how many nanoseconds, at most 8, a die's counter differs from the reference (R400, log 22). -/
opaque dieSkew : Nat → Nat

end Sys2Proof.Config
end

