-- ==== Sys2Proof/Syntax.lean ====
section
/-! DEFINITION. The instruction forms of Tables 11.9 to 11.17 and the machine operations and events of
spec/opcode_table.json: one constructor of `Instr` for each row. Forms carry the fields of their
instruction words (R257); machine operations carry what identifies the unit that acts and what the
outside supplies. -/

namespace Sys2Proof

/-- Target kinds 001 to 100 of Table 11.6. -/
inductive Port where
  | a | b | c | p
  deriving DecidableEq, Repr

/-- Every port an instruction can use, extension ports a′, b′, c′ included (R254). -/
inductive PortName where
  | a | b | c | p | ax | bx | cx
  deriving DecidableEq, Repr

/-- A result target that is not none (Table 11.6). -/
structure Target where
  port : Port
  idx  : BitVec 6
  deriving DecidableEq, Repr

/-- The PRED field (R256); the fourth code is illegal. -/
inductive Pred where
  | always | ifTrue | ifFalse
  deriving DecidableEq, Repr

/-- The targets of a layout T second word (R253). -/
structure Ext where
  t2 : Option Target
  t3 : Option Target
  deriving DecidableEq, Repr

/-- The fields every instruction word has (Table 11.5); `ext` is the layout T second word where LONG is 1. -/
structure Wd where
  pred : Pred
  fsel : Bool
  t0   : Option Target
  t1   : Option Target
  ext  : Option Ext
  deriving DecidableEq, Repr

/-- A register specifier (Table 11.4). -/
structure RegSpec where
  scalar : Bool
  num    : BitVec 7
  deriving DecidableEq, Repr

/-- Rounding codes 0 to 4 (R166). -/
inductive Rnd where
  | rne | rz | ru | rd | sr
  deriving DecidableEq, Repr

/-- Order codes (R112). -/
inductive Order where
  | none | acq | rel | acqrel
  deriving DecidableEq, Repr

/-- Scope codes 0 to 4 (R111). -/
inductive Scope where
  | warp | team | die | dev | sys
  deriving DecidableEq, Repr

/-- Memory class codes 0 to 2 (Table 4.5). -/
inductive MClass where
  | rnd | str | ord
  deriving DecidableEq, Repr

/-- Format codes 0x0 to 0xC (Table 7.1). -/
inductive Fmt where
  | fp32 | fp16 | bf16 | e4m3 | e5m2 | e2m1 | int32 | int8 | int4 | ds8 | e8m0 | nat32 | nat8
  deriving DecidableEq, Repr

/-- Access sizes of type set SZ (Table 11.8). -/
inductive Sz where
  | b8 | b16 | b32 | b64 | b128
  deriving DecidableEq, Repr

/-- Atomic widths of type set WD (R143). -/
inductive AWidth where
  | w32 | w64 | w128
  deriving DecidableEq, Repr

/-- Space codes 0 to 2 (R31). -/
inductive Space where
  | gl | sp | wn
  deriving DecidableEq, Repr

/-- Atomic operation codes 0x0 to 0xE (Table 6.2). -/
inductive AtomOp where
  | add | minS | minN | maxS | maxN | and | or | xor | exch | cas | fadd | hadd2 | badd2 | fmin | fmax
  deriving DecidableEq, Repr

/-- Relations of ICMP (R299). -/
inductive CmpRel where
  | eq | ne | lt | le | gt | ge
  deriving DecidableEq, Repr

/-- Relations of FCMP (Table 14.3). -/
inductive FCmpRel where
  | eq | ne | lt | le | gt | ge | unordered | ordered
  deriving DecidableEq, Repr

/-- Source selection of SHFL (R303). -/
inductive ShflMode where
  | idx | up | down | xor
  deriving DecidableEq, Repr

/-- Variants of VOTE (R305). -/
inductive VoteMode where
  | any | all | ballot
  deriving DecidableEq, Repr

/-- Operations of REDUCE and SCAN (R306). -/
inductive RedOp where
  | add | min | max | and | or | xor | fadd | fmin | fmax
  deriving DecidableEq, Repr

/-- Arrangements VAR 0 to 2 of MXCFG (Table 9.6). -/
inductive MxArr where
  | a2048 | a512 | a128
  deriving DecidableEq, Repr

/-- Integer forms: TYPE set I4 and layout A (R295). -/
structure IntOp where
  wd  : Wd
  w64 : Bool
  nat : Bool
  imm : Option (BitVec 17)
  deriving DecidableEq, Repr

/-- FP32 forms: TYPE set F2 and layout A (R308). -/
structure FltOp where
  wd   : Wd
  ftz  : Bool
  imm  : Option (BitVec 17)
  absA : Bool
  absB : Bool
  absC : Bool
  negA : Bool
  negB : Bool
  negC : Bool
  rnd  : Rnd
  deriving DecidableEq, Repr

/-- Conversion forms: layout C (R318). -/
structure CvtOp where
  wd   : Wd
  ftz  : Bool
  sat  : Bool
  rnd  : Rnd
  dst  : Fmt
  src  : Fmt
  deriving DecidableEq, Repr

/-- Memory forms: layout M (R328). -/
structure MemOp where
  wd    : Wd
  off   : BitVec 19
  order : Order
  scope : Scope
  cls   : MClass
  deriving DecidableEq, Repr

/-- Engine forms: layout E; `tok` is the token register where TOKV = 1 (R260). -/
structure EngForm where
  wd    : Wd
  scope : Scope
  tok   : Option (BitVec 6)
  deriving DecidableEq, Repr

/-- A thread that executes instructions: an instance of a warp, or a context's control thread on a core. -/
inductive Who where
  | warp (core slot itag : Nat)
  | ctl  (core ctx : Nat)
  deriving DecidableEq, Repr

/-- A resource profile as the operator assigns it (R465). -/
structure Profile where
  cores     : List Nat
  regions   : List Nat
  nq        : Nat
  traceRate : Nat
  weight    : Nat
  prio      : Nat
  tagb      : Nat
  saveAllow : Nat
  slice     : Nat
  overrun   : Nat
  deriving DecidableEq, Repr

/-- What a received Vocia flit carries, in decoded form (R470, log 25). -/
inductive FlitBody where
  | credit   (channel n : Nat)
  | join     (key : Nat) (nranks rank : Nat) (members : List Nat)
  | collPart (key k rank var fmt rop root count first : Nat) (data : List (BitVec 8))
  | placed   (key k rank : Nat)
  | abort    (key : Nat)
  | decision (key k : Nat) (done : Bool)
  deriving DecidableEq, Repr

/-- A Vocia flit (Table 21.5): its header; its payload, in decoded form, with the member-table entry by which it names a member's context
(R471); and its CRC-64. -/
structure Flit where
  header : BitVec 64
  member : BitVec 64 × BitVec 64 := (0, 0)
  body   : FlitBody
  crc    : BitVec 64
  deriving DecidableEq, Repr

/-- One constructor for each row of spec/opcode_table.json. -/
inductive Instr where
  -- Table 11.9: block and control
  | getr (w : Wd) (w64 : Bool) (reg : RegSpec)
  | setr (w : Wd) (w64 : Bool) (reg : RegSpec)
  | fan (w : Wd) (w64 : Bool)
  | movi (w : Wd) (w64 : Bool) (imm : BitVec 27) (imm64 : Option (BitVec 64))
  | sel (w : Wd) (w64 : Bool)
  | sink (w : Wd)
  | br (w : Wd) (off : BitVec 27)
  | brc (w : Wd) (off off2 : BitVec 27)
  | bri (w : Wd)
  | call (w : Wd) (off off2 : BitVec 27)
  | calli (w : Wd) (off2 : BitVec 27)
  | ret (w : Wd)
  | exit (w : Wd)
  | loop (w : Wd) (off2 : BitVec 27)
  | trap (w : Wd) (code : BitVec 16)
  -- Table 11.10: integer and address
  | iadd (o : IntOp)
  | isub (o : IntOp)
  | imul (o : IntOp)
  | imulh (o : IntOp)
  | imad (o : IntOp)
  | ineg (o : IntOp)
  | iabs (o : IntOp)
  | imin (o : IntOp)
  | imax (o : IntOp)
  | idiv (o : IntOp)
  | irem (o : IntOp)
  | iand (o : IntOp)
  | ior (o : IntOp)
  | ixor (o : IntOp)
  | inot (o : IntOp)
  | andn (o : IntOp)
  | shl (o : IntOp)
  | shr (o : IntOp)
  | sar (o : IntOp)
  | rol (o : IntOp)
  | ror (o : IntOp)
  | popc (o : IntOp)
  | clz (o : IntOp)
  | ctz (o : IntOp)
  | brev (o : IntOp)
  | bfx (o : IntOp)
  | bfi (o : IntOp)
  | icmp (rel : CmpRel) (o : IntOp)
  | lea (sh : BitVec 4) (o : IntOp)
  -- Table 11.11: lane
  | laneid (w : Wd)
  | shfl (m : ShflMode) (w : Wd) (w64 : Bool)
  | bcast (w : Wd) (w64 : Bool)
  | vote (m : VoteMode) (w : Wd)
  | reduce (op : RedOp) (w : Wd) (w64 nat : Bool) (rnd : Rnd)
  | scan (op : RedOp) (w : Wd) (w64 nat : Bool) (excl : Bool) (rnd : Rnd)
  -- Table 11.12: floating point
  | fadd (o : FltOp)
  | fsub (o : FltOp)
  | fmul (o : FltOp)
  | ffma (o : FltOp)
  | fmin (num : Bool) (o : FltOp)
  | fmax (num : Bool) (o : FltOp)
  | fcmp (rel : FCmpRel) (o : FltOp)
  | fdiv (o : FltOp)
  | fsqrt (o : FltOp)
  | frcp (o : FltOp)
  | frsq (o : FltOp)
  | fex2 (o : FltOp)
  | flg2 (o : FltOp)
  | fsin (o : FltOp)
  | fcos (o : FltOp)
  | frnd (o : FltOp)
  | fclass (o : FltOp)
  | fldexp (o : FltOp)
  | hadd2 (bf : Bool) (o : FltOp)
  | hmul2 (bf : Bool) (o : FltOp)
  | hfma2 (bf : Bool) (o : FltOp)
  -- Table 11.13: conversion and RNG
  | cvt (o : CvtOp)
  | cvtSr (o : CvtOp)
  | pack (o : CvtOp)
  | unpack (o : CvtOp)
  | dsenc (o : CvtOp)
  | dsdec (o : CvtOp)
  | scaleq (o : CvtOp)
  | quant (o : CvtOp)
  | rng (w : Wd)
  -- Table 11.14: memory, atomics and fences
  | ld (sz : Sz) (o : MemOp)
  | st (sz : Sz) (o : MemOp)
  | lds (sz : Sz) (o : MemOp)
  | sts (sz : Sz) (o : MemOp)
  | ldw (sz : Sz) (o : MemOp)
  | stw (sz : Sz) (o : MemOp)
  | ldres (space : Space) (w64 : Bool) (o : MemOp)
  | stcond (space : Space) (w64 : Bool) (o : MemOp)
  | pref (o : MemOp)
  | atom (op : AtomOp) (aw : AWidth) (o : MemOp)
  | atoms (op : AtomOp) (aw : AWidth) (wn : Bool) (o : MemOp)
  | red (op : AtomOp) (aw : AWidth) (o : MemOp)
  | fence (w : Wd) (order : Order) (scope : Scope) (mask : BitVec 3)
  -- Table 11.15: barriers, flags, events and channels
  | bar (w : Wd)
  | gbar (w : Wd)
  | nbjoin (w : Wd) (num : BitVec 6)
  | nbarrive (w : Wd) (num : BitVec 6)
  | nbwait (w : Wd) (num : BitVec 6)
  | nbsync (w : Wd) (num : BitVec 6)
  | waitf (w : Wd) (num : BitVec 6)
  | evwait (w : Wd) (num : BitVec 6)
  | evsig (w : Wd) (num : BitVec 6)
  | send (w : Wd) (num : BitVec 6)
  | recv (w : Wd) (num : BitVec 6)
  | chstat (w : Wd) (num : BitVec 6)
  | chresize (w : Wd) (num : BitVec 6)
  -- Table 11.16: engines, matrix and collectives
  | copy (e : EngForm)
  | copy2d (e : EngForm)
  | tcopy (e : EngForm)
  | gath (e : EngForm)
  | scat (e : EngForm)
  | fill (sz : Sz) (e : EngForm)
  | stream (e : EngForm)
  | strmctlStart (w : Wd)
  | strmctlPause (w : Wd)
  | strmctlResume (w : Wd)
  | strmctlCancel (w : Wd)
  | istream (e : EngForm)
  | handoffTohost (e : EngForm)
  | handoffTodevice (e : EngForm)
  | mxcfg (arr : MxArr) (w : Wd)
  | mxcfgRelease (w : Wd)
  | mxload (e : EngForm)
  | mxfeed (w : Wd)
  | mxfeeds (e : EngForm)
  | mxmul (e : EngForm)
  | mxzero (w : Wd)
  | mxdrain (o : CvtOp)
  | mxstat (w : Wd)
  | commnew (w : Wd)
  | commfree (w : Wd)
  | commstat (w : Wd)
  | collAllreduce (e : EngForm)
  | collReduce (e : EngForm)
  | collBroadcast (e : EngForm)
  | collAllgather (e : EngForm)
  | collReducescatter (e : EngForm)
  | collAlltoall (e : EngForm)
  | collBarrier (e : EngForm)
  -- Table 11.17: context, launch and system
  | launch (w : Wd)
  | lstat (w : Wd)
  | ctxnew (w : Wd)
  | ctxgrant (w : Wd)
  | ctxrevoke (w : Wd)
  | ctxkill (w : Wd)
  | ctxrunResume (w : Wd)
  | ctxrunReflect (w : Wd)
  | ctxstat (w : Wd)
  | tlbinv (w : Wd)
  | fqpop (w : Wd)
  | rdsys (w : Wd) (sel : BitVec 16)
  | wrsys (w : Wd) (sel : BitVec 16)
  | topo (w : Wd) (sel : BitVec 16)
  | time (w : Wd)
  | latband (w : Wd)
  | capw (w : Wd)
  | trace (w : Wd)
  | tmaskMask (w : Wd)
  | tmaskUnmask (w : Wd)
  | tret (w : Wd)
  -- machine operations and events
  | blockAdmit (core slot : Nat)
  | tokenArrive (core node : Nat)
  | loadReply (who : Who) (idx : Nat)
  | blockCommit (core slot : Nat)
  | blockDiscard (core slot itag : Nat)
  | fairnessTimer (core slot : Nat)
  | tagExhausted (core node : Nat)
  | blockStuck (core slot itag : Nat)
  | mailboxArrive (req : Nat)
  | dcuRequest (die : Nat)
  | presenceInvalidation (die req : Nat)
  | homeWrite (req : Nat)
  | flushingReadDone (core : Nat) (vf : Nat)
  | atomicAtPort (req : Nat)
  | atomicReply (req : Nat)
  | reservationPinExpiry (port : Nat) (onFirn : Bool)
  | translationWalk (unit : Nat) (onFirn : Bool)
  | atsResponse (vf : Nat) (addr : DWord) (present allowed : Bool)
  | priSuccess (vf idx : Nat)
  | priInvalidRequest (vf idx : Nat)
  | priResponseFailure (vf idx : Nat)
  | priTimeout (vf idx : Nat)
  | priQuarantineExpiry (vf idx : Nat)
  | atsInvalidation (vf : Nat) (addr : DWord) (len : Nat)
  | frameRelease (frame : Nat)
  | dieShootdown (die : Nat) (firn : Bool) (frame : Nat)
  | shootdownComplete (frame : Nat)
  | zeroingComplete (frame : Nat)
  | engineOpStart (core op : Nat)
  | engineOpComplete (core op : Nat)
  | streamBuffer (core gen : Nat)
  | matrixQueueStart (core : Nat)
  | mxmulKblock (core : Nat)
  | matrixPathIdleRelease (core : Nat)
  | commReady (key : Nat)
  | commFormTimeout (key : Nat)
  | abortNotice (key k : Nat)
  | collDecisionTimeout (key k : Nat)
  | gridStart (ctx queue seq : Nat)
  | teamAdmit (ctx queue seq unit : Nat)
  | teamRetire (core ctx queue seq team : Nat)
  | priorityAging (ctx queue seq : Nat)
  | revokeComplete (ctx : Nat)
  | killComplete (ctx : Nat)
  | sliceExpiry (core vf : Nat)
  | overrunLimitExpiry (core vf : Nat)
  | drainQuiescence (core ctx : Nat)
  | preemptTimeout (core ctx : Nat)
  | contextRestore (core ctx : Nat)
  | rootStart (vf : Nat) (value : DWord)
  | create (vf : Nat)
  | save (vf : Nat)
  | restore (vf : Nat)
  | rootCmdInvalid (vf : Nat) (value : DWord)
  | fqResume (vf : Nat) (value : DWord)
  | fqConfigWrite (vf : Nat) (size : Bool) (value : DWord)
  | aperBaseWrite (vf : Nat) (value : DWord)
  | handoverToHost (vf : Nat) (word3 : DWord)
  | handoverToDevice (vf : Nat) (word3 : DWord)
  | releaseCommand (vf : Nat) (value : DWord)
  | kick (vf e : Nat)
  | vfRegisterWrite (vf off : Nat) (value : DWord) (width : Nat)
  | bar2Read (vf off n : Nat)
  | bar2Write (vf off : Nat) (data : List (BitVec 8))
  | bar2Atomicop (vf off : Nat) (op : AtomOp) (aw : AWidth) (v cmp : BitVec 128)
  | flr (vf : Nat)
  | flrComplete (vf : Nat)
  | hotReset
  | powerGood (version : Nat) (image : List (BitVec 8))
  | firmwareUpdate (version : Nat) (image : List (BitVec 8))
  | regionDescriptorWrite (idx : Nat) (w0 w1 w2 w3 : DWord)
  | partitionCut (runs : List (Nat × Nat))
  | resourceProfileAssign (vf part : Nat) (p : Profile)
  | imageMove (handle : Nat) (incoming : Bool)
  | thermalThrottle (die : Nat)
  | panelPowerOff
  | currentClamp (die : Nat)
  | vociaFlitReceive (port : Nat) (flit : Flit)
  | vociaPathLoss (port : Nat)
  | homeRead (req : Nat)
  | windowAccessArrive (req : Nat)
  | fqHeadWrite (vf : Nat) (value : DWord)
  | imageRelease (handle : Nat)
  | atomicopRequesterEnable (vf : Nat) (enable : Bool)
  deriving DecidableEq, Repr

end Sys2Proof
end

