-- ==== Sys2Proof/WellFormed.lean ====
section
/-! DEFINITION. The form of every instruction (Tables 11.5 to 11.17): its codes, its layout fields, the
ports it uses, the width of its result, its LONG rule and where it runs; and the checks that make an
instruction well formed (steps 5 of Table 11.18, R252 to R263). -/

namespace Sys2Proof

/-- Column LONG of the opcode map (R263). -/
inductive LongRule where
  | no | yes | opt | wide
  deriving DecidableEq, Repr

/-- Column Runs in of the opcode map (R263). -/
inductive RunsIn where
  | both | warp | control
  deriving DecidableEq, Repr

/-- The second word of an instruction, by its layout (R253). -/
inductive Second where
  | none
  | targets (e : Ext)
  | imm (x : BitVec 64)
  | off2 (o : BitVec 27)
  deriving DecidableEq, Repr

/-- What the opcode map says of one instruction. -/
structure Form where
  opc    : BitVec 8
  var    : BitVec 4
  ty     : BitVec 3
  fmtf   : BitVec 27
  wd     : Wd
  second : Second
  /-- ports the form uses, port p apart (R256) -/
  ports  : List PortName
  /-- bits of the result: 0 (none), 32, 64 or 128 (R255) -/
  res    : Nat
  long   : LongRule
  runs   : RunsIn
  /-- marked F in Table 11.16 (R248) -/
  flag   : Bool
  /-- a successor instruction, TRET included (R197, R404) -/
  succ   : Bool
  /-- an effect instruction (R206) -/
  effect : Bool
  /-- the form's own rules on its fields -/
  ok     : Bool
  deriving DecidableEq, Repr

/-! ## Codes -/

def Fmt.code : Fmt → BitVec 4
  | .fp32 => 0 | .fp16 => 1 | .bf16 => 2 | .e4m3 => 3 | .e5m2 => 4 | .e2m1 => 5 | .int32 => 6
  | .int8 => 7 | .int4 => 8 | .ds8 => 9 | .e8m0 => 10 | .nat32 => 11 | .nat8 => 12

/-- Width of a format in bits (Table 7.1). -/
def Fmt.width : Fmt → Nat
  | .fp32 => 32 | .fp16 => 16 | .bf16 => 16 | .e4m3 => 8 | .e5m2 => 8 | .e2m1 => 4 | .int32 => 32
  | .int8 => 8 | .int4 => 4 | .ds8 => 8 | .e8m0 => 8 | .nat32 => 32 | .nat8 => 8

/-- FP32, FP16 or BF16: the formats .ftz acts on (R158). -/
def Fmt.flushable : Fmt → Bool
  | .fp32 | .fp16 | .bf16 => true
  | _ => false

/-- The floating-point formats of Table 7.2. -/
def Fmt.floating : Fmt → Bool
  | .fp32 | .fp16 | .bf16 | .e4m3 | .e5m2 | .e2m1 => true
  | _ => false

/-- The pairs of Table 7.7 (R169). -/
def cvtPair (src dst : Fmt) : Bool :=
  match src with
  | .fp32 | .fp16 | .bf16 => dst != .ds8 && dst != .e8m0
  | .e4m3 | .e5m2 | .e2m1 => dst.floating
  | .int32 | .nat32 | .int8 | .nat8 | .int4 =>
    match dst with
    | .fp32 | .fp16 | .bf16 | .int32 | .nat32 | .int8 | .nat8 | .int4 => true
    | _ => false
  | .e8m0 => dst == .fp32
  | .ds8 => false

def Rnd.code : Rnd → BitVec 3
  | .rne => 0 | .rz => 1 | .ru => 2 | .rd => 3 | .sr => 4

def Order.code : Order → BitVec 2
  | .none => 0 | .acq => 1 | .rel => 2 | .acqrel => 3

def Scope.code : Scope → BitVec 3
  | .warp => 0 | .team => 1 | .die => 2 | .dev => 3 | .sys => 4

def MClass.code : MClass → BitVec 2
  | .rnd => 0 | .str => 1 | .ord => 2

def Sz.code : Sz → BitVec 3
  | .b8 => 0 | .b16 => 1 | .b32 => 2 | .b64 => 3 | .b128 => 4

/-- Bytes of an access size. -/
def Sz.bytes : Sz → Nat
  | .b8 => 1 | .b16 => 2 | .b32 => 4 | .b64 => 8 | .b128 => 16

def AWidth.code : AWidth → BitVec 3
  | .w32 => 0 | .w64 => 1 | .w128 => 2

/-- Bytes of an atomic width. -/
def AWidth.bytes : AWidth → Nat
  | .w32 => 4 | .w64 => 8 | .w128 => 16

def Space.code : Space → BitVec 4
  | .gl => 0 | .sp => 1 | .wn => 2

def AtomOp.code : AtomOp → BitVec 4
  | .add => 0 | .minS => 1 | .minN => 2 | .maxS => 3 | .maxN => 4 | .and => 5 | .or => 6 | .xor => 7
  | .exch => 8 | .cas => 9 | .fadd => 10 | .hadd2 => 11 | .badd2 => 12 | .fmin => 13 | .fmax => 14

/-- The widths Table 6.2 lists for an operation (R143). -/
def AtomOp.widthOk : AtomOp → AWidth → Bool
  | .cas, _ => true
  | .fadd, .w32 | .hadd2, .w32 | .badd2, .w32 | .fmin, .w32 | .fmax, .w32 => true
  | .fadd, _ | .hadd2, _ | .badd2, _ | .fmin, _ | .fmax, _ => false
  | _, .w128 => false
  | _, _ => true

def CmpRel.code : CmpRel → BitVec 4
  | .eq => 0 | .ne => 1 | .lt => 2 | .le => 3 | .gt => 4 | .ge => 5

def FCmpRel.code : FCmpRel → BitVec 4
  | .eq => 0 | .ne => 1 | .lt => 2 | .le => 3 | .gt => 4 | .ge => 5 | .unordered => 6 | .ordered => 7

def ShflMode.code : ShflMode → BitVec 4
  | .idx => 0 | .up => 1 | .down => 2 | .xor => 3

def VoteMode.code : VoteMode → BitVec 4
  | .any => 0 | .all => 1 | .ballot => 2

def RedOp.code : RedOp → BitVec 4
  | .add => 0 | .min => 1 | .max => 2 | .and => 3 | .or => 4 | .xor => 5 | .fadd => 6 | .fmin => 7 | .fmax => 8

/-- The floating operations of REDUCE and SCAN (R306). -/
def RedOp.floating : RedOp → Bool
  | .fadd | .fmin | .fmax => true
  | _ => false

def MxArr.code : MxArr → BitVec 4
  | .a2048 => 0 | .a512 => 1 | .a128 => 2

/-! ## Layout fields (Table 11.7), bit 0 of a field word being bit 37 of the instruction word -/

def packBool (b : Bool) : BitVec 1 := BitVec.ofBool b

def RegSpec.byte (r : RegSpec) : BitVec 8 := packBool r.scalar ++ r.num

def packG (r : RegSpec) : BitVec 27 := (0 : BitVec 19) ++ r.byte

def packA (imm : Option (BitVec 17)) (absC absB absA negC negB negA : Bool) (rnd : BitVec 3) : BitVec 27 :=
  imm.getD 0 ++ packBool imm.isSome ++ packBool absC ++ packBool absB ++ packBool absA ++ packBool negC ++
    packBool negB ++ packBool negA ++ rnd

def packM (off : BitVec 19) (win : Bool) (order : Order) (scope : Scope) (cls : MClass) : BitVec 27 :=
  off ++ packBool win ++ order.code ++ scope.code ++ cls.code

def packF (order : Order) (scope : Scope) (mask : BitVec 3) : BitVec 27 :=
  (0 : BitVec 19) ++ order.code ++ scope.code ++ mask

def packH (num : BitVec 6) : BitVec 27 := (0 : BitVec 21) ++ num

def packE (scope : Scope) (tok : Option (BitVec 6)) : BitVec 27 :=
  (0 : BitVec 17) ++ scope.code ++ packBool tok.isSome ++ tok.getD 0

def packS (sel : BitVec 16) : BitVec 27 := (0 : BitVec 11) ++ sel

def packC (ftz sat : Bool) (rnd : Rnd) (dst src : Fmt) : BitVec 27 :=
  (0 : BitVec 14) ++ packBool ftz ++ packBool sat ++ rnd.code ++ dst.code ++ src.code

def packV (excl : Bool) (rnd : Rnd) : BitVec 27 := (0 : BitVec 23) ++ packBool excl ++ rnd.code

/-- TYPE set W. -/
def tyW (w64 : Bool) : BitVec 3 := if w64 then 1 else 0

/-- TYPE set I4. -/
def tyI (w64 nat : Bool) : BitVec 3 := (0 : BitVec 1) ++ packBool w64 ++ packBool nat

/-- TYPE set F2. -/
def tyF (ftz : Bool) : BitVec 3 := if ftz then 1 else 0

/-- TYPE set H4. -/
def tyH (bf ftz : Bool) : BitVec 3 := packBool bf ++ packBool (!bf) ++ packBool ftz

/-! ## System registers and TOPO selectors -/

/-- The system registers of Table 17.7. -/
inductive SysReg where
  | devRev | ctxId | ctxDepth | ctxSeed | ctxTroot | ctxFlags | coreLid | dieLid | devIdx | gridDim | teamDim
  | teamId | gridSeq | warpId | warpSlot | spBase | toff | trapCause | trapBlock | trapMask | trapEntry
  | tagx | splitfr | barstr
  deriving DecidableEq, Repr

/-- The register a SEL value names (Table 17.7). -/
def SysReg.ofSel (sel : BitVec 16) : Option SysReg :=
  match sel.toNat with
  | 0x000 => some .devRev | 0x001 => some .ctxId | 0x002 => some .ctxDepth | 0x003 => some .ctxSeed
  | 0x004 => some .ctxTroot | 0x005 => some .ctxFlags | 0x010 => some .coreLid | 0x011 => some .dieLid
  | 0x012 => some .devIdx | 0x020 => some .gridDim | 0x021 => some .teamDim | 0x022 => some .teamId
  | 0x023 => some .gridSeq | 0x024 => some .warpId | 0x025 => some .warpSlot | 0x026 => some .spBase
  | 0x030 => some .toff | 0x038 => some .trapCause | 0x039 => some .trapBlock | 0x03A => some .trapMask
  | 0x03B => some .trapEntry | 0x040 => some .tagx | 0x041 => some .splitfr | 0x042 => some .barstr
  | _ => none

def SysReg.wide : SysReg → Bool
  | .ctxSeed | .ctxTroot | .toff | .trapBlock | .trapEntry => true
  | _ => false

def SysReg.writable : SysReg → Bool
  | .ctxTroot | .trapEntry => true
  | _ => false

def SysReg.warpOnly : SysReg → Bool
  | .warpId | .warpSlot | .trapCause | .trapBlock | .trapMask | .trapEntry => true
  | _ => false

/-- The TOPO selectors of Table 17.8. -/
def topoSelOk (sel : BitVec 16) : Bool :=
  sel.toNat ≤ 6 || (0x100 ≤ sel.toNat && sel.toNat ≤ 0x17F) || (0x200 ≤ sel.toNat && sel.toNat ≤ 0x27F)

/-! ## Forms -/

/-- The second word a layout T form has. -/
def Wd.second (w : Wd) : Second := match w.ext with | none => .none | some e => .targets e

/-- A form with no fields of its own, from which the others are built. -/
def baseForm (opc : BitVec 8) (w : Wd) : Form :=
  { opc, var := 0, ty := 0, fmtf := 0, wd := w, second := w.second, ports := [], res := 0, long := .no,
    runs := .both, flag := false, succ := false, effect := false, ok := true }

def portsIf (b : Bool) (l : List PortName) : List PortName := if b then l else []

/-- Integer forms with ports a and, unless an immediate stands for it, b (R295). -/
def intForm (opc : BitVec 8) (o : IntOp) (usesB usesC : Bool) (res : Nat) : Form :=
  { baseForm opc o.wd with
    ty := tyI o.w64 o.nat
    fmtf := packA o.imm false false false false false false 0
    ports := [.a] ++ portsIf o.w64 [.ax] ++ portsIf (usesB && o.imm.isNone) ([.b] ++ portsIf o.w64 [.bx]) ++
      portsIf usesC ([.c] ++ portsIf o.w64 [.cx])
    res := res
    long := .opt
    ok := usesB || o.imm.isNone }

/-- The width of an integer form's result. -/
def IntOp.width (o : IntOp) : Nat := if o.w64 then 64 else 32

def intForm1 (opc : BitVec 8) (o : IntOp) : Form := intForm opc o false false o.width
def intForm2 (opc : BitVec 8) (o : IntOp) : Form := intForm opc o true false o.width
def intForm3 (opc : BitVec 8) (o : IntOp) : Form := intForm opc o true true o.width

/-- What a floating form does with operand b. -/
inductive FltB where
  | unused | float | int | half
  deriving DecidableEq, Repr

/-- Floating forms (R308). -/
def fltForm (opc : BitVec 8) (o : FltOp) (ty : BitVec 3) (b : FltB) (usesC : Bool) (rounds : Bool) : Form :=
  { baseForm opc o.wd with
    ty
    fmtf := packA o.imm o.absC o.absB o.absA o.negC o.negB o.negA o.rnd.code
    ports := [.a] ++ portsIf (b != .unused && o.imm.isNone) [.b] ++ portsIf usesC [.c]
    res := 32
    long := .opt
    ok := (b != .unused || o.imm.isNone) && ((b == .float || b == .half) || !(o.absB || o.negB)) &&
      (usesC || !(o.absC || o.negC)) && (if rounds then o.rnd != .sr else o.rnd == .rne) &&
      (b != .half || (o.imm.getD 0).toNat < 65536) }

/-- Conversion forms (R318). -/
def cvtForm (opc : BitVec 8) (o : CvtOp) : Form :=
  { baseForm opc o.wd with fmtf := packC o.ftz o.sat o.rnd o.dst o.src, res := 32, long := .opt }

/-- .ftz is accepted where FP32, FP16 or BF16 is FROM or TO (Table 14.7). -/
def CvtOp.ftzOk (o : CvtOp) : Bool := !o.ftz || o.src.flushable || o.dst.flushable

/-- The ports that carry an address of GL (a, a′) or of SP and WN (a). -/
def addrPorts (gl : Bool) : List PortName := [.a] ++ portsIf gl [.ax]

/-- The ports that carry the data of a store (Table 15.1). -/
def dataPorts : Sz → List PortName
  | .b8 | .b16 | .b32 => [.b]
  | .b64 => [.b, .bx]
  | .b128 => [.b, .bx, .c, .cx]

/-- The width of a load's result. -/
def Sz.res : Sz → Nat
  | .b8 | .b16 | .b32 => 32
  | .b64 => 64
  | .b128 => 128

def AWidth.res : AWidth → Nat
  | .w32 => 32 | .w64 => 64 | .w128 => 128

/-- A scope code other than 0 needs an order (R112). -/
def MemOp.scopeOk (o : MemOp) : Bool := o.order != .none || o.scope == .warp

/-- Memory forms (R328); `orders` lists the order codes the form accepts (R112). -/
def memForm (opc : BitVec 8) (o : MemOp) (win gl : Bool) (orders : List Order) (ports : List PortName)
    (res : Nat) (long : LongRule) : Form :=
  { baseForm opc o.wd with
    fmtf := packM o.off win o.order o.scope o.cls
    ports := addrPorts gl ++ ports
    res, long, effect := true
    ok := orders.contains o.order && o.scopeOk && (gl || o.cls == .rnd) }

/-- The operand ports of an atomic (R338, R339). -/
def atomPorts (op : AtomOp) (aw : AWidth) : List PortName :=
  match aw with
  | .w128 => [.b]
  | .w64 => [.b, .bx] ++ portsIf (op == .cas) [.c, .cx]
  | .w32 => [.b] ++ portsIf (op == .cas) [.c]

/-- Layout H forms (Table 11.15). -/
def hForm (opc : BitVec 8) (w : Wd) (num : BitVec 6) (ports : List PortName) (res : Nat) (runs : RunsIn) : Form :=
  { baseForm opc w with
    fmtf := packH num, ports, res, runs, long := if res = 0 then .no else .opt, effect := true }

/-- Layout E forms (R352): flag-capable, with a parameter block's address unless `ports` says otherwise. -/
def eForm (opc : BitVec 8) (var : BitVec 4) (e : EngForm) (ports : List PortName) (long : LongRule)
    (runs : RunsIn) : Form :=
  { baseForm opc e.wd with
    var, fmtf := packE e.scope e.tok, ports, long, runs, flag := true, effect := true }

/-- Layout N forms that act on state (Tables 11.16 and 11.17). -/
def nForm (opc : BitVec 8) (var : BitVec 4) (w : Wd) (ports : List PortName) (res : Nat) (long : LongRule)
    (runs : RunsIn) : Form :=
  { baseForm opc w with var, ports, res, long, runs, effect := true }

/-- Successor instructions (Table 13.2). -/
def sForm (opc : BitVec 8) (w : Wd) (fmtf : BitVec 27) (second : Second) (ports : List PortName)
    (long : LongRule) : Form :=
  { baseForm opc w with fmtf, second, ports, long, succ := true, effect := true }

/-- A .64 form names an even vector register, or a scalar register (R252). -/
def pairOk (w64 : Bool) (r : RegSpec) : Bool := !w64 || r.scalar || !r.num.getLsbD 0

/-- The form of an instruction; a machine operation or event has none. -/
def Instr.form : Instr → Option Form
  | .getr w w64 reg => some { baseForm 0x01 w with ty := tyW w64, fmtf := packG reg, long := .opt, res := if w64 then 64 else 32
                                                   ok := pairOk w64 reg }
  | .setr w w64 reg => some { baseForm 0x02 w with ty := tyW w64, fmtf := packG reg, long := .wide, ports := [.a] ++ portsIf w64 [.ax], effect := true
                                                   ok := pairOk w64 reg }
  | .fan w w64 => some { baseForm 0x03 w with ty := tyW w64, long := .opt, ports := [.a] ++ portsIf w64 [.ax], res := if w64 then 64 else 32 }
  | .movi w w64 imm imm64 => some { baseForm 0x04 w with
      ty := tyW w64, fmtf := imm, res := if w64 then 64 else 32, long := .opt
      second := match imm64 with | none => .none | some x => .imm x
      ok := match imm64 with | none => true | some x => imm == 0 && (w64 || x.toNat < 2^32) }
  | .sel w w64 => some { baseForm 0x05 w with ty := tyW w64, long := .opt, res := if w64 then 64 else 32
                                              ports := [.a, .b, .c] ++ portsIf w64 [.ax, .bx] }
  | .sink w => some { baseForm 0x06 w with ports := [.a] }
  | .br w off => some (sForm 0x07 w off .none [] .no)
  | .brc w off off2 => some (sForm 0x08 w off (.off2 off2) [.a] .yes)
  | .bri w => some { sForm 0x09 w 0 w.second [.a, .ax] .yes with ok := true }
  | .call w off off2 => some (sForm 0x0A w off (.off2 off2) [] .yes)
  | .calli w off2 => some (sForm 0x0B w 0 (.off2 off2) [.a, .ax] .yes)
  | .ret w => some (sForm 0x0C w 0 .none [] .no)
  | .exit w => some (sForm 0x0D w 0 .none [] .no)
  | .loop w off2 => some (sForm 0x0E w 0 (.off2 off2) [.a] .yes)
  | .trap w code => some { baseForm 0x0F w with fmtf := (0 : BitVec 11) ++ code, effect := true }
  | .iadd o => some (intForm2 0x10 o)
  | .isub o => some (intForm2 0x11 o)
  | .imul o => some (intForm2 0x12 o)
  | .imulh o => some (intForm2 0x13 o)
  | .imad o => some (intForm3 0x14 o)
  | .ineg o => some (intForm1 0x15 o)
  | .iabs o => some (intForm1 0x16 o)
  | .imin o => some (intForm2 0x17 o)
  | .imax o => some (intForm2 0x18 o)
  | .idiv o => some (intForm2 0x19 o)
  | .irem o => some (intForm2 0x1A o)
  | .iand o => some (intForm2 0x1B o)
  | .ior o => some (intForm2 0x1C o)
  | .ixor o => some (intForm2 0x1D o)
  | .inot o => some (intForm1 0x1E o)
  | .andn o => some (intForm2 0x1F o)
  | .shl o => some (intForm2 0x20 o)
  | .shr o => some (intForm2 0x21 o)
  | .sar o => some (intForm2 0x22 o)
  | .rol o => some (intForm2 0x23 o)
  | .ror o => some (intForm2 0x24 o)
  | .popc o => some (intForm1 0x25 o)
  | .clz o => some (intForm1 0x26 o)
  | .ctz o => some (intForm1 0x27 o)
  | .brev o => some (intForm1 0x28 o)
  | .bfx o => some (intForm2 0x29 o)
  | .bfi o => some (intForm3 0x2A o)
  | .icmp rel o => some { intForm 0x2B o true false 32 with var := rel.code }
  | .lea sh o => some { intForm2 0x2C o with var := sh }
  | .laneid w => some { baseForm 0x40 w with long := .opt, res := 32, runs := .warp }
  | .shfl m w w64 => some { baseForm 0x41 w with
      var := m.code, ty := tyW w64, long := .opt, runs := .warp, ports := [.a] ++ portsIf w64 [.ax] ++ [.b]
      res := if w64 then 64 else 32 }
  | .bcast w w64 => some { baseForm 0x42 w with
      ty := tyW w64, long := .opt, runs := .warp, ports := [.a] ++ portsIf w64 [.ax], res := if w64 then 64 else 32 }
  | .vote m w => some { baseForm 0x43 w with var := m.code, long := .opt, runs := .warp, ports := [.a], res := 32 }
  | .reduce op w w64 nat rnd => some { baseForm 0x44 w with
      var := op.code, ty := tyI w64 nat, fmtf := packV false rnd, long := .opt, runs := .warp
      ports := [.a] ++ portsIf w64 [.ax], res := if w64 then 64 else 32
      ok := (!op.floating || !w64) && (if op == .fadd then rnd != .sr else rnd == .rne) }
  | .scan op w w64 nat excl rnd => some { baseForm 0x45 w with
      var := op.code, ty := tyI w64 nat, fmtf := packV excl rnd, long := .opt, runs := .warp
      ports := [.a] ++ portsIf w64 [.ax], res := if w64 then 64 else 32
      ok := (!op.floating || !w64) && (if op == .fadd then rnd != .sr else rnd == .rne) }
  | .fadd o => some (fltForm 0x50 o (tyF o.ftz) .float false true)
  | .fsub o => some (fltForm 0x51 o (tyF o.ftz) .float false true)
  | .fmul o => some (fltForm 0x52 o (tyF o.ftz) .float false true)
  | .ffma o => some (fltForm 0x53 o (tyF o.ftz) .float true true)
  | .fmin num o => some { fltForm 0x54 o (tyF o.ftz) .float false false with var := if num then 1 else 0 }
  | .fmax num o => some { fltForm 0x55 o (tyF o.ftz) .float false false with var := if num then 1 else 0 }
  | .fcmp rel o => some { fltForm 0x56 o (tyF o.ftz) .float false false with var := rel.code }
  | .fdiv o => some (fltForm 0x57 o (tyF o.ftz) .float false true)
  | .fsqrt o => some (fltForm 0x58 o (tyF o.ftz) .unused false true)
  | .frcp o => some (fltForm 0x59 o (tyF o.ftz) .unused false false)
  | .frsq o => some (fltForm 0x5A o (tyF o.ftz) .unused false false)
  | .fex2 o => some (fltForm 0x5B o (tyF o.ftz) .unused false false)
  | .flg2 o => some (fltForm 0x5C o (tyF o.ftz) .unused false false)
  | .fsin o => some (fltForm 0x5D o (tyF o.ftz) .unused false false)
  | .fcos o => some (fltForm 0x5E o (tyF o.ftz) .unused false false)
  | .frnd o => some (fltForm 0x5F o (tyF o.ftz) .unused false true)
  | .fclass o => some (fltForm 0x60 o (tyF o.ftz) .unused false false)
  | .fldexp o => some (fltForm 0x61 o (tyF o.ftz) .int false true)
  | .hadd2 bf o => some (fltForm 0x62 o (tyH bf o.ftz) .half false true)
  | .hmul2 bf o => some (fltForm 0x63 o (tyH bf o.ftz) .half false true)
  | .hfma2 bf o => some (fltForm 0x64 o (tyH bf o.ftz) .half true true)
  | .cvt o => some { cvtForm 0x70 o with
      ports := [.a], ok := cvtPair o.src o.dst && o.rnd != .sr && o.ftzOk }
  | .cvtSr o => some { cvtForm 0x71 o with
      ports := [.a] ++ portsIf (o.dst.width ≤ 16 && o.src.width == 32) [.ax] ++ [.b], runs := .warp
      ok := cvtPair o.src o.dst && o.dst.floating && o.rnd == .sr && o.ftzOk }
  | .pack o => some { cvtForm 0x72 o with
      ports := [.a, .b]
      res := if 64 * o.dst.width ≤ 32 * o.src.width then 32 else 64 * o.dst.width / o.src.width
      ok := cvtPair o.src o.dst && o.dst.width < 32 && 64 * o.dst.width ≤ 128 * o.src.width && o.rnd != .sr && o.ftzOk }
  | .unpack o => some { cvtForm 0x73 o with
      ports := [.a, .b]
      ok := cvtPair o.src o.dst && o.src.width < 32 && o.dst.width == 32 && o.rnd != .sr && o.ftzOk }
  | .dsenc o => some { cvtForm 0x74 o with
      ports := [.a], ok := o.src.flushable && o.dst == .ds8 && o.rnd == .rne && !o.sat }
  | .dsdec o => some { cvtForm 0x75 o with
      ports := [.a], ok := o.src == .ds8 && o.dst.flushable && o.rnd == .rne && !o.sat && !o.ftz }
  | .scaleq o => some { cvtForm 0x76 o with
      ports := [.a, .b], ok := o.src.flushable && o.dst == .e8m0 && o.rnd == .rne && !o.sat }
  | .quant o => some { cvtForm 0x77 o with
      ports := [.a, .b]
      ok := o.src.flushable && !o.sat && ((o.dst == .int8 && o.rnd != .sr) || (o.dst == .ds8 && o.rnd == .rne)) }
  | .rng w => some { baseForm 0x78 w with long := .opt, res := 32, runs := .warp }
  | .ld sz o => some { memForm 0x80 o false true [.none, .acq] [] sz.res .yes with ty := sz.code }
  | .st sz o => some { memForm 0x81 o false true [.none, .rel] (dataPorts sz) 0 .yes with ty := sz.code }
  | .lds sz o => some { memForm 0x82 o false false [.none, .acq] [] sz.res .opt with ty := sz.code }
  | .sts sz o => some { memForm 0x83 o false false [.none, .rel] (dataPorts sz) 0 .wide with ty := sz.code }
  | .ldw sz o => some { memForm 0x84 o false false [.none, .acq] [] sz.res .opt with ty := sz.code }
  | .stw sz o => some { memForm 0x85 o false false [.none, .rel] (dataPorts sz) 0 .wide with ty := sz.code }
  | .ldres space w64 o => some { memForm 0x86 o false (space == .gl) [.none] [] (if w64 then 64 else 32)
      (if space == .gl then .yes else .opt) with var := space.code, ty := tyW w64 }
  | .stcond space w64 o => some { memForm 0x87 o false (space == .gl) [.none] ([.b] ++ portsIf w64 [.bx]) 32
      (if space == .gl then .yes else .opt) with var := space.code, ty := tyW w64 }
  | .pref o =>
    let f := memForm 0x88 o false true [.none] [] 0 .yes
    some { f with ok := f.ok && o.cls != .ord }
  | .atom op aw o =>
    let f := memForm 0x89 o false true [.none, .acq, .rel, .acqrel] (atomPorts op aw) aw.res .yes
    some { f with var := op.code, ty := aw.code, ok := f.ok && op.widthOk aw }
  | .atoms op aw wn o =>
    let f := memForm 0x8A o wn false [.none, .acq, .rel, .acqrel] (atomPorts op aw) aw.res .opt
    some { f with var := op.code, ty := aw.code, ok := f.ok && op.widthOk aw && aw != .w128 }
  | .red op aw o =>
    let f := memForm 0x8B o false true [.none] (atomPorts op aw) 0 .yes
    some { f with var := op.code, ty := aw.code
                  ok := f.ok && op.widthOk aw && aw != .w128 && op != .exch && op != .cas }
  | .fence w order scope mask => some { baseForm 0x8C w with
      fmtf := packF order scope mask, effect := true, ok := order != .none && mask != 0 }
  | .bar w => some (hForm 0xA0 w 0 [] 0 .warp)
  | .gbar w => some (hForm 0xA1 w 0 [] 0 .warp)
  | .nbjoin w n => some (hForm 0xA2 w n [.a] 0 .warp)
  | .nbarrive w n => some (hForm 0xA3 w n [.a] 0 .warp)
  | .nbwait w n => some (hForm 0xA4 w n [] 32 .warp)
  | .nbsync w n => some (hForm 0xA5 w n [.a] 32 .warp)
  | .waitf w n => some { hForm 0xA6 w n [] 0 .both with ok := n.toNat < 12 }
  | .evwait w n => some (hForm 0xA7 w n [.a] 0 .both)
  | .evsig w n => some (hForm 0xA8 w n [] 0 .both)
  | .send w n => some (hForm 0xA9 w n [.a] 0 .warp)
  | .recv w n => some (hForm 0xAA w n [] 32 .warp)
  | .chstat w n => some (hForm 0xAB w n [] 32 .both)
  | .chresize w n => some (hForm 0xAC w n [.a] 32 .both)
  | .copy e => some (eForm 0xB0 0 e [.a, .ax] .yes .both)
  | .copy2d e => some (eForm 0xB1 0 e [.a, .ax] .yes .both)
  | .tcopy e => some (eForm 0xB2 0 e [.a, .ax] .yes .both)
  | .gath e => some (eForm 0xB3 0 e [.a, .ax] .yes .both)
  | .scat e => some (eForm 0xB4 0 e [.a, .ax] .yes .both)
  | .fill sz e => some { eForm 0xB5 0 e [.a, .ax] .yes .both with ty := sz.code, ok := sz != .b128 }
  | .stream e => some (eForm 0xB6 0 e [.a, .ax] .yes .control)
  | .strmctlStart w => some (nForm 0xB7 0 w [.a] 32 .opt .control)
  | .strmctlPause w => some (nForm 0xB7 1 w [.a] 32 .opt .control)
  | .strmctlResume w => some (nForm 0xB7 2 w [.a] 32 .opt .control)
  | .strmctlCancel w => some (nForm 0xB7 3 w [.a] 32 .opt .control)
  | .istream e => some (eForm 0xB8 0 e [.a, .ax] .yes .both)
  | .handoffTohost e => some (eForm 0xB9 0 e [.a, .ax] .yes .both)
  | .handoffTodevice e => some (eForm 0xB9 1 e [.a, .ax] .yes .both)
  | .mxcfg arr w => some (nForm 0xC0 arr.code w [] 0 .no .control)
  | .mxcfgRelease w => some (nForm 0xC0 3 w [] 0 .no .control)
  | .mxload e => some (eForm 0xC1 0 e [.a, .ax] .yes .control)
  | .mxfeed w => some (nForm 0xC2 0 w [.a, .b] 0 .opt .warp)
  | .mxfeeds e => some (eForm 0xC3 0 e [.a, .b, .c] .opt .both)
  | .mxmul e => some (eForm 0xC4 0 e [.a, .b] .opt .control)
  | .mxzero w => some (nForm 0xC5 0 w [.a] 0 .no .both)
  | .mxdrain o => some { cvtForm 0xC6 o with
      ports := [.a] ++ portsIf (o.rnd == .sr) [.b], runs := .warp, effect := true
      ok := o.src == .fp32 && o.dst.flushable }
  | .mxstat w => some (nForm 0xC7 0 w [] 32 .opt .both)
  | .commnew w => some (nForm 0xD0 0 w [.a, .ax] 32 .opt .both)
  | .commfree w => some (nForm 0xD1 0 w [.a] 32 .opt .both)
  | .commstat w => some (nForm 0xD3 0 w [.a] 32 .opt .both)
  | .collAllreduce e => some { eForm 0xD2 0 e [.a, .ax] .yes .both with ok := e.scope == .sys }
  | .collReduce e => some { eForm 0xD2 1 e [.a, .ax] .yes .both with ok := e.scope == .sys }
  | .collBroadcast e => some { eForm 0xD2 2 e [.a, .ax] .yes .both with ok := e.scope == .sys }
  | .collAllgather e => some { eForm 0xD2 3 e [.a, .ax] .yes .both with ok := e.scope == .sys }
  | .collReducescatter e => some { eForm 0xD2 4 e [.a, .ax] .yes .both with ok := e.scope == .sys }
  | .collAlltoall e => some { eForm 0xD2 5 e [.a, .ax] .yes .both with ok := e.scope == .sys }
  | .collBarrier e => some { eForm 0xD2 6 e [.a, .ax] .yes .both with ok := e.scope == .sys }
  | .launch w => some (nForm 0xE0 0 w [.a, .ax, .b] 32 .yes .both)
  | .lstat w => some (nForm 0xE1 0 w [.a, .b] 32 .opt .both)
  | .ctxnew w => some (nForm 0xE2 0 w [.a, .ax] 32 .yes .both)
  | .ctxgrant w => some (nForm 0xE3 0 w [.a, .ax, .b] 32 .yes .both)
  | .ctxrevoke w => some (nForm 0xE4 0 w [.a, .ax, .b] 32 .yes .both)
  | .ctxkill w => some (nForm 0xE5 0 w [.a, .b, .bx] 32 .yes .both)
  | .ctxrunResume w => some (nForm 0xE6 0 w [.a, .b] 32 .opt .both)
  | .ctxrunReflect w => some (nForm 0xE6 1 w [.a, .b, .c] 32 .opt .both)
  | .ctxstat w => some (nForm 0xE7 0 w [.a, .b] 32 .opt .both)
  | .tlbinv w => some (nForm 0xE8 0 w [.a, .ax, .b] 0 .yes .both)
  | .fqpop w => some (nForm 0xE9 0 w [.a, .ax] 32 .yes .both)
  | .rdsys w n =>
    let reg := SysReg.ofSel n
    some { nForm 0xF0 0 w [] (if (reg.map SysReg.wide).getD false then 64 else 32) .opt
        (if (reg.map SysReg.warpOnly).getD false then .warp else .both) with
      fmtf := packS n, ok := reg.isSome }
  | .wrsys w n =>
    let reg := SysReg.ofSel n
    let wide := (reg.map SysReg.wide).getD false
    some { nForm 0xF1 0 w ([.a] ++ portsIf wide [.ax]) 0 .opt
        (if (reg.map SysReg.warpOnly).getD false then .warp else .both) with
      fmtf := packS n, ok := (reg.map SysReg.writable).getD false }
  | .topo w n => some { nForm 0xF2 0 w [] 32 .opt .both with fmtf := packS n, ok := topoSelOk n }
  | .time w => some (nForm 0xF3 0 w [] 64 .yes .both)
  | .latband w => some (nForm 0xF4 0 w [.a] 32 .opt .both)
  | .capw w => some (nForm 0xF5 0 w [.a] 64 .yes .both)
  | .trace w => some (nForm 0xF6 0 w [.a] 0 .no .both)
  | .tmaskMask w => some (nForm 0xF7 0 w [] 0 .no .warp)
  | .tmaskUnmask w => some (nForm 0xF7 1 w [] 0 .no .warp)
  | .tret w => some { nForm 0xF8 0 w [] 0 .no .warp with succ := true }
  | _ => none

/-! ## Checks -/

/-- A 64-bit or 128-bit operand: some extension port is used. -/
def Form.wideOperand (f : Form) : Bool := f.ports.any (fun q => q == .ax || q == .bx || q == .cx)

/-- LONG is 1. -/
def Form.isLong (f : Form) : Bool := f.second != .none

/-- A 64-bit or 128-bit result (R255, R263); MOVI.64 too, though its high half goes to T1 (log 34). -/
def Form.wideResult (f : Form) : Bool := 32 < f.res

/-- The LONG rule (R263). -/
def Form.longOk (f : Form) : Bool :=
  match f.long with
  | .no => !f.isLong
  | .yes => f.isLong
  | .opt => f.isLong || !(f.wideOperand || f.wideResult)
  | .wide => f.isLong == f.wideOperand

/-- T2 and T3. -/
def Form.ext (f : Form) : Ext := match f.second with | .targets e => e | _ => ⟨none, none⟩

/-- The targets of the instruction, T0 to T3. -/
def Form.targets (f : Form) : List (Option Target) := [f.wd.t0, f.wd.t1, f.ext.t2, f.ext.t3]

/-- A form that produces no result has no target (R254). -/
def Form.targetsOk (f : Form) : Bool := f.res != 0 || f.targets.all (fun t => t.isNone)

/-- The layout T word stands exactly where the form's second word has that layout. -/
def Form.extOk (f : Form) : Bool :=
  match f.second with
  | .targets e => f.wd.ext == some e
  | _ => f.wd.ext.isNone

/-- FSEL belongs to the flag-capable forms (R263). -/
def Form.fselOk (f : Form) : Bool := f.flag || !f.wd.fsel

/-- Every check of one instruction word that decode makes. -/
def Form.wellFormed (f : Form) : Bool := f.ok && f.longOk && f.targetsOk && f.extOk && f.fselOk

/-- The units that a machine operation names exist. -/
def Instr.eventOk : Instr → Bool
  | .blockAdmit c sl | .blockCommit c sl | .fairnessTimer c sl => c < Config.coresBuilt && sl < Config.warpSlots
  | .tokenArrive c n | .tagExhausted c n => c < Config.coresBuilt && n < Config.nodes
  | .blockDiscard c sl t | .blockStuck c sl t => c < Config.coresBuilt && sl < Config.warpSlots && t < 32
  | .dcuRequest d | .dieShootdown d _ _ | .thermalThrottle d | .currentClamp d | .presenceInvalidation d _ =>
    d < Config.seracDies
  | .reservationPinExpiry p onFirn => p < (if onFirn then Config.hbmStacks else Config.coresBuilt)
  | .translationWalk u onFirn => u < (if onFirn then Config.hbmStacks else Config.seracDies)
  | .flushingReadDone c vf => c < Config.coresBuilt && vf < Config.functions
  | .atsResponse vf _ _ _ | .priSuccess vf _ | .priInvalidRequest vf _ | .priResponseFailure vf _
  | .priTimeout vf _ | .priQuarantineExpiry vf _ | .atsInvalidation vf _ _ | .rootStart vf _ | .create vf
  | .save vf | .restore vf | .rootCmdInvalid vf _ | .fqResume vf _ | .fqConfigWrite vf _ _ | .aperBaseWrite vf _
  | .handoverToHost vf _ | .handoverToDevice vf _ | .releaseCommand vf _ | .kick vf _ | .vfRegisterWrite vf _ _ _
  | .bar2Read vf _ _ | .bar2Write vf _ _ | .bar2Atomicop vf _ _ _ _ _ | .flr vf | .flrComplete vf
  | .resourceProfileAssign vf _ _ | .fqHeadWrite vf _ | .atomicopRequesterEnable vf _ => vf < Config.functions
  | .engineOpStart c _ | .engineOpComplete c _ | .matrixQueueStart c | .mxmulKblock c | .matrixPathIdleRelease c
  | .drainQuiescence c _ | .preemptTimeout c _ | .contextRestore c _ | .teamRetire c _ _ _ _ => c < Config.coresBuilt
  | .streamBuffer c g => c < Config.coresBuilt && g < 8
  | .sliceExpiry c vf | .overrunLimitExpiry c vf => c < Config.coresBuilt && vf < Config.functions
  | .regionDescriptorWrite i _ _ _ _ => i < 256
  | .vociaFlitReceive p _ | .vociaPathLoss p => p < Config.vociaPorts
  | _ => true

/-- The instruction is one the device accepts, wherever it runs. -/
def Instr.wellFormed (i : Instr) : Bool :=
  match i.form with
  | some f => f.wellFormed
  | none => i.eventOk

end Sys2Proof
end

