-- ==== Sys2Proof/Decode.lean ====
section
/-! DEFINITION. The decoder of instruction words (Tables 11.5 to 11.17), total and rejecting by name, and the
encoder. A word is accepted only when the encoding of the instruction read from it is that word, so every
reserved bit and every field the form does not use is checked (R257). -/

namespace Sys2Proof

/-- Why a word is refused; each of these is ILLEGAL_INSTR (R264). -/
inductive DecErr where
  /-- no opcode, variant or field code of the map (R263) -/
  | unassigned
  /-- a reserved bit is set, or a field the form does not use is not 0 (R257) -/
  | reservedSet
  /-- the form's own rules, the LONG rule, the target rules or FSEL (R252 to R261) -/
  | illegalForm
  /-- the second word would lie beyond the end (R253) -/
  | truncated
  deriving DecidableEq, Repr

/-! ## The word and its fields (Table 11.5) -/

/-- The fields of a first word. -/
structure RawWord where
  fmtf : BitVec 27
  t1   : BitVec 9
  t0   : BitVec 9
  fsel : BitVec 1
  long : BitVec 1
  pred : BitVec 2
  ty   : BitVec 3
  var  : BitVec 4
  opc  : BitVec 8
  deriving DecidableEq, Repr

/-- A first word from its fields. -/
def RawWord.bits (r : RawWord) : BitVec 64 :=
  r.fmtf ++ (r.t1 ++ (r.t0 ++ (r.fsel ++ (r.long ++ (r.pred ++ (r.ty ++ (r.var ++ r.opc)))))))

/-- The fields of a first word. -/
def RawWord.read (w : BitVec 64) : RawWord :=
  { fmtf := w.extractLsb' 37 27, t1 := w.extractLsb' 28 9, t0 := w.extractLsb' 19 9, fsel := w.extractLsb' 18 1
    long := w.extractLsb' 17 1, pred := w.extractLsb' 15 2, ty := w.extractLsb' 12 3, var := w.extractLsb' 8 4
    opc := w.extractLsb' 0 8 }

/-! ## Encoding -/

def Port.code : Port → BitVec 3
  | .a => 1 | .b => 2 | .c => 3 | .p => 4

/-- A target field (Table 11.6). -/
def packTarget : Option Target → BitVec 9
  | none => 0
  | some t => t.port.code ++ t.idx

def Pred.code : Pred → BitVec 2
  | .always => 0 | .ifTrue => 1 | .ifFalse => 2

/-- The second word (R253). -/
def Second.bits : Second → BitVec 64
  | .none => 0
  | .targets e => (0 : BitVec 46) ++ (packTarget e.t3 ++ packTarget e.t2)
  | .imm x => x
  | .off2 o => (0 : BitVec 37) ++ o

/-- The fields of a form's first word. -/
def Form.raw (f : Form) : RawWord :=
  { fmtf := f.fmtf, t1 := packTarget f.wd.t1, t0 := packTarget f.wd.t0, fsel := packBool f.wd.fsel
    long := packBool f.isLong, pred := f.wd.pred.code, ty := f.ty, var := f.var, opc := f.opc }

/-- The words of a form: one, or two where LONG is 1. -/
def Form.words (f : Form) : List (BitVec 64) := f.raw.bits :: (if f.isLong then [f.second.bits] else [])

/-- The words of an instruction; a machine operation has none. -/
def encode (i : Instr) : List (BitVec 64) :=
  match i.form with
  | some f => f.words
  | none => []

/-! ## Reading the fields -/

def readTarget (x : BitVec 9) : Option Target :=
  let idx := x.extractLsb' 0 6
  match x.extractLsb' 6 3 with
  | 1#3 => some ⟨.a, idx⟩
  | 2#3 => some ⟨.b, idx⟩
  | 3#3 => some ⟨.c, idx⟩
  | 4#3 => some ⟨.p, idx⟩
  | _ => none

def Pred.read (x : BitVec 2) : Pred :=
  match x with | 1#2 => .ifTrue | 2#2 => .ifFalse | _ => .always

def bit (x : BitVec 27) (n : Nat) : Bool := x.getLsbD n

/-- The layout T word. -/
def Ext.read (w2 : BitVec 64) : Ext := ⟨readTarget (w2.extractLsb' 0 9), readTarget (w2.extractLsb' 9 9)⟩

/-- The common fields of a form whose second word, if any, has layout T. -/
def RawWord.wdT (r : RawWord) (w2 : BitVec 64) : Wd :=
  { pred := .read r.pred, fsel := r.fsel == 1, t0 := readTarget r.t0, t1 := readTarget r.t1
    ext := if r.long == 1 then some (.read w2) else none }

/-- The common fields of a form whose second word has another layout. -/
def RawWord.wdN (r : RawWord) : Wd :=
  { pred := .read r.pred, fsel := r.fsel == 1, t0 := readTarget r.t0, t1 := readTarget r.t1, ext := none }

def readReg (f : BitVec 27) : RegSpec := ⟨f.getLsbD 7, f.extractLsb' 0 7⟩
def readRnd (x : BitVec 3) : Option Rnd :=
  match x with | 0#3 => some .rne | 1#3 => some .rz | 2#3 => some .ru | 3#3 => some .rd | 4#3 => some .sr | _ => none
def readOrder (x : BitVec 2) : Order := match x with | 0#2 => .none | 1#2 => .acq | 2#2 => .rel | _ => .acqrel
def readScope (x : BitVec 3) : Option Scope :=
  match x with | 0#3 => some .warp | 1#3 => some .team | 2#3 => some .die | 3#3 => some .dev | 4#3 => some .sys | _ => none
def readClass (x : BitVec 2) : Option MClass :=
  match x with | 0#2 => some .rnd | 1#2 => some .str | 2#2 => some .ord | _ => none
def readFmt (x : BitVec 4) : Option Fmt :=
  match x with
  | 0#4 => some .fp32 | 1#4 => some .fp16 | 2#4 => some .bf16 | 3#4 => some .e4m3 | 4#4 => some .e5m2 | 5#4 => some .e2m1
  | 6#4 => some .int32 | 7#4 => some .int8 | 8#4 => some .int4 | 9#4 => some .ds8 | 10#4 => some .e8m0
  | 11#4 => some .nat32 | 12#4 => some .nat8 | _ => none
def readSz (x : BitVec 3) : Option Sz :=
  match x with | 0#3 => some .b8 | 1#3 => some .b16 | 2#3 => some .b32 | 3#3 => some .b64 | 4#3 => some .b128 | _ => none
def readAWidth (x : BitVec 3) : Option AWidth :=
  match x with | 0#3 => some .w32 | 1#3 => some .w64 | 2#3 => some .w128 | _ => none
def readSpace (x : BitVec 4) : Option Space :=
  match x with | 0#4 => some .gl | 1#4 => some .sp | 2#4 => some .wn | _ => none
def readAtomOp (x : BitVec 4) : Option AtomOp :=
  match x with
  | 0#4 => some .add | 1#4 => some .minS | 2#4 => some .minN | 3#4 => some .maxS | 4#4 => some .maxN | 5#4 => some .and
  | 6#4 => some .or | 7#4 => some .xor | 8#4 => some .exch | 9#4 => some .cas | 10#4 => some .fadd | 11#4 => some .hadd2
  | 12#4 => some .badd2 | 13#4 => some .fmin | 14#4 => some .fmax | _ => none
def readCmpRel (x : BitVec 4) : Option CmpRel :=
  match x with
  | 0#4 => some .eq | 1#4 => some .ne | 2#4 => some .lt | 3#4 => some .le | 4#4 => some .gt | 5#4 => some .ge | _ => none
def readFCmpRel (x : BitVec 4) : Option FCmpRel :=
  match x with
  | 0#4 => some .eq | 1#4 => some .ne | 2#4 => some .lt | 3#4 => some .le | 4#4 => some .gt | 5#4 => some .ge
  | 6#4 => some .unordered | 7#4 => some .ordered | _ => none
def readShflMode (x : BitVec 4) : Option ShflMode :=
  match x with | 0#4 => some .idx | 1#4 => some .up | 2#4 => some .down | 3#4 => some .xor | _ => none
def readVoteMode (x : BitVec 4) : Option VoteMode :=
  match x with | 0#4 => some .any | 1#4 => some .all | 2#4 => some .ballot | _ => none
def readRedOp (x : BitVec 4) : Option RedOp :=
  match x with
  | 0#4 => some .add | 1#4 => some .min | 2#4 => some .max | 3#4 => some .and | 4#4 => some .or | 5#4 => some .xor
  | 6#4 => some .fadd | 7#4 => some .fmin | 8#4 => some .fmax | _ => none
def readMxArr (x : BitVec 4) : Option MxArr :=
  match x with | 0#4 => some .a2048 | 1#4 => some .a512 | 2#4 => some .a128 | _ => none

/-- TYPE .64 of set W. -/
def readW64 (ty : BitVec 3) : Bool := ty == 1

def readImm17 (f : BitVec 27) : Option (BitVec 17) := if f.getLsbD 9 then some (f.extractLsb' 10 17) else none

/-- The fields of an integer form (TYPE I4, layout A). -/
def RawWord.intOp (r : RawWord) (w2 : BitVec 64) : IntOp :=
  { wd := r.wdT w2, w64 := r.ty.getLsbD 1, nat := r.ty.getLsbD 0, imm := readImm17 r.fmtf }

/-- The fields of a floating form (layout A); `ftz` from TYPE bit 0 in sets F2 and H4. -/
def RawWord.fltOp (r : RawWord) (w2 : BitVec 64) : Option FltOp :=
  (readRnd (r.fmtf.extractLsb' 0 3)).map fun rnd =>
    { wd := r.wdT w2, ftz := r.ty.getLsbD 0, imm := readImm17 r.fmtf
      absA := bit r.fmtf 6, absB := bit r.fmtf 7, absC := bit r.fmtf 8
      negA := bit r.fmtf 3, negB := bit r.fmtf 4, negC := bit r.fmtf 5, rnd }

/-- The fields of a conversion form (layout C). -/
def RawWord.cvtOp (r : RawWord) (w2 : BitVec 64) : Option CvtOp :=
  match readRnd (r.fmtf.extractLsb' 8 3), readFmt (r.fmtf.extractLsb' 4 4), readFmt (r.fmtf.extractLsb' 0 4) with
  | some rnd, some dst, some src =>
    some { wd := r.wdT w2, ftz := bit r.fmtf 12, sat := bit r.fmtf 11, rnd, dst, src }
  | _, _, _ => none

/-- The fields of a memory form (layout M), WIN apart. -/
def RawWord.memOp (r : RawWord) (w2 : BitVec 64) : Option MemOp :=
  match readScope (r.fmtf.extractLsb' 2 3), readClass (r.fmtf.extractLsb' 0 2) with
  | some scope, some cls =>
    some { wd := r.wdT w2, off := r.fmtf.extractLsb' 8 19, order := readOrder (r.fmtf.extractLsb' 5 2), scope, cls }
  | _, _ => none

/-- The fields of an engine form (layout E). -/
def RawWord.engForm (r : RawWord) (w2 : BitVec 64) : Option EngForm :=
  (readScope (r.fmtf.extractLsb' 7 3)).map fun scope =>
    { wd := r.wdT w2, scope, tok := if bit r.fmtf 6 then some (r.fmtf.extractLsb' 0 6) else none }

def RawWord.num (r : RawWord) : BitVec 6 := r.fmtf.extractLsb' 0 6
def RawWord.sel (r : RawWord) : BitVec 16 := r.fmtf.extractLsb' 0 16

/-! ## The opcode map: the instruction a word's OPC and VAR name -/

/-- Table 11.9. -/
def candControl (r : RawWord) (w2 : BitVec 64) : Option Instr :=
  match r.opc with
  | 0x01#8 => some (.getr (r.wdT w2) (readW64 r.ty) (readReg r.fmtf))
  | 0x02#8 => some (.setr (r.wdT w2) (readW64 r.ty) (readReg r.fmtf))
  | 0x03#8 => some (.fan (r.wdT w2) (readW64 r.ty))
  | 0x04#8 => some (.movi r.wdN (readW64 r.ty) r.fmtf (if r.long == 1 then some w2 else none))
  | 0x05#8 => some (.sel (r.wdT w2) (readW64 r.ty))
  | 0x06#8 => some (.sink (r.wdT w2))
  | 0x07#8 => some (.br r.wdN r.fmtf)
  | 0x08#8 => some (.brc r.wdN r.fmtf (w2.extractLsb' 0 27))
  | 0x09#8 => some (.bri (r.wdT w2))
  | 0x0A#8 => some (.call r.wdN r.fmtf (w2.extractLsb' 0 27))
  | 0x0B#8 => some (.calli r.wdN (w2.extractLsb' 0 27))
  | 0x0C#8 => some (.ret r.wdN)
  | 0x0D#8 => some (.exit r.wdN)
  | 0x0E#8 => some (.loop r.wdN (w2.extractLsb' 0 27))
  | 0x0F#8 => some (.trap (r.wdT w2) (r.fmtf.extractLsb' 0 16))
  | _ => none

/-- Table 11.10. -/
def candInt (r : RawWord) (w2 : BitVec 64) : Option Instr :=
  match r.opc with
  | 0x10#8 => some (.iadd (r.intOp w2))
  | 0x11#8 => some (.isub (r.intOp w2))
  | 0x12#8 => some (.imul (r.intOp w2))
  | 0x13#8 => some (.imulh (r.intOp w2))
  | 0x14#8 => some (.imad (r.intOp w2))
  | 0x15#8 => some (.ineg (r.intOp w2))
  | 0x16#8 => some (.iabs (r.intOp w2))
  | 0x17#8 => some (.imin (r.intOp w2))
  | 0x18#8 => some (.imax (r.intOp w2))
  | 0x19#8 => some (.idiv (r.intOp w2))
  | 0x1A#8 => some (.irem (r.intOp w2))
  | 0x1B#8 => some (.iand (r.intOp w2))
  | 0x1C#8 => some (.ior (r.intOp w2))
  | 0x1D#8 => some (.ixor (r.intOp w2))
  | 0x1E#8 => some (.inot (r.intOp w2))
  | 0x1F#8 => some (.andn (r.intOp w2))
  | 0x20#8 => some (.shl (r.intOp w2))
  | 0x21#8 => some (.shr (r.intOp w2))
  | 0x22#8 => some (.sar (r.intOp w2))
  | 0x23#8 => some (.rol (r.intOp w2))
  | 0x24#8 => some (.ror (r.intOp w2))
  | 0x25#8 => some (.popc (r.intOp w2))
  | 0x26#8 => some (.clz (r.intOp w2))
  | 0x27#8 => some (.ctz (r.intOp w2))
  | 0x28#8 => some (.brev (r.intOp w2))
  | 0x29#8 => some (.bfx (r.intOp w2))
  | 0x2A#8 => some (.bfi (r.intOp w2))
  | 0x2B#8 => (readCmpRel r.var).map (.icmp · (r.intOp w2))
  | 0x2C#8 => some (.lea r.var (r.intOp w2))
  | _ => none

/-- Table 11.11. -/
def candLane (r : RawWord) (w2 : BitVec 64) : Option Instr :=
  match r.opc with
  | 0x40#8 => some (.laneid (r.wdT w2))
  | 0x41#8 => (readShflMode r.var).map (.shfl · (r.wdT w2) (readW64 r.ty))
  | 0x42#8 => some (.bcast (r.wdT w2) (readW64 r.ty))
  | 0x43#8 => (readVoteMode r.var).map (.vote · (r.wdT w2))
  | 0x44#8 =>
    match readRedOp r.var, readRnd (r.fmtf.extractLsb' 0 3) with
    | some op, some rnd => some (.reduce op (r.wdT w2) (r.ty.getLsbD 1) (r.ty.getLsbD 0) rnd)
    | _, _ => none
  | 0x45#8 =>
    match readRedOp r.var, readRnd (r.fmtf.extractLsb' 0 3) with
    | some op, some rnd => some (.scan op (r.wdT w2) (r.ty.getLsbD 1) (r.ty.getLsbD 0) (bit r.fmtf 3) rnd)
    | _, _ => none
  | _ => none

/-- Table 11.12. -/
def candFloat (r : RawWord) (w2 : BitVec 64) : Option Instr :=
  match r.opc with
  | 0x50#8 => (r.fltOp w2).map .fadd
  | 0x51#8 => (r.fltOp w2).map .fsub
  | 0x52#8 => (r.fltOp w2).map .fmul
  | 0x53#8 => (r.fltOp w2).map .ffma
  | 0x54#8 => (r.fltOp w2).map (.fmin (r.var == 1) ·)
  | 0x55#8 => (r.fltOp w2).map (.fmax (r.var == 1) ·)
  | 0x56#8 => (readFCmpRel r.var).bind fun rel => (r.fltOp w2).map (.fcmp rel ·)
  | 0x57#8 => (r.fltOp w2).map .fdiv
  | 0x58#8 => (r.fltOp w2).map .fsqrt
  | 0x59#8 => (r.fltOp w2).map .frcp
  | 0x5A#8 => (r.fltOp w2).map .frsq
  | 0x5B#8 => (r.fltOp w2).map .fex2
  | 0x5C#8 => (r.fltOp w2).map .flg2
  | 0x5D#8 => (r.fltOp w2).map .fsin
  | 0x5E#8 => (r.fltOp w2).map .fcos
  | 0x5F#8 => (r.fltOp w2).map .frnd
  | 0x60#8 => (r.fltOp w2).map .fclass
  | 0x61#8 => (r.fltOp w2).map .fldexp
  | 0x62#8 => (r.fltOp w2).map (.hadd2 (r.ty.getLsbD 2) ·)
  | 0x63#8 => (r.fltOp w2).map (.hmul2 (r.ty.getLsbD 2) ·)
  | 0x64#8 => (r.fltOp w2).map (.hfma2 (r.ty.getLsbD 2) ·)
  | _ => none

/-- Table 11.13. -/
def candCvt (r : RawWord) (w2 : BitVec 64) : Option Instr :=
  match r.opc with
  | 0x70#8 => (r.cvtOp w2).map .cvt
  | 0x71#8 => (r.cvtOp w2).map .cvtSr
  | 0x72#8 => (r.cvtOp w2).map .pack
  | 0x73#8 => (r.cvtOp w2).map .unpack
  | 0x74#8 => (r.cvtOp w2).map .dsenc
  | 0x75#8 => (r.cvtOp w2).map .dsdec
  | 0x76#8 => (r.cvtOp w2).map .scaleq
  | 0x77#8 => (r.cvtOp w2).map .quant
  | 0x78#8 => some (.rng (r.wdT w2))
  | _ => none

/-- Table 11.14. -/
def candMem (r : RawWord) (w2 : BitVec 64) : Option Instr :=
  match r.opc with
  | 0x80#8 => (readSz r.ty).bind fun sz => (r.memOp w2).map (.ld sz ·)
  | 0x81#8 => (readSz r.ty).bind fun sz => (r.memOp w2).map (.st sz ·)
  | 0x82#8 => (readSz r.ty).bind fun sz => (r.memOp w2).map (.lds sz ·)
  | 0x83#8 => (readSz r.ty).bind fun sz => (r.memOp w2).map (.sts sz ·)
  | 0x84#8 => (readSz r.ty).bind fun sz => (r.memOp w2).map (.ldw sz ·)
  | 0x85#8 => (readSz r.ty).bind fun sz => (r.memOp w2).map (.stw sz ·)
  | 0x86#8 => (readSpace r.var).bind fun s => (r.memOp w2).map (.ldres s (readW64 r.ty) ·)
  | 0x87#8 => (readSpace r.var).bind fun s => (r.memOp w2).map (.stcond s (readW64 r.ty) ·)
  | 0x88#8 => (r.memOp w2).map .pref
  | 0x89#8 => (readAtomOp r.var).bind fun op => (readAWidth r.ty).bind fun aw => (r.memOp w2).map (.atom op aw ·)
  | 0x8A#8 => (readAtomOp r.var).bind fun op => (readAWidth r.ty).bind fun aw => (r.memOp w2).map (.atoms op aw (bit r.fmtf 7) ·)
  | 0x8B#8 => (readAtomOp r.var).bind fun op => (readAWidth r.ty).bind fun aw => (r.memOp w2).map (.red op aw ·)
  | 0x8C#8 => (readScope (r.fmtf.extractLsb' 3 3)).map fun s =>
      .fence (r.wdT w2) (readOrder (r.fmtf.extractLsb' 6 2)) s (r.fmtf.extractLsb' 0 3)
  | _ => none

/-- Table 11.15. -/
def candSync (r : RawWord) (w2 : BitVec 64) : Option Instr :=
  match r.opc with
  | 0xA0#8 => some (.bar (r.wdT w2))
  | 0xA1#8 => some (.gbar (r.wdT w2))
  | 0xA2#8 => some (.nbjoin (r.wdT w2) r.num)
  | 0xA3#8 => some (.nbarrive (r.wdT w2) r.num)
  | 0xA4#8 => some (.nbwait (r.wdT w2) r.num)
  | 0xA5#8 => some (.nbsync (r.wdT w2) r.num)
  | 0xA6#8 => some (.waitf (r.wdT w2) r.num)
  | 0xA7#8 => some (.evwait (r.wdT w2) r.num)
  | 0xA8#8 => some (.evsig (r.wdT w2) r.num)
  | 0xA9#8 => some (.send (r.wdT w2) r.num)
  | 0xAA#8 => some (.recv (r.wdT w2) r.num)
  | 0xAB#8 => some (.chstat (r.wdT w2) r.num)
  | 0xAC#8 => some (.chresize (r.wdT w2) r.num)
  | _ => none

/-- Table 11.16. -/
def candEng (r : RawWord) (w2 : BitVec 64) : Option Instr :=
  match r.opc with
  | 0xB0#8 => (r.engForm w2).map .copy
  | 0xB1#8 => (r.engForm w2).map .copy2d
  | 0xB2#8 => (r.engForm w2).map .tcopy
  | 0xB3#8 => (r.engForm w2).map .gath
  | 0xB4#8 => (r.engForm w2).map .scat
  | 0xB5#8 => (readSz r.ty).bind fun sz => (r.engForm w2).map (.fill sz ·)
  | 0xB6#8 => (r.engForm w2).map .stream
  | 0xB7#8 =>
    match r.var with
    | 0#4 => some (.strmctlStart (r.wdT w2)) | 1#4 => some (.strmctlPause (r.wdT w2))
    | 2#4 => some (.strmctlResume (r.wdT w2)) | 3#4 => some (.strmctlCancel (r.wdT w2)) | _ => none
  | 0xB8#8 => (r.engForm w2).map .istream
  | 0xB9#8 =>
    match r.var with
    | 0#4 => (r.engForm w2).map .handoffTohost | 1#4 => (r.engForm w2).map .handoffTodevice | _ => none
  | 0xC0#8 =>
    match r.var with
    | 3#4 => some (.mxcfgRelease (r.wdT w2))
    | v => (readMxArr v).map (.mxcfg · (r.wdT w2))
  | 0xC1#8 => (r.engForm w2).map .mxload
  | 0xC2#8 => some (.mxfeed (r.wdT w2))
  | 0xC3#8 => (r.engForm w2).map .mxfeeds
  | 0xC4#8 => (r.engForm w2).map .mxmul
  | 0xC5#8 => some (.mxzero (r.wdT w2))
  | 0xC6#8 => (r.cvtOp w2).map .mxdrain
  | 0xC7#8 => some (.mxstat (r.wdT w2))
  | 0xD0#8 => some (.commnew (r.wdT w2))
  | 0xD1#8 => some (.commfree (r.wdT w2))
  | 0xD3#8 => some (.commstat (r.wdT w2))
  | 0xD2#8 =>
    match r.var with
    | 0#4 => (r.engForm w2).map .collAllreduce | 1#4 => (r.engForm w2).map .collReduce
    | 2#4 => (r.engForm w2).map .collBroadcast | 3#4 => (r.engForm w2).map .collAllgather
    | 4#4 => (r.engForm w2).map .collReducescatter | 5#4 => (r.engForm w2).map .collAlltoall
    | 6#4 => (r.engForm w2).map .collBarrier | _ => none
  | _ => none

/-- Table 11.17. -/
def candSys (r : RawWord) (w2 : BitVec 64) : Option Instr :=
  match r.opc with
  | 0xE0#8 => some (.launch (r.wdT w2))
  | 0xE1#8 => some (.lstat (r.wdT w2))
  | 0xE2#8 => some (.ctxnew (r.wdT w2))
  | 0xE3#8 => some (.ctxgrant (r.wdT w2))
  | 0xE4#8 => some (.ctxrevoke (r.wdT w2))
  | 0xE5#8 => some (.ctxkill (r.wdT w2))
  | 0xE6#8 =>
    match r.var with
    | 0#4 => some (.ctxrunResume (r.wdT w2)) | 1#4 => some (.ctxrunReflect (r.wdT w2)) | _ => none
  | 0xE7#8 => some (.ctxstat (r.wdT w2))
  | 0xE8#8 => some (.tlbinv (r.wdT w2))
  | 0xE9#8 => some (.fqpop (r.wdT w2))
  | 0xF0#8 => some (.rdsys (r.wdT w2) r.sel)
  | 0xF1#8 => some (.wrsys (r.wdT w2) r.sel)
  | 0xF2#8 => some (.topo (r.wdT w2) r.sel)
  | 0xF3#8 => some (.time (r.wdT w2))
  | 0xF4#8 => some (.latband (r.wdT w2))
  | 0xF5#8 => some (.capw (r.wdT w2))
  | 0xF6#8 => some (.trace (r.wdT w2))
  | 0xF7#8 =>
    match r.var with
    | 0#4 => some (.tmaskMask (r.wdT w2)) | 1#4 => some (.tmaskUnmask (r.wdT w2)) | _ => none
  | 0xF8#8 => some (.tret (r.wdT w2))
  | _ => none

/-- The instruction a word and the word after it name, before the checks, by the opcode's table. -/
def candidate (r : RawWord) (w2 : BitVec 64) : Option Instr :=
  let o := r.opc.toNat
  if o < 0x10 then candControl r w2
  else if o < 0x40 then candInt r w2
  else if o < 0x50 then candLane r w2
  else if o < 0x70 then candFloat r w2
  else if o < 0x80 then candCvt r w2
  else if o < 0xA0 then candMem r w2
  else if o < 0xB0 then candSync r w2
  else if o < 0xE0 then candEng r w2
  else candSys r w2

/-- The decoder: the instruction at the head of a list of words, and the words after it. -/
def decode (ws : List (BitVec 64)) : Except DecErr (Instr × List (BitVec 64)) :=
  match ws with
  | [] => .error .truncated
  | w :: rest =>
    let r := RawWord.read w
    if r.long == 1 && rest.isEmpty then .error .truncated
    else
      match candidate r (rest.headD 0) with
      | none => .error .unassigned
      | some i =>
        let ew := encode i
        if ew != ws.take ew.length || (ew.length == 2) != (r.long == 1) then .error .reservedSet
        else if i.wellFormed then .ok (i, ws.drop ew.length)
        else .error .illegalForm

/-! ## Bytes -/

/-- The 64-bit little-endian word of up to eight bytes (R5). -/
def wordOfBytes (bs : List (BitVec 8)) : BitVec 64 :=
  bs.foldr (fun b acc => (acc <<< 8) ||| b.setWidth 64) 0

/-- The eight bytes of a word, lowest address first (R5). -/
def bytesOfWord (w : BitVec 64) : List (BitVec 8) := (List.range 8).map fun k => w.extractLsb' (8 * k) 8

/-- The first two words of a list of bytes. -/
def decodeBytes (bs : List (BitVec 8)) : Except DecErr Instr :=
  (decode [wordOfBytes (bs.take 8), wordOfBytes ((bs.drop 8).take 8)]).map (·.1)

/-- The instruction the decoder reads from an instruction whose bits are `w`, numbered from the least
significant bit of the first word; bits at or above `nbits` are 0. -/
def decodeTableWord (nbits w : Nat) : Option Instr :=
  let v := w % 2 ^ nbits
  match decodeBytes (bytesOfWord (BitVec.ofNat 64 v) ++ bytesOfWord (BitVec.ofNat 64 (v / 2 ^ 64))) with
  | .ok i => some i
  | .error _ => none

end Sys2Proof
end

