-- ==== Sys2Proof/Machine/State.lean ====
section
/-! DEFINITION. The state of the machine as plain data: everything the spec gives the panel, its
cores, its contexts and its host functions, and the state after reset (INVENTORY.md, State). -/

namespace Sys2Proof.Machine

/-! ## Memories -/

/-- The memories, each a list of (address, byte) pairs with rising addresses and no zero entry; an
unlisted address reads as 0 (log 7). Keys: `hbm` stack × 64·10⁹ + stack byte (R38); `host`
function × 2⁶⁴ + host address (R36); `spad` core × 524,288 + offset (R45); `acc` core × 65,536 + byte
(R52); `wgt` core × 262,144 + macro × 16,384 + column × 128 + k (R371); `scl` core × 2,048 + macro × 128 +
column. -/
structure Memory where
  hbm  : List Host.Cell := []
  host : List Host.Cell := []
  spad : List Host.Cell := []
  acc  : List Host.Cell := []
  wgt  : List Host.Cell := []
  scl  : List Host.Cell := []
  deriving DecidableEq, Repr

/-- A location an access is performed at (R109): device GL by device physical address, host GL by
function and host address (`owned`: in a device-owned region), a scratchpad byte, an accumulator byte,
a mailbox register lane. -/
inductive Place where
  | dev  (dpa : Nat)
  | host (vf addr : Nat) (owned : Bool)
  | sp   (core off : Nat)
  | acc  (core off : Nat)
  | mbox (core slot reg lane : Nat)
  deriving DecidableEq, Repr

/-- A site of the panel, row and column (R15). -/
structure Site where
  row : Nat
  col : Nat
  deriving DecidableEq, Repr

/-- A stitch port of a die (R17). -/
inductive Stitch where
  | n | e | s | w
  deriving DecidableEq, Repr

/-- A 64-byte sector of device memory (`vf` none) or of a function's host memory (R84, R92). -/
structure SKey where
  vf  : Option Nat
  sec : Nat
  deriving DecidableEq, Repr

/-- A unit of memory in which an error can stand (R106): a sector at its home (the Firn cache and the HBM stack), a sector in an
L1, 64 bytes of a scratchpad or of the accumulators, a warp's registers, a weight array of the matrix path, a line of the block
cache, the channel pool. -/
inductive ErrSite where
  | home (key : SKey)
  | l1   (core : Nat) (key : SKey)
  | spad (core sec : Nat)
  | acc  (core sec : Nat)
  | regs (core slot : Nat)
  | wgt  (core q : Nat)
  | code (core line : Nat)
  | pool (core : Nat)
  deriving DecidableEq, Repr

/-! ## Faults and traps -/

/-- The codes of Table 19.1. -/
inductive Code where
  | illegalInstr | illegalBlock | illegalLine | privViolation | misaligned | pageAbsent | pagePerm | walkFault
  | frameDirty | grantExceeded | tableWrite | windowPerm | atomicUnsupported | formatDivergence
  | mxFormatMismatch | mxState | barrierDiverged | barrierStranded | channelFault | tagExhausted | blockStuck
  | userTrap | trapOverflow | queueFull | commDead | preemptTimeout | restoreShort | deviceError
  deriving DecidableEq, Repr

/-- The number of a code (Table 19.1; GRANT_EXCEEDED is 0x40). -/
def Code.num : Code → Nat
  | .illegalInstr => 0x01 | .illegalBlock => 0x02 | .illegalLine => 0x03 | .privViolation => 0x04
  | .misaligned => 0x08 | .pageAbsent => 0x10 | .pagePerm => 0x11 | .walkFault => 0x12 | .frameDirty => 0x13
  | .windowPerm => 0x14 | .tableWrite => 0x15 | .atomicUnsupported => 0x18 | .formatDivergence => 0x20
  | .mxFormatMismatch => 0x21 | .mxState => 0x22 | .barrierDiverged => 0x28 | .barrierStranded => 0x29
  | .channelFault => 0x2A | .tagExhausted => 0x30 | .blockStuck => 0x31 | .userTrap => 0x38
  | .trapOverflow => 0x39 | .grantExceeded => 0x40 | .queueFull => 0x41 | .commDead => 0x48
  | .preemptTimeout => 0x50 | .restoreShort => 0x51 | .deviceError => 0x58

/-- The codes that are traps (Table 19.1). -/
def Code.isTrap : Code → Bool
  | .formatDivergence | .barrierDiverged | .tagExhausted | .userTrap => true
  | _ => false

/-- Field ACC of a fault record (Table 19.4). -/
inductive AccKind where
  | read | write | atomic | fetch
  deriving DecidableEq, Repr

/-- Who receives a fault: the parent of the requester's context, a named context, or the host driver
(Table 3.2, Table 19.1). -/
inductive Receiver where
  | parent
  | ctx (idx : Nat)
  | host
  deriving DecidableEq, Repr

/-- What one lane of an access contributes to a fault record: its address, and where its walk stopped (R64, R479). -/
structure LaneFault where
  lane   : Nat
  raddr  : DWord
  oaddr  : DWord := 0
  stage  : Nat := 0
  shadow : Bool := false
  level  : Nat := 0
  deriving DecidableEq, Repr

/-- What a fault or trap says of itself: the code, who receives it (R64), and the fields of the record of Table 19.4. -/
structure FaultInfo where
  code   : Code
  recv   : Receiver := .parent
  mask   : Mask := 0
  raddr  : DWord := 0
  oaddr  : DWord := 0
  stage  : Nat := 0
  shadow : Bool := false
  level  : Nat := 0
  acc    : AccKind := .read
  ucode  : Nat := 0
  /-- TRAP.MASK takes the lanes too (R200, R230, R231, R235, R265) -/
  tmask  : Bool := false
  /-- what each lane concerned met, lowest first, where lanes differ: the record gives the lowest (R479) -/
  lanes  : List LaneFault := []
  deriving DecidableEq, Repr

/-- A requester that can halt (R65). -/
inductive Requester where
  | warp   (core slot : Nat)
  | ctl    (core ctx : Nat)
  | stream (core gen : Nat)
  | op     (core id : Nat)
  | mx     (core : Nat)
  | write  (id : Nat)
  deriving DecidableEq, Repr

/-- A halt (R427): its number at its receiver, the requester, its context and its record (Table 19.4).
`recv` is the receiving context; a root's records go to the host driver (R66). A halt reflected to a FLAT child becomes that
child's (R394). -/
structure Halt where
  num    : Nat
  recv   : Nat
  host   : Bool
  req    : Requester
  ctx    : Nat
  code   : Code
  record : List DWord
  deriving DecidableEq, Repr

/-- A fault that waits for a halt number, or, with its number in `num`, for its receiver's queue space (R427, R397). `driver` is the
function whose host driver receives it when there is no root (R455). -/
structure WaitingFault where
  recv   : Nat
  host   : Bool
  driver : Option Nat := none
  num    : Option Nat := none
  req    : Option Requester
  ctx    : Nat
  code   : Code
  record : List DWord
  deriving DecidableEq, Repr

/-! ## Translation -/

/-- An entry of a core, die or Firn TLB (R63, R70): the context that presented the address, the page of
its GL, where it leads, and the rights a walk granted. `stage` marks a translation of a table page, which only a die TLB holds:
the address is then presented to the last `stage` tables of the context's stage list. -/
structure TlbEntry where
  ctx   : Nat
  stage : Option Nat := none
  base  : Nat
  size  : Nat
  out   : Place
  write : Bool
  fetch : Bool
  deriving DecidableEq, Repr

/-- Who waits for a walk (R71). -/
inductive Waiter where
  | instr  (w : Who) (idx : Nat) (lanes : List (Nat × DWord))
  | fetch  (core slot : Nat)
  | cfetch (core ctx : Nat)
  | op     (core id : Nat)
  | pref   (core : Nat) (cls : MClass)
  deriving DecidableEq, Repr

/-- A miss waiting for a walker (R71): the address and access kind it is walked for; `hostWait` names the host page (of 4 KiB) an
ATS or PRI answer or the end of a handover is awaited for. -/
structure Miss where
  ctx      : Nat
  va       : DWord
  acc      : AccKind
  core     : Nat
  /-- who waits, each with its own address in the page and its own access kind -/
  waiters  : List (Waiter × DWord × AccKind)
  hostWait : Option (Nat × Nat) := none
  deriving DecidableEq, Repr

/-! ## Blocks, tokens and instances -/

/-- The fields of a block header (Tables 11.2, 11.3) and its register lists. -/
structure BlockHdr where
  ninst  : Nat
  waits  : BitVec 12
  setf0  : Nat
  setf1  : Nat
  iter   : Nat
  self   : Bool
  atom   : Bool
  spwin  : Nat
  reconv : BitVec 32
  carry  : BitVec 16
  reads  : List RegSpec
  writes : List RegSpec
  deriving DecidableEq, Repr, Inhabited

/-- A block resident on a core and pinned in its block cache (R202, R204): its address, header and
instruction words, and the base nodes of its replicas. -/
structure RBlock where
  ctx   : Nat
  addr  : Nat
  hdr   : BlockHdr
  words : List (BitVec 64)
  bases : List Nat
  /-- which fetch of the block this is, and whether a TLBINV has since covered it (R98) -/
  ver   : Nat := 0
  stale : Bool := false
  deriving DecidableEq, Repr

/-- A token (R201): the tag, the instruction and port it is for, its mask and value. -/
structure Token where
  wslot : Nat
  itag  : Nat
  idx   : Nat
  port  : PortName
  mask  : Mask
  val   : Lanes
  deriving DecidableEq, Repr

/-- The value a port holds. -/
structure PortVal where
  port : PortName
  mask : Mask
  val  : Lanes
  deriving DecidableEq, Repr

/-- A matching-store entry, or a ready instruction: an instruction of an instance and the operands it
holds (R203). -/
structure MatchEntry where
  wslot : Nat
  itag  : Nat
  idx   : Nat
  vals  : List PortVal
  deriving DecidableEq, Repr

/-- A node (R203): instruction slots, arrival channel, matching store, ready instructions, one tick after the time of its last
firing, 0 before the first (R203, R215), and the warp it fired last (R416). -/
structure Node where
  slots    : List (Nat × Nat) := []
  chan     : List Token := []
  store    : List MatchEntry := []
  ready    : List MatchEntry := []
  lastFire : Nat := 0
  /-- one more than the age of the warp it fired last, 0 before any (R416) -/
  lastAge  : Nat := 0
  deriving DecidableEq, Repr, Inhabited

/-- An entry of the tag table (R208). -/
structure TagEntry where
  wslot   : Nat
  itag    : Nat
  ctx     : Nat
  live    : Nat
  purging : Bool
  deriving DecidableEq, Repr

/-- One lane's access to one place (R108). -/
structure Access where
  lane  : Nat
  va    : DWord
  place : Place
  bytes : Nat
  deriving DecidableEq, Repr

/-- An engine operation at issue (R352, R353): which form, its operand data and its completion objects. -/
inductive EngKind where
  | copy | copy2d | tcopy | gath | scat | fill (sz : Sz) | stream | istream | handoff (toHost : Bool)
  | mxload | mxfeeds | mxmul | mxcfg (arr : MxArr) | mxrelease | coll (var : Nat)
  deriving DecidableEq, Repr

/-- The request an engine form makes at its firing. `a` is the parameter block's address, or the first
control word; `b`, `c` further control words (R355, R373, R374). -/
structure EngReq where
  kind  : EngKind
  a     : DWord
  b     : Word
  c     : Word
  scope : Scope
  tok   : Option Nat
  fsel  : Bool
  deriving DecidableEq, Repr

/-- A lane's choice of successor (R284): the target and whether the lane calls, returns or exits. -/
inductive Choice where
  | goto (target : DWord)
  | call (target ret : DWord)
  | ret
  | exit
  deriving DecidableEq, Repr

/-- A grant as CTXNEW and CTXGRANT give it (Table 17.4). -/
structure GrantParams where
  entry  : DWord
  troot  : DWord
  wbase  : DWord
  wsize  : DWord
  cores  : List Nat
  frames : Nat
  mode   : Nat
  flags  : BitVec 8
  prio   : Nat
  nq     : Nat
  tagb   : Nat
  trsh   : Nat
  seed   : DWord
  deriving DecidableEq, Repr

/-- A revocation as CTXREVOKE gives it (Table 17.5); `cores` are the child's logical numbers that go. -/
structure RevokeParams where
  cores  : List Nat
  nq     : Nat
  frames : Option Nat
  rbase  : Nat
  rsize  : Nat
  cwaddr : DWord
  deriving DecidableEq, Repr

/-- An effect of an instruction, buffered by its instance until commit, or taken at once in a control
thread (R206, R196). The first field of each is the instruction's index. -/
inductive Eff where
  | release  (idx : Nat) (scope : Scope) (mask : BitVec 3)
  /-- the acquire of a fence order, made again once its release is complete (R126) -/
  | acquire  (idx : Nat) (scope : Scope) (mask : BitVec 3)
  | store    (idx : Nat) (cls : MClass) (accs : List (Access × BitVec 128)) (thru : Option Scope)
  | red      (idx : Nat) (op : AtomOp) (aw : AWidth) (cls : MClass) (accs : List (Access × BitVec 128))
  | engine   (idx : Nat) (r : EngReq)
  | setr     (idx : Nat) (reg : RegSpec) (w64 : Bool) (mask : Mask) (lo hi : Lanes)
  | choose   (idx : Nat) (lanes : List (Nat × Choice))
  | tret     (idx : Nat) (mask : Mask)
  | send     (idx chan : Nat) (mask : Mask) (val : Lanes)
  | chresize (idx chan depth : Nat)
  | bar      (idx : Nat)
  | gbar     (idx : Nat)
  | nbjoin   (idx b pledge n : Nat)
  | nbarrive (idx b n : Nat)
  | nbsync   (idx b n : Nat)
  | nbwaited (idx b : Nat)
  | evsig    (idx e : Nat)
  | mxfeed   (idx slot : Nat) (part : Bool) (fmt : Nat) (ea : BitVec 8) (data : List (BitVec 8))
  | mxzero   (idx r0 nr : Nat)
  | commnew  (idx handle : Nat) (key nranks rank : Nat) (members : List (DWord × DWord))
  | commfree (idx handle : Nat)
  | launch   (idx queue seq : Nat) (record : DWord)
  /-- a LAUNCH found its queue full and its status is not targeted (R387) -/
  | launchFull (idx : Nat)
  | ctxnew   (idx child : Nat) (g : GrantParams)
  | ctxgrant (idx child : Nat) (g : GrantParams)
  | ctxrevoke (idx child : Nat) (r : RevokeParams)
  | ctxkill  (idx target : Nat) (ident : Word) (cw : DWord)
  | resume   (idx target halt : Nat)
  | reflect  (idx target halt code level : Nat)
  | tlbinv   (idx : Nat) (base : DWord) (pages : Nat)
  | fqpop    (idx : Nat) (accs : List (Access × BitVec 128)) (record : List DWord)
  | wrsys    (idx : Nat) (reg : SysReg) (value : DWord)
  | trace    (idx : Nat) (value : Word)
  | tmask    (idx : Nat) (set : Bool)
  deriving DecidableEq, Repr

/-- What a pending access of an instruction will do with its data when all lanes have returned. -/
inductive PendKind where
  | load (n : Nat)
  | ldres (n : Nat)
  | atomic (op : AtomOp) (aw : AWidth)
  | stcond (n : Nat)
  deriving DecidableEq, Repr

/-- One lane of a pending access: where it goes, bytes forwarded from buffered stores (R114: a byte mask
and the bytes), operands of an atomic, and the value once it has returned. -/
structure PendLane where
  acc   : Access
  fmask : BitVec 16
  fval  : BitVec 128
  v     : BitVec 128
  cmp   : BitVec 128
  sent  : Bool
  got   : Option (BitVec 128)
  deriving DecidableEq, Repr

/-- An access that has left its instruction and not yet answered (R331). -/
structure Pend where
  idx   : Nat
  kind  : PendKind
  cls   : MClass
  acq   : Option Scope
  mask  : Mask
  lanes : List PendLane
  deriving DecidableEq, Repr

/-- States of a block instance (Table 9.4). ADMITTED, DISCARDING and DONE last no time, and ENDED follows from what has
fired and returned. -/
inductive InstSt where
  | running | committing
  deriving DecidableEq, Repr

/-- A split or a token of the split table (Table 10.1). -/
structure SEntry where
  token : Bool
  barr  : Bool := false
  mask  : Mask
  arr   : Mask := 0
  next  : Nat
  rcvb  : Nat := 0
  depth : Nat := 0
  nest  : Nat := 0
  fair  : Nat := 0
  last  : Nat := 0
  /-- a split that enters its block by CALL, as a launch entry or as a trap handler (R246) -/
  call  : Bool := false
  /-- the iteration number its next instance takes (R172): 0 unless every lane comes by LOOP -/
  iter  : BitVec 5 := 0
  /-- a split that the fairness timer has pinned (R234) -/
  pin   : Bool := false
  /-- an entry that is spilled: its place in the spill area, the higher the nearer the top of the stack (R235) -/
  spill : Option Nat := none
  deriving DecidableEq, Repr, Inhabited

/-- A block instance (Table 9.4). `squash` marks a discard that reports nothing; `skipTrap` is R423. -/
structure Inst where
  itag     : Nat
  block    : Nat
  ver      : Nat
  replica  : Nat
  mask     : Mask
  depth    : Nat
  number   : BitVec 32
  iterNo   : BitVec 5
  st       : InstSt := .running
  exit     : Option FaultInfo := none
  squash   : Bool := false
  fired    : List Nat := []
  effs     : List Eff := []
  /-- the firing masks of the instructions that have buffered effects (R212) -/
  fires    : List (Nat × Mask) := []
  pends    : List Pend := []
  /-- entries of channels taken and not yet removed (R219): channel, the firing mask, the entry's mask and value -/
  taken    : List (Nat × Mask × Mask × Lanes) := []
  /-- carried register values it received (R211) -/
  carried  : List (RegSpec × Lanes × Lanes) := []
  /-- phases that NBWAITs of the instance wait for: index, phase (R241) -/
  nbWait   : List (Nat × Nat) := []
  /-- once its exit check has passed: the split table after its vote, and whether lanes parked below a barrier token (R231, R238) -/
  after    : Option (List SEntry × Bool) := none
  skipTrap : Bool := false
  admitted : Nat := 0
  lastAct  : Nat := 0
  deriving DecidableEq, Repr

/-! ## Warps -/

/-- An entry of the atomic replay log (R149). -/
structure ReplayEntry where
  idx  : Nat
  mask : Mask
  vals : List (Nat × BitVec 128)
  deriving DecidableEq, Repr

/-- The atomic replay log: its block's address and its entries (R149). -/
structure ReplayLog where
  block   : Nat := 0
  entries : List ReplayEntry := []
  deriving DecidableEq, Repr

/-- A frame of the trap stack (Table 19.3). -/
structure TrapFrame where
  resume : Nat
  log    : ReplayLog
  depth  : Nat
  cause  : Code
  ucode  : Nat
  pmask  : Bool
  deriving DecidableEq, Repr

/-- A warp (Table 9.2 and the chapters that add to it). -/
structure Warp where
  ctx       : Nat
  team      : Nat
  wid       : Nat
  gwn       : Nat
  age       : Nat
  v         : List Lanes
  s         : List DWord
  flags     : List Nat
  /-- the split table and the spill area together, in the order the entries were pushed (R228, R235) -/
  splits    : List SEntry
  /-- the split the warp is running: its place in `splits` -/
  run       : Option Nat := none
  /-- the lanes of the split that ran the instance committed last, as it stood before its vote (R233) -/
  ranMask   : Mask := 0
  traps     : List TrapFrame := []
  trapMask  : Bool := false
  trapPend  : Bool := false
  cause     : Word := 0
  tblock    : DWord := 0
  tlanes    : Mask := 0
  log       : ReplayLog := {}
  nt        : Nat := 0
  icount    : BitVec 32 := 0
  /-- return addresses of depths 1 to 4, 32 lanes each (R288) -/
  rets      : List (List DWord)
  /-- admissions left that run with a window of 1 (R215) -/
  win1      : Nat := 0
  halt      : Option Requester := none
  /-- arrived at BAR or GBAR and waiting (R236) -/
  atBar     : Bool := false
  atGbar    : Bool := false
  /-- what NBSYNCs wait for: barriers and phases (R241) -/
  nbsync    : List (Nat × Nat) := []
  /-- phase of the last arrival at a barrier not yet waited for (R241): barrier, phase -/
  nbLast    : List (Nat × Nat) := []
  insts     : List Inst := []
  /-- blocks whose next instance, run by some of these lanes, fires no TRAP (R423): RESUME, the split's lanes -/
  skips     : List (Nat × Mask) := []
  /-- scopes of operations bound to a flag since it was last seen clear (R347): flag, scope -/
  joins     : List (Nat × Scope) := []
  /-- token registers that outstanding operations will write (R260): register, scope, still outstanding -/
  tokens    : List (Nat × Scope × Bool) := []
  /-- TAG_EXHAUSTED has arisen and is due at the next boundary (R215, R420) -/
  tagTrap   : Bool := false
  deriving DecidableEq, Repr

/-- States of a control thread that has been started. -/
inductive CtlSt where
  | running | exited
  deriving DecidableEq, Repr

/-- The values of a team that its control thread reads, as they were at the thread's start (R409). -/
structure TeamVals where
  tid     : Nat
  queue   : Nat
  seq     : Nat
  griddim : Nat
  tdim    : Nat
  spBase  : Nat
  deriving DecidableEq, Repr

/-- A control thread (R196). `vals` are the operands that have reached instructions of the block; `team` is the team whose
admission started it and `born` that team's values, which stay when the team has retired (R409). -/
structure Ctl where
  ctx     : Nat
  st      : CtlSt := .running
  team    : Option Nat := none
  born    : Option TeamVals := none
  s       : List DWord
  flags   : List Nat
  entered : Bool := false
  callEnt : Bool := false
  block   : Nat := 0
  ver     : Nat := 0
  next    : Nat := 0
  choice  : Option (Option Nat) := none
  newRet  : Option (Nat × DWord) := none
  depth   : Nat := 0
  newDepth : Nat := 0
  rets    : List DWord
  vals    : List (Nat × PortVal) := []
  pend    : Option Pend := none
  halt    : Bool := false
  skip    : Bool := false
  /-- started on a core with four resident contexts, and waiting to become resident (R194) -/
  stopped : Bool := false
  /-- the sector that its last store wrote in the L1 (R196) -/
  stored  : Option SKey := none
  /-- the depth its CHRESIZE has reserved in the pool and waits to set (R351) -/
  resize  : Option Nat := none
  joins   : List (Nat × Scope) := []
  tokens  : List (Nat × Scope × Bool) := []
  deriving DecidableEq, Repr

/-! ## Teams, channels and barriers -/

/-- Kinds of a channel (R218, R406). -/
inductive ChanKind where
  | unused | fifo | source | sink
  deriving DecidableEq, Repr

/-- A channel (R218): entries with mask and value; `taken` counts entries reserved by RECV (R219);
`resizes` are the depths that fired CHRESIZEs have reserved (R351). -/
structure Chan where
  kind   : ChanKind := .unused
  depth  : Nat := 0
  scount : Nat := 0
  items  : List (Mask × Lanes) := []
  taken  : Nat := 0
  resizes : List Nat := []
  deriving DecidableEq, Repr, Inhabited

/-- A party of a named barrier (R240). -/
inductive Party where
  | warp (slot : Nat) | stream (gen : Nat) | op (id : Nat)
  deriving DecidableEq, Repr

/-- A registration: pledge per phase and what remains of it (R241). -/
structure Reg where
  party  : Party
  pledge : Nat
  left   : Nat
  deriving DecidableEq, Repr

/-- A named barrier (R240). -/
structure NBar where
  exp      : Nat
  cnt      : Nat := 0
  ph       : Nat := 0
  stranded : Bool := false
  regs     : List Reg := []
  /-- parties that leave in this cycle: they go after the cycle's arrivals (R242) -/
  gone     : List Party := []
  deriving DecidableEq, Repr

/-- The launch record (Table 18.1). -/
structure LaunchRec where
  entry   : DWord := 0
  griddim : Nat := 0
  tdim    : Nat := 1
  gang    : Nat := 0
  dep     : Nat := 0
  prio    : Nat := 0
  strm    : Bool := false
  nvec    : Nat := 16
  tagb    : Nat := 1
  nnb     : Nat := 0
  spb     : Nat := 0
  mbox    : BitVec 64 := 0
  nbtab   : DWord := 0
  chtab   : DWord := 0
  spill   : DWord := 0
  nspill  : Nat := 0
  cstk    : DWord := 0
  rngw    : Word := 0
  arg0    : DWord := 0
  arg1    : DWord := 0
  centry  : DWord := 0
  deriving DecidableEq, Repr

/-- A team on a core (R193). -/
structure Team where
  id        : Nat
  ctx       : Nat
  queue     : Nat
  seq       : Nat
  tid       : Nat
  lrec      : LaunchRec
  spBase    : Nat
  slots     : List Nat
  /-- warps that have not exited -/
  live      : List Nat
  chans     : List Chan
  nbs       : List NBar
  trapEntry : DWord := 0
  /-- slots that have arrived at BAR (Table 10.3) -/
  barIn     : List Nat := []
  /-- operations issued for the team that have not completed (R358) -/
  ops       : List Nat := []
  /-- the cores of its context as it numbers them, where a revocation has renumbered them since its grid started (R443) -/
  view      : Option (List Nat) := none
  deriving DecidableEq, Repr

/-! ## Engines and the matrix path -/

/-- States of an engine operation. -/
inductive OpSt where
  | queued | started | waiting | halted | finished
  deriving DecidableEq, Repr

/-- A run of units of a transfer that have not been read: the first and how many. `tile` is the list entry they belong to, with what
was read for it (R363, R367). -/
structure EngWork where
  first : Nat
  n     : Nat
  tile  : Option (Nat × List Nat) := none
  deriving DecidableEq, Repr

/-- Where a write of an engine goes: an address of a space (0 GL, 1 SP, 2 WN), a byte of the macros' weights or scales, a byte of
the generator's channel entry. -/
inductive EngDst where
  | at (space addr : Nat)
  | cell (n : Nat)
  | scale (n : Nat)
  | row (n : Nat)
  deriving DecidableEq, Repr

/-- A write of an engine whose data has been read and which has not been performed: its bytes, or a nibble of a byte; `tag` orders it
behind earlier writes of the same tag to the same place (R192), `count` is what it adds to COUNT. -/
structure EngOut where
  dst   : EngDst
  data  : List (BitVec 8)
  nib   : Option Bool := none
  tag   : Nat := 0
  count : Nat := 0
  deriving DecidableEq, Repr

/-- An engine operation in flight (R353 to R358). `issuer` is none once its warp or thread is gone, and the
flag and token register are then not written. `pos` is its COUNT so far. -/
structure EngOp where
  id     : Nat
  ctx    : Nat
  issuer : Option Who
  req    : EngReq
  flag   : Option Nat
  team   : Option Nat
  /-- the warp slot it serves, and its entry in its queue (Table 19.4) -/
  slot   : Nat := 0
  entry  : Nat := 0
  st     : OpSt := .queued
  params : List DWord := []
  pos    : Nat := 0
  status : Nat := 0
  bounds : Bool := false
  nb     : Option Nat := none
  /-- the communicator and the number of its collective (R381) -/
  comm   : Option (Nat × Nat) := none
  /-- its issue has begun and is not complete: it binds its flag, and its parameter block is being read (R353, R355) -/
  issuing : Bool := false
  /-- it has passed its checks (R357) -/
  ready  : Bool := false
  work   : List EngWork := []
  outs   : List EngOut := []
  /-- bytes gathered for one channel entry or for a collective, and an entry's mask -/
  row    : List (BitVec 8) := []
  rowMask : Mask := 0
  /-- stage of a HANDOFF, of a collective, or of a stream's buffer -/
  phase  : Nat := 0
  /-- the move that faulted or waits is made again first: 1 the read at the head of `work`, 2 the write at the head of `outs` (R357) -/
  retry  : Nat := 0
  deriving DecidableEq, Repr

/-- States of a stream (Table 16.8). -/
inductive StreamSt where
  | loaded | running | paused | halted
  deriving DecidableEq, Repr

/-- A stream held by an address generator (R364); `op` is its operation, `pos` its next buffer, channel
entry or row, `p0` the phase of registration (R365). -/
structure Stream where
  op    : Nat
  st    : StreamSt
  p0    : Nat := 0
  pos   : Nat := 0
  deriving DecidableEq, Repr

/-- A row slot of the row buffer (R372). -/
inductive RowSt where
  | empty | part0 | part1 | full
  deriving DecidableEq, Repr

structure RowSlot where
  st  : RowSt := .empty
  fmt : Nat := 0
  ea  : BitVec 8 := 0
  /-- parts reserved at fire by MXFEEDs that have not committed: PART, format and scale -/
  hold : List (Bool × Nat × BitVec 8) := []
  data : List (BitVec 8) := []
  deriving DecidableEq, Repr, Inhabited

/-- The matrix path of a core (R223, R370 to R377). -/
structure Mx where
  holder : Option Nat := none
  arr    : Option MxArr := none
  /-- loaded format of each macro, and the parameter block that loaded it followed by the team it served -/
  loaded : List (Option Nat)
  blocks : List (List DWord)
  slots  : List RowSlot
  queue  : List Nat := []
  /-- the queue's operation at its head has passed its checks -/
  active : Bool := false
  kprog  : Nat := 0
  halted : Bool := false
  deriving DecidableEq, Repr

/-! ## Cores -/

/-- States of an L1 sector (R84). -/
inductive L1St where
  | s | m
  deriving DecidableEq, Repr

/-- A sector held by an L1 (R84, R86). `granted` is false while a store waits for its directory grant (R95). -/
structure L1Sector where
  key     : SKey
  st      : L1St
  dirty   : BitVec 64
  part    : Bool
  priv    : Bool
  foreign : Bool
  granted : Bool
  /-- the way of its set that its line stands in -/
  way     : Nat := 0
  data    : List (BitVec 8)
  deriving DecidableEq, Repr

/-- A reservation of LDRES (R150): the lane that holds it, the sector of its port, and when it was set. -/
structure Reserve where
  core  : Nat
  slot  : Nat
  lane  : Nat
  ctl   : Option Nat
  sec   : Nat
  since : Nat
  /-- it cannot be evicted yet (R152) -/
  pinned : Bool := true
  /-- the instance that set it, until that instance commits (R151) -/
  inst   : Option Nat := none
  deriving DecidableEq, Repr

/-- An entry of a core's mailbox buffer (R50). -/
structure MboxEntry where
  slot : Nat
  reg  : Nat
  lane : Nat
  vals : List Word
  /-- the engine operation that wrote it: core and identifier -/
  src  : Option (Nat × Nat) := none
  /-- the scope of the releasing store that wrote it (R484) -/
  rel  : Option Scope := none
  deriving DecidableEq, Repr

/-- The tenant slice of a root on a core (R432). -/
structure Slice where
  vf       : Nat
  expired  : Bool := false
  begun    : Bool := false
  since    : Nat := 0
  deriving DecidableEq, Repr

/-- A context being drained, or saved, on a core (R433 to R436). -/
structure Drain where
  ctx   : Nat
  since : Nat
  revoked : Bool
  deriving DecidableEq, Repr

/-- The save image of a context on a core (Table 19.5). -/
structure SaveImage where
  ctx     : Nat
  warps   : List (Nat × Warp)
  ctls    : List Ctl
  teams   : List Team
  spad    : List (Nat × List (BitVec 8))
  gens    : List (Nat × Stream)
  ops     : List EngOp
  mx      : Option Mx
  acc     : List (BitVec 8)
  /-- the blocks its control threads are inside -/
  code    : List RBlock := []
  /-- the last TIME value its context could have read when it was saved, and its TOFF then (R400, R453) -/
  saved   : Nat := 0
  toff    : Nat := 0
  deriving DecidableEq, Repr

/-- A line of a block cache (R98): its context, its line number in the context's GL, its 16 words, and where they were read. -/
structure CodeLine where
  ctx   : Nat
  line  : Nat
  words : List (BitVec 64)
  src   : Place
  deriving DecidableEq, Repr

/-- A core of the panel. -/
structure Core where
  warps     : List (Nat × Warp) := []
  teams     : List Team := []
  nextTeam  : Nat := 0
  nextAge   : Nat := 0
  /-- when a context was last restored here: time before it does not count towards R215's test (R437) -/
  restored  : Nat := 0
  ctls      : List Ctl := []
  nodes     : List Node
  tags      : List TagEntry := []
  blocks    : List RBlock := []
  /-- the block cache (R98) -/
  bcache    : List CodeLine := []
  tlb       : List TlbEntry := []
  l1        : List L1Sector := []
  /-- pseudo-LRU bits of the L1's sets, where they are not all 0 (R84, log 21) -/
  plru      : List (Nat × BitVec 7) := []
  /-- host functions with posted writes not known performed, and flushing reads sent (R101) -/
  posted    : List Nat := []
  flushing  : List Nat := []
  mbox      : List MboxEntry := []
  monitor   : List Reserve := []
  ops       : List EngOp := []
  nextOp    : Nat := 0
  gens      : List (Option Stream)
  mx        : Mx
  /-- the cycle after the one of the last admission, and the age of the warp last admitted (R416) -/
  lastAdmit : Nat := 0
  lastAge   : Nat := 0
  /-- the context whose control thread the control core runs (R417) -/
  ctlCur    : Nat := 0
  /-- contexts in the order in which they became resident, those that have left among them (R417) -/
  resid     : List Nat := []
  /-- sequence number of the core's next .ord access (R99) -/
  ordSeq    : Nat := 0
  slices    : List Slice := []
  drains    : List Drain := []
  images    : List SaveImage := []
  deriving DecidableEq, Repr

/-! ## Dies and homes -/

/-- Owner of a page on a die (Table 4.2; UNOWNED has no entry). -/
inductive PageOwner where
  | priv (core : Nat)
  | shared
  deriving DecidableEq, Repr

/-- State of a sector in the directory (Table 4.3; I has no entry). -/
inductive DirSt where
  | s (holders : List Nat)
  | m (core : Nat)
  deriving DecidableEq, Repr

/-- A request of a core to its die coherence unit (R92). -/
inductive DcuKind where
  | read | store | upgrade
  deriving DecidableEq, Repr

structure DcuReq where
  core : Nat
  key  : SKey
  kind : DcuKind
  ctx  : Nat
  /-- the core cycle it arrived in -/
  cycle : Nat := 0
  deriving DecidableEq, Repr

/-- A Serac die. -/
structure Die where
  tlb    : List TlbEntry := []
  missq  : List Miss := []
  owners : List (SKey × PageOwner) := []
  dir    : List (SKey × DirSt) := []
  dreqs  : List DcuReq := []
  deriving DecidableEq, Repr

/-- A Firn die: its memory-side cache, TLB and misses of its indirect-stream engine, presence filter (sector, marked dies) and
reservation monitor. `lines` are the 64-byte lines of its stack that the cache holds, and whether each is dirty (R97): every
access passes through the cache, so the stack's bytes as accesses see them, Memory.hbm, are those of the cache where it
holds the line. -/
structure Firn where
  lines    : List (Nat × Bool) := []
  tlb      : List TlbEntry := []
  missq    : List Miss := []
  presence : List (Nat × List Nat) := []
  monitor  : List Reserve := []
  deriving DecidableEq, Repr

/-- A request on its way to a home, a port or a mailbox. -/
inductive ReqKind where
  /-- an L1 fill (`priv`: of a PRIVATE page, R90) -/
  | fill (key : SKey) (priv : Bool)
  /-- one lane of an uncached, .ord, acquiring or LDRES read -/
  | read (w : Who) (idx lane : Nat) (place : Place) (n : Nat) (resv : Bool)
  /-- the dirty bytes of a sector, or a store performed at the home: byte mask and data of the sector -/
  | write (key : SKey) (mask : BitVec 64) (data : List (BitVec 8)) (src : Option (Who × Nat))
  /-- one lane of an atomic, RED or STCOND -/
  | atomic (w : Who) (idx lane : Nat) (place : Place) (op : Option AtomOp) (n : Nat) (v cmp : BitVec 128) (reply : Bool)
  /-- a WN load of one lane, or a WN store -/
  | wload (w : Who) (idx lane : Nat) (place : Place) (n : Nat) (resv : Bool)
  | wstore (w : Who) (idx lane : Nat) (place : Place) (data : List (BitVec 8))
  /-- a mailbox store, with the scope at which it releases -/
  | mail (place : Place) (data : List Word) (w : Who) (rel : Option Scope)
  /-- the value an atomic or STCOND returned, on its way back to its thread -/
  | reply (w : Who) (idx lane : Nat) (v : BitVec 128)
  /-- the value a lane of a load or LDRES read, and the sector a fill read, on their way back -/
  | data (w : Who) (idx lane : Nat) (v : BitVec 128)
  | filled (key : SKey) (priv : Bool) (bytes : List (BitVec 8))
  deriving DecidableEq, Repr

/-- A request in flight (R109): its identifier, the core it comes from and its context, its .ord number,
the dies whose acknowledgement it waits for (R91), and, while it is on its stitch route, the site it stands at and the port it
came in by, none for one the die itself injects (R18); `edge` is the Moraine die at which one to or from the host stands on the edge
chain (R17). -/
structure Req where
  id    : Nat
  core  : Nat
  ctx   : Nat
  kind  : ReqKind
  ord   : Option Nat := none
  acks  : List Nat := []
  asked : Bool := false
  here  : Option Site := none
  inp   : Option Stitch := none
  edge  : Option Nat := none
  deriving DecidableEq, Repr

/-- Scrub states other than READY (Table 3.4). -/
inductive ScrubSt where
  | shootdown | zeroing
  deriving DecidableEq, Repr

/-- A frame that is scrubbed (R76): acknowledgements received (Serac dies, Firn dies), counted duplicates
and accesses, and whether a host release command awaits it. -/
structure Scrub where
  frame   : Nat
  st      : ScrubSt
  serac   : List Nat := []
  firn    : List Nat := []
  counted : Nat := 0
  vfs     : List Nat := []
  deriving DecidableEq, Repr

/-! ## Contexts and grids -/

/-- States of a grid (R388). -/
inductive GridSt where
  | reserved | queued | running | done | malformed | killed
  deriving DecidableEq, Repr

/-- A grid in a launch queue (R410). -/
structure Grid where
  seq     : Nat
  st      : GridSt
  /-- a later number of its queue has been reserved since (R387) -/
  later   : Bool := false
  recAddr : DWord := 0
  lrec    : LaunchRec := {}
  exps    : List Nat := []
  chans   : List Chan := []
  /-- effective priority and the time since which it has waited without admission (R413) -/
  prio    : Nat := 0
  since   : Nat := 0
  order   : Nat := 0
  /-- teams admitted and retired, by TEAM.ID -/
  admitted : List Nat := []
  retired  : List Nat := []
  /-- home core of each admitted team, for SPLICE (R411) -/
  homes   : List (Nat × Nat) := []
  /-- SPLICE turned into FULL by a revocation (R412) -/
  full    : Bool := false
  /-- the cores of its context as its teams number them, where a revocation has renumbered them since it started (R443) -/
  view    : Option (List Nat) := none
  /-- gang barrier: gang number, arrived (core, slot) pairs (R239) -/
  gbars   : List (Nat × List (Nat × Nat)) := []
  deriving DecidableEq, Repr

/-- A launch queue. -/
structure Queue where
  next  : Nat := 0
  grids : List Grid := []
  deriving DecidableEq, Repr, Inhabited

/-- States of a context (Table 17.1). -/
inductive CtxSt where
  | stopped | running | killing
  deriving DecidableEq, Repr

/-- States of a communicator handle (R379). -/
inductive CommSt where
  | free | reserved | forming | ready | dead
  deriving DecidableEq, Repr

/-- A communicator handle of a context: its state, key, rank and the number of COLL issued (R378, R381). -/
structure Handle where
  st     : CommSt := .free
  /-- the communicator it names -/
  comm   : Nat := 0
  key    : Nat := 0
  rank   : Nat := 0
  issued : Nat := 0
  open_  : Nat := 0
  deriving DecidableEq, Repr, Inhabited

/-- The trace buffer of a root (R454). -/
structure Trace where
  base : DWord
  size : Nat
  rate : Nat
  deriving DecidableEq, Repr

/-- A revocation in progress (R391): its completion word, the caller, the frames it released, and the cores its teams
leave. -/
structure RevokeOp where
  cw     : DWord
  caller : Nat
  frames : List Nat
  cores  : List Nat
  deriving DecidableEq, Repr

/-- A context (R384, R385, R438). -/
structure Ctx where
  idx     : Nat
  gen     : Nat
  vf      : Nat
  parent  : Option Nat
  depth   : Nat
  st      : CtxSt
  flags   : BitVec 8
  seed    : DWord
  /-- CTX.TROOT, and the shadow root of a FLAT child (R68) -/
  troot   : DWord
  shadow  : DWord := 0
  entry   : DWord
  /-- physical numbers of the logical cores 0, 1, … (R21) -/
  cores   : List Nat
  wbase   : Nat := 0
  wsize   : Nat := 0
  /-- 64 KiB pages of the window, by number, that a revocation further up has taken out of it (R442) -/
  lost    : List Nat := []
  frames  : Nat
  nq      : Nat
  tagb    : Nat
  trsh    : Nat
  prio    : Nat
  toff    : DWord := 0
  events  : List Word
  /-- event counters that a kick has raised (R467) -/
  kicked  : List Nat := []
  fq      : List (List DWord) := []
  /-- records taken from the queue by an FQPOP that has not committed -/
  fqHeld  : Nat := 0
  tagx    : Word := 0
  splitfr : Word := 0
  barstr  : Word := 0
  queues  : List Queue
  comms   : List Handle
  /-- the instance that holds its control lock (R386) -/
  lock    : Option Who := none
  regions : List Nat := []
  trace   : Option Trace := none
  /-- trace records appended in the present microsecond: its number and their count -/
  traced  : Nat × Nat := (0, 0)
  /-- a revocation in progress (R391) -/
  revoke  : Option RevokeOp := none
  /-- the frames whose scrub the kill of this context awaits, once it has been taken apart (R445) -/
  dying   : Option (List Nat) := none
  /-- grants reserved by CTXNEW and CTXGRANT that have not committed: the reserving thread and the grant -/
  held    : List (Who × Nat × GrantParams) := []
  deriving DecidableEq, Repr

/-- A kill in progress (R392): its target and the completion word of the caller. -/
structure KillOp where
  target : Nat
  id     : Word
  caller : Nat
  cw     : DWord
  deriving DecidableEq, Repr

/-- A completion word still to be written (R394). -/
structure CompWord where
  id     : Nat
  caller : Nat
  addr   : DWord
  value  : DWord
  halted : Bool := false
  deriving DecidableEq, Repr

/-! ## Communicators and collectives -/

/-- What one rank brings to a collective (R380, R381). -/
structure CollPart where
  rank  : Nat
  var   : Nat
  fmt   : Nat
  rop   : Nat
  root  : Nat
  count : Nat
  data  : List (BitVec 8)
  /-- the operation of a local rank -/
  op    : Option (Nat × Nat)
  /-- its parameter block was malformed (log 51) -/
  bad   : Bool := false
  deriving DecidableEq, Repr

/-- A collective in progress: the k-th of its communicator (R381). -/
structure Coll where
  k       : Nat
  parts   : List CollPart
  placed  : List Nat := []
  /-- the deciding engine's decision: true DONE, false ABORTED (R447) -/
  decided : Option Bool := none
  /-- the ranks' parameters differ: every rank completes MISMATCH (R381) -/
  mismatch : Bool := false
  deadAt  : Option Nat := none
  deriving DecidableEq, Repr

/-- A communicator (R378). -/
structure Comm where
  id      : Nat
  key     : Nat
  nranks  : Nat
  members : List (DWord × DWord)
  joined  : List (Nat × Option Nat)
  st      : CommSt
  since   : Nat
  colls   : List Coll := []
  deriving DecidableEq, Repr

/-! ## The device and its functions -/

/-- A page request (R82, R83) for a 64 KiB unit of host memory, the STU of Table 21.1. -/
structure PageReq where
  idx        : Nat
  page       : Nat
  write      : Bool
  gen        : Nat
  since      : Nat
  quarantine : Bool := false
  deriving DecidableEq, Repr

/-- A region of the handover table (R100); host pages by number of 4 KiB. -/
structure HandRegion where
  page    : Nat
  npages  : Nat
  transit : Bool := false
  deriving DecidableEq, Repr

/-- A handover command in progress (Table 4.6): its direction, pages, status address, vector and tag. -/
structure HandCmd where
  toHost : Bool
  page   : Nat
  npages : Nat
  staddr : Nat
  msix   : Bool
  tag    : Nat
  /-- it is being carried out; before that it follows another command for its region (R105) -/
  begun  : Bool := false
  deriving DecidableEq, Repr

/-- An ATS invalidation whose completion is still due (R81): its pages of 4 KiB, and whether the flushing reads have been sent. -/
structure Inval where
  page   : Nat
  npages : Nat
  asked  : Bool := false
  deriving DecidableEq, Repr

/-- A virtual function (Table 21.2 and R458 to R468). -/
structure Vf where
  /-- the host port the firmware has assigned it, 0 or 1, and the PASID the host has set, 20 bits (Table 21.1, log 57) -/
  port      : Nat := 0
  pasid     : BitVec 20 := 0
  ready     : Bool := false
  ignored   : Bool := false
  gen       : Nat := 0
  flr       : Bool := false
  root      : Option Nat := none
  rtroot    : DWord := 0
  rentry    : DWord := 0
  rarg      : DWord := 0
  cstat     : DWord := 0
  fqBase    : DWord := 0
  fqSize    : DWord := 0
  fqHead    : DWord := 0
  fqTail    : DWord := 0
  fqRstat   : DWord := 0
  hcmd      : List DWord := [0, 0, 0, 0]
  frelDone  : DWord := 0
  aper      : DWord := 0
  profile   : Option (Nat × Profile) := none
  atomicReq : Bool := false
  /-- the host's Outstanding Page Request Allocation (R83, log 5) -/
  prAlloc   : Nat := 512
  /-- a SAVE command is being carried out -/
  saving    : Bool := false
  hand      : List HandRegion := []
  /-- handover commands being carried out (R103, R104) -/
  handCmds  : List HandCmd := []
  /-- ATS requests sent: the 64 KiB unit (the STU of Table 21.1), and whether a write is asked for (R81); units answered -/
  atsPend   : List (Nat × Bool) := []
  atsOk     : List (Nat × Bool) := []
  /-- units whose request failed: the next walk to meet one faults (R82) -/
  atsFail   : List Nat := []
  /-- ATS invalidations whose completion awaits accesses, and completions returned (R81) -/
  inval     : List Inval := []
  invDone   : Nat := 0
  pri       : List PageReq := []
  priStale  : Nat := 0
  /-- fault records waiting for queue space -/
  fqWait    : List WaitingFault := []
  /-- MSI-X vectors signalled, latest first (R461) -/
  msix      : List Nat := []
  /-- the last completion a host read or AtomicOp received: status (0 data, 1 UR, 2 CA, 3 malformed) and data -/
  reply     : Option (Nat × List (BitVec 8)) := none
  urCount   : Nat := 0
  /-- requests of the host that have arrived and wait, oldest first: for a translation of the host's, or behind a posted write that
  waits for one (R467, R468, R480) -/
  posted    : List Instr := []
  deriving DecidableEq, Repr

/-- A region descriptor (Tables 2.3, 2.4). -/
structure Region where
  w0 : DWord := 0
  w1 : DWord := 0
  w2 : DWord := 0
  w3 : DWord := 0
  deriving DecidableEq, Repr, Inhabited

/-- A partition: its columns (R449). -/
structure Partition where
  first : Nat
  width : Nat
  deriving DecidableEq, Repr

/-- A save image of a root and its subtree (R455, R466): its contexts; what each core held; their halts, waiting records
and completion words; each frame charged or holding a table of T_0, with its charge and contents; those tables' frames and
levels; and the counter at the save. -/
structure RootImage where
  handle  : Nat
  root    : Nat
  ctxs    : List Ctx
  cores   : List (Nat × SaveImage)
  halts   : List Halt
  waits   : List WaitingFault
  words   : List CompWord
  frames  : List (Nat × Option Nat × List (BitVec 8))
  tables  : List (Nat × Nat)
  counter : Nat
  deriving DecidableEq, Repr, Inhabited

/-- The panel as a whole. -/
structure Device where
  power     : Bool := false
  up        : Bool := false
  grade     : Nat := 0x0A
  /-- the package identity, its Vocia address (R378, log 25) -/
  package   : BitVec 32 := 0
  /-- disabled cores, by physical number: 60 of them for grade A (R16, log 3) -/
  disabled  : List Nat := (List.range 60).map fun d => 10 * d + 9
  rollback  : Nat := 0
  /-- the fused SHA-256 hash of the firmware's public key (R472, log 26) -/
  keyHash   : BitVec 256 := 0
  /-- the firmware's management window, 256 MiB (R473) -/
  window    : List Host.Cell := []
  fwVersion : Nat := 0
  latband   : List (Nat × Nat × BitVec 32) := []
  regions   : List Region
  parts     : List Partition := []
  images    : List RootImage := []
  /-- images the operator has carried out of the device -/
  away      : List RootImage := []
  nextImage : Nat := 1
  /-- where the world has put a correctable, or an uncorrectable, error (R106, R107) -/
  soft      : List ErrSite := []
  hard      : List ErrSite := []
  corrected : Nat := 0
  throttled : List Nat := []
  clamped   : List Nat := []
  deriving DecidableEq, Repr

/-- A Vocia link (R470, R471). -/
structure Link where
  /-- since when it is down -/
  down    : Option Nat := none
  /-- the sequence number of the next flit received, and of the next sent -/
  seq     : Nat := 0
  txSeq   : Nat := 0
  retry   : Bool := false
  /-- flits each channel may still send, and those that wait for credit, with their channels -/
  credits : List Nat := [64, 64, 64, 64]
  waits   : List (Nat × FlitBody) := []
  deriving DecidableEq, Repr, Inhabited

/-! ## The model's own fields -/

/-- The instruction being issued: the thread and index, the firing mask, the operands on its ports, and
where its results go (R198). -/
structure Issue where
  who  : Who
  idx  : Nat
  mask : Mask
  vals : List PortVal
  form : Form
  deriving DecidableEq, Repr

/-- What moves next (log 1): a node or control thread fires an instruction, an event happens, or a function's waiting request of the
host goes on. -/
inductive Act where
  | fire (w : Who) (idx : Nat)
  | ev (i : Instr)
  | host (vf n : Nat)
  deriving DecidableEq, Repr

/-- A turn of the agenda: the time that passes before it, in ticks of 1/6 ns (log 2), and the move. -/
structure Turn where
  dt  : Nat
  act : Act
  deriving DecidableEq, Repr

/-- The machine. -/
structure State where
  dev     : Device
  gens    : List (Nat × Nat)
  links   : List Link
  time    : Nat
  mem     : Memory
  vfs     : List Vf
  ctxs    : List Ctx
  cores   : List (Nat × Core)
  dies    : List (Nat × Die)
  firns   : List (Nat × Firn)
  scrubs  : List Scrub
  waitRel : List (Nat × Option Nat)
  charges : List (Nat × Nat)
  halts   : List Halt
  waitFaults : List WaitingFault
  kills   : List KillOp
  words   : List CompWord
  comms   : List Comm
  /-- communicators formed so far: the next one's identity -/
  nextComm : Nat
  reqs    : List Req
  /-- the input each output port of a die's stitch router served last: site and port, and the input's port, none for the die
  itself (R18) -/
  routers : List ((Site × Stitch) × Option Stitch)
  nextReq : Nat
  launches : Nat
  free    : Nat
  agenda  : List Turn
  cur     : Option Issue
  deriving DecidableEq, Repr

/-! ## Reset -/

/-- An empty node row of a core (R201). -/
def Core.freshNodes : List Node := List.replicate 24 {}

/-- The matrix path at bring-up: not held, nothing loaded, every row slot EMPTY. -/
def Mx.fresh : Mx :=
  { loaded := List.replicate 16 none, blocks := List.replicate 16 [], slots := List.replicate 64 {} }

/-- A core that holds nothing. -/
def Core.fresh : Core :=
  { nodes := Core.freshNodes, gens := List.replicate 8 none, mx := .fresh }

/-- The state after reset: power-good has not been processed, READY is clear, every register page holds
its reset values, every memory reads 0, and no context exists (R474, Table 21.2, logs 1 to 8). -/
def State.reset : State :=
  { dev := { regions := List.replicate 256 {} }
    gens := [], links := List.replicate Config.vociaPorts {}, time := 0, mem := {}
    vfs := List.replicate Config.functions {}
    ctxs := [], cores := [], dies := [], firns := [], scrubs := [], waitRel := [], charges := []
    halts := [], waitFaults := [], kills := [], words := [], comms := [], nextComm := 0
    reqs := [], routers := [], nextReq := 0, launches := 0, free := 0, agenda := [], cur := none }

/-! ## Stops -/

/-- Why a step stops with a fault of the machine as a whole. There is none: every fault and trap of the device is taken as
the spec describes it, and is a next state. -/
inductive Fault where
  deriving DecidableEq, Repr

/-- Why a step is refused. -/
inductive Refusal where
  /-- an instruction whose arm of `exec` has no meaning yet; safe: no claim can be proved of it -/
  | notModelled (mnemonic : String)
  /-- `exec` is asked for an instruction form while no thread issues one (`State.cur` is none); raised by every
  instruction form; safe: `step` never asks this -/
  | noIssuer
  deriving DecidableEq, Repr

end Sys2Proof.Machine
end

