-- ==== Sys2Proof/Machine/Mem.lean ====
section
/-! DEFINITION. Byte memories in canonical form, and tables keyed by numbers. -/

namespace Sys2Proof.Machine

/-! ## Lists in an order -/

/-- Put an element before the first that it does not come after. -/
def insertBy {α : Type} (le : α → α → Bool) (a : α) : List α → List α
  | [] => [a]
  | b :: t => if le a b then a :: b :: t else b :: insertBy le a t

/-- A list in an order; elements that are equal in it keep their places among one another. -/
def sortBy {α : Type} (le : α → α → Bool) (l : List α) : List α := l.foldr (insertBy le) []

/-! ## One byte memory -/

/-- The byte at an address; an unlisted address reads as 0 (log 7). -/
def Mem.get (m : List Host.Cell) (a : Nat) : BitVec 8 :=
  match m with
  | [] => 0
  | (k, b) :: t => if k = a then b else Mem.get t a

/-- Put a byte that is not 0 in its place. -/
def Mem.put (m : List Host.Cell) (a : Nat) (b : BitVec 8) : List Host.Cell :=
  match m with
  | [] => [(a, b)]
  | (k, c) :: t => if a < k then (a, b) :: (k, c) :: t else if a = k then (a, b) :: t else (k, c) :: Mem.put t a b

/-- Write one byte, keeping the canonical form: a byte of 0 is no entry. -/
def Mem.set (m : List Host.Cell) (a : Nat) (b : BitVec 8) : List Host.Cell :=
  if b = 0 then m.filter fun c => c.1 != a else Mem.put m a b

/-- The canonical form: addresses rise and no entry is 0. -/
def Mem.wf : List Host.Cell → Bool
  | [] => true
  | (k, b) :: t => b != 0 && t.all (fun c => k < c.1) && Mem.wf t

/-- Write bytes at rising addresses. -/
def Mem.setBytes (m : List Host.Cell) (a : Nat) (bs : List (BitVec 8)) : List Host.Cell :=
  match bs with
  | [] => m
  | b :: t => Mem.setBytes (Mem.set m a b) (a + 1) t

/-- The `n` bytes from an address. -/
def Mem.getBytes (m : List Host.Cell) (a n : Nat) : List (BitVec 8) := (List.range n).map fun i => Mem.get m (a + i)

/-- Zero the `n` bytes from an address. -/
def Mem.clear (m : List Host.Cell) (a n : Nat) : List Host.Cell := m.filter fun c => c.1 < a || a + n ≤ c.1

/-- The memories of the machine are in canonical form. -/
def Memory.wf (m : Memory) : Bool :=
  Mem.wf m.hbm && Mem.wf m.host && Mem.wf m.spad && Mem.wf m.acc && Mem.wf m.wgt && Mem.wf m.scl

/-! ## Bytes and numbers (R5) -/

/-- The little-endian number of a list of bytes. -/
def bytesVal : List (BitVec 8) → Nat
  | [] => 0
  | b :: t => b.toNat + 256 * bytesVal t

/-- The `n` low bytes of a number, lowest first. -/
def valBytes (n v : Nat) : List (BitVec 8) :=
  match n with
  | 0 => []
  | k + 1 => BitVec.ofNat 8 v :: valBytes k (v / 256)

/-- Bits [hi:lo] of a number. -/
def bitsOf (x hi lo : Nat) : Nat := x / 2 ^ lo % 2 ^ (hi + 1 - lo)

/-- A value placed at bit `lo` of a word, `w` bits wide. -/
def fieldAt (v lo w : Nat) : Nat := v % 2 ^ w * 2 ^ lo

/-- A number of `w` bits read as two's complement. -/
def signedOf (x w : Nat) : Int := if x % 2 ^ w < 2 ^ (w - 1) then (x % 2 ^ w : Nat) else (x % 2 ^ w : Nat) - (2 ^ w : Nat)

/-! ## Tables keyed by numbers -/

/-- The value at a key, or the default. -/
def tabGet {α : Type} (d : α) (k : Nat) : List (Nat × α) → α
  | [] => d
  | (j, v) :: t => if j = k then v else tabGet d k t

/-- The value at a key. -/
def tabFind {α : Type} (k : Nat) : List (Nat × α) → Option α
  | [] => none
  | (j, v) :: t => if j = k then some v else tabFind k t

/-- Put a value at a key, keys rising. -/
def tabPut {α : Type} (k : Nat) (v : α) : List (Nat × α) → List (Nat × α)
  | [] => [(k, v)]
  | (j, w) :: t => if k < j then (k, v) :: (j, w) :: t else if k = j then (k, v) :: t else (j, w) :: tabPut k v t

/-- Remove a key. -/
def tabDel {α : Type} (k : Nat) (l : List (Nat × α)) : List (Nat × α) := l.filter fun p => p.1 != k

/-- Change one element of a list. -/
def listMod {α : Type} (l : List α) (n : Nat) (f : α → α) : List α :=
  match l, n with
  | [], _ => []
  | x :: t, 0 => f x :: t
  | x :: t, n + 1 => x :: listMod t n f

/-- The elements of a list that satisfy a test, changed. -/
def mapIf {α : Type} (p : α → Bool) (f : α → α) (l : List α) : List α := l.map fun x => if p x then f x else x

end Sys2Proof.Machine
end

