-- ==== Sys2Proof/Machine/Ops.lean ====
section
/-! DEFINITION. The named operations over the state: reading and changing cores, dies, contexts and
functions; the logical numbering; time; free values; recording a fault, delivering it, halting and
resuming a requester; taking a trap and returning from it. -/

namespace Sys2Proof

/-- The core a thread runs on. -/
def Who.core : Who → Nat
  | .warp c _ _ => c
  | .ctl c _ => c

/-- A thread is a control thread. -/
def Who.isCtl : Who → Bool
  | .warp _ _ _ => false
  | .ctl _ _ => true

/-- A thread, whatever the instance of its block. -/
def Who.same : Who → Who → Bool
  | .warp c s _, .warp d t _ => c == d && s == t
  | .ctl c x, .ctl d y => c == d && x == y
  | _, _ => false

/-- The requester a thread is when it faults. -/
def Who.requester : Who → Machine.Requester
  | .warp c sl _ => .warp c sl
  | .ctl c x => .ctl c x

end Sys2Proof

namespace Sys2Proof.Machine

/-! ## Reading and changing the parts of the state -/

def State.core (s : State) (c : Nat) : Core := tabGet Core.fresh c s.cores
def State.setCore (s : State) (c : Nat) (k : Core) : State := { s with cores := tabPut c k s.cores }
def State.modCore (s : State) (c : Nat) (f : Core → Core) : State := s.setCore c (f (s.core c))

def State.die (s : State) (d : Nat) : Die := tabGet {} d s.dies
def State.setDie (s : State) (d : Nat) (x : Die) : State := { s with dies := tabPut d x s.dies }
def State.modDie (s : State) (d : Nat) (f : Die → Die) : State := s.setDie d (f (s.die d))

def State.firn (s : State) (d : Nat) : Firn := tabGet {} d s.firns
def State.setFirn (s : State) (d : Nat) (x : Firn) : State := { s with firns := tabPut d x s.firns }
def State.modFirn (s : State) (d : Nat) (f : Firn → Firn) : State := s.setFirn d (f (s.firn d))

def State.vf (s : State) (n : Nat) : Vf := s.vfs.getD n {}
def State.modVf (s : State) (n : Nat) (f : Vf → Vf) : State := { s with vfs := listMod s.vfs n f }

/-- The live context of an index. -/
def State.ctx? (s : State) (i : Nat) : Option Ctx := s.ctxs.find? fun c => c.idx == i
def State.modCtx (s : State) (i : Nat) (f : Ctx → Ctx) : State := { s with ctxs := mapIf (fun c => c.idx == i) f s.ctxs }

def Core.warp? (k : Core) (slot : Nat) : Option Warp := tabFind slot k.warps

/-- The age of the warp of a slot. -/
def Core.ageOf (k : Core) (slot : Nat) : Nat := ((k.warp? slot).map (·.age)).getD 0
def Core.setWarp (k : Core) (slot : Nat) (w : Warp) : Core := { k with warps := tabPut slot w k.warps }
def Core.modWarp (k : Core) (slot : Nat) (f : Warp → Warp) : Core :=
  match k.warp? slot with | none => k | some w => k.setWarp slot (f w)

def State.warp? (s : State) (c slot : Nat) : Option Warp := (s.core c).warp? slot
def State.modWarp (s : State) (c slot : Nat) (f : Warp → Warp) : State := s.modCore c (fun k => k.modWarp slot f)

def Core.ctl? (k : Core) (x : Nat) : Option Ctl := k.ctls.find? fun t => t.ctx == x
def State.ctl? (s : State) (c x : Nat) : Option Ctl := (s.core c).ctl? x
def State.modCtl (s : State) (c x : Nat) (f : Ctl → Ctl) : State :=
  s.modCore c fun k => { k with ctls := mapIf (fun t => t.ctx == x) f k.ctls }

def Core.team? (k : Core) (t : Nat) : Option Team := k.teams.find? fun x => x.id == t
def State.modTeam (s : State) (c t : Nat) (f : Team → Team) : State :=
  s.modCore c fun k => { k with teams := mapIf (fun x => x.id == t) f k.teams }

def Warp.inst? (w : Warp) (itag : Nat) : Option Inst := w.insts.find? fun i => i.itag == itag
def Warp.modInst (w : Warp) (itag : Nat) (f : Inst → Inst) : Warp :=
  { w with insts := mapIf (fun i => i.itag == itag) f w.insts }

def State.modInst (s : State) (c slot itag : Nat) (f : Inst → Inst) : State :=
  s.modWarp c slot fun w => w.modInst itag f

def Core.op? (k : Core) (id : Nat) : Option EngOp := k.ops.find? fun o => o.id == id
def State.modOp (s : State) (c id : Nat) (f : EngOp → EngOp) : State :=
  s.modCore c fun k => { k with ops := mapIf (fun o => o.id == id) f k.ops }

/-- The requester that waits for a walk. -/
def Waiter.requester : Waiter → Requester
  | .instr w _ _ => w.requester
  | .fetch c sl => .warp c sl
  | .cfetch c x => .ctl c x
  | .op c id => .op c id
  | .pref _ _ => .write 0

/-- The context of a thread. -/
def State.ctxOf (s : State) : Who → Nat
  | .warp c sl _ => ((s.warp? c sl).map (·.ctx)).getD 0
  | .ctl _ x => x

/-- The next free value's index, used up (log 1). -/
def State.nextFree (s : State) : State := { s with free := s.free + 1 }

/-- A free choice among `n` (log 1). -/
def State.choice (s : State) (n : Nat) : Nat := Config.freeChoice s.free % n

/-! ## The panel and logical numbering (R15, R21 to R29) -/

/-- The Serac die of a core. -/
def dieOf (core : Nat) : Nat := core / 10

/-- Column of a Serac die: dies are numbered 4 × column + row div 2 (R15, R38). -/
def seracCol (die : Nat) : Nat := die / 4

/-- Row of a Serac die (R15): even rows in even columns, odd rows in odd columns. -/
def seracRow (die : Nat) : Nat := 2 * (die % 4) + seracCol die % 2

/-- Column and row of a Firn site: row + column is odd (R15, R38). -/
def firnCol (stack : Nat) : Nat := stack / 4
def firnRow (stack : Nat) : Nat := 2 * (stack % 4) + (firnCol stack + 1) % 2

/-- A core is built and not disabled (R16). -/
def State.enabled (s : State) (core : Nat) : Bool := core < Config.coresBuilt && !s.dev.disabled.contains core

/-- The physical Serac dies of a context, in logical order (R22, R23). -/
def Ctx.dies (x : Ctx) : List Nat := (List.range Config.seracDies).filter fun d => x.cores.any fun c => dieOf c == d

/-- The position of an element in a list. -/
def indexIn (l : List Nat) (a : Nat) : Option Nat := l.findIdx? (fun b => b == a)

/-- The logical core of a physical core. -/
def Ctx.lcore (x : Ctx) (c : Nat) : Nat := (indexIn x.cores c).getD 0
/-- The logical die of a physical core. -/
def Ctx.ldie (x : Ctx) (c : Nat) : Nat := (indexIn x.dies (dieOf c)).getD 0

/-- The device mode (R26): 0 ONE, 1 TWO, 2 DIES. -/
def Ctx.mode (x : Ctx) : Nat := (x.flags.extractLsb' 0 2).toNat
def Ctx.isFlat (x : Ctx) : Bool := x.flags.getLsbD 5
def Ctx.strictTag (x : Ctx) : Bool := x.flags.getLsbD 6
def Ctx.elastic (x : Ctx) : Bool := x.flags.getLsbD 7

/-- First column and width of the box of a list of dies (R25). -/
def colSpan (dies : List Nat) : Nat × Nat :=
  let cols := dies.map seracCol
  let lo := cols.foldl min 24
  (lo, cols.foldl max 0 + 1 - lo)

/-- First grid row and height of the box of a list of dies (R25). -/
def rowSpan (dies : List Nat) : Nat × Nat :=
  let rows := dies.map (· % 4)
  let lo := rows.foldl min 4
  (lo, rows.foldl max 0 + 1 - lo)

/-- How many devices a context sees (Table 1.1). -/
def Ctx.devices (x : Ctx) : Nat := match x.mode with | 0 => 1 | 1 => 2 | _ => x.dies.length

/-- The device index of a core (R27). -/
def Ctx.devIdx (x : Ctx) (c : Nat) : Nat :=
  match x.mode with
  | 0 => 0
  | 1 =>
    let (lo, w) := colSpan x.dies
    if seracCol (dieOf c) < lo + (w + 1) / 2 then 0 else 1
  | _ => x.ldie c

/-- Launch queues per device (Table 1.1). -/
def queuesPerDevice (mode nq ndies : Nat) : Nat :=
  match mode with
  | 0 => min 64 nq
  | 1 => min 32 (nq / 2)
  | _ => min 8 (nq / ndies)

/-- Launch queues of a context (R26). -/
def Ctx.queueCount (x : Ctx) : Nat := queuesPerDevice x.mode x.nq x.dies.length * x.devices

/-- The device modes that R28 refuses. -/
def modeRefused (mode nq : Nat) (dies : List Nat) : Bool :=
  mode == 3 || (mode == 1 && ((colSpan dies).2 < 2 || nq < 2)) || (mode == 2 && (64 < dies.length || nq < dies.length))

/-- The context's identifier (R384). -/
def Ctx.id (x : Ctx) : Word := BitVec.ofNat 32 (x.gen * 65536 + x.idx)

/-- `a` is a live proper descendant of `x`: some chain of parents of at most four steps leads from it to `x` (R384). -/
def State.isDescendant (s : State) (x a : Nat) : Bool := go 4 a
where
  go : Nat → Nat → Bool
    | 0, _ => false
    | n + 1, b =>
      match (s.ctx? b).bind (·.parent) with
      | none => false
      | some p => p == x || go n p

/-- `a` is `x` or a descendant of it. -/
def State.inSubtree (s : State) (x a : Nat) : Bool := a == x || s.isDescendant x a

/-- The contexts of a subtree. -/
def State.subtree (s : State) (x : Nat) : List Nat := (s.ctxs.map (·.idx)).filter (s.inSubtree x)

/-- A context's root. -/
def State.rootOf (s : State) (x : Nat) : Nat := go 4 x
where
  go : Nat → Nat → Nat
    | 0, a => a
    | n + 1, a => match (s.ctx? a).bind (·.parent) with | none => a | some p => go n p

/-- The live descendant of `x` that an identifier names (R384). -/
def State.descendantById (s : State) (x : Nat) (id : Word) : Option Ctx :=
  s.ctxs.find? fun c => c.id == id && s.isDescendant x c.idx

/-! ## Time (R20, R400, R453) -/

/-- A die's 1 GHz counter: the reference, within the skew of the die (R400, log 22). -/
def State.counter (s : State) (die : Nat) : Nat := s.time / Config.ticksPerNs + Config.dieSkew die % 9

/-- The number of core cycles from one time to another. -/
def cyclesBetween (t0 t1 : Nat) : Nat := (t1 - t0) / Config.ticksPerCycle

/-- Nanoseconds from one time to another. -/
def nsBetween (t0 t1 : Nat) : Nat := (t1 - t0) / Config.ticksPerNs

/-! ## Fault records (Table 19.4) -/

def AccKind.code : AccKind → Nat
  | .read => 0 | .write => 1 | .atomic => 2 | .fetch => 3

/-- The grid, team and warp fields a requester has: its logical core, TEAM.ID, WARP.ID, warp slot, unit, queue
and sequence. -/
structure ReqFields where
  rkind : Nat
  core  : Nat := 0
  team  : Nat := 0
  warp  : Nat := 0
  wslot : Nat := 0
  unit  : Nat := 0
  queue : Nat := 0
  seq   : Nat := 0

/-- RKIND of an engine operation (R355). -/
def EngKind.rkind : EngKind → Nat
  | .stream => 2
  | .copy | .copy2d | .tcopy | .gath | .scat | .fill _ | .handoff _ => 3
  | .istream => 4
  | .coll _ => 5
  | .mxload | .mxmul | .mxcfg _ | .mxrelease => 6
  | .mxfeeds => 2

/-- The values of a team that its control thread reads (R409). -/
def Team.vals (t : Team) : TeamVals :=
  { tid := t.tid, queue := t.queue, seq := t.seq, griddim := t.lrec.griddim, tdim := t.lrec.tdim, spBase := t.spBase }

/-- The team values of a control thread: its team's, or, when the team has retired, those it started with. -/
def State.ctlVals (s : State) (core x : Nat) : Option TeamVals :=
  (s.ctl? core x).bind fun t => ((t.team.bind (s.core core).team?).map Team.vals).orElse fun _ => t.born

/-- A context as a team numbers it (R443): with the cores its grid started with. -/
def Ctx.viewed (x : Ctx) (v : Option (List Nat)) : Ctx := match v with | none => x | some cores => { x with cores }

/-- A context as a thread numbers it: a warp, or a control thread of a team, as its team does. -/
def State.seenBy (s : State) (x : Ctx) (who : Who) : Ctx :=
  let team := match who with
    | .warp c sl _ => (s.warp? c sl).map Warp.team
    | .ctl c y => (s.ctl? c y).bind Ctl.team
  x.viewed ((team.bind (s.core who.core).team?).bind Team.view)

/-- The fields of a requester. -/
def State.reqFields (s : State) (x : Ctx) (r : Requester) : ReqFields :=
  let teamFields (c : Nat) (t : Option Nat) (f : ReqFields) : ReqFields :=
    match t.bind (s.core c).team? with
    | none => f
    | some t => { f with core := (x.viewed t.view).lcore c, team := t.tid, queue := t.queue, seq := t.seq }
  match r with
  | .warp c sl =>
    match s.warp? c sl with
    | none => { rkind := 0, core := x.lcore c, wslot := sl }
    | some w => teamFields c (some w.team) { rkind := 0, core := x.lcore c, wslot := sl, warp := w.wid }
  | .ctl c k =>
    match s.ctlVals c k with
    | none => { rkind := 1, core := x.lcore c }
    | some v => { rkind := 1, core := x.lcore c, team := v.tid, queue := v.queue, seq := v.seq }
  | .stream c g =>
    match ((s.core c).gens.getD g none).bind fun y => (s.core c).op? y.op with
    | none => { rkind := 2, core := x.lcore c, unit := g }
    | some o => teamFields c o.team { rkind := 2, core := x.lcore c, unit := g, wslot := o.slot }
  | .op c id =>
    match (s.core c).op? id with
    | none => { rkind := 3, core := x.lcore c }
    | some o => teamFields c o.team { rkind := o.req.kind.rkind, core := x.lcore c, unit := o.entry % 64, wslot := o.slot }
  | .mx c => { rkind := 6, core := x.lcore c }
  | .write _ => { rkind := 7 }

/-- The eight words of a fault record, HALT apart (Table 19.4). -/
def State.record (s : State) (x : Ctx) (r : Requester) (f : FaultInfo) (block itag : Nat) (esc masked : Bool) : List DWord :=
  let q := s.reqFields x r
  let n (v : Nat) : DWord := BitVec.ofNat 64 v
  [ n (f.code.num + fieldAt f.acc.code 11 2 + fieldAt q.rkind 13 3 + fieldAt f.level 16 2 + fieldAt f.stage 18 3 +
      fieldAt f.shadow.toNat 21 1 + fieldAt masked.toNat 22 1 + fieldAt esc.toNat 23 1 + fieldAt f.ucode 32 16)
  , n (q.team % 2 ^ 32 + x.id.toNat * 2 ^ 32)
  , n (q.unit % 256 + fieldAt q.wslot 8 5 + fieldAt itag 16 5 + fieldAt q.core 32 16)
  , n (q.warp % 32 + f.mask.toNat * 2 ^ 32)
  , n block
  , f.oaddr
  , f.raddr
  , n (fieldAt q.queue 32 6 + fieldAt q.seq 40 24) ]

/-- A record with its halt number. -/
def withHaltNum (ws : List DWord) (num : Nat) : List DWord :=
  listMod ws 0 fun w => w ||| BitVec.ofNat 64 (fieldAt num 48 16)

/-- The bytes of a record. -/
def recordBytes (ws : List DWord) : List (BitVec 8) := ws.flatMap fun w => valBytes 8 w.toNat

/-! ## Host memory and MSI-X -/

/-- Key of a byte of a function's host memory. -/
def hostKey (vf addr : Nat) : Nat := vf * 2 ^ 64 + addr % 2 ^ 64

def State.hostWrite (s : State) (vf addr : Nat) (bs : List (BitVec 8)) : State :=
  { s with mem := { s.mem with host := Mem.setBytes s.mem.host (hostKey vf addr) bs } }

def State.hostRead (s : State) (vf addr n : Nat) : List (BitVec 8) := Mem.getBytes s.mem.host (hostKey vf addr) n

/-- Signal a vector of a function (R461). -/
def State.msix (s : State) (vf vec : Nat) : State := s.modVf vf fun v => { v with msix := vec :: v.msix }

/-! ## Fault delivery (R427, R397, R463) -/

/-- The context that receives a fault, and whether its record goes to the host driver (R64, R66, R419). -/
def State.receiver (s : State) (x : Ctx) (ctlSelf : Bool) (r : Receiver) : Nat × Bool :=
  let parentOf (c : Ctx) : Nat × Bool :=
    match c.parent with
    | none => (c.idx, true)
    | some p => (p, ((s.ctx? p).bind (·.parent)).isNone)
  match r with
  | .host => (s.rootOf x.idx, true)
  | .parent => parentOf x
  | .ctx i =>
    match s.ctx? i with
    | none => parentOf x
    | some c => if ctlSelf && i == x.idx then parentOf x else (i, c.parent.isNone)

/-- The lowest halt number no unresolved halt of the receiver holds (R427). -/
def State.freeHalt (s : State) (recv : Nat) : Option Nat :=
  let used := (s.halts.filter fun h => h.recv == recv).map (·.num)
  ((List.range (used.length + 1)).map (· + 1)).find? fun n => n ≤ 65534 && !used.contains n

/-- Room in the host's fault queue of a function (R463). -/
def Vf.fqRoom (v : Vf) : Bool := v.fqSize != 0 && v.fqTail - v.fqHead != v.fqSize

/-- Put a record into the host's fault queue of a function; none while it has no room (R463). -/
def State.hostRecord (s : State) (vf : Nat) (record : List DWord) : Option State :=
  let v := s.vf vf
  if v.fqRoom then
    let addr := v.fqBase.toNat + 64 * (v.fqTail.toNat % v.fqSize.toNat)
    some (((s.hostWrite vf addr (recordBytes record)).modVf vf fun v => { v with fqTail := v.fqTail + 1 }).msix vf 0)
  else none

/-- A fault takes its halt number, and with it its requester's halt stands; none while no number is free (R427). One that halts nobody
has number 0. -/
def State.numberFault (s : State) (f : WaitingFault) : Option (State × WaitingFault × Nat) :=
  match f.num, f.req with
  | some n, _ => some (s, f, n)
  | none, none => some (s, f, 0)
  | none, some r => (s.freeHalt f.recv).map fun n =>
    ({ s with halts := s.halts ++ [{ num := n, recv := f.recv, host := f.host, req := r, ctx := f.ctx, code := f.code, record := withHaltNum f.record n }] },
     { f with num := some n }, n)

/-- Give a fault its number and put its record into its receiver's queue, or leave it waiting (R427). -/
def State.enqueueFault (s : State) (f : WaitingFault) : State :=
  match f.driver with
  | some vf => (s.hostRecord vf f.record).getD (s.modVf vf fun v => { v with fqWait := v.fqWait ++ [f] })
  | none =>
  match s.ctx? f.recv, s.numberFault f with
  | none, _ => s
  | some _, none => { s with waitFaults := s.waitFaults ++ [f] }
  | some rx, some (s, f, num) =>
    let record := withHaltNum f.record num
    if f.host then (s.hostRecord rx.vf record).getD (s.modVf rx.vf fun v => { v with fqWait := v.fqWait ++ [f] })
    else if rx.fq.length + rx.fqHeld < 256 then
      s.modCtx f.recv fun c => { c with fq := c.fq ++ [record], events := listMod c.events 63 (· + 1) }
    else { s with waitFaults := s.waitFaults ++ [f] }

/-- Records that waited enter their queues while there is room (R397, R463). -/
def State.drainFaults (s : State) : State :=
  let ws := s.waitFaults
  ws.foldl (fun s f => s.enqueueFault f) { s with waitFaults := [] }

/-- Records waiting for a function's host queue enter it while there is room (R463). -/
def State.drainHostFaults (s : State) (vf : Nat) : State :=
  let ws := (s.vf vf).fqWait
  ws.foldl (fun s f => s.enqueueFault f) (s.modVf vf fun v => { v with fqWait := [] })

/-- DELIVER A FAULT of a requester of context `x` (R64 to R66, R427, R428). A context that is being killed
delivers nothing (R446). -/
def State.deliver (s : State) (xi : Nat) (r : Requester) (halts : Bool) (f : FaultInfo) (block itag : Nat)
    (esc : Bool := false) (masked : Bool := false) : State :=
  match s.ctx? xi with
  | none => s
  | some x =>
    if x.st == .killing then s
    else
      let ctlSelf := match r with | .ctl _ _ => true | _ => false
      let (recv, host) := s.receiver x ctlSelf f.recv
      s.enqueueFault { recv, host, req := if halts then some r else none, ctx := xi, code := f.code
                       record := s.record x r f block itag esc masked }

/-! ## Tokens and tags (R201, R208) -/

/-- Change one node of a core. -/
def Core.modNode (k : Core) (n : Nat) (f : Node → Node) : Core := { k with nodes := listMod k.nodes n f }

def Core.tag? (k : Core) (wslot itag : Nat) : Option TagEntry :=
  k.tags.find? fun t => t.wslot == wslot && t.itag == itag

/-- Add to a tag's live count. -/
def Core.tagAdd (k : Core) (wslot itag n : Nat) : Core :=
  { k with tags := mapIf (fun t => t.wslot == wslot && t.itag == itag) (fun t => { t with live := t.live + n }) k.tags }

/-- Take from a tag's live count; a PURGING tag that reaches 0 is released (Table 9.5). -/
def Core.tagSub (k : Core) (wslot itag n : Nat) : Core :=
  let tags := mapIf (fun t => t.wslot == wslot && t.itag == itag) (fun t => { t with live := t.live - n }) k.tags
  { k with tags := tags.filter fun t => !(t.purging && t.live == 0) }

/-- The instance reaches DONE: its tag enters PURGING and its residual tokens are removed (Table 9.5). -/
def Core.purge (k : Core) (wslot itag : Nat) : Core :=
  let mineT (t : Token) : Bool := t.wslot == wslot && t.itag == itag
  let mineM (m : MatchEntry) : Bool := m.wslot == wslot && m.itag == itag
  let held (n : Node) : Nat :=
    (n.chan.filter mineT).length + ((n.store.filter mineM).map (fun m => m.vals.length)).foldl (· + ·) 0 +
    ((n.ready.filter mineM).map (fun m => m.vals.length)).foldl (· + ·) 0
  let total := (k.nodes.map held).foldl (· + ·) 0
  let nodes := k.nodes.map fun n =>
    { n with chan := n.chan.filter (fun t => !mineT t), store := n.store.filter (fun m => !mineM m)
             ready := n.ready.filter (fun m => !mineM m) }
  let tags := mapIf (fun t => t.wslot == wslot && t.itag == itag)
    (fun t => { t with purging := true, live := t.live - total }) k.tags
  { k with nodes, tags := tags.filter fun t => !(t.purging && t.live == 0) }

/-! ## The exit record (R207) -/

/-- Record a fault or trap in an instance, unless its record already holds one (R207). -/
def State.recordExit (s : State) (c slot itag : Nat) (f : FaultInfo) : State :=
  s.modInst c slot itag fun i => { i with exit := match i.exit with | some e => some e | none => some f }

/-- A fault as one lane meets it. -/
def FaultInfo.ofLane (f : FaultInfo) (lane : Nat) (va : DWord) : LaneFault :=
  { lane, raddr := va, oaddr := f.oaddr, stage := f.stage, shadow := f.shadow, level := f.level }

/-- A fault of the lanes of a mask alone: its record gives what the lowest of them met (R212, R479). -/
def FaultInfo.keepLanes (f : FaultInfo) (keep : Mask) : FaultInfo :=
  let ls := f.lanes.filter fun q => keep.getLsbD q.lane
  let f := { f with mask := f.mask &&& keep, lanes := ls }
  match ls with
  | [] => f
  | q :: _ => { f with raddr := q.raddr, oaddr := q.oaddr, stage := q.stage, shadow := q.shadow, level := q.level }

/-! ## Taking a trap and returning from it (R419 to R425) -/

/-- What a boundary does with a trap (Table 19.2). -/
inductive TrapFate where
  | deferred
  | escalated (code : Code) (masked : Bool)
  | handled
  deriving DecidableEq, Repr

/-- Table 19.2, first row that applies. -/
def Warp.trapFate (w : Warp) (entry : DWord) (code : Code) (async : Bool) : TrapFate :=
  if async && w.trapMask then .deferred
  else if entry == 0 then .escalated code false
  else if !async && w.trapMask then .escalated code true
  else if 4 ≤ w.traps.length then .escalated .trapOverflow false
  else .handled

/-- TAKE A TRAP (R421): push the frame with the replay log, set TRAP.CAUSE, TRAP.BLOCK and TRAP.MASK, set the trap
mask, and send split `n` to the team's trap block. -/
def Warp.takeTrap (w : Warp) (entry : DWord) (n : Nat) (code : Code) (ucode block resume : Nat) (mask : Mask) : Warp :=
  let depth := (w.splits.getD n default).depth
  { w with
    traps := { resume, log := w.log, depth, cause := code, ucode, pmask := w.trapMask } :: w.traps
    log := {}
    cause := BitVec.ofNat 32 code.num, tblock := BitVec.ofNat 64 block, tlanes := mask
    trapMask := true
    splits := listMod w.splits n fun e => { e with next := entry.toNat, call := true, iter := 0 } }

/-- RETURN FROM A TRAP (R422): pop the top frame, restore its replay log and trap mask, and, after USER_TRAP, make the
next instance of the resumed block skip its TRAPs (R423). The lanes go to RESUME at the frame's depth by the vote. -/
def Warp.trapReturn (w : Warp) (mask : Mask) : Warp :=
  match w.traps with
  | [] => w
  | f :: rest => { w with traps := rest, log := f.log, trapMask := f.pmask, skips := if f.cause == .userTrap then w.skips ++ [(f.resume, mask)] else w.skips }

/-- The next instance of a block that some lanes run fires no TRAP (R423). -/
def Warp.skipDue (w : Warp) (block : Nat) (mask : Mask) : Bool := w.skips.any fun q => q.1 == block && (q.2 &&& mask) != 0

/-- That instance has been admitted. -/
def Warp.skipDone (w : Warp) (block : Nat) (mask : Mask) : Warp :=
  { w with skips := w.skips.filter fun q => !(q.1 == block && (q.2 &&& mask) != 0) }

/-- Halt a warp on a fault at its boundary (R65): the record goes out; TRAP.MASK takes the fault's lanes where a rule says so, and
the TRAP registers stay otherwise. -/
def State.haltWarp (s : State) (c slot : Nat) (f : FaultInfo) (block itag : Nat) (esc masked : Bool) : State :=
  match s.warp? c slot with
  | none => s
  | some w =>
    let s := s.modWarp c slot fun w => { w with halt := some (.warp c slot), tlanes := if f.tmask then f.mask else w.tlanes }
    s.deliver w.ctx (.warp c slot) true f block itag esc masked

/-- Deliver a trap of a warp at a boundary (R420): handle it, defer it, or escalate it. -/
def State.raiseTrap (s : State) (c slot n : Nat) (f : FaultInfo) (async : Bool) (block resume itag : Nat) : State :=
  match s.warp? c slot with
  | none => s
  | some w =>
    let entry := (((s.core c).team? w.team).map (·.trapEntry)).getD 0
    match w.trapFate entry f.code async with
    | .deferred =>
      if w.trapPend then s.modCtx w.ctx fun x => { x with tagx := x.tagx + 1 }
      else s.modWarp c slot fun w => { w with trapPend := true }
    | .escalated code masked =>
      let lanes := (w.splits.getD n default).mask
      let s := s.modWarp c slot fun w => { w with skips := if f.code == .userTrap then w.skips ++ [(resume, lanes)] else w.skips }
      s.haltWarp c slot { f with code, recv := .parent } block itag true masked
    | .handled => s.modWarp c slot fun w => w.takeTrap entry n f.code f.ucode block resume f.mask

/-- A control thread halts before its instruction and the fault is delivered (R65, R196). -/
def State.haltCtl (s : State) (c x : Nat) (f : FaultInfo) (esc : Bool := false) : State :=
  match s.ctl? c x with
  | none => s
  | some t => (s.modCtl c x fun t => { t with halt := true, pend := none }).deliver x (.ctl c x) true f t.block 0 esc

/-- Discard an instance (R206, R219, R151): buffered effects are dropped, entries taken from channels return to the
head, reserved depths and row parts return, its lanes' reservations end, its tag is purged. -/
def Inst.returnTaken (i : Inst) (chans : List Chan) : List Chan :=
  i.taken.foldr (fun (e : Nat × Mask × Mask × Lanes) cs =>
    listMod cs e.1 fun ch => { ch with items := e.2.2 :: ch.items, taken := ch.taken - 1 }) chans

/-! ## Killing (R385, R392, R107) -/

/-- The function of a context. -/
def State.vfOf (s : State) (x : Nat) : Nat := ((s.ctx? x).map (·.vf)).getD 0

/-- A context and its subtree enter KILLING. -/
def State.startKill (s : State) (target : Nat) (caller : Option Nat) (cw : DWord) : State :=
  let tree := s.subtree target
  let ident := ((s.ctx? target).map Ctx.id).getD 0
  { s with ctxs := mapIf (fun c => tree.contains c.idx) (fun c => { c with st := .killing, lock := none }) s.ctxs
           kills := match caller with
             | none => s.kills
             | some x => s.kills ++ [{ target, id := ident, caller := x, cw }] }

end Sys2Proof.Machine
end

