-- ==== Sys2Proof/Machine/Topology.lean ====
section
/-! DEFINITION. The panel (chapter 1): sites, stitch ports and links, the edge chain, the dimension-ordered route, and the
quarters of the stacks (R15 to R18, R29, R43, R89). -/

namespace Sys2Proof.Machine

/-! ## Sites (R15) -/

/-- The site of a Serac die, and of a Firn die. -/
def seracSite (die : Nat) : Site := ⟨seracRow die, seracCol die⟩
def firnSite (stack : Nat) : Site := ⟨firnRow stack, firnCol stack⟩

/-- What stands at a site of the panel or above and below its columns. -/
inductive PanelDie where
  | serac (die : Nat)
  | firn (stack : Nat)
  /-- an edge die: two for each column, the one above row 0 before the one below row 7 -/
  | moraine (m : Nat)
  deriving DecidableEq, Repr

/-- The die of a site: Serac where row + column is even, Firn where it is odd. -/
def Site.die (p : Site) : PanelDie :=
  if (p.row + p.col) % 2 = 0 then .serac (4 * p.col + p.row / 2) else .firn (4 * p.col + p.row / 2)

/-! ## Stitch ports and links (R17) -/

/-- The opposite port. -/
def Stitch.back : Stitch → Stitch
  | .n => .s | .s => .n | .e => .w | .w => .e

/-- The number LATBAND gives a port (R401): N, E, S, W. -/
def Stitch.num : Stitch → Nat
  | .n => 0 | .e => 1 | .s => 2 | .w => 3

def Stitch.all : List Stitch := [.n, .e, .s, .w]

/-- The site a port leads to, when it leads to one. -/
def Site.next (p : Site) : Stitch → Option Site
  | .n => if 0 < p.row then some { p with row := p.row - 1 } else none
  | .s => if p.row < 7 then some { p with row := p.row + 1 } else none
  | .w => if 0 < p.col then some { p with col := p.col - 1 } else none
  | .e => if p.col < 23 then some { p with col := p.col + 1 } else none

/-- THE NEIGHBOUR of a Serac or Firn die at a port: a site's die, or the column's Moraine die; none where there is no port. -/
def Site.neighbour (p : Site) (q : Stitch) : Option PanelDie :=
  match p.next q, q with
  | some x, _ => some x.die
  | none, .n => some (.moraine (2 * p.col))
  | none, .s => some (.moraine (2 * p.col + 1))
  | none, _ => none

/-- The Moraine dies a Moraine die is linked to on the edge chain. -/
def edgeLinks (m : Nat) : List Nat := (if 2 ≤ m then [m - 2] else []) ++ (if m + 2 < 48 then [m + 2] else [])

/-- The next die of the edge chain on the way from one Moraine die of a row to another. -/
def edgeStep (m goal : Nat) : Nat := if m < goal then m + 2 else m - 2

/-- The Moraine dies with a PCIe host port, and the one with the management controller (Table 0.1). -/
def hostPortDies : List Nat := [0, 46]
def managerDie : Nat := 22

/-- The Moraine die of a host port. -/
def portDie (port : Nat) : Nat := hostPortDies.getD port 0

/-- A stitch port of a Serac die exists. -/
def portExists (die : Nat) (q : Stitch) : Bool := ((seracSite die).neighbour q).isSome

/-- A stack's Firn die is a stitch neighbour of a Serac die (R89). -/
def near (die stack : Nat) : Bool := Stitch.all.any fun q => (seracSite die).neighbour q == some (.firn stack)

/-! ## Routes (R18) -/

/-- The port by which a packet for a site leaves: along its row first, then along its column. -/
def Site.toward (a b : Site) : Option Stitch :=
  if a.col < b.col then some .e else if b.col < a.col then some .w
  else if a.row < b.row then some .s else if b.row < a.row then some .n else none

/-- Difference of two numbers. -/
def natDist (a b : Nat) : Nat := (a - b) + (b - a)

/-- Stitch crossings between two sites. -/
def Site.hops (a b : Site) : Nat := natDist a.col b.col + natDist a.row b.row

/-- The sites a packet enters on its way. -/
def Site.route (a b : Site) : List Site := go (a.hops b) a
where
  go : Nat → Site → List Site
    | 0, _ => []
    | n + 1, p =>
      match (p.toward b).bind p.next with
      | none => []
      | some q => q :: go n q

/-! ## Quarters (R29, R43) -/

/-- Granules of a quarter, and those of its DIRECT region. -/
def quarterGranules : Nat := 3906250
def quarterRows : Nat := 3906240

/-- The port of a stack's Firn die that leads to the owner of its quarter `q`: N, E, S, W for 0, 1, 2, 3. -/
def quarterPort (q : Nat) : Stitch := Stitch.all.getD q .n

/-- THE OWNER of quarter `q` of a stack: the Serac die at that port, if there is one. -/
def quarterOwner (stack q : Nat) : Option Nat :=
  match (firnSite stack).neighbour (quarterPort q) with
  | some (.serac d) => some d
  | _ => none

/-- The quarters a Serac die owns: stack and quarter. -/
def quartersOf (die : Nat) : List (Nat × Nat) :=
  (List.range Config.hbmStacks).flatMap fun k => (List.range 4).filterMap fun q => if quarterOwner k q == some die then some (k, q) else none

/-- Gigabytes of device memory of a die in mode DIES: 16 for each neighbouring Firn die. -/
def dieMemory (die : Nat) : Nat := 16 * (quartersOf die).length

end Sys2Proof.Machine
end

