-- ==== Sys2Proof/Machine/Cache.lean ====
section
/-! DEFINITION. Homes, the L1 caches and the die coherence unit (chapters 2 and 4). -/

namespace Sys2Proof.Machine

/-! ## Regions and homes (R37 to R43) -/

/-- TYPE, STACK, NSTK, ROWS and BASE of a region descriptor (Tables 2.3, 2.4). -/
def Region.type (r : Region) : Nat := bitsOf r.w0.toNat 1 0
def Region.stack (r : Region) : Nat := bitsOf r.w0.toNat 8 2
def Region.nstk (r : Region) : Nat := bitsOf r.w0.toNat 15 9
def Region.rows (r : Region) : Nat := bitsOf r.w0.toNat 39 16
def Region.base (r : Region) : Nat := bitsOf r.w1.toNat 23 0

/-- Stacks of a HASH region, rising. -/
def Region.stackSet (r : Region) : List Nat :=
  (List.range Config.hbmStacks).filter fun k => if k < 64 then r.w2.getLsbD k else r.w3.getLsbD (k - 64)

/-- Bytes of a region (R40); a region of type NONE or 3 has none. -/
def Region.size (r : Region) : Nat := if r.type == 1 || r.type == 2 then r.nstk * r.rows * 4096 else 0

/-- The stack and stack byte of an offset in a region (R41). -/
def Region.home (r : Region) (o : Nat) : Nat × Nat :=
  let g := o / 4096
  if r.type == 2 then (r.stack, (r.base + g) * 4096 + o % 4096)
  else
    let row := g / r.nstk
    let c := g % r.nstk
    let fold := bitsOf row 7 0 ^^^ bitsOf row 15 8 ^^^ bitsOf row 23 16
    (r.stackSet.getD ((c + fold) % r.nstk) 0, (r.base + row) * 4096 + o % 4096)

/-- The region number and offset of a device physical address (R37). -/
def dpaRegion (dpa : Nat) : Nat := bitsOf dpa 51 44
def dpaOffset (dpa : Nat) : Nat := bitsOf dpa 43 0

/-- The stack and stack byte of a device physical address. -/
def State.homeOf (s : State) (dpa : Nat) : Nat × Nat :=
  (s.dev.regions.getD (dpaRegion dpa) {}).home (dpaOffset dpa)

/-- The key of a device byte in the memory of the stacks. -/
def State.hbmKey (s : State) (dpa : Nat) : Nat := let (st, b) := s.homeOf dpa; st * Config.stackBytes + b

/-- The frame of a device physical address (R75). -/
def frameOf (dpa : Nat) : Nat := dpa / 65536

/-- Stacks that hold a granule of a frame (R41). -/
def State.frameStacks (s : State) (frame : Nat) : List Nat :=
  ((List.range 16).map fun g => (s.homeOf (frame * 65536 + g * 4096)).1).eraseDups

def State.scrubOf (s : State) (frame : Nat) : Option Scrub := s.scrubs.find? fun x => x.frame == frame
def State.zeroing (s : State) (frame : Nat) : Bool := (s.scrubOf frame).any fun x => x.st == .zeroing

/-- Count an access to a frame being zeroed (Table 3.4). -/
def State.countScrub (s : State) (frame : Nat) : State :=
  { s with scrubs := mapIf (fun x => x.frame == frame) (fun x => { x with counted := x.counted + 1 }) s.scrubs }

/-! ## Bytes at their homes -/

/-- The place of byte `i` of a sector. -/
def SKey.place (k : SKey) (i : Nat) : Place :=
  match k.vf with
  | none => .dev (k.sec * 64 + i)
  | some vf => .host vf (k.sec * 64 + i) true

/-- The sector of a GL place. -/
def Place.sector : Place → SKey
  | .dev d => ⟨none, d / 64⟩
  | .host vf a _ => ⟨some vf, a / 64⟩
  | _ => ⟨none, 0⟩

/-- The byte of a sector a GL place starts at. -/
def Place.sectorByte : Place → Nat
  | .dev d => d % 64
  | .host _ a _ => a % 64
  | _ => 0

/-- The next byte of a place. -/
def Place.add : Place → Nat → Place
  | .dev d, n => .dev (d + n)
  | .host vf a o, n => .host vf (a + n) o
  | .sp c o, n => .sp c (o + n)
  | .acc c o, n => .acc c (o + n)
  | .mbox c sl r l, n => .mbox c sl r (l + n / 4)

/-- One byte at a place's point of coherence; a mailbox register has no readable byte. -/
def State.peek (s : State) : Place → BitVec 8
  | .dev d => if s.zeroing (frameOf d) then 0 else Mem.get s.mem.hbm (s.hbmKey d)
  | .host vf a _ => Mem.get s.mem.host (hostKey vf a)
  | .sp c o => Mem.get s.mem.spad (c * Config.spadBytes + o)
  | .acc c o => Mem.get s.mem.acc (c * 65536 + o)
  | .mbox _ _ _ _ => 0

/-- `n` bytes at a place's point of coherence. -/
def State.peekN (s : State) (p : Place) (n : Nat) : List (BitVec 8) := (List.range n).map fun i => s.peek (p.add i)

/-- Write one byte at a place's point of coherence; a store to a frame being zeroed is dropped (Table 3.4). -/
def State.poke (s : State) (p : Place) (b : BitVec 8) : State :=
  match p with
  | .dev d => if s.zeroing (frameOf d) then s else { s with mem := { s.mem with hbm := Mem.set s.mem.hbm (s.hbmKey d) b } }
  | .host vf a _ => { s with mem := { s.mem with host := Mem.set s.mem.host (hostKey vf a) b } }
  | .sp c o => { s with mem := { s.mem with spad := Mem.set s.mem.spad (c * Config.spadBytes + o) b } }
  | .acc c o => { s with mem := { s.mem with acc := Mem.set s.mem.acc (c * 65536 + o) b } }
  | .mbox _ _ _ _ => s

/-- Write bytes at a place's point of coherence. -/
def State.pokeN (s : State) (p : Place) : List (BitVec 8) → State
  | [] => s
  | b :: t => (s.poke p b).pokeN (p.add 1) t

/-- The sectors that `n` bytes from a GL place lie in. -/
def Place.sectors (p : Place) (n : Nat) : List SKey := ((List.range n).map fun i => (p.add i).sector).eraseDups

/-- Write the bytes of a sector that a mask selects. -/
def State.pokeSector (s : State) (k : SKey) (mask : BitVec 64) (data : List (BitVec 8)) : State :=
  (List.range 64).foldl (fun s i => if mask.getLsbD i then s.poke (k.place i) (data.getD i 0) else s) s

/-! ## Reservations (R150 to R152) -/

/-- The 64-byte sector of a scratchpad or device place, and where its monitor stands. -/
def Place.monSector : Place → Nat
  | .dev d => d / 64
  | .sp _ o => o / 64
  | _ => 0

/-- Change the monitor of the port of a place. -/
def State.modMonitor (s : State) (p : Place) (f : List Reserve → List Reserve) : State :=
  match p with
  | .dev d => s.modFirn (s.homeOf d).1 fun x => { x with monitor := f x.monitor }
  | .sp c _ => s.modCore c fun k => { k with monitor := f k.monitor }
  | _ => s

/-- The monitor of the port of a place. -/
def State.monitor (s : State) : Place → List Reserve
  | .dev d => (s.firn (s.homeOf d).1).monitor
  | .sp c _ => (s.core c).monitor
  | _ => []

/-- A write at the port clears every reservation on its sector (R151). -/
def State.clearReserves (s : State) (p : Place) : State :=
  if (s.monitor p).any (fun r => r.sec == p.monSector) then
    s.modMonitor p fun l => l.filter fun r => r.sec != p.monSector
  else s

/-- Drop the reservations of a warp, everywhere (R151: split switch, pre-emption, discard, exit). -/
def State.dropReserves (s : State) (core slot : Nat) : State :=
  let keep (l : List Reserve) : List Reserve := l.filter fun r => !(r.core == core && r.slot == slot && r.ctl.isNone)
  let s := { s with firns := s.firns.map fun (p : Nat × Firn) => (p.1, { p.2 with monitor := keep p.2.monitor }) }
  { s with cores := s.cores.map fun (p : Nat × Core) => (p.1, { p.2 with monitor := keep p.2.monitor }) }

/-! ## Errors (R106, R107) -/

/-- The address a machine check names: a sector's, or a byte number in the unit. -/
def ErrSite.addr : ErrSite → Nat
  | .home k | .l1 _ k => k.sec * 64
  | .spad _ sec | .acc _ sec => sec * 64
  | .code _ line => line * 128
  | .wgt _ q => q * 16384
  | .regs _ _ | .pool _ => 0

/-- The root whose partition a unit belongs to: by the region of a device sector, by the core otherwise. -/
def State.errOwner (s : State) (e : ErrSite) : Option Ctx :=
  match e with
  | .home ⟨none, sec⟩ => s.ctxs.find? fun c => c.parent.isNone && c.regions.contains (dpaRegion (sec * 64))
  | .home ⟨some vf, _⟩ => s.ctxs.find? fun c => c.parent.isNone && c.vf == vf
  | .l1 core _ | .spad core _ | .acc core _ | .regs core _ | .wgt core _ | .code core _ | .pool core => s.ctxs.find? fun c => c.parent.isNone && c.cores.contains core

/-- MACHINE CHECK: a DEVICE_ERROR record to the root owner of the partition, with its MSI-X vector. `x` is the context of the
requester that met the error. -/
def State.reportError (s : State) (x : Nat) (r : Requester) (e : ErrSite) : State :=
  (s.deliver x r false { code := .deviceError, recv := .host, oaddr := BitVec.ofNat 64 e.addr } 0 0).msix (s.vfOf x) 3

/-- A unit is read, written back or scrubbed. A correctable error is corrected and counted. An uncorrectable one is reported,
and kills the context whose requester consumes it; met by none, it is reported to the root owner alone. -/
def State.sense (s : State) (by_ : Option (Nat × Requester)) (e : ErrSite) : State :=
  let s := if s.dev.soft.contains e then { s with dev := { s.dev with corrected := s.dev.corrected + 1, soft := s.dev.soft.filter (· != e) } } else s
  if s.dev.hard.contains e then
    match by_, s.errOwner e with
    | some (x, r), _ => (s.reportError x r e).startKill x none 0
    | none, some root => s.reportError root.idx (.write 0) e
    | none, none => s
  else s

/-- The units that an access of `n` bytes at a place reads. -/
def Place.errSites (p : Place) (n : Nat) : List ErrSite :=
  let secs (o : Nat) : List Nat := ((List.range n).map fun i => (o + i) / 64).eraseDups
  match p with
  | .dev _ => (p.sectors n).map .home
  | .host _ _ _ | .mbox _ _ _ _ => []
  | .sp c o => (secs o).map (.spad c)
  | .acc c o => (secs o).map (.acc c)

/-- The errors in a core's accumulators or registers that satisfy a test are met by a requester that reads there. -/
def State.senseWhere (s : State) (by_ : Option (Nat × Requester)) (p : ErrSite → Bool) : State :=
  ((s.dev.soft ++ s.dev.hard).filter p).eraseDups.foldl (fun s e => s.sense by_ e) s

/-- A site is one of the accumulators' bytes from `a` on. -/
def ErrSite.inAcc (core a n : Nat) : ErrSite → Bool
  | .acc c sec => c == core && a < sec * 64 + 64 && sec * 64 < a + n
  | _ => false

/-! ## The Firn cache (R97) -/

/-- Sets of a Firn cache: 16 MiB of 64-byte lines, 16 ways. -/
def firnSets : Nat := 16384

/-- The line that leaves a Firn cache when another enters: a freely chosen one of a full set (log 21). -/
def Firn.victim (x : Firn) (line choice : Nat) : Option (Nat × Bool) :=
  let set := x.lines.filter fun q => q.1 % firnSets == line % firnSets
  if x.lines.any (fun q => q.1 == line) || set.length < 16 then none else set[choice % set.length]?

/-- A line of a stack enters the cache of its Firn die, or is there already; a dirty access marks it. The victim of a full set is
written back to its stack. -/
def Firn.touch (x : Firn) (line : Nat) (dirty : Bool) (choice : Nat) : Firn :=
  match tabFind line x.lines with
  | some d => { x with lines := (line, d || dirty) :: tabDel line x.lines }
  | none => { x with lines := (line, dirty) :: match x.victim line choice with | some v => tabDel v.1 x.lines | none => x.lines }

/-- A unit is the sector whose home is a line of a stack. -/
def State.isLine (s : State) (stack line : Nat) : ErrSite → Bool
  | .home ⟨none, sec⟩ => s.homeOf (sec * 64) == (stack, line * 64)
  | _ => false

/-- An access passes through the cache of a device sector's home. A dirty victim is written back, and an error in it is met by no
requester (R107). -/
def State.throughFirn (s : State) (k : SKey) (dirty : Bool) : State :=
  match k.vf with
  | some _ => s
  | none =>
    let (st, b) := s.homeOf (k.sec * 64)
    let out := (s.firn st).victim (b / 64) (Config.freeChoice s.free)
    let s := (s.modFirn st fun x => x.touch (b / 64) dirty (Config.freeChoice s.free)).nextFree
    match out with
    | some (line, true) => s.senseWhere none (s.isLine st line)
    | _ => s

/-! ## Reads at a home or a port -/

/-- READ `n` bytes at a place's point of coherence, for a requester of a context: a frame being zeroed counts it (Table 3.4),
the Firn cache serves it, and an error in what is read is met. -/
def State.homeRead (s : State) (by_ : Option (Nat × Requester)) (p : Place) (n : Nat) : State × List (BitVec 8) :=
  let s := match p with
    | .dev d =>
      if s.zeroing (frameOf d) then s.countScrub (frameOf d)
      else (p.sectors n).foldl (fun s k => s.throughFirn k false) s
    | _ => s
  ((p.errSites n).foldl (fun s e => s.sense by_ e) s, s.peekN p n)

/-! ## L1 sectors -/

def Core.l1? (k : Core) (key : SKey) : Option L1Sector := k.l1.find? fun x => x.key == key
def Core.l1Put (k : Core) (x : L1Sector) : Core := { k with l1 := x :: k.l1.filter fun y => y.key != x.key }

/-- The 64 KiB page of a sector (R92). -/
def SKey.page (k : SKey) : SKey := ⟨k.vf, k.sec / 1024⟩

def keyGet {α : Type} (k : SKey) (l : List (SKey × α)) : Option α := (l.find? fun p => p.1 == k).map (·.2)
def keyPut {α : Type} (k : SKey) (v : α) (l : List (SKey × α)) : List (SKey × α) := (k, v) :: l.filter fun p => p.1 != k
def keyDel {α : Type} (k : SKey) (l : List (SKey × α)) : List (SKey × α) := l.filter fun p => p.1 != k

/-- Cores of a die. -/
def dieCores (d : Nat) : List Nat := (List.range 10).map fun n => d * 10 + n

/-- A holder drops a sector: the directory entry and the page entry are freed with their last holder (Tables 4.2, 4.3). -/
def State.dirDrop (s : State) (core : Nat) (key : SKey) : State :=
  let d := dieOf core
  s.modDie d fun x =>
    let dir := match keyGet key x.dir with
      | some (.s hs) => let hs := hs.filter (· != core); if hs.isEmpty then keyDel key x.dir else keyPut key (.s hs) x.dir
      | some (.m c) => if c == core then keyDel key x.dir else x.dir
      | none => x.dir
    let pg := key.page
    let owners := match keyGet pg x.owners with
      | some (.priv c) => if c == core && !((s.core core).l1.any fun y => y.key.page == pg && y.key != key) then keyDel pg x.owners else x.owners
      | some .shared => if dir.any (fun p => p.1.page == pg) then x.owners else keyDel pg x.owners
      | none => x.owners
    { x with dir, owners }

/-- Sectors that fills have read and that are on their way to L1s are of no use any more: their loads ask again. -/
def State.dropFilled (s : State) (p : Nat → SKey → Bool) : State :=
  { s with reqs := s.reqs.filter fun r => match r.kind with | .filled k _ _ => !p r.core k | _ => true }

/-- Remove a sector from a core's L1, or from its way there. -/
def State.l1Drop (s : State) (core : Nat) (key : SKey) : State :=
  ((s.dropFilled fun c k => c == core && k == key).dirDrop core key).modCore core fun k => { k with l1 := k.l1.filter fun y => y.key != key }

/-- A store of a core of a die to a sector still waits for its directory grant. -/
def State.ungranted (s : State) (d : Nat) (key : SKey) : Bool :=
  (dieCores d).any fun c => ((s.core c).l1? key).any fun x => !x.granted

/-! ## Writes at a home (R91, R101, R151) -/

/-- A 4 KiB page of host memory in the handover table (R100): in a device-owned region, in one IN_TRANSIT, or in none. -/
inductive HandSt where
  | hostOwned | devOwned | transit
  deriving DecidableEq, Repr

def Vf.handSt (v : Vf) (page : Nat) : HandSt :=
  match v.hand.find? fun h => h.page ≤ page && page < h.page + h.npages with
  | none => .hostOwned
  | some h => if h.transit then .transit else .devOwned

/-- A core has posted writes to a function's host memory: they are performed when a flushing read completes (R101). -/
def Core.post (k : Core) (vf : Nat) : Core := { k with posted := if k.posted.contains vf then k.posted else vf :: k.posted }

/-- A core sends the flushing read for a function's posted writes, when none is out (R101). -/
def Core.askFlush (k : Core) (vf : Nat) : Core :=
  if k.posted.contains vf && !k.flushing.contains vf then { k with posted := k.posted.filter (· != vf), flushing := vf :: k.flushing } else k

/-- Posted writes of a core to a function's host memory are not known performed. -/
def Core.unflushed (k : Core) (vf : Nat) : Bool := k.posted.contains vf || k.flushing.contains vf

/-- A core's write of host memory has been posted; a write to a region IN_TRANSIT is followed by its flushing read (R103). -/
def State.posted (s : State) (core vf addr : Nat) : State :=
  s.modCore core fun k => if (s.vf vf).handSt (addr / 4096) == .transit then (k.post vf).askFlush vf else k.post vf

/-- The home performs a write of bytes of a sector that came from a core: reservations on the sector end, a frame being zeroed
drops and counts it, and a write to host memory is posted. -/
def State.land (s : State) (core : Nat) (key : SKey) (mask : BitVec 64) (data : List (BitVec 8)) : State :=
  match key.vf with
  | some vf => (s.pokeSector key mask data).posted core vf (key.sec * 64)
  | none =>
    if s.zeroing (frameOf (key.sec * 64)) then s.countScrub (frameOf (key.sec * 64))
    else ((s.throughFirn key true).clearReserves (.dev (key.sec * 64))).pokeSector key mask data

/-- A write-back on its way, or the dirty bytes of an L1: the core it comes from, the byte mask and the sector's data. -/
abbrev WriteBack := Nat × BitVec 64 × List (BitVec 8)

/-- A request is a write-back of a sector by a core of a die. -/
def Req.isBack (r : Req) (d : Nat) (key : SKey) : Bool :=
  dieOf r.core == d && (match r.kind with | .write k _ _ none => k == key | _ => false)

/-- The write-backs of a die on their way to a sector's home. -/
def State.queuedBacks (s : State) (d : Nat) (key : SKey) : List WriteBack :=
  (s.reqs.filter fun r => r.isBack d key).filterMap fun r => match r.kind with | .write _ m data _ => some (r.core, m, data) | _ => none

def State.dropQueued (s : State) (d : Nat) (key : SKey) : State := { s with reqs := s.reqs.filter fun r => !r.isBack d key }

/-- What a die holds of a sector that its home does not: write-backs on their way, then dirty bytes, those of stores that wait
for their grant last. -/
def State.dirtyOf (s : State) (d : Nat) (key : SKey) : List WriteBack :=
  let held (g : Bool) : List WriteBack := (dieCores d).filterMap fun c =>
    match (s.core c).l1? key with
    | some x => if x.st == .m && x.granted == g then some (c, x.dirty, x.data) else none
    | none => none
  s.queuedBacks d key ++ held true ++ held false

/-- A die drops every copy of a sector, its write-backs on their way too. Errors of copies with dirty bytes are met (R107). -/
def State.dieDrop (s : State) (d : Nat) (key : SKey) : State :=
  (dieCores d).foldl (fun s c =>
    match (s.core c).l1? key with
    | none => s
    | some x => ((if x.st == .m then s.sense none (.l1 c key) else s)).l1Drop c key)
    ((s.dropQueued d key).dropFilled fun c k => dieOf c == d && k == key)

/-- The dies marked in the presence filter for a sector (R90). -/
def State.presence (s : State) (key : SKey) : List Nat :=
  match key.vf with
  | some _ => []
  | none => tabGet [] key.sec (s.firn (s.homeOf (key.sec * 64)).1).presence

/-- Set the presence bits of a sector. -/
def State.setPresence (s : State) (key : SKey) (marks : List Nat) : State :=
  s.modFirn (s.homeOf (key.sec * 64)).1 fun x =>
    { x with presence := if marks.isEmpty then tabDel key.sec x.presence else tabPut key.sec marks x.presence }

/-- INVALIDATION of the marked dies other than the writer's (R91): each writes back its dirty bytes and drops the sector, and its
bit is cleared. Bytes that another die wrote back make the writer's own marked copy stale, and it goes the same way. -/
def State.invalidateOthers (s : State) (writer : Option Nat) (key : SKey) : State :=
  let marks := s.presence key
  if marks.isEmpty then s
  else
    let others := marks.filter fun d => some d != writer
    let backs := others.flatMap fun d => s.dirtyOf d key
    let own := if backs.isEmpty then [] else marks.filter fun d => some d == writer
    let backs := backs ++ own.flatMap fun d => s.dirtyOf d key
    let s := (others ++ own).foldl (fun s d => s.dieDrop d key) s
    let s := s.setPresence key (marks.filter fun d => !(others ++ own).contains d)
    backs.foldl (fun s q => s.land q.1 key q.2.1 q.2.2) s

/-- WRITE a sector's bytes at its home for a core of a die: other marked dies are invalidated first. -/
def State.homeWrite (s : State) (core : Nat) (key : SKey) (mask : BitVec 64) (data : List (BitVec 8)) : State :=
  (s.invalidateOthers (some (dieOf core)) key).land core key mask data

/-- Write-backs are performed at the home, in order. -/
def State.performBacks (s : State) (key : SKey) (l : List WriteBack) : State := l.foldl (fun s q => s.homeWrite q.1 key q.2.1 q.2.2) s

/-- WRITE some bytes at a place's point of coherence, sector by sector (engine writes, atomics, words of the hardware, host
writes). -/
def State.homePoke (s : State) (writer : Option Nat) (p : Place) (bs : List (BitVec 8)) : State :=
  match p with
  | .dev d =>
    let s := (p.sectors bs.length).foldl (fun s k => s.invalidateOthers writer k) s
    if s.zeroing (frameOf d) then s.countScrub (frameOf d)
    else ((p.sectors bs.length).foldl (fun s k => (s.throughFirn k true).clearReserves (.dev (k.sec * 64))) s).pokeN p bs
  | .host _ _ _ => s.pokeN p bs
  | _ => (s.clearReserves p).pokeN p bs

/-! ## What a die does before others act on a sector (R86 to R88, R92 to R94) -/

/-- Write-backs of a die on their way to a sector are performed: they left before what follows. -/
def State.performQueued (s : State) (d : Nat) (key : SKey) : State := (s.dropQueued d key).performBacks key (s.queuedBacks d key)

/-- WRITE BACK AND INVALIDATE every copy of a sector on a die, committed stores that wait for their grant included: before an
atomic, RED, .ord access, STCOND or LDRES leaves (R87, R114), before an engine writes (R88), when a home invalidates the die
(R91). -/
def State.dieFlush (s : State) (d : Nat) (key : SKey) : State := (s.dieDrop d key).performBacks key (s.dirtyOf d key)

/-- One core writes back the dirty bytes of a sector for its die's coherence unit; with `drop` the copy is invalidated, and a
sector with PART goes to I (R86). A store still waiting for its grant keeps its bytes and waits on, its sector PART. -/
def State.flushSector (s : State) (core : Nat) (key : SKey) (drop : Bool) : State :=
  match (s.core core).l1? key with
  | none => if drop then s.dropFilled fun c k => c == core && k == key else s
  | some x =>
    let s := s.performQueued (dieOf core) key
    if !x.granted then
      if drop then s.modCore core fun k => k.l1Put { x with part := true, priv := false } else s
    else
      let dirty := x.st == .m
      let s := if dirty then s.sense none (.l1 core key) else s
      let s := if drop || (dirty && x.part) then s.l1Drop core key else s.modCore core fun k => k.l1Put { x with st := .s, dirty := 0 }
      if dirty then s.homeWrite core key x.dirty x.data else s

/-- Some cores of a die write back and drop a sector; where a store waits for its grant, the whole die does. -/
def State.coresFlush (s : State) (d : Nat) (cores : List Nat) (key : SKey) : State :=
  if s.ungranted d key then s.dieFlush d key
  else cores.foldl (fun s c => s.flushSector c key true) (s.performQueued d key)

/-- Before an engine reads a sector: the die writes back every dirty byte, and its copies stay in S (R88, Table 4.3). -/
def State.dieClean (s : State) (d : Nat) (key : SKey) : State :=
  if s.ungranted d key then s.dieFlush d key
  else
    let s := (dieCores d).foldl (fun s c => s.flushSector c key false) (s.performQueued d key)
    s.modDie d fun x => { x with dir := x.dir.map fun q => match q.2 with | .m c => if q.1 == key then (q.1, .s [c]) else q | _ => q }

/-! ## Requests in flight and their routes (R18, R19, R109) -/

/-- The site a request to another die is on its way to: the home of a device sector, the core of a window or mailbox access, or, on
the way back, the core that asked. None for a host access, which leaves the panel by a host port. -/
def State.destination (s : State) (k : ReqKind) : Option Site :=
  let home (p : Place) : Option Site := match p with
    | .dev d => some (firnSite (s.homeOf d).1)
    | .sp c _ | .acc c _ | .mbox c _ _ _ => some (seracSite (dieOf c))
    | .host _ _ _ => none
  match k with
  | .fill key _ | .write key _ _ _ => home (key.place 0)
  | .read _ _ _ p _ _ | .atomic _ _ _ p _ _ _ _ _ | .wload _ _ _ p _ _ | .wstore _ _ _ p _ | .mail p _ _ _ => home p
  | .reply w _ _ _ | .data w _ _ _ => some (seracSite (dieOf w.core))
  | .filled _ _ _ => none

/-- The site a request in flight is on its way to. -/
def State.goal (s : State) (r : Req) : Option Site :=
  match r.kind with
  | .filled _ _ _ => some (seracSite (dieOf r.core))
  | k => s.destination k

/-- The Moraine die whose host port a request to the host leaves by: that of its function (Tables 0.1, 21.1). -/
def State.exitDie (s : State) (r : Req) : Nat :=
  let vf := match r.kind with
    | .fill k _ | .write k _ _ _ => k.vf.getD 0
    | .read _ _ _ (.host vf _ _) _ _ | .atomic _ _ _ (.host vf _ _) _ _ _ _ _ => vf
    | _ => 0
  portDie (s.vf vf).port

/-- Put a request in flight: it sets out from its core's die. -/
def State.send (s : State) (core ctx : Nat) (kind : ReqKind) (ord : Option Nat := none) : State :=
  { s with reqs := s.reqs ++ [{ id := s.nextReq, core, ctx, kind, ord, here := some (seracSite (dieOf core)) }], nextReq := s.nextReq + 1 }

def State.req? (s : State) (id : Nat) : Option Req := s.reqs.find? fun r => r.id == id
def State.dropReq (s : State) (id : Nat) : State := { s with reqs := s.reqs.filter fun r => r.id != id }

/-- The output port a request waits at, at the die where it stands; none when it has arrived. One for the host goes up its column to
the column's top Moraine die, and from there along the edge chain: R18 gives routes between sites alone (DESIGN CHOICE, log 57). -/
def State.outPort (s : State) (r : Req) : Option Stitch :=
  match r.here, s.goal r with
  | some a, some b => a.toward b
  | some _, none => some .n
  | none, _ => none

/-- A request has arrived where it is performed: at its site, or at its host port; one without a place is there. -/
def State.arrived (s : State) (r : Req) : Bool :=
  (s.outPort r).isNone && (match r.edge, s.goal r with
    | none, _ => true
    | some _, some _ => false
    | some m, none => m == s.exitDie r)

/-- A request that leaves a die by a port: it enters the neighbouring site, or the column's Moraine die. -/
def Site.hop (a : Site) (p : Stitch) (r : Req) : Req :=
  match a.next p with
  | some b => { r with here := some b, inp := some p.back }
  | none => { r with here := none, inp := none, edge := some (if p == .s then 2 * a.col + 1 else 2 * a.col) }

/-- A request on the edge chain moves to the next Moraine die on its way (R17); at the column of its site it enters the panel. -/
def State.chain (s : State) (m : Nat) (r : Req) : Req :=
  match s.goal r with
  | some b => if m / 2 == b.col then { r with edge := none, here := some ⟨if m % 2 = 0 then 0 else 7, b.col⟩, inp := some (if m % 2 = 0 then .n else .s) }
    else { r with edge := some (edgeStep m (2 * b.col + m % 2)) }
  | none => { r with edge := some (edgeStep m (s.exitDie r)) }

/-- The inputs of an output port in the order its arbiter tries them: round-robin, after the one it served last. R18 has the turn go
between packets passing through and packets the die injects: that the packets passing through take it by the port they came in by,
N, E, S, W after the injected ones, and that the lowest request of one input goes first, is the model's (DESIGN CHOICE, log 58). -/
def arbiterOrder (last : Option Stitch) : List (Option Stitch) :=
  let all := none :: Stitch.all.map some
  let n := (all.findIdx? fun i => i == last).getD 0
  (List.range 5).map fun i => all.getD ((n + 1 + i) % 5) none

/-- ONE STITCH CROSSING (R18): the output port at which a request waits lets the next packet through, in round-robin order among
the packets that pass and those the die injects, and it enters the neighbouring die. A port that has served none yet acts as if it
had served an injected packet last, so that N is tried first: the spec gives no starting point (DESIGN CHOICE, log 58). A request on the
edge chain crosses one of its links. -/
def State.travel (s : State) (r : Req) : State :=
  match r.here, s.outPort r with
  | some a, some p =>
    let last := ((s.routers.find? fun q => q.1 == (a, p)).map (·.2)).getD none
    let waiting := s.reqs.filter fun q => q.here == some a && s.outPort q == some p
    match (arbiterOrder last).findSome? fun i => waiting.find? fun q => q.inp == i with
    | none => s
    | some q =>
      { s with reqs := mapIf (fun y => y.id == q.id) (a.hop p) s.reqs
               routers := ((a, p), q.inp) :: s.routers.filter fun y => y.1 != (a, p) }
  | _, _ => match r.edge with
    | some m => { s with reqs := mapIf (fun y => y.id == r.id) (s.chain m) s.reqs }
    | none => s

/-- What a request brings back sets out from where it was performed (R18). -/
def State.turnBack (s : State) (id : Nat) (kind : ReqKind) : State :=
  { s with reqs := mapIf (fun q => q.id == id) (fun q => { q with kind, inp := none }) s.reqs }

/-- The sector a fill asks for or brings back, and whether its page is PRIVATE. -/
def ReqKind.filling : ReqKind → Option (SKey × Bool)
  | .fill k p | .filled k p _ => some (k, p)
  | _ => none

/-- Writes of a core that have not been performed at their homes. -/
def State.writesInFlight (s : State) (core : Nat) (host : Bool) : Bool :=
  s.reqs.any fun r => r.core == core && (match r.kind with
    | .write k _ _ _ => host || k.vf.isNone
    | .atomic _ _ _ (.dev _) _ _ _ _ false => true
    | .atomic _ _ _ (.host _ _ _) _ _ _ _ false => host
    | _ => false)

/-- Stores and REDs of a core to GL that go to the home or the host have not been performed there (R119, Table 5.3). -/
def State.homeStoresInFlight (s : State) (core : Nat) : Bool :=
  s.reqs.any fun r => r.core == core && (match r.kind with
    | .write _ _ _ (some _) => true
    | .atomic _ _ _ (.dev _) _ _ _ _ false | .atomic _ _ _ (.host _ _ _) _ _ _ _ false => true
    | _ => false)

/-- WN stores and mailbox stores of a core that their ports have not acknowledged or accepted (Table 5.3). -/
def State.windowStoresInFlight (s : State) (core : Nat) : Bool :=
  s.reqs.any fun r => r.core == core && (match r.kind with
    | .wstore _ _ _ _ _ | .mail _ _ _ _ | .atomic _ _ _ (.sp _ _) _ _ _ _ false => true
    | _ => false)

/-- The sector a request acts on at a home. -/
def ReqKind.sector : ReqKind → Option SKey
  | .fill k _ => some k
  | .read _ _ _ p _ _ => some p.sector
  | .write k _ _ _ => some k
  | .atomic _ _ _ p _ _ _ _ _ => match p with | .dev _ | .host _ _ _ => some p.sector | _ => none
  | _ => none

/-- A RED, an .ord store, a write-through or an uncached store of the core to a sector has left and is not performed: a
later store or L1 load of the core to that sector waits (R110, R114, R115). -/
def State.sectorBusy (s : State) (core : Nat) (key : SKey) : Bool :=
  s.reqs.any fun r => r.core == core && r.kind.sector == some key && (match r.kind with
    | .atomic _ _ _ _ _ _ _ _ _ | .write _ _ _ (some _) => true
    | _ => false)

/-- Reads and value-returning atomics of a core at homes have left and are not performed: a block of the core that stores begins to
do so after them (R116). -/
def State.homeReadsInFlight (s : State) (core : Nat) : Bool :=
  s.reqs.any fun r => r.core == core && (match r.kind with
    | .read _ _ _ _ _ _ | .atomic _ _ _ (.dev _) _ _ _ _ true | .atomic _ _ _ (.host _ _ _) _ _ _ _ true => true
    | _ => false)

/-- The thread whose access a request carries; a fill or a write-back is the L1's. -/
def ReqKind.thread : ReqKind → Option Who
  | .read w _ _ _ _ _ | .atomic w _ _ _ _ _ _ _ _ | .wload w _ _ _ _ _ | .wstore w _ _ _ _ | .reply w _ _ _ | .data w _ _ _ | .mail _ _ w _ => some w
  | .write _ _ _ (some q) => some q.1
  | _ => none

/-- A request is a write that the L1 of its core made, or an access of the core performed at the home that may write. -/
def ReqKind.writes : ReqKind → Bool
  | .write _ _ _ _ | .atomic _ _ _ _ _ _ _ _ _ => true
  | _ => false

/-- A REQUEST MUST BE PERFORMED BEFORE another that left later for the same sector: a write-back of the die (its later requests read
or write what it leaves, Table 4.3); an access of the same thread (R114); an .ord access of the same core before its
later .ord accesses (R99); an access of the core that writes, before a fill that may serve its thread (R114). Requests are
otherwise performed in any order (R19). -/
def Req.before (q r : Req) : Bool :=
  (match q.kind with | .write _ _ _ none => dieOf q.core == dieOf r.core | _ => false) ||
  (q.core == r.core &&
    ((q.ord.isSome && r.ord.isSome) ||
     (match q.kind.thread, r.kind.thread with
      | some a, some b => a.same b
      | _, none => q.kind.writes
      | none, some _ => false)))

/-- An atomic is in progress at its home: it has asked the marked dies and awaits them (R91). -/
def Req.atomicInProgress (q : Req) : Bool := q.asked && (match q.kind with | .atomic _ _ _ _ _ _ _ _ _ => true | _ => false)

/-- A request waits at its home for an earlier one, or for an atomic that the home has in progress on the sector (R139; the comparator
holds the whole sector, DESIGN CHOICE, log 56). -/
def State.blocked (s : State) (r : Req) : Bool :=
  match r.kind.sector with
  | none => false
  | some k => s.reqs.any fun q => q.kind.sector == some k && ((q.id < r.id && q.before r) || (q.id != r.id && q.atomicInProgress && !r.asked))

/-! ## Stores and loads at the L1 (R84 to R86, R93) -/

/-- The L1 set of a line (Table 4.1): bits [13:8] of its device physical address. For a sector of host memory, which has none, the
spec names no bits: those of its host address are taken (DESIGN CHOICE, log 44). -/
def l1Set (key : SKey) : Nat := key.sec / 4 % 64

/-- The line of a sector. -/
def SKey.line (k : SKey) : Option Nat × Nat := (k.vf, k.sec / 4)

/-- The sectors of a set of a core's L1. -/
def Core.l1InSet (k : Core) (set : Nat) : List L1Sector := k.l1.filter fun x => l1Set x.key == set

/-- The way in which a sector's line stands; for a line that is not there, the lowest free way of its set. -/
def Core.l1Way (k : Core) (key : SKey) : Nat :=
  let set := k.l1InSet (l1Set key)
  match set.find? fun x => x.key.line == key.line with
  | some x => x.way
  | none => ((List.range 8).find? fun w => !(set.any fun x => x.way == w)).getD 0

/-- Pseudo-LRU: a tree of seven bits over the eight ways. Bit 0 chooses a half, bits 1 and 2 a quarter, bits 3 to 6 a way; a use of
a way points every bit on its path away from it (R84, log 21). -/
def plruUse (b : BitVec 7) (way : Nat) : BitVec 7 :=
  let put (b : BitVec 7) (n : Nat) (v : Bool) : BitVec 7 := if v then b ||| 1#7 <<< n else b &&& ~~~(1#7 <<< n)
  put (put (put b 0 (way < 4)) (1 + way / 4) (way % 4 < 2)) (3 + way / 2) (way % 2 == 0)

/-- The way that a set's bits point to. -/
def plruVictim (b : BitVec 7) : Nat :=
  let h := (b.getLsbD 0).toNat
  let q := 2 * h + (b.getLsbD (1 + h)).toNat
  2 * q + (b.getLsbD (3 + q)).toNat

/-- An access uses a sector's line. -/
def Core.l1Use (k : Core) (key : SKey) : Core :=
  { k with plru := tabPut (l1Set key) (plruUse (tabGet 0 (l1Set key) k.plru) (k.l1Way key)) k.plru }

/-- Make room for a line in its set: the pseudo-LRU victim's M sectors are written back first, and its line leaves (R84). A victim
sector whose store awaits its grant is written back by the whole die. -/
def State.l1Room (s : State) (core : Nat) (key : SKey) : State :=
  let k := s.core core
  let set := k.l1InSet (l1Set key)
  let ways := (set.map (·.way)).eraseDups
  if set.any (fun x => x.key.line == key.line) || ways.length < 8 then s
  else
    let v := plruVictim (tabGet 0 (l1Set key) k.plru)
    (set.filter fun x => x.way == v).foldl (fun s x =>
      if !x.granted then s.dieFlush (dieOf core) x.key
      else
        let s := if x.st == .m then (s.sense none (.l1 core x.key)).send core 0 (.write x.key x.dirty x.data none) else s
        s.l1Drop core x.key) s

/-- Bytes of a store laid into a sector's mask and data. -/
def overlay (data : List (BitVec 8)) (at_ : Nat) (bs : List (BitVec 8)) : List (BitVec 8) :=
  (List.range 64).map fun i => if at_ ≤ i && i < at_ + bs.length then bs.getD (i - at_) 0 else data.getD i 0

def byteMask (at_ n : Nat) : BitVec 64 := BitVec.ofNat 64 ((2 ^ n - 1) * 2 ^ at_)

/-- A request to the die coherence unit, unless the same one waits already: behind those that arrived before it, the lower core
first within a cycle (R92). -/
def State.askDcu (s : State) (core ctx : Nat) (key : SKey) (kind : DcuKind) : State :=
  let r : DcuReq := { core, key, kind, ctx, cycle := s.time / Config.ticksPerCycle }
  let after (a b : DcuReq) : Bool := a.cycle < b.cycle || (a.cycle == b.cycle && a.core < b.core)
  s.modDie (dieOf core) fun x =>
    if x.dreqs.any fun q => q.core == core && q.key == key && q.kind == kind then x else { x with dreqs := insertBy after r x.dreqs }

/-- The sector's home is not near the core's die (R89). A host sector has no Firn home and is not foreign: the spec does not say what
its FH holds (DESIGN CHOICE, log 44). -/
def State.foreignTo (s : State) (core : Nat) (key : SKey) : Bool :=
  match key.vf with | none => !near (dieOf core) (s.homeOf (key.sec * 64)).1 | some _ => false

/-- A store enters the L1: a hit in M is written; an S sector with PRIV becomes M; other cases ask the directory (R86, R93). -/
def State.l1Store (s : State) (core ctx : Nat) (key : SKey) (at_ : Nat) (bs : List (BitVec 8)) : State :=
  match (s.core core).l1? key with
  | some x =>
    let s := s.modCore core fun k => k.l1Use key
    let y := { x with data := overlay x.data at_ bs, dirty := x.dirty ||| byteMask at_ bs.length }
    if x.st == .m then s.modCore core fun k => k.l1Put y
    else if x.priv then s.modCore core fun k => k.l1Put { y with st := .m }
    else (s.modCore core fun k => k.l1Put { y with st := .m, granted := false }).askDcu core ctx key .upgrade
  | none =>
    let s := s.l1Room core key
    let x : L1Sector := { key, st := .m, dirty := byteMask at_ bs.length, part := true, priv := false, foreign := s.foreignTo core key
                          granted := false, way := (s.core core).l1Way key, data := overlay [] at_ bs }
    (s.modCore core fun k => (k.l1Put x).l1Use key).askDcu core ctx key .store

/-- Bytes a load finds in the L1: in a PART sector only dirty bytes hold data (R86). -/
def Core.l1Read (k : Core) (key : SKey) (at_ n : Nat) : Option (List (BitVec 8)) :=
  match k.l1? key with
  | none => none
  | some x =>
    if x.part && !((List.range n).all fun i => x.dirty.getLsbD (at_ + i)) then none
    else some ((List.range n).map fun i => x.data.getD (at_ + i) 0)

/-- A fill arrives at an L1: the sector enters S, or the dirty bytes of a PART sector are merged over it (R86). -/
def State.l1Fill (s : State) (core : Nat) (key : SKey) (priv : Bool) (data : List (BitVec 8)) : State :=
  match (s.core core).l1? key with
  | some x =>
    if x.part then
      let merged := (List.range 64).map fun i => if x.dirty.getLsbD i then x.data.getD i 0 else data.getD i 0
      s.modCore core fun k => (k.l1Put { x with data := merged, part := false, priv := priv && x.granted, foreign := s.foreignTo core key }).l1Use key
    else s
  | none =>
    let s := s.l1Room core key
    s.modCore core fun k => (k.l1Put { key, st := .s, dirty := 0, part := false, priv, foreign := s.foreignTo core key, granted := true
                                       way := k.l1Way key, data }).l1Use key

/-! ## Releases and acquires at the L1 (Table 4.4, R95) -/

/-- What a release still waits for. -/
inductive RelSt where
  | done (s : State)
  | wait (s : State)

/-- A release's actions on GL: every scope waits for stores that go to their homes, .die also for grants; .dev also writes back the L1's device
sectors and waits; .sys also host sectors, host writes and the flushing read of R101. -/
def State.releaseGl (s : State) (core vf : Nat) (scope : Scope) : RelSt :=
  let k := s.core core
  match scope with
  | .warp | .team => if s.homeStoresInFlight core then .wait s else .done s
  | _ =>
    if k.l1.any (fun x => !x.granted) || s.homeStoresInFlight core then .wait s
    else
      match scope with
      | .dev | .sys =>
        let sel := k.l1.filter fun x => x.st == .m && (x.key.vf.isNone || scope == .sys)
        if !sel.isEmpty then
          .wait (sel.foldl (fun s x =>
            let s := (s.sense none (.l1 core x.key)).send core 0 (.write x.key x.dirty x.data none)
            if x.part then s.l1Drop core x.key else s.modCore core fun k => k.l1Put { x with st := .s, dirty := 0 }) s)
        else if s.writesInFlight core (scope == .sys) then .wait s
        else if scope == .sys && k.unflushed vf then .wait (s.modCore core fun k => k.askFlush vf)
        else .done s
      | _ => .done s

/-- A release over the spaces of a mask (bit 0 GL, 1 SP, 2 WN; Table 5.3). -/
def State.releaseActs (s : State) (core vf : Nat) (scope : Scope) (mask : BitVec 3) : RelSt :=
  let wn := if mask.getLsbD 2 && s.windowStoresInFlight core then RelSt.wait s else .done s
  match wn with
  | .wait s => .wait s
  | .done s => if mask.getLsbD 0 then s.releaseGl core vf scope else .done s

/-- An acquire's actions: at .dev and wider, sectors of device GL whose page is SHARED or whose home is foreign are
written back and dropped, those on their way to the L1 too; at .sys every host sector. -/
def State.acquireActs (s : State) (core : Nat) (scope : Scope) (mask : BitVec 3) : State :=
  if !mask.getLsbD 0 then s
  else
    match scope with
    | .dev | .sys =>
      let d := s.die (dieOf core)
      let sel (foreign : Bool) (k : SKey) : Bool :=
        match k.vf with
        | none => foreign || keyGet k.page d.owners == some .shared
        | some _ => scope == .sys
      ((s.core core).l1.filter fun x => sel x.foreign x.key).foldl (fun s x => s.flushSector core x.key true)
        (s.dropFilled fun c k => c == core && sel (s.foreignTo core k) k)
    | _ => s

end Sys2Proof.Machine
end

