-- ==== Sys2Proof/Machine/Walk.lean ====
section
/-! DEFINITION. Translation: the stage list, the composed walk, faults and their receivers, rights,
TLBs and the miss queues (chapter 3, R100). -/

namespace Sys2Proof.Machine

/-! ## Stages (R54 to R56, R68) -/

/-- One table of a stage list: the context whose GL addresses it takes, its owner and its owner's depth, whether it is a shadow, its
first-level table, and the grant that bounds its outputs: a window of the GL space of the level above without the pages it has lost, or none for the
region set of a root's function. -/
structure Tab where
  space  : Nat
  owner  : Nat
  depth  : Nat
  shadow : Bool
  troot  : Nat
  window : Option (Nat × Nat)
  lost   : List Nat
  deriving DecidableEq, Repr

/-- The table of a context's own stage. -/
def Ctx.tab (x : Ctx) : Tab :=
  { space := x.idx, owner := x.idx, depth := x.depth, shadow := false, troot := x.troot.toNat
    window := if x.parent.isNone then none else some (x.wbase, x.wsize), lost := x.lost }

/-- The shadow of a FLAT child: a table of the parent's stage but for its input space (R68). -/
def Ctx.shadowTab (child parent : Ctx) : Tab :=
  { parent.tab with space := child.idx, shadow := true, troot := child.shadow.toNat }

/-- The stage list of a context, its own stage first (R62). A FLAT context's shadow stands for its own stage and
its parent's. -/
def State.stages (s : State) (x : Nat) : List Tab := go 6 x
where
  go : Nat → Nat → List Tab
    | 0, _ => []
    | n + 1, x =>
      match s.ctx? x with
      | none => []
      | some c =>
        match c.parent with
        | none => [c.tab]
        | some p =>
          if c.isFlat then
            match s.ctx? p with
            | none => []
            | some pc => c.shadowTab pc :: (match pc.parent with | none => [] | some g => go n g)
          else c.tab :: go n p

/-! ## Table entries (Table 3.1, R58) -/

structure Entry where
  raw : Nat
  deriving DecidableEq, Repr

def Entry.v (e : Entry) : Bool := e.raw.testBit 0
def Entry.leaf (e : Entry) : Bool := e.raw.testBit 1
def Entry.w (e : Entry) : Bool := e.raw.testBit 2
def Entry.x (e : Entry) : Bool := e.raw.testBit 3
def Entry.tw (e : Entry) : Bool := e.raw.testBit 4
def Entry.tgt (e : Entry) : Nat := bitsOf e.raw 9 8
def Entry.a (e : Entry) : Bool := e.raw.testBit 10
def Entry.d (e : Entry) : Bool := e.raw.testBit 11
/-- OA × 65,536, the output address. -/
def Entry.out (e : Entry) : Nat := bitsOf e.raw 56 16 * 65536
/-- A field of OA, bits named as in Table 3.1. -/
def Entry.oa (e : Entry) (hi lo : Nat) : Nat := bitsOf e.raw hi lo

/-- Page size of a leaf of a level (R58). -/
def pageSize (lvl : Nat) : Nat := if lvl = 1 then 2 ^ 42 else if lvl = 2 then 2 ^ 29 else 2 ^ 16

/-- The malformed entries of R58. `root`: the output space of the table is device memory and host memory. -/
def Entry.malformed (e : Entry) (lvl : Nat) (root : Bool) : Bool :=
  e.oa 63 57 != 0 || e.oa 15 12 != 0 || e.oa 7 5 != 0 || e.tgt == 3 ||
  (lvl == 3 && !e.leaf) ||
  (!e.leaf && (e.tgt != 0 || e.w || e.x || e.tw || e.a || e.d)) ||
  (!root && e.tgt != 0) ||
  (e.leaf && lvl == 1 && e.oa 41 16 != 0) || (e.leaf && lvl == 2 && e.oa 28 16 != 0) ||
  (root && e.tgt == 0 && e.oa 56 52 != 0)

/-- A write of Table 3.1: a store, an atomic, a RED or LDRES (R60). -/
def AccKind.isWrite : AccKind → Bool
  | .write | .atomic => true
  | _ => false

/-- The rights an access needs of a leaf (R60). -/
def Entry.allows (e : Entry) (acc : AccKind) : Bool :=
  match acc with
  | .read => true
  | .write | .atomic => e.w && !e.tw
  | .fetch => e.x

/-- The requester's index into the table of a level (R34, R62). -/
def levelIndex (a lvl : Nat) : Nat := bitsOf a (54 - 13 * (lvl - 1)) (42 - 13 * (lvl - 1))

/-! ## The composed walk (R62) -/

/-- Why a walk stops: a fault, or a wait for the host (R82, R103): the function, the 4 KiB host page, and
whether a write is asked for. -/
inductive WalkStop where
  | fault (f : FaultInfo)
  | host (vf page : Nat) (write : Bool)
  deriving DecidableEq, Repr

/-- What a translation gives: the place, the smallest page size of the path, the intersection of rights (R63), and
the address presented to each table of the path, by the context whose GL it is of. -/
structure Walked where
  place  : Place
  size   : Nat
  write  : Bool
  fetch  : Bool
  path   : List (Nat × Nat) := []
  deriving DecidableEq, Repr

/-- An address of the output space of a table: GL of the level above, device or host memory. -/
inductive OutAddr where
  | gl (a : Nat) | dev (a : Nat) | host (a : Nat)
  deriving DecidableEq, Repr

def OutAddr.num : OutAddr → Nat
  | .gl a | .dev a | .host a => a

/-- The receiver of a fault of a table (Table 3.2). -/
def Tab.receiver (t : Tab) : Receiver := .ctx t.owner

/-- Who receives GRANT_EXCEEDED of a table: the parent of its owner, or the host driver for a root (Table 3.2). -/
def State.granter (s : State) (t : Tab) : Receiver :=
  match (s.ctx? t.owner).bind (·.parent) with
  | none => .host
  | some p => .ctx p

/-! ## Stacks of a region and of a partition (R39, R449, R450) -/

/-- The stacks a region lies on. -/
def Region.onStacks (r : Region) : List Nat := if r.type == 1 then r.stackSet else if r.type == 2 then [r.stack] else []

/-- A column lies in a partition. -/
def Partition.holds (p : Partition) (col : Nat) : Bool := p.first ≤ col && col < p.first + p.width

/-- A region's stacks lie in a partition. -/
def Region.inside (r : Region) (p : Partition) : Bool := r.onStacks.all fun k => p.holds (firnCol k)

/-- A region's stacks lie in the partition of a function: no context reaches a stack outside it (R450). -/
def State.regionInside (s : State) (vf idx : Nat) : Bool :=
  ((s.vf vf).profile.bind fun q => s.dev.parts[q.1]?).all (s.dev.regions.getD idx {}).inside

/-- `n` bytes from an output lie in the table's grant (R56, R442), and device memory in the function's partition (R450). -/
def State.inGrant (s : State) (t : Tab) (host : Bool) (a n : Nat) : Bool :=
  match t.window with
  | some (b, sz) => b ≤ a && a + n ≤ b + sz && t.lost.all fun p => 65536 * (p + 1) ≤ a || a + n ≤ 65536 * p
  | none =>
    host ||
    (match s.ctx? t.owner with
     | none => false
     | some r =>
       let rg := s.dev.regions.getD (dpaRegion a) {}
       a < 2 ^ 52 && r.regions.contains (dpaRegion a) && s.regionInside r.vf (dpaRegion a) && dpaOffset a + n ≤ rg.size)

/-- A fault of a walk in table `t`. -/
def Tab.fault (t : Tab) (code : Code) (recv : Receiver) (oaddr lvl : Nat) : FaultInfo :=
  { code, recv, oaddr := BitVec.ofNat 64 oaddr, stage := t.depth, shadow := t.shadow, level := lvl }

/-- Set A, and D for a write or an atomic, with an atomic OR at the entry's home (R61). The sector's other
copies are written back and dropped as for any write at the home (R91); the OR acts on what the home then holds. -/
def State.setAD (s : State) (p : Place) (e : Entry) (acc : AccKind) : State :=
  let bits := 2 ^ 10 ||| (if acc.isWrite then 2 ^ 11 else 0)
  if e.raw ||| bits == e.raw then s
  else
    let s := s.invalidateOthers none p.sector
    s.homePoke none p (valBytes 8 (bytesVal (s.peekN p 8) ||| bits))

/-- The table, the address presented to it and the level of the leaf that a walk used last. -/
structure LastLeaf where
  tab   : Tab
  addr  : Nat
  level : Nat

/-- The fault of a host page that the host does not give (R64, R82): the walk stopped at the leaf that leads to host memory. -/
def LastLeaf.absent (l : LastLeaf) : FaultInfo := l.tab.fault .pageAbsent .host l.addr l.level

/-- The level of a leaf, by its page size (R58). -/
def leafLevel (size : Nat) : Nat := if size = 2 ^ 42 then 1 else if size = 2 ^ 29 then 2 else 3

/-- What becomes of an access to host memory (R81, R82, R100, R103): whether its page is device-owned, and the size of the page a
translation to it is kept for, or a wait. The host translates units of 64 KiB (the STU of Table 21.1); a unit whose 4 KiB pages
differ in the handover table is kept page by page (log 44). -/
def State.hostPage (s : State) (vf addr : Nat) (acc : AccKind) : Except WalkStop (Bool × Nat) :=
  let v := s.vf vf
  let page := addr / 4096
  let unit := addr / 65536
  let st := v.handSt page
  if st == .transit || !(v.atsOk.any fun q => q.1 == unit && (!acc.isWrite || q.2)) then .error (.host vf page acc.isWrite)
  else .ok (st == .devOwned, if (List.range 16).all fun i => v.handSt (16 * unit + i) == st then 65536 else 4096)

/-- One level's table of a walk. The result carries the state, in which A and D of the leaves used have been set,
and what the walk gave. `carry` takes an output of the table to its place. Entries are read at their homes (R72); `x` is the
context the walk is for. -/
def State.walkTable (s : State) (x : Nat) (t : Tab) (a : Nat) (acc : AccKind) (forEntry : Bool)
    (carry : State → OutAddr → AccKind → Bool → State × Except WalkStop Walked) : State × Except WalkStop (OutAddr × Entry × Nat) :=
  let root := t.window.isNone
  if t.troot % 65536 != 0 || !s.inGrant t false t.troot 65536 then (s, .error (.fault (t.fault .grantExceeded (s.granter t) t.troot 1)))
  else go 3 1 t.troot root s
where
  go : Nat → Nat → Nat → Bool → State → State × Except WalkStop (OutAddr × Entry × Nat)
    | 0, _, _, _, s => (s, .error (.fault (t.fault .walkFault t.receiver a 3)))
    | n + 1, lvl, ptr, root, s =>
      let ea := ptr + 8 * levelIndex a lvl
      match carry s (if root then .dev ea else .gl ea) .read true with
      | (s, .error e) => (s, .error e)
      | (s, .ok pa) =>
        let (s, bs) := s.homeRead (some (x, .write 0)) pa.place 8
        let e : Entry := ⟨bytesVal bs⟩
        let miss := if forEntry then Code.walkFault else .pageAbsent
        if !e.v then (s, .error (.fault (t.fault miss t.receiver a lvl)))
        else if e.malformed lvl root then (s, .error (.fault (t.fault .walkFault t.receiver a lvl)))
        else if !e.leaf then
          if !s.inGrant t false e.out 65536 then (s, .error (.fault (t.fault .grantExceeded (s.granter t) e.out lvl)))
          else go n (lvl + 1) e.out root s
        else
          let size := pageSize lvl
          let host := root && e.tgt == 1
          if e.tgt != 2 && !s.inGrant t host e.out size then
            (s, .error (.fault (t.fault .grantExceeded (s.granter t) e.out lvl)))
          else if e.tgt == 2 || !e.allows acc then
            let code := if forEntry then Code.walkFault else if e.tw && acc.isWrite then .tableWrite else .pagePerm
            (s, .error (.fault (t.fault code t.receiver a lvl)))
          else
            let off := a % size
            if root && !host && (s.scrubOf (frameOf (e.out + off))).isSome then
              (s, .error (.fault (t.fault .frameDirty t.receiver a lvl)))
            else
              let s := s.setAD pa.place e acc
              let out := e.out + off
              (s, .ok (if host then .host out else if root then .dev out else .gl out, e, size))

/-- The largest page that a translation to a place may be kept for: one with a frame being scrubbed inside it is kept for the
64 KiB page alone, so that accesses to the scrubbed frame walk, and fault (R78, R80). -/
def State.keptSize (s : State) (p : Place) (size : Nat) : Nat :=
  match p with
  | .dev d =>
    let base := d - d % size
    if s.scrubs.any fun x => base < (x.frame + 1) * 65536 && x.frame * 65536 < base + size then min size 65536 else size
  | _ => size

/-- A translation of a table page that a die's TLB holds (R70). -/
def State.tableTlb (s : State) (die : Option Nat) (x stages ea : Nat) : Option Place :=
  die.bind fun d => ((s.die d).tlb.find? fun e => e.ctx == x && e.stage == some stages && e.base ≤ ea && ea < e.base + e.size).map
    fun e => e.out.add (ea - e.base)

/-- Base address of the page of an address. -/
def pageBase (a size : Nat) : Nat := a - a % size

/-- The start of a page's output, from the place one of its addresses leads to. -/
def Place.back : Place → Nat → Place
  | .dev d, n => .dev (d - n)
  | .host vf a o, n => .host vf (a - n) o
  | p, _ => p

/-- Sets of a die TLB and of a Firn TLB, each of 8 ways (Table 3.3). -/
def dieTlbSets : Nat := 2048
def firnTlbSets : Nat := 256

/-- The set a translation stands in: its page number modulo the number of sets (log 44). -/
def TlbEntry.setOf (e : TlbEntry) (sets : Nat) : Nat := e.base / e.size % sets

/-- Enter a translation in a TLB of `sets` sets of `ways` ways: an older entry of the same page is replaced; of a full set a freely
chosen victim leaves (log 21). -/
def tlbEnter (l : List TlbEntry) (e : TlbEntry) (sets ways choice : Nat) : List TlbEntry :=
  let same := l.filter fun y => !(y.ctx == e.ctx && y.stage == e.stage && y.base == e.base && y.size == e.size)
  let set := same.filter fun y => y.setOf sets == e.setOf sets
  e :: (if set.length < ways then same else match set[choice % set.length]? with | some v => same.erase v | none => same)

/-- A die's TLB takes a translation. -/
def State.dieTlbEnter (s : State) (d : Nat) (e : TlbEntry) : State :=
  (s.modDie d fun x => { x with tlb := tlbEnter x.tlb e dieTlbSets 8 (Config.freeChoice s.free) }).nextFree

/-- A core's TLB takes a translation. -/
def State.coreTlbEnter (s : State) (c : Nat) (e : TlbEntry) : State :=
  (s.modCore c fun k => { k with tlb := tlbEnter k.tlb e 1 256 (Config.freeChoice s.free) }).nextFree

/-- The entry that the carrying of a table-entry address makes. -/
def Walked.tableEntry (w : Walked) (x stages ea : Nat) : TlbEntry :=
  { ctx := x, stage := some stages, base := pageBase ea w.size, size := w.size, out := w.place.back (ea % w.size), write := false, fetch := false }

/-- What carrying an address of a table down the rest of the stage list takes. -/
abbrev Carry := State → OutAddr → AccKind → Bool → State × Except WalkStop Walked

/-- A table-entry address, through the die's TLB where it holds the page (R70); `stages` tables are left. -/
def throughTableTlb (die : Option Nat) (x stages : Nat) (carry : Carry) : Carry := fun s a acc forEntry =>
  match a, s.tableTlb die x stages a.num with
  | .gl _, some p => (s, .ok { place := p, size := 65536, write := false, fetch := false })
  | .gl ea, none =>
    match carry s a acc forEntry with
    | (s, .ok w) =>
      let e := { w with size := s.keptSize w.place w.size }.tableEntry x stages ea
      ((die.map fun d => s.dieTlbEnter d e).getD s, .ok w)
    | r => r
  | _, _ => carry s a acc forEntry

/-- Carry an output address of a table down the rest of the stage list (R62, TranslateOut). `vf` is the function, `die` the Serac die
that walks, `last` the leaf used last. -/
def State.carry (vf : Nat) (die : Option Nat) (x : Nat) : List Tab → Option LastLeaf → Carry
  | [], last, s, a, acc, _ =>
    match a with
    | .host h =>
      if (s.vf vf).atsFail.contains (h / 65536) then
        (s.modVf vf fun v => { v with atsFail := v.atsFail.erase (h / 65536) }
        , .error (.fault ((last.map LastLeaf.absent).getD { code := .pageAbsent, recv := .host })))
      else match s.hostPage vf h acc with
      | .error e => (s, .error e)
      | .ok (owned, size) => (s, .ok { place := .host vf h owned, size, write := true, fetch := true })
    | .dev d | .gl d => (s, .ok { place := .dev d, size := 2 ^ 52, write := true, fetch := true })
  | t :: rest, _, s, a, acc, forEntry =>
    match s.walkTable x t a.num acc forEntry (throughTableTlb die x rest.length (State.carry vf die x rest none)) with
    | (s, .error e) => (s, .error e)
    | (s, .ok (out, e, size)) =>
      match State.carry vf die x rest (some ⟨t, a.num, leafLevel size⟩) s out acc forEntry with
      | (s, .error e) => (s, .error e)
      | (s, .ok w) =>
        -- a translation cached from a read walk does not allow writes (R61)
        (s, .ok { w with size := min w.size size, write := w.write && e.w && !e.tw && acc.isWrite, fetch := w.fetch && e.x, path := (t.space, a.num) :: w.path })

/-- N(X): frames charged in the subtree of a context (R439). -/
def State.chargeCount (s : State) (x : Nat) : Nat := (s.charges.filter fun q => s.inSubtree x q.2).length

/-- A context and its ancestors, deepest first. -/
def State.lineage (s : State) (x : Nat) : List Nat := go 5 x
where
  go : Nat → Nat → List Nat
    | 0, _ => []
    | n + 1, a => a :: (match (s.ctx? a).bind (·.parent) with | none => [] | some p => go n p)

/-- Charge the frame a walk of a requester's access has reached (R439, R440): a frame not charged is charged to the
deepest context whose window the path passed through, which is the owner of its first table; a charge that would
exceed a budget is a fault. A frame charged outside the requester's line moves up to the common ancestor. The path of a FLAT child's
access passes no address of its parent's GL: OADDR of the record is then open (log 23). -/
def State.charge (s : State) (x : Nat) (top : Tab) (w : Walked) : State × Option FaultInfo :=
  match w.place with
  | .dev d =>
    let f := frameOf d
    match tabFind f s.charges with
    | some c =>
      if s.inSubtree c x then (s, none)
      else
        let up := ((s.lineage c).find? fun a => s.inSubtree a x).getD c
        ({ s with charges := tabPut f up s.charges }, none)
    | none =>
      let beyond (y : Nat) : Bool := match s.ctx? y with | none => false | some c => c.frames < s.chargeCount y + 1
      match (s.lineage top.owner).find? beyond with
      | none => ({ s with charges := tabPut f top.owner s.charges }, none)
      | some y =>
        let depth := ((s.ctx? y).map (·.depth)).getD 0
        match (s.ctx? y).bind (·.parent) with
        | none => (s, some { code := .grantExceeded, recv := .host, oaddr := BitVec.ofNat 64 (f * 65536), stage := depth })
        | some p =>
          let fault (page : Nat) : FaultInfo := { code := .grantExceeded, recv := .ctx p, oaddr := BitVec.ofNat 64 (page * 65536), stage := depth }
          match tabFind p w.path with
          | some a => (s, some (fault (a / 65536)))
          | none => (s.nextFree, some (fault (Config.freeChoice s.free % 2 ^ 39)))
  | _ => (s, none)

/-- TRANSLATE an address of a context by a walk (R62), on a Serac die or elsewhere. -/
def State.walk (s : State) (die : Option Nat) (x : Nat) (va : DWord) (acc : AccKind) : State × Except WalkStop Walked :=
  let fin (f : FaultInfo) : FaultInfo := { f with raddr := va, acc }
  let ts := s.stages x
  match ts with
  | [] => (s, .error (.fault (fin { code := .pageAbsent, oaddr := va, level := 1 })))
  | t :: _ =>
    if va.toNat / 2 ^ 55 ≠ 0 then (s, .error (.fault (fin (t.fault .pageAbsent t.receiver va.toNat 1))))
    else
      match State.carry (s.vfOf x) die x ts none s (.gl va.toNat) acc false with
      | (s, .error (.fault f)) => (s, .error (.fault (fin f)))
      | (s, .error e) => (s, .error e)
      | (s, .ok w) =>
        match s.charge x t w with
        | (s, some f) => (s, .error (.fault (fin f)))
        | (s, none) => (s, .ok { w with size := s.keptSize w.place w.size })

/-- Ask the host about the 64 KiB unit of a page through ATS, once (R81); a function in an FLR asks no more (R460). -/
def State.askHost (s : State) (vf page : Nat) (wr : Bool) : State :=
  let unit := page / 16
  if (s.vf vf).handSt page == .transit || (s.vf vf).flr then s
  else s.modVf vf fun v =>
    if v.atsPend.any (fun q => q.1 == unit && (q.2 || !wr)) || v.pri.any (fun r => r.page == unit && !r.quarantine && (r.write || !wr)) then v
    else { v with atsPend := v.atsPend ++ [(unit, wr)] }

/-! ## TLBs and misses (R70, R71) -/

/-- The entry that serves an access (R70, R61). -/
def tlbFind (l : List TlbEntry) (x : Nat) (va : Nat) (acc : AccKind) : Option TlbEntry :=
  l.find? fun e => e.ctx == x && e.stage.isNone && e.base ≤ va && va < e.base + e.size &&
    (match acc with | .read => true | .write | .atomic => e.write | .fetch => e.fetch)

/-- Where an entry takes an address. -/
def TlbEntry.place (e : TlbEntry) (va : Nat) : Place := e.out.add (va - e.base)

/-- The entry a successful walk makes. -/
def Walked.entry (w : Walked) (x : Nat) (va : Nat) : TlbEntry :=
  { ctx := x, base := pageBase va w.size, size := w.size, out := w.place.back (va % w.size), write := w.write, fetch := w.fetch }

/-- What a core knows of an address. -/
inductive Transl where
  | hit (p : Place)
  | miss
  | fault (f : FaultInfo)
  deriving DecidableEq, Repr

/-- Look an address up in a core's TLB and then in its die's. An address with bits [63:55] set faults (R33). -/
def State.lookup (s : State) (core x : Nat) (va : DWord) (acc : AccKind) : Transl :=
  if va.toNat / 2 ^ 55 ≠ 0 then
    match s.stages x with
    | [] => .fault { code := .pageAbsent, oaddr := va, raddr := va, level := 1, acc }
    | t :: _ => .fault { t.fault .pageAbsent t.receiver va.toNat 1 with raddr := va, acc }
  else
    match tlbFind (s.core core).tlb x va.toNat acc with
    | some e => .hit (e.place va.toNat)
    | none =>
      match tlbFind (s.die (dieOf core)).tlb x va.toNat acc with
      | some e => .hit (e.place va.toNat)
      | none => .miss

/-- A die TLB entry that served a core enters the core's TLB. -/
def State.tlbPull (s : State) (core x : Nat) (va : DWord) (acc : AccKind) : State :=
  match tlbFind (s.core core).tlb x va.toNat acc with
  | some _ => s
  | none =>
    match tlbFind (s.die (dieOf core)).tlb x va.toNat acc with
    | none => s
    | some e => s.coreTlbEnter core e

/-- Two misses of one context for the same 64 KiB page. -/
def Miss.joins (y m : Miss) : Bool := y.ctx == m.ctx && y.va.toNat / 65536 == m.va.toNat / 65536

/-- Put a miss in a queue; misses of one context for the same 64 KiB page coalesce, whatever their access kinds: one walk serves
them all (R71). While the 64 entries are taken a miss waits at its core. -/
def missAdd (q : List Miss) (m : Miss) : List Miss :=
  if q.any fun y => y.joins m then
    mapIf (fun y => y.joins m) (fun y => { y with waiters := y.waiters ++ m.waiters.filter fun w => !y.waiters.contains w }) q
  else if q.length < 64 then q ++ [m] else q

/-- A miss has to wait at its core: the queue's 64 entries are taken, and none of them is of its page (R71). -/
def State.missFull (s : State) (core x : Nat) (va : DWord) : Bool :=
  let q := (s.die (dieOf core)).missq
  decide (64 ≤ q.length) && !(q.any fun y => y.joins { ctx := x, va, acc := .read, core, waiters := [] })

/-- Ask a die's walkers for a translation. -/
def State.missAt (s : State) (core x : Nat) (va : DWord) (acc : AccKind) (w : Waiter) : State :=
  s.modDie (dieOf core) fun d => { d with missq := missAdd d.missq { ctx := x, va, acc, core, waiters := [(w, va, acc)] } }

/-- A waiter already waits for a walk of its die. -/
def State.waitsForWalk (s : State) (core : Nat) (w : Waiter) : Bool :=
  (s.die (dieOf core)).missq.any fun m => m.waiters.any fun q => q.1 == w

/-- A walk made in the course of an operation that needs its result in the same step: table and parameter reads,
call and spill areas, completion words, queue stores. The TLBs are used and filled as for any access. -/
def State.translate (s : State) (core x : Nat) (va : DWord) (acc : AccKind) : State × Except WalkStop Place :=
  match s.lookup core x va acc with
  | .hit p => (s.tlbPull core x va acc, .ok p)
  | .fault f => (s, .error (.fault f))
  | .miss =>
    match s.walk (some (dieOf core)) x va acc with
    | (s, .error e) => (s, .error e)
    | (s, .ok w) =>
      let e := w.entry x va.toNat
      ((s.dieTlbEnter (dieOf core) e).coreTlbEnter core e, .ok (e.place va.toNat))

/-- Remove the translations of a context for a range, and every entry of its descendants (R73). -/
def State.tlbDrop (s : State) (x : Nat) (base n : Nat) : State :=
  let below := s.subtree x |>.filter (· != x)
  let keep (l : List TlbEntry) : List TlbEntry :=
    l.filter fun e => !(below.contains e.ctx || (e.ctx == x && (e.stage.isSome || (e.base < base + n && base < e.base + e.size))))
  { s with
    cores := s.cores.map fun (p : Nat × Core) => (p.1, { p.2 with tlb := keep p.2.tlb })
    dies := s.dies.map fun (p : Nat × Die) => (p.1, { p.2 with tlb := keep p.2.tlb })
    firns := s.firns.map fun (p : Nat × Firn) => (p.1, { p.2 with tlb := keep p.2.tlb }) }

/-- Remove every translation of a set of contexts. -/
def State.tlbDropCtxs (s : State) (xs : List Nat) : State :=
  let keep (l : List TlbEntry) : List TlbEntry := l.filter fun e => !xs.contains e.ctx
  { s with
    cores := s.cores.map fun (p : Nat × Core) => (p.1, { p.2 with tlb := keep p.2.tlb })
    dies := s.dies.map fun (p : Nat × Die) => (p.1, { p.2 with tlb := keep p.2.tlb })
    firns := s.firns.map fun (p : Nat × Firn) => (p.1, { p.2 with tlb := keep p.2.tlb }) }

/-- Remove every translation whose output satisfies a test (R77, R81, R103). -/
def State.tlbDropOut (s : State) (f : TlbEntry → Bool) : State :=
  let keep (l : List TlbEntry) : List TlbEntry := l.filter fun e => !f e
  { s with
    cores := s.cores.map fun (p : Nat × Core) => (p.1, { p.2 with tlb := keep p.2.tlb })
    dies := s.dies.map fun (p : Nat × Die) => (p.1, { p.2 with tlb := keep p.2.tlb })
    firns := s.firns.map fun (p : Nat × Firn) => (p.1, { p.2 with tlb := keep p.2.tlb }) }

end Sys2Proof.Machine
end

