-- ==== Sys2Proof/Machine/Operands.lean ====
section
/-! DEFINITION. Operands, results and registers: what stands on an instruction's ports (R255, R276), where
its results go (R254, R255), the end of a firing (R199, R203), faults of a firing (R207, R196), and reading and
writing the registers of a warp or a control thread. -/

namespace Sys2Proof.Machine

/-! ## Operands -/

/-- What stands on a port. -/
def Issue.port (c : Issue) (q : PortName) : PortVal :=
  (c.vals.find? fun v => v.port == q).getD { port := q, mask := 0, val := [] }

/-- The 32-bit operand of a lane on a port. -/
def Issue.w32 (c : Issue) (q : PortName) (l : Nat) : Word := (c.port q).val.at l

/-- The 64-bit operand of a lane: low half on one port, high half on the other (R255). -/
def Issue.w64 (c : Issue) (q r : PortName) (l : Nat) : DWord := joinHalves (c.w32 q l) (c.w32 r l)

/-- The lowest lane of the firing mask. -/
def Issue.low (c : Issue) : Nat := lowestLane c.mask

/-- The 32-bit operand of the lowest lane. -/
def Issue.lowW (c : Issue) (q : PortName) : Word := c.w32 q c.low
/-- The 64-bit operand of the lowest lane. -/
def Issue.lowD (c : Issue) (q r : PortName) : DWord := c.w64 q r c.low

/-- The lanes that fire. -/
def Issue.lanes (c : Issue) : List Nat := lanesOf c.mask

/-- The lanes that satisfy a test, as a mask. -/
def lanesWhere (ls : List Nat) (p : Nat → Bool) : Mask := maskOf (ls.filter p)

/-- THE FIRING MASK: the AND of the operands' masks, within `all`, and of the predicate's lanes. -/
def firingMask (p : Pred) (all : Mask) (vals : List PortVal) : Mask :=
  let m := vals.foldl (fun m v => m &&& v.mask) all
  let on (l : Nat) : Bool := ((vals.find? fun v => v.port == .p).map fun v => v.val.at l != 0).getD false
  match p with
  | .always => m
  | .ifTrue => m &&& lanesWhere (lanesOf m) on
  | .ifFalse => m &&& lanesWhere (lanesOf m) fun l => !on l

/-- A 32-bit result: `f l` in each lane of the firing mask, 0 elsewhere. -/
def Issue.res32 (c : Issue) (f : Nat → Word) : List Lanes := [Lanes.of fun l => if c.mask.getLsbD l then f l else 0]

/-- A 64-bit result. -/
def Issue.res64 (c : Issue) (f : Nat → DWord) : List Lanes :=
  [Lanes.of fun l => if c.mask.getLsbD l then lowHalf (f l) else 0, Lanes.of fun l => if c.mask.getLsbD l then highHalf (f l) else 0]

/-- A 128-bit result. -/
def Issue.res128 (c : Issue) (f : Nat → BitVec 128) : List Lanes :=
  (List.range 4).map fun k => Lanes.of fun l => if c.mask.getLsbD l then (f l).extractLsb' (32 * k) 32 else 0

/-- A result of 32, 64 or 128 bits, by the form's width. -/
def Issue.resN (c : Issue) (f : Nat → BitVec 128) : List Lanes :=
  match c.form.res with
  | 128 => c.res128 f
  | 64 => c.res64 fun l => (f l).setWidth 64
  | _ => c.res32 fun l => (f l).setWidth 32

/-- The same status in every lane. -/
def Issue.status (c : Issue) (x : Nat) : List Lanes := c.res32 fun _ => BitVec.ofNat 32 x

/-- The immediate offset of layout M, sign-extended (R328). -/
def offset64 (o : BitVec 19) : DWord := o.signExtend 64
def offset32 (o : BitVec 19) : Word := o.signExtend 32

/-! ## Targets (R254, R255) -/

/-- Which part of a result each of T0 to T3 takes. -/
def partOf (f : Form) (t : Nat) : Nat :=
  if f.res ≤ 32 then 0
  else if f.res ≤ 64 then (if f.opc = 0x04 then (if t = 0 then 0 else 1) else t / 2)
  else t

/-- The first words of the instructions of a block, by index: a LONG instruction takes two (R244). -/
def starts : List (BitVec 64) → Nat → List Nat
  | [], _ => []
  | [_], n => [n]
  | w :: v :: rest, n => if w.getLsbD 17 then n :: starts rest (n + 2) else n :: starts (v :: rest) (n + 1)

/-- The port a target names, given whether its index is a second word. -/
def portName (port : Port) (second : Bool) : PortName :=
  match port, second with
  | .a, false => .a | .b, false => .b | .c, false => .c | .p, _ => .p
  | .a, true => .ax | .b, true => .bx | .c, true => .cx

/-- The instruction and port a target names in a block of these words (R254). -/
def resolve (words : List (BitVec 64)) (t : Target) : Nat × PortName :=
  let second := !(starts words 0).contains t.idx.toNat
  (if second then t.idx.toNat - 1 else t.idx.toNat, portName t.port second)

/-- The tokens of a result: for each target that is not none, the part of the result it takes. -/
def route (f : Form) (words : List (BitVec 64)) (parts : List Lanes) : List (Nat × PortName × Lanes) :=
  f.targets.zipIdx.filterMap fun q => q.1.map fun t => let r := resolve words t; (r.1, r.2, parts.getD (partOf f q.2) Lanes.zero)

/-! ## Blocks and threads -/

/-- The block of a context on a core, by the fetch that made it resident. -/
def Core.block? (k : Core) (ctx addr ver : Nat) : Option RBlock :=
  k.blocks.find? fun b => b.ctx == ctx && b.addr == addr && b.ver == ver

/-- The instance a thread is, if it is a warp's. -/
def State.instOf (s : State) : Who → Option Inst
  | .warp c sl t => (s.warp? c sl).bind fun w => w.inst? t
  | .ctl _ _ => none

/-- The block a thread is running. -/
def State.blockOf (s : State) : Who → Option RBlock
  | .warp c sl t => (s.warp? c sl).bind fun w => (w.inst? t).bind fun i => (s.core c).block? w.ctx i.block i.ver
  | .ctl c x => (s.ctl? c x).bind fun t => (s.core c).block? x t.block t.ver

/-- The team of a thread. -/
def State.teamOf (s : State) : Who → Option Team
  | .warp c sl _ => (s.warp? c sl).bind fun w => (s.core c).team? w.team
  | .ctl c x => ((s.ctl? c x).bind (·.team)).bind fun t => (s.core c).team? t

/-- The node of an instruction of an instance (R202). -/
def RBlock.node (b : RBlock) (replica idx : Nat) : Nat := (b.bases.getD replica 0 + idx) % Config.nodes

/-! ## The end of a firing -/

/-- A warp's instruction has fired: its entry leaves its node, its operands are consumed (R203, R208), and the
instance counts it (R206, R217). -/
def State.fired (s : State) (c : Issue) : State :=
  match c.who with
  | .ctl _ _ => s
  | .warp core slot itag =>
    match s.instOf c.who, s.blockOf c.who with
    | some i, some b =>
      let n := b.node i.replica c.idx
      let mine (m : MatchEntry) : Bool := m.wslot == slot && m.itag == itag && m.idx == c.idx
      let s := s.modCore core fun k => (k.modNode n fun x =>
        { x with ready := x.ready.filter fun m => !mine m, lastFire := s.time + 1, lastAge := k.ageOf slot + 1 }).tagSub slot itag c.vals.length
      s.modInst core slot itag fun i => { i with fired := c.idx :: i.fired, lastAct := s.time }
    | _, _ => s

/-- Send the tokens of a result with a mask (R199, R201): into the arrival channels of the nodes, or to the
operands of a control thread's block. -/
def State.sendTokens (s : State) (who : Who) (form : Form) (mask : Mask) (parts : List Lanes) : State :=
  match s.blockOf who with
  | none => s
  | some b =>
    let ts := route form b.words parts
    match who with
    | .ctl core x => s.modCtl core x fun t =>
        { t with vals := t.vals ++ ts.map fun q => (q.1, { port := q.2.1, mask, val := q.2.2 }) }
    | .warp core slot itag =>
      let replica := ((s.instOf who).map (·.replica)).getD 0
      s.modCore core fun k => ts.foldl (fun k q =>
        (k.modNode (b.node replica q.1) fun n =>
          { n with chan := n.chan ++ [{ wslot := slot, itag, idx := q.1, port := q.2.1, mask, val := q.2.2 }] }).tagAdd slot itag 1) k

/-- A control thread goes on to its next instruction. -/
def State.advance (s : State) (who : Who) (idx : Nat) (long : Bool) : State :=
  match who with
  | .ctl core x => s.modCtl core x fun t =>
      { t with next := idx + (if long then 2 else 1), vals := t.vals.filter fun v => v.1 != idx }
  | .warp _ _ _ => s

/-- The instruction has fired and its result goes to its targets with the firing mask (R199). -/
def State.finish (s : State) (c : Issue) (parts : List Lanes) : State :=
  ((s.fired c).sendTokens c.who c.form c.mask parts).advance c.who c.idx c.form.isLong

/-- As `finish`, with a mask of its own on the tokens. -/
def State.finishMask (s : State) (c : Issue) (mask : Mask) (parts : List Lanes) : State :=
  ((s.fired c).sendTokens c.who c.form mask parts).advance c.who c.idx c.form.isLong

/-- A fault or trap when an instruction fires: a warp's instance records it and the targets receive empty tokens
(R207); a control thread halts before the instruction (R196). -/
def State.faultIssue (s : State) (c : Issue) (f : FaultInfo) : State :=
  match c.who with
  | .warp core slot itag => (s.recordExit core slot itag f).finishMask c 0 []
  | .ctl core x => s.haltCtl core x f

/-- Carry out an instruction of the thread that issues one. A firing with an empty mask has no effect but its
empty tokens (R199). -/
def issuing (s : State) (k : Issue → State) : Host.Outcome State Fault Refusal :=
  match s.cur with
  | none => .refused .noIssuer
  | some c => .next (if c.mask = 0 then s.finish c [] else k c)

/-! ## Registers -/

/-- A register of a warp as 32 lanes of low and high halves: vn and vn + 1, or a scalar in every lane (R277). -/
def Warp.readReg (w : Warp) (r : RegSpec) : Lanes × Lanes :=
  if r.scalar then
    let x := w.s.getD r.num.toNat 0
    (List.replicate 32 (lowHalf x), List.replicate 32 (highHalf x))
  else (w.v.getD r.num.toNat [], w.v.getD (r.num.toNat + 1) [])

/-- Lanes of a row replaced where a mask says so. -/
def overlayLanes (old new : Lanes) (mask : Mask) : Lanes := Lanes.of fun l => if mask.getLsbD l then new.at l else old.at l

/-- A scalar after a write of the lowest lane's value: 64 bits, or bits [31:0] (R278). -/
def scalarWrite (old : DWord) (w64 : Bool) (lo hi : Word) : DWord := if w64 then joinHalves lo hi else joinHalves lo (highHalf old)

/-- Write a register of a warp for the lanes of a mask (R278). -/
def Warp.writeReg (w : Warp) (r : RegSpec) (w64 : Bool) (mask : Mask) (lo hi : Lanes) : Warp :=
  if mask = 0 then w
  else if r.scalar then
    let l := lowestLane mask
    { w with s := listMod w.s r.num.toNat fun old => scalarWrite old w64 (lo.at l) (hi.at l) }
  else
    let v := listMod w.v r.num.toNat fun old => overlayLanes old lo mask
    { w with v := if w64 then listMod v (r.num.toNat + 1) fun old => overlayLanes old hi mask else v }

/-- Write a scalar register of a control thread (R279). -/
def Ctl.writeReg (t : Ctl) (r : RegSpec) (w64 : Bool) (lo hi : Word) : Ctl :=
  { t with s := listMod t.s r.num.toNat fun old => scalarWrite old w64 lo hi }

/-! ## Token registers and joins (R131, R260) -/

/-- The token registers of a thread: register, scope, still outstanding. -/
def State.tokensOf (s : State) : Who → List (Nat × Scope × Bool)
  | .warp c sl _ => ((s.warp? c sl).map (·.tokens)).getD []
  | .ctl c x => ((s.ctl? c x).map (·.tokens)).getD []

def State.setTokens (s : State) (who : Who) (f : List (Nat × Scope × Bool) → List (Nat × Scope × Bool)) : State :=
  match who with
  | .warp c sl _ => s.modWarp c sl fun w => { w with tokens := f w.tokens }
  | .ctl c x => s.modCtl c x fun t => { t with tokens := f t.tokens }

/-- Scopes of operations bound to a flag since it was last seen clear (R347). -/
def State.joinsOf (s : State) : Who → List (Nat × Scope)
  | .warp c sl _ => ((s.warp? c sl).map (·.joins)).getD []
  | .ctl c x => ((s.ctl? c x).map (·.joins)).getD []

def State.setJoins (s : State) (who : Who) (f : List (Nat × Scope) → List (Nat × Scope)) : State :=
  match who with
  | .warp c sl _ => s.modWarp c sl fun w => { w with joins := f w.joins }
  | .ctl c x => s.modCtl c x fun t => { t with joins := f t.joins }

/-- The hidden counts of a thread's flags (R248). -/
def State.flagsOf (s : State) : Who → List Nat
  | .warp c sl _ => ((s.warp? c sl).map (·.flags)).getD []
  | .ctl c x => ((s.ctl? c x).map (·.flags)).getD []

def State.setFlags (s : State) (who : Who) (f : List Nat → List Nat) : State :=
  match who with
  | .warp c sl _ => s.modWarp c sl fun w => { w with flags := f w.flags }
  | .ctl c x => s.modCtl c x fun t => { t with flags := f t.flags }

/-- A flag reads as set. -/
def State.flagSet (s : State) (who : Who) (n : Nat) : Bool := (s.flagsOf who).getD n 0 != 0

/-- Observe that a flag is clear: the acquires of the operations bound to it are made (R131, R347). -/
def State.joinFlag (s : State) (who : Who) (n : Nat) : State :=
  let scopes := ((s.joinsOf who).filter fun q => q.1 == n).map (·.2)
  (scopes.foldl (fun s sc => s.acquireActs who.core sc 0b111) s).setJoins who fun l => l.filter fun q => q.1 != n

/-- The first GETR of a token register that has been written: the acquires of the operations that wrote it (R131). -/
def State.joinToken (s : State) (who : Who) (r : Nat) : State :=
  let scopes := ((s.tokensOf who).filter fun q => q.1 == r).map (·.2.1)
  (scopes.foldl (fun s sc => s.acquireActs who.core sc 0b111) s).setTokens who fun l => l.filter fun q => q.1 != r

end Sys2Proof.Machine
end

