-- ==== Sys2Proof/Machine/Access.lean ====
section
/-! DEFINITION. The checks of a memory form (R330), the window map (R46 to R52), support of atomics (Table 6.3),
the order of a block's accesses (R114 to R118, R336), store forwarding, and pending accesses. -/

namespace Sys2Proof.Machine

/-! ## Scratchpad and window (R45 to R52) -/

/-- What an access does to the window. -/
inductive WnUse where
  | load | store | atomic
  deriving DecidableEq, Repr

/-- Scratchpad allocations of a context's teams on a core: base and size. -/
def Core.allocs (k : Core) (x : Nat) : List (Nat × Nat) :=
  (k.teams.filter fun t => t.ctx == x).map fun t => (t.spBase, t.lrec.spb)

/-- Every byte of a range lies in an allocation. -/
def inAllocs (l : List (Nat × Nat)) (a n : Nat) : Bool :=
  (List.range n).all fun i => l.any fun q => q.1 ≤ a + i && a + i < q.1 + q.2

/-- The target core's check of an access that arrives (R48, R52): its allocations, or its holder. -/
def State.windowBad (s : State) (x : Nat) (p : Place) (n : Nat) : Option Code :=
  match p with
  | .sp c a => if inAllocs ((s.core c).allocs x) a n then none else some .windowPerm
  | .acc c _ => if (s.core c).mx.holder == some x then none else some .mxState
  | _ => some .windowPerm

/-- A committed store or RED fails its check where it arrives: it has no effect, and WINDOW_PERM or MX_STATE is reported for its
thread, which is not halted, since its block has committed (log 45). -/
def State.lateFault (s : State) (x : Nat) (who : Who) (code : Code) (lane : Nat) : State :=
  s.deliver x who.requester false { code, mask := (1 : Mask) <<< lane, acc := .write } 0 0

/-- An SP access of a thread (R45). -/
def State.spPlace (s : State) (who : Who) (a n : Nat) : Except Code Place :=
  match s.teamOf who with
  | none => .error .windowPerm
  | some t => if a + n ≤ t.lrec.spb then .ok (.sp who.core (t.spBase + a)) else .error .windowPerm

/-- A WN access from a core, of a context as the accessing team numbers its cores (R46 to R49, R52, R443). -/
def State.wnPlace (s : State) (c : Ctx) (core a n : Nat) (use : WnUse) : Except Code Place :=
    let x := c.idx
    let off := a % 2 ^ 21
    match (c.cores[a / 2 ^ 21]?).filter fun t => (s.ctx? x).any fun y => y.cores.contains t with
    | none => .error .windowPerm
    | some t =>
      let k := s.core t
      if c.mode != 0 && c.devIdx t != c.devIdx core then .error .windowPerm
      else if off + n ≤ 0x80000 then
        if inAllocs (k.allocs x) off n then .ok (.sp t off) else .error .windowPerm
      else if 0x80000 ≤ off && off + n ≤ 0xC0000 then
        let slot := bitsOf off 17 13
        let reg := bitsOf off 12 7
        match k.warp? slot with
        | none => .error .windowPerm
        | some w =>
          let declared := match k.team? w.team with | none => false | some t => t.lrec.mbox.getLsbD reg
          if use == .store && 4 ≤ n && n ≤ 16 && w.ctx == x && declared && reg < w.v.length then
            .ok (.mbox t slot reg (bitsOf off 6 2))
          else .error .windowPerm
      else if 0x100000 ≤ off && off + n ≤ 0x110000 then
        if use == .atomic || n < 4 then .error .windowPerm
        else if k.mx.holder == some x then .ok (.acc t (off - 0x100000))
        else .error .mxState
      else .error .windowPerm

/-! ## Support (Table 6.3, R145, R150) -/

/-- The place supports an operation and width. -/
def supports (op : AtomOp) (aw : AWidth) (p : Place) : Bool :=
  match p with
  | .sp _ _ => aw != .w128 && (match op with | .badd2 | .fmin | .fmax => false | _ => true)
  | .dev _ => aw != .w128
  | .host _ _ _ => (match op with | .add | .exch => aw != .w128 | .cas => true | _ => false)
  | _ => false

/-! ## Checks (R330) -/

/-- The outcome of a form's checks: the accesses of its lanes, a wait for walks, or the first fault. -/
inductive Checked where
  | ok (s : State) (accs : List Access)
  | wait (s : State)
  | fault (f : FaultInfo)
  deriving DecidableEq, Repr

/-- Two accesses share a byte. -/
def Place.overlaps (p : Place) (n : Nat) (q : Place) (m : Nat) : Bool :=
  let meet (a b : Nat) : Bool := a < b + m && b < a + n
  match p, q with
  | .dev a, .dev b => meet a b
  | .host v a _, .host w b _ => v == w && meet a b
  | .sp c a, .sp d b => c == d && meet a b
  | .acc c a, .acc d b => c == d && meet a b
  | _, _ => false

/-- The buffered stores of an instance below an index, in ascending index. -/
def Inst.storesBelow (i : Inst) (idx : Nat) : List (List (Access × BitVec 128)) :=
  let below := i.effs.filterMap fun e => match e with
    | .store j _ accs _ => if j < idx then some (j, accs) else none
    | _ => none
  (sortBy (fun a b => decide (a.1 ≤ b.1)) below).map (·.2)

/-- Some byte of an access overlaps a buffered store of the same lane at a lower index (R142). -/
def Inst.overlapped (i : Inst) (idx : Nat) (a : Access) : Bool :=
  (i.storesBelow idx).any fun accs => accs.any fun q => q.1.lane == a.lane && q.1.place.overlaps q.1.bytes a.place a.bytes

/-- The lanes of a mask, each with its address. -/
def laneAddrs (m : Mask) (addr : Nat → DWord) : List (Nat × DWord) := (lanesOf m).map fun l => (l, addr l)

/-- A fault that lanes of an access meet before any translation: the record gives the address of the lowest (R479). -/
def accessFault (code : Code) (m : Mask) (addr : Nat → DWord) (acc : AccKind) : FaultInfo :=
  { code, mask := m, raddr := addr (lowestLane m), acc, lanes := (laneAddrs m addr).map fun q => { lane := q.1, raddr := q.2 } }

/-- The checks of a memory form, in the order of R330, each over every active lane: alignment; bound and window;
translation and rights; then the support and overlap checks of the form. RADDR is the address of the lowest faulting lane (R479). -/
def State.checkAccess (s : State) (c : Issue) (space : Space) (acc : AccKind) (use : WnUse) (n : Nat)
    (addr : Nat → DWord) (support : Place → Bool) (overlap : Bool) : Checked :=
  let ls := c.lanes
  let base (code : Code) (m : Mask) : FaultInfo := accessFault code m addr acc
  let misaligned (l : Nat) : Bool := (addr l).toNat % n != 0
  if ls.any misaligned then .fault (base .misaligned (lanesWhere ls misaligned))
  else
    let after (s : State) (accs : List Access) : Checked :=
      let unsupported (a : Access) : Bool := !support a.place
      if accs.any unsupported then .fault (base .atomicUnsupported (maskOf ((accs.filter unsupported).map (·.lane))))
      else
        let overl (a : Access) : Bool := overlap && ((s.instOf c.who).any fun i => i.overlapped c.idx a)
        if accs.any overl then .fault (base .illegalBlock (maskOf ((accs.filter overl).map (·.lane))))
        else .ok s accs
    let window (place : Nat → Except Code Place) : Checked :=
      let codeOf (l : Nat) : Option Code := match place l with | .error e => some e | .ok _ => none
      match ls.findSome? codeOf with
      | some code => .fault (base code (lanesWhere ls fun l => codeOf l == some code))
      | none => after s (ls.filterMap fun l => match place l with
          | .ok p => some { lane := l, va := addr l, place := p, bytes := n }
          | .error _ => none)
    match space with
    | .sp => window fun l => s.spPlace c.who (addr l).toNat n
    | .wn =>
      let x := (s.ctx? (s.ctxOf c.who)).map fun x => s.seenBy x c.who
      window fun l => match x with
        | none => .error .windowPerm
        | some x => s.wnPlace x c.who.core (addr l).toNat n use
    | .gl =>
      let x := s.ctxOf c.who
      let core := c.who.core
      let look (l : Nat) : Transl := s.lookup core x (addr l) acc
      let stops : List (Nat × FaultInfo) := ls.filterMap fun l => match look l with | .fault f => some (l, f) | _ => none
      match stops with
      | (_, f) :: _ =>
        let same := stops.filter fun q => q.2.code == f.code && q.2.recv == f.recv
        .fault { f with mask := maskOf (same.map (·.1)), lanes := same.map fun q => q.2.ofLane q.1 q.2.raddr }
      | [] =>
        let missing := ls.filter fun l => look l == .miss
        if !missing.isEmpty then
          let page (l : Nat) : Nat := (addr l).toNat / 65536
          let pages := (missing.map page).eraseDups
          .wait (pages.foldl (fun s q =>
            match missing.find? fun l => page l == q with
            | none => s
            | some l => s.missAt core x (addr l) acc (.instr c.who c.idx (laneAddrs (lanesWhere missing fun k => page k == q) addr))) s)
        else
          let s' := ls.foldl (fun s l => s.tlbPull core x (addr l) acc) s
          after s' (ls.filterMap fun l => match look l with
            | .hit p => some { lane := l, va := addr l, place := p, bytes := n }
            | _ => none)

/-! ## Order of the accesses of a block -/

/-- The memory forms whose accesses have a place in program order. -/
def memoryForm : Instr → Bool
  | .ld _ _ | .st _ _ | .lds _ _ | .sts _ _ | .ldw _ _ | .stw _ _ | .ldres _ _ _ | .stcond _ _ _
  | .atom _ _ _ | .atoms _ _ _ _ | .red _ _ _ => true
  | _ => false

/-- The order code an instruction carries. -/
def orderOf : Instr → Order
  | .ld _ o | .st _ o | .lds _ o | .sts _ o | .ldw _ o | .stw _ o | .ldres _ _ o | .stcond _ _ o | .pref o
  | .atom _ _ o | .atoms _ _ _ o | .red _ _ o => o.order
  | .fence _ o _ _ => o
  | _ => .none

def acquires : Order → Bool
  | .acq | .acqrel => true
  | _ => false

def releases : Order → Bool
  | .rel | .acqrel => true
  | _ => false

/-- An instruction that acts as an acquire at its own index (R122, R131, R133, R135). -/
def acquiring (i : Instr) : Bool :=
  match i with
  | .nbwait _ _ | .waitf _ _ | .evwait _ _ => true
  | _ => acquires (orderOf i)

/-- A GETR of a register that an engine operation has written or will write: the join of R131. -/
def joinsToken (tokens : List (Nat × Scope × Bool)) (i : Instr) : Bool :=
  match i with
  | .getr _ _ r => r.scalar && tokens.any fun q => q.1 == r.num.toNat
  | _ => false

/-- A value-returning atomic (R148). -/
def valueAtomic : Instr → Bool
  | .atom _ _ _ | .atoms _ _ _ _ | .stcond _ _ _ => true
  | _ => false

/-- The instructions of a block with their indices. -/
def RBlock.instrs (b : RBlock) : List (Nat × Instr) :=
  (starts b.words 0).filterMap fun i => match decode (b.words.drop i) with | .ok (ins, _) => some (i, ins) | .error _ => none

/-- Decide whether an instruction of a block has completed in an instance: it has fired and its access, if it made one,
has returned. -/
def Inst.completed (i : Inst) (idx : Nat) : Bool := i.fired.contains idx && !(i.pends.any fun q => q.idx == idx)

/-- The instances of a warp older than one, oldest first. -/
def Warp.olderThan (w : Warp) (itag : Nat) : List Inst := w.insts.takeWhile fun i => i.itag != itag

/-- What a memory form, a prefetch or a fence of a warp waits for before it fires (R114, R117, R118, R336, R343): every
memory form of lower index has fired, every acquire of lower index has completed; `all` (atomics, STCOND and LDRES):
also every load and atomic of lower index has returned, in this instance and in the older ones; a value-returning
atomic also waits until its instance is the oldest (R212). Memory forms of older iterations have fired. -/
def State.held (s : State) (c : Issue) (all oldest : Bool) : Bool :=
  match c.who with
  | .ctl _ _ => false
  | .warp core slot itag =>
    match s.warp? core slot, s.instOf c.who, s.blockOf c.who with
    | some w, some i, some b =>
      let older := w.olderThan itag
      let ins := b.instrs
      let lower := ins.filter fun q => q.1 < c.idx
      (oldest && !older.isEmpty) ||
      lower.any (fun q => (memoryForm q.2 && !i.fired.contains q.1) ||
        ((acquiring q.2 || joinsToken w.tokens q.2) && !i.completed q.1) ||
        (all && memoryForm q.2 && !i.completed q.1)) ||
      older.any (fun o => ins.any fun q => memoryForm q.2 && !o.fired.contains q.1) ||
      (all && older.any fun o => !o.pends.isEmpty)
    | _, _, _ => false

/-- An effect stores: a store, a RED, or the record of an FQPOP. -/
def Eff.isStore : Eff → Bool
  | .store _ _ _ _ | .red _ _ _ _ _ | .fqpop _ _ _ => true
  | _ => false

/-- An instance of the core is in the middle of applying its stores, so that loads of the core wait for it (R116). -/
def State.midCommit (s : State) (core : Nat) : Bool :=
  (s.core core).warps.any fun (p : Nat × Warp) => p.2.insts.any fun i => i.st == .committing && i.effs.any Eff.isStore

/-! ## Store forwarding (R114, R333) -/

/-- Bytes of an access that buffered stores of the lane supply: a byte mask and the bytes; the store of highest index,
in the youngest instance, supplies each byte. -/
def State.forward (s : State) (c : Issue) (a : Access) : BitVec 16 × BitVec 128 :=
  match c.who with
  | .ctl _ _ => (0, 0)
  | .warp core slot itag =>
    match s.warp? core slot, s.instOf c.who with
    | some w, some i =>
      let stores := ((w.olderThan itag).map fun o => o.storesBelow 64).flatten ++ i.storesBelow c.idx
      let mine := stores.flatMap fun accs => accs.filter fun q => q.1.lane == a.lane
      let byte (k : Nat) : Option (BitVec 8) :=
        mine.foldl (fun r q =>
          match (List.range q.1.bytes).find? fun j => decide (q.1.place.add j = a.place.add k) && q.1.place.overlaps q.1.bytes a.place a.bytes with
          | some j => some (q.2.extractLsb' (8 * j) 8)
          | none => r) none
      (List.range a.bytes).foldl (fun (r : BitVec 16 × BitVec 128) k => match byte k with
        | some v => (r.1 ||| (1 : BitVec 16) <<< k, r.2 ||| (v.setWidth 128) <<< (8 * k))
        | none => r) (0, 0)
    | _, _ => (0, 0)

/-- A value read with forwarded bytes laid over it. -/
def mergeForward (n : Nat) (fmask : BitVec 16) (fval v : BitVec 128) : BitVec 128 :=
  (List.range n).foldl (fun r k =>
    let b : BitVec 8 := if fmask.getLsbD k then fval.extractLsb' (8 * k) 8 else v.extractLsb' (8 * k) 8
    r ||| (b.setWidth 128) <<< (8 * k)) 0

/-- Bytes as a value. -/
def toVal (bs : List (BitVec 8)) : BitVec 128 := BitVec.ofNat 128 (bytesVal bs)

/-- The `n` low bytes of a value. -/
def ofVal (n : Nat) (v : BitVec 128) : List (BitVec 8) := valBytes n v.toNat

/-! ## Pending accesses -/

/-- Change the pending access of an instruction. -/
def State.modPend (s : State) (who : Who) (idx : Nat) (f : Pend → Pend) : State :=
  match who with
  | .warp c sl t => s.modInst c sl t fun i => { i with pends := mapIf (fun q => q.idx == idx) f i.pends }
  | .ctl c x => s.modCtl c x fun t => { t with pend := t.pend.map fun q => if q.idx == idx then f q else q }

def State.pend? (s : State) (who : Who) (idx : Nat) : Option Pend :=
  match who with
  | .warp _ _ _ => (s.instOf who).bind fun i => i.pends.find? fun q => q.idx == idx
  | .ctl c x => (s.ctl? c x).bind fun t => t.pend.bind fun q => if q.idx == idx then some q else none

def State.addPend (s : State) (who : Who) (q : Pend) : State :=
  match who with
  | .warp c sl t => s.modInst c sl t fun i => { i with pends := i.pends ++ [q] }
  | .ctl c x => s.modCtl c x fun t => { t with pend := some q }

def State.dropPend (s : State) (who : Who) (idx : Nat) : State :=
  match who with
  | .warp c sl t => s.modInst c sl t fun i => { i with pends := i.pends.filter fun q => q.idx != idx, lastAct := s.time }
  | .ctl c x => s.modCtl c x fun t => { t with pend := none }

/-- A lane of a pending access has its value. -/
def State.setGot (s : State) (who : Who) (idx lane : Nat) (v : BitVec 128) : State :=
  s.modPend who idx fun q => { q with lanes := mapIf (fun l => l.acc.lane == lane) (fun l => { l with got := some v }) q.lanes }

/-- A lane of a pending access has been sent. -/
def State.setSent (s : State) (who : Who) (idx lane : Nat) : State :=
  s.modPend who idx fun q => { q with lanes := mapIf (fun l => l.acc.lane == lane) (fun l => { l with sent := true }) q.lanes }

/-- The scope at which a load's acquire makes it read at the point of coherence (R336). -/
def wideAcquire (acq : Option Scope) : Bool := acq == some .dev || acq == some .sys

/-- A load of a place goes through the L1 (R85, R336). -/
def throughL1 (cls : MClass) (acq : Option Scope) (p : Place) : Bool :=
  match p with
  | .dev _ => cls != .ord && !wideAcquire acq
  | .host _ _ owned => owned && cls != .ord && !wideAcquire acq
  | _ => false

/-- The next .ord number of a core, for an access of that class (R99). -/
def State.takeOrd (s : State) (core : Nat) (cls : MClass) : State × Option Nat :=
  if cls == .ord then (s.modCore core fun k => { k with ordSeq := k.ordSeq + 1 }, some (s.core core).ordSeq) else (s, none)

/-- READ-AHEAD of a .str load or prefetch (R99, log 21): it may ask for up to the next 4 sectors, inside the 64 KiB page and through
translations that the core's TLB holds. -/
def State.readAhead (s : State) (core x : Nat) (cls : MClass) (va : DWord) : State :=
  if cls != .str then s
  else
    let ask (s : State) (i : Nat) : State :=
      let a := (va.toNat / 64 + i + 1) * 64
      if a / 65536 != va.toNat / 65536 then s
      else match tlbFind (s.core core).tlb x a .read with
        | none => s
        | some e =>
          let p := e.place a
          if throughL1 cls none p && ((s.core core).l1? p.sector).isNone then s.askDcu core x p.sector .read else s
    ((List.range (s.choice 5)).foldl ask s).nextFree

/-- PREF of one address whose translation is known (R337): the sector is asked for unless it is present or the page is host-owned. -/
def State.prefAsk (s : State) (core x : Nat) (cls : MClass) (va : DWord) (p : Place) : State :=
  if throughL1 cls none p && ((s.core core).l1? p.sector).isNone then (s.askDcu core x p.sector .read).readAhead core x cls va else s

/-- Try to perform one lane of a load (R333): a port of the own core answers at once, the L1 if it holds the bytes;
otherwise the DCU is asked for the sector, or a request goes to the home, host or window port. While a store or atomic of the core
to the sector is on its way home, an L1 load of it waits (R114). -/
def State.tryLoad (s : State) (who : Who) (idx : Nat) (cls : MClass) (acq : Option Scope) (l : PendLane) : State :=
  if l.got.isSome then s
  else
    let core := who.core
    let a := l.acc
    let by_ : Option (Nat × Requester) := some (s.ctxOf who, who.requester)
    let done (s : State) (v : BitVec 128) : State := s.setGot who idx a.lane (mergeForward a.bytes l.fmask l.fval v)
    let window (t : Nat) : State :=
      if t == core then
        let (s, bs) := s.homeRead by_ a.place a.bytes
        done s (toVal bs)
      else if l.sent then s
      else (s.send core (s.ctxOf who) (.wload who idx a.lane a.place a.bytes false)).setSent who idx a.lane
    match a.place with
    | .sp t _ | .acc t _ => window t
    | .mbox _ _ _ _ => s
    | .dev _ | .host _ _ _ =>
      if throughL1 cls acq a.place then
        let key := a.place.sector
        if s.sectorBusy core key then s
        else match (s.core core).l1Read key a.place.sectorByte a.bytes with
        | some bs => done ((s.modCore core fun k => k.l1Use key).sense by_ (.l1 core key)) (toVal bs)
        | none =>
          let need := (List.range a.bytes).all fun k => l.fmask.getLsbD k
          if need then done s 0
          else if s.reqs.any fun r => r.core == core && r.kind.filling.any fun q => q.1 == key then s
          else (s.askDcu core (s.ctxOf who) key .read).readAhead core (s.ctxOf who) cls a.va
      else if l.sent then s
      else
        let s := match a.place with | .dev _ | .host _ _ true => s.dieFlush (dieOf core) a.place.sector | _ => s
        let (s, ord) := s.takeOrd core cls
        (s.send core (s.ctxOf who) (.read who idx a.lane a.place a.bytes false) ord).setSent who idx a.lane

end Sys2Proof.Machine
end

