-- ==== Sys2Proof/Machine/Flags.lean ====
section
/-! DEFINITION. Completion flags and token registers: binding an engine operation at its issue, and what its
completion does to them (R131, R248, R260). The device has no arithmetic flags: a comparison's result is a value. -/

namespace Sys2Proof.Machine

/-- The flag a flag-capable instance binds to: SETF0 or SETF1 of its block's header, 1 to 12 naming f0 to f11 (R248). -/
def State.flagFor (s : State) (who : Who) (fsel : Bool) : Option Nat :=
  (s.blockOf who).bind fun b =>
    let f := if fsel then b.hdr.setf1 else b.hdr.setf0
    if f = 0 then none else some (f - 1)

/-- Issues that bind to a flag would raise its count above 64, and wait (R248). -/
def State.flagFull (s : State) (who : Who) (flag : Option Nat) (n : Nat) : Bool :=
  flag.any fun f => 64 < (s.flagsOf who).getD f 0 + n

/-- Bind an operation at its issue: the flag's count rises, the token register is awaited. -/
def State.bindOp (s : State) (who : Who) (flag : Option Nat) (tok : Option Nat) (scope : Scope) : State :=
  let s := match flag with
    | none => s
    | some f => (s.setFlags who fun l => listMod l f (· + 1)).setJoins who fun l => l ++ [(f, scope)]
  match tok with
  | none => s
  | some r => s.setTokens who fun l => l ++ [(r, scope, true)]

/-- The issuing thread of an operation still exists and is the one that issued it. -/
def State.issuerAlive (s : State) (o : EngOp) : Option Who :=
  match o.issuer with
  | none => none
  | some (.warp c sl t) => match s.warp? c sl with | some w => if w.ctx == o.ctx then some (.warp c sl t) else none | none => none
  | some (.ctl c x) => if (s.ctl? c x).isSome then some (.ctl c x) else none

/-- Write a token register (R260): it is no register write of a block. -/
def State.writeToken (s : State) (who : Who) (r : Nat) (v : DWord) : State :=
  match who with
  | .warp c sl _ => s.modWarp c sl fun w => { w with s := listMod w.s r fun _ => v }
  | .ctl c x => s.modCtl c x fun t => { t with s := listMod t.s r fun _ => v }

/-- The first outstanding token of a register is now written. -/
def tokenWritten : Nat → List (Nat × Scope × Bool) → List (Nat × Scope × Bool)
  | _, [] => []
  | r, (q, sc, out) :: t => if q = r && out then (q, sc, false) :: t else (q, sc, out) :: tokenWritten r t

/-- COMPLETE an operation's objects after its writes have been performed: the token register takes the status word,
the flag's count falls by 1 (R131, R248, R260). -/
def State.completeOp (s : State) (o : EngOp) (status : DWord) : State :=
  match s.issuerAlive o with
  | none => s
  | some who =>
    let s := match o.req.tok with
      | none => s
      | some r => (s.writeToken who r status).setTokens who (tokenWritten r)
    match o.flag with
    | none => s
    | some f => s.setFlags who fun l => listMod l f (· - 1)

end Sys2Proof.Machine
end

