-- ==== Sys2Proof/Machine/Handover.lean ====
section
/-! DEFINITION. Handover of host memory (R100 to R105): what a command does to the table, the TLBs and the L1s, in
its steps, for the host's commands and for HANDOFF alike. -/

namespace Sys2Proof.Machine

/-- A host place of a function in a run of pages. -/
def inPages (vf page n : Nat) : Place → Bool
  | .host v a _ => v == vf && page ≤ a / 4096 && a / 4096 < page + n
  | _ => false

/-- A sector of a function's host memory in a run of pages. -/
def SKey.inPages (k : SKey) (vf page n : Nat) : Bool := k.vf == some vf && page ≤ k.sec / 64 && k.sec / 64 < page + n

/-- A translation leads into a run of pages of a function. -/
def TlbEntry.meetsPages (e : TlbEntry) (vf page n : Nat) : Bool :=
  match e.out with
  | .host v a _ => v == vf && a < (page + n) * 4096 && page * 4096 < a + e.size
  | _ => false

/-! ## Accesses on their way -/

/-- A buffered effect makes an access that satisfies a test. -/
def Eff.accesses (e : Eff) (f : Place → Bool) : Bool :=
  match e with
  | .store _ _ accs _ | .red _ _ _ _ accs | .fqpop _ accs _ => accs.any fun q => f q.1.place
  | _ => false

/-- A request acts on a GL sector that satisfies a test, or brings it back. -/
def ReqKind.acts (k : ReqKind) (f : Place → Bool) : Bool :=
  k.sector.any (fun key => f (key.place 0)) || k.filling.any fun q => f (q.1.place 0)

/-- ACCESSES that have been translated to places that satisfy a test, and have not been performed, of the cores that satisfy another:
requests in flight or waiting at the die coherence unit, lanes that have not returned, buffered stores and REDs. The test is asked of
a sector's first byte where the request acts on a sector. -/
def State.accessing (s : State) (cores : Nat → Bool) (f : Place → Bool) : Bool :=
  let lanes (d : Pend) : Bool := d.lanes.any fun l => l.got.isNone && f l.acc.place
  s.reqs.any (fun r => cores r.core && r.kind.acts f) ||
  s.dies.any (fun (p : Nat × Die) => p.2.dreqs.any fun r => cores r.core && f (r.key.place 0)) ||
  s.cores.any fun (p : Nat × Core) => cores p.1 &&
    (p.2.warps.any (fun q => q.2.insts.any fun i => i.pends.any lanes || i.effs.any fun e => e.accesses f) ||
     p.2.ctls.any fun t => t.pend.any lanes)

/-- Accesses to a run of host pages of a function are on their way. -/
def State.pagesBusy (s : State) (vf page n : Nat) : Bool := s.accessing (fun _ => true) (inPages vf page n)

/-- The sectors of a run of pages that L1s hold. -/
def State.pagesHeld (s : State) (vf page n : Nat) : List SKey :=
  (s.cores.flatMap fun (p : Nat × Core) => (p.2.l1.map (·.key)).filter fun k => k.inPages vf page n).eraseDups

/-- Every core sends the flushing read for its posted writes to a function's host memory. -/
def State.flushPosted (s : State) (vf : Nat) : State :=
  { s with cores := s.cores.map fun (p : Nat × Core) => (p.1, p.2.askFlush vf) }

/-- Flushing reads of a function are out. -/
def State.flushingOut (s : State) (vf : Nat) : Bool := s.cores.any fun (p : Nat × Core) => p.2.flushing.contains vf

/-- Every L1 writes back and drops the sectors of a run of pages; write-backs of them on their way are performed. Flushing reads
follow (R101, R103). -/
def State.flushPages (s : State) (vf page n : Nat) : State :=
  let queued := s.reqs.filterMap fun r => match r.kind with | .write k _ _ none => if k.inPages vf page n then some k else none | _ => none
  let keys := (s.pagesHeld vf page n ++ queued).eraseDups
  (keys.foldl (fun s k => (List.range Config.seracDies).foldl (fun s d => s.dieFlush d k) s) s).flushPosted vf

/-! ## Commands -/

/-- A region of the table meets a run of pages. -/
def HandRegion.meets (h : HandRegion) (page n : Nat) : Bool := h.page < page + n && page < h.page + h.npages

/-- A region of the table that meets a run of pages is IN_TRANSIT. -/
def Vf.inTransit (v : Vf) (page n : Nat) : Bool := v.hand.any fun h => h.meets page n && h.transit

/-- Why a command whose turn has come is refused: the code of Table 4.7, or none. -/
def Vf.handRefusal (v : Vf) (toHost : Bool) (page n : Nat) : Option Nat :=
  if n = 0 || 1048576 < n then some 2
  else if toHost then (if v.hand.any fun h => h.page == page && h.npages == n then none else some 3)
  else if v.hand.any fun h => h.meets page n then some 3
  else if 256 ≤ v.hand.length then some 4
  else none

/-- BEGIN a handover: the region goes IN_TRANSIT on its way to the host; TLB entries and L1 sectors of its pages go
(R103 steps 1 to 3, R104). -/
def State.handBegin (s : State) (vf : Nat) (toHost : Bool) (page n : Nat) : State :=
  let s := if toHost then s.modVf vf fun v => { v with hand := mapIf (fun h => h.page == page && h.npages == n) (fun h => { h with transit := true }) v.hand }
    else s
  (s.tlbDropOut fun e => e.meetsPages vf page n).flushPages vf page n

/-- What a handover waits for (R103 step 4, R104): accesses already issued, and the flushing reads of the writes to the region, posted
uncached ones on the way to the device; on the way to the host also the L1s' sectors of it. -/
def State.handWaits (s : State) (vf : Nat) (toHost : Bool) (page n : Nat) : Bool :=
  s.pagesBusy vf page n || s.flushingOut vf || (toHost && !(s.pagesHeld vf page n).isEmpty)

/-- Accesses issued before the handover began have come to L1s meanwhile: their sectors are written back too (R103 step 3). -/
def State.handMore (s : State) (vf : Nat) (toHost : Bool) (page n : Nat) : State :=
  if toHost && !s.pagesBusy vf page n && !(s.pagesHeld vf page n).isEmpty then s.flushPages vf page n else s

/-- END a handover: the region leaves or enters the table (R103 step 5, R104); the code of Table 4.7. -/
def State.handEnd (s : State) (vf : Nat) (toHost : Bool) (page n : Nat) : State × Nat :=
  if toHost then (s.modVf vf fun v => { v with hand := v.hand.filter fun h => !(h.page == page && h.npages == n) }, 1)
  else match (s.vf vf).handRefusal false page n with
    | some code => (s, code)
    | none => (s.modVf vf fun v => { v with hand := v.hand ++ [{ page, npages := n }] }, 1)

/-- The region of a HANDOFF that an operation has begun: its first page, kept after the parameter block, and pages. -/
def EngOp.handing (o : EngOp) : Option (Nat × Nat) :=
  match o.req.kind with
  | .handoff _ => if o.phase == 1 then some ((o.params.getD 8 0).toNat, bitsOf (o.params.getD 1 0).toNat 31 0) else none
  | _ => none

/-- A HANDOFF of a region of a function has begun. -/
def State.opHanding (s : State) (vf : Nat) (p : Nat × Nat → Bool) : Bool :=
  s.cores.any fun (q : Nat × Core) => q.2.ops.any fun o => o.handing.any p && s.vfOf o.ctx == vf

/-- A command for a region follows one for the same region that has begun, or, among the host's commands, one of those that came
`before` it (R105). -/
def State.handBehind (s : State) (vf page n : Nat) (before : List HandCmd) : Bool :=
  let same (h : HandCmd) : Bool := h.page == page && h.npages == n
  before.any same || (s.vf vf).handCmds.any (fun h => h.begun && same h) || s.opHanding vf fun q => q == (page, n)

/-- Writes to host memory posted from now on need a flushing read after the one that is out: a region is IN_TRANSIT, a handover has
begun or an invalidation awaits it (R81, R103, R104). -/
def State.flushAgain (s : State) (vf : Nat) : Bool :=
  (s.vf vf).hand.any (·.transit) || (s.vf vf).inval.any (·.asked) || (s.vf vf).handCmds.any (·.begun) || s.opHanding vf fun _ => true

/-- The status word of a handover (Table 4.7). -/
def handStatus (code tag : Nat) : List (BitVec 8) := valBytes 8 (code % 256 + fieldAt tag 32 32)

/-- A host command ends: its status word, then MSI-X if asked (R103 step 6). -/
def State.handReport (s : State) (vf : Nat) (h : HandCmd) (code : Nat) : State :=
  let s := s.hostWrite vf h.staddr (handStatus code h.tag)
  if h.msix then s.msix vf 1 else s

/-- A host command leaves the list. -/
def State.handGone (s : State) (vf : Nat) (h : HandCmd) : State := s.modVf vf fun v => { v with handCmds := v.handCmds.erase h }

/-- A host command that waits for nothing goes on: it begins, or is refused, once every command for its region before it has ended;
and it ends. -/
def State.handStep (s : State) (vf : Nat) (h : HandCmd) : State :=
  let fin (s : State) (h : HandCmd) : State :=
    let s := s.handMore vf h.toHost h.page h.npages
    if s.handWaits vf h.toHost h.page h.npages then s
    else
      let (s, code) := s.handEnd vf h.toHost h.page h.npages
      (s.handGone vf h).handReport vf h code
  if h.begun then fin s h
  else if s.handBehind vf h.page h.npages ((s.vf vf).handCmds.takeWhile (· != h)) then s
  else match (s.vf vf).handRefusal h.toHost h.page h.npages with
    | some code => (s.handGone vf h).handReport vf h code
    | none =>
      let s := s.handBegin vf h.toHost h.page h.npages
      fin (s.modVf vf fun v => { v with handCmds := listMod v.handCmds (v.handCmds.idxOf h) fun q => { q with begun := true } }) { h with begun := true }

/-- Commands of a function that need wait no more go on, in the order they came. -/
def State.handPoll (s : State) (vf : Nat) : State := (s.vf vf).handCmds.foldl (fun s h => s.handStep vf h) s

/-- Commands of every function that need wait no more go on. -/
def State.handPollAll (s : State) : State :=
  (List.range s.vfs.length).foldl (fun s vf => if (s.vf vf).handCmds.isEmpty then s else s.handPoll vf) s

/-! ## Invalidation by the host (R81) -/

/-- ATS invalidations go on: one whose accesses have all been issued writes back the L1 sectors of its pages and sends the flushing
reads; one whose flushing reads are done is complete. -/
def State.invalPoll (s : State) : State :=
  (List.range s.vfs.length).foldl (fun s vf =>
    let ready := (s.vf vf).inval.filter fun q => !q.asked && !s.pagesBusy vf q.page q.npages
    let s := ready.foldl (fun s q => (s.flushPages vf q.page q.npages).modVf vf fun v => { v with inval := mapIf (· == q) (fun q => { q with asked := true }) v.inval }) s
    let done := if s.flushingOut vf then [] else (s.vf vf).inval.filter (·.asked)
    if done.isEmpty then s
    else s.modVf vf fun v => { v with inval := v.inval.filter fun q => !done.contains q, invDone := v.invDone + done.length }) s

/-- A request of the host waits at its function. -/
def State.postpone (s : State) (vf : Nat) (i : Instr) : State := s.modVf vf fun v => { v with posted := v.posted ++ [i] }

/-- What waits for accesses of the host's memory goes on. -/
def State.hostPoll (s : State) : State := s.handPollAll.invalPoll

end Sys2Proof.Machine
end

