-- ==== Sys2Proof/Machine/Numbers.lean ====
section
/-! DEFINITION. Number formats and exact arithmetic (chapter 7): values, rounding, conversion, the floating
operations on bits, DS8 and block scales, Philox, and the approximations. -/

namespace Sys2Proof.Machine

/-! ## Floating-point formats (Table 7.2) -/

/-- Parameters of a floating format: fraction bits, bias, largest finite code, infinity code, canonical NaN. -/
structure FSpec where
  width : Nat
  fbits : Nat
  bias  : Nat
  maxc  : Nat
  inf   : Option Nat
  nan   : Option Nat

end Sys2Proof.Machine

namespace Sys2Proof

/-- The parameters of a format (Table 7.2). -/
def Fmt.spec : Fmt → Machine.FSpec
  | .fp16 => ⟨16, 10, 15, 0x7BFF, some 0x7C00, some 0x7E00⟩
  | .bf16 => ⟨16, 7, 127, 0x7F7F, some 0x7F80, some 0x7FC0⟩
  | .e4m3 => ⟨8, 3, 7, 0x7E, none, some 0x7F⟩
  | .e5m2 => ⟨8, 2, 15, 0x7B, some 0x7C, some 0x7E⟩
  | .e2m1 => ⟨4, 1, 1, 0x7, none, none⟩
  | _ => ⟨32, 23, 127, 0x7F7FFFFF, some 0x7F800000, some 0x7FC00000⟩

/-- The range of an integer format (R161). -/
def Fmt.intRange : Fmt → Option (Int × Int)
  | .int32 => some (-2147483648, 2147483647)
  | .int8 => some (-128, 127)
  | .int4 => some (-8, 7)
  | .nat32 => some (0, 4294967295)
  | .nat8 => some (0, 255)
  | _ => none

def Fmt.signedInt : Fmt → Bool
  | .int32 | .int8 | .int4 => true
  | _ => false

end Sys2Proof

namespace Sys2Proof.Machine

/-- A value: NaN, an infinity with its sign, or a finite value ±m × 2^e with its sign (R155). -/
inductive FVal where
  | nan
  | inf (neg : Bool)
  | fin (neg : Bool) (m : Nat) (e : Int)
  deriving DecidableEq, Repr

/-- The value of a code (R155). -/
def fval (f : Fmt) (bits : Nat) : FVal :=
  let p := f.spec
  let mag := bits % 2 ^ (p.width - 1)
  let neg := bits / 2 ^ (p.width - 1) % 2 == 1
  if p.maxc < mag then (if p.inf == some mag then .inf neg else .nan)
  else
    let ex := mag / 2 ^ p.fbits
    let fr := mag % 2 ^ p.fbits
    if ex == 0 then .fin neg fr (1 - (p.bias : Int) - p.fbits)
    else .fin neg (2 ^ p.fbits + fr) ((ex : Int) - p.bias - p.fbits)

/-- A subnormal code of a format (nonzero, exponent field 0). -/
def isSubnormal (f : Fmt) (bits : Nat) : Bool :=
  let mag := bits % 2 ^ (f.spec.width - 1)
  mag != 0 && mag / 2 ^ f.spec.fbits == 0

/-- A code with its sign bit. -/
def withSign (f : Fmt) (neg : Bool) (mag : Nat) : Nat := if neg then mag + 2 ^ (f.spec.width - 1) else mag

/-- Flush a subnormal operand of FP32, FP16 or BF16 to a zero of its sign (R158). -/
def flushIn (f : Fmt) (ftz : Bool) (bits : Nat) : Nat :=
  if ftz && f.flushable && isSubnormal f bits then withSign f (bits / 2 ^ (f.spec.width - 1) % 2 == 1) 0 else bits

/-! ## Rounding (R166 to R168) -/

/-- A mode with the random operand of SR and its width (R167). -/
structure RMode where
  rnd : Rnd
  r   : Nat := 0
  n   : Nat := 0

/-- Round a discarded fraction rem/den above quotient k (R167). -/
def roundUp (m : RMode) (neg : Bool) (k rem den : Nat) : Bool :=
  match m.rnd with
  | .rne => den < 2 * rem || (2 * rem == den && k % 2 == 1)
  | .rz => false
  | .ru => rem != 0 && !neg
  | .rd => rem != 0 && neg
  | .sr => 2 ^ m.n ≤ rem * 2 ^ m.n / den + m.r

/-- floor(log2(num / den)) for num, den > 0. -/
def log2Ratio (num den : Nat) : Int :=
  let e := (num.log2 : Int) - den.log2
  let ge := if 0 ≤ e then den * 2 ^ e.toNat ≤ num else den ≤ num * 2 ^ (-e).toNat
  if ge then e else e - 1

/-- The canonical NaN of a format; E2M1 has none and takes +0 (Table 7.4). -/
def nanCode (f : Fmt) : Nat := f.spec.nan.getD 0

/-- Overflow(s, mode) (Table 7.6). -/
def overflowCode (f : Fmt) (rnd : Rnd) (sat neg : Bool) : Nat :=
  let p := f.spec
  let big := withSign f neg p.maxc
  if sat || f == .e2m1 then big
  else
    let up := match p.inf with | some i => withSign f neg i | none => p.nan.getD 0
    match rnd with
    | .rne | .sr => up
    | .rz => big
    | .ru => if neg then big else up
    | .rd => if neg then up else big

/-- Round(±num/den × 2^exp, mode) to a floating format, num > 0 (R167), with .ftz (R158) and .sat. -/
def roundTo (f : Fmt) (m : RMode) (ftz sat neg : Bool) (num den : Nat) (exp : Int) : Nat :=
  let p := f.spec
  let emin : Int := 1 - p.bias
  let e := max (log2Ratio num den + exp) emin
  let q : Int := e - p.fbits
  let sh := exp - q
  let num' := if 0 ≤ sh then num * 2 ^ sh.toNat else num
  let den' := if 0 ≤ sh then den else den * 2 ^ (-sh).toNat
  let k := num' / den'
  let k := if roundUp m neg k (num' % den') den' then k + 1 else k
  let code := (e - emin).toNat * 2 ^ p.fbits + k
  if p.maxc < code then overflowCode f m.rnd sat neg
  else if ftz && f.flushable && code < 2 ^ p.fbits then withSign f neg 0
  else withSign f neg code

/-- An infinity in a format: with .sat the largest finite value; E4M3 gives its NaN, E2M1 ±6 (Table 7.4). -/
def infCode (f : Fmt) (sat neg : Bool) : Nat :=
  if sat || f == .e2m1 then withSign f neg f.spec.maxc
  else match f.spec.inf with | some i => withSign f neg i | none => nanCode f

/-! ## Arithmetic with one rounding (R309, R310, Table 14.2) -/

/-- The sign of an exact zero sum of two terms (R159). -/
def zeroSumNeg (rnd : Rnd) (n1 n2 : Bool) : Bool := if n1 == n2 then n1 else rnd == .rd

/-- A finite value as an integer at exponent `e0`, at most its own. -/
def alignInt (neg : Bool) (m : Nat) (e e0 : Int) : Int :=
  let v : Int := (m * 2 ^ (e - e0).toNat : Nat)
  if neg then -v else v

/-- The rounded sum of two finite values. -/
def sumFin (f : Fmt) (m : RMode) (ftz : Bool) (n1 : Bool) (m1 : Nat) (e1 : Int) (n2 : Bool) (m2 : Nat) (e2 : Int) : Nat :=
  let e0 := min e1 e2
  let v := alignInt n1 m1 e1 e0 + alignInt n2 m2 e2 e0
  if v == 0 then withSign f (zeroSumNeg m.rnd n1 n2) 0
  else roundTo f m ftz false (decide (v < 0)) v.natAbs 1 e0

/-- Sum of two values, the exact result rounded once. -/
def fAdd (f : Fmt) (m : RMode) (ftz : Bool) (x y : FVal) : Nat :=
  match x, y with
  | .nan, _ | _, .nan => nanCode f
  | .inf a, .inf b => if a == b then infCode f false a else nanCode f
  | .inf a, .fin _ _ _ => infCode f false a
  | .fin _ _ _, .inf b => infCode f false b
  | .fin n1 m1 e1, .fin n2 m2 e2 => sumFin f m ftz n1 m1 e1 n2 m2 e2

/-- A value negated. -/
def FVal.negate : FVal → FVal
  | .nan => .nan
  | .inf n => .inf (!n)
  | .fin n m e => .fin (!n) m e

/-- The exact product of two values; 0 × ∞ is NaN. -/
def FVal.mul (x y : FVal) : FVal :=
  match x, y with
  | .nan, _ | _, .nan => .nan
  | .inf a, .inf b => .inf (a != b)
  | .inf a, .fin b m _ | .fin b m _, .inf a => if m == 0 then .nan else .inf (a != b)
  | .fin n1 m1 e1, .fin n2 m2 e2 => .fin (n1 != n2) (m1 * m2) (e1 + e2)

/-- A value rounded to a format. -/
def roundVal (f : Fmt) (m : RMode) (ftz sat : Bool) (x : FVal) : Nat :=
  match x with
  | .nan => nanCode f
  | .inf n => infCode f sat n
  | .fin n v e => if v == 0 then withSign f n 0 else roundTo f m ftz sat n v 1 e

def fMul (f : Fmt) (m : RMode) (ftz : Bool) (x y : FVal) : Nat := roundVal f m ftz false (x.mul y)

/-- x × y + z, rounded once; the product is not rounded. -/
def fFma (f : Fmt) (m : RMode) (ftz : Bool) (x y z : FVal) : Nat := fAdd f m ftz (x.mul y) z

def fDiv (f : Fmt) (m : RMode) (ftz : Bool) (x y : FVal) : Nat :=
  match x, y with
  | .nan, _ | _, .nan => nanCode f
  | .inf _, .inf _ => nanCode f
  | .inf a, .fin b _ _ => infCode f false (a != b)
  | .fin a _ _, .inf b => withSign f (a != b) 0
  | .fin n1 m1 e1, .fin n2 m2 e2 =>
    if m2 == 0 then (if m1 == 0 then nanCode f else infCode f false (n1 != n2))
    else if m1 == 0 then withSign f (n1 != n2) 0
    else roundTo f m ftz false (n1 != n2) m1 m2 (e1 - e2)

/-- The integer square root, found bit by bit from bit `k - 1` down. -/
def isqrtFrom (n : Nat) : Nat → Nat → Nat
  | 0, r => r
  | k + 1, r => let t := r + 2 ^ k; isqrtFrom n k (if t * t ≤ n then t else r)

def isqrt (n : Nat) : Nat := isqrtFrom n (n.log2 / 2 + 1) 0

/-- The square root, correctly rounded: 40 extra pairs of bits and a sticky bit fix every rounding. -/
def fSqrt (f : Fmt) (m : RMode) (ftz : Bool) (x : FVal) : Nat :=
  match x with
  | .nan => nanCode f
  | .inf n => if n then nanCode f else infCode f false false
  | .fin n v e =>
    if v == 0 then withSign f n 0
    else if n then nanCode f
    else
      let v := if e % 2 == 0 then v else 2 * v
      let e := if e % 2 == 0 then e else e - 1
      let big := v * 2 ^ 80
      let r := isqrt big
      roundTo f m ftz false false (2 * r + (if r * r == big then 0 else 1)) 1 (e / 2 - 41)

/-- x × 2^y (FLDEXP); an exponent beyond ±1000 rounds as ±1000 does, since the result is then 0, least or
infinite in every format. -/
def fLdexp (f : Fmt) (m : RMode) (ftz : Bool) (x : FVal) (y : Int) : Nat :=
  match x with
  | .fin n v e => roundVal f m ftz false (.fin n v (e + max (-1000) (min 1000 y)))
  | x => roundVal f m ftz false x

/-- x < y of finite or infinite values, zeros equal. -/
def FVal.lt (x y : FVal) : Bool :=
  match x, y with
  | .nan, _ | _, .nan => false
  | .inf a, .inf b => a && !b
  | .inf a, _ => a
  | _, .inf b => !b
  | .fin n1 m1 e1, .fin n2 m2 e2 =>
    let e0 := min e1 e2
    decide (alignInt n1 m1 e1 e0 < alignInt n2 m2 e2 e0)

def FVal.isNan : FVal → Bool
  | .nan => true
  | _ => false

def FVal.isNeg : FVal → Bool
  | .nan => false
  | .inf n => n
  | .fin n _ _ => n

def FVal.isZero : FVal → Bool
  | .fin _ m _ => m == 0
  | _ => false

/-- x below y with −0 ordered below +0 (R312). -/
def FVal.below (x y : FVal) : Bool := x.lt y || (!(y.lt x) && x.isNeg && !y.isNeg)

/-- Minimum or maximum of two codes (R312): `num` is minimumNumber or maximumNumber. -/
def fMinMax (f : Fmt) (isMax num : Bool) (a b : Nat) : Nat :=
  let x := fval f a
  let y := fval f b
  if x.isNan && y.isNan then nanCode f
  else if x.isNan then (if num then b else nanCode f)
  else if y.isNan then (if num then a else nanCode f)
  else if isMax then (if x.below y then b else a)
  else (if y.below x then b else a)

/-- An FCMP relation (Table 14.3). -/
def fCompare (rel : FCmpRel) (x y : FVal) : Bool :=
  let un := x.isNan || y.isNan
  match rel with
  | .eq => !un && !(x.lt y) && !(y.lt x)
  | .ne => un || x.lt y || y.lt x
  | .lt => x.lt y
  | .le => !un && !(y.lt x)
  | .gt => y.lt x
  | .ge => !un && !(x.lt y)
  | .unordered => un
  | .ordered => !un

/-- The FCLASS mask of an FP32 code (Table 14.4). -/
def fClass (b : Nat) : Nat :=
  let neg := b / 2 ^ 31 == 1
  let ex := b / 2 ^ 23 % 256
  let fr := b % 2 ^ 23
  if ex == 255 then (if fr == 0 then (if neg then 4 else 512) else if fr / 2 ^ 22 == 1 then 2 else 1)
  else if ex == 0 then (if fr == 0 then (if neg then 32 else 64) else if neg then 16 else 128)
  else if neg then 8 else 256

/-- A magnitude ±num/den rounded to an integer (R170, R315). -/
def roundInt (m : RMode) (neg : Bool) (num den : Nat) : Int :=
  let k := num / den
  let k := if roundUp m neg k (num % den) den then k + 1 else k
  if neg then -(k : Int) else k

/-- The magnitude m × 2^e as a fraction. -/
def fracOf (m : Nat) (e : Int) : Nat × Nat := if 0 ≤ e then (m * 2 ^ e.toNat, 1) else (m, 2 ^ (-e).toNat)

/-- FRND of an FP32 code (R315). -/
def fRound (m : RMode) (b : Nat) : Nat :=
  match fval .fp32 b with
  | .nan => nanCode .fp32
  | .inf _ => b
  | .fin n v e =>
    if 2 ^ 23 * 2 ^ 149 ≤ v * 2 ^ (e + 149).toNat then b
    else
      let (num, den) := fracOf v e
      let k := (roundInt m n num den).natAbs
      if k == 0 then withSign .fp32 n 0 else roundTo .fp32 ⟨.rne, 0, 0⟩ false false n k 1 0

/-! ## Conversions (R169, R170) -/

def clampInt (v lo hi : Int) : Int := if v < lo then lo else if hi < v then hi else v

/-- The low bits of an integer. -/
def intBits (v : Int) (w : Nat) : Nat := (v % (2 ^ w : Nat)).toNat

/-- The value of an integer code. -/
def intVal (f : Fmt) (bits : Nat) : Int :=
  let w := f.width
  let b := bits % 2 ^ w
  if f.signedInt && 2 ^ (w - 1) ≤ b then (b : Int) - (2 ^ w : Nat) else b

/-- A floating value to an integer format (R170). -/
def floatToInt (m : RMode) (lo hi : Int) (x : FVal) : Int :=
  match x with
  | .nan => 0
  | .inf n => if n then lo else hi
  | .fin n v e => let (num, den) := fracOf v e; clampInt (roundInt m n num den) lo hi

/-- The value of an E8M0 byte (R162). -/
def scaleVal (e : Nat) : FVal := if e % 256 == 255 then .nan else .fin false 1 ((e % 256 : Nat) - (127 : Int))

/-- Convert(x, FROM, TO, RND, SAT) of one element, its wT result bits (R169, R170, R319). An infinity that goes to its own format with
.sat becomes the largest finite value, by Table 7.4 and R318, although R169 returns the input there (log 50). -/
def convert (src dst : Fmt) (m : RMode) (ftz sat : Bool) (bits : Nat) : Nat :=
  let b := bits % 2 ^ src.width
  match src.intRange, dst.intRange with
  | none, none =>
    if src == .e8m0 then roundVal dst m ftz sat (scaleVal b)
    else roundVal dst m ftz sat (fval src (flushIn src ftz b))
  | none, some (lo, hi) => intBits (floatToInt m lo hi (fval src (flushIn src ftz b))) dst.width
  | some _, none =>
    let v := intVal src b
    if v == 0 then 0 else roundTo dst m ftz sat (decide (v < 0)) v.natAbs 1 0
  | some _, some (lo, hi) =>
    let v := intVal src b
    if sat && dst.width ≤ src.width then intBits (clampInt v lo hi) dst.width else intBits v dst.width

/-- A single result in a 32-bit token: INT8 and INT4 sign-extended, others zero-extended (R318). -/
def placeResult (dst : Fmt) (bits : Nat) : Word :=
  match dst with
  | .int8 | .int4 => BitVec.ofInt 32 (intVal dst bits)
  | _ => BitVec.ofNat 32 (bits % 2 ^ dst.width)

/-- Element j of a packed word (R164). -/
def elemOf (f : Fmt) (word j : Nat) : Nat := word / 2 ^ (f.width * j) % 2 ^ f.width

/-! ## DS8 (R163, R324, R325) -/

/-- 64 × v of a half code (Table 7.5). -/
def ds8Half (h : Nat) : Int :=
  let s := h % 8
  let v : Int := if s == 7 then 0 else (2 ^ (6 - s) : Nat)
  if h / 8 % 2 == 1 then -v else v

/-- W = 64 × w of a DS8 byte. -/
def ds8Val (b : Nat) : Int := ds8Half (b % 16) + ds8Half (b / 16 % 16)

/-- The exponent of a power of two from 1 to 64. -/
def pow2Exp (n : Nat) : Option Nat := (List.range 7).find? fun i => 2 ^ i == n

/-- The half code of ±2^i. -/
def ds8Code (neg : Bool) (i : Nat) : Nat := (6 - i) + (if neg then 8 else 0)

/-- The split W = P + Q of R324: P of least magnitude for which a power of two Q with |Q| ≤ |P| exists. -/
def ds8Split (w : Int) : Option (Int × Int) :=
  let ps := (List.range 7).flatMap fun i => [((2 ^ i : Nat) : Int), -((2 ^ i : Nat) : Int)]
  (ps.find? fun p => let q := w - p; (pow2Exp q.natAbs).isSome && q.natAbs ≤ p.natAbs).map fun p => (p, w - p)

/-- Canon(W) (R324). -/
def ds8Canon (w : Int) : Nat :=
  if w == 0 then 0x77
  else
    match pow2Exp w.natAbs with
    | some i => ds8Code (decide (w < 0)) i + 0x70
    | none =>
      match ds8Split w with
      | none => 0x77
      | some (p, q) =>
        ds8Code (decide (p < 0)) ((pow2Exp p.natAbs).getD 0) + 16 * ds8Code (decide (q < 0)) ((pow2Exp q.natAbs).getD 0)

/-- The magnitudes of V (R324), rising. -/
def ds8Mags : List Nat := (List.range 129).filter fun w =>
  w == 0 || (pow2Exp w).isSome || (ds8Split w).isSome

/-- DSENC of a value: the nearest of V to 64x, a tie going to the smaller magnitude (R324). -/
def dsEncode (x : FVal) : Nat :=
  match x with
  | .nan => 0x77
  | .inf n => ds8Canon (if n then -128 else 128)
  | .fin n m e =>
    let (num, den) := fracOf m (e + 6)
    if 128 * den ≤ num then ds8Canon (if n then -128 else 128)
    else
      let dist (w : Nat) : Nat := (((num : Int) - (w * den : Nat))).natAbs
      let best := ds8Mags.foldl (fun b w => if dist w < dist b then w else b) 0
      ds8Canon (if n then -(best : Int) else best)

/-- The value of a DS8 byte. -/
def dsDecode (b : Nat) : FVal := let w := ds8Val b; .fin (decide (w < 0)) w.natAbs (-6)

/-! ## Block scales (R326, R327) -/

/-- The E8M0 scale SCALEQ chooses for magnitude |x|, target code `t` (R326). -/
def scaleFor (x : FVal) (t : Nat) : Nat :=
  if t != 7 && t != 9 then 0xFF
  else
    let k : Int := if t == 7 then 6 else 0
    match x with
    | .nan | .inf _ => 0xFF
    | .fin _ m e => if m == 0 then 0x7F else (min 254 (max 0 ((m.log2 : Int) + e - k + 127))).toNat

/-- QUANT of an element by a scale byte (R327); the INT8 result is the low 8 bits. -/
def quantise (toInt8 : Bool) (m : RMode) (x : FVal) (scale : Nat) : Nat :=
  if x.isNan || scale % 256 == 255 then (if toInt8 then 0 else 0x77)
  else
    let q := match x with | .fin n v e => FVal.fin n v (e + 127 - (scale % 256 : Nat)) | x => x
    if toInt8 then intBits (floatToInt m (-128) 127 q) 8 else dsEncode q

/-! ## Philox-4x32-10 (R173) -/

/-- One round. -/
def philoxRound (c : Word × Word × Word × Word) (k0 k1 : Word) : Word × Word × Word × Word :=
  let (c0, c1, c2, c3) := c
  let a := (0xD2511F53 : BitVec 64) * c0.setWidth 64
  let b := (0xCD9E8D57 : BitVec 64) * c2.setWidth 64
  (highHalf b ^^^ c1 ^^^ k0, lowHalf b, highHalf a ^^^ c3 ^^^ k1, lowHalf a)

/-- `n` rounds, the key raised before each but the first. -/
def philoxRounds : Nat → (Word × Word × Word × Word) → Word → Word → (Word × Word × Word × Word)
  | 0, c, _, _ => c
  | n + 1, c, k0, k1 => philoxRounds n (philoxRound c k0 k1) (k0 + 0x9E3779B9) (k1 + 0xBB67AE85)

def philox (c0 c1 c2 c3 k0 k1 : Word) : Word × Word × Word × Word := philoxRounds 10 (c0, c1, c2, c3) k0 k1

/-- The random word of one lane (R172). -/
def rngWord (seed : DWord) (inst : Word) (gwn : Nat) (iter : BitVec 5) (idx : Nat) (rngw : Word) (lane : Nat) : Word :=
  let c2 := fieldAt' (lane / 4) 19 + fieldAt' iter.toNat 14 + fieldAt' (idx % 64) 8 + gwn / 2 ^ 32 % 32
  let (w0, w1, w2, w3) := philox inst (BitVec.ofNat 32 gwn) (BitVec.ofNat 32 c2) rngw (lowHalf seed) (highHalf seed)
  match lane % 4 with | 0 => w0 | 1 => w1 | 2 => w2 | _ => w3
where
  fieldAt' (v lo : Nat) : Nat := v * 2 ^ lo

/-! ## Approximations (R316, R317, log 20) -/

/-- A result lies within `bound` of the exact value, wherever in its enclosure [lo, hi] the exact value lies; all in units of
2^-200. -/
def withinBound (y : FVal) (lo hi bound : Int) : Bool :=
  match y with
  | .nan => false
  | .inf n => close (if n then -((2 ^ 328 : Nat) : Int) else (2 ^ 328 : Nat))
  | .fin n m e => close (alignInt n m (e + 200) 0)
where
  close (v : Int) : Bool := decide (hi - bound ≤ v) && decide (v ≤ lo + bound)

/-- 2^-200 units of one ulp of FP32 at a magnitude given in those units. -/
def ulp200 (v : Nat) : Int := ((2 ^ (max (v.log2) 74 - 23) : Nat) : Int)

/-- ln 2 and π as fractions of 2^128 and 2^320. -/
def ln2Fix : Nat := 0xb17217f7d1cf79abc9e3b39803f2f6af
def piFix : Nat := 0x3243f6a8885a308d313198a2e03707344a4093822299f31d0082efa98ec4e6c89452821e638d01377

/-- The alternating or plain exponential series of t / 2^p: Σ t^k / k!, each term floored. -/
def expTerms (p t : Nat) : Nat → Nat → Nat → Nat
  | 0, _, _ => 0
  | n + 1, k, term => term + expTerms p t n (k + 1) (term * t / 2 ^ p / (k + 1))

/-- 2^(f / 2^128) × 2^128, f below 2^128. -/
def exp2Fix (f : Nat) : Nat := expTerms 128 (f * ln2Fix / 2 ^ 128) 40 0 (2 ^ 128)

/-- The fraction bits of log2 of m / 2^p, m in [2^p, 2^(p+1)), by repeated squaring: `n` bits. -/
def log2Bits (p : Nat) : Nat → Nat → Nat → Nat
  | 0, _, acc => acc
  | n + 1, m, acc =>
    let sq := m * m / 2 ^ p
    if 2 ^ (p + 1) ≤ sq then log2Bits p n (sq / 2) (2 * acc + 1) else log2Bits p n sq (2 * acc)

/-- sin and cos of t / 2^160, |t| ≤ π, in units of 2^-160: Σ (−1)^k t^(2k+o) / (2k+o)!. -/
def trigTerms (t : Int) : Nat → Nat → Int → Int
  | 0, _, _ => 0
  | n + 1, k, term => term - trigTerms t n (k + 2) (term * t / 2 ^ 160 * t / 2 ^ 160 / ((k + 1) * (k + 2) : Nat))

/-- An FP32 operand reduced modulo 2π: units of 2^-160 in (−π, π]. -/
def reduceAngle (n : Bool) (m : Nat) (e : Int) : Int :=
  let twoPi := 2 * piFix
  let v := if 0 ≤ e + 320 then m * 2 ^ (e + 320).toNat else m / 2 ^ (-(e + 320)).toNat
  let r := v % twoPi
  let r : Int := if twoPi < 2 * r then (r : Int) - twoPi else r
  let r := r / ((2 ^ 160 : Nat) : Int)
  if n then -r else r

/-- The value nearest a 2^-200 fraction. -/
def nearest200 (v : Int) (ftz : Bool) : Nat :=
  if v == 0 then 0 else roundTo .fp32 ⟨.rne, 0, 0⟩ ftz false (decide (v < 0)) v.natAbs 1 (-200)

/-- The approximation's result: the free value where it meets the bound, otherwise the value nearest the
exact one; with .ftz a subnormal result is a zero of its sign. -/
def approxPick (fn : Config.ApproxFn) (x : Nat) (ftz unit : Bool) (lo hi bound : Int) : Nat :=
  let y := (Config.approx fn (BitVec.ofNat 32 x)).toNat
  let okUnit := !unit || y % 2 ^ 31 ≤ 0x3F800000
  if withinBound (fval .fp32 y) lo hi bound && okUnit then flushIn .fp32 ftz y else nearest200 ((lo + hi) / 2) ftz

/-- FRCP, FRSQ, FEX2, FLG2, FSIN and FCOS of a prepared FP32 operand (Tables 14.5, 14.6). -/
def approximate (fn : Config.ApproxFn) (ftz : Bool) (x : Nat) : Nat :=
  let exact (n : Bool) (m : Nat) (e : Int) : Nat := roundVal .fp32 ⟨.rne, 0, 0⟩ ftz false (.fin n m e)
  let isPow2 (m : Nat) : Bool := m == 2 ^ m.log2
  match fn, fval .fp32 x with
  | _, .nan => nanCode .fp32
  | .rcp, .inf n => withSign .fp32 n 0
  | .rcp, .fin n m e =>
    if m == 0 then infCode .fp32 false n
    else if isPow2 m && (-(e + m.log2) ≥ (-126 : Int) && -(e + m.log2) ≤ (127 : Int)) then exact n 1 (-(e + m.log2))
    else
      let v := 2 ^ (200 + (-e).toNat) / (m * 2 ^ e.toNat)
      let sgn (z : Int) : Int := if n then -z else z
      approxPick fn x ftz false (min (sgn v) (sgn (v + 1))) (max (sgn v) (sgn (v + 1))) (ulp200 v)
  | .rsq, .inf n => if n then nanCode .fp32 else 0
  | .rsq, .fin n m e =>
    if m == 0 then infCode .fp32 false n
    else if n then nanCode .fp32
    else
      let k := e + m.log2
      if isPow2 m && k % 2 == 0 then exact false 1 (-(k / 2))
      else
        let v := isqrt (2 ^ (400 + (-e).toNat) / (m * 2 ^ e.toNat))
        approxPick fn x ftz false v (v + 1) (2 * ulp200 v)
  | .ex2, .inf n => if n then 0 else infCode .fp32 false false
  | .ex2, .fin n m e =>
    let (num, den) := fracOf m e
    if !n && 128 * den ≤ num then infCode .fp32 false false
    else if n && (150 * den ≤ num || (ftz && 126 * den < num)) then 0
    else
      let i : Int := if n then -((num + den - 1) / den : Nat) else (num / den : Nat)
      let f := if n then ((num + den - 1) / den * den - num) else num % den
      if f == 0 && -126 ≤ i then exact false 1 i
      else
        let v := exp2Fix (f * 2 ^ 128 / den)
        let sh := i + 72
        let v := if 0 ≤ sh then v * 2 ^ sh.toNat else v / 2 ^ (-sh).toNat
        let slack : Int := if 0 ≤ sh then (2 ^ (sh.toNat + 16) : Nat) else 2
        approxPick fn x ftz false (v - slack) (v + slack) (2 * ulp200 v)
  | .lg2, .inf n => if n then nanCode .fp32 else infCode .fp32 false false
  | .lg2, .fin n m e =>
    if m == 0 then infCode .fp32 false true
    else if n then nanCode .fp32
    else
      let k := e + m.log2
      if isPow2 m && -126 ≤ k then exact (decide (k < 0)) k.natAbs 0
      else
        let frac := log2Bits 160 60 (m * 2 ^ 160 / 2 ^ m.log2) 0
        let v : Int := (k * (2 ^ 60 : Nat) + frac) * (2 ^ 140 : Nat)
        let near1 : Bool := k == 0 || k == -1
        let bound : Int := if near1 then (2 ^ 178 : Nat) else 2 * ulp200 v.natAbs
        approxPick fn x ftz false v (v + (2 ^ 141 : Nat)) bound
  | .sin, .inf _ | .cos, .inf _ => nanCode .fp32
  | .sin, .fin n m e =>
    if m == 0 then withSign .fp32 n 0
    else
      let t := reduceAngle n m e
      let v := trigTerms t 60 1 t * (2 ^ 40 : Nat)
      approxPick fn x ftz true (v - (2 ^ 80 : Nat)) (v + (2 ^ 80 : Nat)) (2 ^ 179 : Nat)
  | .cos, .fin n m e =>
    if m == 0 then 0x3F800000
    else
      let t := reduceAngle n m e
      let v := trigTerms t 60 0 (2 ^ 160 : Nat) * (2 ^ 40 : Nat)
      approxPick fn x ftz true (v - (2 ^ 80 : Nat)) (v + (2 ^ 80 : Nat)) (2 ^ 179 : Nat)

/-! ## Fixed trees (R178 to R180) -/

/-- One level of the pairwise tree: an absent side passes the other unchanged. -/
def treeLevel {α : Type} (op : α → α → α) : List (Option α) → List (Option α)
  | [] => []
  | [a] => [a]
  | a :: b :: t =>
    (match a, b with
      | some x, some y => some (op x y)
      | some x, none => some x
      | none, y => y) :: treeLevel op t

/-- The root of the tree after `n` levels. -/
def treeRoot {α : Type} (op : α → α → α) (n : Nat) (l : List (Option α)) : Option α :=
  match n with
  | 0 => (l.headD none)
  | k + 1 => treeRoot op k (treeLevel op l)

end Sys2Proof.Machine
end

