-- ==== Sys2Proof/Machine/Layout.lean ====
section
/-! DEFINITION. Layout descriptors: fields, malformed descriptors, where an element lies, the swizzle, tiles
(chapter 8). -/

namespace Sys2Proof.Machine

/-- The format a code assigns (Table 7.1). -/
def fmtOf (code : Nat) : Option Fmt :=
  match code with
  | 0 => some .fp32 | 1 => some .fp16 | 2 => some .bf16 | 3 => some .e4m3 | 4 => some .e5m2 | 5 => some .e2m1
  | 6 => some .int32 | 7 => some .int8 | 8 => some .int4 | 9 => some .ds8 | 10 => some .e8m0 | 11 => some .nat32 | 12 => some .nat8
  | _ => none

/-- A layout descriptor (Table 8.1). -/
structure Desc where
  raw : Nat
  deriving DecidableEq, Repr

def Desc.fmtCode (d : Desc) : Nat := bitsOf d.raw 3 0
def Desc.fmt (d : Desc) : Fmt := (fmtOf d.fmtCode).getD .fp32
def Desc.rank (d : Desc) : Nat := bitsOf d.raw 6 4
def Desc.tord (d : Desc) : Bool := d.raw.testBit 8
def Desc.pack (d : Desc) : Bool := d.raw.testBit 9
def Desc.swz (d : Desc) : Nat := bitsOf d.raw 11 10
def Desc.scl (d : Desc) : Bool := d.raw.testBit 12
/-- Tile extent t_d. -/
def Desc.tile (d : Desc) (k : Nat) : Nat := bitsOf d.raw (23 + 8 * k) (16 + 8 * k) + 1
/-- SIZE_d as the field holds it. -/
def Desc.sizeField (d : Desc) (k : Nat) : Nat := bitsOf d.raw (95 + 32 * k) (64 + 32 * k)
/-- Extent of dimension d: SIZE_d, or 1 beyond the rank (R183). -/
def Desc.size (d : Desc) (k : Nat) : Nat := if k < d.rank then d.sizeField k else 1
def Desc.stride (d : Desc) (k : Nat) : Int := signedOf (bitsOf d.raw (271 + 48 * k) (224 + 48 * k)) 48
def Desc.scoff (d : Desc) : Int := signedOf (bitsOf d.raw 511 464) 48

/-- Elements of a tile. -/
def Desc.tileElems (d : Desc) : Nat := ((List.range 5).map d.tile).foldl (· * ·) 1

/-- Bits an element takes in a tile. -/
def Desc.elemBits (d : Desc) : Nat := if d.fmt.width = 4 && d.pack then 8 else d.fmt.width

/-- Bytes of a tile (S of R192). -/
def Desc.tileBytes (d : Desc) : Nat := d.tileElems * d.elemBits / 8

/-- Malformed descriptors (R183). -/
def Desc.malformed (d : Desc) : Bool :=
  let used := List.range d.rank
  let rest := (List.range 5).drop d.rank
  bitsOf d.raw 63 56 != 0 || bitsOf d.raw 15 13 != 0 || d.raw.testBit 7 || (fmtOf d.fmtCode).isNone || d.swz == 3 ||
  d.rank == 0 || 5 < d.rank || used.any (fun k => d.sizeField k == 0) ||
  rest.any (fun k => d.sizeField k != 0 || d.tile k != 1 || d.stride k != 0) ||
  (d.pack && d.fmt != .e2m1 && d.fmt != .int4) ||
  d.tileElems * d.elemBits % 8 != 0 || 65536 < d.tileBytes ||
  used.any (fun k => d.stride k % (max 1 (d.fmt.width / 8) : Nat) != 0) ||
  (d.scl && ((d.fmt != .ds8 && d.fmt != .int8) || d.size 0 % 128 != 0 || 128 % d.tile 0 != 0)) ||
  (d.swz != 0 && used.any fun k => d.stride k % 2048 != 0)

/-- Elements of the tensor. -/
def Desc.count (d : Desc) : Nat := ((List.range 5).map d.size).foldl (· * ·) 1

/-- The coordinates of the n-th element, dimension 0 fastest. -/
def coords (ext : Nat → Nat) (n : Nat) : List Nat :=
  ((List.range 5).foldl (fun (r : List Nat × Nat) k => (r.1 ++ [r.2 % ext k], r.2 / ext k)) ([], n)).1

/-- The position of coordinates that lie in the box `ext`, dimension 0 fastest. -/
def indexOf (ext : Nat → Nat) (c : List Nat) : Nat := (List.range 5).foldr (fun k r => r * ext k + c.getD k 0) 0

/-- SWIZZLE a byte offset (R187). -/
def swizzle (o : Int) (mode : Nat) : Int :=
  let low := (o % 2048).toNat
  let f : Nat := match mode with
    | 1 => (bitsOf low 6 3 ^^^ bitsOf low 10 7) * 8 + bitsOf low 2 0 + bitsOf low 10 7 * 128
    | 2 => (bitsOf low 6 4 ^^^ bitsOf low 9 7) * 16 + bitsOf low 3 0 + bitsOf low 10 7 * 128
    | _ => low
  o - low + f

/-- Where an element of a tile stands in it: j of R185. -/
def Desc.inTile (d : Desc) (i : List Nat) : Nat :=
  let m (k : Nat) : Nat := i.getD k 0 % d.tile k
  if d.tord then (List.range 5).foldl (fun j k => j * d.tile k + m k) 0
  else (List.range 5).foldr (fun k j => j * d.tile k + m k) 0

/-- The byte offset of an element from the base, and whether it is the high nibble of its byte (R185). -/
def Desc.offset (d : Desc) (i : List Nat) : Int × Bool :=
  let toff := (List.range 5).foldl (fun (r : Int) k => r + ((i.getD k 0 / d.tile k : Nat) : Int) * d.stride k) 0
  let j := d.inTile i
  let o : Int := if 8 ≤ d.fmt.width then toff + (j * (d.fmt.width / 8) : Nat)
    else if d.pack then toff + (j : Nat) else toff + (j / 2 : Nat)
  (swizzle o d.swz, d.fmt.width == 4 && !d.pack && j % 2 == 1)

/-- Bytes an element's accesses touch. -/
def Desc.elemBytes (d : Desc) : Nat := max 1 (d.fmt.width / 8)

/-- The block of an element along dimension 0, in the dense order of the scale array (R190). -/
def Desc.block (d : Desc) (i : List Nat) : Nat :=
  indexOf (fun k => if k = 0 then d.size 0 / 128 else d.size k) (listMod i 0 (· / 128))

/-- Blocks of the tensor. -/
def Desc.blocks (d : Desc) : Nat := d.count / 128

/-- Tiles along a dimension: ⌈SIZE_d / t_d⌉. -/
def Desc.tiles (d : Desc) (k : Nat) : Nat := (d.size k + d.tile k - 1) / d.tile k

/-- The coordinates inside a tile of the position j of its own order (the inverse of `inTile`). -/
def Desc.tileCoords (d : Desc) (j : Nat) : List Nat :=
  if d.tord then ((List.range 5).foldr (fun k (r : List Nat × Nat) => (r.2 % d.tile k :: r.1, r.2 / d.tile k)) ([], j)).1
  else coords d.tile j

/-- The coordinates of element j of tile c, and whether they lie in the tensor. -/
def Desc.tileElem (d : Desc) (c : List Nat) (j : Nat) : List Nat × Bool :=
  let t := d.tileCoords j
  let i := (List.range 5).map fun k => c.getD k 0 * d.tile k + t.getD k 0
  (i, (List.range 5).all fun k => i.getD k 0 < d.size k)

/-- The exact value of an element's bits in a format (R162, R163). -/
def elemVal (f : Fmt) (bits : Nat) : FVal :=
  match f.intRange with
  | some _ => let v := intVal f bits; .fin (decide (v < 0)) v.natAbs 0
  | none => match f with
    | .ds8 => dsDecode bits
    | .e8m0 => scaleVal bits
    | f => fval f bits

/-- A value times an E8M0 scale; NaN for the NaN scale (R162). -/
def scaled (x : FVal) (e : Nat) : FVal :=
  if e % 256 == 255 then .nan
  else match x with
    | .fin n m k => .fin n m (k + ((e % 256 : Nat) : Int) - 127)
    | y => y

/-- The conversions TCOPY accepts where the destination carries no scales (R189). -/
def tcopyPair (src : Fmt) (scl : Bool) (dst : Fmt) : Bool :=
  (src == dst && !scl) || (match src with | .ds8 => dst == .fp32 || dst == .fp16 || dst == .bf16 | _ => cvtPair src dst)

/-- One element converted by TCOPY to a destination without scales; `scale` is the source's block scale (R189). A scaled INT8 element
is rounded, and goes to an integer format clamped under .sat, its low bits kept otherwise (R170, log 50). -/
def tcopyElem (src dst : Fmt) (scale : Option Nat) (m : RMode) (sat : Bool) (bits : Nat) : Nat :=
  match scale with
  | none =>
    if src == dst then bits
    else if src == .ds8 then roundVal dst m false sat (dsDecode bits)
    else convert src dst m false sat bits
  | some e =>
    let x := scaled (elemVal src bits) e
    match dst.intRange with
    | some (lo, hi) =>
      match x with
      | .fin n v f =>
        let (num, den) := fracOf v f
        let r := roundInt m n num den
        intBits (if sat then clampInt r lo hi else r) dst.width
      | _ => intBits (floatToInt m lo hi x) dst.width
    | none => roundVal dst m false sat x

/-- The magnitude greater of two exact values, a NaN or an infinity first: what SCALEQ's choice rests on. -/
def absMax (x y : FVal) : FVal :=
  match x, y with
  | .nan, _ | _, .nan => .nan
  | .inf _, _ | _, .inf _ => .inf false
  | .fin _ a e, .fin _ b f => if (FVal.fin false a e).lt (.fin false b f) then .fin false b f else .fin false a e

end Sys2Proof.Machine
end

