-- ==== Sys2Proof/Machine/Mail.lean ====
section
/-! DEFINITION. Mailbox registers (R49 to R51): entries that arrive at a core, and their application to a warp's
registers at its boundaries. -/

namespace Sys2Proof.Machine

/-- A vector register by its number. -/
def vecReg (n : Nat) : RegSpec := { scalar := false, num := BitVec.ofNat 7 n }

/-- Apply one entry: each value to one lane of its register. -/
def Warp.applyMail (w : Warp) (m : MboxEntry) : Warp :=
  { w with v := listMod w.v m.reg fun old => Lanes.of fun l =>
      if m.lane ≤ l && l < m.lane + m.vals.length then m.vals.getD (l - m.lane) 0 else old.at l }

/-- Instances in flight keep the values the registers had before entries were applied (R51). -/
def Inst.keep (i : Inst) (w : Warp) (regs : List Nat) : Inst :=
  { i with carried := i.carried ++ (regs.filter fun r => !(i.carried.any fun q => q.1 == vecReg r)).map fun r => (vecReg r, w.v.getD r [], []) }

/-- The register file an instance sees: the values it keeps laid over the warp's registers. -/
def Warp.keptFile (w : Warp) (i : Inst) : Warp :=
  { w with v := i.carried.foldl (fun v q => listMod v q.1.num.toNat fun _ => q.2.1) w.v }

/-- The acquire that an entry of a releasing store brings its target's core when it is applied (R484). -/
def State.mailAcquire (s : State) (core : Nat) (m : MboxEntry) : State :=
  match m.rel with
  | none => s
  | some scope => s.acquireActs core scope 0b111

/-- The warp applies its pending entries, in the order they arrived (R50), with the acquires that releasing stores bring (R484). -/
def State.applyMailbox (s : State) (core slot : Nat) : State :=
  let mine := (s.core core).mbox.filter fun m => m.slot == slot
  if mine.isEmpty then s
  else mine.foldl (fun s m => s.mailAcquire core m) <| s.modCore core fun k =>
    { (k.modWarp slot fun w =>
        let regs := (mine.map (·.reg)).eraseDups
        mine.foldl Warp.applyMail { w with insts := w.insts.map fun i => i.keep w regs }) with
      mbox := k.mbox.filter fun m => m.slot != slot }

/-- Entries of a core's mailbox buffer that are taken, or kept for stores on their way to it. -/
def State.mailTaken (s : State) (core : Nat) : Nat :=
  (s.core core).mbox.length + (s.reqs.filter fun r => match r.kind with | .mail (.mbox c _ _ _) _ _ _ => c == core | _ => false).length

/-- The mailbox buffers have entries for the stores to these places: a writer's store waits until they have (R50). More stores than a
buffer holds leave when it is empty. -/
def State.mailRoom (s : State) (l : List Place) : Bool :=
  let toCore (c : Nat) : Nat := (l.filter fun p => match p with | .mbox k _ _ _ => k == c | _ => false).length
  l.all fun p => match p with
    | .mbox c _ _ _ => s.mailTaken c == 0 || s.mailTaken c + toCore c ≤ 64
    | _ => true

/-- A mailbox store arrives at its core: it enters the buffer, or waits while the 64 entries are taken, for an engine's store kept
entries included; a warp with no block in flight applies it at once (R50). -/
def State.mailArrive (s : State) (core slot reg lane : Nat) (vals : List Word) (src : Option (Nat × Nat)) (rel : Option Scope) :
    Option State :=
  if 64 ≤ (if src.isSome then s.mailTaken core else (s.core core).mbox.length) then none
  else
    let s := s.modCore core fun k => { k with mbox := k.mbox ++ [{ slot, reg, lane, vals, src, rel }] }
    let idle := ((s.warp? core slot).map (·.insts.isEmpty)).getD false
    some (if idle then s.applyMailbox core slot else s)

/-- Bytes as words. -/
def bytesWords : List (BitVec 8) → List Word
  | a :: b :: c :: d :: t => BitVec.ofNat 32 (bytesVal [a, b, c, d]) :: bytesWords t
  | _ => []

end Sys2Proof.Machine
end

