-- ==== Sys2Proof/Machine/Teams.lean ====
section
/-! DEFINITION. What a team shares: channels (R218, R219), the class 1 barrier of a team and of a gang
(Table 10.3), the named barriers (Table 10.4), and the end of a warp (R292). -/

namespace Sys2Proof.Machine

/-! ## Channels -/

def Team.chan (t : Team) (n : Nat) : Chan := t.chans.getD n default
def Team.modChan (t : Team) (n : Nat) (f : Chan → Chan) : Team := { t with chans := listMod t.chans n f }

/-- Pool entries a FIFO holds: its depth, or the greatest depth that a resize has reserved for it (R351). -/
def Chan.reserved (c : Chan) : Nat := c.resizes.foldl max c.depth

/-- FIFO depths of a core's teams: the entries of its pool in use, reserved resizes counted (R351). -/
def Core.poolUsed (k : Core) : Nat :=
  (k.teams.flatMap fun t => t.chans.map fun c => if c.kind == .fifo then c.reserved else 0).foldl (· + ·) 0

/-- Entries a channel can hold: a FIFO's depth; a stream port's buffer, which its generator fills or drains, holds 256: the spec
gives it no depth (log 31). -/
def Chan.capacity (c : Chan) : Nat := if c.kind == .fifo then c.depth else 256

/-- Room for one more entry of a channel (R219, R349). -/
def Chan.room (c : Chan) : Bool := c.items.length + c.taken < c.capacity

/-- Append an entry. -/
def Chan.push (c : Chan) (m : Mask) (v : Lanes) : Chan := { c with items := c.items ++ [(m, v)] }

/-- Take the head entry; it stays reserved until commit (R219). -/
def Chan.take (c : Chan) : Option ((Mask × Lanes) × Chan) :=
  match c.items with
  | [] => none
  | e :: t => some (e, { c with items := t, taken := c.taken + 1 })

/-! ## Class 1 barriers (Table 10.3) -/

/-- A warp of the team waits at the class 1 barrier no more. -/
def Core.releaseBar (k : Core) (slots : List Nat) : Core :=
  slots.foldl (fun k sl => k.modWarp sl fun w => { w with atBar := false }) k

/-- The team's barrier after an arrival or an exit: every warp released when all that have not exited have arrived. -/
def State.settleBar (s : State) (core tid : Nat) : State :=
  match (s.core core).team? tid with
  | none => s
  | some t =>
    if !t.barIn.isEmpty && t.barIn.length == t.live.length then
      (s.modCore core fun k => k.releaseBar t.barIn).modTeam core tid fun t => { t with barIn := [] }
    else s

/-- A warp arrives at BAR (R236, R239). -/
def State.arriveBar (s : State) (core slot tid : Nat) : State :=
  ((s.modWarp core slot fun w => { w with atBar := true }).modTeam core tid fun t => { t with barIn := slot :: t.barIn }).settleBar core tid

/-- Teams, or gangs, of a grid. -/
def LaunchRec.units (r : LaunchRec) : Nat := if r.griddim = 0 then 2 ^ 32 else r.griddim
/-- Teams of a grid. -/
def LaunchRec.teams (r : LaunchRec) : Nat := if r.gang = 0 then r.units else r.units * r.gang

/-- The grid of a context's queue. -/
def Ctx.grid? (x : Ctx) (q seq : Nat) : Option Grid := (x.queues.getD q default).grids.find? fun g => g.seq == seq
def State.modGrid (s : State) (x q seq : Nat) (f : Grid → Grid) : State :=
  s.modCtx x fun c => { c with queues := listMod c.queues q fun u => { u with grids := mapIf (fun g => g.seq == seq) f u.grids } }
def State.grid? (s : State) (x q seq : Nat) : Option Grid := (s.ctx? x).bind fun c => c.grid? q seq

/-- The teams of a gang, with their cores, saved ones included. -/
def State.gangTeams (s : State) (x q seq gang : Nat) : List (Nat × Team) :=
  let mine (t : Team) : Bool := t.ctx == x && t.queue == q && t.seq == seq && t.lrec.gang != 0 && t.tid / t.lrec.gang == gang
  s.cores.flatMap fun (p : Nat × Core) =>
    (p.2.teams.filter mine ++ (p.2.images.flatMap fun i => i.teams.filter mine)).map fun t => (p.1, t)

/-- A warp of a context waits at GBAR no more, be it on its core or saved there. -/
def State.leaveGbar (s : State) (x core slot : Nat) : State :=
  s.modCore core fun k =>
    if k.images.any (fun i => i.ctx == x) then
      { k with images := mapIf (fun i => i.ctx == x) (fun i =>
          { i with warps := i.warps.map fun (p : Nat × Warp) => if p.1 == slot then (p.1, { p.2 with atGbar := false }) else p }) k.images }
    else k.modWarp slot fun w => { w with atGbar := false }

/-- The gang's barrier after an arrival or an exit. -/
def State.settleGbar (s : State) (x q seq gang : Nat) : State :=
  match s.grid? x q seq with
  | none => s
  | some g =>
    let arrived := tabGet [] gang g.gbars
    let e := ((s.gangTeams x q seq gang).map fun p => p.2.live.length).foldl (· + ·) 0
    if !arrived.isEmpty && arrived.length == e then
      let s := arrived.foldl (fun s p => s.leaveGbar x p.1 p.2) s
      s.modGrid x q seq fun g => { g with gbars := tabDel gang g.gbars }
    else s

/-- A warp arrives at GBAR. -/
def State.arriveGbar (s : State) (core slot : Nat) (t : Team) : State :=
  let gang := t.tid / t.lrec.gang
  let s := s.modWarp core slot fun w => { w with atGbar := true }
  let s := s.modGrid t.ctx t.queue t.seq fun g => { g with gbars := tabPut gang ((core, slot) :: tabGet [] gang g.gbars) g.gbars }
  s.settleGbar t.ctx t.queue t.seq gang

/-! ## Named barriers (R240 to R242) -/

def NBar.reg? (b : NBar) (p : Party) : Option Reg := b.regs.find? fun r => r.party == p

/-- CNT plus the remaining pledges of all parties. -/
def NBar.reachable (b : NBar) : Nat := b.cnt + (b.regs.map (·.left)).foldl (· + ·) 0

/-- Complete phases while CNT ≥ EXP; pledges are renewed when a phase completes (Table 10.4). -/
def NBar.settle (b : NBar) : NBar :=
  let k := b.cnt / b.exp
  if b.exp = 0 || k = 0 then b
  else { b with ph := (b.ph + k) % 2 ^ 32, cnt := b.cnt % b.exp, regs := b.regs.map fun r => { r with left := r.pledge } }

/-- `n` arrivals of a party; a STRANDED barrier ignores them. -/
def NBar.arrive (b : NBar) (p : Party) (n : Nat) : NBar :=
  if b.stranded || n = 0 then b
  else { b with cnt := b.cnt + n, regs := mapIf (fun r => r.party == p) (fun r => { r with left := r.left - n }) b.regs }.settle

/-- The phase of the last of `n` arrivals given now. -/
def NBar.phaseOf (b : NBar) (n : Nat) : Nat := if b.exp = 0 then b.ph else (b.ph + (b.cnt + n - 1) / b.exp) % 2 ^ 32

/-- A party goes; the barrier is stranded when the reachable count is then below EXP. Table 10.4 has no row for a departure while the
count was below EXP before it, as it is until all parties have registered: the model strands the barrier then too (log 62). -/
def NBar.depart (b : NBar) (p : Party) : NBar :=
  if (b.reg? p).isNone then b
  else
    let b' := { b with regs := b.regs.filter fun r => r.party != p }
    if !b.stranded && b'.reachable < b'.exp then { b' with stranded := true } else b'

/-- The parties that have left go: after the arrivals of their cycle (R242). -/
def NBar.settleGone (b : NBar) : NBar := b.gone.foldl NBar.depart { b with gone := [] }

/-- A party leaves, exits or is killed: it goes when the cycle's arrivals have been handled (R242, R486). -/
def NBar.leave (b : NBar) (p : Party) : NBar :=
  if (b.reg? p).isNone || b.gone.contains p then b else { b with gone := b.gone ++ [p] }

/-- Register a party with a pledge, replacing an earlier registration; a pledge of 0 leaves (R241). -/
def NBar.join (b : NBar) (p : Party) (pledge : Nat) : NBar :=
  if pledge = 0 then b.leave p
  else
    let b := if b.gone.contains p then b.settleGone else b
    { b with regs := (b.regs.filter fun r => r.party != p) ++ [{ party := p, pledge, left := pledge }] }

/-- Phase W has completed. -/
def NBar.done (b : NBar) (w : Nat) : Bool := b.ph != w

/-- An arrival of a warp is allowed: it is registered, and within its remaining pledge; a count of 0 is not checked. -/
def NBar.mayArrive (b : NBar) (p : Party) (n : Nat) : Bool := n = 0 || (b.reg? p).any fun r => n ≤ r.left

/-- Change a named barrier of a team; a barrier that becomes stranded is counted in its context (R242, R398). -/
def State.modNBar (s : State) (core tid b : Nat) (f : NBar → NBar) : State :=
  match (s.core core).team? tid with
  | none => s
  | some t =>
    match t.nbs[b]? with
    | none => s
    | some old =>
      let new := f old
      let s := s.modTeam core tid fun t => { t with nbs := listMod t.nbs b fun _ => new }
      if new.stranded && !old.stranded then s.modCtx t.ctx fun x => { x with barstr := x.barstr + 1 } else s

/-- A barrier of some core holds parties that have left. -/
def Core.leavesDue (k : Core) : Bool := k.teams.any fun t => t.nbs.any fun b => !b.gone.isEmpty

/-- The parties that have left the barriers of a team go. -/
def State.settleTeam (s : State) (core : Nat) (t : Team) : State :=
  (List.range t.nbs.length).foldl (fun s b => s.modNBar core t.id b NBar.settleGone) s

/-- The parties that have left the barriers of a core's teams go. -/
def State.settleLeaves (s : State) (core : Nat) : State :=
  (s.core core).teams.foldl (fun s t => s.settleTeam core t) s

/-- TIME PASSES: what the end of a cycle brings is done (R242). -/
def State.pass (s : State) (dt : Nat) : State :=
  let t : State := { s with time := s.time + dt }
  if s.time / Config.ticksPerCycle = t.time / Config.ticksPerCycle then t
  else ((s.cores.filter fun p => p.2.leavesDue).map (·.1)).foldl State.settleLeaves t

/-- A party leaves every barrier of a team. -/
def State.leaveAll (s : State) (core tid : Nat) (p : Party) : State :=
  match (s.core core).team? tid with
  | none => s
  | some t => (List.range t.nbs.length).foldl (fun s b => s.modNBar core tid b fun x => x.leave p) s

/-! ## The end of a warp (R292) -/

/-- A warp ends, by exit or by kill: its registrations are withdrawn, the barriers count it no more, its mailbox
entries, reservations and tags go, its operations go on without an issuer (R358). -/
def State.endWarp (s : State) (core slot : Nat) : State :=
  match s.warp? core slot with
  | none => s
  | some w =>
    let s := (s.dropReserves core slot).leaveAll core w.team (.warp slot)
    let s := s.modCore core fun k =>
      let k := w.insts.foldl (fun k i => k.purge slot i.itag) k
      { k with
        warps := tabDel slot k.warps
        mbox := k.mbox.filter fun m => m.slot != slot
        ops := mapIf (fun o => match o.issuer with | some (.warp c sl _) => c == core && sl == slot | _ => false)
                 (fun o => { o with issuer := none }) k.ops }
    let s := s.modTeam core w.team fun t =>
      { t with live := t.live.filter (· != slot), barIn := t.barIn.filter (· != slot) }
    let s := { s with halts := s.halts.filter fun h => !(h.req == Requester.warp core slot && h.ctx == w.ctx) }
    let s := s.settleBar core w.team
    match (s.core core).team? w.team with
    | none => s
    | some t =>
      if t.lrec.gang = 0 then s
      else
        let gang := t.tid / t.lrec.gang
        let s := s.modGrid t.ctx t.queue t.seq fun g =>
          { g with gbars := tabPut gang ((tabGet [] gang g.gbars).filter (· != (core, slot))) g.gbars }
        s.settleGbar t.ctx t.queue t.seq gang

end Sys2Proof.Machine
end

