-- ==== Sys2Proof/Machine/Engines.lean ====
section
/-! DEFINITION. Engine operations (R352 to R368): reading and writing as an engine does, the checks made at issue, and
the transfers of the copy engines, the indirect-stream engine and HANDOFF. -/

namespace Sys2Proof.Machine

/-! ## The engine's steps -/

/-- Why an engine stops: a fault that halts the operation, a wait (for the host, a full mailbox, a flushing read), or a
generator that another stream holds. -/
inductive EngStop where
  | fault (f : FaultInfo)
  | wait
  | busy
  deriving DecidableEq, Repr

/-- A computation of an engine over the machine. -/
abbrev EngM (α : Type) := ExceptT EngStop (StateM State) α

/-- Run a computation: its result and the state it leaves. -/
def EngM.go {α : Type} (m : EngM α) (s : State) : Except EngStop α × State := m.run s

/-- Halt the operation on a fault at an address. -/
def engFault {α : Type} (code : Code) (addr : Nat) : EngM α := throw (.fault { code, raddr := BitVec.ofNat 64 addr })

/-- Change the state. -/
def engMod (f : State → State) : EngM Unit := modify f

/-- Repeat a step for `n` indices from `i`. -/
def engLoop (body : Nat → EngM Unit) : Nat → Nat → EngM Unit
  | 0, _ => pure ()
  | n + 1, i => do body i; engLoop body n (i + 1)

/-- Collect the results of a step for each element. -/
def engMap {α β : Type} (f : α → EngM β) : List α → EngM (List β)
  | [] => pure []
  | a :: t => do let b ← f a; let bs ← engMap f t; pure (b :: bs)

/-! ## Reading and writing -/

/-- Translate an address for an engine of a core: a miss waits for the die's walkers (R71), and a fault halts only the operation
(R65). -/
def engPlace (core : Nat) (o : EngOp) (va : Nat) (acc : AccKind) : EngM Place := do
  let s ← get
  let a : DWord := BitVec.ofNat 64 va
  match s.lookup core o.ctx a acc with
  | .hit p => set (s.tlbPull core o.ctx a acc); pure p
  | .fault f => throw (.fault f)
  | .miss => set (s.missAt core o.ctx a acc (.op core o.id)); throw .wait

/-- An SP address of the team an operation serves (R45). -/
def State.opSp (s : State) (core : Nat) (team : Option Nat) (a n : Nat) : Except Code Place :=
  match team.bind (s.core core).team? with
  | none => .error .windowPerm
  | some t => if a + n ≤ t.lrec.spb then .ok (.sp core (t.spBase + a)) else .error .windowPerm

/-- The context of an operation as its team numbers the cores (R443). -/
def State.opCtx (s : State) (core : Nat) (o : EngOp) : Option Ctx :=
  (s.ctx? o.ctx).map fun c => c.viewed ((o.team.bind (s.core core).team?).bind Team.view)

/-- A WN address of an operation. -/
def State.opWn (s : State) (core : Nat) (o : EngOp) (a n : Nat) (write : Bool) : Except Code Place :=
  match s.opCtx core o with
  | none => .error .windowPerm
  | some c => s.wnPlace c core a n (if write then .store else .load)

/-- Where a part of a transfer lies: space code 0 GL, 1 SP, 2 WN. -/
def engAt (core : Nat) (o : EngOp) (space addr n : Nat) (write : Bool) : EngM Place := do
  match space with
  | 0 => engPlace core o addr (if write then .write else .read)
  | 1 => match (← get).opSp core o.team addr n with
    | .ok p => pure p
    | .error e => engFault e addr
  | _ => match (← get).opWn core o addr n write with
    | .ok p => pure p
    | .error e => engFault e addr

/-- The parts of a GL range that lie in one 64-byte sector each. -/
def pieces : Nat → Nat → Nat → List (Nat × Nat)
  | 0, _, _ => []
  | f + 1, a, n => if n = 0 then [] else (a, min n (64 - a % 64)) :: pieces f (a + min n (64 - a % 64)) (n - min n (64 - a % 64))

/-- The context of an operation is saved on its core. -/
def State.savedOn (s : State) (core x : Nat) : Bool := (s.core core).images.any fun i => i.ctx == x

/-- The scratchpad of a team that is saved on a core, as its image holds it: its size and bytes. -/
def State.savedSpad (s : State) (core : Nat) (o : EngOp) : Option (Nat × List (BitVec 8)) :=
  ((s.core core).images.find? fun i => i.ctx == o.ctx).bind fun i => o.team.bind fun t =>
    (i.teams.find? fun y => y.id == t).map fun y => (y.lrec.spb, tabGet [] t i.spad)

/-- Write bytes into the scratchpad of a saved team. -/
def State.putSaved (s : State) (core : Nat) (o : EngOp) (a : Nat) (bs : List (BitVec 8)) : State :=
  let put (old : List (BitVec 8)) : List (BitVec 8) := old.take a ++ bs ++ old.drop (a + bs.length)
  s.modCore core fun k =>
    { k with images := mapIf (fun i => i.ctx == o.ctx) (fun i => { i with spad := mapIf (fun q => some q.1 == o.team) (fun q => (q.1, put q.2)) i.spad }) k.images }

/-- An SP access of an operation whose team is saved: it is made to the save image, in which the scratchpad lies meanwhile (R434). None
while the team is on its core. -/
def engSaved (core : Nat) (o : EngOp) (space addr n : Nat) : EngM (Option (List (BitVec 8))) := do
  let s ← get
  if space != 1 || (o.team.bind (s.core core).team?).isSome then pure none
  else match s.savedSpad core o with
    | none => pure none
    | some (spb, bs) => if addr + n ≤ spb then pure (some ((bs.drop addr).take n)) else engFault .windowPerm addr

/-- The requester an operation is, and its context. -/
def EngOp.by_ (o : EngOp) (core : Nat) : Option (Nat × Requester) := some (o.ctx, .op core o.id)

/-- An engine of a core reads bytes at a place: the die's dirty bytes of the sector are written back first (R88). -/
def State.engGet (s : State) (core : Nat) (by_ : Option (Nat × Requester)) (p : Place) (n : Nat) : State × List (BitVec 8) :=
  let s := match p with
    | .dev _ | .host _ _ true => s.dieClean (dieOf core) p.sector
    | _ => s
  s.homeRead by_ p n

/-- An engine writes bytes at a place: the die's copies are written back and invalidated first (R88); a host-owned page
takes a posted write (R101); a mailbox register takes a mailbox store (R50), which may have to wait. -/
def State.engPut (s : State) (core : Nat) (p : Place) (bs : List (BitVec 8)) (src : Nat × Nat) : Option State :=
  match p with
  | .dev _ => some ((s.dieFlush (dieOf core) p.sector).homePoke (some (dieOf core)) p bs)
  | .host vf a true => some (((s.dieFlush (dieOf core) p.sector).homePoke (some (dieOf core)) p bs).posted core vf a)
  | .host vf a false => some ((s.pokeN p bs).posted core vf a)
  | .mbox t slot reg lane => s.mailArrive t slot reg lane (bytesWords bs) (some src) none
  | _ => some (s.homePoke none p bs)

/-- Read a range for an operation. -/
def engRead (core : Nat) (o : EngOp) (space addr n : Nat) : EngM (List (BitVec 8)) := do
  if let some bs ← engSaved core o space addr n then return bs
  let parts := if space = 0 then pieces (n / 64 + 2) addr n else [(addr, n)]
  let bss ← engMap (fun (q : Nat × Nat) => do
    let p ← engAt core o space q.1 q.2 false
    let (s, bs) := (← get).engGet core (o.by_ core) p q.2
    set s
    pure bs) parts
  pure bss.flatten

/-- Write a range for an operation. -/
def engWrite (core : Nat) (o : EngOp) (space addr : Nat) (bs : List (BitVec 8)) : EngM Unit := do
  if (← engSaved core o space addr bs.length).isSome then
    return (← engMod fun s => s.putSaved core o addr bs)
  let parts := if space = 0 then pieces (bs.length / 64 + 2) addr bs.length else [(addr, bs.length)]
  let _ ← engMap (fun (q : Nat × Nat) => do
    let p ← engAt core o space q.1 q.2 true
    match (← get).engPut core p ((bs.drop (q.1 - addr)).take q.2) (core, o.id) with
    | none => throw .wait
    | some s => set s) parts

/-- Mailbox stores of an operation are still in a buffer: its writes have not all been performed (R50, R357). -/
def State.mailOut (s : State) (core op : Nat) : Bool := s.cores.any fun (p : Nat × Core) => p.2.mbox.any fun m => m.src == some (core, op)

/-- The 64-bit words of a list of bytes. -/
def dwords : Nat → List (BitVec 8) → List DWord
  | 0, _ => []
  | n + 1, bs => BitVec.ofNat 64 (bytesVal (bs.take 8)) :: dwords n (bs.drop 8)

/-- Read 64 bytes of GL as eight words: a parameter block or a descriptor (R184, R355). -/
def engBlock (core : Nat) (o : EngOp) (addr : Nat) : EngM (List DWord) := do
  let bs ← engRead core o 0 addr 64
  pure (dwords 8 bs)

/-! ## Fields of parameter blocks -/

/-- Word `n` of the parameters. -/
def EngOp.w (o : EngOp) (n : Nat) : Nat := (o.params.getD n 0).toNat
/-- Bits [hi:lo] of word `n`. -/
def EngOp.f (o : EngOp) (n hi lo : Nat) : Nat := bitsOf (o.w n) hi lo
/-- A descriptor kept after the parameter block. -/
def EngOp.desc (o : EngOp) (n : Nat) : Desc :=
  ⟨(List.range 8).foldr (fun k r => r * 2 ^ 64 + o.w (8 + 8 * n + k)) 0⟩

/-- Words from `n` to 7 are zero. -/
def EngOp.zeroFrom (o : EngOp) (n : Nat) : Bool := (List.range 8).all fun k => k < n || o.w k == 0

/-- An address of a space is malformed: space code 3, or high bits set in SP or WN (R355). -/
def badAddr (space addr : Nat) : Bool := space == 3 || (space != 0 && 2 ^ 32 ≤ addr)

/-- Addresses wrap at 2^64 in GL and at 2^32 in SP and WN (R185). -/
def wrapAddr (space : Nat) (x : Int) : Nat := (x % ((if space = 0 then 2 ^ 64 else 2 ^ 32 : Nat) : Int)).toNat

/-! ## Units of a transfer (R181, R357)

A transfer is made of units: a few bytes, an element, a list entry. A step reads one unit, or performs one of the writes that
units read earlier have left, each freely chosen: no order among the writes of an operation is fixed, and the bytes of two
operations mix as they come. -/

/-- What reading a unit leads to: further units, and writes. -/
abbrev UnitRead := EngM (List EngWork × List EngOut)

/-- An address of WN's register range, where writes are mailbox stores (R49). -/
def inRegs (space addr : Nat) : Bool := space == 2 && decide (0x80000 ≤ addr % 2 ^ 21) && decide (addr % 2 ^ 21 < 0xC0000)

/-- An address of WN's accumulator range, where accesses have 4, 8 or 16 bytes (R52). -/
def inAcc (space addr : Nat) : Bool := space == 2 && decide (0x100000 ≤ addr % 2 ^ 21) && decide (addr % 2 ^ 21 < 0x110000)

/-- A transfer by units of fewer than 4 bytes does not reach the accumulators (R52). -/
def engAcc (space addr width : Nat) : EngM Unit := if inAcc space addr && decide (width < 4) then engFault .windowPerm addr else pure ()

/-- The writes of consecutive bytes, one a byte; a mailbox store, and a write of 4 bytes or more in the accumulators, stay whole. The
last counts `n`. -/
def byteOuts (space addr : Nat) (bs : List (BitVec 8)) (tag n : Nat) : List EngOut :=
  if inRegs space addr || (inAcc space addr && decide (4 ≤ bs.length)) then [{ dst := .at space addr, data := bs, tag, count := n }]
  else bs.zipIdx.map fun q =>
    { dst := .at space (wrapAddr space ((addr + q.2 : Nat) : Int)), data := [q.1], tag, count := if q.2 + 1 = bs.length then n else 0 }

/-- PERFORM one write. A nibble leaves the other one of its byte (R186). -/
def engOut (core : Nat) (o : EngOp) (e : EngOut) : EngM Unit := do
  match e.dst, e.nib with
  | .at space a, none => engWrite core o space a e.data
  | .at space a, some hi =>
    let old := bytesVal (← engRead core o space a 1)
    let v := bytesVal e.data % 16
    engWrite core o space a (valBytes 1 (if hi then v * 16 + old % 16 else old / 16 * 16 + v))
  | .cell n, _ => engMod fun s => { s with mem := { s.mem with wgt := Mem.setBytes s.mem.wgt (core * 262144 + n) e.data } }
  | .scale n, _ => engMod fun s => { s with mem := { s.mem with scl := Mem.setBytes s.mem.scl (core * 2048 + n) e.data } }
  | .row n, _ => engMod fun s => s.modOp core o.id fun q => { q with row := listMod q.row n fun _ => e.data.headD 0 }

/-- Unit `k` of run `w`, put first. -/
def workFront (l : List EngWork) (w k : Nat) : List EngWork :=
  match l[w]? with
  | none => l
  | some x =>
    let part (first n : Nat) : List EngWork := if n = 0 then [] else [{ x with first, n }]
    { x with first := x.first + k, n := 1 } :: (l.take w ++ part x.first k ++ part (x.first + k + 1) (x.n - k - 1) ++ l.drop (w + 1))

/-- The writes that no earlier write of the same tag to the same place holds back (R192). -/
def freeOuts (l : List EngOut) : List Nat :=
  (List.range l.length).filter fun i => (l[i]?).any fun e => e.tag == 0 || !((l.take i).any fun q => q.tag == e.tag && q.dst == e.dst)

/-- Write `i`, put first. -/
def outFront (l : List EngOut) (i : Nat) : List EngOut := (l[i]?).toList ++ l.eraseIdx i

/-- Mailbox stores of COPY, COPY2D and FILL are made in ascending address (R359). -/
def EngOp.inOrder (o : EngOp) : Bool :=
  match o.req.kind with
  | .copy | .copy2d | .fill _ => inRegs (o.f 2 43 42) (o.w 1)
  | _ => false

/-- Units taken in ascending order: mailbox stores, the entries of SCAT (R192), pages of HANDOFF, the source of a COLL. -/
def EngOp.ordered (o : EngOp) (w : EngWork) : Bool :=
  match o.req.kind with
  | .scat => w.tile.isNone
  | .handoff _ | .coll _ => true
  | _ => o.inOrder

/-- Perform the write at the head. -/
def moveOut (core : Nat) (o : EngOp) (outs : List EngOut) : EngM Unit := do
  engMod fun s => s.modOp core o.id fun q => { q with outs, retry := 2 }
  match outs with
  | [] => pure ()
  | e :: rest =>
    engOut core o e
    engMod fun s => s.modOp core o.id fun q => { q with outs := rest, retry := 0, pos := q.pos + e.count }

/-- Read the unit at the head. -/
def moveIn (core : Nat) (o : EngOp) (work : List EngWork) (read : EngWork → UnitRead) : EngM Unit := do
  engMod fun s => s.modOp core o.id fun q => { q with work, retry := 1 }
  match work with
  | [] => pure ()
  | u :: rest =>
    let (ws, outs) ← read u
    engMod fun s => s.modOp core o.id fun q => { q with work := ws ++ rest, outs := q.outs ++ outs, retry := 0 }

/-- A run of a SCAT's cells waits for those of an earlier entry that names the same tile (R192). -/
def EngOp.heldRun (o : EngOp) (u : EngWork) : Bool :=
  o.req.kind == .scat && u.tile.any fun t => o.work.any fun v => v.tile.any fun r => decide (r.1 < t.1) && r.2 == t.2

/-- ONE MOVE of a transfer (R181, R357): a freely chosen write is performed, or a freely chosen unit is read; a move that waited or
faulted is made again first. -/
def engMove (core : Nat) (o : EngOp) (read : EngWork → UnitRead) : EngM Unit := do
  let s ← get
  let c (k : Nat) : Nat := Config.freeChoice (s.free + k)
  engMod fun s => { s with free := s.free + 3 }
  if o.retry = 2 then moveOut core o o.outs
  else if o.retry = 1 then moveIn core o o.work read
  else if o.work.isEmpty || (!o.outs.isEmpty && c 0 % 2 = 1) then
    let l := freeOuts o.outs
    moveOut core o (outFront o.outs (if o.inOrder then 0 else l.getD (c 1 % l.length) 0))
  else
    let l := (List.range o.work.length).filter fun i => (o.work[i]?).any fun u => !o.heldRun u
    let w := if o.inOrder then 0 else l.getD (c 1 % l.length) 0
    let u := o.work.getD w { first := 0, n := 0 }
    moveIn core o (workFront o.work w (if o.ordered u then 0 else c 2 % u.n)) read

/-! ## Checks of a range at issue (R357, R191) -/

/-- The WN part of a transfer may be made (R47 to R49, R52): it stays inside one range of one core's window; in the
register range it is 4-byte mailbox stores. -/
def State.wnRange (s : State) (core : Nat) (o : EngOp) (a n : Nat) (write : Bool) : Option Code :=
  let off := a % 2 ^ 21
  let code (e : Except Code Place) : Option Code := match e with | .error c => some c | .ok _ => none
  if n = 0 then none
  else if 2 ^ 21 < off + n then some .windowPerm
  else if write && 0x80000 ≤ off && off + n ≤ 0xC0000 then
    (List.range ((n + 3) / 4)).findSome? fun i => code (s.opWn core o (a + 4 * i) (min 4 (n - 4 * i)) true)
  else code (s.opWn core o a n write)

/-- Check one range of a transfer. -/
def engCheck (core : Nat) (o : EngOp) (space addr n : Nat) (write : Bool) : EngM Unit := do
  match space with
  | 0 => pure ()
  | 1 => match (← get).opSp core o.team addr n with
    | .ok _ => pure ()
    | .error e => if n = 0 then pure () else engFault e addr
  | _ => match (← get).wnRange core o addr n write with
    | none => pure ()
    | some e => engFault e addr

/-- The range of Table 2.6 that an offset in a core's window lies in. -/
def wnPart (off : Nat) : Nat := ([0x80000, 0xC0000, 0x100000, 0x110000].filter fun b => b ≤ off).length

/-- A transfer that crosses the boundary of a range of Table 2.6 halts (R48). -/
def engCross (space addr n : Nat) : EngM Unit :=
  let off := addr % 2 ^ 21
  if space = 2 ∧ n ≠ 0 ∧ (2 ^ 21 < off + n ∨ wnPart off ≠ wnPart (off + n - 1)) then engFault .windowPerm addr else pure ()

/-- A range as R191 compares it: GL as addresses of the context, SP and WN scratchpad as physical scratchpad bytes, the rest of WN as
bytes of a core's window: domain, first byte, length. -/
def State.physRange (s : State) (core : Nat) (o : EngOp) (space a n : Nat) : Nat × Nat × Nat :=
  match space with
  | 0 => (0, a, n)
  | 1 => (1, core * Config.spadBytes + ((o.team.bind (s.core core).team?).map (·.spBase)).getD 0 + a, n)
  | _ =>
    let t := ((s.opCtx core o).bind fun c => c.cores[a / 2 ^ 21]?).getD 0
    if a % 2 ^ 21 < 0x80000 then (1, t * Config.spadBytes + a % 2 ^ 21, n) else (2, t * 2 ^ 21 + a % 2 ^ 21, n)

/-- Two ranges, each a space, a first byte and a length, intersect. -/
def State.rangesMeet (s : State) (core : Nat) (o : EngOp) (sp1 : Nat) (r1 : Nat × Nat) (sp2 : Nat) (r2 : Nat × Nat) : Bool :=
  let (d1, b1, n1) := s.physRange core o sp1 r1.1 r1.2
  let (d2, b2, n2) := s.physRange core o sp2 r2.1 r2.2
  d1 == d2 && n1 != 0 && n2 != 0 && decide (b1 < b2 + n2) && decide (b2 < b1 + n1)

/-- The bounding range of pieces: first byte and length. -/
def boundsOf (l : List (Nat × Nat)) : Nat × Nat :=
  let lo := (l.map (·.1)).foldl min ((l.headD (0, 0)).1)
  (lo, (l.map fun q => q.1 + q.2).foldl max 0 - lo)

/-! ## COPY, COPY2D and FILL (R359 to R361) -/

/-- Status codes of Table 16.3. -/
def stMalformed : Nat := 1
def stShape : Nat := 2
def stOverlap : Nat := 3

/-- COPY and COPY2D as rows: rows, bytes a row, and the address of a row. -/
structure Rows where
  n      : Nat
  len    : Nat
  pitchS : Int
  pitchD : Int

/-- The rows of a COPY or COPY2D. -/
def EngOp.rows (o : EngOp) : Rows :=
  match o.req.kind with
  | .copy2d => { n := o.f 3 31 0, len := o.f 2 39 0, pitchS := signedOf (o.f 4 47 0) 48, pitchD := signedOf (o.f 5 47 0) 48 }
  | _ => { n := 1, len := o.f 2 39 0, pitchS := 0, pitchD := 0 }

def EngOp.src (o : EngOp) (r : Rows) (i : Nat) : Nat := wrapAddr (o.f 2 41 40) ((o.w 0 : Int) + i * r.pitchS)
def EngOp.dst (o : EngOp) (r : Rows) (i : Nat) : Nat := wrapAddr (o.f 2 43 42) ((o.w 1 : Int) + i * r.pitchD)

/-- The bounding ranges of the rows (R360). -/
def EngOp.srcBounds (o : EngOp) (r : Rows) : Nat × Nat := boundsOf ((List.range r.n).map fun i => (o.src r i, r.len))
def EngOp.dstBounds (o : EngOp) (r : Rows) : Nat × Nat := boundsOf ((List.range r.n).map fun i => (o.dst r i, r.len))

/-- Checks of COPY and COPY2D at issue: the rules for the window and for OVERLAP apply to the bounding ranges of all rows. -/
def prepCopy (core : Nat) (o : EngOp) : EngM (Option Nat) := do
  let two := o.req.kind == .copy2d
  let r := o.rows
  let ss := o.f 2 41 40
  let ds := o.f 2 43 42
  let rsv := o.f 2 63 44 != 0 || (if two then o.f 3 63 32 != 0 || o.f 4 63 48 != 0 || o.f 5 63 48 != 0 || !o.zeroFrom 6 else !o.zeroFrom 3)
  if rsv || badAddr ss (o.w 0) || badAddr ds (o.w 1) || o.w 0 % 4 != 0 || o.w 1 % 4 != 0 || r.len % 4 != 0 ||
      r.pitchS % 4 != 0 || r.pitchD % 4 != 0 then pure (some stMalformed)
  else if r.len = 0 || r.n = 0 then pure none
  else
    let a := o.srcBounds r
    let b := o.dstBounds r
    engCross ss a.1 a.2
    engCross ds b.1 b.2
    engLoop (fun i => do
      engCheck core o ss (o.src r i) r.len false
      engCheck core o ds (o.dst r i) r.len true) r.n 0
    pure (if (← get).rangesMeet core o ss a ds b then some stOverlap else none)

/-- A COPY, COPY2D or FILL reads or writes the accumulators. -/
def EngOp.movesAcc (o : EngOp) : Bool :=
  inAcc (o.f 2 43 42) (o.w 1) || (match o.req.kind with | .copy | .copy2d => inAcc (o.f 2 41 40) (o.w 0) | _ => false)

/-- Bytes of a unit of COPY, COPY2D and FILL: one; four for mailbox stores and in the accumulators. -/
def EngOp.unitBytes (o : EngOp) : Nat := if o.inOrder || o.movesAcc then 4 else 1

/-- Unit `k` of a COPY or COPY2D, its row and its place in the row: rows ascending, or, for mailbox stores, in ascending address of the
destination (R359, R360). -/
def EngOp.unitAt (o : EngOp) (r : Rows) (k : Nat) : Nat × Nat :=
  let per := r.len / o.unitBytes
  if !o.inOrder || r.n = 1 || (r.len : Int) ≤ r.pitchD then (k / per, k % per)
  else
    let all := (List.range r.n).flatMap fun i => (List.range per).map fun j => (i, j)
    (sortBy (fun a b => decide (o.dst r a.1 + o.unitBytes * a.2 ≤ o.dst r b.1 + o.unitBytes * b.2)) all).getD k (0, 0)

/-- A unit of COPY and COPY2D. -/
def readCopy (core : Nat) (o : EngOp) (u : EngWork) : UnitRead := do
  let r := o.rows
  let n := o.unitBytes
  let (i, j) := o.unitAt r u.first
  let at_ (sp base : Nat) : Nat := wrapAddr sp ((base + n * j : Nat) : Int)
  let bs ← engRead core o (o.f 2 41 40) (at_ (o.f 2 41 40) (o.src r i)) n
  pure ([], byteOuts (o.f 2 43 42) (at_ (o.f 2 43 42) (o.dst r i)) bs 0 n)

/-- A range of WN reaches the register range of some core's window (R361). -/
def reachesRegs (a n : Nat) : Bool :=
  let off := a % 2 ^ 21
  n != 0 && ((decide (off < 0xC0000) && decide (0x80000 < off + n)) || decide (2 ^ 21 + 0x80000 < off + n))

/-- Checks of FILL at issue (R361). -/
def prepFill (core : Nat) (o : EngOp) (sz : Nat) : EngM (Option Nat) := do
  let len := o.f 2 39 0
  let ds := o.f 2 43 42
  if o.f 2 63 44 != 0 || o.f 2 41 40 != 0 || !o.zeroFrom 3 || o.w 0 / 2 ^ (8 * sz) != 0 || badAddr ds (o.w 1) ||
      o.w 1 % sz != 0 || len % sz != 0 || (ds == 2 && decide (sz < 4) && reachesRegs (o.w 1) len) then pure (some stMalformed)
  else
    engCross ds (o.w 1) len
    if len != 0 then engAcc ds (o.w 1) sz
    engCheck core o ds (o.w 1) len true
    pure none

/-- A unit of FILL. -/
def readFill (o : EngOp) (sz : Nat) (u : EngWork) : UnitRead :=
  let n := o.unitBytes
  let k := n * u.first
  pure ([], byteOuts (o.f 2 43 42) (wrapAddr (o.f 2 43 42) ((o.w 1 + k : Nat) : Int)) (((valBytes sz (o.w 0)).drop (k % sz)).take n) 0 n)

/-! ## Tensors -/

/-- A tensor: descriptor, space and base. -/
structure Tensor where
  d     : Desc
  space : Nat
  base  : Nat

/-- The address of an element, and whether it is the high nibble. -/
def Tensor.at (t : Tensor) (i : List Nat) : Nat × Bool :=
  let (o, hi) := t.d.offset i
  (wrapAddr t.space ((t.base : Int) + o), hi)

/-- The address of a block's scale (R190). -/
def Tensor.scaleAt (t : Tensor) (i : List Nat) : Nat := wrapAddr t.space ((t.base : Int) + t.d.scoff + t.d.block i)

/-- The bounding range of a tensor, its scale array included where it is moved (R191). -/
def Tensor.bounds (t : Tensor) (scales : Bool) : Nat × Nat :=
  boundsOf (((List.range t.d.count).map fun n => ((t.at (coords t.d.size n)).1, t.d.elemBytes)) ++
    (if scales && t.d.scl then (List.range t.d.blocks).map fun n => (wrapAddr t.space ((t.base : Int) + t.d.scoff + (n : Nat)), 1) else []))

/-- Check every byte of a tensor at issue. -/
def checkTensor (core : Nat) (o : EngOp) (t : Tensor) (scales write : Bool) : EngM Unit := do
  engCross t.space (t.bounds scales).1 (t.bounds scales).2
  engLoop (fun n => do
    let i := coords t.d.size n
    engCheck core o t.space (t.at i).1 t.d.elemBytes write
    if scales && t.d.scl && i.getD 0 0 % 128 == 0 then engCheck core o t.space (t.scaleAt i) 1 write) t.d.count 0

/-- The base rule of a swizzle (R187). -/
def checkSwizzle (core : Nat) (o : EngOp) (t : Tensor) : EngM Unit := do
  let s ← get
  let sp := if t.space = 1 then ((o.team.bind (s.core core).team?).map (·.spBase)).getD 0 else 0
  if t.d.swz != 0 && (t.base % 2048 != 0 || (sp + t.base) % 2048 != 0) then engFault .misaligned t.base

/-- Read an element's bits. -/
def readElem (core : Nat) (o : EngOp) (t : Tensor) (i : List Nat) : EngM Nat := do
  let (a, hi) := t.at i
  let bs ← engRead core o t.space a t.d.elemBytes
  let v := bytesVal bs
  pure (if t.d.fmt.width = 4 then (if hi then v / 16 else v % 16) else v)

/-- The writes of an element's bits; under PACK the high nibble is zero (R186). -/
def elemOuts (t : Tensor) (i : List Nat) (v tag n : Nat) : List EngOut :=
  let (a, hi) := t.at i
  if t.d.fmt.width = 4 && !t.d.pack then [{ dst := .at t.space a, data := valBytes 1 (v % 16), nib := some hi, tag, count := n }]
  else byteOuts t.space a (valBytes t.d.elemBytes v) tag n

/-! ## TCOPY (R189 to R191, R362) -/

def EngOp.tsrc (o : EngOp) : Tensor := ⟨o.desc 0, o.f 4 33 32, o.w 0⟩
def EngOp.tdst (o : EngOp) : Tensor := ⟨o.desc 1, o.f 4 35 34, o.w 1⟩

/-- Descriptor `k` of the block, at word `n`, is read once and kept; a misaligned address halts the operation (R182, R184, R362). -/
def readDesc (core : Nat) (o : EngOp) (n k : Nat) : EngM EngOp := do
  if 8 * (k + 2) ≤ o.params.length then pure o
  else
    if o.w n % 64 != 0 then engFault .misaligned (o.w n)
    let o := { o with params := o.params ++ (← engBlock core o (o.w n)) }
    engMod fun s => s.modOp core o.id fun q => { q with params := o.params }
    pure o

/-- Checks of TCOPY at issue: the operation with its descriptors, and its status when it ends at once. Both descriptors are read
before either is tested; of several failures the first of MALFORMED, SHAPE, a misaligned swizzle base, the range checks and OVERLAP
counts, an order the spec does not give (log 49); a destination with scales takes any source format (log 50). -/
def prepTcopy (core : Nat) (o : EngOp) : EngM (EngOp × Option Nat) := do
  if o.f 4 63 40 != 0 || 4 ≤ o.f 4 38 36 || o.f 4 31 0 != 0 || !o.zeroFrom 5 || badAddr (o.f 4 33 32) (o.w 0) ||
      badAddr (o.f 4 35 34) (o.w 1) then pure (o, some stMalformed)
  else
    let o ← readDesc core o 2 0
    let o ← readDesc core o 3 1
    let a := o.tsrc
    let b := o.tdst
    if a.d.malformed || b.d.malformed || (!b.d.scl && !tcopyPair a.d.fmt a.d.scl b.d.fmt) then pure (o, some stMalformed)
    else if a.d.rank != b.d.rank || (List.range 5).any fun k => a.d.size k != b.d.size k then pure (o, some stShape)
    else
      checkSwizzle core o a
      checkSwizzle core o b
      checkTensor core o a true false
      checkTensor core o b true true
      pure (o, if (← get).rangesMeet core o a.space (a.bounds true) b.space (b.bounds true) then some stOverlap else none)

/-- The scale of an element's block in the source, where it has one. -/
def srcScale (core : Nat) (o : EngOp) (t : Tensor) (i : List Nat) : EngM (Option Nat) := do
  if t.d.scl then
    let bs ← engRead core o t.space (t.scaleAt i) 1
    pure (some (bytesVal bs))
  else pure none

/-- Convert one block of 128 elements into a destination with scales (R190). -/
def blockOuts (core : Nat) (o : EngOp) (a b : Tensor) (i : List Nat) : EngM (List EngOut) := do
  let cs := (List.range 128).map fun k => listMod i 0 (· + k)
  let vs ← engMap (readElem core o a) cs
  let sc ← srcScale core o a i
  let writes (scale : Nat) (f : Nat → Nat) : List EngOut :=
    byteOuts b.space (b.scaleAt i) (valBytes 1 scale) 0 0 ++ (cs.zip vs).flatMap fun q => elemOuts b q.1 (f q.2) 0 1
  if a.d.scl && a.d.fmt == b.d.fmt then pure (writes (sc.getD 0) id)
  else
    let value (v : Nat) : FVal := match sc with | none => elemVal a.d.fmt v | some e => scaled (elemVal a.d.fmt v) e
    let scale := scaleFor ((vs.map value).foldl absMax (.fin false 0 0)) b.d.fmt.code.toNat
    pure (writes scale fun v => quantise (b.d.fmt == .int8) ⟨.rne, 0, 0⟩ (value v) scale)

/-- A unit of TCOPY: an element, or a block of a destination with scales. -/
def readTcopy (core : Nat) (o : EngOp) (u : EngWork) : UnitRead := do
  let a := o.tsrc
  let b := o.tdst
  if b.d.scl then
    let i := listMod (coords (fun k => if k = 0 then b.d.size 0 / 128 else b.d.size k) u.first) 0 (· * 128)
    pure ([], ← blockOuts core o a b i)
  else
    let mode : RMode := ⟨match o.f 4 38 36 with | 0 => .rne | 1 => .rz | 2 => .ru | _ => .rd, 0, 0⟩
    let i := coords a.d.size u.first
    let v ← readElem core o a i
    let sc ← srcScale core o a i
    pure ([], elemOuts b i (tcopyElem a.d.fmt b.d.fmt sc mode (o.f 4 39 39 == 1) v) 0 1)

/-! ## GATH and SCAT (R192, R363) -/

/-- Elements packed as bytes, in order: 4-bit elements two to a byte unless each has its own (R164, R186). -/
def packElems (w : Nat) (alone : Bool) : List Nat → List (BitVec 8)
  | [] => []
  | v :: t =>
    if w = 4 && !alone then
      match t with
      | [] => valBytes 1 (v % 16)
      | u :: r => valBytes 1 (v % 16 + u % 16 * 16) ++ packElems w alone r
    else valBytes (max 1 (w / 8)) v ++ packElems w alone t

/-- Element `j` of packed bytes. -/
def unpackElem (w : Nat) (alone : Bool) (bs : List (BitVec 8)) (j : Nat) : Nat :=
  if w = 4 && !alone then (let b := (bs.getD (j / 2) 0).toNat; if j % 2 = 1 then b / 16 else b % 16)
  else if w = 4 then (bs.getD j 0).toNat % 16
  else bytesVal ((bs.drop (j * (w / 8))).take (w / 8))

/-- Checks of GATH and SCAT at issue. -/
def prepGather (core : Nat) (o : EngOp) : EngM (EngOp × Option Nat) := do
  let gath := o.req.kind == .gath
  let ls := o.f 4 35 34
  if o.f 4 63 36 != 0 || !o.zeroFrom 5 || badAddr (o.f 4 33 32) (o.w 0) || badAddr ls (o.w 1) || o.w 3 % 4 != 0 then
    pure (o, some stMalformed)
  else
    let o ← readDesc core o 2 0
    let t := o.tsrc
    if t.d.malformed then pure (o, some stMalformed)
    else
      checkSwizzle core o t
      checkTensor core o t false (!gath)
      let len := o.f 4 31 0 * t.d.tileBytes
      engCross ls (o.w 1) len
      if o.w 1 % 4 != 0 || t.d.tileBytes % 4 != 0 then engAcc ls (o.w 1) 1
      engCheck core o ls (o.w 1) len gath
      pure (o, if (← get).rangesMeet core o t.space (t.bounds false) ls (o.w 1, len) then some stOverlap else none)

/-- Bytes of a cell of a tile slot: whole elements; four in the register range, as mailbox stores, and in the accumulators (log 49). -/
def EngOp.cellBytes (o : EngOp) : Nat := if inRegs (o.f 4 35 34) (o.w 1) || inAcc (o.f 4 35 34) (o.w 1) then 4 else max 1 (o.tsrc.d.elemBits / 8)

/-- A unit of GATH and SCAT: a list entry, read when its tile is moved (R363), then the cells of its tile. -/
def readGather (core : Nat) (o : EngOp) (u : EngWork) : UnitRead := do
  let t := o.tsrc
  let ls := o.f 4 35 34
  let gath := o.req.kind == .gath
  let n := o.cellBytes
  match u.tile with
  | none =>
    let bs ← engRead core o 0 (wrapAddr 0 ((o.w 3 + 4 * t.d.rank * u.first : Nat) : Int)) (4 * t.d.rank)
    let c := (List.range 5).map fun k => if k < t.d.rank then bytesVal ((bs.drop (4 * k)).take 4) else 0
    let out := (List.range t.d.rank).any fun k => t.d.tiles k ≤ c.getD k 0
    if out then engMod fun s => s.modOp core o.id fun q => { q with bounds := true }
    pure (if out && !gath then [] else [{ first := 0, n := t.d.tileBytes / n, tile := some (u.first, c) }], [])
  | some (e, c) =>
    let slot := wrapAddr ls ((o.w 1 + e * t.d.tileBytes + n * u.first : Nat) : Int)
    let per := 8 * n / t.d.elemBits
    let elems := (List.range per).map fun j => t.d.tileElem c (u.first * per + j)
    if gath then
      let vs ← engMap (fun (q : List Nat × Bool) => if q.2 then readElem core o t q.1 else pure 0) elems
      pure ([], byteOuts ls slot (packElems t.d.fmt.width t.d.pack vs) 0 0)
    else
      let bs ← engRead core o ls slot n
      pure ([], elems.zipIdx.flatMap fun q =>
        if q.1.2 then elemOuts t q.1.1 (unpackElem t.d.fmt.width t.d.pack bs q.2) (indexOf t.d.tiles c + 1) 0 else [])

/-! ## ISTREAM (R367) -/

/-- Read GL on a Firn die: through its TLB, a miss waiting for the die's walker (R71, R221). -/
def firnRead (firn core : Nat) (o : EngOp) (addr n : Nat) : EngM (List (BitVec 8)) := do
  let bss ← engMap (fun (q : Nat × Nat) => do
    let va : DWord := BitVec.ofNat 64 q.1
    if q.1 / 2 ^ 55 != 0 then
      let _ ← engPlace core o q.1 .read
    match tlbFind ((← get).firn firn).tlb o.ctx q.1 .read with
    | none =>
      engMod fun s => s.modFirn firn fun x => { x with missq := missAdd x.missq { ctx := o.ctx, va, acc := .read, core, waiters := [(.op core o.id, va, .read)] } }
      throw .wait
    | some e =>
      let (s, bs) := (← get).engGet core (o.by_ core) (e.place q.1) q.2
      set s
      pure bs) (pieces (n / 64 + 2) addr n)
  pure bss.flatten

/-- Bytes of a row: 65,536 is coded as 0. -/
def EngOp.rowBytes (o : EngOp) : Nat := if o.f 4 23 0 = 0 then 65536 else o.f 4 23 0

/-- The warp slot of a control thread's stream names a team of the context. -/
def State.servedTeam (s : State) (core x slot : Nat) : Option Nat :=
  (s.warp? core slot).bind fun w => if w.ctx == x then some w.team else none

/-- Named barriers of a team. -/
def State.barrierCount (s : State) (core : Nat) (team : Option Nat) : Nat := ((team.bind (s.core core).team?).map (·.nbs.length)).getD 0

/-- Register a party at a named barrier with pledge 1, and tell its phase (R241, R365). -/
def regBarrier (core : Nat) (team : Option Nat) (b : Nat) (p : Party) : EngM Nat := do
  let s ← get
  match team with
  | none => pure 0
  | some t =>
    let ph := (((s.core core).team? t).bind fun t => t.nbs[b]?).map (·.ph)
    set (s.modNBar core t b fun x => x.join p 1)
    pure (ph.getD 0)

/-- Checks of ISTREAM at issue. -/
def prepIstream (core : Nat) (o : EngOp) : EngM (EngOp × Option Nat) := do
  let iw := if o.f 4 24 24 = 1 then 8 else 4
  let fromCtl := o.issuer.any (·.isCtl)
  let s ← get
  let served := if fromCtl then s.servedTeam core o.ctx (o.f 4 36 32) else o.team
  let o := { o with team := served, slot := if fromCtl then o.f 4 36 32 else o.slot }
  if o.f 4 63 37 != 0 || (!fromCtl && o.f 4 36 32 != 0) || served.isNone || o.f 3 63 48 != 0 || !o.zeroFrom 5 ||
      o.w 0 % iw != 0 || 65536 < o.rowBytes || o.rowBytes % 4 != 0 || o.w 1 % 4 != 0 || o.f 3 47 0 % 4 != 0 || o.f 2 31 0 % 4 != 0 ||
      (o.f 4 25 25 = 1 && s.barrierCount core served ≤ o.f 4 31 26) then pure (o, some stMalformed)
  else
    engCheck core o 1 (o.f 2 31 0) (o.f 2 63 32 * o.rowBytes) true
    if o.f 4 25 25 = 1 then
      let _ ← regBarrier core served (o.f 4 31 26) (.op o.id)
      pure ({ o with nb := some (o.f 4 31 26) }, none)
    else pure (o, none)

/-- A unit of ISTREAM on the Firn die that homes the first byte of IDX: an index, then the bytes of its row. -/
def readIstream (core : Nat) (o : EngOp) (u : EngWork) : UnitRead := do
  let first ← engPlace core o (o.w 0) .read
  let s ← get
  let firn := match first with | .dev d => (s.homeOf d).1 | _ => 0
  match u.tile with
  | none =>
    let iw := if o.f 4 24 24 = 1 then 8 else 4
    let ib ← firnRead firn core o (wrapAddr 0 ((o.w 0 + iw * u.first : Nat) : Int)) iw
    pure ([{ first := 0, n := o.rowBytes, tile := some (u.first, [bytesVal ib]) }], [])
  | some (e, x) =>
    let row : Int := (o.w 1 : Int) + (x.headD 0 : Nat) * signedOf (o.f 3 47 0) 48
    let bs ← firnRead firn core o (wrapAddr 0 (row + (u.first : Nat))) 1
    pure ([], byteOuts 1 (o.f 2 31 0 + e * o.rowBytes + u.first) bs 0 0)

/-! ## HANDOFF (R368) -/

/-- Checks of HANDOFF at issue. -/
def prepHandoff (o : EngOp) : Option Nat :=
  if o.f 2 63 32 != 0 || o.f 1 63 33 != 0 || !o.zeroFrom 4 || o.f 1 31 0 = 0 || 1048576 < o.f 1 31 0 || o.w 0 % 4096 != 0 || o.w 3 % 8 != 0
  then some stMalformed else none

/-- The host page an address of GL lies in, if its leaf has TGT = 1. -/
def hostPageOf : Place → Option Nat
  | .host _ a _ => some (a / 4096)
  | _ => none

/-- A unit of HANDOFF: the next page of GL is translated; its host page continues the run, or the operation will end MALFORMED. The
first page of the run is kept after the parameter block. -/
def readHandoff (core : Nat) (o : EngOp) (u : EngWork) : UnitRead := do
  let p ← engPlace core o (o.w 0 + 4096 * u.first) .read
  let bad (s : State) : State := s.modOp core o.id fun q => { q with status := stMalformed }
  match hostPageOf p with
  | none => engMod bad
  | some page =>
    if u.first = 0 then engMod fun s => s.modOp core o.id fun q => { q with params := q.params.take 8 ++ [BitVec.ofNat 64 page] }
    else if page != o.w 8 + u.first then engMod bad
  pure ([], [])

/-- HANDOFF once its pages are translated: begin, await and end the handover; then the status word and MSI-X. `phase` 0: not
arrived; 3: it waits for its turn (R105); 1: begun; 2: ended with the code in `status`. The result is the operation's code. -/
def runHandoff (core : Nat) (o : EngOp) (toHost : Bool) : EngM Nat := do
  let n := o.f 1 31 0
  let vf := (← get).vfOf o.ctx
  let page := o.w 8
  if o.phase = 0 && o.status != 0 then pure stMalformed
  else
    let fresh := o.phase = 0 || o.phase = 3
    if fresh && o.w 3 != 0 then let _ ← engPlace core o (o.w 3) .write
    let s ← get
    if o.phase = 0 then set (s.modOp core o.id fun q => { q with phase := 3 })
    let early := o.phase = 0 && n ≤ 1048576 && (s.vf vf).inTransit page n
    if fresh && !early && s.handBehind vf page n [] then throw .wait
    let refusal := if early then some 5 else if fresh then (s.vf vf).handRefusal toHost page n else none
    let code ← match refusal with
      | some c => pure c
      | none => do
        if fresh then engMod fun s => (s.handBegin vf toHost page n).modOp core o.id fun q => { q with phase := 1 }
        if o.phase = 2 then pure o.status
        else
          engMod fun s => s.handMore vf toHost page n
          if (← get).handWaits vf toHost page n then throw .wait
          let (s, c) := (← get).handEnd vf toHost page n
          set (s.modOp core o.id fun q => { q with phase := 2, status := c })
          pure c
    if o.w 3 != 0 then engWrite core o 0 (o.w 3) (handStatus code (o.f 2 31 0))
    engMod fun s => if o.f 1 32 32 = 1 then s.msix vf 1 else s
    pure (if code = 1 then 0 else 0x10 + code)

end Sys2Proof.Machine
end

