-- ==== Sys2Proof/Machine/Streams.lean ====
section
/-! DEFINITION. Address-generator streams (R364 to R366) and the rows of MXFEEDS (R373): checks at issue, one buffer,
entry or row at a time, and what ends them. -/

namespace Sys2Proof.Machine

/-! ## Fields of STREAM (Table 16.7) -/

def EngOp.sGen (o : EngOp) : Nat := o.f 3 2 0
def EngOp.sSpace (o : EngOp) : Nat := o.f 3 4 3
/-- DIR: core to memory. -/
def EngOp.sOut (o : EngOp) : Bool := o.f 3 5 5 == 1
/-- TGT: channel port. -/
def EngOp.sChan (o : EngOp) : Bool := o.f 3 6 6 == 1
def EngOp.sGo (o : EngOp) : Bool := o.f 3 8 8 == 1
def EngOp.sNbv (o : EngOp) : Bool := o.f 3 9 9 == 1 && !o.sChan
def EngOp.sFull (o : EngOp) : Nat := o.f 3 21 16
def EngOp.sFree (o : EngOp) : Nat := o.f 3 27 22
def EngOp.sSlot (o : EngOp) : Nat := o.f 3 32 28
/-- B: ring buffers. -/
def EngOp.sBufs (o : EngOp) : Nat := o.f 3 37 33 + 1
def EngOp.sTensor (o : EngOp) : Tensor := ⟨o.desc 0, o.sSpace, o.w 0⟩
/-- Bytes of a buffer, or of a channel entry. -/
def EngOp.sUnit (o : EngOp) : Nat := if o.sChan then 128 else o.f 2 63 32

/-- Elements of the stream: every tile whole. -/
def Tensor.streamElems (t : Tensor) : Nat := ((List.range 5).map t.d.tiles).foldl (· * ·) 1 * t.d.tileElems
/-- Bytes of the stream, elements packed densely. -/
def Tensor.streamBytes (t : Tensor) : Nat := (t.streamElems * t.d.fmt.width + 7) / 8
/-- Buffers or entries of the stream. -/
def EngOp.sUnits (o : EngOp) : Nat := (o.sTensor.streamBytes + o.sUnit - 1) / o.sUnit

/-- The coordinates of the n-th element in stream order, and whether they lie in the tensor. -/
def Tensor.streamElem (t : Tensor) (n : Nat) : List Nat × Bool :=
  t.d.tileElem (coords t.d.tiles (n / t.d.tileElems)) (n % t.d.tileElems)

/-- Set what a generator holds. -/
def State.putGen (s : State) (core g : Nat) (x : Option Stream) : State :=
  s.modCore core fun k => { k with gens := listMod k.gens g fun _ => x }

/-- Checks of STREAM at issue, and its registration (R364, R365). A generator that another stream holds makes the issue
wait. -/
def prepStream (core : Nat) (o : EngOp) : EngM (EngOp × Option Nat) := do
  let s ← get
  let served := s.servedTeam core o.ctx o.sSlot
  let o := { o with team := served, slot := o.sSlot }
  let chans := ((served.bind (s.core core).team?).map (·.chans)).getD []
  let nbs := s.barrierCount core served
  if !o.zeroFrom 4 || o.f 3 63 38 != 0 || (o.sSpace != 0 && o.sSpace != 2) || badAddr o.sSpace (o.w 0) || o.w 1 % 64 != 0 ||
      served.isNone || (!o.sChan && (o.f 2 63 32 % 128 != 0 || o.f 2 63 32 = 0 || 65536 < o.f 2 63 32 || o.f 2 31 0 % 128 != 0)) ||
      (o.sChan && (chans.getD (o.f 3 15 10) default).kind != (if o.sOut then .sink else .source)) ||
      (o.f 3 9 9 == 1 && (nbs ≤ o.sFull || nbs ≤ o.sFree)) then pure (o, some stMalformed)
  else if ((s.core core).gens.getD o.sGen none).isSome then throw .busy
  else
    let o ← readDesc core o 1 0
    let t := o.sTensor
    if t.d.malformed then pure (o, some stMalformed)
    else
      checkSwizzle core o t
      checkTensor core o t false o.sOut
      if !o.sChan then engCheck core o 1 (o.f 2 31 0) (o.sBufs * o.f 2 63 32) (!o.sOut)
      let p0 ← if o.sNbv then regBarrier core served (if o.sOut then o.sFree else o.sFull) (.stream o.sGen) else pure 0
      engMod fun s => s.putGen core o.sGen (some { op := o.id, st := if o.sGo then .running else .loaded, p0 := p0 })
      pure ({ o with nb := if o.sNbv then some (if o.sOut then o.sFree else o.sFull) else none }, none)

/-- Phase `w` of a named barrier has completed. -/
def NBar.passed (b : NBar) (w : Nat) : Bool :=
  let d := (b.ph + 2 ^ 32 - w % 2 ^ 32) % 2 ^ 32
  d != 0 && d < 2 ^ 31

/-- A named barrier of the team served. -/
def State.servedBar (s : State) (core : Nat) (o : EngOp) (b : Nat) : Option NBar :=
  (o.team.bind (s.core core).team?).bind fun t => t.nbs[b]?

/-- Buffer `j` may move (R365). -/
def State.bufferReady (s : State) (core : Nat) (o : EngOp) (st : Stream) (j : Nat) : Bool :=
  if !o.sNbv then true
  else if o.sOut then (s.servedBar core o o.sFull).any fun b => b.passed (st.p0 + j)
  else j < o.sBufs || (s.servedBar core o o.sFree).any fun b => b.passed (st.p0 + j - o.sBufs)

/-- Bytes of unit `j`. -/
def EngOp.sBytes (o : EngOp) (j : Nat) : Nat := min o.sUnit (o.sTensor.streamBytes - j * o.sUnit)

/-- Bytes of a cell of a stream: a whole element, or two nibbles. -/
def EngOp.sCell (o : EngOp) : Nat := max 1 (o.sTensor.d.fmt.width / 8)

/-- A row of lane values from bytes, and the lanes that hold data. -/
def laneRow (bs : List (BitVec 8)) : Mask × Lanes :=
  (maskOf ((List.range 32).filter fun l => 4 * l < bs.length), Lanes.of fun l => BitVec.ofNat 32 (bytesVal ((bs.drop (4 * l)).take 4)))

/-- The bytes of a channel entry. -/
def rowBytes (v : Lanes) (n : Nat) : List (BitVec 8) := (List.range n).map fun i => (v.at (i / 4)).extractLsb' (8 * (i % 4)) 8

/-- A cell of unit `j`, which counts to COUNT when it has been delivered: elements out of range are delivered as zeros and are not written (R364); of a sink port's entry the lanes
of its mask alone are consumed (R349). -/
def readStream (core : Nat) (o : EngOp) (j : Nat) (u : EngWork) : UnitRead := do
  let t := o.sTensor
  let w := t.d.fmt.width
  let n := o.sCell
  let at_ := n * u.first
  let ring := o.f 2 31 0 + j % o.sBufs * o.f 2 63 32 + at_
  let elems := (List.range (8 * n / w)).map fun k => t.streamElem ((j * o.sUnit + at_) * 8 / w + k)
  let ok (k : Nat) : Bool := decide ((j * o.sUnit + at_) * 8 / w + k < t.streamElems)
  if !o.sOut then
    let vs ← engMap (fun (q : (List Nat × Bool) × Nat) => if q.1.2 && ok q.2 then readElem core o t q.1.1 else pure 0) elems.zipIdx
    let bs := (packElems w false vs).take n
    if o.sChan then pure ([], bs.zipIdx.map fun q => { dst := .row (at_ + q.2), data := [q.1] })
    else pure ([], byteOuts 1 ring bs 0 n)
  else
    let bs ← if o.sChan then pure ((o.row.drop at_).take n) else engRead core o 1 ring n
    let live := !o.sChan || o.rowMask.getLsbD (at_ / 4)
    let writes := elems.zipIdx.filter fun q => live && q.1.2 && ok q.2
    pure ([], writes.zipIdx.flatMap fun p =>
      elemOuts t p.1.1.1 (unpackElem w false bs p.1.2) 0 (if p.2 + 1 = writes.length then n else 0))

/-- The channel of a stream with a port. -/
def State.streamChan (s : State) (core : Nat) (o : EngOp) : Chan :=
  (((s.core core).team? (o.team.getD 0)).map fun t => t.chan (o.f 3 15 10)).getD default
def State.modStreamChan (s : State) (core : Nat) (o : EngOp) (f : Chan → Chan) : State :=
  s.modTeam core (o.team.getD 0) fun t => t.modChan (o.f 3 15 10) f

/-- BEGIN unit `j` of a stream: a sink port's next entry is taken; none there makes it wait. -/
def beginUnit (core : Nat) (o : EngOp) (j : Nat) : EngM Unit := do
  let n := o.sBytes j
  let work : List EngWork := [{ first := 0, n := (n + o.sCell - 1) / o.sCell }]
  let go (row : List (BitVec 8)) (m : Mask) (s : State) : State :=
    s.modOp core o.id fun q => { q with work, row, rowMask := m, phase := 1 }
  if o.sOut && o.sChan then
    match ((← get).streamChan core o).items with
    | [] => throw .wait
    | (m, v) :: rest => engMod fun s => go (rowBytes v n) m (s.modStreamChan core o fun c => { c with items := rest })
  else engMod (go (List.replicate n 0) 0)

/-- END unit `j`, whose writes have been performed: a source port takes the entry, once it has room, and its bytes are delivered. -/
def endUnit (core : Nat) (o : EngOp) (j : Nat) : EngM Unit := do
  if !o.sOut && o.sChan then
    if !((← get).streamChan core o).room then throw .wait
    else
      let (m, v) := laneRow o.row
      engMod fun s => (s.modStreamChan core o fun c => c.push m v).modOp core o.id fun q => { q with pos := q.pos + o.sBytes j }
  engMod fun s => s.modOp core o.id fun q => { q with phase := 0, row := [] }

/-- A generator's arrival after unit `j` (R134, R365). -/
def State.streamArrive (s : State) (core : Nat) (o : EngOp) : State :=
  match o.nb, o.team with
  | some _, some t => s.modNBar core t (if o.sOut then o.sFree else o.sFull) fun b => b.arrive (.stream o.sGen) 1
  | _, _ => s

/-! ## MXFEEDS (R373) -/

/-- Bytes of an A row in a format (R373). -/
def rowSize (fmt : Nat) : Nat := if fmt = 8 then 64 else if fmt = 2 then 256 else 128

/-- An A format code (R372). -/
def aFormat (fmt : Nat) : Bool := fmt == 7 || fmt == 8 || fmt == 2

def EngReq.mfS0 (r : EngReq) : Nat := bitsOf r.b.toNat 5 0
def EngReq.mfRows (r : EngReq) : Nat := bitsOf r.b.toNat 12 6 + 1
def EngReq.mfFmt (r : EngReq) : Nat := bitsOf r.b.toNat 16 13
def EngReq.mfSlot (r : EngReq) : Nat := bitsOf r.b.toNat 21 17

/-- Checks of MXFEEDS at issue; its issue waits until a generator is free. -/
def prepMxfeeds (core : Nat) (o : EngOp) : EngM (EngOp × Option Nat) := do
  let s ← get
  let r := o.req
  let served := s.servedTeam core o.ctx r.mfSlot
  let o := { o with team := served, slot := r.mfSlot, params := [r.a] }
  if bitsOf r.b.toNat 31 22 != 0 || !aFormat r.mfFmt || served.isNone || r.a.toNat % rowSize r.mfFmt != 0 then pure (o, some stMalformed)
  else if (s.core core).mx.holder != some o.ctx then engFault .mxState r.a.toNat
  else
    match (List.range 8).find? fun g => ((s.core core).gens.getD g none).isNone with
    | none => throw .busy
    | some g =>
      engCheck core o 1 r.a.toNat (r.mfRows * rowSize r.mfFmt) false
      engCheck core o 1 r.c.toNat r.mfRows false
      engMod fun s => s.putGen core g (some { op := o.id, st := .running })
      pure (o, none)

/-- Row `j` of an MXFEEDS enters its slot, once that is EMPTY and no MXFEED has reserved a part of it. -/
def moveRow (core : Nat) (o : EngOp) (j : Nat) : EngM Unit := do
  let r := o.req
  let slot := (r.mfS0 + j) % 64
  let s ← get
  let q := (s.core core).mx.slots.getD slot default
  if q.st != .empty || !q.hold.isEmpty then throw .wait
  else
    let size := rowSize r.mfFmt
    let bs ← engRead core o 1 (r.a.toNat + j * size) size
    let ea ← engRead core o 1 (r.c.toNat + j) 1
    engMod fun s => s.modCore core fun k => { k with mx := { k.mx with slots := listMod k.mx.slots slot fun _ =>
      { st := .full, fmt := r.mfFmt, ea := ea.headD 0, data := bs } } }

end Sys2Proof.Machine
end

