-- ==== Sys2Proof/Machine/MxOps.lean ====
section
/-! DEFINITION. The end of an engine operation (R356), and the matrix path (R223 to R227, R369 to R377): its queue,
loading macros, adding K-blocks, zeroing and draining. -/

namespace Sys2Proof.Machine

/-! ## The end of an operation -/

/-- The status word (Table 16.2). -/
def EngOp.word (o : EngOp) (code : Nat) : DWord := BitVec.ofNat 64 (code % 256 + fieldAt o.bounds.toNat 8 1 + fieldAt o.pos 32 32)

/-- The parties an operation registered as. -/
def State.opParties (s : State) (core : Nat) (o : EngOp) : List Party :=
  .op o.id :: ((List.range 8).filter fun g => ((s.core core).gens.getD g none).any fun x => x.op == o.id).map Party.stream

/-- END an operation: its registrations are withdrawn, its generator is free, it leaves its queue and its team, and its
completion objects are written (R356, R241). -/
def State.finishOp (s : State) (core : Nat) (id code : Nat) : State :=
  match (s.core core).op? id with
  | none => s
  | some o =>
    let s := match o.team with
      | some t => (s.opParties core o).foldl (fun (s : State) p => s.leaveAll core t p) s
      | none => s
    let gen := (List.range 8).filter fun g => ((s.core core).gens.getD g none).any fun x => x.op == id
    let s := s.modCore core fun k =>
      { k with
        ops := k.ops.filter fun q => q.id != id
        gens := k.gens.map fun (g : Option Stream) => if g.any (fun x => x.op == id) then none else g
        teams := k.teams.map fun t => { t with ops := t.ops.filter (· != id) }
        mx := if k.mx.queue.head? == some id then { k.mx with queue := k.mx.queue.drop 1, active := false, kprog := 0, halted := false }
              else { k.mx with queue := k.mx.queue.filter (· != id) } }
    let s := { s with halts := s.halts.filter fun h => h.ctx != o.ctx || (h.req != Requester.op core id && !(gen.any fun g => h.req == Requester.stream core g)) }
    s.completeOp o (o.word code)

/-- HALT an operation on a fault and deliver it (R65). What it has read of its block and descriptors it
keeps: they are read once (R184), and a block whose own read faulted is read again (R355). -/
def State.haltOp (s : State) (core id : Nat) (f : FaultInfo) : State :=
  match (s.core core).op? id with
  | none => s
  | some o =>
    let gen := (List.range 8).find? fun g => ((s.core core).gens.getD g none).any fun x => x.op == id
    let s := s.modCore core fun k =>
      { k with
        ops := mapIf (fun q => q.id == id) (fun q => { q with st := .halted }) k.ops
        gens := k.gens.map fun g => g.map fun x => if x.op == id then { x with st := .halted } else x
        mx := if k.mx.queue.head? == some id then { k.mx with halted := true } else k.mx }
    let req : Requester := match gen, o.req.kind with
      | some g, _ => .stream core g
      | none, _ => .op core id
    s.deliver o.ctx req true f 0 0

/-! ## Arrangements (Table 9.6) -/

structure Arrangement where
  kbm  : Nat
  grps : Nat
  rows : Nat
  deriving DecidableEq, Repr

/-- K-blocks, column groups and accumulator rows of an arrangement. -/
def arrangement : MxArr → Arrangement
  | .a2048 => ⟨16, 1, 128⟩
  | .a512 => ⟨4, 4, 32⟩
  | .a128 => ⟨1, 16, 8⟩

/-- N, the columns of an arrangement. -/
def Arrangement.n (a : Arrangement) : Nat := 128 * a.grps

/-- The context holds the path of a core. -/
def State.holdsPath (s : State) (core x : Nat) : Bool := (s.core core).mx.holder == some x

/-- RELEASE the path: every cell, latch, accumulator and row slot is zero, every macro unloaded (R223, R370). -/
def State.clearPath (s : State) (core : Nat) : State :=
  let m := s.mem
  { s with mem := { m with wgt := Mem.clear m.wgt (core * 262144) 262144, scl := Mem.clear m.scl (core * 2048) 2048
                           acc := Mem.clear m.acc (core * 65536) 65536 } }.modCore core fun k =>
    { k with mx := { Mx.fresh with queue := k.mx.queue } }

/-! ## MXLOAD (R371) -/

def EngOp.mlFmt (o : EngOp) : Nat := o.f 2 3 0
def EngOp.mlQ0 (o : EngOp) : Nat := o.f 2 7 4
def EngOp.mlNq (o : EngOp) : Nat := o.f 2 11 8 + 1
def EngOp.mlWspc (o : EngOp) : Nat := o.f 2 13 12
def EngOp.mlSspc (o : EngOp) : Nat := o.f 2 15 14

/-- Bytes of weights and of scales that an MXLOAD moves. -/
def EngOp.mlWeights (o : EngOp) : Nat := 16384 * o.mlNq
def EngOp.mlScales (o : EngOp) : Nat := 128 * o.mlNq

/-- Checks of MXLOAD at issue. -/
def prepMxload (core : Nat) (o : EngOp) : EngM (Option Nat) := do
  if o.f 2 63 16 != 0 || !o.zeroFrom 3 || 16 < o.mlQ0 + o.mlNq || (o.mlFmt != 7 && o.mlFmt != 9) || o.w 0 % 128 != 0 ||
      badAddr o.mlWspc (o.w 0) || badAddr o.mlSspc (o.w 1) then pure (some stMalformed)
  else
    engCross o.mlWspc (o.w 0) o.mlWeights
    engCross o.mlSspc (o.w 1) o.mlScales
    engCheck core o o.mlWspc (o.w 0) o.mlWeights false
    engCheck core o o.mlSspc (o.w 1) o.mlScales false
    pure none

/-- A byte of a source of MXLOAD; from the accumulators it is taken out of its 4-byte word (R52). -/
def loadByte (core : Nat) (o : EngOp) (space addr : Nat) : EngM (List (BitVec 8)) := do
  if inAcc space addr then
    let bs ← engRead core o space (addr - addr % 4) 4
    pure ((bs.drop (addr % 4)).take 1)
  else engRead core o space addr 1

/-- A unit of MXLOAD: a byte of the weights, or, after them, of the scales. -/
def readMxload (core : Nat) (o : EngOp) (u : EngWork) : UnitRead := do
  let n := u.first
  if n < o.mlWeights then
    let bs ← loadByte core o o.mlWspc (wrapAddr o.mlWspc ((o.w 0 + n : Nat) : Int))
    pure ([], [{ dst := .cell (16384 * o.mlQ0 + n), data := bs }])
  else
    let k := n - o.mlWeights
    let bs ← loadByte core o o.mlSspc (wrapAddr o.mlSspc ((o.w 1 + k : Nat) : Int))
    pure ([], [{ dst := .scale (128 * o.mlQ0 + k), data := bs }])

/-- The parameter block of an MXLOAD, and the team it served, as the path keeps them (R371). -/
def EngOp.mlBlock (o : EngOp) : List DWord := o.params.take 8 ++ (o.team.map (BitVec.ofNat 64)).toList

/-- A whole MXLOAD marks its macros loaded (R371). -/
def State.markLoaded (s : State) (core : Nat) (o : EngOp) : State :=
  let mine (q : Nat) : Bool := o.mlQ0 ≤ q && q < o.mlQ0 + o.mlNq
  s.modCore core fun k => { k with mx := { k.mx with
    loaded := k.mx.loaded.zipIdx.map fun p => if mine p.2 then some o.mlFmt else p.1
    blocks := k.mx.blocks.zipIdx.map fun p => if mine p.2 then o.mlBlock else p.1 } }

/-! ## MXMUL (R374, R175 to R177) -/

def EngReq.mmRows (r : EngReq) : Nat := bitsOf r.a.toNat 6 0 + 1
def EngReq.mmKb (r : EngReq) : Nat := bitsOf r.a.toNat 10 7 + 1
def EngReq.mmKb0 (r : EngReq) : Nat := bitsOf r.a.toNat 14 11
def EngReq.mmG0 (r : EngReq) : Nat := bitsOf r.a.toNat 18 15
def EngReq.mmNg (r : EngReq) : Nat := bitsOf r.a.toNat 22 19 + 1
def EngReq.mmS0 (r : EngReq) : Nat := bitsOf r.a.toNat 28 23
def EngReq.mmAfmt (r : EngReq) : Nat := bitsOf r.b.toNat 3 0
def EngReq.mmWfmt (r : EngReq) : Nat := bitsOf r.b.toNat 7 4
def EngReq.mmNb (r : EngReq) : Nat := bitsOf r.b.toNat 13 8
def EngReq.mmNbv (r : EngReq) : Bool := bitsOf r.b.toNat 14 14 == 1
def EngReq.mmSlot (r : EngReq) : Nat := bitsOf r.b.toNat 19 15

/-- The fields of MXMUL that are checked at issue: a barrier the team has; without one it registers nowhere (R487). -/
def prepMxmul (core : Nat) (o : EngOp) : EngM (EngOp × Option Nat) := do
  let s ← get
  let r := o.req
  let served := if r.mmNbv then s.servedTeam core o.ctx r.mmSlot else none
  let o := { o with team := served, slot := r.mmSlot, params := [r.a] }
  if r.mmNbv && s.barrierCount core served ≤ r.mmNb then pure (o, some stMalformed)
  else if r.mmNbv then
    let _ ← regBarrier core served r.mmNb (.op o.id)
    pure ({ o with nb := some r.mmNb }, none)
  else pure (o, none)

/-- The fields of MXMUL that are checked at its turn. -/
def EngReq.mmMalformed (r : EngReq) (a : Arrangement) : Bool :=
  bitsOf r.a.toNat 31 29 != 0 || bitsOf r.b.toNat 31 20 != 0 || a.kbm < r.mmKb0 + r.mmKb || a.grps < r.mmG0 + r.mmNg ||
  64 < r.mmRows || a.rows < r.mmRows || !aFormat r.mmAfmt || (r.mmWfmt != 7 && r.mmWfmt != 9)

/-- Macros an MXMUL covers. -/
def EngReq.mmMacros (r : EngReq) (a : Arrangement) : List Nat :=
  (List.range r.mmNg).flatMap fun g => (List.range r.mmKb).map fun k => (r.mmG0 + g) * a.kbm + r.mmKb0 + k

/-- A macro that is not as the operation needs it (R374). -/
def Mx.macroFault (m : Mx) (r : EngReq) (a : Arrangement) : Option Code :=
  if (r.mmMacros a).any (fun q => (m.loaded.getD q none).isNone) then some .mxState
  else if (r.mmMacros a).any (fun q => m.loaded.getD q none != some r.mmWfmt) then some .mxFormatMismatch
  else none

/-- The bits of element `i` of a row. -/
def rowElem (fmt : Nat) (data : List (BitVec 8)) (i : Nat) : Nat :=
  if fmt = 8 then unpackElem 4 false data i else if fmt = 2 then unpackElem 16 true data i else unpackElem 8 true data i

/-- E′ of a BF16 element: its exponent field, or 1 (R176). -/
def bfExp (x : Nat) : Nat := max 1 (bitsOf x 14 7)

/-- The aligned integer of an element of a block (R175, R176). -/
def alignedElem (fmt emax x : Nat) : Int :=
  if fmt = 8 then signedOf x 4
  else if fmt = 7 then signedOf x 8
  else
    let m := if bitsOf x 14 7 = 0 then bitsOf x 6 0 else 128 + bitsOf x 6 0
    let v : Nat := m * 2 ^ 7 / 2 ^ (emax - bfExp x)
    if x.testBit 15 then -(v : Int) else (v : Int)

/-- The value of a weight cell: INT8, or 64 × w for DS8 (R175). -/
def weightVal (wfmt w : Nat) : Int := if wfmt = 9 then ds8Val w else signedOf w 8

/-- t of R177 for one row, column and K-block: FP32 bits. -/
def blockTerm (afmt wfmt : Nat) (row : RowSlot) (eb : Nat) (cell : Nat → Nat) : Nat :=
  let xs := (List.range 128).map (rowElem afmt row.data)
  let emax := (xs.map bfExp).foldl max 1
  if (afmt == 2 && xs.any fun x => bitsOf x 14 7 == 255) || row.ea.toNat == 255 || eb == 255 then nanCode .fp32
  else
    let sum : Int := xs.zipIdx.foldl (fun (r : Int) q => r + alignedElem afmt emax q.1 * weightVal wfmt (cell q.2)) 0
    let u : Int := ((row.ea.toNat : Int) - 127) + ((eb : Int) - 127) + (if wfmt = 9 then -6 else 0) + (if afmt = 2 then (emax : Int) - 141 else 0)
    roundVal .fp32 ⟨.rne, 0, 0⟩ false false (.fin (decide (sum < 0)) sum.natAbs u)

/-- An accumulator as FP32 bits. -/
def State.accOf (s : State) (core i : Nat) : Nat := bytesVal (Mem.getBytes s.mem.acc (core * 65536 + 4 * i) 4)
def State.setAcc (s : State) (core i v : Nat) : State :=
  { s with mem := { s.mem with acc := Mem.setBytes s.mem.acc (core * 65536 + 4 * i) (valBytes 4 v) } }

/-- ADD K-block `i` of an MXMUL (R374, R177). -/
def State.addBlock (s : State) (core : Nat) (r : EngReq) (a : Arrangement) (i : Nat) : State :=
  let kb := r.mmKb0 + i
  let slots := (s.core core).mx.slots
  let s := (List.range r.mmRows).foldl (fun s m =>
    let row := slots.getD ((r.mmS0 + i * r.mmRows + m) % 64) default
    (List.range (128 * r.mmNg)).foldl (fun s c =>
      let col := 128 * r.mmG0 + c
      let q := col / 128 * a.kbm + kb
      let eb := (Mem.get s.mem.scl (core * 2048 + q * 128 + col % 128)).toNat
      let cell (k : Nat) : Nat := (Mem.get s.mem.wgt (core * 262144 + q * 16384 + col % 128 * 128 + k)).toNat
      let t := blockTerm r.mmAfmt r.mmWfmt row eb cell
      let n := m * a.n + col
      s.setAcc core n (fAdd .fp32 ⟨.rne, 0, 0⟩ false (fval .fp32 (s.accOf core n)) (fval .fp32 t))) s) s
  let used (n : Nat) : Bool := (List.range r.mmRows).any fun m => (r.mmS0 + i * r.mmRows + m) % 64 == n
  s.modCore core fun k => { k with mx := { k.mx with kprog := i + 1, slots := k.mx.slots.zipIdx.map fun p => if used p.2 then {} else p.1 } }

/-- The first row of K-block `i` that stops the operation: a slot that is not FULL, or one of another format. -/
def Mx.rowStop (m : Mx) (r : EngReq) (i : Nat) : Option (Nat × Bool) :=
  (List.range r.mmRows).findSome? fun k =>
    let n := (r.mmS0 + i * r.mmRows + k) % 64
    let q := m.slots.getD n default
    if q.st != .full then some (n, false) else if q.fmt != r.mmAfmt then some (n, true) else none

/-! ## MXZERO, MXDRAIN and MXSTAT (R375 to R377) -/

/-- Zero accumulator rows. -/
def State.zeroRows (s : State) (core : Nat) (a : Arrangement) (r0 n : Nat) : State :=
  { s with mem := { s.mem with acc := Mem.clear s.mem.acc (core * 65536 + 4 * (r0 * a.n)) (4 * (n * a.n)) } }

/-- Rows that an MXFEEDS has delivered. -/
def Core.rowsFed (k : Core) (o : EngOp) : Nat :=
  (k.gens.findSome? fun (g : Option Stream) => (g.filter fun x => x.op == o.id).map Stream.pos).getD 0

/-- A halted MXFEEDS has still to deliver the row of a slot. -/
def Core.feederHalted (k : Core) (slot : Nat) : Bool :=
  k.ops.any fun o => o.st == .halted && o.req.kind == .mxfeeds &&
    (List.range o.req.mfRows).any fun j => k.rowsFed o ≤ j && (o.req.mfS0 + j) % 64 == slot

/-- The MXSTAT word (Table 16.14). -/
def State.mxstat (s : State) (core x : Nat) : Nat :=
  let k := s.core core
  if k.mx.holder != some x then 0
  else
    let arr := match k.mx.arr with | none => 3 | some .a2048 => 0 | some .a512 => 1 | some .a128 => 2
    let mul := (k.mx.queue.head?.bind k.op?).filter fun o => o.req.kind == .mxmul
    let stall := mul.any fun o => k.mx.halted || (k.mx.active && (k.mx.rowStop o.req k.mx.kprog).any fun q => !q.2 && k.feederHalted q.1)
    2 ^ 31 + fieldAt arr 29 2 + fieldAt k.mx.queue.length 23 6 + fieldAt k.mx.kprog 15 5 + fieldAt stall.toNat 14 1 +
      fieldAt (k.mx.slots.filter fun q => q.st == .full).length 7 7

end Sys2Proof.Machine
end

