-- ==== Sys2Proof/Machine/CollOps.lean ====
section
/-! DEFINITION. Communicators and collectives (R378 to R383, R447, R448): forming, the parts ranks bring, the fixed
tree over ranks, placing destinations, and the end of a communicator. -/

namespace Sys2Proof.Machine

/-! ## Communicators -/

/-- Change the communicators that satisfy a test. -/
def State.modComm (s : State) (p : Comm → Bool) (f : Comm → Comm) : State := { s with comms := mapIf p f s.comms }

/-- The context is a local member under a rank. -/
def Comm.hasMember (m : Comm) (rank x : Nat) : Bool := m.joined.any fun j => j.1 == rank && j.2 == some x

/-- The communicator a handle of a context names. -/
def State.commOf (s : State) (x : Nat) (h : Handle) : Option Comm := s.comms.find? fun m => m.id == h.comm && m.hasMember h.rank x

/-- Change a handle of a context. -/
def State.modHandle (s : State) (x h : Nat) (f : Handle → Handle) : State := s.modCtx x fun c => { c with comms := listMod c.comms h f }

/-- The partition of a context. -/
def State.partOf (s : State) (x : Nat) : Option Nat := (s.vf (s.vfOf x)).profile.map (·.1)

/-- A context of this device is the one a member table lists at a rank: by package, partition, function and CTX.ID (Table 16.15). -/
def State.listed (s : State) (members : List (DWord × DWord)) (rank x : Nat) : Bool :=
  let e := members.getD rank (0, 0)
  lowHalf e.1 == s.dev.package && s.partOf x == some (bitsOf e.1.toNat 39 32) && s.vfOf x == bitsOf e.1.toNat 47 40 &&
    (s.ctx? x).any fun c => c.id == lowHalf e.2

/-- A member that has joined is the one its table entry lists. -/
def State.memberOk (s : State) (m : Comm) (j : Nat × Option Nat) : Bool := j.2.all fun x => s.listed m.members j.1 x

/-- Every member listed has joined. -/
def State.commComplete (s : State) (m : Comm) : Bool :=
  m.st == .forming && (List.range m.nranks).all fun r => m.joined.any fun j => j.1 == r && s.memberOk m j

/-- A member joins a forming communicator of the same key, number of ranks and table, or forms a new one: the communicator it is in,
and the state. A context that the table does not list at its rank has one of its own, in which it takes no listed member's place. -/
def State.enterComm (s : State) (key nranks rank : Nat) (members : List (DWord × DWord)) (who : Option Nat) : Nat × State :=
  let fits (m : Comm) : Bool := who.all (s.listed members rank) && m.joined.all (s.memberOk m) && m.st == .forming && m.key == key && m.nranks == nranks && m.members == members && !(m.joined.any fun j => j.1 == rank)
  match s.comms.find? fits with
  | some m => (m.id, s.modComm (·.id == m.id) fun m => { m with joined := m.joined ++ [(rank, who)] })
  | none =>
    (s.nextComm, { s with nextComm := s.nextComm + 1
                          comms := s.comms ++ [{ id := s.nextComm, key, nranks, members, joined := [(rank, who)], st := .forming, since := s.time }] })

/-! ## What goes to peer packages (R470, R471, log 25) -/

/-- The column of a Vocia port: one port for each of the two Moraine dies of a column (Table 0.1, R449). -/
def portColumn (port : Nat) : Nat := port / 2

/-- The partition that owns a column. -/
def State.partitionOf (s : State) (col : Nat) : Option Nat := s.dev.parts.findIdx? fun p => p.first ≤ col && col < p.first + p.width

/-- Change a link. -/
def State.modLink (s : State) (port : Nat) (f : Link → Link) : State := { s with links := listMod s.links port f }

/-- A link sends the flits that wait, each for one credit of its channel: none is sent without (R470). -/
def Link.drain (l : Link) : Link :=
  l.waits.foldl (fun l q => if l.credits.getD q.1 0 = 0 then { l with waits := l.waits ++ [q] }
    else { l with credits := listMod l.credits q.1 (· - 1), txSeq := (l.txSeq + 1) % 4096 }) { l with waits := [] }

/-- Credits of a channel come back, at most 64 in all. -/
def Link.credited (l : Link) (ch n : Nat) : Link := ({ l with credits := listMod l.credits ch fun c => min 64 (c + n) } : Link).drain

/-- The Vocia port a context's messages leave by: the lowest of its partition's whose link is up. -/
def State.peerPort (s : State) (x : Nat) : Option Nat :=
  (List.range Config.vociaPorts).find? fun p =>
    (s.partOf x).isSome && s.partitionOf (portColumn p) == s.partOf x && (s.links.getD p default).down.isNone

/-- Send a context's flits, on one channel. -/
def State.sendFlits (s : State) (x ch : Nat) (l : List FlitBody) : State :=
  match s.peerPort x with
  | none => s
  | some p => s.modLink p fun k => ({ k with waits := k.waits ++ l.map (ch, ·) } : Link).drain

/-- Send flits to some of the members of a communicator that other packages hold, for the first local one. -/
def State.tellPeers (s : State) (m : Comm) (ch : Nat) (to_ : Nat → Bool) (l : List FlitBody) : State :=
  match m.joined.findSome? (·.2) with
  | none => s
  | some x => (m.joined.filter fun j => j.2.isNone && to_ j.1).foldl (fun s _ => s.sendFlits x ch l) s

/-- The engine that serves rank 0 is on this panel: it decides (R447). -/
def Comm.decidesHere (m : Comm) : Bool := !(m.joined.any fun j => j.1 == 0 && j.2.isNone)

/-- Decision of the k-th collective. -/
def Comm.decision (m : Comm) (k : Nat) : Option Bool := (m.colls.find? fun q => q.k == k).bind (·.decided)

/-- The deciding engine tells every other package what it has settled since `old` about the k-th collectives (R447). -/
def State.tellDecisions (s old : State) (k : Nat) : State :=
  s.comms.foldl (fun s m => match m.decision k with
    | some d =>
      if m.decidesHere && (old.comms.find? fun o => o.id == m.id).any (fun o => (o.decision k).isNone) then s.tellPeers m 1 (fun _ => true) [.decision m.key k d]
      else s
    | none => s) s

/-- A COMMNEW takes effect: its handle becomes FORMING and its rank joins; the other packages of the table are told. -/
def State.joinComm (s : State) (x handle key nranks rank : Nat) (members : List (DWord × DWord)) : State :=
  let (id, s) := s.enterComm key nranks rank members (some x)
  let far := members.filter fun e => lowHalf e.1 != s.dev.package
  let s := s.sendFlits x 0 (far.map fun _ => .join key nranks rank (members.map fun e => e.1.toNat + 2 ^ 64 * e.2.toNat))
  s.modHandle x handle fun _ => { st := .forming, comm := id, key, rank }

/-- A member of another package joins (log 25). -/
def State.joinRemote (s : State) (key nranks rank : Nat) (members : List (DWord × DWord)) : State :=
  (s.enterComm key nranks rank members none).2

/-- Set the state of every local handle of a communicator. -/
def State.markHandles (s : State) (m : Comm) (st : CommSt) : State :=
  m.joined.foldl (fun s j => match j.2 with
    | none => s
    | some x => s.modCtx x fun c => { c with comms := mapIf (fun h => h.comm == m.id && h.rank == j.1 && (h.st == .forming || h.st == .ready)) (fun h => { h with st }) c.comms }) s

/-- A communicator becomes DEAD (R383): its handles are DEAD, its incomplete collectives await a decision, and a deciding engine of another
package is sent an abort notice (R447). -/
def State.killComm (s : State) (m : Comm) : State :=
  if m.st == .dead then s
  else
    ((s.tellPeers m 0 (· == 0) [.abort m.key]).markHandles m .dead).modComm (· == m) fun m =>
      { m with st := .dead, colls := m.colls.map fun q => if q.decided.isSome then q else { q with deadAt := some s.time } }

/-- Every communicator a context belongs to becomes DEAD, and the context leaves it. -/
def State.killCommsOf (s : State) (x : Nat) : State :=
  let mine := s.comms.filter fun m => m.joined.any fun j => j.2 == some x
  mine.foldl (fun s m => s.killComm m) s

/-- A handle is freed (R379): its communicator becomes DEAD for the others, and goes when no local member is left. -/
def State.freeHandle (s : State) (x h : Nat) : State :=
  let hd := ((s.ctx? x).map fun c => c.comms.getD h {}).getD {}
  let s := match s.commOf x hd with
    | none => s
    | some m =>
      let s := s.killComm m
      let leave (q : Comm) : Comm := { q with joined := q.joined.filter fun j => !(j.1 == hd.rank && j.2 == some x) }
      let comms := mapIf (fun (q : Comm) => q.id == m.id) leave s.comms
      { s with comms := comms.filter fun q => q.joined.any fun j => j.2.isSome }
  s.modHandle x h fun _ => {}

/-! ## Parts of a collective -/

/-- The reduction's element operation (R380): RNE, subnormals kept, canonical NaNs; integers wrap. -/
def collOp (f : Fmt) (rop : Nat) (x y : Nat) : Nat :=
  match f.intRange with
  | some _ =>
    match rop with
    | 0 => (x + y) % 2 ^ f.width
    | 1 => if intVal f x ≤ intVal f y then x else y
    | _ => if intVal f x ≤ intVal f y then y else x
  | none =>
    match rop with
    | 0 => fAdd f ⟨.rne, 0, 0⟩ false (fval f x) (fval f y)
    | 1 => fMinMax f false true x y
    | _ => fMinMax f true true x y

/-- Levels of the tree over n ranks: the least k with n ≤ 2^k (R180). -/
def treeLevels (n : Nat) : Nat := (n - 1).log2 + (if n ≤ 1 then 0 else 1)

/-- Element `i` of a part's data. -/
def CollPart.elem (p : CollPart) (w i : Nat) : Nat := bytesVal ((p.data.drop (i * (w / 8))).take (w / 8))

/-- The part of a rank. -/
def Coll.part (q : Coll) (rank : Nat) : Option CollPart := q.parts.find? fun p => p.rank == rank

/-- Red over the ranks of element `i`. -/
def Coll.red (q : Coll) (n : Nat) (f : Fmt) (rop i : Nat) : Nat :=
  (treeRoot (collOp f rop) (treeLevels n) ((List.range n).map fun r => (q.part r).map fun p => p.elem f.width i)).getD 0

/-- What rank `r` writes at DST (Table 16.17), element by element; none where it writes nothing. -/
def Coll.dest (q : Coll) (n r : Nat) (p : CollPart) : List Nat :=
  let f := (fmtOf p.fmt).getD .fp32
  let src (k i : Nat) : Nat := ((q.part k).map fun x => x.elem f.width i).getD 0
  match p.var with
  | 0 => (List.range p.count).map fun i => q.red n f p.rop i
  | 1 => if r = p.root then (List.range p.count).map fun i => q.red n f p.rop i else []
  | 2 => (List.range p.count).map fun i => src p.root i
  | 3 => (List.range n).flatMap fun k => (List.range p.count).map fun i => src k i
  | 4 => (List.range p.count).map fun i => q.red n f p.rop (r * p.count + i)
  | 5 => (List.range n).flatMap fun k => (List.range p.count).map fun i => src k (r * p.count + i)
  | _ => []

/-- Elements a rank reads from SRC. -/
def collSrcCount (var n root r count : Nat) : Nat :=
  match var with
  | 2 => if r = root then count else 0
  | 4 | 5 => n * count
  | 6 => 0
  | _ => count

/-- A rank has brought the whole of its part: one of another package comes flit by flit. -/
def Coll.brought (q : Coll) (n rank : Nat) : Bool :=
  (q.part rank).any fun p => p.bad || p.data.length == ((fmtOf p.fmt).getD .fp32).width / 8 * collSrcCount p.var n p.root rank p.count

/-- A part as flits carry it: 240 bytes of payload each. -/
def CollPart.flits (p : CollPart) (key k : Nat) : List FlitBody :=
  (List.range (max 1 ((p.data.length + 239) / 240))).map fun i =>
    .collPart key k p.rank p.var p.fmt p.rop p.root p.count (240 * i) ((p.data.drop (240 * i)).take 240)

/-- Elements a rank writes at DST. -/
def collDstCount (var n root r count : Nat) : Nat :=
  match var with
  | 1 => if r = root then count else 0
  | 3 | 5 => n * count
  | 6 => 0
  | _ => count

/-- Every rank's parameters agree (R381). -/
def Coll.matches (q : Coll) : Bool :=
  match q.parts with
  | [] => true
  | p :: t => !p.bad && t.all fun r => !r.bad && r.var == p.var && r.count == p.count && r.fmt == p.fmt && r.rop == p.rop && r.root == p.root

/-! ## Fields of COLL (Table 16.16) -/

def EngOp.cCount (o : EngOp) : Nat := o.f 2 31 0
def EngOp.cFmt (o : EngOp) : Nat := o.f 2 35 32
def EngOp.cRop (o : EngOp) : Nat := o.f 2 37 36
def EngOp.cSspc (o : EngOp) : Nat := o.f 2 39 38
def EngOp.cDspc (o : EngOp) : Nat := o.f 2 41 40
def EngOp.cHnd (o : EngOp) : Nat := o.f 2 45 42
def EngOp.cRoot (o : EngOp) : Nat := o.f 3 31 0

/-- The rules of Table 16.16 on a block, for `n` ranks. -/
def EngOp.cMalformed (o : EngOp) (var n : Nat) : Bool :=
  let w := (((fmtOf o.cFmt).getD .fp32).width) / 8
  if var = 6 then o.w 0 != 0 || o.w 1 != 0 || o.w 3 != 0 || o.f 2 41 0 != 0 || o.f 2 63 46 != 0 || !o.zeroFrom 4
  else
    o.f 2 63 46 != 0 || o.f 3 63 32 != 0 || !o.zeroFrom 4 || !([0, 1, 2, 6, 11].contains o.cFmt) || o.cRop == 3 ||
    ((var == 2 || var == 3 || var == 5) && o.cRop != 0) || (if var == 1 || var == 2 then decide (n ≤ o.cRoot) else o.cRoot != 0) ||
    badAddr o.cSspc (o.w 0) || badAddr o.cDspc (o.w 1) || o.w 0 % w != 0 || o.w 1 % w != 0

/-- A rank brings its part. -/
def Coll.addPart (q : Coll) (p : CollPart) : Coll := if (q.part p.rank).isSome then q else { q with parts := q.parts ++ [p] }

/-- Change collective `k` of a communicator. -/
def State.modColl (s : State) (id k : Nat) (f : Coll → Coll) : State :=
  s.modComm (·.id == id) fun m => { m with colls := mapIf (fun q => q.k == k) f m.colls }

/-- Bytes of an element of a COLL. -/
def EngOp.cBytes (o : EngOp) : Nat := (((fmtOf o.cFmt).getD .fp32).width) / 8

/-- The part a rank brings: its parameters, and its source data. -/
def EngOp.cPart (o : EngOp) (core var rank : Nat) (data : List (BitVec 8)) (bad : Bool) : CollPart :=
  { rank, var, fmt := o.cFmt, rop := o.cRop, root := o.cRoot, count := o.cCount, data, op := some (core, o.id), bad }

/-- A COLL of the context that was issued before this one has not read its block: which communicator it counts on is not known. -/
def State.collAhead (s : State) (core : Nat) (o : EngOp) : Bool :=
  s.cores.any fun (p : Nat × Core) => p.2.ops.any fun q =>
    q.ctx == o.ctx && (match q.req.kind with | .coll _ => true | _ => false) && !q.issuing && q.params.isEmpty &&
    (o.issuing || (p.1 == core && decide (q.id < o.id)))

/-- ISSUE of a COLL on a handle: it is outstanding, and the k-th COLL of its rank joins the k-th collective, whatever its checks find
(R379, R381); one that follows a COLL halted on its block's read takes its number after it. -/
def issueColl (core : Nat) (o : EngOp) (m : Comm) (h : Handle) : EngM EngOp := do
  match o.comm with
  | some _ => pure o
  | none =>
    if (← get).collAhead core o then throw .wait
    let k := h.issued
    engMod fun s => (((s.modHandle o.ctx o.cHnd fun h => { h with issued := h.issued + 1, open_ := h.open_ + 1 }).modComm (·.id == m.id) fun m =>
      if m.colls.any (fun q => q.k == k) then m else { m with colls := m.colls ++ [{ k, parts := [] }] }).modOp core o.id
        fun q => { q with comm := some (m.id, k) })
    pure { o with comm := some (m.id, k) }

/-- Checks of COLL at issue. A malformed one ends MALFORMED, and for the other ranks its parameters differ (log 51); one whose
communicator has become DEAD since it fired ends ABORTED. -/
def prepColl (core : Nat) (o : EngOp) (var : Nat) : EngM (EngOp × Option Nat) := do
  let s ← get
  let h := ((s.ctx? o.ctx).map fun c => c.comms.getD o.cHnd {}).getD {}
  match s.commOf o.ctx h with
  | none => pure (o, some 4)
  | some m =>
    let o ← issueColl core o m h
    if o.cMalformed var m.nranks then
      engMod fun s => s.modColl m.id ((o.comm.map (·.2)).getD 0) fun q => q.addPart (o.cPart core var h.rank [] true)
      pure (o, some stMalformed)
    else if m.st == .dead then pure (o, some 4)
    else
      let a := o.cBytes * collSrcCount var m.nranks o.cRoot h.rank o.cCount
      let b := o.cBytes * collDstCount var m.nranks o.cRoot h.rank o.cCount
      engCross o.cSspc (o.w 0) a
      engCross o.cDspc (o.w 1) b
      if a != 0 then engAcc o.cSspc (o.w 0) o.cBytes
      if b != 0 then engAcc o.cDspc (o.w 1) o.cBytes
      engCheck core o o.cSspc (o.w 0) a false
      engCheck core o o.cDspc (o.w 1) b true
      pure (o, none)

/-- The communicator and collective of an operation, and the rank of its context. -/
def State.collOf (s : State) (o : EngOp) : Option (Comm × Coll × Nat) :=
  o.comm.bind fun ck => (s.comms.find? fun m => m.id == ck.1).bind fun m =>
    (m.colls.find? fun q => q.k == ck.2).map fun q => (m, q, ((m.joined.find? fun j => j.2 == some o.ctx).map (·.1)).getD 0)

/-- START a COLL once its communicator is READY: its engine goes on to read its source (R381, R382). -/
def startColl (core : Nat) (o : EngOp) (var : Nat) : EngM Unit := do
  match (← get).collOf o with
  | none => pure ()
  | some (m, _, r) =>
    if m.st != .ready then throw .wait
    else engMod fun s => s.modOp core o.id fun q =>
      { q with row := [], phase := 0, work := (match collSrcCount var m.nranks o.cRoot r o.cCount with | 0 => [] | n => [{ first := 0, n }]) }

/-- A unit of a COLL: the next element of its source. -/
def readColl (core : Nat) (o : EngOp) (u : EngWork) : UnitRead := do
  let bs ← engRead core o o.cSspc (wrapAddr o.cSspc ((o.w 0 + o.cBytes * u.first : Nat) : Int)) o.cBytes
  engMod fun s => s.modOp core o.id fun q => { q with row := q.row ++ bs }
  pure ([], [])

/-- The code the deciding engine has settled for a COLL, or MISMATCH once one rank's engine has found it, none before (R381, R383,
R447). -/
def State.collDecided (s : State) (o : EngOp) : Option Nat :=
  (s.collOf o).bind fun q => if q.2.1.mismatch then some 6 else q.2.1.decided.map fun done => if done then 0 else 4

/-- A rank's writes have all been performed; with the deciding engine, which serves rank 0, local, all ranks placed means DONE (R447). -/
def State.collPlaced (s : State) (core : Nat) (o : EngOp) (m : Comm) (k r : Nat) : State :=
  let t := s.modColl m.id k fun q =>
    let placed := r :: q.placed
    let all := (List.range m.nranks).all placed.contains
    { q with placed, decided := if all && m.decidesHere then some true else q.decided }
  ((t.tellDecisions s k).tellPeers m 1 (· == 0) [.placed m.key k r]).modOp core o.id fun q => { q with phase := 3 }

/-- The engine of a rank goes on: it reads its source and brings its part; a mismatch ends it; when every rank has brought its part
it places its destination; it completes when the deciding engine has settled the collective. -/
def runColl (core : Nat) (o : EngOp) (var : Nat) : EngM (Option Nat) := do
  let s ← get
  match s.collOf o, s.collDecided o with
  | none, _ => pure (some 4)
  | _, some code => pure (some code)
  | some (m, q, r), none =>
    if m.st == .dead then throw .wait
    match o.phase with
    | 0 =>
      if !o.work.isEmpty then engMove core o (readColl core o)
      else
        let p := o.cPart core var r o.row false
        engMod fun s => ((s.modColl m.id q.k fun q => q.addPart p).tellPeers m 2 (fun _ => true) (p.flits m.key q.k)).modOp core o.id
          fun q => { q with phase := 1, row := [] }
      pure none
    | 1 =>
      if !((List.range m.nranks).all (q.brought m.nranks)) then throw .wait
      else if !q.matches then
        engMod fun s => s.modColl m.id q.k fun q => { q with mismatch := true }
        pure (some 6)
      else
        let ds := ((q.part r).map (q.dest m.nranks r)).getD []
        engMod fun s => s.modOp core o.id fun q =>
          { q with phase := 2, outs := ds.zipIdx.flatMap fun d =>
              byteOuts o.cDspc (wrapAddr o.cDspc ((o.w 1 + o.cBytes * d.2 : Nat) : Int)) (valBytes o.cBytes d.1) 0 1 }
        if ds.isEmpty then engMod fun s => s.collPlaced core o m q.k r
        pure none
    | 2 =>
      if !o.outs.isEmpty then engMove core o (readColl core o)
      let s ← get
      let last := !(((s.core core).op? o.id).any fun q => !q.outs.isEmpty)
      if last && !s.mailOut core o.id then engMod fun s => s.collPlaced core o m q.k r
      else if o.outs.isEmpty then throw .wait
      pure none
    | _ => throw .wait

/-- A COLL operation has completed: the handle's outstanding count falls, and a collective no operation is left of goes. -/
def State.closeColl (s : State) (o : EngOp) : State :=
  match o.comm with
  | none => s
  | some (id, k) =>
    let s := s.modHandle o.ctx o.cHnd fun h => { h with open_ := h.open_ - 1 }
    let live := s.cores.any fun (p : Nat × Core) => p.2.ops.any fun q => q.comm == some (id, k)
    if live then s else s.modComm (·.id == id) fun m => { m with colls := m.colls.filter fun q => !(q.k == k && (q.decided.isSome || q.mismatch)) }

/-- The deciding engine settles a collective of a DEAD communicator (R447). -/
def State.decideColl (s : State) (key k : Nat) : State :=
  (s.modComm (fun m => m.key == key && m.st == .dead) fun m =>
    { m with colls := mapIf (fun q => q.k == k && q.decided.isNone) (fun q => { q with decided := some ((List.range m.nranks).all q.placed.contains) }) m.colls }).tellDecisions s k

end Sys2Proof.Machine
end

