-- ==== Sys2Proof/Machine/Stores.lean ====
section
/-! DEFINITION. Performing stores and REDs (R86, R87, R99, R101, R334, R336, R341): what a store does when it is applied,
at a block's commit or in a control thread. -/

namespace Sys2Proof.Machine

/-- The other cores of a die write back and drop a sector; so does the own one where a store waits for its grant. -/
def State.othersFlush (s : State) (core : Nat) (key : SKey) : State :=
  s.coresFlush (dieOf core) ((dieCores (dieOf core)).filter (· != core)) key

/-- A store that goes to its home or to host memory: a request with its bytes. -/
def State.storeOut (s : State) (who : Who) (idx : Nat) (cls : MClass) (p : Place) (bs : List (BitVec 8)) : State :=
  let (s, ord) := s.takeOrd who.core cls
  s.send who.core (s.ctxOf who) (.write p.sector (byteMask p.sectorByte bs.length) (overlay [] p.sectorByte bs) (some (who, idx))) ord

/-- The own L1's copy of a written-through sector takes the bytes and stays S (R336). -/
def State.throughCopy (s : State) (core : Nat) (key : SKey) (at_ : Nat) (bs : List (BitVec 8)) : State :=
  let s := s.flushSector core key false
  match (s.core core).l1? key with
  | none => s
  | some x => s.modCore core fun k => k.l1Put { x with data := overlay x.data at_ bs }

/-- APPLY one lane's store of `n` bytes. One to the own core's window is checked when it is performed, as one to another's is where it
arrives (R48, R52). It waits while an earlier access of the core to the sector is on its way. -/
def State.applyStore (s : State) (who : Who) (idx : Nat) (cls : MClass) (thru : Option Scope) (a : Access) (v : BitVec 128) : RelSt :=
  let core := who.core
  let bs := ofVal a.bytes v
  match a.place with
  | .sp t _ | .acc t _ =>
    if t == core then
      match s.windowBad (s.ctxOf who) a.place bs.length with
      | some code => .done (s.lateFault (s.ctxOf who) who code a.lane)
      | none => .done (s.homePoke none a.place bs)
    else .done (s.send core (s.ctxOf who) (.wstore who idx a.lane a.place bs))
  | .mbox _ _ _ _ => .done (s.send core (s.ctxOf who) (.mail a.place (bytesWords bs) who thru))
  | .host _ _ false => .done (s.storeOut who idx cls a.place bs)
  | .dev _ | .host _ _ true =>
    let key := a.place.sector
    if s.sectorBusy core key then .wait s
    else if cls == .ord then .done ((s.dieFlush (dieOf core) key).storeOut who idx cls a.place bs)
    else
      let through := match thru, a.place with
        | some .dev, .dev _ | some .sys, _ => true
        | _, _ => false
      if through then .done (((s.othersFlush core key).throughCopy core key a.place.sectorByte bs).storeOut who idx cls a.place bs)
      else
        let s := s.l1Store core (s.ctxOf who) key a.place.sectorByte bs
        .done (match who with
          | .ctl _ x => s.modCtl core x fun t => { t with stored := some key }
          | .warp _ _ _ => s)

/-- APPLY one lane's RED (R341): it leaves for its place after the die's copies have been written back (R87), with a number of its
own in class .ord (R99). -/
def State.applyRed (s : State) (who : Who) (idx : Nat) (op : AtomOp) (cls : MClass) (a : Access) (v : BitVec 128) : RelSt :=
  let core := who.core
  let s := match a.place with | .dev _ | .host _ _ true => s.dieFlush (dieOf core) a.place.sector | _ => s
  let (s, ord) := s.takeOrd core cls
  .done (s.send core (s.ctxOf who) (.atomic who idx a.lane a.place (some op) a.bytes v 0 false) ord)

/-- Apply lanes in ascending order; the result carries the lanes left when one has to wait. -/
def applyLanes (f : State → Access → BitVec 128 → RelSt) : State → List (Access × BitVec 128) → State × List (Access × BitVec 128)
  | s, [] => (s, [])
  | s, (a, v) :: rest =>
    match f s a v with
    | .wait s => (s, (a, v) :: rest)
    | .done s => applyLanes f s rest

/-- Lanes of one store or RED that have left the core for GL and are not performed: the commit waits for them (R116, R119, R336). -/
def State.storeInFlight (s : State) (who : Who) (idx : Nat) : Bool :=
  s.reqs.any fun r => match r.kind with
    | .write _ _ _ (some q) => q == (who, idx)
    | .atomic w i _ _ _ _ _ _ false => (w, i) == (who, idx)
    | _ => false

end Sys2Proof.Machine
end

