-- ==== Sys2Proof/Machine/CtxOps.lean ====
section
/-! DEFINITION. What the context forms do (chapters 17 and 20): releasing frames, the limits of grants, creating,
regranting and revoking, killing, completion words, resuming and reflecting halts, TLBINV, and the trace buffer. The host's
commands use the same operations. -/

namespace Sys2Proof.Machine

/-! ## Frames (R75, R76, R79) -/

/-- RELEASE a frame: its charge is cleared (R439), and it enters the scrub lists, or waits while they hold 256 frames.
`vf`: the function whose release command awaits it. -/
def State.releaseFrame (s : State) (frame : Nat) (vf : Option Nat) : State :=
  let s := { s with charges := tabDel frame s.charges }
  if (s.scrubOf frame).isSome then
    { s with scrubs := mapIf (fun x => x.frame == frame) (fun x => { x with counted := x.counted + 1, vfs := x.vfs ++ vf.toList }) s.scrubs }
  else if 256 ≤ s.scrubs.length then { s with waitRel := s.waitRel ++ [(frame, vf)] }
  else { s with scrubs := s.scrubs ++ [{ frame, st := .shootdown, vfs := vf.toList }] }

def State.releaseFrames (s : State) (fs : List Nat) : State := fs.foldl (fun s f => s.releaseFrame f none) s

/-- A released frame has reached READY. -/
def State.frameReady (s : State) (f : Nat) : Bool := (s.scrubOf f).isNone && !(s.waitRel.any fun q => q.1 == f)

/-- The frames charged to a context. -/
def State.framesOf (s : State) (x : Nat) : List Nat := (s.charges.filter fun q => q.2 == x).map (·.1)

/-! ## Grants (R438) -/

/-- The grant of a context, as parameters; `troot` is what Table 17.4 calls TROOT. -/
def Ctx.params (x : Ctx) : GrantParams :=
  { entry := x.entry, troot := if x.isFlat then x.shadow else x.troot, wbase := BitVec.ofNat 64 x.wbase, wsize := BitVec.ofNat 64 x.wsize
    cores := x.cores, frames := x.frames, mode := x.mode, flags := x.flags, prio := x.prio, nq := x.nq, tagb := x.tagb, trsh := x.trsh
    seed := if x.isFlat then x.troot else 0 }

/-- What a context has given away: the grants of its children, what a thread has reserved in place of what holds, and the
reserved grants of children to come. `skip` is left out. -/
def State.given (s : State) (x : Ctx) (skip : Nat) : List GrantParams :=
  let kids := s.ctxs.filter fun c => c.parent == some x.idx
  let held (i : Nat) : Option GrantParams := (x.held.find? fun h => h.2.1 == i).map (·.2.2)
  (kids.filter fun c => c.idx != skip).map (fun c => (held c.idx).getD c.params) ++
  (x.held.filter fun h => h.2.1 != skip && !(kids.any fun c => c.idx == h.2.1)).map (·.2.2)

def natSum (l : List Nat) : Nat := l.foldl (· + ·) 0

/-- A request exceeds what the caller has not given away (Table 20.1). -/
def State.overGrant (s : State) (x : Ctx) (skip : Nat) (g : GrantParams) : Bool :=
  let others := s.given x skip
  let own := (s.framesOf x.idx).length
  x.frames < natSum (others.map (·.frames)) + own + g.frames ||
  x.nq < natSum (others.map (·.nq)) + g.nq ||
  65536 < natSum (others.map (·.trsh)) + g.trsh ||
  x.prio < g.prio ||
  g.cores.any fun c => x.tagb < natSum ((others.filter fun o => o.cores.contains c).map (·.tagb)) + g.tagb

/-- Indices that are taken: live contexts, reserved ones, and those of saved images (log 6). -/
def State.indexTaken (s : State) (i : Nat) : Bool :=
  s.ctxs.any (fun c => c.idx == i || c.held.any fun h => h.2.1 == i) || (s.dev.images ++ s.dev.away).any fun m => m.ctxs.any fun c => c.idx == i

/-- The lowest free index, 1 to 4,095. -/
def State.freeIndex (s : State) : Option Nat := ((List.range 4095).map (· + 1)).find? fun i => !s.indexTaken i

/-- The physical cores a list of the caller's logical numbers names; none when one is not the caller's or is named twice. -/
def Ctx.physCores (x : Ctx) (l : List Nat) : Option (List Nat) :=
  if l.Nodup && l.all (fun n => n < x.cores.length) then some (l.map fun n => x.cores.getD n 0) else none

/-- Grids of a context that are RUNNING. -/
def Ctx.running (x : Ctx) : Nat := natSum (x.queues.map fun q => (q.grids.filter fun g => g.st == .running).length)

/-! ## Creating and regranting -/

/-- CREATE a child at a commit (R385, R389): the index's generation rises. What a revocation has taken from the parent since the
firing is not in the grant (R442). -/
def State.createChild (s : State) (xi idx : Nat) (g : GrantParams) : State :=
  match s.ctx? xi with
  | none => s
  | some x =>
    let gen := tabGet 0 idx s.gens
    let flat := g.flags.getLsbD 5
    let c : Ctx :=
      { idx, gen, vf := x.vf, parent := some xi, depth := x.depth + 1, st := .stopped, flags := g.flags, seed := g.seed
        troot := g.troot, shadow := if flat then g.troot else 0, entry := g.entry, cores := g.cores.filter x.cores.contains
        wbase := g.wbase.toNat, wsize := g.wsize.toNat, frames := min g.frames x.frames, nq := min g.nq x.nq, tagb := min g.tagb x.tagb, trsh := g.trsh
        prio := g.prio, toff := x.toff, events := List.replicate 64 0, queues := List.replicate 64 {}, comms := List.replicate 16 {} }
    { s with gens := tabPut idx ((gen + 1) % 0xFFFF) s.gens, ctxs := s.ctxs ++ [c] }

/-- REGRANT a child at a commit (R390): a new window is whole, one that is as before keeps what it has lost. What a revocation has
taken from the parent since the firing is not in the grant (R24, R442). -/
def State.applyGrant (s : State) (child : Nat) (g : GrantParams) : State :=
  match (s.ctx? child).bind fun c => (c.parent.bind s.ctx?).map fun p => (c, p) with
  | none => s
  | some (c, p) =>
    let troot := if c.isFlat then g.seed else g.troot
    let shadow := if c.isFlat then g.troot else c.shadow
    let s' := s.modCtx child fun c =>
      { c with troot, shadow, wbase := g.wbase.toNat, wsize := g.wsize.toNat, cores := g.cores.filter p.cores.contains
               frames := min g.frames p.frames, nq := min g.nq p.nq, tagb := min g.tagb p.tagb, trsh := g.trsh, prio := g.prio
               lost := if c.wbase = g.wbase.toNat && c.wsize = g.wsize.toNat then c.lost else [] }
    if c.troot != troot || c.shadow != shadow then s'.tlbDropCtxs (s.subtree child) else s'

/-! ## Control locks and held grants (R386) -/

/-- The control lock of a context is free for a thread. -/
def State.lockFree (s : State) (x : Nat) (who : Who) : Bool := (s.ctx? x).all fun c => c.lock.all (· == who)

def State.takeLock (s : State) (x : Nat) (who : Who) : State := s.modCtx x fun c => { c with lock := some who }

/-- A thread gives back every lock and every reserved grant it holds. -/
def State.dropHeld (s : State) (who : Who) : State :=
  { s with ctxs := s.ctxs.map fun c => { c with lock := c.lock.filter (· != who), held := c.held.filter fun h => h.1 != who } }

/-! ## Revoking (R391, R442 to R444) -/

/-- The part of a context's block cache and resident blocks is dropped from every core. -/
def State.dropCode (s : State) (xs : List Nat) : State :=
  { s with cores := s.cores.map fun (p : Nat × Core) => (p.1,
      { p.2 with bcache := p.2.bcache.filter (fun q => !xs.contains q.ctx)
                 blocks := mapIf (fun b => xs.contains b.ctx) (fun b => { b with stale := true }) p.2.blocks }) }

/-- A context has threads, teams or operations on a core. -/
def Core.hosts (k : Core) (x : Nat) : Bool :=
  k.warps.any (fun p => p.2.ctx == x) || k.teams.any (fun t => t.ctx == x) || k.ops.any (fun o => o.ctx == x) ||
  k.ctls.any (fun t => t.ctx == x && t.st == .running) || k.mx.holder == some x

/-- Every iteration of a context's warps on a core but the oldest is squashed (R214, R433). -/
def Core.squashYounger (k : Core) (x : Nat) : Core :=
  { k with warps := k.warps.map fun (p : Nat × Warp) =>
      if p.2.ctx == x then (p.1, { p.2 with insts := p.2.insts.zipIdx.map fun q => if q.2 = 0 then q.1 else { q.1 with squash := true } }) else p }

/-- The contexts of a function's tree. -/
def State.treeOf (s : State) (vf : Nat) : List Nat := (s.ctxs.filter fun c => c.vf == vf).map (·.idx)

/-- A root's slice of a core ends when its pre-emption is over, or nothing of it is left there (R432). -/
def State.endSlice (s : State) (core vf : Nat) : State :=
  let tree := s.treeOf vf
  if (s.core core).drains.any fun d => tree.contains d.ctx then s
  else s.modCore core fun k => { k with slices := k.slices.filter fun y => y.vf != vf || (!y.begun && tree.any k.hosts) }

/-- Begin draining a context from a core (R433). -/
def State.beginDrain (s : State) (core x : Nat) (revoked : Bool) : State :=
  let k := s.core core
  if k.drains.any fun d => d.ctx == x then
    s.modCore core fun k => { k with drains := mapIf (fun d => d.ctx == x) (fun d => { d with revoked := d.revoked || revoked }) k.drains }
  else if k.hosts x then
    s.modCore core fun k => { k.squashYounger x with drains := k.drains ++ [{ ctx := x, since := s.time, revoked }] }
  else if revoked && k.images.any (fun i => i.ctx == x) then
    -- a context already saved on the core is requeued like one that is drained
    s.modCore core fun k => { k with drains := k.drains ++ [{ ctx := x, since := s.time, revoked }] }
  else s

/-- Teams of a gang one of whose members runs, or is saved, on one of the cores: the cores of all its teams (R444). -/
def State.gangCores (s : State) (x : Nat) (lost : List Nat) : List Nat :=
  let hit := lost.flatMap fun c => ((s.core c).teams ++ (s.core c).images.flatMap (·.teams)).filter fun t => t.ctx == x && t.lrec.gang != 0
  (hit.flatMap fun t => (s.gangTeams x t.queue t.seq (t.tid / t.lrec.gang)).map (·.1)).eraseDups

/-- The frames that back a range of a context's GL, found through its stages; nothing is charged or marked. -/
def State.backing (s : State) (x base size : Nat) : List Nat :=
  ((List.range (size / 65536)).filterMap fun i =>
    match (s.walk none x (BitVec.ofNat 64 (base + 65536 * i)) .read).2 with
    | .ok { place := .dev d, .. } => some (frameOf d)
    | _ => none).eraseDups

/-- Where the tables of a context take an address before it is presented to a table of context `stop`, or, with none, before it leaves
the last table; nothing is charged or marked. -/
def State.mapsTo (s : State) (x : Nat) (stop : Option Nat) : List Tab → OutAddr → Option OutAddr
  | [], a => some a
  | t :: rest, a =>
    if some t.space == stop then some a
    else match (s.walkTable x t a.num .read false (State.carry (s.vfOf x) none x rest none)).2 with
      | .ok (out, _, _) => s.mapsTo x stop rest out
      | .error _ => none

/-- The pages of a context's window that map into a range which leaves the window of `child` (R442), backed or not: by the address of
the caller's GL they lead to, or, below a FLAT child, whose outputs are the caller's, by the outputs the range has there. -/
def State.lostPages (s : State) (caller : Ctx) (child : Ctx) (base size : Nat) (x : Ctx) : List Nat :=
  let pages (b n : Nat) : List Nat := (List.range (n / 65536)).map (b / 65536 + ·)
  let leads (c p : Nat) (stop : Option Nat) : Option OutAddr := s.mapsTo c stop (s.stages c) (.gl (65536 * p))
  if size = 0 then []
  else match x.parent with
    | none => []
    | some q =>
      if child.isFlat then
        let outs := (pages base size).filterMap fun p => leads caller.idx p caller.parent
        (pages x.wbase x.wsize).filter fun p => (leads q p caller.parent).any outs.contains
      else (pages x.wbase x.wsize).filter fun p => (leads q p (some caller.idx)).any fun a => base ≤ a.num && a.num < base + size

/-- Queues at and above a count are removed: their waiting grids end KILLED. -/
def Ctx.cutQueues (x : Ctx) (nq : Nat) : Ctx :=
  { x with queues := x.queues.zipIdx.map fun q =>
      if q.2 < nq then q.1 else { q.1 with grids := mapIf (fun g => g.st == .queued) (fun g => { g with st := .killed }) q.1.grids } }

/-- Cap a context at its parent's new grant, cores lost. -/
def State.capTo (s : State) (lost : List Nat) (x : Nat) : State :=
  match (s.ctx? x).bind fun c => c.parent.bind s.ctx? with
  | none => s
  | some p => s.modCtx x fun c =>
    ({ c with cores := c.cores.filter fun k => !lost.contains k, frames := min c.frames p.frames, nq := min c.nq p.nq
              tagb := min c.tagb p.tagb } : Ctx).cutQueues (min c.nq p.nq)

/-- A SPLICE grid that waits, or some of whose teams do, becomes FULL (R412). -/
def Ctx.spliceToFull (x : Ctx) : Ctx :=
  let waits (g : Grid) : Bool := g.lrec.dep == 1 && (g.st == .queued || (g.st == .running && g.admitted.length < g.lrec.teams))
  { x with queues := x.queues.map fun q => { q with grids := mapIf waits (fun g => { g with full := true }) q.grids } }

/-- Teams and RUNNING grids that a revocation finds keep the numbers their context's cores have had (R443). -/
def State.keepNumbers (s : State) (x : Nat) (cores : List Nat) : State :=
  let keep (t : Team) : Team := { t with view := t.view.orElse fun _ => some cores }
  let s := s.modCtx x fun c => { c with queues := c.queues.map fun q =>
    { q with grids := mapIf (fun g => g.st == .running) (fun g => { g with view := g.view.orElse fun _ => some cores }) q.grids } }
  { s with cores := s.cores.map fun (p : Nat × Core) => (p.1, { p.2 with
      teams := mapIf (fun t => t.ctx == x) keep p.2.teams
      images := mapIf (fun i => i.ctx == x) (fun i => { i with teams := i.teams.map keep }) p.2.images }) }

/-- REVOKE at a commit: the new grant of the child and its descendants, the drains, the frames released. The rest runs on its
own until `REVOKE_COMPLETE`. -/
def State.applyRevoke (s : State) (caller child : Nat) (r : RevokeParams) : State :=
  match s.ctx? child, s.ctx? caller with
  | some x, some y =>
  let tree := s.subtree child
  let below := ((List.range 4).map fun d => tree.filter fun i => i != child && ((s.ctx? i).map (·.depth)).getD 0 == d).flatten
  let frames := s.backing caller r.rbase r.rsize
  let gangs := (tree.map fun i => (i, s.gangCores i r.cores))
  let lost := below.map fun i => (i, ((s.ctx? i).map (s.lostPages y x r.rbase r.rsize)).getD [])
  let s := if r.cores.isEmpty then s else tree.foldl (fun s i => s.keepNumbers i (((s.ctx? i).map (·.cores)).getD [])) s
  let s := s.modCtx child fun c =>
    ({ c with cores := c.cores.filter (fun k => !r.cores.contains k), nq := r.nq, frames := r.frames.getD c.frames
              wbase := if r.rsize != 0 && r.rbase == c.wbase then c.wbase + r.rsize else c.wbase
              wsize := c.wsize - r.rsize } : Ctx).cutQueues r.nq
  let s := below.foldl (fun s i => s.capTo r.cores i) s
  let s := lost.foldl (fun s q => s.modCtx q.1 fun c => { c with lost := (c.lost ++ q.2).eraseDups }) s
  let s := if r.cores.isEmpty then s else tree.foldl (fun s i => s.modCtx i Ctx.spliceToFull) s
  let s := gangs.foldl (fun s q => (r.cores ++ q.2).eraseDups.foldl (fun s c => s.beginDrain c q.1 true) s) s
  let s := ((s.tlbDropCtxs tree).dropCode tree).releaseFrames frames
  s.modCtx child fun c => { c with revoke := some { cw := r.cwaddr, caller, frames, cores := (r.cores ++ (gangs.map (·.2)).flatten).eraseDups } }
  | _, _ => s

/-! ## Completion words (R394) -/

/-- Write a completion word at its point of coherence through the caller's tables. A fault halts only the write; a wait for
the host keeps it. -/
def State.tryWord (s : State) (w : CompWord) : State :=
  match s.ctx? w.caller with
  | none => s
  | some c =>
    match s.translate (c.cores.headD 0) w.caller w.addr .write with
    | (s, .ok p) => s.homePoke none p (valBytes 8 w.value.toNat)
    | (s, .error (.host vf page wr)) => { (s.askHost vf page wr) with words := s.words ++ [w] }
    | (s, .error (.fault f)) =>
      { s with words := s.words ++ [{ w with halted := true }] }.deliver w.caller (.write w.id) true f 0 0

/-- A completion word falls due; an address of 0 asks for none. -/
def State.sendWord (s : State) (caller : Nat) (addr : DWord) (ident : Word) (code : Nat) : State :=
  if addr = 0 then s
  else { s with nextReq := s.nextReq + 1 }.tryWord
    { id := s.nextReq, caller, addr, value := BitVec.ofNat 64 (code + fieldAt ident.toNat 32 32) }

/-- Words that waited for the host are tried again. -/
def State.retryWords (s : State) : State :=
  let ws := s.words.filter fun w => !w.halted
  ws.foldl (fun s w => s.tryWord w) { s with words := s.words.filter (·.halted) }

/-! ## Killing (R385, R392, R445) -/

/-- Steps 1 and 2 of R445 on one core: every thread, team, operation, image and cached piece of a context goes. -/
def State.clearCore (s : State) (x core : Nat) : State :=
  let k := s.core core
  let s := (k.warps.filter fun p => p.2.ctx == x).foldl (fun s p => s.endWarp core p.1) s
  let s := if k.mx.holder == some x then s.clearPath core else s
  let gone := (k.ops.filter fun o => o.ctx == x).map (·.id)
  (s.modCore core fun k =>
    { k with
      teams := k.teams.filter fun t => t.ctx != x
      ctls := k.ctls.filter fun t => t.ctx != x
      ops := k.ops.filter fun o => o.ctx != x
      gens := k.gens.map fun (g : Option Stream) => if g.any (fun y => gone.contains y.op) then none else g
      mx := { k.mx with queue := k.mx.queue.filter fun i => !gone.contains i }
      images := k.images.filter fun i => i.ctx != x
      drains := k.drains.filter fun d => d.ctx != x
      blocks := k.blocks.filter fun b => b.ctx != x
      bcache := k.bcache.filter fun q => q.ctx != x
      monitor := k.monitor.filter fun r => r.ctl != some x }).endSlice core (s.vfOf x)

/-- The grids of a context that is taken apart end KILLED (R410). -/
def Ctx.endGrids (x : Ctx) : Ctx :=
  { x with queues := x.queues.map fun q => { q with grids := mapIf (fun g => g.st == .queued || g.st == .running) (fun g => { g with st := .killed }) q.grids } }

/-- TAKE A CONTEXT APART, steps 1 to 4 of R445: its grids end KILLED (R410). The frames awaited are its own and those that a revocation
of it has released (R391). -/
def State.takeApart (s : State) (x : Nat) : State :=
  match s.ctx? x with
  | none => s
  | some c =>
    let named (ws : List DWord) : Bool := highHalf (ws.getD 1 0) == c.id
    let strip (y : Ctx) : Ctx := { y with lock := y.lock.filter (fun w => s.ctxOf w != x), fq := y.fq.filter fun r => !named r }
    let s := { s with ctxs := s.ctxs.map strip }
    let s := (s.cores.map (·.1)).foldl (fun s k => s.clearCore x k) s
    let s : State := { s with
      halts := s.halts.filter fun h => h.ctx != x
      waitFaults := s.waitFaults.filter fun f => f.ctx != x
      words := s.words.filter fun w => w.caller != x
      vfs := s.vfs.map fun v => { v with fqWait := v.fqWait.filter fun f => f.ctx != x }
      dies := s.dies.map fun (p : Nat × Die) => (p.1, { p.2 with missq := p.2.missq.filter fun m => m.ctx != x })
      firns := s.firns.map fun (p : Nat × Firn) => (p.1, { p.2 with missq := p.2.missq.filter fun m => m.ctx != x
                                                                    monitor := p.2.monitor.filter fun r => r.ctl != some x }) }
    let s := (s.tlbDropCtxs [x]).killCommsOf x
    let frames := s.framesOf x
    let awaited := frames ++ ((c.revoke.map (·.frames)).getD [])
    ((s.releaseFrames frames).modCtx x fun c => { c.endGrids with dying := some awaited }).drainFaults

/-- A completion word of a caller that is not itself being killed (R394). -/
def State.callerWord (s : State) (caller : Nat) (cw : DWord) (ident : Word) (code : Nat) : State :=
  if (s.ctx? caller).any fun c => c.st != .killing then s.sendWord caller cw ident code else s

/-- Step 6 of R445: the context is gone, and the completion words of a revocation of it and of its kills are written, except where the
caller is itself being killed. A SAVE of a root that is killed meanwhile ends with status 0x01 (log 16). -/
def State.removeCtx (s : State) (x : Nat) : State :=
  let mine := s.kills.filter fun k => k.target == x
  let revoke := (s.ctx? x).bind fun c => c.revoke.map fun r => (r, c.id)
  let s := { s with
    ctxs := s.ctxs.filter fun c => c.idx != x
    kills := s.kills.filter fun k => k.target != x
    comms := (s.comms.map fun (m : Comm) => { m with joined := m.joined.filter fun j => j.2 != some x }).filter fun m => m.joined.any fun j => j.2.isSome
    vfs := s.vfs.map fun v => if v.root == some x then { v with root := none, saving := false, cstat := if v.saving then 1 else v.cstat } else v }
  let s := match revoke with | some (r, id) => s.callerWord r.caller r.cw id 1 | none => s
  mine.foldl (fun s k => s.callerWord k.caller k.cw k.id 2) s

/-- A CTXKILL takes effect. Where the context it named has gone since the firing, with a killed ancestor, its word is written (R392). -/
def State.killNamed (s : State) (caller target : Nat) (ident : Word) (cw : DWord) : State :=
  if (s.ctx? target).any fun c => c.id == ident then s.startKill target (some caller) cw else s.callerWord caller cw ident 2

/-! ## Threads that start, resume and reflect (R385, R393, R394, R429) -/

/-- A control thread at an entry block. -/
def freshCtl (x : Nat) (entry : DWord) (team : Option (Nat × TeamVals)) (s0 s1 : DWord) (stopped : Bool) : Ctl :=
  { ctx := x, st := .running, team := team.map (·.1), born := team.map (·.2), s := s0 :: s1 :: List.replicate 62 0, flags := List.replicate 12 0, callEnt := true
    block := entry.toNat, rets := List.replicate 4 0, stopped }

/-- Contexts resident on a core (R194). -/
def Core.residents (k : Core) : List Nat :=
  (k.teams.map (·.ctx) ++ (k.ctls.filter fun t => t.st == .running && !t.stopped).map (·.ctx)).eraseDups

/-- A context becomes resident, if it is not: the last in the order of residence (R417). -/
def Core.reside (k : Core) (x : Nat) : Core :=
  if k.residents.contains x && k.resid.contains x then k
  else { k with resid := (k.resid.filter fun y => y != x && k.residents.contains y) ++ [x] }

/-- Room for one more resident context, or the context is one already. -/
def Core.residentRoom (k : Core) (x : Nat) : Bool := k.residents.contains x || k.residents.length < Config.coreContexts

/-- A root's slice of a core begins with the first thread or team of its subtree there (R432). -/
def State.beginSlice (s : State) (core x : Nat) : State :=
  match s.ctx? x with
  | none => s
  | some c => s.modCore core fun k => if k.slices.any fun y => y.vf == c.vf then k else { k with slices := k.slices ++ [{ vf := c.vf, since := s.time }] }

/-- A thread of a context starts or is resumed on a core: what launched, started or resumed it was a release at .dev, or at .sys where it
reached another device of the context, and its partner is an acquire of the core (R135, R386). -/
def State.beginThread (s : State) (core x : Nat) : State :=
  s.acquireActs core (if (s.ctx? x).any fun c => 1 < c.devices then .sys else .dev) 0b111

/-- Start a control thread of a context on a core. -/
def State.startCtl (s : State) (core x : Nat) (entry : DWord) (team : Option (Nat × TeamVals)) (s0 s1 : DWord) : State :=
  ((s.beginSlice core x).beginThread core x).modCore core fun k =>
    let room := k.residentRoom x
    { (if room then k.reside x else k) with ctls := (k.ctls.filter fun t => t.ctx != x) ++ [freshCtl x entry team s0 s1 (!room)] }

/-- START a STOPPED context: it runs, and its control thread starts at ENTRY on its logical core 0. -/
def State.startCtx (s : State) (x : Nat) : State :=
  match s.ctx? x with
  | none => s
  | some c =>
    if c.st == .killing then s else
    let s := s.modCtx x fun c => { c with st := .running }
    match c.cores with
    | [] => s
    | k :: _ => s.startCtl k x c.entry none 0 0

/-- RESUME one halt (R429): its requester runs again, or is marked runnable in its save image. -/
def State.resumeHalt (s : State) (h : Halt) : State :=
  let s := { s with halts := s.halts.filter (· != h) }
  let wake (w : Warp) : Warp := { w with halt := none }
  let runs (mx : Mx) (o : EngOp) : EngOp :=
    { o with st := if o.ready && (o.req.kind.rkind != 6 || (mx.active && mx.queue.head? == some o.id)) then .started else .queued }
  let path (f : Nat → Bool) (mx : Mx) : Mx := if mx.queue.head?.any f then { mx with halted := false } else mx
  match h.req with
  | .warp c sl =>
    (s.beginThread c h.ctx).modCore c fun k =>
      if (k.warp? sl).any (fun w => w.ctx == h.ctx) then k.modWarp sl wake
      else { k with images := mapIf (fun i => i.ctx == h.ctx) (fun i => { i with warps := i.warps.map fun (p : Nat × Warp) => if p.1 == sl then (p.1, wake p.2) else p }) k.images }
  | .ctl c x =>
    (s.beginThread c x).modCore c fun k =>
      { k with ctls := mapIf (fun t => t.ctx == x) (fun t => { t with halt := false }) k.ctls
               images := mapIf (fun i => i.ctx == x) (fun i => { i with ctls := i.ctls.map fun t => { t with halt := false } }) k.images }
  | .stream c g =>
    s.modCore c fun k =>
      -- the stream is the context's own, on the core or in its image
      let here (y : Stream) : Bool := y.st == .halted && (k.op? y.op).any fun o => o.ctx == h.ctx
      let wake (y : Stream) : Stream := { y with st := .running }
      match (k.gens.getD g none).filter here with
      | some y => { k with gens := listMod k.gens g fun _ => some (wake y), ops := mapIf (fun o => o.id == y.op) (runs k.mx) k.ops }
      | none =>
        { k with images := mapIf (fun i => i.ctx == h.ctx) (fun i =>
            let mine := i.gens.filter fun (p : Nat × Stream) => p.1 == g && p.2.st == .halted
            { i with gens := mapIf (fun (p : Nat × Stream) => mine.contains p) (fun p => (p.1, wake p.2)) i.gens
                     ops := mapIf (fun o => mine.any fun p => p.2.op == o.id) (runs k.mx) i.ops }) k.images }
  | .op c id =>
    s.modCore c fun k =>
      { k with ops := mapIf (fun o => o.id == id) (runs k.mx) k.ops
               mx := path (· == id) k.mx
               images := mapIf (fun i => i.ctx == h.ctx) (fun i =>
                 { i with ops := mapIf (fun o => o.id == id) (fun o => (i.mx.map fun mx => runs mx o).getD (runs k.mx o)) i.ops
                          mx := i.mx.map (path (· == id)) }) k.images }
  | .mx c =>
    s.modCore c fun k =>
      if k.mx.holder == some h.ctx then { k with mx := { k.mx with halted := false } }
      else { k with images := mapIf (fun i => i.ctx == h.ctx) (fun i => { i with mx := i.mx.map (path fun _ => true) }) k.images }
  | .write id =>
    { s with words := mapIf (fun w => w.id == id) (fun w => { w with halted := false }) s.words }.retryWords

/-- A context is being killed. -/
def State.dyingCtx (s : State) (x : Nat) : Bool := (s.ctx? x).any fun c => c.st == .killing

/-- A halt number of a receiver names, in a subtree, a halt of a context that is being killed (R446). -/
def State.haltDying (s : State) (recv target b : Nat) : Bool :=
  s.halts.any fun h => s.inSubtree target h.ctx && h.recv == recv && h.num == b && s.dyingCtx h.ctx

/-- The halts that CTXRUN resume with number `b` of a receiver selects in a subtree, those of contexts being killed apart: none where
no such halt is the receiver's; the flag tells whether the number names another receiver's halt there. -/
def State.pickHalts (s : State) (recv target b : Nat) : List Halt × Bool :=
  let here := s.halts.filter fun h => s.inSubtree target h.ctx && !s.dyingCtx h.ctx
  let mine := here.filter fun h => h.recv == recv && (b == 65535 || h.num == b)
  (mine, mine.isEmpty && b != 65535 && here.any fun h => h.num == b)

/-- RESUME by number; records that waited for a number enter (R427). -/
def State.resumeHalts (s : State) (recv target b : Nat) : State :=
  ((s.pickHalts recv target b).1.foldl (fun s h => s.resumeHalt h) s).drainFaults

/-- REFLECT a halt to a FLAT child (R394): the record with its changes enters the child's queue under a new number, and the
halt is the child's. -/
def State.reflectHalt (s : State) (recv target num code level : Nat) : State :=
  match (s.pickHalts recv target num).1, s.ctx? target with
  | h :: _, some c =>
    let w0 := (h.record.getD 0 0).toNat
    let keep := w0 - (fieldAt (bitsOf w0 7 0) 0 8 + fieldAt (bitsOf w0 21 16) 16 6 + fieldAt (bitsOf w0 63 48) 48 16)
    let w : DWord := BitVec.ofNat 64 (keep + code + fieldAt level 16 2 + fieldAt c.depth 18 3)
    let s := { s with halts := s.halts.filter (· != h) }
    s.enqueueFault { recv := target, host := false, req := some h.req, ctx := h.ctx, code := h.code, record := listMod h.record 0 fun _ => w }
  | _, _ => s

/-! ## TLBINV (R74, R396) -/

/-- An address of a context is one whose translations a TLBINV removes; n = 0 stands for the whole space. -/
def State.invCovers (s : State) (x : Nat) (base pages : Nat) (ctx va : Nat) : Bool :=
  if ctx == x then pages = 0 || (base ≤ va / 65536 * 65536 && va < base + 65536 * pages) else s.isDescendant x ctx

/-- Accesses that used such translations have not been performed: accesses and buffered stores of other instances, and
requests in flight of those contexts. -/
def State.invWaits (s : State) (who : Who) (base pages : Nat) : Bool :=
  let x := s.ctxOf who
  let covers (c : Nat) (a : Access) : Bool := s.invCovers x base pages c a.va.toNat
  let effs (c : Nat) (e : Eff) : Bool := match e with
    | .store _ _ accs _ | .red _ _ _ _ accs | .fqpop _ accs _ => accs.any fun q => covers c q.1
    | _ => false
  s.reqs.any (fun r => r.ctx != 0 && (r.ctx == x || s.isDescendant x r.ctx)) ||
  s.cores.any fun (p : Nat × Core) =>
    p.2.warps.any (fun q => q.2.insts.any fun i => Who.warp p.1 q.1 i.itag != who &&
      (i.pends.any (fun d => d.lanes.any fun l => covers q.2.ctx l.acc) || i.effs.any (effs q.2.ctx))) ||
    p.2.ctls.any fun t => Who.ctl p.1 t.ctx != who && t.pend.any fun d => d.lanes.any fun l => covers t.ctx l.acc

/-- Remove the translations and the block cache lines (R98) of a range, which for `pages` 0 is the whole space; resident blocks of the
range are stale. -/
def State.invDo (s : State) (x start pages : Nat) : State :=
  let base := if pages = 0 then 0 else start
  let n := if pages = 0 then 2 ^ 64 else 65536 * pages
  let hit (ctx lo hi : Nat) : Bool := if ctx == x then lo < base + n && base < hi else s.isDescendant x ctx
  let s' := s.tlbDrop x base n
  { s' with cores := s'.cores.map fun (p : Nat × Core) => (p.1,
      { p.2 with bcache := p.2.bcache.filter (fun q => !hit q.ctx (q.line * 128) (q.line * 128 + 128))
                 blocks := mapIf (fun b => hit b.ctx (b.addr / 128 * 128) (b.addr + 8 * (b.words.length + 32))) (fun b => { b with stale := true }) p.2.blocks }) }

/-! ## The trace buffer (R403, R454) -/

/-- The 64-bit words of the pair of records. -/
def State.tracePair (s : State) (who : Who) (value : Word) : List (BitVec 8) :=
  match s.ctx? (s.ctxOf who) with
  | none => []
  | some x =>
    let core := who.core
    let slot := match who with | .warp _ sl _ => sl | .ctl _ _ => 0xFFFF
    let time := (BitVec.ofNat 64 (s.counter (dieOf core)) + x.toff).toNat
    let tail := valBytes 4 x.id.toNat ++ valBytes 2 slot ++ valBytes 2 ((s.seenBy x who).lcore core)
    valBytes 8 time ++ tail ++ valBytes 8 value.toNat ++ tail

/-- Two more records are within the context's share of the rate in the present microsecond. -/
def State.traceRoom (s : State) (x : Ctx) (rate : Nat) : Bool :=
  let us := s.time / (1000 * Config.ticksPerNs)
  let used := if x.traced.1 == us then x.traced.2 else 0
  let shares := (s.lineage x.idx).filterMap fun a => (s.ctx? a).bind fun c => if c.parent.isNone then none else some c.trsh
  decide ((used + 2) * 65536 ^ shares.length ≤ rate * shares.foldl (· * ·) 1)

/-- Count `n` records a context has appended in this microsecond. -/
def Ctx.traceCount (x : Ctx) (us n : Nat) : Ctx := { x with traced := (us, (if x.traced.1 == us then x.traced.2 else 0) + n) }

/-- APPEND a pair of records to the root's ring, or drop it and count 2; the ring is full when the write index has no two
records left below its size, or a record's address faults; a wait for the host holds the whole pair. A header that does not translate
takes nothing (log 60). -/
def State.traceAppend (s : State) (who : Who) (value : Word) : RelSt :=
  let xi := s.ctxOf who
  match s.ctx? xi, s.ctx? (s.rootOf xi) with
  | some x, some r =>
    match r.trace with
    | none => .done s
    | some t =>
      let core := r.cores.headD 0
      match s.translate core r.idx t.base .write with
      | (s, .error (.host vf page wr)) => .wait (s.askHost vf page wr)
      | (_, .error (.fault _)) => .done s
      | (s, .ok h) =>
        let (s, bs) := s.homeRead (some (r.idx, who.requester)) h 16
        let idx := bytesVal (bs.take 8)
        let dropped := bytesVal (bs.drop 8)
        let drop (s : State) : RelSt := .done (s.homePoke none (h.add 8) (valBytes 8 (dropped + 2)))
        let at_ (k : Nat) : DWord := t.base + BitVec.ofNat 64 (64 + 16 * (idx + k))
        if !s.traceRoom x t.rate || t.size < idx + 2 then drop s
        else match s.translate core r.idx (at_ 0) .write with
          | (s, .error (.host vf page wr)) => .wait (s.askHost vf page wr)
          | (s, .error (.fault _)) => drop s
          | (s, .ok p) =>
            match s.translate core r.idx (at_ 1) .write with
            | (s, .error (.host vf page wr)) => .wait (s.askHost vf page wr)
            | (s, .error (.fault _)) => drop s
            | (s, .ok q) =>
              let bytes := s.tracePair who value
              let s := ((s.homePoke none p (bytes.take 16)).homePoke none q (bytes.drop 16)).homePoke none h (valBytes 8 (idx + 2))
              .done (s.modCtx xi fun c => c.traceCount (s.time / (1000 * Config.ticksPerNs)) 2)
  | _, _ => .done s

end Sys2Proof.Machine
end

