-- ==== Sys2Proof/Machine/Block.lean ====
section
/-! DEFINITION. Fetching and decoding a block at its admission: fetch lines, headers, the decode steps of
Table 11.18 and the block rules of R197, R148, R252 and R340. -/

namespace Sys2Proof.Machine

/-! ## Headers (Tables 11.1 to 11.4) -/

/-- NREAD, NWRITE and NINST of a word A, at their field values. -/
def hdrRead (a : BitVec 64) : Nat := (a.extractLsb' 6 5).toNat
def hdrWrite (a : BitVec 64) : Nat := (a.extractLsb' 11 5).toNat
def hdrInst (a : BitVec 64) : Nat := (a.extractLsb' 0 6).toNat + 1
/-- H, the header's length (R247). -/
def hdrLen (a : BitVec 64) : Nat := 2 + (hdrRead a + 7) / 8 + (hdrWrite a + 7) / 8

/-- A line header is well formed (R245). -/
def lineOk (h : BitVec 64) : Bool :=
  h.getLsbD 0 && !h.getLsbD 16 && h.extractLsb' 36 28 == 0 && h.extractLsb' 32 4 == 1 &&
  (List.range 15).all fun k => !h.getLsbD (17 + k) || h.getLsbD (1 + k)

/-- START and BLKSTART of a word of a line. -/
def lineStart (h : BitVec 64) (k : Nat) : Bool := h.getLsbD k
def lineBlk (h : BitVec 64) (k : Nat) : Bool := h.getLsbD (16 + k)

/-- The addresses of the `n` words of a span, word 0 of each line skipped (R244). -/
def spanAddrs : Nat → Nat → List Nat
  | 0, _ => []
  | n + 1, a => let a' := if a % 128 = 0 then a + 8 else a
                a' :: spanAddrs n ((a' + 8) % 2 ^ 64)

/-- The slots of a register list: the bytes of its words. -/
def listBytes (ws : List (BitVec 64)) : List (BitVec 8) := ws.flatMap fun w => (List.range 8).map fun k => w.extractLsb' (8 * k) 8

/-- The specifier a list byte is. -/
def specOf (b : BitVec 8) : RegSpec := { scalar := b.getLsbD 7, num := b.extractLsb' 0 7 }

/-- A register list of `n` used slots is well formed for a warp of `nv` vector registers (R251). -/
def listOk (bytes : List (BitVec 8)) (n nv : Nat) : Bool :=
  let used := bytes.take n
  used.all (fun b => b != 0xFF && (if b.getLsbD 7 then b.toNat - 128 < 64 else b.toNat < nv)) &&
  (bytes.drop n).all (fun b => b == 0xFF) && used.Nodup

/-- The header of a block from its header words, or none when it is malformed (R247, R251). `nv` is the number of
vector registers; a control thread's lists are judged by R196 later. -/
def parseHdr (a b : BitVec 64) (lists : List (BitVec 64)) (nv : Nat) : Option BlockHdr :=
  let nr := hdrRead a
  let nw := hdrWrite a
  let setf0 := (a.extractLsb' 28 4).toNat
  let setf1 := (a.extractLsb' 32 4).toNat
  let carry := b.extractLsb' 32 16
  let rw := listBytes (lists.take ((nr + 7) / 8))
  let ww := listBytes (lists.drop ((nr + 7) / 8))
  if a.extractLsb' 46 18 != 0 || b.extractLsb' 48 16 != 0 || 16 < nr || 16 < nw || 12 < setf0 || 12 < setf1 ||
      (List.range 16).any (fun j => carry.getLsbD j && nw ≤ j) || !listOk rw nr nv || !listOk ww nw nv then none
  else some
    { ninst := hdrInst a, waits := a.extractLsb' 16 12, setf0, setf1, iter := (a.extractLsb' 36 4).toNat
      self := a.getLsbD 40, atom := a.getLsbD 41, spwin := (a.extractLsb' 42 4).toNat
      reconv := b.extractLsb' 0 32, carry, reads := (rw.take nr).map specOf, writes := (ww.take nw).map specOf }

/-! ## The instruction words (steps 5 and 6) -/

/-- Codes of decode. -/
def badBlock (code : Code) : FaultInfo := { code, acc := .fetch }

/-- A target of the instruction at an index is legal by itself (R254). -/
def targetLegal (words : List (BitVec 64)) (t : Target) : Bool :=
  t.idx.toNat < words.length && (t.port != .p || (starts words 0).contains t.idx.toNat)

/-- Steps 5 and 6 over the instruction words, ascending: the decoded instructions or the first fault. -/
def decodeWords (ctl : Bool) (words : List (BitVec 64)) : List Nat → Except Code (List (Nat × Instr))
  | [] => .ok []
  | i :: rest =>
    match decode (words.drop i) with
    | .error _ => .error .illegalInstr
    | .ok (ins, _) =>
      match ins.form with
      | none => .error .illegalInstr
      | some f =>
        if !(f.targets.all fun t => t.all (targetLegal words)) then .error .illegalInstr
        else if ctl && f.runs == .warp then .error .illegalInstr
        else if !ctl && f.runs == .control then .error .privViolation
        else match decodeWords ctl words rest with
          | .error e => .error e
          | .ok l => .ok ((i, ins) :: l)

/-! ## The graph and the block rules (step 8) -/

/-- The registers a GETR or SETR names: a .64 form of a vector register names a pair (R252). -/
def namedRegs (w64 : Bool) (r : RegSpec) : List RegSpec :=
  if w64 && !r.scalar then [r, { r with num := r.num + 1 }] else [r]

/-- Every port a form uses, port p with a predicate (R197, R256). -/
def usedPorts (f : Form) : List PortName := f.ports ++ (if f.wd.pred == .always then [] else [.p])

/-- Every edge of the graph: from, to, port. -/
def edges (words : List (BitVec 64)) (l : List (Nat × Form)) : List (Nat × Nat × PortName) :=
  l.flatMap fun q => q.2.targets.filterMap fun t => t.map fun t => let r := resolve words t; (q.1, r.1, r.2)

/-- Successor instructions of R197: BR, BRC, BRI, CALL, CALLI, RET, EXIT, LOOP, and TRET (R404). -/
def isSuccessor (f : Form) : Bool := f.succ

/-- Stores of the decode rule of R340. -/
def plainStore : Instr → Bool
  | .st _ _ | .sts _ _ | .stw _ _ | .red _ _ _ => true
  | _ => false

/-- An ATOM or ATOMS carrying .rel or .acqrel. -/
def releasingAtomic : Instr → Bool
  | .atom _ _ o | .atoms _ _ _ o => releases o.order
  | _ => false

/-- The rules of step 8: R197, R148, R252, R340. -/
def graphOk (h : BlockHdr) (words : List (BitVec 64)) (l : List (Nat × Instr)) : Bool :=
  let fs : List (Nat × Form) := l.filterMap fun q => q.2.form.map fun f => (q.1, f)
  let es := edges words fs
  let slots := (l.flatMap fun q => match q.2 with | .setr _ w64 r => namedRegs w64 r | _ => [])
  let regsOk := l.all fun q => match q.2 with
    | .getr _ w64 r => (namedRegs w64 r).all h.reads.contains
    | .setr _ w64 r => (namedRegs w64 r).all h.writes.contains
    | _ => true
  let carried := (h.writes.zipIdx.filter fun q => h.carry.getLsbD q.2).map (·.1)
  let atoms := (l.filter fun q => valueAtomic q.2).length
  es.all (fun e => e.1 < e.2.1) &&
  (es.map fun e => (e.2.1, e.2.2)).Nodup &&
  es.all (fun e => match fs.find? fun f => f.1 == e.2.1 with | none => false | some f => (usedPorts f.2).contains e.2.2) &&
  fs.all (fun f => (usedPorts f.2).all fun q => es.any fun e => e.2.1 == f.1 && e.2.2 == q) &&
  fs.any (fun f => isSuccessor f.2) &&
  regsOk && slots.Nodup &&
  (h.iter == 0 || (h.self && l.any fun q => match q.2 with | .loop _ _ => true | _ => false)) &&
  (h.iter != 0 || h.carry == 0) && carried.all h.reads.contains &&
  atoms ≤ 4 && (atoms == 0 || h.atom) &&
  l.all (fun q => !releasingAtomic q.2 || !(l.any fun r => r.1 < q.1 && plainStore r.2))

/-- Steps 3 to 8 of Table 11.18 over the words of a span and the headers of their lines. -/
def decodeBlock (ctl : Bool) (nv : Nat) (entry : Nat) (addrs : List Nat) (ws : List (BitVec 64)) (hdrs : List (Nat × BitVec 64)) :
    Except Code (BlockHdr × List (BitVec 64)) :=
  let a := ws.getD 0 0
  let b := ws.getD 1 0
  let hl := hdrLen a
  if !(hdrs.all fun q => lineOk q.2) then .error .illegalLine
  else match parseHdr a b ((ws.take hl).drop 2) (if ctl then 128 else nv) with
    | none => .error .illegalBlock
    | some h =>
      let words := ws.drop hl
      if ctl && (h.iter != 0 || (h.reads ++ h.writes).any fun r => !r.scalar) then .error .illegalInstr
      else match decodeWords ctl words (starts words 0) with
        | .error e => .error e
        | .ok l =>
          let first := (starts words 0).map (· + hl)
          let startOk := addrs.zipIdx.all fun q =>
            let hd := ((hdrs.find? fun h => h.1 == q.1 / 128).map (·.2)).getD 0
            lineStart hd (q.1 % 128 / 8) == (q.1 == entry || first.contains q.2)
          if !startOk then .error .illegalLine
          else if !graphOk h words l then .error .illegalBlock
          else .ok (h, words)

/-! ## Fetching (R204, R264, R98) -/

/-- What admission finds of a block. -/
inductive Fetched where
  | ok (s : State) (b : RBlock)
  | wait (s : State)
  | fault (s : State) (f : FaultInfo)
  deriving DecidableEq, Repr

/-- The sixteen words of a line, from the block cache or from the home; a line fetched enters the cache, a freely
chosen one leaving when it is full (log 21). An error in a cached line is met by its reader (R107). -/
def State.fetchLine (s : State) (core x line : Nat) (by_ : Requester) (p : Place) : State × List (BitVec 64) :=
  match (s.core core).bcache.find? fun q => q.ctx == x && q.line == line with
  | some q => (s.sense (some (x, by_)) (.code core line), q.words)
  | none =>
    let (s, bs) := s.homeRead (some (x, by_)) p 128
    let ws : List (BitVec 64) := (List.range 16).map fun k => BitVec.ofNat 64 (bytesVal ((bs.drop (8 * k)).take 8))
    let s := s.modCore core fun k =>
      let l := if k.bcache.length < 512 then k.bcache else k.bcache.eraseIdx (Config.freeChoice s.free % k.bcache.length)
      { k with bcache := { ctx := x, line, words := ws, src := p } :: l }
    (s.nextFree, ws)

/-- Translate the lines of a span for block fetch, in ascending address, and read them. -/
def State.fetchLines (s : State) (core x : Nat) (w : Waiter) : List Nat → State × Except (Option FaultInfo) (List (Nat × List (BitVec 64)))
  | [] => (s, .ok [])
  | line :: rest =>
    let va : DWord := BitVec.ofNat 64 (line * 128)
    match s.lookup core x va .fetch with
    | .fault f => (s, .error (some f))
    | .miss => (s.missAt core x va .fetch w, .error none)
    | .hit p =>
      let (s, ws) := (s.tlbPull core x va .fetch).fetchLine core x line w.requester p
      match s.fetchLines core x w rest with
      | (s, .error e) => (s, .error e)
      | (s, .ok l) => (s, .ok ((line, ws) :: l))

/-- The replica bases of a block, freely chosen (R202). -/
def State.replicas (s : State) : List Nat :=
  (List.range (Config.freeChoice s.free % 4 + 1)).map fun x => Config.freeChoice (s.free + 1 + x) % Config.nodes

/-- FETCH AND DECODE a block of a context on a core (R204, R264). `strict`: the entry must be word 1 of a line (R246). -/
def State.fetchBlock (s : State) (core x entry nv : Nat) (ctl strict : Bool) (w : Waiter) : Fetched :=
  if entry % 8 ≠ 0 || entry % 128 = 0 || (strict && entry % 128 ≠ 8) then .fault s (badBlock .illegalBlock)
  else
    match s.fetchLines core x w [entry / 128] with
    | (s, .error none) => .wait s
    | (s, .error (some f)) => .fault s f
    | (s, .ok l0) =>
      let line0 := ((l0.map (·.2)).headD [])
      let k0 := entry % 128 / 8
      if !lineBlk (line0.getD 0 0) k0 then .fault s (badBlock .illegalBlock)
      else
        let a := line0.getD k0 0
        let addrs := spanAddrs (hdrLen a + hdrInst a) entry
        let more := ((addrs.map (· / 128)).eraseDups).filter fun n => n != entry / 128
        match s.fetchLines core x w more with
        | (s, .error none) => .wait s
        | (s, .error (some f)) => .fault s f
        | (s, .ok ls) =>
          let all := l0 ++ ls
          let wordAt (ad : Nat) : BitVec 64 := (((all.find? fun q => q.1 == ad / 128).map (·.2)).getD []).getD (ad % 128 / 8) 0
          let ws := addrs.map wordAt
          match decodeBlock ctl nv entry addrs ws (all.map fun q => (q.1, q.2.getD 0 0)) with
          | .error e => .fault s (badBlock e)
          | .ok (hdr, words) =>
            let k := s.core core
            match k.blocks.find? fun b => b.ctx == x && b.addr == entry && !b.stale && b.hdr == hdr && b.words == words with
            | some b => .ok s b
            | none =>
              let ver := ((k.blocks.filter fun b => b.ctx == x && b.addr == entry).map (fun b => b.ver + 1)).foldl max 0
              let b : RBlock := { ctx := x, addr := entry, hdr, words, bases := s.replicas, ver }
              .ok ({ s with free := s.free + 5 }.modCore core fun k => { k with blocks := b :: k.blocks }) b

/-- A block that no instance and no control thread of the core runs any more is no longer pinned (R204). -/
def Core.unpin (k : Core) : Core :=
  { k with blocks := k.blocks.filter fun b =>
      k.warps.any (fun p => p.2.ctx == b.ctx && p.2.insts.any fun i => i.block == b.addr && i.ver == b.ver) ||
      k.ctls.any (fun t => t.ctx == b.ctx && t.entered && t.block == b.addr && t.ver == b.ver) }

/-- The block holds BAR or GBAR (R237). -/
def RBlock.isBarrier (b : RBlock) : Bool := b.instrs.any fun q => match q.2 with | .bar _ | .gbar _ => true | _ => false

/-- A form of R120 that sets a block's window to 1. -/
def windowOne (i : Instr) : Bool :=
  match i with
  | .fence _ _ _ _ | .bar _ | .gbar _ | .nbjoin _ _ | .nbarrive _ _ | .nbwait _ _ | .nbsync _ _ | .waitf _ _ | .evwait _ _ | .evsig _ _
  | .launch _ | .lstat _ | .ctxnew _ | .ctxgrant _ | .ctxrevoke _ | .ctxkill _ | .ctxrunResume _ | .ctxrunReflect _ | .ctxstat _
  | .tlbinv _ | .fqpop _ | .wrsys _ _ | .trace _ | .tmaskMask _ | .tmaskUnmask _ | .tret _ => true
  | _ => orderOf i != .none || ((i.form.map (·.flag)).getD false)

end Sys2Proof.Machine
end

