-- ==== Sys2Proof/Machine/Control.lean ====
section
/-! DEFINITION. Register access, token plumbing, successor instructions and TRAP (R277 to R294, Tables 13.1 and 13.2):
one meaning for each form. A warp's SETR and successors are buffered until its block commits; a control thread's take
effect when they execute (R196, R279). -/

namespace Sys2Proof.Machine

/-! ## Buffering effects -/

/-- Add an effect to the instance an instruction belongs to. -/
def State.addEff (s : State) (c : Issue) (e : Eff) : State :=
  match c.who with
  | .warp core slot t => s.modInst core slot t fun i => { i with effs := i.effs ++ [e], fires := i.fires ++ [(c.idx, c.mask)] }
  | .ctl _ _ => s

/-! ## GETR and SETR -/

/-- A register of a header's write list whose CARRY bit is set. -/
def BlockHdr.carried (h : BlockHdr) (r : RegSpec) : Bool :=
  h.writes.zipIdx.any fun q => q.1 == r && h.carry.getLsbD q.2

/-- The SETRs of a block that write a register. -/
def RBlock.writers (b : RBlock) (r : RegSpec) : List Nat :=
  (b.instrs.filter fun q => match q.2 with | .setr _ w64 t => (namedRegs w64 t).contains r | _ => false).map (·.1)

/-- The register file after an instance's SETRs that have fired. -/
def Warp.withSetrs (w : Warp) (i : Inst) : Warp :=
  i.effs.foldl (fun w e => match e with | .setr _ r w64 m lo hi => w.writeReg r w64 m lo hi | _ => w) w

/-- What a GETR of a warp reads (R211, R277): none while it waits for an older iteration. -/
def State.getrWarp (s : State) (who : Who) (core slot itag : Nat) (w64 : Bool) (r : RegSpec) : Option (Lanes × Lanes) :=
  match s.warp? core slot, s.instOf who, s.blockOf who with
  | some w, some i, some b =>
    let older := w.olderThan itag
    let regs := namedRegs w64 r
    let waits := regs.any fun q => b.hdr.writes.contains q &&
      (if b.hdr.carried q then older.any fun o => (b.writers q).any fun n => !o.fired.contains n else !older.isEmpty)
    if waits then none else some ((older.foldl Warp.withSetrs (w.keptFile i)).readReg r)
  | _, _, _ => some ([], [])

/-- A register awaits the token of an outstanding engine operation (R260). -/
def State.tokenAwaited (s : State) (who : Who) (r : RegSpec) : Bool :=
  r.scalar && (s.tokensOf who).any fun q => q.1 == r.num.toNat && q.2.2

/-- The parts a GETR sends. -/
def getrParts (w64 : Bool) (lo hi : Lanes) : List Lanes := if w64 then [lo, hi] else [lo]

/-- GETR (R277, R279): the first GETR of a token register is the join of R131. -/
def execGetr (_w : Wd) (w64 : Bool) (reg : RegSpec) (s : State) : Host.Outcome State Fault Refusal :=
  issuing s fun c =>
    if s.tokenAwaited c.who reg then s
    else
      let s := if reg.scalar then s.joinToken c.who reg.num.toNat else s
      match c.who with
      | .ctl core x =>
        let v := ((s.ctl? core x).map fun t => t.s.getD reg.num.toNat 0).getD 0
        s.finish c (if w64 then c.res64 fun _ => v else c.res32 fun _ => lowHalf v)
      | .warp core slot itag =>
        match s.getrWarp c.who core slot itag w64 reg with
        | none => s
        | some (lo, hi) => (s.senseWhere (some (s.ctxOf c.who, c.who.requester)) (· == .regs core slot)).finish c (if w64 then c.res64 fun l => joinHalves (lo.at l) (hi.at l) else c.res32 fun l => lo.at l)

/-- SETR (R278, R279). -/
def execSetr (_w : Wd) (w64 : Bool) (reg : RegSpec) (s : State) : Host.Outcome State Fault Refusal :=
  issuing s fun c =>
    let lo := (c.port .a).val
    let hi := (c.port .ax).val
    match c.who with
    | .ctl core x => (s.modCtl core x fun t => t.writeReg reg w64 (lo.at c.low) (hi.at c.low)).finish c []
    | .warp _ _ _ => (s.addEff c (.setr c.idx reg w64 c.mask lo hi)).finish c []

/-! ## Token plumbing -/

/-- FAN (R280). -/
def execFan (_w : Wd) (w64 : Bool) (s : State) : Host.Outcome State Fault Refusal :=
  issuing s fun c => s.finish c (if w64 then c.res64 (c.w64 .a .ax) else c.res32 (c.w32 .a))

/-- MOVI (R281). -/
def execMovi (_w : Wd) (w64 : Bool) (imm : BitVec 27) (imm64 : Option (BitVec 64)) (s : State) : Host.Outcome State Fault Refusal :=
  issuing s fun c =>
    let v : DWord := imm64.getD (imm.signExtend 64)
    s.finish c (if w64 then c.res64 fun _ => v else c.res32 fun _ => lowHalf v)

/-- SEL (R282). -/
def execSel (_w : Wd) (w64 : Bool) (s : State) : Host.Outcome State Fault Refusal :=
  issuing s fun c =>
    let pick (l : Nat) : Bool := c.w32 .c l != 0
    s.finish c (if w64 then c.res64 fun l => if pick l then c.w64 .a .ax l else c.w64 .b .bx l
      else c.res32 fun l => if pick l then c.w32 .a l else c.w32 .b l)

/-- SINK (R283). -/
def execSink (_w : Wd) (s : State) : Host.Outcome State Fault Refusal := issuing s fun c => s.finish c []

/-! ## Successor instructions -/

/-- The address of a block a word offset away from the current block's word A (R284). -/
def State.offsetTarget (s : State) (who : Who) (off : BitVec 27) : DWord :=
  BitVec.ofNat 64 (((s.blockOf who).map (·.addr)).getD 0) + (off.signExtend 64) * 8

/-- What a control thread's successor does: where it goes and the depth. -/
def Ctl.choose (t : Ctl) (c : Choice) : Ctl :=
  match c with
  | .goto a => { t with choice := some (some a.toNat), newDepth := t.depth, newRet := none }
  | .call a r => { t with choice := some (some a.toNat), newDepth := t.depth + 1, newRet := some (t.depth, r) }
  | .ret => { t with choice := some (some (t.rets.getD (t.depth - 1) 0).toNat), newDepth := t.depth - 1, newRet := none }
  | .exit => { t with choice := some none, newDepth := t.depth, newRet := none }

/-- A control thread's successor may not take effect: it is the second of its block, a RET at depth 0, or a call to
depth 5 (R196, R230). -/
def Ctl.refuses (t : Ctl) (c : Choice) : Bool :=
  t.choice.isSome || (match c with | .ret => t.depth == 0 | .call _ _ => 4 ≤ t.depth | _ => false)

/-- A successor instruction decides, for each lane of its firing mask, a target and a depth (R284). -/
def State.succeed (s : State) (c : Issue) (f : Nat → Choice) : State :=
  match c.who with
  | .warp _ _ _ => (s.addEff c (.choose c.idx (c.lanes.map fun l => (l, f l)))).finish c []
  | .ctl core x =>
    match s.ctl? core x with
    | none => s
    | some t =>
      if t.refuses (f 0) then s.faultIssue c { code := .illegalBlock, mask := c.mask }
      else (s.modCtl core x fun t => t.choose (f 0)).finish c []

/-- BR (R285). -/
def execBr (_w : Wd) (off : BitVec 27) (s : State) : Host.Outcome State Fault Refusal :=
  issuing s fun c => s.succeed c fun _ => .goto (s.offsetTarget c.who off)

/-- BRC (R286). -/
def execBrc (_w : Wd) (off off2 : BitVec 27) (s : State) : Host.Outcome State Fault Refusal :=
  issuing s fun c => s.succeed c fun l => .goto (s.offsetTarget c.who (if c.w32 .a l != 0 then off else off2))

/-- BRI (R287). -/
def execBri (_w : Wd) (s : State) : Host.Outcome State Fault Refusal :=
  issuing s fun c => s.succeed c fun l => .goto (c.w64 .a .ax l)

/-- CALL (R289). -/
def execCall (_w : Wd) (off off2 : BitVec 27) (s : State) : Host.Outcome State Fault Refusal :=
  issuing s fun c => s.succeed c fun _ => .call (s.offsetTarget c.who off) (s.offsetTarget c.who off2)

/-- CALLI (R290). -/
def execCalli (_w : Wd) (off2 : BitVec 27) (s : State) : Host.Outcome State Fault Refusal :=
  issuing s fun c => s.succeed c fun l => .call (c.w64 .a .ax l) (s.offsetTarget c.who off2)

/-- RET (R291). -/
def execRet (_w : Wd) (s : State) : Host.Outcome State Fault Refusal := issuing s fun c => s.succeed c fun _ => .ret

/-- EXIT (R292). -/
def execExit (_w : Wd) (s : State) : Host.Outcome State Fault Refusal := issuing s fun c => s.succeed c fun _ => .exit

/-- LOOP (R293): true lanes re-enter the current block. -/
def execLoop (_w : Wd) (off2 : BitVec 27) (s : State) : Host.Outcome State Fault Refusal :=
  issuing s fun c => s.succeed c fun l => .goto (s.offsetTarget c.who (if c.w32 .a l != 0 then 0 else off2))

/-- TRAP (R294, R423, R426): a warp's instance records USER_TRAP, unless it skips its TRAPs; a control thread halts before
the instruction, the trap escalates, and the resumed thread goes on after it. -/
def execTrap (_w : Wd) (code : BitVec 16) (s : State) : Host.Outcome State Fault Refusal :=
  issuing s fun c =>
    let f : FaultInfo := { code := .userTrap, mask := c.mask, ucode := code.toNat }
    match c.who with
    | .warp _ _ _ => if (s.instOf c.who).any (·.skipTrap) then s.finish c [] else s.faultIssue c f
    | .ctl core x =>
      if (s.ctl? core x).any (·.skip) then (s.modCtl core x fun t => { t with skip := false }).finish c []
      else (s.haltCtl core x f true).modCtl core x fun t => { t with skip := true }

end Sys2Proof.Machine
end

