-- ==== Sys2Proof/Machine/MemoryForms.lean ====
section
/-! DEFINITION. The memory, atomic and fence forms (R328 to R343): one meaning for each. A load, LDRES or atomic leaves a
pending access that its reply completes; a store, RED or release is buffered until its block commits, and takes effect
at once in a control thread. -/

namespace Sys2Proof.Machine

/-! ## Operands -/

/-- The address of a lane (R328). -/
def memAddr (o : MemOp) (gl : Bool) (c : Issue) (l : Nat) : DWord :=
  if gl then c.w64 .a .ax l + offset64 o.off else (c.w32 .a l + offset32 o.off).setWidth 64

/-- The data operand of a store of up to 16 bytes: b, b', c, c' (Table 15.1). -/
def storeData (sz : Sz) (c : Issue) (l : Nat) : BitVec 128 :=
  match sz with
  | .b128 => (c.w32 .cx l) ++ (c.w32 .c l) ++ (c.w32 .bx l) ++ (c.w32 .b l)
  | .b64 => (c.w64 .b .bx l).setWidth 128
  | _ => (c.w32 .b l).setWidth 128

/-- An operand of 32 or 64 bits. -/
def wideOperand (w64 : Bool) (c : Issue) (q r : PortName) (l : Nat) : BitVec 128 :=
  if w64 then (c.w64 q r l).setWidth 128 else (c.w32 q l).setWidth 128

/-- The scope of an acquire a form carries. -/
def acquireScope (o : MemOp) : Option Scope := if acquires o.order then some o.scope else none

/-! ## Reservations -/

/-- The reservation of a lane of a thread. -/
def Reserve.ofLane (r : Reserve) (who : Who) (lane : Nat) : Bool :=
  r.lane == lane && (match who with
    | .warp c sl _ => r.core == c && r.slot == sl && r.ctl.isNone
    | .ctl c x => r.core == c && r.ctl == some x)

/-- End the reservation of a lane, wherever it stands. -/
def State.endReserve (s : State) (who : Who) (lane : Nat) : State :=
  let keep (l : List Reserve) : List Reserve := l.filter fun r => !r.ofLane who lane
  { s with
    firns := s.firns.map fun (p : Nat × Firn) => (p.1, { p.2 with monitor := keep p.2.monitor })
    cores := s.cores.map fun (p : Nat × Core) => (p.1, { p.2 with monitor := keep p.2.monitor }) }

/-- Entries of the monitor of a place's port (R152). -/
def monitorSize : Place → Nat
  | .dev _ => 1024
  | _ => 64

/-- Set a lane's reservation; a monitor full of pinned entries makes the LDRES wait, otherwise a freely chosen entry that
is not pinned is evicted (R150, R152, log 21). -/
def State.reserve (s : State) (who : Who) (lane : Nat) (p : Place) : Option State :=
  let s := s.endReserve who lane
  let m := s.monitor p
  let (core, slot, ctl, inst) := match who with
    | .warp c sl t => (c, sl, none, some t)
    | .ctl c x => (c, 0, some x, none)
  let r : Reserve := { core, slot, lane, ctl, sec := p.monSector, since := s.time, inst }
  if m.length < monitorSize p then some (s.modMonitor p fun l => r :: l)
  else
    let loose := m.filter fun e => !e.pinned
    match loose[Config.freeChoice s.free % loose.length]? with
    | none => none
    | some v => some ((s.modMonitor p fun l => r :: l.erase v).nextFree)

/-! ## Pending accesses -/

/-- A lower-index access of the same lane to bytes of an access, in the same instance or an older one, has not returned, or an older
instance holds a RED of the lane to them that it has not applied: its result is not known before it is performed (R114). -/
def State.behind (s : State) (who : Who) (idx : Nat) (a : Access) : Bool :=
  let meets (p : Pend) : Bool := p.lanes.any fun l => l.acc.lane == a.lane && l.got.isNone && l.acc.place.overlaps l.acc.bytes a.place a.bytes
  let reds (e : Eff) : Bool := match e with
    | .red _ _ _ _ accs => accs.any fun q => q.1.lane == a.lane && q.1.place.overlaps q.1.bytes a.place a.bytes
    | _ => false
  match who with
  | .ctl _ _ => false
  | .warp core slot itag =>
    match s.warp? core slot, s.instOf who with
    | some w, some i => (i.pends.any fun p => decide (p.idx < idx) && meets p) || (w.olderThan itag).any fun o => o.pends.any meets || o.effs.any reds
    | _, _ => false

/-- Try to perform one lane of an LDRES (R342): at the own scratchpad port at once, elsewhere by a request, before which the die's
copies are written back, since R114 has the lane read its own earlier stores at the home (DEDUCED, log 47). -/
def State.tryResv (s : State) (who : Who) (idx : Nat) (cls : MClass) (l : PendLane) : State :=
  let core := who.core
  let a := l.acc
  if l.got.isSome || l.sent then s
  else match a.place with
    | .sp t _ =>
      if t == core then
        match s.reserve who a.lane a.place with
        | none => s
        | some s =>
          let (s, bs) := s.homeRead (some (s.ctxOf who, who.requester)) a.place a.bytes
          s.setGot who idx a.lane (mergeForward a.bytes l.fmask l.fval (toVal bs))
      else (s.send core (s.ctxOf who) (.wload who idx a.lane a.place a.bytes true)).setSent who idx a.lane
    | _ =>
      let s := s.dieFlush (dieOf core) a.place.sector
      let (s, ord) := s.takeOrd core cls
      (s.send core (s.ctxOf who) (.read who idx a.lane a.place a.bytes true) ord).setSent who idx a.lane

/-- Try every lane of a pending access that has not returned, in ascending lane. A lane waits behind earlier accesses of its own to
the same bytes; in class .ord so do the lanes above it, since the lanes of one firing take ascending numbers (R99). While an instance
of the core applies its stores, every lane waits (R116). -/
def State.tryPend (s : State) (who : Who) (p : Pend) : State :=
  let free (l : PendLane) : Bool := l.got.isSome || l.sent || !s.behind who p.idx l.acc
  if s.midCommit who.core then s
  else (if p.cls == .ord then p.lanes.takeWhile free else p.lanes).foldl (fun s l =>
    if s.behind who p.idx l.acc then s
    else match p.kind with
      | .load _ => s.tryLoad who p.idx p.cls p.acq l
      | .ldres _ => s.tryResv who p.idx p.cls l
      | _ => s) s

/-- The value of a lane of a pending access that has returned. -/
def Pend.value (p : Pend) (l : Nat) : BitVec 128 :=
  ((p.lanes.find? fun q => q.acc.lane == l).bind (·.got)).getD 0

/-- The result parts of an access (R329). -/
def Pend.parts (p : Pend) (form : Form) : List Lanes :=
  let c : Issue := { who := .ctl 0 0, idx := p.idx, mask := p.mask, vals := [], form }
  c.resN p.value

/-- The form of an instruction of a thread's block. -/
def State.formAt (s : State) (who : Who) (idx : Nat) : Option Form :=
  (s.blockOf who).bind fun b => match decode (b.words.drop idx) with
    | .ok (ins, _) => ins.form
    | .error _ => none

/-- COMPLETE an access whose lanes have all returned: its acquire's actions, then its tokens (R333, R336, R340). -/
def State.completePend (s : State) (who : Who) (idx : Nat) : State :=
  match s.pend? who idx, s.formAt who idx with
  | some p, some form =>
    if p.lanes.all fun l => l.got.isSome then
      let s := match p.acq with | none => s | some sc => s.acquireActs who.core sc 0b111
      let s := (s.dropPend who idx).sendTokens who form p.mask (p.parts form)
      s.advance who idx form.isLong
    else s
  | _, _ => s

/-- An access leaves its instruction: the entry leaves its node, the pending access is there. -/
def State.startPend (s : State) (c : Issue) (p : Pend) : State := (s.fired c).addPend c.who p

/-- The lanes of a load, with what buffered stores forward (R114). -/
def State.loadLanes (s : State) (c : Issue) (accs : List Access) : List PendLane :=
  accs.map fun a => let (m, v) := s.forward c a
                    { acc := a, fmask := m, fval := v, v := 0, cmp := 0, sent := false, got := none }

/-- A load form (R333, R336). -/
def loadMeaning (space : Space) (sz : Sz) (o : MemOp) (s : State) : Host.Outcome State Fault Refusal :=
  issuing s fun c =>
    if s.held c false false || s.midCommit c.who.core then s
    else match s.checkAccess c space .read .load sz.bytes (memAddr o (space == .gl) c) (fun _ => true) false with
      | .wait s => s
      | .fault f => s.faultIssue c f
      | .ok s accs =>
        let p : Pend := { idx := c.idx, kind := .load sz.bytes, cls := o.cls, acq := acquireScope o, mask := c.mask, lanes := s.loadLanes c accs }
        (s.startPend c p).tryPend c.who p

/-- LD (R333). -/
def execLd (sz : Sz) (o : MemOp) (s : State) := loadMeaning .gl sz o s
/-- LDS (R333). -/
def execLds (sz : Sz) (o : MemOp) (s : State) := loadMeaning .sp sz o s
/-- LDW (R333). -/
def execLdw (sz : Sz) (o : MemOp) (s : State) := loadMeaning .wn sz o s

/-- Reservations exist at device and scratchpad places, not in host memory (R141, R150). -/
def Place.notHost : Place → Bool
  | .host _ _ _ => false
  | _ => true

/-- LDRES (R342, R150). -/
def execLdres (space : Space) (w64 : Bool) (o : MemOp) (s : State) : Host.Outcome State Fault Refusal :=
  issuing s fun c =>
    let n := if w64 then 8 else 4
    if s.held c true false || s.midCommit c.who.core then s
    else
      match s.checkAccess c space .atomic .atomic n (memAddr o (space == .gl) c) Place.notHost true with
      | .wait s => s
      | .fault f => s.faultIssue c f
      | .ok s accs =>
        let p : Pend := { idx := c.idx, kind := .ldres n, cls := o.cls, acq := none, mask := c.mask, lanes := s.loadLanes c accs }
        (s.startPend c p).tryPend c.who p

/-! ## Stores -/

/-- The accesses of a store or RED with their data. -/
def withData (accs : List Access) (f : Nat → BitVec 128) : List (Access × BitVec 128) := accs.map fun a => (a, f a.lane)

/-- The scope at which a releasing store writes its own bytes through (R336). -/
def throughScope (o : MemOp) : Option Scope := if releases o.order then some o.scope else none

/-- A control thread takes a releasing action at once, or waits. -/
def State.releaseNow (s : State) (who : Who) (order : Order) (scope : Scope) (mask : BitVec 3) : RelSt :=
  if releases order then s.releaseActs who.core (s.vfOf (s.ctxOf who)) scope mask else .done s

/-- A store form (R334, R336): buffered with its release; performed as it executes in a control thread (R196). -/
def storeMeaning (space : Space) (sz : Sz) (o : MemOp) (s : State) : Host.Outcome State Fault Refusal :=
  issuing s fun c =>
    if s.held c false false then s
    else match s.checkAccess c space .write .store sz.bytes (memAddr o (space == .gl) c) (fun _ => true) false with
      | .wait s => s
      | .fault f => s.faultIssue c f
      | .ok s accs =>
        let data := withData accs (storeData sz c)
        match c.who with
        | .warp _ _ _ =>
          let s := if releases o.order then s.addEff c (.release c.idx o.scope 0b111) else s
          (s.addEff c (.store c.idx o.cls data (throughScope o))).finish c []
        | .ctl _ _ =>
          if !s.mailRoom (accs.map (·.place)) then s
          else match s.releaseNow c.who o.order o.scope 0b111 with
          | .wait s => s
          | .done s =>
            match applyLanes (fun s a v => s.applyStore c.who c.idx o.cls (throughScope o) a v) s data with
            | (s, []) => s.finish c []
            | (s, _) => s

/-- ST (R334). -/
def execSt (sz : Sz) (o : MemOp) (s : State) := storeMeaning .gl sz o s
/-- STS (R334). -/
def execSts (sz : Sz) (o : MemOp) (s : State) := storeMeaning .sp sz o s
/-- STW (R334). -/
def execStw (sz : Sz) (o : MemOp) (s : State) := storeMeaning .wn sz o s

/-! ## Atomics -/

/-- The host has enabled AtomicOps of the function, or the place needs none (R145). -/
def State.hostAtomics (s : State) (p : Place) : Bool :=
  match p with
  | .host vf _ _ => (s.vf vf).atomicReq
  | _ => true

/-- RED (R341). -/
def execRed (op : AtomOp) (aw : AWidth) (o : MemOp) (s : State) : Host.Outcome State Fault Refusal :=
  issuing s fun c =>
    if s.held c false false then s
    else match s.checkAccess c .gl .atomic .atomic aw.bytes (memAddr o true c) (fun p => supports op aw p && s.hostAtomics p) false with
      | .wait s => s
      | .fault f => s.faultIssue c f
      | .ok s accs =>
        let data := withData accs (wideOperand (aw == .w64) c .b .bx)
        match c.who with
        | .warp _ _ _ => (s.addEff c (.red c.idx op aw o.cls data)).finish c []
        | .ctl _ _ =>
          match applyLanes (fun s a v => s.applyRed c.who c.idx op o.cls a v) s data with
          | (s, []) => s.finish c []
          | (s, _) => s

/-- The lanes of an instruction whose values the replay log holds for this block (R149). -/
def State.logged (s : State) (c : Issue) : List (Nat × BitVec 128) :=
  match c.who with
  | .ctl _ _ => []
  | .warp core slot _ =>
    match s.warp? core slot, s.instOf c.who with
    | some w, some i =>
      if w.log.block != i.block then []
      else ((w.log.entries.filter fun e => e.idx == c.idx).flatMap (·.vals)).filter fun q => c.mask.getLsbD q.1
    | _, _ => []

/-- Another block's log is cleared before the first value-returning atomic of a block fires (R149). -/
def State.ownLog (s : State) (c : Issue) : State :=
  match c.who with
  | .ctl _ _ => s
  | .warp core slot _ =>
    match s.instOf c.who with
    | none => s
    | some i => s.modWarp core slot fun w => if w.log.block == i.block then w else { w with log := { block := i.block } }

/-- Write a returned value to the log. -/
def State.logValue (s : State) (who : Who) (idx lane : Nat) (v : BitVec 128) : State :=
  match who with
  | .ctl _ _ => s
  | .warp core slot _ =>
    match s.instOf who with
    | none => s
    | some i => s.modWarp core slot fun w =>
      let l : ReplayLog := if w.log.block == i.block then w.log else { block := i.block }
      let entries := if l.entries.any (fun e => e.idx == idx) then
          mapIf (fun e => e.idx == idx) (fun e => { e with mask := e.mask ||| (1 : Mask) <<< lane, vals := (lane, v) :: e.vals.filter fun q => q.1 != lane }) l.entries
        else l.entries ++ [{ idx, mask := (1 : Mask) <<< lane, vals := [(lane, v)] }]
      { w with log := { l with entries } }

/-- The operand record of ATOM.cas.128 (R339): its place for a lane, or the fault. -/
def State.casRecord (s : State) (c : Issue) : Option FaultInfo :=
  let addr (l : Nat) : Nat := (c.w32 .b l).toNat
  let at_ (m : Mask) (code : Code) : FaultInfo := { code, mask := m, raddr := BitVec.ofNat 64 (addr (lowestLane m)), acc := .read }
  let mis := lanesWhere c.lanes fun l => addr l % 32 != 0
  let out := lanesWhere c.lanes fun l => match s.spPlace c.who (addr l) 32 with | .error _ => true | .ok _ => false
  if mis != 0 then some (at_ mis .misaligned) else if out != 0 then some (at_ out .windowPerm) else none

/-- A buffered store of the same lane overlaps the operand record (R339). -/
def State.recordOverlapped (s : State) (c : Issue) : Mask :=
  lanesWhere c.lanes fun l => match s.spPlace c.who (c.w32 .b l).toNat 32, s.instOf c.who with
    | .ok p, some i => i.overlapped c.idx { lane := l, va := 0, place := p, bytes := 32 }
    | _, _ => false

/-- cmp and v of ATOM.cas.128, from the operand record. -/
def State.recordValue (s : State) (c : Issue) (l at_ : Nat) : BitVec 128 :=
  match s.spPlace c.who (c.w32 .b l).toNat 32 with
  | .ok p => toVal (s.peekN (p.add at_) 16)
  | .error _ => 0

/-- Errors in an operand record are met by its reading (R106, R107). -/
def State.senseRecord (s : State) (c : Issue) (l : Nat) : State :=
  match s.spPlace c.who (c.w32 .b l).toNat 32 with
  | .ok p => (p.errSites 32).foldl (fun s e => s.sense (some (s.ctxOf c.who, c.who.requester)) e) s
  | .error _ => s

/-- The kind of pending access an atomic leaves. -/
def atomicPend (op : Option AtomOp) (n : Nat) : PendKind :=
  match op with
  | none => .stcond n
  | some p => .atomic p (if n == 16 then .w128 else if n == 8 then .w64 else .w32)

/-- One lane of an atomic leaves for its place, after the die's copies of the sector have been written back (R87). -/
def State.sendAtomic (s : State) (c : Issue) (cls : MClass) (op : Option AtomOp) (n : Nat) (v cmp : BitVec 128) (a : Access) : State :=
  let s := match a.place with | .dev _ | .host _ _ true => s.dieFlush (dieOf c.who.core) a.place.sector | _ => s
  let (s, ord) := s.takeOrd c.who.core cls
  s.send c.who.core (s.ctxOf c.who) (.atomic c.who c.idx a.lane a.place op n v cmp true) ord

/-- An atomic that has passed its checks leaves its instruction: the logged lanes have their values, the others are sent,
their operands read from the ports or, 128 bits wide, from the operand record. -/
def State.startAtomic (s : State) (c : Issue) (o : MemOp) (op : Option AtomOp) (n : Nat) (done : List (Nat × BitVec 128))
    (accs : List Access) : State :=
  let s := s.ownLog c
  let s := if n == 16 then accs.foldl (fun s a => s.senseRecord c a.lane) s else s
  let v (l : Nat) : BitVec 128 := if n == 16 then s.recordValue c l 16 else wideOperand (n == 8) c .b .bx l
  let cmp (l : Nat) : BitVec 128 := if n == 16 then s.recordValue c l 0 else wideOperand (n == 8) c .c .cx l
  let mk (a : Access) : PendLane := { acc := a, fmask := 0, fval := 0, v := v a.lane, cmp := cmp a.lane, sent := true, got := none }
  let old := done.map fun q =>
    ({ acc := { lane := q.1, va := 0, place := .sp c.who.core 0, bytes := 0 }, fmask := 0, fval := 0, v := 0, cmp := 0, sent := true, got := some q.2 } : PendLane)
  let p : Pend := { idx := c.idx, kind := atomicPend op n, cls := o.cls, acq := acquireScope o, mask := c.mask, lanes := old ++ accs.map mk }
  accs.foldl (fun s a => s.sendAtomic c o.cls op n (v a.lane) (cmp a.lane) a) (s.startPend c p)

/-- A value-returning atomic (R338 to R340, R148, R149): the logged lanes are served from the log; the others pass the
checks and are sent, after the release's actions. `op` none is STCOND, which R60 counts
among the writes. -/
def atomicMeaning (space : Space) (op : Option AtomOp) (n : Nat) (support : Place → Bool) (o : MemOp) (s : State) :
    Host.Outcome State Fault Refusal :=
  issuing s fun c =>
    if s.held c true true || s.midCommit c.who.core then s
    else
      let done := s.logged c
      let c' := { c with mask := c.mask &&& ~~~ maskOf (done.map (·.1)) }
      let mis (l : Nat) : Bool := (memAddr o (space == .gl) c l).toNat % n != 0
      match (if n == 16 && !(c'.lanes.any mis) then s.casRecord c' else none) with
      | some f => s.faultIssue c f
      | none =>
        match s.checkAccess c' space (if op.isNone then .write else .atomic) .atomic n (memAddr o (space == .gl) c) support true with
        | .wait s => s
        | .fault f => s.faultIssue c f
        | .ok s accs =>
          let overl := if n == 16 then s.recordOverlapped c' else 0
          if overl != 0 then s.faultIssue c { code := .illegalBlock, mask := overl, acc := .read }
          else match s.releaseNow c.who o.order o.scope 0b111 with
            | .wait s => s
            | .done s => s.startAtomic c o op n done accs

/-- ATOM (R338, R339). -/
def execAtom (op : AtomOp) (aw : AWidth) (o : MemOp) (s : State) : Host.Outcome State Fault Refusal :=
  atomicMeaning .gl (some op) aw.bytes (fun p => supports op aw p && s.hostAtomics p) o s

/-- ATOMS (R338). -/
def execAtoms (op : AtomOp) (aw : AWidth) (wn : Bool) (o : MemOp) (s : State) : Host.Outcome State Fault Refusal :=
  atomicMeaning (if wn then .wn else .sp) (some op) aw.bytes (supports op aw) o s

/-- STCOND (R342, R150). -/
def execStcond (space : Space) (w64 : Bool) (o : MemOp) (s : State) : Host.Outcome State Fault Refusal :=
  atomicMeaning space none (if w64 then 8 else 4) Place.notHost o s

/-! ## PREF and FENCE -/

/-- PREF (R337): the sectors of lanes whose translation is known are asked for; for the others a walk is asked, at whose end the
sector is asked for. A lane whose miss finds the queue full keeps the PREF waiting at the core (R71). -/
def execPref (o : MemOp) (s : State) : Host.Outcome State Fault Refusal :=
  issuing s fun c =>
    if s.held c false false then s
    else
      let core := c.who.core
      let x := s.ctxOf c.who
      let one (r : State × Bool) (l : Nat) : State × Bool :=
        let va := memAddr o true c l
        match r.1.lookup core x va .read with
        | .hit p => ((r.1.tlbPull core x va .read).prefAsk core x o.cls va p, r.2)
        | .miss => if r.1.missFull core x va then (r.1, true) else (r.1.missAt core x va .read (.pref core o.cls), r.2)
        | .fault _ => r
      let r := c.lanes.foldl one (s, false)
      if r.2 then r.1 else r.1.finish c []

/-- A FENCE with a release part stands at a lower index of the block (R126). -/
def State.fenceBefore (s : State) (c : Issue) : Bool :=
  (s.blockOf c.who).any fun b => b.instrs.any fun q => decide (q.1 < c.idx) && match q.2 with | .fence _ o _ _ => releases o | _ => false

/-- FENCE (R343): the acquire part when the accesses of lower index have returned, the release part at commit. Where the two make
a fence order, the acquire is made again after the release, so that later loads read what R126 asks for. -/
def execFence (_w : Wd) (order : Order) (scope : Scope) (mask : BitVec 3) (s : State) : Host.Outcome State Fault Refusal :=
  issuing s fun c =>
    if acquires order && s.held c true false then s
    else
      match c.who with
      | .warp core _ _ =>
        let again := acquires order && (releases order || s.fenceBefore c)
        let s := if acquires order then s.acquireActs core scope mask else s
        let s := if releases order then s.addEff c (.release c.idx scope mask) else s
        let s := if again then s.addEff c (.acquire c.idx scope mask) else s
        s.finish c []
      | .ctl core _ =>
        match s.releaseNow c.who order scope mask with
        | .wait s => s
        | .done s => (if acquires order then s.acquireActs core scope mask else s).finish c []

end Sys2Proof.Machine
end

