-- ==== Sys2Proof/Machine/Coherence.lean ====
section
/-! DEFINITION. The events of caches and homes (chapters 2 and 4): the die coherence unit, fills and reads at a home, writes
at a home with their presence invalidations, flushing reads, accesses to another core's window, mailbox stores, and errors of
the memory. -/

namespace Sys2Proof.Machine

/-! ## The die coherence unit (R92 to R94) -/

/-- A core's own copy of a sector gets the grant its store waits for; `priv`: its page is PRIVATE. -/
def Core.grant (k : Core) (key : SKey) (priv : Bool) : Core :=
  match k.l1? key with
  | none => k
  | some x => k.l1Put { x with granted := true, priv := priv }

/-- What follows the directory's action: a fill is asked of the home, or the store gets its grant. -/
def State.dcuServe (s : State) (r : DcuReq) (priv : Bool) : State :=
  match r.kind with
  | .read => s.send r.core r.ctx (.fill r.key priv)
  | .store | .upgrade => s.modCore r.core fun k => k.grant r.key priv

/-- Set the owner of a page on a die. -/
def State.setOwner (s : State) (d : Nat) (pg : SKey) (o : PageOwner) : State := s.modDie d fun x => { x with owners := keyPut pg o x.owners }

/-- A table's entries that stand in the set of a key: `sets` sets of 16 ways, by the low bits of the key's number (log 44). -/
def inSet {α : Type} (sets : Nat) (key : SKey) (l : List (SKey × α)) : List (SKey × α) := l.filter fun q => q.1.sec % sets == key.sec % sets

/-- Sets of the page-owner table (8,192 entries), the sector directory (65,536) and the presence filter (262,144), each of 16
ways. -/
def ownerSets : Nat := 512
def dirSets : Nat := 4096
def presenceSets : Nat := 16384

/-- Room for one more entry of the page-owner table: a freely chosen page of the set is written back and dropped (Table 4.2,
log 21). -/
def State.ownerRoom (s : State) (d : Nat) (page : SKey) : State :=
  let owners := inSet ownerSets page (s.die d).owners
  if owners.length < 16 then s
  else
    let pg := (owners.getD (s.choice owners.length) (⟨none, 0⟩, .shared)).1
    let s := s.nextFree.dropFilled fun c k => dieOf c == d && k.page == pg
    let s := (dieCores d).foldl (fun s c => ((s.core c).l1.filter fun y => y.key.page == pg).foldl (fun s y => s.flushSector c y.key true) s) s
    s.modDie d fun x => { x with owners := keyDel pg x.owners, dir := x.dir.filter fun q => q.1.page != pg }

/-- Room for one more entry of the sector directory: a freely chosen sector of the set is written back and dropped (Table 4.3,
log 21). -/
def State.dirRoom (s : State) (d : Nat) (sector : SKey) : State :=
  let dir := inSet dirSets sector (s.die d).dir
  if dir.length < 16 then s
  else
    let key := (dir.getD (s.choice dir.length) (⟨none, 0⟩, .m 0)).1
    (s.nextFree.dieFlush d key).modDie d fun x => { x with dir := keyDel key x.dir }

/-- Set a directory entry. -/
def State.setDir (s : State) (d : Nat) (key : SKey) (e : DirSt) : State := s.modDie d fun x => { x with dir := keyPut key e x.dir }

/-- The directory handles a request for a sector of a SHARED page (Table 4.3). The requester's entry is made before another holder
gives its copy up, so that the sector, and with it the page, keeps an entry. -/
def State.dirServe (s : State) (d : Nat) (r : DcuReq) : State :=
  let c := r.core
  let cur := keyGet r.key (s.die d).dir
  -- the page stays SHARED while the request is handled (Table 4.2)
  let s := if cur.isNone then (s.dirRoom d r.key).setOwner d r.key.page .shared else s
  match r.kind, cur with
  | .read, none => (s.setDir d r.key (.s [c])).dcuServe r false
  | .read, some (.s hs) => (s.setDir d r.key (.s (if hs.contains c then hs else c :: hs))).dcuServe r false
  | .read, some (.m o) =>
    if o == c then s.dcuServe r false
    else
      ((s.setDir d r.key (.s [c, o])).flushSector o r.key false).dcuServe r false
  | _, none => (s.setDir d r.key (.m c)).dcuServe r false
  | _, some (.s hs) =>
    ((hs.filter (· != c)).foldl (fun s o => s.flushSector o r.key true) (s.setDir d r.key (.m c))).dcuServe r false
  | _, some (.m o) =>
    let s := s.setDir d r.key (.m c)
    (if o == c then s else s.flushSector o r.key true).dcuServe r false

/-- The unit handles a request by its page's state (Table 4.2). -/
def State.ownerServe (s : State) (d : Nat) (r : DcuReq) : State :=
  let pg := r.key.page
  match keyGet pg (s.die d).owners with
  | none => ((s.ownerRoom d pg).setOwner d pg (.priv r.core)).dcuServe r true
  | some (.priv c) =>
    if c == r.core then s.dcuServe r true
    else
      let s := ((s.core c).l1.filter fun y => y.key.page == pg).foldl (fun s y => s.flushSector c y.key true) s
      (s.setOwner d pg .shared).dirServe d r
  | some .shared => s.dirServe d r

/-- A request has nothing left to ask for: the sector has been filled, or its fill is on the way. -/
def State.dcuMoot (s : State) (r : DcuReq) : Bool :=
  match r.kind with
  | .read => ((s.core r.core).l1? r.key).any (fun y => !y.part) || s.reqs.any fun q => q.core == r.core && q.kind.filling.any fun k => k.1 == r.key
  | .store | .upgrade => ((s.core r.core).l1? r.key).all (·.granted)

/-- A fill of the die for the request's page is on the way: the page is in a transition (R92). -/
def State.pageBusy (s : State) (d : Nat) (r : DcuReq) : Bool :=
  s.reqs.any fun q => dieOf q.core == d && q.kind.filling.any fun k => k.1 == r.key || (k.2 && k.1.page == r.key.page && q.core != r.core)

/-- The first request whose page is not in a transition; one request of a page at a time, in arrival order (R92). -/
def State.dcuNext (s : State) (die : Nat) : List SKey → List DcuReq → Option DcuReq
  | _, [] => none
  | seen, r :: rest =>
    if seen.contains r.key.page then s.dcuNext die seen rest
    else if s.pageBusy die r then s.dcuNext die (r.key.page :: seen) rest
    else some r

/-- DCU_REQUEST (R92 to R94): the unit handles a request. -/
def execDcuRequest (die : Nat) (s : State) : Host.Outcome State Fault Refusal :=
  .next (match s.dcuNext die [] (s.die die).dreqs with
    | none => s
    | some r =>
      let s := s.modDie die fun x => { x with dreqs := x.dreqs.erase r }
      if s.dcuMoot r then s else s.ownerServe die r)

/-! ## Presence (R90, R91) -/

/-- Record a fill of a PRIVATE page in the presence filter of its home, when the die is a neighbour; a full set evicts a freely
chosen entry, whose dies are invalidated first (R90, R91, log 21). -/
def State.markPresence (s : State) (d : Nat) (key : SKey) : State :=
  match key.vf with
  | some _ => s
  | none =>
    let st := (s.homeOf (key.sec * 64)).1
    if !near d st then s
    else
      let tab := (s.firn st).presence.filter fun q => q.1 % presenceSets == key.sec % presenceSets
      let s := if tab.length < 16 || tab.any (fun q => q.1 == key.sec) then s
        else s.nextFree.invalidateOthers none ⟨none, (tab.getD (s.choice tab.length) (0, [])).1⟩
      s.modFirn st fun x =>
        let marks := tabGet [] key.sec x.presence
        { x with presence := tabPut key.sec (if marks.contains d then marks else d :: marks) x.presence }

/-- The dies a home must hear from before it performs a write of a die (R91). -/
def State.toInvalidate (s : State) (d : Nat) (key : SKey) : List Nat := (s.presence key).filter (· != d)

/-- A write may be performed: no die is marked, or every one asked has acknowledged; otherwise the home asks. -/
def State.askMarked (s : State) (r : Req) (key : SKey) : Option State :=
  let others := s.toInvalidate (dieOf r.core) key
  if r.asked then (if r.acks.isEmpty then none else some s)
  else if others.isEmpty then none
  else some { s with reqs := mapIf (fun q => q.id == r.id) (fun q => { q with asked := true, acks := others }) s.reqs }

/-- PRESENCE_INVALIDATION (R91): a die writes back and invalidates the sector of a write, and acknowledges; its bit is cleared. Its
write-back invalidates other marked dies in turn. -/
def execPresenceInvalidation (die req : Nat) (s : State) : Host.Outcome State Fault Refusal :=
  .next (match s.req? req with
    | none => s
    | some r =>
      match r.kind.sector with
      | none => s
      | some key =>
        if !r.acks.contains die then s
        else
          let s := s.dieFlush die key
          let s := s.setPresence key ((s.presence key).filter (· != die))
          { s with reqs := mapIf (fun q => q.id == req) (fun q => { q with acks := q.acks.filter (· != die) }) s.reqs })

/-! ## The home (R53, R72, R97, R99) -/

/-- A lane of a pending access has its value; forwarded bytes lie over it (R114). -/
def State.laneValue (s : State) (who : Who) (idx lane : Nat) (v : BitVec 128) : State :=
  match (s.pend? who idx).bind fun p => p.lanes.find? fun l => l.acc.lane == lane with
  | none => s
  | some l => s.setGot who idx lane (mergeForward l.acc.bytes l.fmask l.fval v)

/-- The requester a fill serves: a thread of the core whose load waits for the sector; none for a prefetch. -/
def State.fillOwner (s : State) (core : Nat) (key : SKey) : Option Requester :=
  let mine (p : Pend) : Bool := p.lanes.any fun l => l.got.isNone && l.acc.place.sector == key
  match (s.core core).warps.find? fun (q : Nat × Warp) => q.2.insts.any fun i => i.pends.any mine with
  | some q => some (.warp core q.1)
  | none => match (s.core core).ctls.find? fun t => t.pend.any mine with
    | some t => some (.ctl core t.ctx)
    | none => none

/-- A read of one lane at its home, whose value sets out for the core (R18, R85, R87, R150). An LDRES whose monitor is full of pinned entries waits. -/
def State.readAt (s : State) (r : Req) (who : Who) (idx lane : Nat) (p : Place) (n : Nat) (resv : Bool) : Option State :=
  let s := match p with | .dev _ | .host _ _ true => s.dieFlush (dieOf r.core) p.sector | _ => s
  match (if resv then s.reserve who lane p else some s) with
  | none => none
  | some s =>
    let (s, bs) := s.homeRead (some (r.ctx, who.requester)) p n
    some (s.turnBack r.id (.data who idx lane (toVal bs)))

/-- A fill may enter its L1: the page or the sector is still the core's in the die's tables. A fill whose entry has left them
meanwhile is of no use, and its load asks again. -/
def State.tracked (s : State) (core : Nat) (key : SKey) (priv : Bool) : Bool :=
  let d := s.die (dieOf core)
  if priv then keyGet key.page d.owners == some (.priv core)
  else match keyGet key d.dir with | some (.s hs) => hs.contains core | some (.m c) => c == core | none => false

/-- HOME_READ: an L1 fill, or an uncached, .ord, acquiring or LDRES read, crosses a link on its route (R18), or is served at
its home; what it read crosses a link on its way back, or reaches the core, as the data of a window load does. -/
def execHomeRead (req : Nat) (s : State) : Host.Outcome State Fault Refusal :=
  .next (match s.req? req with
    | none => s
    | some r =>
      if !s.arrived r then s.travel r
      else if s.blocked r then s
      else match r.kind with
        | .fill key priv =>
          if !s.tracked r.core key priv then s.dropReq req
          else
            let (s, data) := s.homeRead ((s.fillOwner r.core key).map fun q => (r.ctx, q)) (key.place 0) 64
            let s := if priv then s.markPresence (dieOf r.core) key else s
            s.turnBack req (.filled key priv data)
        | .read who idx lane p n resv => ((s.readAt r who idx lane p n resv).getD s).hostPoll
        | .filled key priv data => ((if s.tracked r.core key priv then s.l1Fill r.core key priv data else s).dropReq req).hostPoll
        | .data who idx lane v => ((s.laneValue who idx lane v).dropReq req).hostPoll
        | _ => s)

/-- A copy of a sector in the writing core's own L1 takes the bytes of a write-through (R336). -/
def State.ownCopy (s : State) (core : Nat) (key : SKey) (mask : BitVec 64) (data : List (BitVec 8)) : State :=
  match (s.core core).l1? key with
  | none => s
  | some x =>
    let byte (i : Nat) : BitVec 8 := if mask.getLsbD i && !x.dirty.getLsbD i then data.getD i 0 else x.data.getD i 0
    s.modCore core fun k => k.l1Put { x with data := (List.range 64).map byte }

/-- Copies of the die that entered their L1s while a store was on its way to the home: an .ord store drops them (R87), a
write-through drops those of other cores and keeps its own current (R336). -/
def State.beforeWrite (s : State) (r : Req) (key : SKey) (mask : BitVec 64) (data : List (BitVec 8)) (src : Option (Who × Nat)) : State :=
  if src.isNone then s
  else if r.ord.isSome then s.dieFlush (dieOf r.core) key
  else (s.othersFlush r.core key).ownCopy r.core key mask data

/-- HOME_WRITE (R18, R91, R101): a write crosses a stitch link on its route, or its home performs it, once every marked die has
acknowledged; a write to host memory is posted. -/
def execHomeWrite (req : Nat) (s : State) : Host.Outcome State Fault Refusal :=
  .next (match s.req? req with
    | none => s
    | some r =>
      match r.kind with
      | .write key mask data src =>
        if !s.arrived r then s.travel r
        else if s.blocked r then s
        else match s.askMarked r key with
          | some s => s
          | none =>
            (((s.dropReq req).beforeWrite r key mask data src).homeWrite r.core key mask data).hostPoll
      | _ => s)

/-- A flushing read is done: writes posted before it was sent are performed. Writes posted since are followed by another while a
handover or an invalidation awaits it (R81, R103, R104). -/
def State.flushed (s : State) (core vf : Nat) : State :=
  s.modCore core fun k =>
    let k := { k with flushing := k.flushing.filter (· != vf) }
    if s.flushAgain vf then k.askFlush vf else k

/-- FLUSHING_READ_DONE (R101): posted writes of a core to a function's host memory are performed. -/
def execFlushingReadDone (core vf : Nat) (s : State) : Host.Outcome State Fault Refusal :=
  .next (if (s.core core).flushing.contains vf then (s.flushed core vf).hostPoll else s)

/-! ## Window and mailbox (R46 to R52) -/

/-- An earlier access of the same thread to the same 16 bytes of a port is still on its way (R114, R139). -/
def State.portBlocked (s : State) (r : Req) (p : Place) (n : Nat) : Bool :=
  let unit (a m : Nat) (b k : Nat) : Bool := a / 16 ≤ (b + k - 1) / 16 && b / 16 ≤ (a + m - 1) / 16
  let meets (q : Place) (m : Nat) : Bool := match p, q with
    | .sp c a, .sp d b | .acc c a, .acc d b => c == d && unit a n b m
    | _, _ => false
  let mine (q : Req) : Bool := match q.kind.thread, r.kind.thread with | some a, some b => a.same b | _, _ => false
  s.reqs.any fun q => q.id < r.id && mine q && (match q.kind with
    | .wload _ _ _ p' m _ => meets p' m
    | .wstore _ _ _ p' bs => meets p' bs.length
    | .atomic _ _ _ p' _ m _ _ _ => meets p' m
    | _ => false)

/-- A fault that an access meets at its target: an instance records it, of the lanes that it has not dropped (R212); a control
thread halts. -/
def State.faultAt (s : State) (who : Who) (f : FaultInfo) : State :=
  match who with
  | .warp c sl t =>
    let keep := ((s.instOf who).map (·.mask)).getD 0
    if f.mask &&& keep = 0 then s else s.recordExit c sl t (f.keepLanes keep)
  | .ctl c x => s.haltCtl c x f

/-- The address a lane of a pending access presented. -/
def State.laneVa (s : State) (who : Who) (idx lane : Nat) : DWord :=
  (((s.pend? who idx).bind fun q => q.lanes.find? fun l => l.acc.lane == lane).map (·.acc.va)).getD 0

/-- WINDOW_ACCESS_ARRIVE (R18, R48): a load or store of another core's scratchpad or accumulators crosses a stitch link on its
route, or is checked and performed where it arrives. -/
def execWindowAccessArrive (req : Nat) (s : State) : Host.Outcome State Fault Refusal :=
  .next (match s.req? req with
    | none => s
    | some r =>
      match r.kind with
      | .wload who idx lane p n resv =>
        if !s.arrived r then s.travel r
        else if s.portBlocked r p n then s
        else match s.windowBad r.ctx p n with
          | some code =>
            ((s.laneValue who idx lane 0).faultAt who { code, mask := (1 : Mask) <<< lane, raddr := s.laneVa who idx lane }).dropReq req
          | none =>
            match (if resv then s.reserve who lane p else some s) with
            | none => s
            | some s =>
              let (s, bs) := s.homeRead (some (r.ctx, who.requester)) p n
              s.turnBack req (.data who idx lane (toVal bs))
      | .wstore who _ lane p bs =>
        if !s.arrived r then s.travel r
        else if s.portBlocked r p bs.length then s
        else match s.windowBad r.ctx p bs.length with
          | some code => (s.lateFault r.ctx who code lane).dropReq req
          | none => (s.homePoke none p bs).dropReq req
      | _ => s)

/-- The checks of R49 hold where a mailbox store arrives: the slot holds a warp of the context that declares the register. -/
def State.mboxOk (s : State) (x core slot reg : Nat) : Bool :=
  (s.warp? core slot).any fun w => w.ctx == x && ((s.core core).team? w.team).any (fun t => t.lrec.mbox.getLsbD reg) && decide (reg < w.v.length)

/-- MAILBOX_ARRIVE (R18, R49, R50): a mailbox store crosses a stitch link on its route, or is checked and enters the target core's
buffer once an entry is free; stores of one thread to one register enter in order. -/
def execMailboxArrive (req : Nat) (s : State) : Host.Outcome State Fault Refusal :=
  .next (match s.req? req with
    | none => s
    | some r =>
      match r.kind with
      | .mail (.mbox core slot reg lane) vals who rel =>
        let before := s.reqs.any fun q => q.id < req && (match q.kind with
          | .mail (.mbox c sl g _) _ y _ => c == core && sl == slot && g == reg && y.same who
          | _ => false)
        if !s.arrived r then s.travel r
        else if before then s
        else if !s.mboxOk r.ctx core slot reg then (s.lateFault r.ctx who .windowPerm lane).dropReq req
        else match s.mailArrive core slot reg lane vals none rel with
          | none => s
          | some s => s.dropReq req
      | _ => s)

end Sys2Proof.Machine
end

