-- ==== Sys2Proof/Machine/AtomicPorts.lean ====
section
/-! DEFINITION. Atomics at their ports (chapter 6): the new value of each operation, an atomic or STCOND performed at its
port, its reply, and the pinning of reservations. -/

namespace Sys2Proof.Machine

/-! ## Operations (Table 6.2, R144) -/

/-- Round to nearest, ties to even. -/
def rneMode : RMode := ⟨.rne, 0, 0⟩

/-- A floating-point sum of atomics: subnormals kept, rounded once. -/
def atomAdd (f : Fmt) (a b : Nat) : Nat := fAdd f rneMode false (fval f a) (fval f b)

/-- Two sums of 16-bit halves. -/
def atomAdd2 (f : Fmt) (a b : Nat) : Nat := atomAdd f (a % 65536) (b % 65536) + 65536 * atomAdd f (a / 65536 % 65536) (b / 65536 % 65536)

/-- THE NEW VALUE of an operation of `n` bytes; none when it writes nothing (R143, R144). -/
def atomNew (op : AtomOp) (n old v cmp : Nat) : Option Nat :=
  let w := 8 * n
  match op with
  | .add => some ((old + v) % 2 ^ w)
  | .minS => some (if signedOf v w < signedOf old w then v else old)
  | .minN => some (min old v)
  | .maxS => some (if signedOf old w < signedOf v w then v else old)
  | .maxN => some (max old v)
  | .and => some (old &&& v)
  | .or => some (old ||| v)
  | .xor => some (old ^^^ v)
  | .exch => some v
  | .cas => if old = cmp then some v else none
  | .fadd => some (atomAdd .fp32 old v)
  | .hadd2 => some (atomAdd2 .fp16 old v)
  | .badd2 => some (atomAdd2 .bf16 old v)
  | .fmin => some (fMinMax .fp32 false true old v)
  | .fmax => some (fMinMax .fp32 true true old v)

/-! ## At the port -/

/-- A RESERVATION of the lane stands at the port on the place's sector (R150). -/
def State.reserved (s : State) (who : Who) (lane : Nat) (p : Place) : Bool :=
  (s.monitor p).any fun r => r.ofLane who lane && r.sec == p.monSector

/-- The die a write through a port comes from: none for a scratchpad. -/
def writerDie (core : Nat) (p : Place) : Option Nat :=
  match p with
  | .dev _ | .host _ _ _ => some (dieOf core)
  | _ => none

/-- Before an atomic acts on a home, no copy of its sectors is left that could be written back into the middle of it: the writer's
die has written back, and so have the dies marked in the presence filter (R87, R91, R140, R144). -/
def State.settleSector (s : State) (writer : Option Nat) (p : Place) (n : Nat) : State :=
  let own (s : State) (k : SKey) : State := match writer with | some d => s.dieFlush d k | none => s
  match p with
  | .dev _ => (p.sectors n).foldl (fun s k => (own s k).invalidateOthers writer k) s
  | .host _ _ true => own s p.sector
  | _ => s

/-- PERFORM one lane at its port, indivisibly (R139, R140, R144, R150): the state and the value returned. A frame being
zeroed drops and counts the access; the value an atomic dropped there returns is open (log 23). -/
def State.performAt (s : State) (r : Req) (who : Who) (lane : Nat) (p : Place) (op : Option AtomOp) (n : Nat) (v cmp : BitVec 128) :
    State × BitVec 128 :=
  let s := s.settleSector (writerDie r.core p) p n
  let gone := match p with | .dev d => s.zeroing (frameOf d) | _ => false
  match op with
  | none =>
    let ok := s.reserved who lane p && !gone
    let s := s.endReserve who lane
    if ok then (s.homePoke (writerDie r.core p) p (valBytes n v.toNat), 0)
    else ((match p with | .dev d => if gone then s.countScrub (frameOf d) else s | _ => s), 1)
  | some op =>
    let (s, bs) := s.homeRead (some (r.ctx, who.requester)) p n
    if gone then (s.nextFree, BitVec.ofNat 128 (Config.freeChoice s.free % 2 ^ (8 * n)))
    else
      let old := bytesVal bs
      let s := match atomNew op n old (v.toNat % 2 ^ (8 * n)) (cmp.toNat % 2 ^ (8 * n)) with
        | none => s
        | some x => s.homePoke (writerDie r.core p) p (valBytes n x)
      (s, BitVec.ofNat 128 old)

/-- The host answers an AtomicOp with UR or CA: it counts as not performed (R146). Whether it does is the host's to say. -/
def State.hostRefusesAtomic (s : State) (p : Place) : Bool :=
  match p with
  | .host _ _ _ => Config.freeChoice s.free % 2 == 1
  | _ => false

/-- The fault of a refused AtomicOp: PAGE_PERM to the host driver with the lane's host address (R146). -/
def refusedAtomic (p : Place) (lane : Nat) (va : DWord) : FaultInfo :=
  { code := .pagePerm, recv := .host, mask := (1 : Mask) <<< lane, raddr := va, acc := .atomic
    oaddr := match p with | .host _ a _ => BitVec.ofNat 64 a | _ => 0 }

/-- An atomic the host refused: a value-returning one makes its block fault; a RED, whose block has committed, is reported
for its request alone. -/
def State.refuseAtomic (s : State) (r : Req) (who : Who) (idx lane : Nat) (p : Place) (reply : Bool) : State :=
  let s := s.dropReq r.id
  if reply then
    (s.setGot who idx lane 0).faultAt who (refusedAtomic p lane (s.laneVa who idx lane))
  else s.deliver r.ctx (.write r.id) true (refusedAtomic p lane 0) 0 0

/-- An atomic may be performed now: nothing earlier to its place is on its way. -/
def State.atomicBlocked (s : State) (r : Req) (p : Place) (n : Nat) : Bool :=
  match p with
  | .dev _ | .host _ _ _ => s.blocked r
  | _ => s.portBlocked r p n

/-- The target core's check of an atomic that arrives at its scratchpad port (R48, R141). -/
def State.atomicBad (s : State) (x : Nat) (p : Place) (n : Nat) : Option Code :=
  match p with
  | .sp _ _ => s.windowBad x p n
  | _ => none

/-- An atomic that fails the check of its port has no effect: its block faults, or, for a RED, whose block has committed, the fault
is reported (log 45). -/
def State.atomicTurned (s : State) (r : Req) (who : Who) (idx lane : Nat) (reply : Bool) (code : Code) : State :=
  let s := s.dropReq r.id
  if reply then (s.setGot who idx lane 0).faultAt who { code, mask := (1 : Mask) <<< lane, raddr := s.laneVa who idx lane, acc := .atomic }
  else s.lateFault r.ctx who code lane

/-- ATOMIC_AT_PORT (R18, R48, R138 to R146, R150): one lane of an atomic, RED or STCOND crosses a stitch link on its route, or is
performed at its port. A home first hears from every die marked for the sector (R91). A value returned sets out for its core. -/
def execAtomicAtPort (req : Nat) (s : State) : Host.Outcome State Fault Refusal :=
  .next (match s.req? req with
    | none => s
    | some r =>
      match r.kind with
      | .atomic who idx lane p op n v cmp reply =>
        if !s.arrived r then s.travel r
        else if s.atomicBlocked r p n then s
        else match s.atomicBad r.ctx p n with
        | some code => s.atomicTurned r who idx lane reply code
        | none =>
        if s.hostRefusesAtomic p then (s.refuseAtomic r who idx lane p reply).nextFree
        else match (match p with | .dev _ => s.askMarked r p.sector | _ => none) with
          | some s => s
          | none =>
            let s := match p with | .host _ _ _ => s.nextFree | _ => s
            let (s, old) := s.performAt r who lane p op n v cmp
            (if reply then s.turnBack req (.reply who idx lane old)
             else s.dropReq req).hostPoll
      | _ => s)

/-- ATOMIC_REPLY (R18, R140, R149): the returned value crosses a stitch link on its way back, or reaches the core, is logged for replay, and the instruction's result is sent
when every lane has returned. -/
def execAtomicReply (req : Nat) (s : State) : Host.Outcome State Fault Refusal :=
  .next (match s.req? req with
    | none => s
    | some r =>
      match r.kind with
      | .reply who idx lane v => if !s.arrived r then s.travel r else (((s.setGot who idx lane v).logValue who idx lane v).dropReq req).completePend who idx
      | _ => s)

/-- RESERVATION_PIN_EXPIRY (R152): entries of a port's monitor whose LDRES is 2,048 cycles of the port's clock old, 1.2 GHz at a Firn
die and 1.5 GHz at a scratchpad, may be evicted. -/
def execReservationPinExpiry (port : Nat) (onFirn : Bool) (s : State) : Host.Outcome State Fault Refusal :=
  let expire (l : List Reserve) : List Reserve := mapIf (fun r => decide (2048 * (if onFirn then Config.ticksPerFirnCycle else Config.ticksPerCycle) ≤ s.time - r.since)) (fun r => { r with pinned := false }) l
  .next (if onFirn then s.modFirn port fun x => { x with monitor := expire x.monitor }
    else s.modCore port fun k => { k with monitor := expire k.monitor })

end Sys2Proof.Machine
end

