-- ==== Sys2Proof/Machine/EngineIssue.lean ====
section
/-! DEFINITION. Issuing an engine operation (R130, R248, R353 to R355, R357, R369): the release of its scope, the room in
its queue, the binding of its flag and token register, and its preparation: the read of its parameter block and its
checks. -/

namespace Sys2Proof.Machine

/-- The form takes a parameter block (R355). -/
def EngKind.usesBlock : EngKind → Bool
  | .copy | .copy2d | .tcopy | .gath | .scat | .fill _ | .stream | .istream | .handoff _ | .mxload | .coll _ => true
  | .mxfeeds | .mxmul | .mxcfg _ | .mxrelease => false

/-- The queue of 64 operations of a core holds it (R354). -/
def EngKind.copyQueue : EngKind → Bool
  | .copy | .copy2d | .tcopy | .gath | .scat | .fill _ | .handoff _ | .coll _ => true
  | _ => false

/-- The matrix queue holds it (R369). -/
def EngKind.matrix : EngKind → Bool
  | .mxload | .mxmul | .mxcfg _ | .mxrelease => true
  | _ => false

/-- MXCFG is no engine operation of R130: it binds no flag and its issue is no release. -/
def EngKind.flagged : EngKind → Bool
  | .mxcfg _ | .mxrelease => false
  | _ => true

/-- The parameter block, read once (R355). -/
def engParams (core : Nat) (o : EngOp) : EngM EngOp := do
  if !o.params.isEmpty then pure o
  else
    let params ← if o.req.kind.usesBlock then engBlock core o o.req.a.toNat else pure [o.req.a]
    engMod fun s => s.modOp core o.id fun q => { q with params }
    pure { o with params }

/-- PREPARE an operation: its parameter block is read once and its checks are made. A status code ends it. -/
def prepareOp (core : Nat) (o : EngOp) : EngM (EngOp × Option Nat) := do
  let plain (m : EngOp → EngM (Option Nat)) (o : EngOp) : EngM (EngOp × Option Nat) := do
    let c ← m o
    pure (o, c)
  let held := (← get).holdsPath core o.ctx
  if (o.req.kind == .mxload || o.req.kind == .mxmul) && !held then engFault .mxState 0
  let o ← engParams core o
  match o.req.kind with
  | .copy | .copy2d => plain (prepCopy core) o
  | .fill sz => plain (prepFill core · sz.bytes) o
  | .tcopy => prepTcopy core o
  | .gath | .scat => prepGather core o
  | .stream => prepStream core o
  | .istream => prepIstream core o
  | .handoff _ => pure (o, prepHandoff o)
  | .mxload => plain (prepMxload core) o
  | .mxmul => prepMxmul core o
  | .mxfeeds => prepMxfeeds core o
  | .coll var => prepColl core o var
  | .mxcfg _ | .mxrelease => pure (o, none)

/-- The units of an operation's transfer, where it begins with all of them: a stream begins with each buffer, a COLL when it starts. -/
def EngOp.units (o : EngOp) : Nat :=
  match o.req.kind with
  | .copy | .copy2d => o.rows.n * o.rows.len / o.unitBytes
  | .fill _ => o.f 2 39 0 / o.unitBytes
  | .tcopy => if o.tdst.d.scl then o.tdst.d.blocks else o.tsrc.d.count
  | .gath | .scat => o.f 4 31 0
  | .istream => o.f 2 63 32
  | .handoff _ => o.f 1 31 0
  | .mxload => o.mlWeights + o.mlScales
  | .stream | .mxfeeds | .mxmul | .mxcfg _ | .mxrelease | .coll _ => 0

/-- What preparing an operation leaves of it: queued, ended with its status, halted, or still to be prepared. -/
def State.settlePrep (s : State) (core id : Nat) (r : Except EngStop (EngOp × Option Nat)) : State :=
  match r with
  | .ok (o, none) => s.modOp core id fun _ => { o with st := .queued, ready := true, work := if o.units = 0 then [] else [{ first := 0, n := o.units }] }
  | .ok (o, some code) =>
    -- a malformed MXMUL ends at its turn in the queue
    if o.req.kind == .mxmul then s.modOp core id fun _ => { o with st := .queued, ready := true, status := code }
    else s.modOp core id fun _ => { o with st := .finished, ready := true, status := code }
  | .error (.fault f) => s.haltOp core id f
  | .error .wait | .error .busy => s

/-- The queue of an operation has room (R354). -/
def State.queueRoom (s : State) (core : Nat) (k : EngKind) : Bool :=
  if k.copyQueue then decide (((s.core core).ops.filter fun o => o.req.kind.copyQueue).length < 64)
  else if k.matrix then decide ((s.core core).mx.queue.length < 32)
  else true

/-- The team an operation belongs to at its issue: the warp's own, or a control thread's. -/
def State.opTeam (s : State) (who : Who) : Option Nat := (s.teamOf who).map (·.id)

/-- The same queue of R354 holds two kinds. -/
def EngKind.sameQueue (a b : EngKind) : Bool := a.copyQueue == b.copyQueue && a.matrix == b.matrix

/-- The lowest entry of a queue that no operation of a list holds. -/
def freeEntry (l : List EngOp) (k : EngKind) : Nat :=
  let used := (l.filter fun o => o.req.kind.sameQueue k).map (·.entry)
  ((List.range (used.length + 1)).find? fun n => !used.contains n).getD 0

/-- Enter a new operation of a thread: identifier, flag and token register bound. -/
def State.enterOp (s : State) (who : Who) (flag : Option Nat) (r : EngReq) : State × EngOp :=
  let core := who.core
  let id := (s.core core).nextOp
  let o : EngOp := { id, ctx := s.ctxOf who, issuer := some who, req := r, flag, team := s.opTeam who, issuing := true
                     entry := freeEntry (s.core core).ops r.kind
                     slot := match who with | .warp _ sl _ => sl | .ctl _ _ => 0 }
  let s := s.modCore core fun k => { k with ops := k.ops ++ [o], nextOp := id + 1
                                            mx := if r.kind.matrix then { k.mx with queue := k.mx.queue ++ [id] } else k.mx }
  (if r.kind.flagged then s.bindOp who flag r.tok r.scope else s, o)

/-- A team counts an operation it may not retire before. -/
def State.holdFor (s : State) (core id : Nat) (team : Option Nat) : State :=
  match team with
  | some t => s.modTeam core t fun t => { t with ops := if t.ops.contains id then t.ops else id :: t.ops }
  | none => s

/-- An operation of a warp, and one on a team's behalf, hold back the retirement of the warp's team and of the team served (R358). -/
def State.holdTeam (s : State) (who : Who) (id : Nat) : State :=
  match (s.core who.core).op? id with
  | none => s
  | some o =>
    let served := match o.req.kind with | .stream | .istream | .mxfeeds | .mxmul => o.team | _ => none
    (if who.isCtl then s else s.holdFor who.core id (s.opTeam who)).holdFor who.core id served

/-- A matrix operation whose context does not hold the path is no part of the queue while it is halted. -/
def State.leaveQueue (s : State) (core id : Nat) (ctx : Nat) : State :=
  if s.holdsPath core ctx then s
  else s.modCore core fun k => { k with mx := { k.mx with queue := k.mx.queue.filter (· != id), halted := k.mx.halted && k.mx.queue.head? != some id } }

/-- The operation a thread is issuing. -/
def State.issuingOp (s : State) (who : Who) : Option EngOp := (s.core who.core).ops.find? fun o => o.issuing && o.issuer.any who.same

/-- Accesses of a thread are on their way: its next engine operation follows them (R130). -/
def State.threadOut (s : State) (who : Who) : Bool := s.reqs.any fun r => r.kind.thread.any who.same

/-- The issue of an operation goes on: its block and descriptors are read and its checks made; a fault halts it, and it is issued
all the same (R355). -/
def State.goOnIssue (s : State) (who : Who) (o : EngOp) : RelSt :=
  let core := who.core
  let issued (s : State) : State := (s.holdTeam who o.id).modOp core o.id fun q => { q with issuing := false }
  let leave (s : State) : State := if o.req.kind == .mxload || o.req.kind == .mxmul then s.leaveQueue core o.id o.ctx else s
  if o.st == .halted then .done (leave (issued s))
  else
    match (prepareOp core o).go s with
    | (.error .wait, s) | (.error .busy, s) => .wait s
    | (res, s) => .done (leave (issued (s.settlePrep core o.id res)))

/-- ISSUE an operation (R353): it waits for the thread's earlier accesses (R130), for the release of its scope, for room in its queue,
for its flag's count to allow it, for its parameter block and descriptors (R184), and for a generator. -/
def State.issueEngine (s : State) (who : Who) (r : EngReq) : RelSt :=
  let core := who.core
  match s.issuingOp who with
  | some o => s.goOnIssue who o
  | none =>
    let flag := if r.kind.flagged then s.flagFor who r.fsel else none
    if s.flagFull who flag 1 || !s.queueRoom core r.kind || (r.kind.flagged && s.threadOut who) then .wait s
    else
      match (if r.kind.flagged then s.releaseActs core (s.vfOf (s.ctxOf who)) r.scope 0b111 else .done s) with
      | .wait s => .wait s
      | .done s => let (s, o) := s.enterOp who flag r
                   s.goOnIssue who o

/-- An engine form with a parameter block (R353, R355): every lane's address is checked at fire; the operands are those of
the lowest lane. -/
def blockForm (kind : EngKind) (e : EngForm) (s : State) (first : Issue → Checked := fun _ => .ok s []) :
    Host.Outcome State Fault Refusal :=
  issuing s fun c =>
    let mis := lanesWhere c.lanes fun l => (c.w64 .a .ax l).toNat % 64 != 0
    if mis != 0 then s.faultIssue c { code := .misaligned, mask := mis, raddr := c.w64 .a .ax (lowestLane mis) }
    else match first c with
      | .wait s => s
      | .fault f => s.faultIssue c f
      | .ok _ _ =>
        let r : EngReq := { kind, a := c.lowD .a .ax, b := 0, c := 0, scope := e.scope, tok := e.tok.map (·.toNat), fsel := e.wd.fsel }
        match c.who with
        | .warp _ _ _ => (s.addEff c (.engine c.idx r)).finish c []
        | .ctl _ _ =>
          match s.issueEngine c.who r with
          | .wait s => s
          | .done s => s.finish c []

/-- COPY (R359). -/
def execCopy (e : EngForm) (s : State) := blockForm .copy e s
/-- COPY2D (R360). -/
def execCopy2d (e : EngForm) (s : State) := blockForm .copy2d e s
/-- TCOPY (R362). -/
def execTcopy (e : EngForm) (s : State) := blockForm .tcopy e s
/-- GATH (R363). -/
def execGath (e : EngForm) (s : State) := blockForm .gath e s
/-- SCAT (R363). -/
def execScat (e : EngForm) (s : State) := blockForm .scat e s
/-- FILL (R361). -/
def execFill (sz : Sz) (e : EngForm) (s : State) := blockForm (.fill sz) e s
/-- STREAM (R364). -/
def execStream (e : EngForm) (s : State) := blockForm .stream e s
/-- ISTREAM (R367). -/
def execIstream (e : EngForm) (s : State) := blockForm .istream e s
/-- HANDOFF to the host (R368). -/
def execHandoffTohost (e : EngForm) (s : State) := blockForm (.handoff true) e s
/-- HANDOFF to the device (R368). -/
def execHandoffTodevice (e : EngForm) (s : State) := blockForm (.handoff false) e s
/-- MXLOAD (R371). -/
def execMxload (e : EngForm) (s : State) := blockForm .mxload e s

/-! ## STRMCTL (R366) -/

/-- The actions of STRMCTL. -/
inductive StrmAct where
  | start | pause | resume | cancel
  deriving DecidableEq, Repr

/-- Table 16.8: the state after an action, none where the state forbids it; `some none` ends the stream. -/
def strmNext (st : StreamSt) (a : StrmAct) : Option (Option StreamSt) :=
  match st, a with
  | .loaded, .start => some (some .running)
  | .running, .pause => some (some .paused)
  | .paused, .resume => some (some .running)
  | _, .cancel => some none
  | _, _ => none

/-- CANCEL a stream: its registrations are withdrawn and its generator is free; what it has read and not written is dropped, and it
completes CANCELLED when its mailbox stores have been performed (R357, R366). -/
def State.cancelStream (s : State) (core : Nat) (o : EngOp) : State :=
  if !s.mailOut core o.id then s.finishOp core o.id 5
  else
    let s := match o.team with
      | some t => (s.opParties core o).foldl (fun (s : State) p => s.leaveAll core t p) s
      | none => s
    let s : State := { s with halts := s.halts.filter fun h => h.ctx != o.ctx || !((s.opParties core o).any fun p => match p with | .stream g => h.req == Requester.stream core g | _ => false) }
    s.modCore core fun k =>
      { k with ops := mapIf (fun q => q.id == o.id) (fun q => { q with st := .finished, status := 5, work := [], outs := [] }) k.ops
               gens := k.gens.map fun (g : Option Stream) => if g.any (fun x => x.op == o.id) then none else g }

/-- STRMCTL (R366): the generator's stream is one of the context's STREAMs. -/
def strmctl (a : StrmAct) (s : State) : Host.Outcome State Fault Refusal :=
  issuing s fun c =>
    let x := c.lowW .a
    let core := c.who.core
    let g := bitsOf x.toNat 2 0
    if bitsOf x.toNat 31 3 != 0 then s.finish c (c.status 3)
    else
      let held := ((s.core core).gens.getD g none).bind fun (st : Stream) =>
        ((s.core core).op? st.op).bind fun o => if o.ctx == s.ctxOf c.who && o.req.kind == .stream then some (st, o) else none
      match held with
      | none => s.finish c (c.status 1)
      | some (st, o) =>
        match strmNext st.st a with
        | none => s.finish c (c.status 2)
        | some none => (s.cancelStream core o).finish c (c.status 0)
        | some (some n) => (s.putGen core g (some { st with st := n })).finish c (c.status 0)

def execStrmctlStart (_w : Wd) (s : State) := strmctl .start s
def execStrmctlPause (_w : Wd) (s : State) := strmctl .pause s
def execStrmctlResume (_w : Wd) (s : State) := strmctl .resume s
def execStrmctlCancel (_w : Wd) (s : State) := strmctl .cancel s

end Sys2Proof.Machine
end

