-- ==== Sys2Proof/Machine/Parameters.lean ====
section
/-! DEFINITION. Reading a parameter block at fire, as a load of the lowest lane (R330, R378, R386): pieces through
the L1, with what buffered stores of the lane forward. -/

namespace Sys2Proof.Machine

/-- What a read at fire gives. -/
inductive Fetch (α : Type) where
  | ok (s : State) (v : α)
  | wait (s : State)
  | fault (f : FaultInfo)

/-- The bytes a core's load of a place returns. -/
def State.coreRead (s : State) (core : Nat) (by_ : Option (Nat × Requester)) (p : Place) (n : Nat) : State × List (BitVec 8) :=
  let cached := if throughL1 .rnd none p then (s.core core).l1Read p.sector p.sectorByte n else none
  match cached with
  | some bs => ((s.modCore core fun k => k.l1Use p.sector).sense by_ (.l1 core p.sector), bs)
  | none => s.engGet core by_ p n

/-- Read one piece of `w` bytes, aligned to `w`, for the lowest lane. -/
def State.readPiece (s : State) (c : Issue) (w va : Nat) : Fetch (List (BitVec 8)) :=
  let core := c.who.core
  let x := s.ctxOf c.who
  let a : DWord := BitVec.ofNat 64 va
  match s.lookup core x a .read with
  | .fault f => .fault { f with mask := c.mask }
  | .miss => .wait (s.missAt core x a .read (.instr c.who c.idx (laneAddrs c.mask fun _ => a)))
  | .hit p =>
    let (s, bs) := (s.tlbPull core x a .read).coreRead core (some (x, c.who.requester)) p w
    let (fm, fv) := s.forward c { lane := c.low, va := a, place := p, bytes := w }
    .ok s (ofVal w (mergeForward w fm fv (toVal bs)))

/-- Read `n` pieces. -/
def State.readPieces (s : State) (c : Issue) (w : Nat) : Nat → Nat → Fetch (List (BitVec 8))
  | 0, _ => .ok s []
  | n + 1, va =>
    match s.readPiece c w va with
    | .ok s bs =>
      match s.readPieces c w n (va + w) with
      | .ok s t => .ok s (bs ++ t)
      | .wait s => .wait s
      | .fault f => .fault f
    | .wait s => .wait s
    | .fault f => .fault f

/-- READ A PARAMETER BLOCK of 64 bytes at fire: its alignment, then its words. -/
def State.readBlock (s : State) (c : Issue) (va : DWord) : Fetch (List DWord) :=
  if s.held c false false || s.midCommit c.who.core then .wait s
  else if va.toNat % 64 != 0 then .fault { code := .misaligned, mask := c.mask, raddr := va }
  else match s.readPieces c 16 4 va.toNat with
    | .ok s bs => .ok s (dwords 8 bs)
    | .wait s => .wait s
    | .fault f => .fault f

/-- A field of a parameter block. -/
def blkF (ws : List DWord) (n hi lo : Nat) : Nat := bitsOf (ws.getD n 0).toNat hi lo
def blkW (ws : List DWord) (n : Nat) : Nat := (ws.getD n 0).toNat
/-- Words from `n` to 7 are zero. -/
def blkZero (ws : List DWord) (n : Nat) : Bool := (List.range 8).all fun k => k < n || blkW ws k == 0

end Sys2Proof.Machine
end

