-- ==== Sys2Proof/Machine/Collectives.lean ====
section
/-! DEFINITION. The communicator and collective forms (R378 to R381). -/

namespace Sys2Proof.Machine

/-! ## COMMNEW -/

/-- Pairs of the words of a member table. -/
def memberPairs : Nat → List DWord → List (DWord × DWord)
  | 0, _ => []
  | n + 1, ws => (ws.getD 0 0, ws.getD 1 0) :: memberPairs n (ws.drop 2)

/-- The parameter block breaks the rules of Table 16.15. -/
def commBad (ws : List DWord) : Bool :=
  !blkZero ws 3 || blkW ws 2 % 16 != 0 || blkF ws 1 31 0 < 2 || 4096 < blkF ws 1 31 0 || blkF ws 1 31 0 ≤ blkF ws 1 63 32

/-- The member table breaks them: a reserved bit, or a context listed twice. -/
def membersBad (l : List (DWord × DWord)) : Bool :=
  (l.any fun m => bitsOf m.1.toNat 63 48 != 0 || bitsOf m.2.toNat 63 32 != 0) || !l.Nodup

/-- The handle COMMNEW reserves: the lowest that is FREE. -/
def Ctx.freeHandle (x : Ctx) : Option Nat := x.comms.findIdx? fun h => h.st == .free

/-- COMMNEW (R378). -/
def execCommnew (_w : Wd) (s : State) : Host.Outcome State Fault Refusal :=
  issuing s fun c =>
    let x := s.ctxOf c.who
    match s.readBlock c (c.lowD .a .ax) with
    | .wait s => s
    | .fault f => s.faultIssue c f
    | .ok s ws =>
      match (s.ctx? x).bind Ctx.freeHandle with
      | none => s.finish c (c.status 0x100)
      | some h =>
        if commBad ws then s.finish c (c.status 0x101)
        else
          let n := blkF ws 1 31 0
          match s.readPieces c 16 n (blkW ws 2) with
          | .wait s => s
          | .fault f => s.faultIssue c f
          | .ok s bs =>
            let members := memberPairs n (dwords (2 * n) bs)
            if membersBad members then s.finish c (c.status 0x101)
            else
              match c.who with
              | .warp _ _ _ =>
                ((s.modHandle x h fun q => { q with st := .reserved }).addEff c
                  (.commnew c.idx h (blkW ws 0) n (blkF ws 1 63 32) members)).finish c (c.status h)
              | .ctl _ _ => (s.joinComm x h (blkW ws 0) n (blkF ws 1 63 32) members).finish c (c.status h)

/-! ## COMMFREE and COMMSTAT (R379) -/

/-- The handle of a context; one above 15, or one a COMMNEW has only reserved, reads as FREE. -/
def State.handle (s : State) (x h : Nat) : Handle :=
  let q := ((s.ctx? x).map fun c => c.comms.getD h {}).getD {}
  if 16 ≤ h || q.st == .reserved then {} else q

/-- COMMFREE: it sends its status at fire; the handle is freed at commit, once no COLL on it is outstanding. -/
def execCommfree (_w : Wd) (s : State) : Host.Outcome State Fault Refusal :=
  issuing s fun c =>
    let x := s.ctxOf c.who
    let h := (c.lowW .a).toNat
    if (s.handle x h).st == .free then s.finish c (c.status 1)
    else
      match c.who with
      | .warp _ _ _ => (s.addEff c (.commfree c.idx h)).finish c (c.status 0)
      | .ctl _ _ => if (s.handle x h).open_ = 0 then (s.freeHandle x h).finish c (c.status 0) else s

/-- The COMMSTAT word. -/
def Handle.stat (h : Handle) : Nat :=
  (match h.st with | .free | .reserved => 0 | .forming => 1 | .ready => 2 | .dead => 3) + fieldAt h.open_ 16 16

/-- COMMSTAT. -/
def execCommstat (_w : Wd) (s : State) : Host.Outcome State Fault Refusal :=
  issuing s fun c => s.finish c (c.status (s.handle (s.ctxOf c.who) (c.lowW .a).toNat).stat)

/-! ## COLL (R380, R381) -/

/-- COLL on a handle that is FREE or DEAD faults at fire; the handle is read from the block, whose translation may have to wait for the
host; a block whose translation faults halts the operation at its issue. -/
def State.collDead (s : State) (c : Issue) : Checked :=
  let x := s.ctxOf c.who
  match s.translate c.who.core x (c.lowD .a .ax + 16) .read with
  | (s, .ok p) =>
    let h := bitsOf (bytesVal (s.engGet c.who.core (some (s.ctxOf c.who, c.who.requester)) p 8).2) 45 42
    match (s.handle x h).st with
    | .free | .reserved | .dead => .fault { code := .commDead, mask := c.mask }
    | .forming | .ready => .ok s []
  | (s, .error (.host vf page wr)) => .wait (s.askHost vf page wr)
  | (s, .error (.fault _)) => .ok s []

/-- A COLL form. -/
def collForm (var : Nat) (e : EngForm) (s : State) : Host.Outcome State Fault Refusal := blockForm (.coll var) e s s.collDead

def execCollAllreduce (e : EngForm) (s : State) := collForm 0 e s
def execCollReduce (e : EngForm) (s : State) := collForm 1 e s
def execCollBroadcast (e : EngForm) (s : State) := collForm 2 e s
def execCollAllgather (e : EngForm) (s : State) := collForm 3 e s
def execCollReducescatter (e : EngForm) (s : State) := collForm 4 e s
def execCollAlltoall (e : EngForm) (s : State) := collForm 5 e s
def execCollBarrier (e : EngForm) (s : State) := collForm 6 e s

end Sys2Proof.Machine
end

