-- ==== Sys2Proof/Machine/Matrix.lean ====
section
/-! DEFINITION. The matrix forms (R223, R369 to R377): taking and releasing the path, feeding rows, multiplying, zeroing,
draining and status. -/

namespace Sys2Proof.Machine

/-- MX_STATE for an instruction (R369). -/
def mxFault (c : Issue) : FaultInfo := { code := .mxState, mask := c.mask }

/-- A request without a parameter block. -/
def plainReq (kind : EngKind) (a : DWord) (b w : Word) (scope : Scope) (tok : Option (BitVec 6)) (fsel : Bool) : EngReq :=
  { kind, a, b, c := w, scope, tok := tok.map (·.toNat), fsel }

/-- A control thread issues an operation, or waits. -/
def State.issueNow (s : State) (c : Issue) (r : EngReq) : State :=
  match s.issueEngine c.who r with
  | .wait s => s
  | .done s => s.finish c []

/-- An operation is buffered until a warp's block commits, and issued at once in a control thread. -/
def State.issueForm (s : State) (c : Issue) (r : EngReq) : State :=
  match c.who with
  | .warp _ _ _ => (s.addEff c (.engine c.idx r)).finish c []
  | .ctl _ _ => s.issueNow c r

/-- MXCFG of VAR 0 to 2 (R223, R370): it takes the path when nobody holds it, waits while another context does, and enters
the matrix queue. -/
def execMxcfg (arr : MxArr) (_w : Wd) (s : State) : Host.Outcome State Fault Refusal :=
  issuing s fun c =>
    let core := c.who.core
    let x := s.ctxOf c.who
    let mx := (s.core core).mx
    let r := plainReq (.mxcfg arr) 0 0 0 .warp none false
    if mx.holder == some x then s.issueForm c r
    else if mx.holder.isNone && mx.queue.isEmpty then
      (s.modCore core fun k => { k with mx := { k.mx with holder := some x } }).issueForm c r
    else s

/-- MXCFG of the release form (R370): no effect for a context that does not hold the path (R369). -/
def execMxcfgRelease (_w : Wd) (s : State) : Host.Outcome State Fault Refusal :=
  issuing s fun c =>
    if s.holdsPath c.who.core (s.ctxOf c.who) then s.issueForm c (plainReq .mxrelease 0 0 0 .warp none false) else s.finish c []

/-! ## MXFEED (R225, R372) -/

/-- Fields of the format word (Table 16.12). -/
def fwFmt (w : Word) : Nat := bitsOf w.toNat 3 0
def fwEa (w : Word) : BitVec 8 := w.extractLsb' 4 8
def fwSlot (w : Word) : Nat := bitsOf w.toNat 17 12
def fwPart (w : Word) : Bool := w.getLsbD 18

/-- An agreed format word that faults MX_STATE. -/
def fwBad (w : Word) : Bool := bitsOf w.toNat 31 19 != 0 || !aFormat (fwFmt w) || (fwPart w && fwFmt w != 2)

/-- Whether a row slot can take a part. -/
inductive TakeRow where
  | take | wait | refuse
  deriving DecidableEq, Repr

/-- The slot rule of R372; parts reserved and not yet written count as there. -/
def RowSlot.take (q : RowSlot) (fmt : Nat) (ea : BitVec 8) (part : Bool) : TakeRow :=
  let other (p : Bool) (f : Nat) (e : BitVec 8) : TakeRow :=
    if f != fmt || e != ea then .refuse else if p != part && fmt == 2 then .take else .wait
  match q.st with
  | .full => .wait
  | .part0 => if q.hold.isEmpty then other false q.fmt q.ea else .wait
  | .part1 => if q.hold.isEmpty then other true q.fmt q.ea else .wait
  | .empty =>
    match q.hold with
    | [] => .take
    | [(p, f, e)] => if f == 2 && fmt == 2 then other p f e else .wait
    | _ => .wait

/-- The row bytes of a part: the lanes' words, zeros outside the firing mask (R372). -/
def Issue.rowPart (c : Issue) (fmt : Nat) : List (BitVec 8) :=
  (List.range (if fmt = 8 then 16 else 32)).flatMap fun l => valBytes 4 (if c.mask.getLsbD l then (c.w32 .a l).toNat else 0)

/-- MXFEED (R372): the path, the vote, the word, then the slot; the part is reserved at fire and written at commit. -/
def execMxfeed (_w : Wd) (s : State) : Host.Outcome State Fault Refusal :=
  issuing s fun c =>
    let core := c.who.core
    let w := c.lowW .b
    if !s.holdsPath core (s.ctxOf c.who) then s.faultIssue c (mxFault c)
    else if c.lanes.any fun l => c.w32 .b l != w then s.faultIssue c { code := .formatDivergence, mask := c.mask }
    else if fwBad w then s.faultIssue c (mxFault c)
    else
      match ((s.core core).mx.slots.getD (fwSlot w) default).take (fwFmt w) (fwEa w) (fwPart w) with
      | .refuse => s.faultIssue c (mxFault c)
      | .wait => s
      | .take =>
        let s := s.modCore core fun k => { k with mx := { k.mx with slots := listMod k.mx.slots (fwSlot w) fun q =>
          { q with hold := q.hold ++ [(fwPart w, fwFmt w, fwEa w)] } } }
        (s.addEff c (.mxfeed c.idx (fwSlot w) (fwPart w) (fwFmt w) (fwEa w) (c.rowPart (fwFmt w)))).finish c []

/-- A reserved part is written: a slot with one INT8 or INT4 part, or both BF16 parts, is FULL. -/
def RowSlot.write (q : RowSlot) (part : Bool) (fmt : Nat) (ea : BitVec 8) (data : List (BitVec 8)) : RowSlot :=
  let hold := q.hold.erase (part, fmt, ea)
  if fmt != 2 then { q with st := .full, fmt, ea, data, hold }
  else
    let whole := if part then (q.data ++ List.replicate 128 0).take 128 ++ data else data ++ (q.data.drop 128)
    let st := match q.st, part with
      | .part1, false | .part0, true => RowSt.full
      | _, false => .part0
      | _, true => .part1
    { q with st, fmt, ea, data := whole, hold }

/-- A reservation is returned (R372). -/
def RowSlot.giveBack (q : RowSlot) (part : Bool) (fmt : Nat) (ea : BitVec 8) : RowSlot := { q with hold := q.hold.erase (part, fmt, ea) }

/-! ## MXFEEDS and MXMUL -/

/-- MXFEEDS (R373). -/
def execMxfeeds (e : EngForm) (s : State) : Host.Outcome State Fault Refusal :=
  issuing s fun c =>
    if !s.holdsPath c.who.core (s.ctxOf c.who) then s.faultIssue c (mxFault c)
    else s.issueForm c (plainReq .mxfeeds ((c.lowW .a).setWidth 64) (c.lowW .b) (c.lowW .c) e.scope e.tok e.wd.fsel)

/-- MXMUL (R374). -/
def execMxmul (e : EngForm) (s : State) : Host.Outcome State Fault Refusal :=
  issuing s fun c => s.issueForm c (plainReq .mxmul ((c.lowW .a).setWidth 64) (c.lowW .b) 0 e.scope e.tok e.wd.fsel)

/-! ## MXZERO, MXDRAIN and MXSTAT -/

/-- MXZERO (R375): at commit, or at execution in a control thread, once the matrix queue has drained. -/
def execMxzero (_w : Wd) (s : State) : Host.Outcome State Fault Refusal :=
  issuing s fun c =>
    let core := c.who.core
    let a := (c.lowW .a).toNat
    let r0 := bitsOf a 7 0
    let n := bitsOf a 15 8 + 1
    match (s.core core).mx.arr with
    | none => s.faultIssue c (mxFault c)
    | some arr =>
      if !s.holdsPath core (s.ctxOf c.who) || bitsOf a 31 16 != 0 || (arrangement arr).rows < r0 + n then s.faultIssue c (mxFault c)
      else
        match c.who with
        | .warp _ _ _ => (s.addEff c (.mxzero c.idx r0 n)).finish c []
        | .ctl _ _ => if (s.core core).mx.queue.isEmpty then (s.zeroRows core (arrangement arr) r0 n).finish c [] else s

/-- The elements of MXDRAIN in a lane, converted and packed (R376), with a random word `r`. -/
def State.drainWord (s : State) (core : Nat) (o : CvtOp) (a : Arrangement) (pos : Nat) (l r : Nat) : Nat :=
  let k := 32 / o.dst.width
  (List.range k).foldl (fun w j =>
    let i := bitsOf pos 6 0 * a.n + bitsOf pos 17 7 + k * l + j
    let m : RMode := if o.rnd == .sr then (if k = 1 then ⟨.sr, r, 32⟩ else ⟨.sr, bitsOf r (16 * j + 15) (16 * j), 16⟩) else ⟨o.rnd, 0, 0⟩
    w + convert .fp32 o.dst m o.ftz o.sat (s.accOf core i) % 2 ^ o.dst.width * 2 ^ (o.dst.width * j)) 0

/-- The position word of MXDRAIN is legal. -/
def drainOk (o : CvtOp) (a : Arrangement) (pos : Nat) : Bool :=
  let span := 32 * (32 / o.dst.width)
  bitsOf pos 31 18 == 0 && bitsOf pos 17 7 % span == 0 && decide (bitsOf pos 17 7 + span ≤ a.n) && decide (bitsOf pos 6 0 < a.rows)

/-- MXDRAIN (R376), an access to the accumulators that follows the acquires of lower index (R122, R133): its position and its random word are those of the lowest lane that fires (R353, log 42). -/
def execMxdrain (o : CvtOp) (s : State) : Host.Outcome State Fault Refusal :=
  issuing s fun c =>
    let core := c.who.core
    let pos := (c.lowW .a).toNat
    match (s.core core).mx.arr with
    | none => s.faultIssue c (mxFault c)
    | some arr =>
      if !s.holdsPath core (s.ctxOf c.who) || !drainOk o (arrangement arr) pos then s.faultIssue c (mxFault c)
      else if s.held c false false then s
      else
        let at_ := 4 * (bitsOf pos 6 0 * (arrangement arr).n + bitsOf pos 17 7)
        (s.senseWhere (some (s.ctxOf c.who, c.who.requester)) (ErrSite.inAcc core at_ (4 * 32 * (32 / o.dst.width)))).finish c (c.res32 fun l => BitVec.ofNat 32 (s.drainWord core o (arrangement arr) pos l (c.lowW .b).toNat))

/-- MXSTAT (R377). -/
def execMxstat (_w : Wd) (s : State) : Host.Outcome State Fault Refusal :=
  issuing s fun c => s.finish c (c.status (s.mxstat c.who.core (s.ctxOf c.who)))

end Sys2Proof.Machine
end

