-- ==== Sys2Proof/Machine/Splits.lean ====
section
/-! DEFINITION. The split table (chapter 10): the vote, the rows of Table 10.2, the choice of the split that runs, the fairness
timer, barrier tokens, and spilling. The functions act on the entries of a warp as one list, in the order they were pushed;
an entry that is spilled names its place in the spill area. They begin from the entries as the spill area holds them, which the
caller has read, and nothing else writes the area while they act. -/

namespace Sys2Proof.Machine

/-! ## Entries -/

/-- The four words of an entry in the spill area (Table 10.1). -/
def SEntry.words (e : SEntry) : List Nat :=
  [ e.mask.toNat + fieldAt e.arr.toNat 32 32
  , fieldAt (e.next / 8) 3 52
  , fieldAt (e.rcvb / 8) 3 52
  , 1 + fieldAt e.token.toNat 1 1 + fieldAt e.barr.toNat 2 1 + fieldAt e.nest 8 16 + fieldAt e.depth 24 8 + fieldAt e.fair 32 10 +
      fieldAt e.last 48 16 ]

def SEntry.bytes (e : SEntry) : List (BitVec 8) := e.words.flatMap (valBytes 8)

/-- An entry with the fields that the 32 bytes of Table 10.1 give it. -/
def SEntry.ofBytes (e : SEntry) (bs : List (BitVec 8)) : SEntry :=
  let w (k : Nat) : Nat := bytesVal ((bs.drop (8 * k)).take 8)
  { e with
    mask := BitVec.ofNat 32 (w 0), arr := BitVec.ofNat 32 (w 0 / 2 ^ 32), next := 8 * bitsOf (w 1) 54 3, rcvb := 8 * bitsOf (w 2) 54 3
    token := (w 3).testBit 1, barr := (w 3).testBit 2, nest := bitsOf (w 3) 23 8, depth := bitsOf (w 3) 31 24, fair := bitsOf (w 3) 41 32
    last := bitsOf (w 3) 63 48 }

/-- The entry at a place of the list. -/
def entryAt (l : List SEntry) (i : Nat) : SEntry := l.getD i default

/-- Lanes that have not exited: those in a split, or arrived at a token (R229). -/
def liveLanes (l : List SEntry) : Mask := l.foldl (fun m e => m ||| (if e.token then e.arr else e.mask)) 0

/-- How many entries stand in the table, and how many in the spill area. -/
def tableCount (l : List SEntry) : Nat := (l.filter fun e => e.spill.isNone).length
def spillCount (l : List SEntry) : Nat := (l.filter fun e => e.spill.isSome).length

/-- A place is that of a split. -/
def isSplit (l : List SEntry) (i : Nat) : Bool := i < l.length && !(entryAt l i).token

/-- The best place of a list that satisfies a test, by an order. -/
def bestPlace (l : List SEntry) (p : Nat → Bool) (before : SEntry → SEntry → Bool) : Option Nat :=
  ((List.range l.length).filter p).foldl (fun r i => match r with
    | none => some i
    | some j => if before (entryAt l i) (entryAt l j) then some i else some j) none

/-- The token of greatest NEST whose MASK holds a lane, by its place. -/
def innermost (l : List SEntry) (lane : Nat) : Option Nat :=
  bestPlace l (fun i => (entryAt l i).token && (entryAt l i).mask.getLsbD lane) fun a b => decide (b.nest < a.nest)

/-- A split's own token: same NEST, and NEXT equal to the split's RCVB (R231). -/
def ownToken (e t : SEntry) : Bool := t.token && !t.barr && e.nest != 0 && t.nest == e.nest && t.next == e.rcvb

/-- The NEST of the token that encloses a token, 0 when none does. -/
def enclosingNest (l : List SEntry) (t : SEntry) : Nat :=
  ((l.filter fun e => e.token && e.nest < t.nest && e.next == t.rcvb && (e.mask &&& t.mask) != 0).map (·.nest)).foldl max 0

/-- A token turned into a split of the given lanes (Table 10.2). -/
def tokenSplit (l : List SEntry) (t : SEntry) (mask : Mask) : SEntry :=
  { token := false, mask, next := t.next, depth := t.depth, nest := enclosingNest l t, rcvb := t.rcvb, last := t.last, iter := t.iter }

/-- Groups of equal keys in a list of lanes, in the order of their first lanes. -/
def groupLanes {α : Type} [BEq α] (l : List (Nat × α)) : List (α × Mask) :=
  (l.map (·.2)).eraseDups.map fun k => (k, maskOf ((l.filter fun q => q.2 == k).map (·.1)))

/-- Lanes join others that stand at the same block: the iteration number is that of the lanes which entered the block first, for it
counts from the block's first entry (R172; log 63). -/
def joinIter (arr : Mask) (old new : BitVec 5) : BitVec 5 := if arr = 0 || old.toNat < new.toNat then new else old

/-- The later of two values of LAST, which count modulo 2^16. -/
def laterLast (a b : Nat) : Nat := if (a + 65536 - b) % 65536 < 32768 then a else b

/-! ## Which split runs (R233, R234) -/

/-- One split is chosen before another: greatest NEST, lowest NEXT, greatest DEPTH. -/
def splitBefore (a b : SEntry) : Bool :=
  b.nest < a.nest || (a.nest == b.nest && (a.next < b.next || (a.next == b.next && b.depth < a.depth)))

/-- The split R233 chooses among the runnable ones, as a place in the list. -/
def chooseSplit (l : List SEntry) : Option Nat := bestPlace l (isSplit l) splitBefore

/-- The split a boundary chooses: the pinned one, or R233's. -/
def pickSplit (l : List SEntry) : Option Nat :=
  ((List.range l.length).find? fun i => isSplit l i && (entryAt l i).pin).orElse fun _ => chooseSplit l

/-- The chosen split's FAIR rises and its LAST is set; every other split's FAIR becomes 0 (R233). -/
def markChosen (l : List SEntry) (n : Nat) (icount : Nat) : List SEntry :=
  l.zipIdx.map fun q =>
    if q.2 = n then { q.1 with fair := min 512 (q.1.fair + 1), last := icount % 65536 }
    else if q.1.token then q.1
    else { q.1 with fair := 0 }

/-- How long ago a split ran, by its LAST (R234). -/
def splitAge (icount : Nat) (e : SEntry) : Nat := (icount + 65536 - e.last) % 65536

/-- The split the fairness timer pins: runnable, not the current one, oldest LAST, then lowest NEXT (R234). -/
def fairPick (l : List SEntry) (cur : Nat) (icount : Nat) : Option Nat :=
  bestPlace l (fun i => isSplit l i && i != cur) fun a b =>
    splitAge icount b < splitAge icount a || (splitAge icount a == splitAge icount b && a.next < b.next)

/-- Pin one split and no other. -/
def pinSplit (l : List SEntry) (n : Nat) : List SEntry := l.zipIdx.map fun q => { q.1 with pin := decide (q.2 = n) }

/-! ## Spilling (R235) -/

/-- The entry to spill: the token of lowest NEST in the table, or else the split R233 would choose last; never a pinned split or
one that `keep` names. Of several tokens of the lowest NEST, R235 names none: the model spills the one pushed first (log 64). -/
def spillPick (l : List SEntry) (keep : Option Nat) : Option Nat :=
  let ok (i : Nat) : Bool := (entryAt l i).spill.isNone && some i != keep && !(entryAt l i).pin
  (bestPlace l (fun i => ok i && (entryAt l i).token) fun a b => decide (a.nest < b.nest)).orElse fun _ =>
    bestPlace l (fun i => ok i && isSplit l i) fun a b => splitBefore b a

/-- Spill the entry at a place of the list: it becomes the top of the stack. -/
def spillOut (l : List SEntry) (i : Nat) : List SEntry := let k := spillCount l
                                                        listMod l i fun e => { e with spill := some k }

/-- Read the entry at a place of the list back; the spilled entries above it move down by one. -/
def reload (l : List SEntry) (i : Nat) : List SEntry :=
  match (entryAt l i).spill with
  | none => l
  | some k => (listMod l i fun e => { e with spill := none }).map fun e => { e with spill := e.spill.map fun n => if k < n then n - 1 else n }

/-- The top of the stack. -/
def spillTop (l : List SEntry) : Option Nat :=
  if spillCount l = 0 then none else l.findIdx? fun e => e.spill == some (spillCount l - 1)

/-- One move between the table and the spill area: an entry too many goes out, or the top of the stack comes back. -/
def placeStep (l : List SEntry) : Option (List SEntry) :=
  if 16 < tableCount l then (spillPick l none).map (spillOut l)
  else if tableCount l < 16 then (spillTop l).map (reload l)
  else none

/-- Bring a split into the table, for it is to run. -/
def bringIn (l : List SEntry) (n : Nat) : List SEntry :=
  let l := reload l n
  if 16 < tableCount l then ((spillPick l (some n)).map (spillOut l)).getD l else l

/-! ## Table 10.2, the rows after the vote -/

/-- Where a split parks: at its own token, when it has come to that token's block and depth. Of several such tokens, the one
pushed last that expects lanes of it; a token that expects none only regroups the lanes. -/
def parkPlace (l : List SEntry) (i : Nat) : Option Nat :=
  let e := entryAt l i
  let c := (List.range l.length).filter fun j =>
    let t := entryAt l j
    ownToken e t && e.next == t.next && e.depth == t.depth
  let moves := (lanesOf e.mask).any fun ln => ((innermost l ln).map fun j => ((entryAt l j).nest, (entryAt l j).next)) != some (e.nest, e.rcvb)
  (c.filter fun j => (e.mask &&& (entryAt l j).mask) != 0).getLast?.orElse fun _ => if moves then c.getLast? else none

/-- A split parks at a token: the arrived lanes enter ARR, the others stay as splits under their own innermost tokens. -/
def parkAt (l : List SEntry) (i j : Nat) : List SEntry :=
  let l := reload l j
  let e := entryAt l i
  let t := entryAt l j
  let groups := groupLanes ((lanesOf (e.mask &&& ~~~ t.mask)).map fun ln => (ln, innermost l ln))
  (listMod l j fun t => { t with arr := t.arr ||| (e.mask &&& t.mask), iter := joinIter t.arr t.iter e.iter }).eraseIdx i ++
    groups.map fun g => { e with mask := g.2, nest := (g.1.map fun q => (entryAt l q).nest).getD 0
                                 rcvb := (g.1.map fun q => (entryAt l q).next).getD 0, pin := false }

/-- Two splits merge (Table 10.2). Of two of equal NEST, the table does not say whose RCVB the merged split has: the model keeps that
of the one that stands first in the order of pushing (log 63). -/
def mergeSplits (a b : SEntry) : SEntry :=
  let hi := if a.nest < b.nest then b else a
  { hi with mask := a.mask ||| b.mask, fair := 0, last := laterLast a.last b.last, call := a.call || b.call
            iter := joinIter a.mask a.iter b.iter, pin := false }

/-- One row of Table 10.2 after the vote, the first that applies: park, release, free, merge. The result tells also
whether lanes have parked at a token whose NEST is below a waiting barrier token's (R238). Spilled splits wait for their reload;
a spilled token is read back by the row that matches it (R235). -/
def tableStep (l : List SEntry) : Option (List SEntry × Bool) :=
  let idx := List.range l.length
  let here (i : Nat) : Bool := isSplit l i && (entryAt l i).spill.isNone
  let barrNest := ((l.filter fun e => e.token && e.barr).map (·.nest)).foldl max 0
  match idx.findSome? fun i => if here i then (parkPlace l i).map fun j => (i, j) else none with
  | some (i, j) => some (parkAt l i j, (entryAt l j).nest < barrNest)
  | none =>
    match idx.find? fun i => (entryAt l i).token && (entryAt l i).mask != 0 && (entryAt l i).arr == (entryAt l i).mask with
    | some i =>
      let l := reload l i
      some (l.eraseIdx i ++ [tokenSplit l (entryAt l i) (entryAt l i).mask], false)
    | none =>
      match idx.find? fun i => (entryAt l i).mask == 0 with
      | some i => some ((reload l i).eraseIdx i, false)
      | none =>
        (idx.findSome? fun i => (idx.find? fun j => i < j && here i && here j && (entryAt l i).next == (entryAt l j).next &&
            (entryAt l i).depth == (entryAt l j).depth).map fun j => (i, j)).map fun q =>
          ((listMod l q.1 fun _ => mergeSplits (entryAt l q.1) (entryAt l q.2)).eraseIdx q.2, false)

/-- The places of the spill area that a change of table writes, with their entries, and those it reads back. -/
def spillWrites (old new : List SEntry) : List (Nat × SEntry) :=
  new.filterMap fun e => e.spill.bind fun k => if old.contains e then none else some (k, e)
def spillReads (old new : List SEntry) : List Nat :=
  old.filterMap fun e => e.spill.filter fun _ => !new.contains e

/-- What the rows of Table 10.2 make of a table: the entries, whether lanes parked below a barrier token, the greatest number
of entries there was, and the places of the spill area read and written on the way, each with whether it was written. -/
structure Settled where
  l    : List SEntry
  low  : Bool := false
  peak : Nat
  area : List (Nat × Bool) := []
  deriving DecidableEq, Repr

/-- One change of the table, with the accesses to the spill area it makes. -/
def Settled.change (r : Settled) (l : List SEntry) : Settled :=
  { r with l, peak := max r.peak l.length
           area := r.area ++ (spillReads r.l l).map (fun k => (k, false)) ++ (spillWrites r.l l).map fun q => (q.1, true) }

/-- The rows of Table 10.2 until none applies. An entry too many is spilled, or the top of the stack reloaded, before the next row is
looked for (R235). -/
def settleRows : Nat → Settled → Settled
  | 0, r => r
  | n + 1, r =>
    match placeStep r.l with
    | some l => settleRows n (r.change l)
    | none =>
      match tableStep r.l with
      | some (l, low) => settleRows n { r.change l with low := r.low || low }
      | none => r

/-- SETTLE a table that an operation has changed from another (R231, R235). -/
def settleFrom (old l : List SEntry) : Settled := settleRows (1000 + 100 * l.length) (Settled.change { l := old, peak := old.length } l)

/-! ## The vote -/

/-- Where a lane goes: next block and depth, or out of the warp; whether by a RET, by a LOOP back, or by a call. -/
structure Vote where
  lane   : Nat
  dest   : Option (Nat × Nat)
  isRet  : Bool := false
  looped : Bool := false
  isCall : Bool := false
  deriving DecidableEq, Repr

/-- A split after its lanes' vote for one target. The iteration number counts from 0 at an entry from another block, and a LOOP back
raises it; another successor back into the block leaves it (R172). -/
def SEntry.voted (e : SEntry) (votes : List Vote) (g : (Nat × Nat) × Mask) : SEntry :=
  { e with mask := g.2, next := g.1.1, depth := g.1.2, call := votes.any fun v => g.2.getLsbD v.lane && v.isCall
           iter := if g.1.1 ≠ e.next then 0 else if votes.any (fun v => g.2.getLsbD v.lane && v.looped) then e.iter + 1 else e.iter }

/-- THE VOTE'S OWN ROWS of Table 10.2: split `n` ran the block with the lanes that vote, its reconvergence block is `reconv`. Lanes
that have joined the split since the iteration that votes was admitted stay where they are. -/
def voteRows (l : List SEntry) (n : Nat) (votes : List Vote) (reconv : Option Nat) : List SEntry :=
  let e := entryAt l n
  let exits := maskOf ((votes.filter fun v => v.dest.isNone).map (·.lane))
  let groups := groupLanes (votes.filterMap fun v => v.dest.map fun d => (v.lane, d))
  let live := groups.foldl (fun m g => m ||| g.2) 0
  let left := e.mask &&& ~~~ maskOf (votes.map (·.lane))
  let stay : List SEntry := if left = 0 then [] else [{ e with mask := left, pin := false }]
  let apart : SEntry := { e with fair := 0, pin := false }
  let l1 :=
    match groups, reconv with
    | [], _ => l.eraseIdx n ++ stay
    | [g], _ => (listMod l n fun e => e.voted votes g) ++ stay
    | gs, none => l.eraseIdx n ++ gs.map (apart.voted votes) ++ stay
    | gs, some r =>
      let t : SEntry := { token := true, mask := live, next := r, depth := e.depth, nest := e.nest + 1, rcvb := e.rcvb, last := e.last }
      l.eraseIdx n ++ t :: gs.map ({ apart with nest := t.nest, rcvb := t.next }.voted votes) ++ stay
  let l2 := l1.map fun x => if x.token then { x with mask := x.mask &&& ~~~ exits } else x
  let rets := votes.filter (·.isRet)
  l2.map fun x =>
    if x.token then
      { x with mask := x.mask &&& ~~~ maskOf ((rets.filter fun v => (v.dest.map (·.2)).getD 0 < x.depth).map (·.lane)) }
    else x

/-- VOTE (R231). -/
def voteTable (l : List SEntry) (n : Nat) (votes : List Vote) (reconv : Option Nat) : Settled :=
  settleFrom l (voteRows l n votes reconv)

/-- The NEST a vote's token would have exceeds 65,535. -/
def nestTooDeep (e : SEntry) (groups : Nat) (reconv : Option Nat) : Bool := 2 ≤ groups && reconv.isSome && 65535 ≤ e.nest

/-! ## The selection at a boundary (R231, R233, R238) -/

/-- Forced release (Table 10.2, last row): no split runs, tokens remain and none is a barrier token. -/
def forcedRelease (l : List SEntry) : Option Settled :=
  if l.any (fun e => !e.token || e.barr) then none
  else
    (bestPlace l (fun i => (entryAt l i).arr != 0) fun a b =>
      b.nest < a.nest || (a.nest == b.nest && (a.next < b.next || (a.next == b.next && b.depth ≤ a.depth)))).map fun i =>
      let l' := reload l i
      let t := entryAt l' i
      settleFrom l (l'.eraseIdx i ++ [tokenSplit l' t t.arr])

/-- What a boundary selects. -/
inductive Selected where
  /-- the split at a place of the table runs; `forced`: a token was released by force -/
  | runs (l : List SEntry) (n : Nat) (forced : Bool)
  /-- no split can run, and a barrier token waits -/
  | breaks
  /-- the table is empty -/
  | none
  deriving DecidableEq, Repr

/-- SELECT the split that runs: it is brought into the table and marked. -/
def selectRun (l : List SEntry) (icount : Nat) : Selected :=
  let go (l : List SEntry) (forced : Bool) (n : Nat) : Selected := .runs (markChosen (bringIn l n) n icount) n forced
  match pickSplit l with
  | some n => go l false n
  | none =>
    if l.any (fun e => e.token && e.barr) then .breaks
    else match forcedRelease l with
      | none => .none
      | some r => match pickSplit r.l with
        | none => .none
        | some n => go r.l true n

/-- The entries a selection leaves. -/
def Selected.table (r : Selected) (l : List SEntry) : List SEntry :=
  match r with
  | .runs l _ _ => l
  | _ => l

/-! ## Barrier tokens (R237, R238) -/

/-- The barrier token of a table. -/
def barrToken (l : List SEntry) : Option Nat := (List.range l.length).find? fun i => (entryAt l i).token && (entryAt l i).barr

/-- What a split that is about to admit a barrier block does. -/
inductive BarrStep where
  /-- it holds every live lane: the block is admitted -/
  | goesIn
  /-- it has parked at the barrier token; the table changed -/
  | parked (r : Settled)
  /-- BARRIER_DIVERGED -/
  | diverged
  /-- the barrier token's NEST would exceed 65,535 (R231) -/
  | tooDeep
  deriving DecidableEq, Repr

/-- The rule of R237 for split `n`. A split at the barrier block that the barrier token expects no lane of does not park: the
warp has diverged (log 35). -/
def barrierStep (l : List SEntry) (n : Nat) : BarrStep :=
  let e := entryAt l n
  let live := liveLanes l
  match barrToken l with
  | some j =>
    let t := entryAt l j
    if t.next == e.next && t.depth == e.depth && (e.mask &&& t.mask) != 0 then .parked (settleFrom l (parkAt l n j))
    else .diverged
  | none =>
    if e.mask == live then .goesIn
    else
      let top := (l.map (·.nest)).foldl max 0
      if 65535 ≤ top then .tooDeep
      else
        let around := bestPlace l (fun i => (entryAt l i).token && ((entryAt l i).mask &&& live) == live) fun a b => decide (b.nest < a.nest)
        let t : SEntry := { token := true, barr := true, mask := live, arr := e.mask, next := e.next, depth := e.depth
                            nest := top + 1, rcvb := (around.map fun i => (entryAt l i).next).getD 0, last := e.last, iter := e.iter }
        .parked (settleFrom l (l.eraseIdx n ++ [t]))

/-- The barrier token becomes a split of its arrived lanes, at the barrier block (R238): the table, that split's place,
and the lanes that did not arrive. -/
def barrierBreak (l : List SEntry) : Option (List SEntry × Nat × Mask) :=
  (barrToken l).map fun j =>
    let l := reload l j
    let t := entryAt l j
    let l' := l.eraseIdx j ++ [tokenSplit l t t.arr]
    let n := l'.length - 1
    (bringIn l' n, n, t.mask &&& ~~~ t.arr)

/-- All entries of a warp. -/
def Warp.entries (w : Warp) : List SEntry := w.splits

end Sys2Proof.Machine
end

