-- ==== Sys2Proof/Machine/Sync.lean ====
section
/-! DEFINITION. Barriers, flags, events and channels (R344 to R351): one meaning for each form of Tables 15.4 and 15.5. -/

namespace Sys2Proof.Machine

/-! ## Class 1 barriers -/

/-- BAR (R344): the warp arrives at commit. -/
def execBar (_w : Wd) (s : State) : Host.Outcome State Fault Refusal :=
  issuing s fun c => (s.addEff c (.bar c.idx)).finish c []

/-- GBAR (R344). -/
def execGbar (_w : Wd) (s : State) : Host.Outcome State Fault Refusal :=
  issuing s fun c =>
    if (s.teamOf c.who).any fun t => t.lrec.gang != 0 then (s.addEff c (.gbar c.idx)).finish c []
    else s.faultIssue c { code := .illegalBlock, mask := c.mask }

/-! ## Named barriers (R240, R241, R345, R346) -/

/-- The named barrier a form names, in the team of its warp. -/
def State.nbar? (s : State) (who : Who) (b : Nat) : Option NBar := (s.teamOf who).bind fun t => t.nbs[b]?

/-- The party a thread is. -/
def Who.party : Who → Party
  | .warp _ sl _ => .warp sl
  | .ctl _ _ => .warp 32

/-- The fault of a named-barrier form. -/
def nbFault (c : Issue) : FaultInfo := { code := .illegalBlock, mask := c.mask }

/-- NBJOIN (R345): pledge and arrivals of the lowest lane. -/
def execNbjoin (_w : Wd) (num : BitVec 6) (s : State) : Host.Outcome State Fault Refusal :=
  issuing s fun c =>
    let a := (c.lowW .a).toNat
    let p := bitsOf a 15 0
    let n := bitsOf a 31 16
    match s.nbar? c.who num.toNat with
    | none => s.faultIssue c (nbFault c)
    | some _ => if p < n then s.faultIssue c (nbFault c) else (s.addEff c (.nbjoin c.idx num.toNat p n)).finish c []

/-- NBARRIVE (R345). -/
def execNbarrive (_w : Wd) (num : BitVec 6) (s : State) : Host.Outcome State Fault Refusal :=
  issuing s fun c =>
    let n := bitsOf (c.lowW .a).toNat 15 0
    match s.nbar? c.who num.toNat with
    | none => s.faultIssue c (nbFault c)
    | some b =>
      if b.mayArrive (Who.party c.who) n then (s.addEff c (.nbarrive c.idx num.toNat n)).finish c []
      else s.faultIssue c (nbFault c)

/-- NBSYNC (R345, R346): its result is the barrier's state at fire. On a barrier that is STRANDED its arrivals are ignored and
nothing is waited for (Table 10.4). -/
def execNbsync (_w : Wd) (num : BitVec 6) (s : State) : Host.Outcome State Fault Refusal :=
  issuing s fun c =>
    let n := bitsOf (c.lowW .a).toNat 15 0
    match s.nbar? c.who num.toNat with
    | none => s.faultIssue c (nbFault c)
    | some b =>
      if b.mayArrive (Who.party c.who) n then
        if b.stranded then (s.addEff c (.nbarrive c.idx num.toNat n)).finish c (c.status 0x29)
        else (s.addEff c (.nbsync c.idx num.toNat n)).finish c (c.status 0)
      else s.faultIssue c (nbFault c)

/-- The phase an NBWAIT waits for (R241): the one it already waits for, that of the warp's last arrival not yet waited
for, or the current one. -/
def State.waitPhase (s : State) (c : Issue) (n : Nat) (b : NBar) : Nat :=
  match c.who with
  | .ctl _ _ => b.ph
  | .warp core slot _ =>
    match s.warp? core slot, s.instOf c.who with
    | some w, some i =>
      match tabFind c.idx i.nbWait with
      | some p => p
      | none =>
        let waited := i.effs.any fun e => match e with | .nbwaited _ m => m == n | _ => false
        if waited then b.ph else (tabFind n w.nbLast).getD b.ph
    | _, _ => b.ph

/-- Remember the phase an NBWAIT waits for. -/
def State.notePhase (s : State) (c : Issue) (p : Nat) : State :=
  match c.who with
  | .ctl _ _ => s
  | .warp core slot t => s.modInst core slot t fun i => { i with nbWait := tabPut c.idx p i.nbWait }

/-- NBWAIT (R346). -/
def execNbwait (_w : Wd) (num : BitVec 6) (s : State) : Host.Outcome State Fault Refusal :=
  issuing s fun c =>
    match s.nbar? c.who num.toNat with
    | none => s.faultIssue c (nbFault c)
    | some b =>
      let p := s.waitPhase c num.toNat b
      let back := s.addEff c (.nbwaited c.idx num.toNat)
      if b.done p then back.finish c (c.status 0)
      else if b.stranded then
        if c.form.targets.all (·.isNone) then s.faultIssue c { code := .barrierStranded, mask := c.mask }
        else back.finish c (c.status 0x29)
      else s.notePhase c p

/-! ## Flags and events -/

/-- WAITF (R347). -/
def execWaitf (_w : Wd) (num : BitVec 6) (s : State) : Host.Outcome State Fault Refusal :=
  issuing s fun c => if s.flagSet c.who num.toNat then s else (s.joinFlag c.who num.toNat).finish c []

/-- The scope at which events of a context order (R135, R348). -/
def State.eventScope (s : State) (x : Nat) : Scope := if (s.ctx? x).any fun c => 1 < c.devices then .sys else .dev

/-- The scope of an EVWAIT's acquire: .sys for a counter that a kick has raised (R467). -/
def State.evwaitScope (s : State) (x e : Nat) : Scope := if (s.ctx? x).any fun c => c.kicked.contains e then .sys else s.eventScope x

/-- EVWAIT (R348): waits until counter − target, modulo 2^32, is below 2^31. -/
def execEvwait (_w : Wd) (num : BitVec 6) (s : State) : Host.Outcome State Fault Refusal :=
  issuing s fun c =>
    let x := s.ctxOf c.who
    let e : Word := ((s.ctx? x).map fun q => q.events.getD num.toNat 0).getD 0
    if (e - c.lowW .a).toNat < 2 ^ 31 then (s.acquireActs c.who.core (s.evwaitScope x num.toNat) 0b111).finish c [] else s

/-- Add 1 to an event counter (R348). -/
def State.signal (s : State) (x e : Nat) : State := s.modCtx x fun q => { q with events := listMod q.events e (· + 1) }

/-- EVSIG (R348). -/
def execEvsig (_w : Wd) (num : BitVec 6) (s : State) : Host.Outcome State Fault Refusal :=
  issuing s fun c =>
    match c.who with
    | .warp _ _ _ => (s.addEff c (.evsig c.idx num.toNat)).finish c []
    | .ctl core x =>
      match s.releaseActs core (s.vfOf x) (s.eventScope x) 0b111 with
      | .wait s => s
      | .done s => (s.signal x num.toNat).finish c []

/-! ## Channels -/

/-- The channel a form names. -/
def State.chan (s : State) (who : Who) (n : Nat) : Chan := ((s.teamOf who).map fun t => t.chan n).getD {}

/-- Change a channel of a thread's team. -/
def State.modChanOf (s : State) (who : Who) (n : Nat) (f : Chan → Chan) : State :=
  match s.teamOf who with
  | none => s
  | some t => s.modTeam who.core t.id fun t => t.modChan n f

/-- The fault of a channel form. -/
def chanFault (c : Issue) : FaultInfo := { code := .channelFault, mask := c.mask }

/-- SEND (R349). -/
def execSend (_w : Wd) (num : BitVec 6) (s : State) : Host.Outcome State Fault Refusal :=
  issuing s fun c =>
    match (s.chan c.who num.toNat).kind with
    | .fifo | .sink => (s.addEff c (.send c.idx num.toNat c.mask (c.port .a).val)).finish c []
    | _ => s.faultIssue c (chanFault c)

/-- RECV (R349, R219): the head entry is taken at fire and stays reserved for the instance. -/
def execRecv (_w : Wd) (num : BitVec 6) (s : State) : Host.Outcome State Fault Refusal :=
  issuing s fun c =>
    let ch := s.chan c.who num.toNat
    match ch.kind with
    | .fifo | .source =>
      match ch.take, c.who with
      | some ((m, v), _), .warp core slot t =>
        let s := s.modChanOf c.who num.toNat fun ch => (ch.take.map (·.2)).getD ch
        let s := s.modInst core slot t fun i => { i with taken := i.taken ++ [(num.toNat, c.mask, m, v)] }
        (s.sense (some (s.ctxOf c.who, c.who.requester)) (.pool core)).finishMask c (c.mask &&& m) [v]
      | _, _ => s
    | _ => s.faultIssue c (chanFault c)

/-- The CHSTAT word (Table 15.6). -/
def Chan.stat (ch : Chan) : Nat :=
  let kind := match ch.kind with | .unused => 0 | .fifo => 1 | .source => 2 | .sink => 3
  fieldAt kind 30 2 + fieldAt (if ch.kind == .fifo then ch.depth else 0) 9 9 + fieldAt (ch.items.length + ch.taken) 0 9

/-- CHSTAT (R350). -/
def execChstat (_w : Wd) (num : BitVec 6) (s : State) : Host.Outcome State Fault Refusal :=
  issuing s fun c => s.finish c (c.status (s.chan c.who num.toNat).stat)

/-- The status of CHRESIZE at fire (R351). -/
def State.resizeStatus (s : State) (who : Who) (ch : Chan) (d : Nat) : Nat :=
  if ch.kind != .fifo then 1
  else if d = 0 || 256 < d then 2
  else if 256 < (s.core who.core).poolUsed - ch.reserved + d then 3
  else 0

/-- The channel holds no entry, reserved ones included. -/
def Chan.idle (ch : Chan) : Bool := ch.items.isEmpty && ch.taken == 0

/-- The depth that a control thread's CHRESIZE has reserved and waits to set. -/
def State.resizing (s : State) (who : Who) : Option Nat :=
  match who with
  | .warp _ _ _ => none
  | .ctl core x => (s.ctl? core x).bind (·.resize)

/-- A control thread's CHRESIZE sets the depth it has reserved, once the channel is idle. -/
def State.resizeCtl (s : State) (c : Issue) (n d : Nat) : State :=
  if (s.chan c.who n).idle then
    let s := s.modChanOf c.who n fun ch => { ch with depth := d, resizes := ch.resizes.erase d }
    (match c.who with
      | .ctl core x => s.modCtl core x fun t => { t with resize := none }
      | .warp _ _ _ => s).finish c (c.status 0)
  else s

/-- Reserve pool entries for a depth that a channel is to have (R351). -/
def State.reserveDepth (s : State) (who : Who) (n d : Nat) : State :=
  let s := s.modChanOf who n fun ch => { ch with resizes := ch.resizes ++ [d] }
  match who with
  | .ctl core x => s.modCtl core x fun t => { t with resize := some d }
  | .warp _ _ _ => s

/-- CHRESIZE (R351): it is judged once, and the pool's entries are reserved, at fire; the commit resizes, or a control thread waits
for the channel to be idle. -/
def execChresize (_w : Wd) (num : BitVec 6) (s : State) : Host.Outcome State Fault Refusal :=
  issuing s fun c =>
    match s.resizing c.who with
    | some d => s.resizeCtl c num.toNat d
    | none =>
      let ch := s.chan c.who num.toNat
      let d := (c.lowW .a).toNat
      if ch.kind == .unused then s.faultIssue c (chanFault c)
      else
        let st := s.resizeStatus c.who ch d
        if st != 0 then s.finish c (c.status st)
        else
          let s := s.reserveDepth c.who num.toNat d
          match c.who with
          | .warp _ _ _ => (s.addEff c (.chresize c.idx num.toNat d)).finish c (c.status 0)
          | .ctl _ _ => s.resizeCtl c num.toNat d

end Sys2Proof.Machine
end

