-- ==== Sys2Proof/Machine/Launch.lean ====
section
/-! DEFINITION. Launch records and grids (R387, R388, R405 to R414): reading and judging a record, entering a queue, the
states LSTAT reports, and placement. -/

namespace Sys2Proof.Machine

/-! ## The launch record (Table 18.1, R407) -/

/-- The fields of a record. -/
def parseRec (ws : List DWord) : LaunchRec :=
  let f (n hi lo : Nat) : Nat := bitsOf (ws.getD n 0).toNat hi lo
  let w (n : Nat) : DWord := ws.getD n 0
  { entry := w 0, griddim := f 1 31 0, tdim := f 1 37 32, gang := f 1 41 38, dep := f 1 43 42, prio := f 1 45 44
    strm := f 1 46 46 == 1, nvec := f 2 7 0, tagb := f 2 13 8, nnb := f 2 20 14, spb := f 2 63 32, mbox := w 3, nbtab := w 4
    chtab := w 5, spill := w 6, nspill := f 7 15 0, cstk := w 8, rngw := BitVec.ofNat 32 (f 9 31 0), arg0 := w 10, arg1 := w 11
    centry := w 12 }

/-- The rules of R407 on the record itself; those on its tables are judged when they are read. -/
def recBad (ws : List DWord) : Bool :=
  let r := parseRec ws
  let f (n hi lo : Nat) : Nat := bitsOf (ws.getD n 0).toNat hi lo
  [13, 14, 15].any (fun n => ws.getD n 0 != 0) || f 9 63 32 != 0 || f 7 63 16 != 0 || f 2 31 21 != 0 || f 1 63 47 != 0 ||
  r.dep == 3 || r.gang == 1 || 10 < r.gang || r.tdim == 0 || 32 < r.tdim || r.tagb == 0 || 32 < r.tagb ||
  r.nvec % 16 != 0 || r.nvec < 16 || 128 < r.nvec || (List.range 64).any (fun n => r.mbox.getLsbD n && r.nvec ≤ n) ||
  64 < r.nnb || (r.nnb != 0 && r.nbtab == 0) || r.spb % 2048 != 0 || 524288 < r.spb || 256 < r.tagb * r.tdim

/-- Logical cores of a context on one of its logical dies, ascending. -/
def Ctx.dieLogical (x : Ctx) (ld : Nat) : List Nat :=
  let d := x.dies.getD ld Config.seracDies
  (List.range x.cores.length).filter fun n => dieOf (x.cores.getD n 0) == d

/-- No die of the grant holds the cores of a gang. -/
def Ctx.noGangDie (x : Ctx) (gang : Nat) : Bool :=
  gang != 0 && !((List.range x.dies.length).any fun d => gang ≤ (x.dieLogical d).length)

/-! ## Entering a queue (R387, R410) -/

/-- Grids that count toward the limit of 256. -/
def Queue.load (q : Queue) : Nat := (q.grids.filter fun g => g.st == .reserved || g.st == .queued || g.st == .running).length

def State.modQueue (s : State) (x q : Nat) (f : Queue → Queue) : State := s.modCtx x fun c => { c with queues := listMod c.queues q f }

/-- Reserve a queue entry and the next sequence number; an ended grid that had the number 2^24 launches ago is forgotten. -/
def State.reserveGrid (s : State) (x q : Nat) : State :=
  let old (u : Queue) (g : Grid) : Bool := g.seq == u.next && (g.st == .done || g.st == .malformed || g.st == .killed)
  s.modQueue x q fun u => { next := (u.next + 1) % 2 ^ 24, grids := ((u.grids.filter fun g => !old u g).map fun g => { g with later := true }) ++ [{ seq := u.next, st := .reserved }] }

/-- A discarded LAUNCH: its entry returns, and its number unless a later one has been reserved. -/
def State.returnGrid (s : State) (x q seq : Nat) : State :=
  s.modQueue x q fun u =>
    { next := if u.grids.any fun g => g.seq == seq && !g.later then seq else u.next, grids := u.grids.filter fun g => g.seq != seq }

/-- What reading a launch record gave. -/
inductive RecRead where
  | record (s : State) (ws : List DWord)
  | bad (s : State)
  | wait (s : State)

/-- Read a record as one 128-byte read at the point of coherence. A fault is delivered and halts nothing: its halt number
stands for a read that nobody waits for. -/
def State.readRecord (s : State) (who : Who) (va : DWord) : RecRead :=
  let x := s.ctxOf who
  match s.translate who.core x va .read with
  | (s, .ok p) =>
    let (s, bs) := s.homeRead (some (x, who.requester)) p 128
    .record s ((List.range 16).map fun k => BitVec.ofNat 64 (bytesVal ((bs.drop (8 * k)).take 8)))
  | (s, .error (.host vf page wr)) => .wait (s.askHost vf page wr)
  | (s, .error (.fault f)) => .bad ({ s with nextReq := s.nextReq + 1 }.deliver x (.write s.nextReq) true f 0 0)

/-- A grid enters its queue, or ends MALFORMED; in a queue that a revocation has removed since, it ends KILLED (R391, R410). -/
def State.enterGrid (s : State) (x q seq : Nat) (rec_ : Option (List DWord)) (va : DWord) : State :=
  match s.ctx? x with
  | none => s
  | some c =>
    let ok := rec_.filter fun ws => !recBad ws && !c.noGangDie (parseRec ws).gang
    let s := { s with launches := s.launches + 1 }
    s.modGrid x q seq fun g => match ok with
      | none => { g with st := .malformed, recAddr := va, order := s.launches }
      | some ws =>
        let r := parseRec ws
        { g with st := if c.queueCount ≤ q then .killed else .queued, recAddr := va, lrec := r, prio := min r.prio c.prio, since := s.time, order := s.launches }

/-- LAUNCH takes effect: the record is read and the grid enters its queue. -/
def State.launchDo (s : State) (who : Who) (q seq : Nat) (va : DWord) : RelSt :=
  let x := s.ctxOf who
  match s.readRecord who va with
  | .record s ws => .done (s.enterGrid x q seq (some ws) va)
  | .bad s => .done (s.enterGrid x q seq none va)
  | .wait s => .wait s

/-- LAUNCH of a control thread: its entry and number are taken when the record has been read, so that a read that waits takes nothing
(R386). -/
def State.launchNow (s : State) (who : Who) (q seq : Nat) (va : DWord) : RelSt :=
  let x := s.ctxOf who
  match s.readRecord who va with
  | .record s ws => .done ((s.reserveGrid x q).enterGrid x q seq (some ws) va)
  | .bad s => .done ((s.reserveGrid x q).enterGrid x q seq none va)
  | .wait s => .wait s

/-- The scope of the release that a context form makes at its effect: .sys when that reaches another device (R386). -/
def Ctx.effectScope (x : Ctx) (core dev : Nat) : Scope := if x.devIdx core = dev then .dev else .sys

/-- The device of a queue (R387). -/
def Ctx.queueDev (x : Ctx) (q : Nat) : Nat := q / max 1 (queuesPerDevice x.mode x.nq x.dies.length)

/-- The scope of a form that acts on a context with these cores. -/
def Ctx.childScope (x : Ctx) (core : Nat) (cores : List Nat) : Scope :=
  if cores.any fun c => x.devIdx c != x.devIdx core then .sys else .dev

/-! ## LSTAT (R388) -/

/-- The state of a grid, as LSTAT reports it: 5 for one its queue does not remember. -/
def Queue.stat (u : Queue) (seq : Nat) : Nat :=
  match u.grids.find? fun g => g.seq == seq with
  | none => 5
  | some g =>
    let recent := (u.next + 2 ^ 24 - 1 - seq) % 2 ^ 24 < 256
    match g.st with
    | .reserved => 5
    | .queued => 0
    | .running => 1
    | .done => if recent then 2 else 5
    | .malformed => if recent then 3 else 5
    | .killed => if recent then 4 else 5

/-! ## Placement (R414) -/

/-- H of a grid. -/
def placeHash (q seq : Nat) : Nat := bitsOf (0x9E3779B9 * (64 * seq + q)) 31 16

/-- The logical home core of team `t` of a grid of teams. -/
def Ctx.homeCore (x : Ctx) (q seq t : Nat) : Nat := (placeHash q seq + t) % max 1 x.cores.length

/-- The logical die of gang `k`: the first at or after (H + k) mod D that holds enough cores. -/
def Ctx.gangDie (x : Ctx) (q seq gang k : Nat) : Option Nat :=
  let d := x.dies.length
  ((List.range d).map fun i => (placeHash q seq + k + i) % d).find? fun ld => gang ≤ (x.dieLogical ld).length

/-- The logical home core of a team, gangs included. -/
def Ctx.homeOf (x : Ctx) (q seq gang t : Nat) : Option Nat :=
  if x.cores.isEmpty then none
  else if gang = 0 then some (x.homeCore q seq t)
  else
    let k := t / gang
    (x.gangDie q seq gang k).bind fun ld =>
      let cs := x.dieLogical ld
      cs[(k + t % gang) % cs.length]?

end Sys2Proof.Machine
end

