-- ==== Sys2Proof/Machine/Contexts.lean ====
section
/-! DEFINITION. The launch and context forms (R384 to R397, Tables 17.2 to 17.6): checks and result at fire; the effect at
commit in a warp, at once in a control thread. -/

namespace Sys2Proof.Machine

/-! ## Statuses (Table 17.3) -/

inductive CtxStatus where
  | done | notDesc | malformed | grant | shrink | busy | mode | noHalt | notOwner | notFlat | killing | depth | noCtx | cores
  | badQueue | queueFull
  deriving DecidableEq, Repr

def CtxStatus.num : CtxStatus → Nat
  | .done => 0 | .notDesc => 1 | .malformed => 2 | .grant => 3 | .shrink => 4 | .busy => 5 | .mode => 6 | .noHalt => 7
  | .notOwner => 8 | .notFlat => 9 | .killing => 0xA | .depth => 0xB | .noCtx => 0xC | .cores => 0xD | .badQueue => 0x10
  | .queueFull => 0x41

/-- MISALIGNED of a record or parameter block. -/
def misFault (c : Issue) (va : DWord) : FaultInfo := { code := .misaligned, mask := c.mask, raddr := va }

/-- A control thread makes the release of R386 and then the effect; a warp buffers the effect. -/
def State.effectForm (s : State) (c : Issue) (scope : Scope) (e : Eff) (res : List Lanes) (reserve : State → State)
    (now : State → RelSt) : State :=
  match c.who with
  | .warp _ _ _ => ((reserve s).addEff c e).finish c res
  | .ctl core x =>
    match s.releaseActs core (s.vfOf x) scope 0b111 with
    | .wait s => s
    | .done s =>
      match now s with
      | .wait s => s
      | .done s => s.finish c res

/-! ## LAUNCH and LSTAT -/

/-- The result of LAUNCH. -/
def launchRes (c : Issue) (seq code : Nat) : List Lanes := c.status (fieldAt seq 8 24 + code)

/-- A LAUNCH that enters no grid sends its status; the sequence number, of which R387 states nothing then, is a free value (log 23). -/
def State.refuseLaunch (s : State) (c : Issue) (st : CtxStatus) : State :=
  s.nextFree.finish c (launchRes c (Config.freeChoice s.free) st.num)

/-- LAUNCH (R387). -/
def execLaunch (_w : Wd) (s : State) : Host.Outcome State Fault Refusal :=
  issuing s fun c =>
    let xi := s.ctxOf c.who
    let va := c.lowD .a .ax
    let q := (c.lowW .b).toNat
    match s.ctx? xi with
    | none => s
    | some x =>
      if va.toNat % 128 != 0 then s.faultIssue c (misFault c va)
      else if bitsOf q 31 6 != 0 then s.refuseLaunch c .malformed
      else if x.queueCount ≤ q then s.refuseLaunch c .badQueue
      else
        let u := x.queues.getD q default
        if 256 ≤ u.load then
          if c.form.targets.any (·.isSome) then s.refuseLaunch c .queueFull
          else match c.who with
            | .warp _ _ _ => (s.addEff c (.launchFull c.idx)).finish c []
            | .ctl _ _ => s.faultIssue c { code := .queueFull, mask := c.mask }
        else
          s.effectForm c (x.effectScope c.who.core (x.queueDev q)) (.launch c.idx q u.next va) (launchRes c u.next 0)
            (fun s => s.reserveGrid xi q) (fun s => s.launchNow c.who q u.next va)

/-- LSTAT (R388). -/
def execLstat (_w : Wd) (s : State) : Host.Outcome State Fault Refusal :=
  issuing s fun c =>
    let q := (c.lowW .a).toNat
    let seq := (c.lowW .b).toNat
    match s.ctx? (s.ctxOf c.who) with
    | none => s
    | some x =>
      let r := if bitsOf q 31 6 != 0 || bitsOf seq 31 24 != 0 || x.queueCount ≤ q then 5 else (x.queues.getD q default).stat seq
      let s := if r = 2 || r = 4 then s.acquireActs c.who.core (x.effectScope c.who.core (x.queueDev q)) 0b111 else s
      s.finish c (c.status r)

/-! ## CTXNEW and CTXGRANT -/

/-- The parameters of a block (Table 17.4), but for its core list. -/
def grantParams (ws : List DWord) : GrantParams :=
  { entry := ws.getD 0 0, troot := ws.getD 1 0, wbase := ws.getD 2 0, wsize := ws.getD 3 0, cores := [], frames := blkF ws 5 63 32
    mode := blkF ws 6 1 0, flags := BitVec.ofNat 8 (blkF ws 6 7 0), prio := blkF ws 6 17 16, nq := blkF ws 6 38 32
    tagb := blkF ws 6 47 39, trsh := blkF ws 6 63 48, seed := ws.getD 7 0 }

/-- The first-level page at TROOT lies where R389 wants it: inside the window, or for a FLAT child inside the caller's grant. -/
def State.trootOk (s : State) (x : Ctx) (g : GrantParams) : Bool :=
  let a := g.troot.toNat
  a % 65536 == 0 &&
  (if g.flags.getLsbD 5 then s.inGrant x.tab false a 65536 else g.wbase.toNat ≤ a && a + 65536 ≤ g.wbase.toNat + g.wsize.toNat)

/-- A block breaks Table 17.4, MODE apart; `regrant`: the rules of CTXGRANT for words 0 and 7. -/
def State.grantBad (s : State) (x : Ctx) (ws : List DWord) (regrant : Bool) : Bool :=
  let g := grantParams ws
  let n := blkF ws 5 31 16
  blkF ws 5 15 0 != 0 || blkF ws 6 31 18 != 0 || blkF ws 6 15 8 != 0 || blkF ws 6 4 2 != 0 || n == 0 || 960 < n ||
  blkW ws 4 % 2 != 0 || g.wbase.toNat % 65536 != 0 || g.wsize.toNat % 65536 != 0 || g.wsize == 0 ||
  2 ^ 55 < g.wbase.toNat + g.wsize.toNat || g.nq == 0 || 64 < g.nq || g.tagb == 0 || 256 < g.tagb || !s.trootOk x g ||
  (regrant && (g.entry != 0 || (!g.flags.getLsbD 5 && g.seed != 0)))

/-- The core list of a block, as logical numbers. -/
def State.readCores (s : State) (c : Issue) (n va : Nat) : Fetch (List Nat) :=
  match s.readPieces c 2 n va with
  | .ok s bs => .ok s ((List.range n).map fun k => bytesVal ((bs.drop (2 * k)).take 2))
  | .wait s => .wait s
  | .fault f => .fault f

/-- MODE of R389: R28, or MODE = 3. -/
def modeBad (g : GrantParams) : Bool := modeRefused g.mode g.nq ((g.cores.map dieOf).eraseDups)

/-- Reserve a grant for a thread. -/
def State.holdGrant (s : State) (x idx : Nat) (who : Who) (g : GrantParams) : State :=
  s.modCtx x fun c => { c with held := c.held ++ [(who, idx, g)] }

/-- The result of a refused CTXNEW. -/
def refuseNew (c : Issue) (st : CtxStatus) : List Lanes := c.status (0xFFFF0000 + st.num)

/-- CTXNEW (R389). -/
def execCtxnew (_w : Wd) (s : State) : Host.Outcome State Fault Refusal :=
  issuing s fun c =>
    let xi := s.ctxOf c.who
    match s.ctx? xi with
    | none => s
    | some x =>
      if 3 ≤ x.depth then s.finish c (refuseNew c .depth)
      else match s.readBlock c (c.lowD .a .ax) with
        | .wait s => s
        | .fault f => s.faultIssue c f
        | .ok s ws =>
          if s.grantBad x ws false then s.finish c (refuseNew c .malformed)
          else match s.readCores c (blkF ws 5 31 16) (blkW ws 4) with
            | .wait s => s
            | .fault f => s.faultIssue c f
            | .ok s l =>
              match x.physCores l with
              | none => s.finish c (refuseNew c .cores)
              | some cores =>
                let g := { grantParams ws with cores }
                if modeBad g then s.finish c (refuseNew c .mode)
                else if s.overGrant x 0 g then s.finish c (refuseNew c .grant)
                else match s.freeIndex with
                  | none => s.finish c (refuseNew c .noCtx)
                  | some i =>
                    s.effectForm c (x.childScope c.who.core cores) (.ctxnew c.idx i g) (c.status (tabGet 0 i s.gens * 65536 + i))
                      (fun s => s.holdGrant xi i c.who g) (fun s => .done (s.createChild xi i g))

/-- The child of a caller an identifier names, or the status that refuses it. -/
def State.childById (s : State) (x : Nat) (id : Word) : Except CtxStatus Ctx :=
  match s.descendantById x id with
  | none => .error .notDesc
  | some t => if t.parent != some x then .error .notDesc else if t.st == .killing then .error .killing else .ok t

/-- The status of a regrant that the block and the core list allow (R390): a grant equal to the present one is DONE before anything is
judged, and one that lowers FRAMES is SHRINK, whatever the charge (R441, log 37). R390 names no refusal by R28, so a DIES child may be
spread over more dies than it has queues; it then has no queue per device (log 37). -/
def State.regrantStatus (s : State) (x t : Ctx) (g : GrantParams) : CtxStatus :=
  if g == { t.params with entry := 0 } then .done
  else if g.frames < t.frames || g.cores.length < t.cores.length || g.nq < t.nq || g.tagb < t.tagb || g.trsh < t.trsh || g.prio < t.prio ||
      g.wsize.toNat < t.wsize || g.wbase.toNat != t.wbase then .shrink
  else if g.flags != t.flags then .mode
  else if g.cores != t.cores && t.running != 0 then .busy
  else if s.overGrant x t.idx g then .grant
  else .done

/-- CTXGRANT (R390). -/
def execCtxgrant (_w : Wd) (s : State) : Host.Outcome State Fault Refusal :=
  issuing s fun c =>
    let xi := s.ctxOf c.who
    match s.ctx? xi, s.childById xi (c.lowW .b) with
    | none, _ => s
    | _, .error e => s.finish c (c.status e.num)
    | some x, .ok t =>
      if !s.lockFree t.idx c.who then s
      else match s.readBlock c (c.lowD .a .ax) with
        | .wait s => s
        | .fault f => s.faultIssue c f
        | .ok s ws =>
          if s.grantBad x ws true then s.finish c (c.status CtxStatus.malformed.num)
          else match s.readCores c (blkF ws 5 31 16) (blkW ws 4) with
            | .wait s => s
            | .fault f => s.faultIssue c f
            | .ok s l =>
              match x.physCores l with
              | none => s.finish c (c.status CtxStatus.cores.num)
              | some cores =>
                let g := { grantParams ws with cores }
                match s.regrantStatus x t g with
                | .done =>
                  s.effectForm c (x.childScope c.who.core cores) (.ctxgrant c.idx t.idx g) (c.status 0)
                    (fun s => (s.holdGrant xi t.idx c.who g).takeLock t.idx c.who) (fun s => .done (s.applyGrant t.idx g))
                | e => s.finish c (c.status e.num)

/-! ## CTXREVOKE and CTXKILL -/

/-- The rules of Table 17.5 that need no core list. -/
def revokeBad (t : Ctx) (ws : List DWord) : Bool :=
  let rb := blkW ws 2
  let rs := blkW ws 3
  !blkZero ws 5 || blkW ws 4 % 8 != 0 || blkF ws 1 15 7 != 0 || rs % 65536 != 0 || t.wsize ≤ rs ||
  (rs != 0 && rb != t.wbase && rb + rs != t.wbase + t.wsize) ||
  (blkF ws 1 63 32 != 0xFFFFFFFF && t.frames < blkF ws 1 63 32) || t.cores.length ≤ blkF ws 1 31 16 ||
  (blkF ws 1 31 16 != 0 && blkW ws 0 % 2 != 0)

/-- The devices a context has left on its remaining cores. -/
def Ctx.devicesOn (x : Ctx) (cores : List Nat) : Nat := ({ x with cores } : Ctx).devices

/-- CTXREVOKE (R391). -/
def execCtxrevoke (_w : Wd) (s : State) : Host.Outcome State Fault Refusal :=
  issuing s fun c =>
    let xi := s.ctxOf c.who
    match s.ctx? xi, s.childById xi (c.lowW .b) with
    | none, _ => s
    | _, .error e => s.finish c (c.status e.num)
    | some x, .ok t =>
      if !s.lockFree t.idx c.who then s
      else match s.readBlock c (c.lowD .a .ax) with
        | .wait s => s
        | .fault f => s.faultIssue c f
        | .ok s ws =>
          if revokeBad t ws then s.finish c (c.status CtxStatus.malformed.num)
          else match s.readCores c (blkF ws 1 31 16) (blkW ws 0) with
            | .wait s => s
            | .fault f => s.faultIssue c f
            | .ok s l =>
              match (x.physCores l).filter fun p => p.all t.cores.contains with
              | none => s.finish c (c.status CtxStatus.cores.num)
              | some cores =>
                let nq := blkF ws 1 6 0
                if nq < t.devicesOn (t.cores.filter fun k => !cores.contains k) || t.nq < nq then s.finish c (c.status CtxStatus.malformed.num)
                else if t.revoke.isSome then s.finish c (c.status CtxStatus.busy.num)
                else
                  let fr := blkF ws 1 63 32
                  let r : RevokeParams := { cores, nq, frames := if fr = 0xFFFFFFFF then none else some fr, rbase := blkW ws 2
                                            rsize := blkW ws 3, cwaddr := ws.getD 4 0 }
                  match c.who with
                  | .warp _ _ _ => ((s.takeLock t.idx c.who).addEff c (.ctxrevoke c.idx t.idx r)).finish c (c.status 0)
                  | .ctl _ _ => (s.applyRevoke xi t.idx r).finish c (c.status 0)

/-- A descendant an identifier names, or the status that refuses it. -/
def State.targetById (s : State) (x : Nat) (id : Word) : Except CtxStatus Ctx :=
  match s.descendantById x id with
  | none => .error .notDesc
  | some t => if t.st == .killing then .error .killing else .ok t

/-- CTXKILL (R392). -/
def execCtxkill (_w : Wd) (s : State) : Host.Outcome State Fault Refusal :=
  issuing s fun c =>
    let xi := s.ctxOf c.who
    let cw := c.lowD .b .bx
    if cw.toNat % 8 != 0 then s.faultIssue c (misFault c cw)
    else match s.targetById xi (c.lowW .a) with
      | .error e => s.finish c (c.status e.num)
      | .ok t =>
        if !s.lockFree t.idx c.who then s
        else match c.who with
          | .warp _ _ _ => ((s.takeLock t.idx c.who).addEff c (.ctxkill c.idx t.idx t.id cw)).finish c (c.status 0)
          | .ctl _ _ => (s.startKill t.idx (some xi) cw).finish c (c.status 0)

/-! ## CTXRUN -/

/-- The status of a resume (R393, R446). -/
def State.resumeStatus (s : State) (x : Nat) (t : Ctx) (b : Nat) : CtxStatus :=
  if 65535 < b then .malformed
  else if b = 0 then (if t.st == .stopped then .done else .noHalt)
  else if s.haltDying x t.idx b then .killing
  else match s.pickHalts x t.idx b with
    | (_ :: _, _) => .done
    | ([], true) => .notOwner
    | ([], false) => .noHalt

/-- What a resume does. -/
def State.resumeDo (s : State) (x target b : Nat) : State := if b = 0 then s.startCtx target else s.resumeHalts x target b

/-- CTXRUN.resume (R393). -/
def execCtxrunResume (_w : Wd) (s : State) : Host.Outcome State Fault Refusal :=
  issuing s fun c =>
    let xi := s.ctxOf c.who
    let b := (c.lowW .b).toNat
    match s.ctx? xi, s.targetById xi (c.lowW .a) with
    | none, _ => s
    | _, .error e => s.finish c (c.status e.num)
    | some x, .ok t =>
      if !s.lockFree t.idx c.who then s
      else match s.resumeStatus xi t b with
        | .done =>
          s.effectForm c (x.childScope c.who.core t.cores) (.resume c.idx t.idx b) (c.status 0)
            (fun s => s.takeLock t.idx c.who) (fun s => .done (s.resumeDo xi t.idx b))
        | e => s.finish c (c.status e.num)

/-- The codes a reflect may give (R394). -/
def reflectCode (code : Nat) : Bool := code == 0x10 || code == 0x11 || code == 0x12

/-- The status of a reflect (R394, R446). -/
def State.reflectStatus (s : State) (x : Nat) (t : Ctx) (b w : Nat) : CtxStatus :=
  if t.parent != some x || !t.isFlat then .notFlat
  else if bitsOf w 31 10 != 0 || !reflectCode (bitsOf w 7 0) || bitsOf w 9 8 == 0 || 65535 < b then .malformed
  else if b = 0 || b = 65535 then .noHalt
  else if s.haltDying x t.idx b then .killing
  else match s.pickHalts x t.idx b with
    | (_ :: _, _) => .done
    | ([], true) => .notOwner
    | ([], false) => .noHalt

/-- CTXRUN.reflect (R394). -/
def execCtxrunReflect (_w : Wd) (s : State) : Host.Outcome State Fault Refusal :=
  issuing s fun c =>
    let xi := s.ctxOf c.who
    let b := (c.lowW .b).toNat
    let w := (c.lowW .c).toNat
    match s.ctx? xi, s.targetById xi (c.lowW .a) with
    | none, _ => s
    | _, .error e => s.finish c (c.status e.num)
    | some x, .ok t =>
      if !s.lockFree t.idx c.who then s
      else match s.reflectStatus xi t b w with
        | .done =>
          s.effectForm c (x.childScope c.who.core t.cores) (.reflect c.idx t.idx b (bitsOf w 7 0) (bitsOf w 9 8)) (c.status 0)
            (fun s => s.takeLock t.idx c.who) (fun s => .done (s.reflectHalt xi t.idx b (bitsOf w 7 0) (bitsOf w 9 8)))
        | e => s.finish c (c.status e.num)

/-! ## CTXSTAT -/

/-- Requesters of a context halted on faults, those that still wait for a number included. -/
def State.haltedOf (s : State) (x : Nat) : Nat :=
  let waits (f : WaitingFault) : Bool := f.ctx == x && f.req.isSome && f.num.isNone
  let idle (r : Requester) : Bool := match r with | .write id => !(s.words.any fun w => w.id == id) | _ => false
  (s.halts.filter fun h => h.ctx == x && !idle h.req).length + (s.waitFaults.filter waits).length + natSum (s.vfs.map fun v => (v.fqWait.filter waits).length)

/-- A selector of Table 17.6. -/
def State.ctxStat (s : State) (t : Ctx) (b : Nat) : Nat :=
  match b with
  | 0 => (match t.st with | .stopped => 0 | .running => 1 | .killing => 2) + fieldAt t.depth 2 2 + fieldAt t.flags.toNat 8 8
  | 1 => t.cores.length
  | 2 => t.frames
  | 3 => s.chargeCount t.idx
  | 4 => s.haltedOf t.idx
  | 5 => t.running
  | 6 => t.tagx.toNat
  | 7 => t.splitfr.toNat
  | _ => 0xFFFFFFFF

/-- CTXSTAT (R395). -/
def execCtxstat (_w : Wd) (s : State) : Host.Outcome State Fault Refusal :=
  issuing s fun c =>
    let xi := s.ctxOf c.who
    let id := c.lowW .a
    let t := if id = 0 then s.ctx? xi else s.descendantById xi id
    s.finish c (c.status (match t with | none => 0xFFFFFFFF | some t => s.ctxStat t (c.lowW .b).toNat))

/-! ## TLBINV and FQPOP -/

/-- TLBINV (R396). -/
def execTlbinv (_w : Wd) (s : State) : Host.Outcome State Fault Refusal :=
  issuing s fun c =>
    let va := c.lowD .a .ax
    let n := (c.lowW .b).toNat
    if va.toNat % 65536 != 0 then s.faultIssue c (misFault c va)
    else match c.who with
      | .warp _ _ _ => (s.addEff c (.tlbinv c.idx va n)).finish c []
      | .ctl _ x => if s.invWaits c.who va.toNat n then s else (s.invDo x va.toNat n).finish c []

/-- The 64 bytes of a record as the four 16-byte accesses of one store. -/
def recordStore (a : Access) (ws : List DWord) : List (Access × BitVec 128) :=
  (List.range 4).map fun k =>
    ({ a with place := a.place.add (16 * k), va := a.va + BitVec.ofNat 64 (16 * k), bytes := 16 },
     toVal (((recordBytes ws).drop (16 * k)).take 16))

/-- FQPOP (R397): the oldest record is taken at fire. -/
def execFqpop (_w : Wd) (s : State) : Host.Outcome State Fault Refusal :=
  issuing s fun c =>
    let xi := s.ctxOf c.who
    let va := c.lowD .a .ax
    if va.toNat % 64 != 0 then s.faultIssue c (misFault c va)
    else match (s.ctx? xi).map (·.fq) with
      | none => s
      | some [] => s.finish c (c.status 1)
      | some (r :: rest) =>
        let one := { c with mask := maskOf [c.low] }
        match s.checkAccess one .gl .write .store 64 (fun _ => va) (fun _ => true) false with
        | .wait s => s
        | .fault f => s.faultIssue c f
        | .ok s accs =>
          let data := accs.flatMap fun a => recordStore a r
          let res := c.status (fieldAt rest.length 8 16)
          let s' := s.modCtx xi fun x => { x with fq := rest, fqHeld := x.fqHeld + 1 }
          match c.who with
          | .warp _ _ _ => (s'.addEff c (.fqpop c.idx data r)).finish c res
          | .ctl _ _ =>
            match applyLanes (fun s a v => s.applyStore c.who c.idx .rnd none a v) s data with
            | (s, []) => (((s.modCtx xi fun x => { x with fq := x.fq.drop 1 }).drainFaults).finish c res)
            | (s, _) => s

end Sys2Proof.Machine
end

