-- ==== Sys2Proof/Machine/System.lean ====
section
/-! DEFINITION. The system forms (R398 to R404, R424, R453, R469): system registers, topology, time, latency bands, the capability
list, trace, and the trap forms. -/

namespace Sys2Proof.Machine

/-! ## RDSYS and WRSYS -/

/-- The warp of a thread. -/
def State.warpOf (s : State) : Who → Option Warp
  | .warp c sl _ => s.warp? c sl
  | .ctl _ _ => none

/-- The team values an instruction reads. -/
def State.teamVals (s : State) : Who → Option TeamVals
  | .warp c sl x => (s.teamOf (.warp c sl x)).map Team.vals
  | .ctl c x => s.ctlVals c x

/-- The value of a system register (Table 17.7); registers of a grid and team read 0 outside one. -/
def State.sysReg (s : State) (who : Who) (r : SysReg) : Nat :=
  let core := who.core
  let x := s.ctx? (s.ctxOf who)
  let ctx (f : Ctx → Nat) : Nat := (x.map f).getD 0
  let team (f : Team → Nat) : Nat := ((s.teamOf who).map f).getD 0
  let vals (f : TeamVals → Nat) : Nat := ((s.teamVals who).map f).getD 0
  let warp (f : Warp → Nat) : Nat := ((s.warpOf who).map f).getD 0
  match r with
  | .devRev => 0x01
  | .ctxId => ctx fun x => x.id.toNat
  | .ctxDepth => ctx (·.depth)
  | .ctxSeed => ctx fun x => x.seed.toNat
  | .ctxTroot => ctx fun x => x.troot.toNat
  | .ctxFlags => ctx fun x => x.flags.toNat
  | .coreLid => ctx fun x => (s.seenBy x who).lcore core
  | .dieLid => ctx fun x => (s.seenBy x who).ldie core
  | .devIdx => ctx fun x => x.devIdx core
  | .gridDim => vals (·.griddim)
  | .teamDim => vals (·.tdim)
  | .teamId => vals (·.tid)
  | .gridSeq => vals fun t => fieldAt t.seq 8 24 + t.queue
  | .warpId => warp (·.wid)
  | .warpSlot => match who with | .warp _ sl _ => sl | .ctl _ _ => 0
  | .spBase => vals (·.spBase)
  | .toff => ctx fun x => x.toff.toNat
  | .trapCause => warp fun w => w.cause.toNat
  | .trapBlock => warp fun w => w.tblock.toNat
  | .trapMask => warp fun w => w.tlanes.toNat
  | .trapEntry => team fun t => t.trapEntry.toNat
  | .tagx => ctx fun x => x.tagx.toNat
  | .splitfr => ctx fun x => x.splitfr.toNat
  | .barstr => ctx fun x => x.barstr.toNat

/-- RDSYS (R398). -/
def execRdsys (_w : Wd) (sel : BitVec 16) (s : State) : Host.Outcome State Fault Refusal :=
  issuing s fun c =>
    match SysReg.ofSel sel with
    | none => s.faultIssue c { code := .illegalInstr, mask := c.mask }
    | some r =>
      let v := s.sysReg c.who r
      s.finish c (if r.wide then c.res64 fun _ => BitVec.ofNat 64 v else c.status v)

/-- The fault of a WRSYS of CTX.TROOT (R398, R69), or none. No walk has stopped in a table: STAGE of the record is the context's own depth
and SHADOW 0, which the spec does not say (log 59). -/
def State.trootFault (s : State) (c : Issue) (x : Ctx) (v : DWord) : Option FaultInfo :=
  if x.isFlat then
    if v = x.troot then none else some { code := .tableWrite, mask := c.mask, oaddr := v, raddr := v, stage := x.depth, acc := .write }
  else if v.toNat % 65536 == 0 && s.inGrant x.tab false v.toNat 65536 then none
  else some { code := .grantExceeded, recv := if x.parent.isNone then .host else .parent, mask := c.mask, oaddr := v, raddr := v, stage := x.depth, acc := .write }

/-- A WRSYS takes effect; that of CTX.TROOT removes every translation of the caller and its descendants first. -/
def State.wrsysDo (s : State) (who : Who) (r : SysReg) (v : DWord) : RelSt :=
  let x := s.ctxOf who
  match r with
  | .ctxTroot =>
    if s.invWaits who 0 0 then .wait s
    else .done ((s.modCtx x fun c => { c with troot := v }).invDo x 0 0)
  | .trapEntry =>
    .done (match s.teamOf who with
      | none => s
      | some t => s.modTeam who.core t.id fun t => { t with trapEntry := v })
  | _ => .done s

/-- WRSYS (R398): the value of the lowest lane. -/
def execWrsys (_w : Wd) (sel : BitVec 16) (s : State) : Host.Outcome State Fault Refusal :=
  issuing s fun c =>
    match SysReg.ofSel sel, s.ctx? (s.ctxOf c.who) with
    | some r, some x =>
      let v : DWord := if r.wide then c.lowD .a .ax else (c.lowW .a).setWidth 64
      match (if r == .ctxTroot then s.trootFault c x v else none) with
      | some f => s.faultIssue c f
      | none =>
        match c.who with
        | .warp _ _ _ => (s.addEff c (.wrsys c.idx r v)).finish c []
        | .ctl _ _ =>
          match s.wrsysDo c.who r v with
          | .wait s => s
          | .done s => s.finish c []
    | _, _ => s.faultIssue c { code := .illegalInstr, mask := c.mask }

/-! ## TOPO, TIME, LATBAND, CAPW -/

/-- A selector of Table 17.8. -/
def State.topoValue (s : State) (x : Ctx) (core sel : Nat) : Nat :=
  let ds := x.dies
  let (c0, w) := colSpan ds
  let (r0, h) := rowSpan ds
  if sel = 0 then s.dev.grade
  else if sel = 1 then w + fieldAt h 16 16
  else if sel = 2 then ds.length
  else if sel = 3 then x.cores.length
  else if sel = 4 then x.lcore core
  else if sel = 5 then x.ldie core
  else if sel = 6 then x.mode + fieldAt x.devices 8 8 + fieldAt (x.devIdx core) 16 8
  else
    match ds[sel % 0x80]? with
    | none => 0
    | some d =>
      if sel < 0x180 then (x.cores.filter fun c => dieOf c == d && s.enabled c).length
      else seracCol d - c0 + fieldAt (d % 4 - r0) 16 16

/-- TOPO (R399). -/
def execTopo (_w : Wd) (sel : BitVec 16) (s : State) : Host.Outcome State Fault Refusal :=
  issuing s fun c =>
    match s.ctx? (s.ctxOf c.who) with
    | none => s
    | some x => s.finish c (c.status (s.topoValue x c.who.core sel.toNat))

/-- TIME (R400): the die's counter plus TOFF. -/
def execTime (_w : Wd) (s : State) : Host.Outcome State Fault Refusal :=
  issuing s fun c =>
    let off : DWord := ((s.ctx? (s.ctxOf c.who)).map (·.toff)).getD 0
    s.finish c (c.res64 fun _ => BitVec.ofNat 64 (s.counter (dieOf c.who.core)) + off)

/-- The LATBAND word of a port as the firmware writes it at bring-up (R401): bit 31 for an existing port, and its three
latencies (log 4). -/
def latbandWord (die port : Nat) : Word :=
  if portExists die (Stitch.all.getD port .n) then 0x80000000 ||| (Config.latBand die port).setWidth 32 else 0

/-- LATBAND (R401): the table's word of the caller's die. -/
def execLatband (_w : Wd) (s : State) : Host.Outcome State Fault Refusal :=
  issuing s fun c =>
    let a := (c.lowW .a).toNat
    let row := s.dev.latband.find? fun q => q.1 == dieOf c.who.core && q.2.1 == a
    s.finish c (c.res32 fun _ => (row.map (·.2.2)).getD 0)

/-- An entry word of the capability list (Table 21.3). -/
def capEntry (id len data : Nat) : DWord := BitVec.ofNat 64 (id + fieldAt len 16 8 + fieldAt 1 24 8 + fieldAt data 32 32)

/-- The granted cores, queues and frames that a function's capability list reports: its root's, or its profile's. -/
def State.vfGrant (s : State) (vf : Nat) : Nat × Nat × Nat :=
  match (s.vf vf).root.bind s.ctx? with
  | some r => (r.cores.length, r.nq, r.frames)
  | none => match (s.vf vf).profile with
    | some (_, p) => (p.cores.length, p.nq, 0)
    | none => (0, 0, 0)

/-- The capability list of a function (R469): header, entries 1 to 5, the end. -/
def State.capList (s : State) (vf : Nat) : List DWord :=
  let ports := match (s.vf vf).profile with | some (p, _) => 2 * (s.dev.parts.getD p ⟨0, 0⟩).width | none => 0
  let (cores, nq, frames) := s.vfGrant vf
  [ BitVec.ofNat 64 (0x01 + fieldAt s.dev.grade 8 8 + fieldAt 8 32 32), capEntry 1 1 1, capEntry 2 1 16, capEntry 3 1 ports
  , capEntry 4 1 (s.vf vf).atomicReq.toNat, capEntry 5 2 (cores + fieldAt nq 16 16), BitVec.ofNat 64 frames, capEntry 0xFFFF 1 0 ]

/-- CAPW (R402). -/
def execCapw (_w : Wd) (s : State) : Host.Outcome State Fault Refusal :=
  issuing s fun c =>
    let o := (c.lowW .a).toNat
    let l := s.capList (s.vfOf (s.ctxOf c.who))
    s.finish c (c.res64 fun _ => if o % 8 != 0 then 0 else l.getD (o / 8) 0)

/-! ## TRACE and the trap forms -/

/-- TRACE (R403). -/
def execTrace (_w : Wd) (s : State) : Host.Outcome State Fault Refusal :=
  issuing s fun c =>
    match c.who with
    | .warp _ _ _ => (s.addEff c (.trace c.idx (c.lowW .a))).finish c []
    | .ctl _ _ =>
      match s.traceAppend c.who (c.lowW .a) with
      | .wait s => s
      | .done s => s.finish c []

/-- TMASK.mask (R404, R424). -/
def execTmaskMask (_w : Wd) (s : State) : Host.Outcome State Fault Refusal :=
  issuing s fun c => (s.addEff c (.tmask c.idx true)).finish c []

/-- TMASK.unmask (R404, R424). -/
def execTmaskUnmask (_w : Wd) (s : State) : Host.Outcome State Fault Refusal :=
  issuing s fun c => (s.addEff c (.tmask c.idx false)).finish c []

/-- TRET (R404, R422): the frame is popped at commit, and the lanes go to RESUME. -/
def execTret (_w : Wd) (s : State) : Host.Outcome State Fault Refusal :=
  issuing s fun c => (s.addEff c (.tret c.idx c.mask)).finish c []

end Sys2Proof.Machine
end

