-- ==== Sys2Proof/Machine/Effects.lean ====
section
/-! DEFINITION. The buffered effects of a block instance: applying them at its commit (R115, R206), what its commit waits
for, returning what it reserved when it is discarded (R206, R219, R372, R386), and dropping lanes (R212). -/

namespace Sys2Proof.Machine

/-! ## Order of effects -/

/-- The index of the instruction an effect belongs to. -/
def Eff.idx : Eff → Nat
  | .release i _ _ | .acquire i _ _ | .store i _ _ _ | .red i _ _ _ _ | .engine i _ | .setr i _ _ _ _ _ | .choose i _ | .tret i _ | .send i _ _ _
  | .chresize i _ _ | .bar i | .gbar i | .nbjoin i _ _ _ | .nbarrive i _ _ | .nbsync i _ _ | .nbwaited i _ | .evsig i _
  | .mxfeed i _ _ _ _ _ | .mxzero i _ _ | .commnew i _ _ _ _ _ | .commfree i _ | .launch i _ _ _ | .launchFull i | .ctxnew i _ _
  | .ctxgrant i _ _ | .ctxrevoke i _ _ | .ctxkill i _ _ _ | .resume i _ _ | .reflect i _ _ _ _ | .tlbinv i _ _ | .fqpop i _ _
  | .wrsys i _ _ | .trace i _ | .tmask i _ => i

/-- When an effect is applied: 0 with the stores, in ascending index (R115); 1 after them; 2 for arrivals at barriers,
which come last; none for what the end of the commit does (registers and successors). -/
def Eff.phase : Eff → Option Nat
  | .release _ _ _ | .acquire _ _ _ | .store _ _ _ _ | .red _ _ _ _ _ | .fqpop _ _ _ => some 0
  | .bar _ | .gbar _ | .nbjoin _ _ _ _ | .nbarrive _ _ _ | .nbsync _ _ _ => some 2
  | .setr _ _ _ _ _ _ | .choose _ _ | .tret _ _ | .launchFull _ => none
  | _ => some 1

/-- A class 1 arrival of the team, or of the gang. -/
def Eff.class1 : Eff → Option Bool
  | .bar _ => some false
  | .gbar _ => some true
  | _ => none

/-- A warp arrives at a class 1 barrier once at a commit, however many BARs or GBARs have fired (R236). -/
def onceArrived : List Eff → List Eff
  | [] => []
  | e :: l => e :: (onceArrived l).filter fun q => q.class1.isNone || q.class1 != e.class1

/-- The effects of an instance in the order its commit applies them. -/
def Inst.work (i : Inst) : List Eff :=
  let part (n : Nat) : List Eff := sortBy (fun a b => decide (a.idx ≤ b.idx)) (i.effs.filter fun e => e.phase == some n)
  part 0 ++ part 1 ++ onceArrived (part 2)

/-- The effects that the end of the commit applies. -/
def Inst.rest (i : Inst) : List Eff := sortBy (fun a b => decide (a.idx ≤ b.idx)) (i.effs.filter fun e => e.phase.isNone)

/-! ## Applying one effect -/

/-- What applying an effect leaves: done, or what is left of it while the commit waits. -/
structure EffStep where
  s    : State
  left : Option Eff := none

/-- A form's release, then its effect. -/
def State.afterRelease (s : State) (who : Who) (scope : Scope) (e : Eff) (f : State → RelSt) : EffStep :=
  match s.releaseActs who.core (s.vfOf (s.ctxOf who)) scope 0b111 with
  | .wait s => ⟨s, some e⟩
  | .done s =>
    match f s with
    | .wait s => ⟨s, some e⟩
    | .done s => ⟨s, none⟩

/-- Change the named barrier of a warp's team, and note the phase of its arrivals (R241); arrivals that a STRANDED barrier ignores,
one stranded by the change itself included, have none (Table 10.4). -/
def State.nbGive (s : State) (core slot b n : Nat) (f : NBar → NBar) : State :=
  match (s.warp? core slot) with
  | none => s
  | some w =>
    let ph := ((((s.core core).team? w.team).bind fun t => t.nbs[b]?).map f).bind fun x => if x.stranded then none else some (x.phaseOf n)
    let s := s.modNBar core w.team b fun x => (f x).arrive (.warp slot) n
    match ph with
    | some p => if n = 0 then s else s.modWarp core slot fun w => { w with nbLast := tabPut b p w.nbLast }
    | none => s

/-- The warp waits for the phase of the arrivals it has just given, and for those of its other NBSYNCs (R241); a barrier stranded
since the firing releases it with BARRIER_STRANDED at its next boundary. An NBSYNC that gives no arrival (R345) has no phase to wait
for: the model has it wait for nothing (log 61). -/
def State.nbAwait (s : State) (core slot b n : Nat) : State :=
  match (s.warp? core slot).bind fun w => ((s.core core).team? w.team).bind fun t => t.nbs[b]? with
  | none => s
  | some x =>
    if n = 0 then s
    else
      s.modWarp core slot fun w =>
        let ph := if x.stranded then some x.ph else tabFind b w.nbLast
        { w with nbsync := w.nbsync ++ (ph.map fun p => (b, p)).toList, nbLast := if x.stranded then w.nbLast else tabDel b w.nbLast }

/-- The scope of a context form's release, by the cores of the context it acts on (R386). -/
def State.formScope (s : State) (who : Who) (target : Nat) : Scope :=
  match s.ctx? (s.ctxOf who), s.ctx? target with
  | some x, some t => x.childScope who.core t.cores
  | _, _ => .dev

/-- APPLY one effect of a warp's instance. -/
def State.stepEff (s : State) (core slot itag : Nat) (e : Eff) : EffStep :=
  let who : Who := .warp core slot itag
  let x := s.ctxOf who
  let done (s : State) : EffStep := ⟨s, none⟩
  let wait (s : State) : EffStep := ⟨s, some e⟩
  match e with
  | .release _ scope mask =>
    match s.releaseActs core (s.vfOf x) scope mask with
    | .wait s => wait s
    | .done s => done s
  | .acquire _ scope mask => done (s.acquireActs core scope mask)
  | .store idx cls accs thru =>
    match applyLanes (fun s a v => s.applyStore who idx cls thru a v) s accs with
    | (s, []) => if s.storeInFlight who idx then ⟨s, some (.store idx cls [] thru)⟩ else done s
    | (s, l) => ⟨s, some (.store idx cls l thru)⟩
  | .red idx op aw cls accs =>
    match applyLanes (fun s a v => s.applyRed who idx op cls a v) s accs with
    | (s, []) => if s.storeInFlight who idx then ⟨s, some (.red idx op aw cls [])⟩ else done s
    | (s, l) => ⟨s, some (.red idx op aw cls l)⟩
  | .fqpop idx accs r =>
    match applyLanes (fun s a v => s.applyStore who idx .rnd none a v) s accs with
    | (s, []) =>
      if s.storeInFlight who idx then ⟨s, some (.fqpop idx [] r)⟩
      else done ((s.modCtx x fun c => { c with fqHeld := c.fqHeld - 1 }).drainFaults)
    | (s, l) => ⟨s, some (.fqpop idx l r)⟩
  | .engine _ r =>
    match s.issueEngine who r with
    | .wait s => wait s
    | .done s => done s
  | .send _ chan mask val =>
    if (s.chan who chan).room then done (s.modChanOf who chan fun ch => ch.push mask val) else wait s
  | .chresize _ chan depth =>
    if (s.chan who chan).idle then done (s.modChanOf who chan fun ch => { ch with depth, resizes := ch.resizes.erase depth }) else wait s
  | .bar _ => s.afterRelease who .team e fun s => .done (match s.warp? core slot with | none => s | some w => s.arriveBar core slot w.team)
  | .gbar _ => s.afterRelease who .die e fun s => .done (match s.teamOf who with | none => s | some t => s.arriveGbar core slot t)
  | .nbjoin _ b p n => s.afterRelease who .team e fun s => .done (s.nbGive core slot b n fun q => q.join (.warp slot) p)
  | .nbarrive _ b n => s.afterRelease who .team e fun s => .done (s.nbGive core slot b n id)
  | .nbsync _ b n => s.afterRelease who .team e fun s => .done ((s.nbGive core slot b n id).nbAwait core slot b n)
  | .nbwaited _ b => done (s.modWarp core slot fun w => { w with nbLast := tabDel b w.nbLast })
  | .evsig _ n => s.afterRelease who (s.eventScope x) e fun s => .done (s.signal x n)
  | .mxfeed _ slot part fmt ea data =>
    done (s.modCore core fun k => { k with mx := { k.mx with slots := listMod k.mx.slots slot fun q => q.write part fmt ea data } })
  | .mxzero _ r0 n =>
    let mx := (s.core core).mx
    if !mx.queue.isEmpty then wait s
    else done (match mx.arr with
      | some a => if mx.holder == some x then s.zeroRows core (arrangement a) r0 n else s
      | none => s)
  | .commnew _ h key nranks rank members => done (s.joinComm x h key nranks rank members)
  | .commfree _ h => if (s.handle x h).open_ = 0 then done (s.freeHandle x h) else wait s
  | .launch _ q seq va =>
    let scope := ((s.ctx? x).map fun c => c.effectScope core (c.queueDev q)).getD .dev
    s.afterRelease who scope e fun s => s.launchDo who q seq va
  | .ctxnew _ child g =>
    let scope := ((s.ctx? x).map fun c => c.childScope core g.cores).getD .dev
    s.afterRelease who scope e fun s => .done (s.createChild x child g)
  | .ctxgrant _ child g =>
    let scope := ((s.ctx? x).map fun c => c.childScope core g.cores).getD .dev
    s.afterRelease who scope e fun s => .done (s.applyGrant child g)
  | .ctxrevoke _ child r => done (s.applyRevoke x child r)
  | .ctxkill _ t id cw => done (s.killNamed x t id cw)
  | .resume _ t b => s.afterRelease who (s.formScope who t) e fun s => .done (s.resumeDo x t b)
  | .reflect _ t b code level => s.afterRelease who (s.formScope who t) e fun s => .done (s.reflectHalt x t b code level)
  | .tlbinv _ va n => if s.invWaits who va.toNat n then wait s else done (s.invDo x va.toNat n)
  | .wrsys _ r v =>
    match s.wrsysDo who r v with
    | .wait s => wait s
    | .done s => done s
  | .trace _ v =>
    match s.traceAppend who v with
    | .wait s => wait s
    | .done s => done s
  | .tmask _ set => done (s.modWarp core slot fun w => { w with trapMask := set })
  | .setr _ _ _ _ _ _ | .choose _ _ | .tret _ _ | .launchFull _ => done s

/-- Apply effects in order until one has to wait: the effects that are left. -/
def State.runEffs (core slot itag : Nat) : State → List Eff → State × List Eff
  | s, [] => (s, [])
  | s, e :: rest =>
    let r := s.stepEff core slot itag e
    match r.left with
    | none => State.runEffs core slot itag r.s rest
    | some e' => (r.s, e' :: rest)

/-! ## What a commit waits for before it begins -/

/-- Entries an instance sends to a channel. -/
def Inst.sends (i : Inst) (chan : Nat) : Nat :=
  (i.effs.filter fun e => match e with | .send _ c _ _ => c == chan | _ => false).length

/-- Another commit of the team has still to append entries to a channel: those of one commit enter the FIFO together (R219). -/
def State.pushing (s : State) (core team slot chan : Nat) : Bool :=
  (s.core core).warps.any fun p => p.1 != slot && p.2.team == team && p.2.insts.any fun i => i.st == .committing && 0 < i.sends chan

/-- Everything that the commit of an instance may have to wait for without having begun is there: FIFOs that are not full, into which
no other commit is appending (R219), entries of mailbox buffers (R50), idle channels to resize (R351), flag counts (R248), room in the engine queues (R354), a drained matrix queue (R375), and no
COLL outstanding on a handle to free (R379). -/
def State.commitReady (s : State) (core slot : Nat) (i : Inst) : Bool :=
  let who : Who := .warp core slot i.itag
  let engines (p : EngReq → Bool) : Nat := (i.effs.filter fun e => match e with | .engine _ r => p r | _ => false).length
  let places := i.effs.flatMap fun e => match e with | .store _ _ accs _ => accs.map fun q => q.1.place | _ => []
  s.mailRoom places && i.effs.all fun e => match e with
    | .send _ c _ _ => (s.chan who c).room && (s.warp? core slot).all fun w => !s.pushing core w.team slot c
    | .chresize _ c _ => (s.chan who c).idle
    | .engine _ r =>
      let flag (q : EngReq) : Option Nat := if q.kind.flagged then s.flagFor who q.fsel else none
      s.queueRoom core r.kind && !s.flagFull who (flag r) (engines fun q => flag q == flag r)
    | .mxzero _ _ _ => (s.core core).mx.queue.isEmpty
    | .commfree _ h => (s.handle (s.ctxOf who) h).open_ == 0
    | _ => true

/-! ## Discarding (R206) -/

/-- Return what one buffered effect reserved at fire. -/
def State.undoEff (s : State) (core slot itag : Nat) (e : Eff) : State :=
  let who : Who := .warp core slot itag
  let x := s.ctxOf who
  match e with
  | .chresize _ c d => s.modChanOf who c fun ch => { ch with resizes := ch.resizes.erase d }
  | .mxfeed _ n part fmt ea _ =>
    s.modCore core fun k => { k with mx := { k.mx with slots := listMod k.mx.slots n fun q => q.giveBack part fmt ea } }
  | .commnew _ h _ _ _ _ => s.modHandle x h fun q => if q.st == .reserved then {} else q
  | .launch _ q seq _ => s.returnGrid x q seq
  | .fqpop _ _ r =>
    -- a record of a context that has been taken apart since does not return (R446)
    let live := s.ctxs.any fun y => y.id == highHalf (r.getD 1 0) && y.dying.isNone
    s.modCtx x fun c => { c with fq := if live then r :: c.fq else c.fq, fqHeld := c.fqHeld - 1 }
  | _ => s

/-- Reservations of an instance end (R151). -/
def State.dropInstReserves (s : State) (core slot itag : Nat) : State :=
  let keep (l : List Reserve) : List Reserve := l.filter fun r => !(r.core == core && r.slot == slot && r.ctl.isNone && r.inst == some itag)
  { s with
    firns := s.firns.map fun (p : Nat × Firn) => (p.1, { p.2 with monitor := keep p.2.monitor })
    cores := s.cores.map fun (p : Nat × Core) => (p.1, { p.2 with monitor := keep p.2.monitor }) }

/-- A request belongs to a load of a thread. -/
def ReqKind.loadOf (k : ReqKind) (who : Who) : Bool :=
  match k with
  | .read w _ _ _ _ _ | .wload w _ _ _ _ _ | .data w _ _ _ => w == who
  | _ => false

/-- A request belongs to a load of a thread for a lane outside a mask. -/
def ReqKind.loadOutside (k : ReqKind) (who : Who) (keep : Mask) : Bool :=
  match k with
  | .read w _ l _ _ _ | .wload w _ l _ _ _ | .data w _ l _ => w == who && !keep.getLsbD l
  | _ => false

/-- An atomic of an instance has been sent and has not returned. -/
def State.atomicOut (s : State) (who : Who) : Bool :=
  s.reqs.any fun r => match r.kind with
    | .atomic w _ _ _ _ _ _ _ true | .reply w _ _ _ => w == who
    | _ => false

/-- Waiters of an instance leave the miss queues. -/
def State.dropWaiters (s : State) (who : Who) : State :=
  let mine (w : Waiter) : Bool := match w with | .instr v _ _ => v == who | _ => false
  let q (l : List Miss) : List Miss := l.map fun m => { m with waiters := m.waiters.filter fun w => !mine w.1 }
  { s with dies := s.dies.map fun (p : Nat × Die) => (p.1, { p.2 with missq := q p.2.missq }) }

/-- DISCARD an instance with nothing reported: what it reserved returns, its loads in flight are forgotten, its tag is
purged, and it is gone. -/
def State.dropInst (s : State) (core slot itag : Nat) : State :=
  match s.warp? core slot with
  | none => s
  | some w =>
    match w.inst? itag with
    | none => s
    | some i =>
      let who : Who := .warp core slot itag
      let s := i.effs.reverse.foldl (fun s e => s.undoEff core slot itag e) s
      let s := s.modTeam core w.team fun t => { t with chans := i.returnTaken t.chans }
      let s := ((s.dropHeld who).dropInstReserves core slot itag).dropWaiters who
      let s := { s with reqs := s.reqs.filter fun r => !r.kind.loadOf who }
      let s := s.modCore core fun k => k.purge slot itag
      s.modWarp core slot fun w => { w with insts := w.insts.filter fun q => q.itag != itag, skips := if i.skipTrap && i.exit.isNone then w.skips ++ [(i.block, i.mask)] else w.skips }

/-- Squash the instances of a warp that satisfy a test, youngest first. -/
def State.squash (s : State) (core slot : Nat) (p : Inst → Bool) : State :=
  match s.warp? core slot with
  | none => s
  | some w => (w.insts.filter p).reverse.foldl (fun s i => s.dropInst core slot i.itag) s

/-! ## Dropping lanes (R212) -/

/-- Row bytes without the words of lanes that are not kept. -/
def keepRow (keep : Mask) (bs : List (BitVec 8)) : List (BitVec 8) :=
  bs.zipIdx.map fun q => if keep.getLsbD (q.2 / 4) then q.1 else 0

/-- An effect with only the lanes of a mask. -/
def Eff.keepLanes (keep : Mask) (e : Eff) : Option Eff :=
  match e with
  | .store i c accs t => some (.store i c (accs.filter fun q => keep.getLsbD q.1.lane) t)
  | .red i o w c accs => some (.red i o w c (accs.filter fun q => keep.getLsbD q.1.lane))
  | .setr i r w64 m lo hi => some (.setr i r w64 (m &&& keep) lo hi)
  | .choose i ls => some (.choose i (ls.filter fun q => keep.getLsbD q.1))
  | .send i c m v => if m &&& keep = 0 then none else some (.send i c (m &&& keep) v)
  | .mxfeed i n p f ea d => some (.mxfeed i n p f ea (keepRow keep d))
  | e => some e

/-- The lanes an instruction of an instance fired with. -/
def Inst.firedWith (i : Inst) (idx : Nat) : Mask := ((i.fires.find? fun q => q.1 == idx).map (·.2)).getD i.mask

/-- Every lane that made an effect is dropped. -/
def Inst.loses (i : Inst) (keep : Mask) (e : Eff) : Bool := i.firedWith e.idx &&& keep == 0

/-- The loads of the lanes of an instance outside a mask end: their requests, their waits in the miss queues, and the reservations
they have set (R212). -/
def State.dropLoads (s : State) (core slot itag : Nat) (keep : Mask) : State :=
  let who : Who := .warp core slot itag
  let waiter (w : Waiter × DWord × AccKind) : Option (Waiter × DWord × AccKind) :=
    match w.1 with
    | .instr v i ls =>
      let ls' := if v == who then ls.filter fun q => keep.getLsbD q.1 else ls
      if ls'.isEmpty then none else some (.instr v i ls', w.2)
    | _ => some w
  let kept (l : List Reserve) : List Reserve := l.filter fun r =>
    !(r.core == core && r.slot == slot && r.ctl.isNone && r.inst == some itag && !keep.getLsbD r.lane)
  { s with
    reqs := s.reqs.filter fun r => !r.kind.loadOutside who keep
    dies := s.dies.map fun (p : Nat × Die) => (p.1, { p.2 with missq := p.2.missq.map fun m => { m with waiters := m.waiters.filterMap waiter } })
    firns := s.firns.map fun (p : Nat × Firn) => (p.1, { p.2 with monitor := kept p.2.monitor })
    cores := s.cores.map fun (p : Nat × Core) => (p.1, { p.2 with monitor := kept p.2.monitor }) }

/-- What iterations reserved in lanes that are all dropped returns: entries of channels, row parts, handles, depths. -/
def State.undoDropped (s : State) (core slot : Nat) (keep : Mask) (i : Inst) : State :=
  let s := (i.effs.reverse.filter (i.loses keep)).foldl (fun s e => s.undoEff core slot i.itag e) (s.dropLoads core slot i.itag keep)
  match s.warp? core slot with
  | none => s
  | some w => s.modTeam core w.team fun t => { t with chans := { i with taken := i.taken.filter fun q => q.2.1 &&& keep == 0 }.returnTaken t.chans }

/-- An iteration loses the lanes that are not kept; a fault recorded for dropped lanes alone makes it run again. -/
def Inst.dropLanes (i : Inst) (keep : Mask) : Inst :=
  { i with
    mask := i.mask &&& keep
    effs := (i.effs.filter fun e => !i.loses keep e).filterMap (Eff.keepLanes keep)
    taken := i.taken.filter fun q => q.2.1 &&& keep != 0
    pends := i.pends.map fun p => { p with mask := p.mask &&& keep, lanes := p.lanes.filter fun l => keep.getLsbD l.acc.lane }
    squash := i.squash || i.mask &&& keep = 0 || i.exit.any fun f => f.mask != 0 && f.mask &&& keep = 0
    exit := i.exit.map fun f => f.keepLanes keep }

end Sys2Proof.Machine
end

