-- ==== Sys2Proof/Machine/Commit.lean ====
section
/-! DEFINITION. The block boundary (R200, R205 to R214, R228 to R238, R420 to R426): a block's exit, its commit, its discard, the
choice of the split that runs next, and the traps due at a boundary. -/

namespace Sys2Proof.Machine

/-! ## Table entries -/

/-- The split the warp is running. -/
def Warp.runSplit (w : Warp) : Option SEntry := w.run.bind fun n => w.splits[n]?

/-- The place of the running split among the entries. -/
def Warp.runIndex (w : Warp) : Nat := w.run.getD 0

/-- The launch record of a warp's team. -/
def State.lrecOf (s : State) (core slot : Nat) : LaunchRec :=
  (((s.warp? core slot).bind fun w => (s.core core).team? w.team).map (·.lrec)).getD {}

/-! ## The spill area and the call area (R235, R288, R408) -/

/-- The address of an entry of the spill area (R408). -/
def spillAddr (r : LaunchRec) (gwn k : Nat) : DWord := r.spill + BitVec.ofNat 64 (32 * r.nspill * gwn + 32 * k)

/-- The address of a return address at a depth above 4 (R288). -/
def callAddr (r : LaunchRec) (gwn depth lane : Nat) : DWord := r.cstk + BitVec.ofNat 64 (65536 * gwn + 256 * (depth - 5) + 8 * lane)

/-- The bytes of an area against those that the hardware keeps there: other readers find undefined values (log 23). -/
def padded (va : DWord) (bs : List (BitVec 8)) : List (BitVec 8) := bs.zipIdx.map fun q => q.1 ^^^ Config.areaPad (va.toNat + q.2)

/-- READ bytes of an area, as a load of the context on the core. -/
def State.areaRead (s : State) (core x : Nat) (va : DWord) (n : Nat) : State × Except WalkStop (List (BitVec 8)) :=
  match s.translate core x va .read with
  | (s, .error e) => (s, .error e)
  | (s, .ok p) =>
    let (s, bs) := ((p.sectors n).foldl (fun s k => s.dieFlush (dieOf core) k) s).homeRead none p n
    (s, .ok (padded va bs))

/-- WRITE bytes of an area, as a store of the context on the core. The exit check has translated the address: an address that has
since lost its translation takes nothing. -/
def State.areaWrite (s : State) (core x : Nat) (va : DWord) (bs : List (BitVec 8)) : State :=
  match s.translate core x va .write with
  | (s, .error _) => s
  | (s, .ok p) => ((p.sectors bs.length).foldl (fun s k => s.dieFlush (dieOf core) k) s).homePoke (some (dieOf core)) p (padded va bs)

/-- THE ENTRIES of a warp as they stand: those in the table, and the spilled ones as the spill area holds them. An entry whose place
does not translate outside an exit check is as it was (log 36). -/
def State.entriesOf (s : State) (core slot : Nat) (w : Warp) : List SEntry :=
  w.splits.map fun e => match e.spill with
    | none => e
    | some k => match (s.areaRead core w.ctx (spillAddr (s.lrecOf core slot) w.gwn k) 32).2 with
      | .ok bs => e.ofBytes bs
      | .error _ => e

/-- SET the split table of a warp: what has changed in the spill area is written there. -/
def State.setTable (s : State) (core slot : Nat) (l : List SEntry) (run : Option Nat) : State :=
  match s.warp? core slot with
  | none => s
  | some w =>
    let r := s.lrecOf core slot
    ((spillWrites (s.entriesOf core slot w) l).foldl (fun s q => s.areaWrite core w.ctx (spillAddr r w.gwn q.1) q.2.bytes) s).modWarp core slot fun w =>
      { w with splits := l, run }

/-- The return address of a lane at a depth: the warp's own at depths 1 to 4, the call area's below (R288). -/
def State.retAddr (s : State) (core slot : Nat) (w : Warp) (depth lane : Nat) : DWord :=
  if depth ≤ 4 then (w.rets.getD (depth - 1) []).getD lane 0
  else match (s.areaRead core w.ctx (callAddr (s.lrecOf core slot) w.gwn depth lane) 8).2 with
    | .ok bs => BitVec.ofNat 64 (bytesVal bs)
    | .error _ => 0

/-! ## The exit (R200, R230) -/

/-- The choices of the lanes of an instance: the index, the lane, and where it goes; none stands for TRET. -/
def Inst.choices (i : Inst) : List (Nat × Nat × Option Choice) :=
  i.rest.flatMap fun e => match e with
    | .choose n ls => ls.map fun q => (n, q.1, some q.2)
    | .tret n m => (lanesOf m).map fun l => (n, l, none)
    | _ => []

/-- What a block's exit refuses by itself: the lanes concerned (R200, R230, R288, R404). -/
def exitLanes (w : Warp) (r : LaunchRec) (i : Inst) : Mask :=
  let cs := i.choices
  let bad := (lanesOf i.mask).filter fun l => (cs.filter fun c => c.2.1 == l).length != 1
  if !bad.isEmpty then maskOf bad
  else
    let deep := cs.filter fun c => match c.2.2 with
      | some .ret => i.depth == 0
      | some (.call _ _) => i.depth == 255 || (4 ≤ i.depth && r.cstk == 0)
      | _ => false
    if !deep.isEmpty then maskOf (deep.map (·.2.1))
    else if i.rest.any (fun e => match e with | .tret _ m => m != i.mask || w.traps.isEmpty | _ => false) then i.mask
    else 0

/-- The LOOP instructions of a block. -/
def RBlock.loops (b : RBlock) : List Nat := b.instrs.filterMap fun q => match q.2 with | .loop _ _ => some q.1 | _ => none

/-- The votes of an instance (R230, R422); `ret` gives a lane's return address. -/
def Inst.votes (i : Inst) (w : Warp) (b : RBlock) (ret : Nat → DWord) : List Vote :=
  i.choices.map fun c =>
    match c.2.2 with
    | some (.goto a) => { lane := c.2.1, dest := some (a.toNat, i.depth), looped := b.loops.contains c.1 && a.toNat == i.block }
    | some (.call a _) => { lane := c.2.1, dest := some (a.toNat, i.depth + 1), isCall := true }
    | some .ret => { lane := c.2.1, dest := some ((ret c.2.1).toNat, i.depth - 1), isRet := true }
    | some .exit => { lane := c.2.1, dest := none }
    | none => { lane := c.2.1, dest := w.traps.head?.map fun f => (f.resume, f.depth) }

/-- The reconvergence block of an instance's block, none where RECONV is 0 (R231, R250). -/
def RBlock.reconv (b : RBlock) : Option Nat :=
  if b.hdr.reconv = 0 then none else some (BitVec.ofNat 64 b.addr + (b.hdr.reconv.signExtend 64) * 8).toNat

/-- Translate addresses for a block's exit: the first fault, or a wait for the host. -/
def State.exitWalks (core x : Nat) : State → List (DWord × AccKind) → State × Except WalkStop Unit
  | s, [] => (s, .ok ())
  | s, (va, acc) :: rest =>
    match s.translate core x va acc with
    | (s, .ok _) => State.exitWalks core x s rest
    | (s, .error e) => (s, .error e)

/-- The addresses of the call area that an instance's commit reads and writes, lowest lane first (R479). -/
def Inst.callAccesses (i : Inst) (w : Warp) (r : LaunchRec) : List (DWord × AccKind) :=
  (sortBy (fun a b => decide (a.2.1 ≤ b.2.1)) i.choices).filterMap fun c => match c.2.2 with
    | some (.call _ _) => if 4 ≤ i.depth then some (callAddr r w.gwn (i.depth + 1) c.2.1, .write) else none
    | some .ret => if 5 ≤ i.depth then some (callAddr r w.gwn i.depth c.2.1, .read) else none
    | _ => none

/-- The addresses of the spill area that a vote's rows and the selection after it read and write. -/
def spillAccesses (w : Warp) (r : LaunchRec) (voted : Settled) (last : List SEntry) : List (DWord × AccKind) :=
  (voted.area.map fun q => (spillAddr r w.gwn q.1, if q.2 then .write else .read)) ++
  (spillReads voted.l last).map (fun k => (spillAddr r w.gwn k, .read)) ++ (spillWrites voted.l last).map fun q => (spillAddr r w.gwn q.1, .write)

/-- What the checks of a block's exit find; with success, the split table after the vote and whether lanes parked below a barrier
token. -/
inductive ExitCheck where
  | ok (s : State) (after : List SEntry × Bool)
  | wait (s : State)
  | fault (s : State) (f : FaultInfo)

/-- ILLEGAL_BLOCK at exit, with TRAP.MASK holding the lanes (R200, R230, R231, R235). -/
def exitFault (m : Mask) : FaultInfo := { code := .illegalBlock, mask := m, tmask := true }

/-- CHECK A BLOCK'S EXIT (R200, R207, R230, R231, R235, R288, R387). Of a fault on the way to the call area the spec names no lanes
concerned: the record's MASK holds the lanes of the instance, as for the other faults at exit (log 65). -/
def State.checkExit (s : State) (core slot : Nat) (w : Warp) (i : Inst) (b : RBlock) : ExitCheck :=
  let r := s.lrecOf core slot
  let bad := exitLanes w r i
  if bad != 0 then .fault s (exitFault bad)
  else if i.effs.any (fun e => match e with | .launchFull _ => true | _ => false) then .fault s { code := .queueFull, mask := i.mask }
  else
    match State.exitWalks core w.ctx s (i.callAccesses w r) with
    | (s, .error (.host vf page wr)) => .wait (s.askHost vf page wr)
    | (s, .error (.fault f)) => .fault s { f with mask := i.mask }
    | (s, .ok ()) =>
      let votes := i.votes w b (s.retAddr core slot w i.depth)
      let now := s.entriesOf core slot w
      let voted := voteTable now w.runIndex votes b.reconv
      let last := (selectRun voted.l (w.icount + 1).toNat).table voted.l
      if nestTooDeep (entryAt now w.runIndex) (votes.filterMap (·.dest)).eraseDups.length b.reconv || 16 + r.nspill < voted.peak then
        .fault s (exitFault i.mask)
      else
        match State.exitWalks core w.ctx s (spillAccesses w r voted last) with
        | (s, .ok ()) => .ok s (voted.l, voted.low)
        | (s, .error (.host vf page wr)) => .wait (s.askHost vf page wr)
        | (s, .error (.fault f)) => .fault s { f with mask := i.mask }

/-! ## Choosing the split that runs (R233, R234, R238) -/

/-- Record a trap at a boundary on split `n` of the table just set: the split runs on in its handler, or the warp halts. -/
def State.trapAt (s : State) (core slot : Nat) (f : FaultInfo) (async : Bool) (block resume itag : Nat) : State :=
  match (s.warp? core slot).bind (·.run) with
  | none => s
  | some n => s.raiseTrap core slot n f async block resume itag

/-- A SPLIT SWITCH ends the warp's reservations: the chosen split holds a lane that was not in the split which ran the instance
committed last (R233, R151). -/
def State.endSwitch (s : State) (core slot : Nat) : State :=
  match s.warp? core slot with
  | none => s
  | some w => if ((w.runSplit.map (·.mask)).getD 0 &&& ~~~ w.ranMask) != 0 then s.dropReserves core slot else s

/-- BARRIER_DIVERGED (R238): the barrier token becomes a split of its arrived lanes, which takes the trap. -/
def State.barrierTrap (s : State) (core slot : Nat) : State :=
  match s.warp? core slot with
  | none => s
  | some w =>
    match barrierBreak (s.entriesOf core slot w) with
    | none => s
    | some (l, n, missing) =>
      let blk := (entryAt l n).next
      let s := (s.setTable core slot (markChosen l n w.icount.toNat) (some n)).endSwitch core slot
      s.trapAt core slot { code := .barrierDiverged, mask := missing } false blk blk 0

/-- CHOOSE THE SPLIT TO RUN at a boundary. With no runnable split a barrier token breaks, or a token is released by
force and counted (R231, R238). -/
def State.chooseRun (s : State) (core slot : Nat) : State :=
  match s.warp? core slot with
  | none => s
  | some w =>
    match selectRun (s.entriesOf core slot w) w.icount.toNat with
    | .none => s
    | .breaks => s.barrierTrap core slot
    | .runs l n forced =>
      let s := if forced then s.modCtx w.ctx fun x => { x with splitfr := x.splitfr + 1 } else s
      (s.setTable core slot l (some n)).endSwitch core slot

/-- Deliver the asynchronous trap that is due at a boundary (R420, R424). While the warp waits for the phase of an NBSYNC its
boundary lasts, and a fault that ends the wait comes before the trap (R346, R430). -/
def State.asyncTrap (s : State) (core slot : Nat) : State :=
  match s.warp? core slot with
  | none => s
  | some w =>
    match w.runSplit with
    | none => s
    | some e =>
      if w.halt.isSome || !w.nbsync.isEmpty then s
      else
        let f : FaultInfo := { code := .tagExhausted, mask := e.mask }
        if w.tagTrap then
          (s.modWarp core slot fun w => { w with tagTrap := false }).trapAt core slot f true e.next e.next 0
        else if w.trapPend && !w.trapMask then
          (s.modWarp core slot fun w => { w with trapPend := false }).trapAt core slot f true e.next e.next 0
        else s

/-- The fairness timer is due: the running split's FAIR has reached 512 and another split is runnable (R234). -/
def Warp.fairDue (w : Warp) : Bool := w.runSplit.any (fun e => 512 ≤ e.fair) && (fairPick w.splits w.runIndex w.icount.toNat).isSome

/-- Younger iterations are kept only when the split that runs next runs their block at their depth and holds every lane they
still carry (R233), and the fairness timer is not due (R234). -/
def State.keepYounger (s : State) (core slot : Nat) : State :=
  match s.warp? core slot with
  | none => s
  | some w =>
    match w.runSplit with
    | none => s.squash core slot fun _ => true
    | some e =>
      let fits (i : Inst) : Bool := e.next == i.block && e.depth == i.depth && (i.mask &&& ~~~ e.mask) == 0
      if w.insts.all fits && w.halt.isNone && !w.fairDue then s else s.squash core slot fun _ => true

/-- THE BOUNDARY after a table change: mailbox entries are applied (R50), the next split is chosen, due traps are taken, younger
iterations kept or squashed. -/
def State.boundary (s : State) (core slot : Nat) : State :=
  (((s.applyMailbox core slot).chooseRun core slot).asyncTrap core slot).keepYounger core slot

/-! ## Commit (R115, R206, R212) -/

/-- Registers that a SETR writes, laid over a value an iteration keeps (R51, R211). -/
def keepWrites (effs : List Eff) (q : RegSpec × Lanes × Lanes) : RegSpec × Lanes × Lanes :=
  effs.foldl (fun q e => match e with
    | .setr _ r w64 m lo hi =>
      if r == q.1 then (q.1, overlayLanes q.2.1 lo m, q.2.2)
      else if w64 && !r.scalar && { r with num := r.num + 1 } == q.1 then (q.1, overlayLanes q.2.1 hi m, q.2.2)
      else q
    | _ => q) q

/-- The calls of an instance write the return addresses that the warp holds (R288, R289). -/
def Warp.applyCalls (w : Warp) (i : Inst) : Warp :=
  i.choices.foldl (fun w c => match c.2.2 with
    | some (.call _ r) => if i.depth < 4 then { w with rets := listMod w.rets i.depth fun l => listMod l c.2.1 fun _ => r } else w
    | _ => w) w

/-- The calls of an instance write the return addresses of the call area (R288, R289). -/
def State.pushCalls (s : State) (core slot : Nat) (w : Warp) (i : Inst) : State :=
  if i.depth < 4 then s
  else
    let r := s.lrecOf core slot
    i.choices.foldl (fun s c => match c.2.2 with
      | some (.call _ a) => s.areaWrite core w.ctx (callAddr r w.gwn (i.depth + 1) c.2.1) (valBytes 8 a.toNat)
      | _ => s) s

/-- Lanes of an instance that re-enter its block through its LOOP: younger iterations keep these (R210, R212). -/
def Inst.stayLanes (i : Inst) (b : RBlock) : Mask :=
  maskOf ((i.choices.filter fun c => b.loops.contains c.1 && match c.2.2 with | some (.goto a) => a.toNat == i.block | _ => false).map (·.2.1))

/-- The warp after its oldest instance's registers, returns and counters; the trap frame popped by TRET (R422). `stay` are the lanes
that younger iterations keep. -/
def Warp.committed (w : Warp) (i : Inst) (stay : Mask) : Warp :=
  let effs := i.rest
  let w1 := effs.foldl (fun w e => match e with | .setr _ r w64 m lo hi => w.writeReg r w64 m lo hi | _ => w) w
  let w2 := { w1.applyCalls i with log := {}, icount := w.icount + 1 }
  let w3 := if effs.any (fun e => match e with | .tret _ _ => true | _ => false) then w2.trapReturn i.mask else w2
  { w3 with insts := (w3.insts.filter fun q => q.itag != i.itag).map fun q =>
      { q.dropLanes stay with carried := q.carried.map (keepWrites effs) } }

/-- Entries an instance received from channels are removed for good (R219). -/
def Inst.removeTaken (i : Inst) (chans : List Chan) : List Chan :=
  i.taken.foldl (fun cs e => listMod cs e.1 fun ch => { ch with taken := ch.taken - 1 }) chans

/-- The reservations an instance set are no longer tied to it. -/
def State.looseReserves (s : State) (core slot itag : Nat) : State :=
  let free (l : List Reserve) : List Reserve :=
    mapIf (fun r => r.core == core && r.slot == slot && r.ctl.isNone && r.inst == some itag) (fun r => { r with inst := none }) l
  { s with
    firns := s.firns.map fun (p : Nat × Firn) => (p.1, { p.2 with monitor := free p.2.monitor })
    cores := s.cores.map fun (p : Nat × Core) => (p.1, { p.2 with monitor := free p.2.monitor }) }

/-- FINISH A COMMIT: registers, returns, the vote, the table, the tag; then the boundary, or the end of the warp. `after` is the
table that the exit check has found. -/
def State.finishCommit (s : State) (core slot : Nat) (w : Warp) (i : Inst) (b : RBlock) (after : List SEntry × Bool) : State :=
  let stay := i.stayLanes b
  let s := s.pushCalls core slot w i
  let s := (w.insts.drop 1).reverse.foldl (fun s y => s.undoDropped core slot stay y) s
  let ran := (entryAt w.splits w.runIndex).mask
  let s := (s.modWarp core slot fun w => { w.committed i stay with ranMask := ran }).setTable core slot after.1 none
  let s := s.modTeam core w.team fun t => { t with chans := i.removeTaken t.chans }
  let s := ((s.dropHeld (.warp core slot i.itag)).looseReserves core slot i.itag).modCore core fun k => k.purge slot i.itag
  let s := if after.1.isEmpty then s
    else if after.2 then ((s.squash core slot fun _ => true).applyMailbox core slot).barrierTrap core slot
    else s.boundary core slot
  s.modCore core Core.unpin

/-- A warp without lanes ends, once no class 1 barrier holds it (R292). -/
def State.endIfDone (s : State) (core slot : Nat) : State :=
  match s.warp? core slot with
  | none => s
  | some w => if w.splits.isEmpty && !w.atBar && !w.atGbar then (s.endWarp core slot).modCore core Core.unpin else s

/-- An instance is ENDED: every effect instruction has fired and every access has returned (Table 9.4). -/
def Inst.isEnded (i : Inst) (b : RBlock) : Bool :=
  i.pends.isEmpty && b.instrs.all fun q => i.fired.contains q.1 || !((q.2.form.map (·.effect)).getD false)

/-- COMMIT the oldest instance of a warp of a RUNNING context, as far as it gets: its exit is checked, what it waits for is there,
its effects are applied in order, and it finishes. Reads of the core that have left for their homes come before its first store, and
none leaves until its last is performed, so that its stores appear at one instant to the core (R116, R119). A context that is being
killed commits nothing more (R385). -/
def State.commitStep (s : State) (core slot : Nat) : State :=
  match s.warp? core slot with
  | none => s
  | some w =>
    match w.insts with
    | [] => s
    | i :: _ =>
      match (s.core core).block? w.ctx i.block i.ver with
      | none => s
      | some b =>
        let go (s : State) (after : List SEntry × Bool) : State :=
          let s := s.modInst core slot i.itag fun q => { q with st := .committing, after := some after }
          if i.effs.any Eff.isStore && s.homeReadsInFlight core then s
          else match State.runEffs core slot i.itag s i.work with
          | (s, []) =>
            match s.warp? core slot with
            | none => s
            | some w' => (s.finishCommit core slot w' i b after).endIfDone core slot
          | (s, left) => s.modInst core slot i.itag fun q => { q with effs := left ++ i.rest }
        if (s.ctx? w.ctx).any fun x => x.st != .running then s
        else match i.st with
        | .committing => go s (i.after.getD (w.splits, false))
        | .running =>
          if !i.isEnded b || i.exit.isSome || i.squash || w.halt.isSome then s
          else match s.checkExit core slot w i b with
            | .fault s f => s.recordExit core slot i.itag f
            | .wait s => s
            | .ok s after => if s.commitReady core slot i then go s after else s

/-! ## Discard (R206, R207, R213) -/

/-- RAISE the code of an instance's exit record, the instance and those behind it discarded: a trap meets its fate of Table 19.2, a
fault halts the warp (R207, R420). -/
def State.raiseExit (s : State) (core slot : Nat) (i : Inst) (f : FaultInfo) : State :=
  let s := (s.squash core slot fun _ => true).applyMailbox core slot
  let s := if f.code.isTrap then (s.trapAt core slot f false i.block i.block i.itag).asyncTrap core slot
    else s.haltWarp core slot f i.block i.itag false false
  s.modCore core Core.unpin

/-- DISCARD an instance: a squashed one reports nothing; the oldest, with its exit record, raises what it holds, and every
younger one is squashed. -/
def State.discardStep (s : State) (core slot itag : Nat) : State :=
  match s.warp? core slot with
  | none => s
  | some w =>
    match w.inst? itag with
    | none => s
    | some i =>
      if i.st == .committing || s.atomicOut (.warp core slot itag) then s
      else if i.squash then
        -- the iterations behind it run again after it
        let s := s.squash core slot fun q => q.itag == itag || !(w.olderThan q.itag).all (fun o => o.itag != itag)
        let idle := ((s.warp? core slot).map (·.insts.isEmpty)).getD false
        (if idle then s.applyMailbox core slot else s).modCore core Core.unpin
      else
        match i.exit, (s.core core).block? w.ctx i.block i.ver, w.insts.head?.map (·.itag) == some itag with
        | some f, some b, true =>
          if !i.isEnded b then s else s.raiseExit core slot i f
        | _, _, _ => s

end Sys2Proof.Machine
end

