-- ==== Sys2Proof/Machine/BlockLife.lean ====
section
/-! DEFINITION. The events of a block instance's life (chapter 9): admission, tokens arriving at nodes, loads returning,
commit, discard, the fairness timer, TAG_EXHAUSTED and BLOCK_STUCK. An event whose conditions do not hold changes
nothing. -/

namespace Sys2Proof.Machine

/-! ## Admission (R205, R209, R210, R220, R237, R416) -/

/-- A pre-emption of a context is pending on the core. -/
def Core.draining (k : Core) (x : Nat) : Bool := k.drains.any fun d => d.ctx == x

/-- The window of an unrolled block (R120, R210, R215). -/
def RBlock.window (b : RBlock) (w : Warp) (tagb : Nat) : Nat :=
  if 0 < w.win1 || b.instrs.any (fun q => windowOne q.2) then 1 else min (b.hdr.iter + 1) tagb

/-- Another iteration of the youngest instance's block may enter (R210). -/
def Warp.mayUnroll (w : Warp) (b : RBlock) (tagb : Nat) : Bool :=
  b.hdr.iter != 0 && b.hdr.self && w.insts.length < b.window w tagb && w.insts.all fun i => i.exit.isNone && !i.squash

/-- The tag NT names is free, and the warp and the core hold fewer tags than they may (R208, R209). -/
def Core.tagFree (k : Core) (slot : Nat) (w : Warp) (tagb : Nat) : Bool :=
  (k.tag? slot w.nt).isNone && (k.tags.filter fun t => t.wslot == slot).length < tagb && k.tags.length < 256

/-- A stream team's entry block waits for the counts its record declares (R220). -/
def Team.streamReady (t : Team) : Bool := t.chans.all fun c => c.scount ≤ c.items.length

/-- The new instance of a block, and its roots on their nodes (R198, R205). Of a carried register an iteration keeps what the one
before it received (R51, R211). -/
def State.startInst (s : State) (core slot : Nat) (w : Warp) (e : SEntry) (b : RBlock) : State :=
  let young := w.insts.getLast?
  let mask := (young.map (·.mask)).getD e.mask
  let i : Inst :=
    { itag := w.nt, block := b.addr, ver := b.ver, replica := (slot + w.nt) % b.bases.length, mask
      depth := e.depth, number := w.icount + BitVec.ofNat 32 w.insts.length
      iterNo := (young.map fun y => y.iterNo + 1).getD e.iter
      carried := (young.map fun y => y.carried.filter fun q => b.hdr.carried q.1).getD []
      skipTrap := young.isNone && w.skipDue b.addr mask, admitted := s.time, lastAct := s.time }
  let roots := b.instrs.filter fun q => (q.2.form.map fun f => (usedPorts f).isEmpty).getD false
  s.modCore core fun k =>
    let k := k.modWarp slot fun w =>
      { (if young.isNone then w.skipDone b.addr mask else w) with insts := w.insts ++ [i], nt := (w.nt + 1) % 32, win1 := w.win1 - 1 }
    let k := roots.foldl (fun k q => k.modNode (b.node i.replica q.1) fun n =>
      { n with ready := n.ready ++ [{ wslot := slot, itag := i.itag, idx := q.1, vals := [] }] }) k
    { k with tags := k.tags ++ [{ wslot := slot, itag := i.itag, ctx := w.ctx, live := 0, purging := false }]
             lastAdmit := s.time / Config.ticksPerCycle + 1, lastAge := w.age + 1 }

/-- A split about to admit a barrier block parks, or the warp takes BARRIER_DIVERGED (R237, R238). -/
def State.parkOrAdmit (s : State) (core slot : Nat) (w : Warp) (e : SEntry) (b : RBlock) : State :=
  if !(b.isBarrier && w.insts.isEmpty) then s.startInst core slot w e b
  else match barrierStep (s.entriesOf core slot w) w.runIndex with
    | .goesIn => s.startInst core slot w e b
    | .parked r =>
      if 16 + (s.lrecOf core slot).nspill < r.peak then s.haltWarp core slot (exitFault e.mask) e.next 0 false false
      else
        let s := s.setTable core slot r.l none
        if r.low then s.barrierTrap core slot else s.boundary core slot
    | .diverged => s.barrierTrap core slot
    | .tooDeep => s.haltWarp core slot (exitFault e.mask) e.next 0 false false

/-- The block the warp would run next, and what its admission waits for: none while it waits. -/
def State.admitNext (s : State) (core slot : Nat) (w : Warp) (t : Team) (e : SEntry) : Option State :=
  let k := s.core core
  let go (s : State) (b : RBlock) : Option State :=
    let who : Who := .warp core slot w.nt
    let flags := (List.range 12).filter fun n => b.hdr.waits.getLsbD n
    if !k.tagFree slot w t.lrec.tagb || flags.any (s.flagSet who) then none
    else some ((flags.foldl (fun s n => s.joinFlag who n) s).parkOrAdmit core slot w e b)
  if k.draining w.ctx then none
  else match w.insts.getLast? with
  | some y => (k.block? w.ctx y.block y.ver).bind fun b => if w.mayUnroll b t.lrec.tagb then go s b else none
  | none =>
    if s.waitsForWalk core (.fetch core slot) || (t.lrec.strm && w.icount == 0 && !t.streamReady) then none
    else match s.fetchBlock core w.ctx e.next t.lrec.nvec false e.call (.fetch core slot) with
      | .wait s => some s
      | .fault s f => some (s.haltWarp core slot { f with mask := e.mask, tmask := true } e.next 0 false false)
      | .ok s b => go s b

/-- What a warp does at its boundary when it may go on: none while it waits. A phase that an NBSYNC waits for has completed, or is
lost with its barrier, and the warp halts with BARRIER_STRANDED (R346). -/
def State.admitTry (s : State) (core slot : Nat) : Option State :=
  match s.warp? core slot with
  | none => none
  | some w =>
    match (s.core core).team? w.team, s.ctx? w.ctx with
    | some t, some x =>
      if w.halt.isSome || w.atBar || w.atGbar || x.st != .running then none
      else if w.splits.isEmpty then some (s.endIfDone core slot)
      else
        let passed (q : Nat × Nat) : Bool := (t.nbs.getD q.1 { exp := 0 }).done q.2
        let lost (q : Nat × Nat) : Bool := !passed q && (t.nbs.getD q.1 { exp := 0 }).stranded
        let left := w.nbsync.filter fun q => !passed q
        if left.any lost then
          let e := w.runSplit.getD default
          some ((s.modWarp core slot fun w => { w with nbsync := left.filter fun q => !lost q }).haltWarp core slot
            { code := .barrierStranded, mask := e.mask } e.next 0 false false)
        else if left != w.nbsync then some (s.modWarp core slot fun w => { w with nbsync := left })
        else if !w.nbsync.isEmpty then none
        else
          match w.runSplit with
          | none => if w.insts.isEmpty then some (s.chooseRun core slot) else none
          | some e =>
            if w.insts.isEmpty && (w.tagTrap || (w.trapPend && !w.trapMask)) then some (s.asyncTrap core slot)
            else if w.fairDue then none
            else s.admitNext core slot w t e
    | _, _ => none

/-- Warps of a core in the order of admission: by age, starting after the warp last admitted (R416). -/
def Core.admitOrder (k : Core) : List Nat :=
  let l := sortBy (fun (a b : Nat × Warp) => decide (a.2.age ≤ b.2.age)) k.warps
  ((l.filter fun p => k.lastAge ≤ p.2.age) ++ l.filter fun p => p.2.age < k.lastAge).map (·.1)

/-- The core has admitted an instance in this cycle (R416). -/
def State.admittedNow (s : State) (core : Nat) : Bool := (s.core core).lastAdmit == s.time / Config.ticksPerCycle + 1

/-- The warp whose turn it is to be admitted on a core, with the state after it. -/
def State.admitPick (s : State) (core : Nat) : Option (Nat × State) :=
  (s.core core).admitOrder.findSome? fun sl => (s.admitTry core sl).map fun r => (sl, r)

/-- BLOCK_ADMIT (R205, R416). -/
def execBlockAdmit (core slot : Nat) (s : State) : Host.Outcome State Fault Refusal :=
  .next (if s.admittedNow core then s
    else match s.admitPick core with
      | some (sl, r) => if sl = slot then r else s
      | none => s)

/-! ## Tokens (R203, R208) -/

/-- What handling the token at the head of a channel does with the node: the node after it, and whether the token is dropped
(its tag's count falls). None: it waits. -/
def Node.handle (n : Node) (t : Token) (rest : List Token) (form : Option Form) (loc : Nat × Nat) : Option (Node × Bool) :=
  match form with
  | none => some ({ n with chan := rest }, true)
  | some f =>
    if !n.slots.contains loc then some ({ n with slots := (loc :: n.slots).take 32 }, false)
    else
      let mine (m : MatchEntry) : Bool := m.wslot == t.wslot && m.itag == t.itag && m.idx == t.idx
      let held := ((n.store.find? mine).map (·.vals)).getD []
      let vals := held ++ [{ port := t.port, mask := t.mask, val := t.val }]
      let entry : MatchEntry := { wslot := t.wslot, itag := t.itag, idx := t.idx, vals }
      let others := n.store.filter fun m => !mine m
      if (usedPorts f).all fun q => vals.any fun v => v.port == q then
        some ({ n with chan := rest, store := others, ready := n.ready ++ [entry] }, false)
      else if !held.isEmpty then some ({ n with chan := rest, store := mapIf mine (fun _ => entry) n.store }, false)
      else if n.store.length < Config.matchEntries then some ({ n with chan := rest, store := n.store ++ [entry] }, false)
      else none

/-- The form a token's instruction has, when its tag is live. -/
def State.tokenForm (s : State) (core : Nat) (t : Token) : Option Form :=
  if ((s.core core).tag? t.wslot t.itag).any fun g => !g.purging then s.formAt (.warp core t.wslot t.itag) t.idx else none

/-- The address of the block a token belongs to. -/
def State.tokenBlock (s : State) (core : Nat) (t : Token) : Nat := ((s.blockOf (.warp core t.wslot t.itag)).map (·.addr)).getD 0

/-- TOKEN_ARRIVE (R203, R208): one token, or the fetch of its instruction into the node. -/
def execTokenArrive (core node : Nat) (s : State) : Host.Outcome State Fault Refusal :=
  let n := (s.core core).nodes.getD node {}
  .next (match n.chan with
    | [] => s
    | t :: rest =>
      match n.handle t rest (s.tokenForm core t) (s.tokenBlock core t, t.idx) with
      | none => s
      | some (n', dropped) =>
        s.modCore core fun k =>
          let k := k.modNode node fun _ => n'
          if dropped then k.tagSub t.wslot t.itag 1 else k)

/-! ## Loads, commit and discard -/

/-- LOAD_REPLY (R333): the lanes of a pending access that can be served are, and its result is sent when all have returned. -/
def execLoadReply (who : Who) (idx : Nat) (s : State) : Host.Outcome State Fault Refusal :=
  .next (match s.pend? who idx with
    | none => s
    | some p => (s.tryPend who p).completePend who idx)

/-- BLOCK_COMMIT (R206, R115). -/
def execBlockCommit (core slot : Nat) (s : State) : Host.Outcome State Fault Refusal := .next (s.commitStep core slot)

/-- BLOCK_DISCARD (R206, R207, R213). -/
def execBlockDiscard (core slot itag : Nat) (s : State) : Host.Outcome State Fault Refusal := .next (s.discardStep core slot itag)

/-! ## Timers -/

/-- FAIRNESS_TIMER (R234). -/
def execFairnessTimer (core slot : Nat) (s : State) : Host.Outcome State Fault Refusal :=
  .next (match s.warp? core slot with
    | none => s
    | some w =>
      match w.runSplit with
      | none => s
      | some e =>
        if e.fair < 512 || !w.insts.isEmpty || w.halt.isSome then s
        else
          let l := s.entriesOf core slot w
          match fairPick l w.runIndex w.icount.toNat with
          | none => s
          | some j => (s.setTable core slot (pinSplit l j) w.run).boundary core slot)

/-- The token at the head of a node's channel needs a new matching entry and there is none (R215). -/
def State.nodeFull (s : State) (core node : Nat) : Bool :=
  let n := (s.core core).nodes.getD node {}
  Config.matchEntries ≤ n.store.length && (match n.chan with
    | [] => false
    | t :: rest => (n.handle t rest (s.tokenForm core t) (s.tokenBlock core t, t.idx)).isNone)

/-- The youngest instance by admission that holds an entry of a store: slot and tag. None while it is also the oldest, or
commits. -/
def State.youngestHolder (s : State) (core : Nat) (store : List MatchEntry) : Option (Nat × Nat) :=
  let all := (store.map fun m => (m.wslot, m.itag)).eraseDups.filterMap fun q =>
    ((s.warp? core q.1).bind fun w => w.inst? q.2).map fun i => (q, i.admitted, i.st == .running)
  let pick := (all.filter (·.2.2)).foldl (fun r q => match r with
    | none => some q
    | some p => if p.2.1 < q.2.1 then some q else some p) none
  (pick.filter fun p => all.any fun q => q.2.1 < p.2.1).map (·.1)

/-- What befalls a warp whose iterations TAG_EXHAUSTED has squashed (R215 steps 3 and 5), or whose one instance it has
discarded (step 5 alone). -/
def State.tagSuffer (s : State) (core slot : Nat) (iterations : Bool) : State :=
  let strict := ((s.warp? core slot).bind fun w => s.ctx? w.ctx).any Ctx.strictTag
  s.modWarp core slot fun w => { w with win1 := if iterations then 64 else w.win1, tagTrap := w.tagTrap || strict }

/-- Count TAG_EXHAUSTED in the contexts of the warps concerned (R215 step 4). -/
def State.tagCount (s : State) (core : Nat) (slots : List Nat) : State :=
  (slots.filterMap fun sl => (s.warp? core sl).map (·.ctx)).eraseDups.foldl (fun s x => s.modCtx x fun c => { c with tagx := c.tagx + 1 }) s

/-- TAG_EXHAUSTED (R215); time that a context spent saved does not count (R437). -/
def execTagExhausted (core node : Nat) (s : State) : Host.Outcome State Fault Refusal :=
  let n := (s.core core).nodes.getD node {}
  .next (if !s.nodeFull core node || cyclesBetween (max (n.lastFire - 1) (s.core core).restored) s.time < 1024 then s
    else
      let slots := ((n.store.map (·.wslot)).eraseDups).filter fun sl => (s.warp? core sl).any fun w => 1 < w.insts.length
      if !slots.isEmpty then
        let s := slots.foldl (fun s sl =>
          let old := ((s.warp? core sl).bind fun w => w.insts.head?).map (·.itag)
          (s.squash core sl fun i => some i.itag != old).tagSuffer core sl true) s
        (s.tagCount core slots).modCore core Core.unpin
      else match s.youngestHolder core n.store with
        | none => s
        | some (sl, itag) => ((s.modInst core sl itag fun i => { i with squash := true }).tagSuffer core sl false).tagCount core [sl])

/-! ## What a ready instruction waits for -/

/-- The lanes an instance still acts for: none once its exit record holds a code, or it is squashed (R207). -/
def Inst.acting (i : Inst) : Mask := if i.exit.isSome || i.squash then 0 else i.mask

/-- What keeps an instruction whose operands are there from firing: nothing; a barrier, channel, flag or event; an operation's
token or a row slot; or the order of accesses and the control locks. -/
inductive Holdup where
  | free | event | unit | order
  deriving DecidableEq, Repr

/-- A context form waits for the control lock of the context it names (R386). -/
def State.lockHolds (s : State) (who : Who) (t : Except CtxStatus Ctx) : Bool :=
  match t with
  | .ok t => !s.lockFree t.idx who
  | .error _ => false

/-- WHAT KEEPS a ready instruction of a warp's instance from firing. -/
def State.holdup (s : State) (c : Issue) (ins : Instr) : Holdup :=
  let x := s.ctxOf c.who
  let is (h : Holdup) (b : Bool) : Holdup := if b then h else .free
  if c.mask = 0 then .free
  else match ins with
    | .waitf _ n => is .event (s.flagSet c.who n.toNat)
    | .evwait _ n => is .event (decide (2 ^ 31 ≤ ((((s.ctx? x).map fun q => q.events.getD n.toNat 0).getD 0) - c.lowW .a).toNat))
    | .nbwait _ n => is .event ((s.nbar? c.who n.toNat).any fun b => !b.done (s.waitPhase c n.toNat b) && !b.stranded)
    | .recv _ n => let ch := s.chan c.who n.toNat
                   is .event ((ch.kind == .fifo || ch.kind == .source) && ch.take.isNone)
    | .getr _ w64 r => is .unit (s.tokenAwaited c.who r || match c.who with
        | .warp core slot t => (s.getrWarp c.who core slot t w64 r).isNone
        | .ctl _ _ => false)
    | .mxfeed _ => let w := c.lowW .b
                   is .unit (((s.core c.who.core).mx.slots.getD (fwSlot w) default).take (fwFmt w) (fwEa w) (fwPart w) == .wait)
    | .ctxgrant _ | .ctxrevoke _ => is .order (s.held c false false || s.lockHolds c.who (s.childById x (c.lowW .b)))
    | .ctxkill _ | .ctxrunResume _ | .ctxrunReflect _ => is .order (s.lockHolds c.who (s.targetById x (c.lowW .a)))
    | .ldres _ _ _ | .fence _ _ _ _ => is .order (s.held c true false)
    | .atom _ _ _ | .atoms _ _ _ _ | .stcond _ _ _ => is .order (s.held c true true)
    | .ld _ _ | .lds _ _ | .ldw _ _ | .st _ _ | .sts _ _ | .stw _ _ | .red _ _ _ | .pref _ | .mxdrain _ => is .order (s.held c false false)
    | _ => .free

/-- What keeps each ready instruction of an instance from firing. -/
def State.holdups (s : State) (core slot : Nat) (i : Inst) (b : RBlock) : List Holdup :=
  let one (m : MatchEntry) : Option Holdup :=
    (b.instrs.find? fun q => q.1 == m.idx).bind fun q => q.2.form.map fun form =>
      s.holdup { who := .warp core slot i.itag, idx := m.idx, mask := firingMask form.wd.pred i.acting m.vals, vals := m.vals, form } q.2
  (s.core core).nodes.flatMap fun n => (n.ready.filter fun m => m.wslot == slot && m.itag == i.itag).filterMap one

/-- An instance waits for a walk. -/
def State.walkOut (s : State) (who : Who) : Bool :=
  (s.die (dieOf who.core)).missq.any fun m => m.waiters.any fun w => match w.1 with | .instr v _ _ => v == who | _ => false

/-- An instance waits for nothing that R217 lists, and does nothing. -/
def State.idleInst (s : State) (core slot : Nat) (w : Warp) (i : Inst) (b : RBlock) : Bool :=
  i.st == .running && i.pends.isEmpty && !i.isEnded b && w.halt.isNone && !s.walkOut (.warp core slot i.itag) &&
  (s.holdups core slot i b).all fun h => h == .unit || h == .order

/-- BLOCK_STUCK (R217): the oldest instance of a warp, idle for 2^20 cycles. -/
def execBlockStuck (core slot itag : Nat) (s : State) : Host.Outcome State Fault Refusal :=
  .next (match s.warp? core slot with
    | none => s
    | some w =>
      match w.insts with
      | [] => s
      | i :: _ =>
        match (s.core core).block? w.ctx i.block i.ver with
        | none => s
        | some b =>
          if i.itag ≠ itag || !s.idleInst core slot w i b || cyclesBetween (max i.lastAct i.admitted) s.time < 2 ^ 20 then s
          else
            s.raiseExit core slot i (i.exit.getD { code := .blockStuck, mask := i.mask }))

end Sys2Proof.Machine
end

