-- ==== Sys2Proof/Machine/EngineRun.lean ====
section
/-! DEFINITION. The events of engine operations (R353 to R368): a queued operation starts, a started one moves its data and
completes, and a stream moves its next unit. -/

namespace Sys2Proof.Machine

/-- An operation goes on outside the core while its context is saved (R434): a COLL or ISTREAM that has started, one that a fault has
halted since included. -/
def EngOp.outside (o : EngOp) : Bool :=
  (match o.req.kind with | .coll _ | .istream => true | _ => false) &&
  (o.st == .started || o.st == .waiting || o.st == .finished || (o.st == .halted && o.ready))

/-- An operation may move: its context is not being killed; while a pre-emption drains the core only what has started
goes on, and of a saved context only what runs on engines of its own (R433, R434, R358). -/
def State.opFree (s : State) (core : Nat) (o : EngOp) (starting : Bool) : Bool :=
  (s.ctx? o.ctx).all (fun c => c.st != .killing) && !(starting && (s.core core).draining o.ctx) && !(s.savedOn core o.ctx && !o.outside)

/-- The rows or buffers of an operation move through an address generator. -/
def EngKind.streams : EngKind → Bool
  | .stream | .mxfeeds => true
  | _ => false

/-- PREPARE again an operation whose block could not be read or whose checks failed at issue (R65, R355); a matrix operation then
enters its queue, and waits for room in it first (R354). -/
def State.prepareAgain (s : State) (core : Nat) (o : EngOp) : State :=
  if o.req.kind.matrix && !(s.core core).mx.queue.contains o.id && !s.queueRoom core o.req.kind then s
  else match (prepareOp core o).go s with
  | (.error .busy, s) => s
  | (res, s) =>
    let s := (s.settlePrep core o.id res).holdTeam (o.issuer.getD (.ctl core o.ctx)) o.id
    let ready := ((s.core core).op? o.id).any fun q => q.ready && q.st != .halted
    if o.req.kind.matrix && ready && !(s.core core).mx.queue.contains o.id then
      s.modCore core fun k => { k with mx := { k.mx with queue := k.mx.queue ++ [o.id] } }
    else s

/-- ENGINE_OP_START (R354, R355, R382): an operation of a queue starts; one that is not prepared is prepared first. -/
def execEngineOpStart (core op : Nat) (s : State) : Host.Outcome State Fault Refusal :=
  .next (match (s.core core).op? op with
    | none => s
    | some o =>
      if o.st != .queued || o.issuing || !s.opFree core o true then s
      else if !o.ready then s.prepareAgain core o
      else if o.req.kind.matrix || o.req.kind.streams then s
      else
        let started (s : State) : State := s.modOp core op fun q => { q with st := .started }
        match o.req.kind with
        | .coll var =>
          match (startColl core o var).go s with
          | (.ok _, s) => started s
          | (.error (.fault f), s) => s.haltOp core op f
          | (.error _, s) => s
        | _ => started s)

/-- COUNT of an operation that has completed DONE (Table 16.2). -/
def EngOp.total (o : EngOp) : Nat :=
  match o.req.kind with
  | .copy | .copy2d => o.rows.n * o.rows.len
  | .fill _ => o.f 2 39 0
  | .tcopy => o.tsrc.d.count
  | .mxload => o.mlNq
  | .stream => o.sTensor.streamBytes
  | .mxfeeds => o.req.mfRows
  | .gath | .scat | .istream | .handoff _ => o.units
  | .coll _ | .mxmul | .mxcfg _ | .mxrelease => o.pos

/-- A unit of an operation's transfer. -/
def readUnit (core : Nat) (o : EngOp) (u : EngWork) : UnitRead :=
  match o.req.kind with
  | .copy | .copy2d => readCopy core o u
  | .fill sz => readFill o sz.bytes u
  | .tcopy => readTcopy core o u
  | .gath | .scat => readGather core o u
  | .istream => readIstream core o u
  | .handoff _ => readHandoff core o u
  | .mxload => readMxload core o u
  | .coll _ | .stream | .mxfeeds | .mxmul | .mxcfg _ | .mxrelease => pure ([], [])

/-- ONE STEP of an operation's transfer; its code once it has ended (R356). -/
def transferOp (core : Nat) (o : EngOp) : EngM (Option Nat) := do
  match o.req.kind with
  | .coll var => runColl core o var
  | kind =>
    if !o.work.isEmpty || !o.outs.isEmpty then
      engMove core o (readUnit core o)
      pure none
    else match kind with
      | .handoff toHost =>
        let code ← runHandoff core o toHost
        pure (some code)
      | .mxload =>
        engMod fun s => s.markLoaded core o
        pure (some 0)
      | _ => pure (some 0)

/-- An operation whose transfer has ended completes: an ISTREAM arrives at its barrier first (R367), a COLL is closed. The
completion of a saved context's operation is kept in its image (R434). -/
def State.endOp (s : State) (core op : Nat) : State :=
  match (s.core core).op? op with
  | none => s
  | some o =>
    if o.st != .finished || s.mailOut core op then s
    else if s.savedOn core o.ctx then
      (s.modCore core fun k => { k with ops := k.ops.filter fun q => q.id != op
                                        images := mapIf (fun i => i.ctx == o.ctx) (fun i => { i with ops := i.ops ++ [o] }) k.images })
    else
      let s := match o.req.kind, o.nb, o.team with
        | .istream, some b, some t => if o.status = 0 then s.modNBar core t b fun x => x.arrive (.op op) 1 else s
        | _, _, _ => s
      (s.finishOp core op o.status).closeColl o

/-- The transfer of an operation has ended with a code. -/
def State.transferred (s : State) (core op code : Nat) : State :=
  (s.modOp core op fun q => { q with st := .finished, status := code, pos := if code = 0 then q.total else q.pos }).endOp core op

/-- ENGINE_OP_COMPLETE (R356, R357): a started operation goes on, a unit or a write at a time, until it has moved everything, waits or
faults; then it completes. A COLL completes when its collective has been settled, wherever it has come to (R383). -/
def execEngineOpComplete (core op : Nat) (s : State) : Host.Outcome State Fault Refusal :=
  .next (match (s.core core).op? op with
    | none => s
    | some o =>
      if !s.opFree core o false || o.issuing || o.req.kind == .mxmul then s
      else match o.st with
        | .finished => s.endOp core op
        | .started | .waiting =>
          if o.req.kind.streams then s
          else match (transferOp core o).go s with
          | (.ok (some code), s) => s.transferred core op code
          | (.ok none, s) => s.modOp core op fun q => { q with st := .started }
          | (.error (.fault f), s) => s.haltOp core op f
          | (.error _, s) => s.modOp core op fun q => { q with st := .waiting }
        | .queued | .halted => match s.collDecided o with
          | some code => s.transferred core op code
          | none => s)

/-- A stream's units have all moved: it completes DONE. -/
def State.endStream (s : State) (core : Nat) (o : EngOp) : State :=
  if s.mailOut core o.id then s else (s.modOp core o.id fun q => { q with pos := q.total }).finishOp core o.id 0

/-- One step of a generator: a row of MXFEEDS; the beginning of a buffer or channel entry, one move of it, or its end with the arrival
that follows. A paused stream performs the writes it has in flight (Table 16.8). -/
def stepStream (core gen : Nat) (st : Stream) (o : EngOp) : EngM Unit := do
  let next : EngM Unit := engMod fun s => s.putGen core gen (some { st with pos := st.pos + 1 })
  if o.req.kind == .mxfeeds then
    moveRow core o st.pos
    next
  else if o.phase = 0 then
    if !(← get).bufferReady core o st st.pos then throw .wait
    beginUnit core o st.pos
  else if !o.outs.isEmpty || !o.work.isEmpty then engMove core o (readStream core o st.pos)
  else
    endUnit core o st.pos
    engMod fun s => s.streamArrive core o
    next

/-- STREAM_BUFFER (R364, R365, R373): a running generator moves on. -/
def execStreamBuffer (core gen : Nat) (s : State) : Host.Outcome State Fault Refusal :=
  let held := ((s.core core).gens.getD gen none).bind fun (st : Stream) => ((s.core core).op? st.op).map fun o => (st, o)
  .next (match held with
    | none => s
    | some (st, o) =>
      let paused := st.st == .paused && !o.outs.isEmpty
      if (st.st != .running && !paused) || o.issuing || !s.opFree core o true || o.st == .halted || o.st == .finished then s
      else
        let units := if o.req.kind == .mxfeeds then o.req.mfRows else o.sUnits
        if units ≤ st.pos then s.endStream core o
        else match (stepStream core gen st (if paused then { o with work := [], retry := if o.retry = 1 then 0 else o.retry } else o)).go s with
          | (.ok _, s) => s
          | (.error (.fault f), s) => s.haltOp core o.id f
          | (.error _, s) => s)

end Sys2Proof.Machine
end

