-- ==== Sys2Proof/Machine/CollRun.lean ====
section
/-! DEFINITION. The events of communicators, collectives and peer links (R378 to R383, R447, R448, R470, R471). -/

namespace Sys2Proof

/-- Free value: the CRC-64 that bytes 248 to 255 of a flit must hold, from what its other bytes hold (Table 21.5, log 25). -/
opaque Config.flitCrc : BitVec 64 → BitVec 64 × BitVec 64 → FlitBody → BitVec 64

/-- The header's fields (Table 21.5): virtual channel, type, credits returned and sequence number. -/
def Flit.vc (f : Flit) : Nat := Machine.bitsOf f.header.toNat 1 0
def Flit.type (f : Flit) : Nat := Machine.bitsOf f.header.toNat 7 2
def Flit.credits (f : Flit) : Nat := Machine.bitsOf f.header.toNat 15 8
def Flit.seq (f : Flit) : Nat := Machine.bitsOf f.header.toNat 27 16
/-- The CRC holds. -/
def Flit.crcOk (f : Flit) : Bool := f.crc == Config.flitCrc f.header f.member f.body

namespace Machine

/-! ## Forming -/

/-- COMM_READY (R378). -/
def execCommReady (key : Nat) (s : State) : Host.Outcome State Fault Refusal :=
  .next (match s.comms.find? fun m => m.key == key && s.commComplete m with
    | none => s
    | some m => (s.markHandles m .ready).modComm (· == m) fun m => { m with st := .ready })

/-- COMM_FORM_TIMEOUT (R378): 10 s without becoming READY. -/
def execCommFormTimeout (key : Nat) (s : State) : Host.Outcome State Fault Refusal :=
  .next (match s.comms.find? fun m => m.key == key && m.st == .forming && decide (10000000000 ≤ nsBetween m.since s.time) with
    | none => s
    | some m => s.killComm m)

/-! ## Deciding (R447, R448) -/

/-- ABORT_NOTICE (R447): the deciding engine settles an incomplete collective of a DEAD communicator. -/
def execAbortNotice (key k : Nat) (s : State) : Host.Outcome State Fault Refusal :=
  .next (if s.comms.any fun m => m.key == key && m.st == .dead && m.decidesHere then s.decideColl key k else s)

/-- COLL_DECISION_TIMEOUT (R448): 1 s without a decision; the members' own engines end the collective ABORTED. -/
def execCollDecisionTimeout (key k : Nat) (s : State) : Host.Outcome State Fault Refusal :=
  let due (q : Coll) : Bool := q.k == k && q.decided.isNone && q.deadAt.any fun t => decide (1000000000 ≤ nsBetween t s.time)
  .next (s.modComm (fun m => m.key == key && m.st == .dead) fun m =>
    { m with colls := mapIf due (fun q => { q with decided := some false }) m.colls })

/-! ## Links -/

/-- A flit's bytes of a rank's part of the k-th collective arrive, after those before them. -/
def Comm.takePart (m : Comm) (k first : Nat) (p : CollPart) : Comm :=
  let colls := if m.colls.any (fun q => q.k == k) then m.colls else m.colls ++ [{ k, parts := [] }]
  let more (y : CollPart) : CollPart := if y.rank == p.rank && y.data.length = first then { y with data := y.data ++ p.data } else y
  { m with colls := mapIf (fun q => q.k == k) (fun q => if first = 0 then q.addPart p else { q with parts := q.parts.map more }) colls }

/-- A rank has placed its destination; the deciding engine ends the collective DONE when all have. -/
def Comm.takePlaced (m : Comm) (k rank : Nat) : Comm :=
  { m with colls := mapIf (fun q => q.k == k) (fun q =>
      let placed := if q.placed.contains rank then q.placed else rank :: q.placed
      let all := (List.range m.nranks).all placed.contains
      { q with placed, decided := if q.decided.isNone && all && m.decidesHere && m.st != .dead then some true else q.decided }) m.colls }

/-- A member-table entry names a context of this package, in the partition whose port it came by (R471). -/
def State.namesHere (s : State) (port : Nat) (e : DWord × DWord) : Bool :=
  lowHalf e.1 == s.dev.package && s.partitionOf (portColumn port) == some (bitsOf e.1.toNat 39 32)

/-- A communicator has the local member that an entry names. -/
def State.addressed (s : State) (e : DWord × DWord) (m : Comm) : Bool :=
  m.joined.any fun j => j.2.any fun x => m.members.getD j.1 (0, 0) == e && s.listed m.members j.1 x

/-- What a flit carries takes effect (log 25): credits come back; anything else acts for the member its entry names, where that is a
context of this package in the partition of the port. -/
def State.flitEffect (s : State) (port : Nat) (e : DWord × DWord) (b : FlitBody) : State :=
  if !s.namesHere port e then (match b with | .credit ch n => s.modLink port fun l => l.credited ch n | _ => s)
  else match b with
  | .credit ch n => s.modLink port fun l => l.credited ch n
  | .join key nranks rank members =>
    let l := members.map fun m => (BitVec.ofNat 64 m, BitVec.ofNat 64 (m / 2 ^ 64))
    if l.contains e then s.joinRemote key nranks rank l else s
  | .collPart key k rank var fmt rop root count first data =>
    s.modComm (fun m => m.key == key && s.addressed e m && m.st != .dead && m.joined.any fun j => j.1 == rank && j.2.isNone) fun m =>
      m.takePart k first { rank, var, fmt, rop, root, count, data, op := none }
  | .placed key k rank =>
    (s.modComm (fun m => m.key == key && s.addressed e m && m.joined.any fun j => j.1 == rank && j.2.isNone) fun m => m.takePlaced k rank).tellDecisions s k
  | .abort key =>
    (s.comms.filter fun m => m.key == key && s.addressed e m && m.joined.any fun j => j.2.isNone).foldl (fun s m => s.killComm m) s
  | .decision key k done =>
    s.modComm (fun m => m.key == key && s.addressed e m && !m.decidesHere) fun m =>
      { m with colls := mapIf (fun q => q.k == k && q.decided.isNone) (fun q => { q with decided := some done }) m.colls }

/-- VOCIA_FLIT_RECEIVE (R470): a flit whose CRC fails is retried from its sequence number; others are taken in sequence, and the link is up.
The ports of a column no partition holds are powered down (R449). -/
def execVociaFlitReceive (port : Nat) (flit : Flit) (s : State) : Host.Outcome State Fault Refusal :=
  .next (if Config.vociaPorts ≤ port || (s.partitionOf (portColumn port)).isNone then s
    else if !flit.crcOk then s.modLink port fun l => { l with retry := true }
    else if flit.seq != (s.links.getD port default).seq then s
    else
      (s.modLink port fun l => ({ l with seq := (l.seq + 1) % 4096, retry := false, down := none } : Link).credited flit.vc flit.credits).flitEffect
        port flit.member flit.body)

/-- VOCIA_PATH_LOSS (R383, R471): a link goes down; one that has been down for 1 s of the time reference is a lost path, and the
communicators with members beyond it, of the port's own partition, become DEAD. -/
def execVociaPathLoss (port : Nat) (s : State) : Host.Outcome State Fault Refusal :=
  let part := s.partitionOf (portColumn port)
  let uses (m : Comm) : Bool := (m.joined.any fun j => j.2.isNone) && m.joined.any fun j => j.2.any fun x => part.isSome && s.partOf x == part
  .next (if Config.vociaPorts ≤ port then s
    else match (s.links.getD port default).down with
      | none => s.modLink port fun l => { l with down := some s.time }
      | some t => if 1000000000 ≤ nsBetween t s.time then (s.comms.filter uses).foldl (fun s m => s.killComm m) s else s)

end Machine

end Sys2Proof
end

