-- ==== Sys2Proof/Machine/Convert.lean ====
section
/-! DEFINITION. Conversion instructions and RNG (R318 to R327, R172). -/

namespace Sys2Proof.Machine

/-- The mode of a conversion that names one. -/
def cvtMode (o : CvtOp) : RMode := ⟨o.rnd, 0, 0⟩

/-- One element converted as CVT converts it (R319). -/
def cvtElem (o : CvtOp) (x : Nat) : Nat := convert o.src o.dst (cvtMode o) o.ftz o.sat x

/-- An element of FROM as a value, with FTZ. -/
def cvtValue (o : CvtOp) (x : Nat) : FVal := fval o.src (flushIn o.src o.ftz (x % 2 ^ o.src.width))

/-- A conversion of one 32-bit result. -/
def cvtMeaning (s : State) (f : Issue → Nat → Word) : Host.Outcome State Fault Refusal :=
  issuing s fun c => s.finish c (c.res32 (f c))

/-- CVT (R319). -/
def execCvt (o : CvtOp) (s : State) : Host.Outcome State Fault Refusal :=
  cvtMeaning s fun c l => placeResult o.dst (cvtElem o (c.w32 .a l).toNat)

/-- CVT.SR of the elements of a lane: the result word (R320). -/
def cvtSrWord (o : CvtOp) (a ax r : Nat) : Nat :=
  if o.dst.width = 32 then convert o.src o.dst ⟨.sr, r, 32⟩ o.ftz o.sat a
  else
    let elem (j : Nat) : Nat := if o.src.width = 32 then (if j = 0 then a else ax) else elemOf o.src a j
    let y (j : Nat) : Nat := convert o.src o.dst ⟨.sr, bitsOf r (16 * j + 15) (16 * j), 16⟩ o.ftz o.sat (elem j) % 2 ^ o.dst.width
    y 0 + y 1 * 2 ^ o.dst.width

/-- CVT.SR (R320): the random word is the token on port b. -/
def execCvtSr (o : CvtOp) (s : State) : Host.Outcome State Fault Refusal :=
  cvtMeaning s fun c l => BitVec.ofNat 32 (cvtSrWord o (c.w32 .a l).toNat (c.w32 .ax l).toNat (c.w32 .b l).toNat)

/-- PACK of two words of packed elements (R322): up to 128 bits. -/
def packWords (o : CvtOp) (a b : Nat) : Nat :=
  let k := 32 / o.src.width
  (List.range (2 * k)).foldl (fun r j =>
    r + cvtElem o (if j < k then elemOf o.src a j else elemOf o.src b (j - k)) % 2 ^ o.dst.width * 2 ^ (o.dst.width * j)) 0

/-- PACK (R322). -/
def execPack (o : CvtOp) (s : State) : Host.Outcome State Fault Refusal :=
  issuing s fun c => s.finish c (c.resN fun l => BitVec.ofNat 128 (packWords o (c.w32 .a l).toNat (c.w32 .b l).toNat))

/-- UNPACK (R323): element b mod (32 / wF) of the word on port a. -/
def execUnpack (o : CvtOp) (s : State) : Host.Outcome State Fault Refusal :=
  cvtMeaning s fun c l =>
    placeResult o.dst (cvtElem o (elemOf o.src (c.w32 .a l).toNat ((c.w32 .b l).toNat % (32 / o.src.width))))

/-- DSENC (R324). -/
def execDsenc (o : CvtOp) (s : State) : Host.Outcome State Fault Refusal :=
  cvtMeaning s fun c l => BitVec.ofNat 32 (dsEncode (cvtValue o (c.w32 .a l).toNat))

/-- DSDEC (R325). -/
def execDsdec (o : CvtOp) (s : State) : Host.Outcome State Fault Refusal :=
  cvtMeaning s fun c l =>
    match dsDecode ((c.w32 .a l).toNat % 256) with
    | .fin n m e => BitVec.ofNat 32 (if m == 0 then 0 else roundVal o.dst (cvtMode o) false false (.fin n m e))
    | _ => 0

/-- SCALEQ (R326). -/
def execScaleq (o : CvtOp) (s : State) : Host.Outcome State Fault Refusal :=
  cvtMeaning s fun c l => BitVec.ofNat 32 (scaleFor (cvtValue o (c.w32 .a l).toNat) ((c.w32 .b l).toNat % 16))

/-- QUANT (R327): an INT8 result is sign-extended. -/
def execQuant (o : CvtOp) (s : State) : Host.Outcome State Fault Refusal :=
  cvtMeaning s fun c l =>
    placeResult (if o.dst == .int8 then .int8 else .nat8)
      (quantise (o.dst == .int8) (cvtMode o) (cvtValue o (c.w32 .a l).toNat) ((c.w32 .b l).toNat % 256))

/-- RNG (R321): the word of R172 for the warp, its instance and the instruction's own index. -/
def execRng (_w : Wd) (s : State) : Host.Outcome State Fault Refusal :=
  issuing s fun c =>
    let rngw := ((s.teamOf c.who).map (·.lrec.rngw)).getD 0
    let seed := ((s.ctx? (s.ctxOf c.who)).map (·.seed)).getD 0
    match s.instOf c.who, c.who with
    | some i, .warp core slot _ =>
      let gwn := ((s.warp? core slot).map (·.gwn)).getD 0
      s.finish c (c.res32 fun l => rngWord seed i.number gwn i.iterNo c.idx rngw l)
    | _, _ => s.finish c (c.res32 fun l => rngWord seed 0 0 0 c.idx rngw l)

end Sys2Proof.Machine
end

