-- ==== Sys2Proof/Machine/Integer.lean ====
section
/-! DEFINITION. Integer and address instructions (R295 to R300): the functions of Table 13.5 on the operands read as
natural numbers of w bits, and one meaning for each form. -/

namespace Sys2Proof.Machine

/-! ## Operands and results (R295) -/

/-- The bits of one operand of a lane, as a natural number of w bits. -/
def intOperand (o : IntOp) (c : Issue) (q r : PortName) (l : Nat) : Nat :=
  if o.w64 then (c.w64 q r l).toNat else (c.w32 q l).toNat

/-- Operand b: the immediate sign-extended to w bits, or the port. -/
def intB (o : IntOp) (c : Issue) (l : Nat) : Nat :=
  match o.imm with
  | some x => (x.signExtend 64).toNat % 2 ^ o.width
  | none => intOperand o c .b .bx l

/-- The result of an integer form: a function of A, B and C in each lane, modulo 2^w (Table 13.5). -/
def intResult (o : IntOp) (c : Issue) (f : Nat → Nat → Nat → Nat) : List Lanes :=
  let r (l : Nat) : Nat := f (intOperand o c .a .ax l) (intB o c l) (intOperand o c .c .cx l)
  if o.w64 then c.res64 fun l => BitVec.ofNat 64 (r l) else c.res32 fun l => BitVec.ofNat 32 (r l)

/-- val(x): signed under .s, natural under .n. -/
def intValue (o : IntOp) (x : Nat) : Int := if o.nat then (x : Int) else signedOf x o.width

/-- An integer as w bits. -/
def wrapInt (w : Nat) (x : Int) : Nat := (x % ((2 ^ w : Nat) : Int)).toNat

/-! ## The functions of Table 13.5 -/

/-- IMULH: floor(val(a) × val(b) / 2^w). -/
def mulHigh (o : IntOp) (a b : Nat) : Nat :=
  wrapInt o.width ((intValue o a * intValue o b) / ((2 ^ o.width : Nat) : Int))

/-- IABS. -/
def absInt (o : IntOp) (a : Nat) : Nat := if o.nat then a else (signedOf a o.width).natAbs

/-- IMIN and IMAX. -/
def pickInt (o : IntOp) (wantMax : Bool) (a b : Nat) : Nat :=
  if decide (intValue o a ≤ intValue o b) == wantMax then b else a

/-- IDIV and IREM (R296): quotient and remainder. -/
def divRem (o : IntOp) (a b : Nat) : Nat × Nat :=
  let w := o.width
  if b = 0 then (2 ^ w - 1, a)
  else if o.nat then (a / b, a % b)
  else
    let x := signedOf a w
    let y := signedOf b w
    let t := x.tdiv y
    (wrapInt w t, wrapInt w (x - t * y))

/-- SHL, SHR, SAR (R297). -/
def shiftLeft (w a b : Nat) : Nat := if b < w then a * 2 ^ b else 0
def shiftRight (w a b : Nat) : Nat := if b < w then a / 2 ^ b else 0
def shiftArith (w a b : Nat) : Nat := wrapInt w (signedOf a w / ((2 ^ min b w : Nat) : Int))

/-- ROL by B mod w; ROR by B is ROL by w − B mod w (R297). -/
def rotLeft (w a b : Nat) : Nat := a * 2 ^ (b % w) + a / 2 ^ (w - b % w)
def rotRight (w a b : Nat) : Nat := rotLeft w a (w - b % w)

/-- Numbers of ones, of leading zeros and of trailing zeros, and the mirrored word. -/
def onesIn (w a : Nat) : Nat := ((List.range w).filter fun j => a.testBit j).length
def leadZeros (w a : Nat) : Nat := if a = 0 then w else w - 1 - a.log2
def trailZeros (w a : Nat) : Nat := ((List.range w).find? fun j => a.testBit j).getD w
def mirror (w a : Nat) : Nat := ((List.range w).filter fun j => a.testBit j).foldl (fun r j => r + 2 ^ (w - 1 - j)) 0

/-- BFX (R298): the field of the control word B. -/
def fieldExtract (o : IntOp) (a b : Nat) : Nat :=
  let w := o.width
  let p := bitsOf b 7 0
  let n := bitsOf b 15 8
  if n = 0 || w ≤ p then 0
  else
    let m := min n (w - p)
    let f := bitsOf a (p + m - 1) p
    if o.nat then f else wrapInt w (signedOf f m)

/-- BFI (R298). -/
def fieldInsert (w a b c : Nat) : Nat :=
  let p := bitsOf b 7 0
  let n := bitsOf b 15 8
  if n = 0 || w ≤ p then a
  else
    let m := min n (w - p)
    a % 2 ^ p + c % 2 ^ m * 2 ^ p + a / 2 ^ (p + m) * 2 ^ (p + m)

/-- ICMP (R299). -/
def relHolds (rel : CmpRel) (x y : Int) : Bool :=
  match rel with
  | .eq => x == y | .ne => x != y | .lt => decide (x < y) | .le => decide (x ≤ y) | .gt => decide (y < x) | .ge => decide (y ≤ x)

/-- The result of a comparison: all ones or zero, 32 bits. -/
def truthWord (b : Bool) : Word := if b then 0xFFFFFFFF else 0

/-! ## The forms -/

/-- An integer form computes a function of its operands. -/
def intMeaning (o : IntOp) (s : State) (f : Nat → Nat → Nat → Nat) : Host.Outcome State Fault Refusal :=
  issuing s fun c => s.finish c (intResult o c f)

def execIadd (o : IntOp) (s : State) := intMeaning o s fun a b _ => a + b
def execIsub (o : IntOp) (s : State) := intMeaning o s fun a b _ => a + (2 ^ o.width - b)
def execImul (o : IntOp) (s : State) := intMeaning o s fun a b _ => a * b
def execImulh (o : IntOp) (s : State) := intMeaning o s fun a b _ => mulHigh o a b
def execImad (o : IntOp) (s : State) := intMeaning o s fun a b c => a * b + c
def execIneg (o : IntOp) (s : State) := intMeaning o s fun a _ _ => 2 ^ o.width - a
def execIabs (o : IntOp) (s : State) := intMeaning o s fun a _ _ => absInt o a
def execImin (o : IntOp) (s : State) := intMeaning o s fun a b _ => pickInt o false a b
def execImax (o : IntOp) (s : State) := intMeaning o s fun a b _ => pickInt o true a b
def execIdiv (o : IntOp) (s : State) := intMeaning o s fun a b _ => (divRem o a b).1
def execIrem (o : IntOp) (s : State) := intMeaning o s fun a b _ => (divRem o a b).2
def execIand (o : IntOp) (s : State) := intMeaning o s fun a b _ => a &&& b
def execIor (o : IntOp) (s : State) := intMeaning o s fun a b _ => a ||| b
def execIxor (o : IntOp) (s : State) := intMeaning o s fun a b _ => a ^^^ b
def execInot (o : IntOp) (s : State) := intMeaning o s fun a _ _ => 2 ^ o.width - 1 - a
def execAndn (o : IntOp) (s : State) := intMeaning o s fun a b _ => a &&& (2 ^ o.width - 1 - b)
def execShl (o : IntOp) (s : State) := intMeaning o s fun a b _ => shiftLeft o.width a b
def execShr (o : IntOp) (s : State) := intMeaning o s fun a b _ => shiftRight o.width a b
def execSar (o : IntOp) (s : State) := intMeaning o s fun a b _ => shiftArith o.width a b
def execRol (o : IntOp) (s : State) := intMeaning o s fun a b _ => rotLeft o.width a b
def execRor (o : IntOp) (s : State) := intMeaning o s fun a b _ => rotRight o.width a b
def execPopc (o : IntOp) (s : State) := intMeaning o s fun a _ _ => onesIn o.width a
def execClz (o : IntOp) (s : State) := intMeaning o s fun a _ _ => leadZeros o.width a
def execCtz (o : IntOp) (s : State) := intMeaning o s fun a _ _ => trailZeros o.width a
def execBrev (o : IntOp) (s : State) := intMeaning o s fun a _ _ => mirror o.width a
def execBfx (o : IntOp) (s : State) := intMeaning o s fun a b _ => fieldExtract o a b
def execBfi (o : IntOp) (s : State) := intMeaning o s fun a b c => fieldInsert o.width a b c

/-- ICMP (R299): a 32-bit truth value in every form. -/
def execIcmp (rel : CmpRel) (o : IntOp) (s : State) : Host.Outcome State Fault Refusal :=
  issuing s fun c => s.finish c (c.res32 fun l =>
    truthWord (relHolds rel (intValue o (intOperand o c .a .ax l)) (intValue o (intB o c l))))

/-- LEA (R300): A + B × 2^k. -/
def execLea (sh : BitVec 4) (o : IntOp) (s : State) : Host.Outcome State Fault Refusal :=
  intMeaning o s fun a b _ => a + b * 2 ^ sh.toNat

end Sys2Proof.Machine
end

