-- ==== Sys2Proof/Machine/Float.lean ====
section
/-! DEFINITION. Floating-point instructions (R308 to R317): preparing operands, and one meaning for each form. -/

namespace Sys2Proof.Machine

/-! ## Operands (R309) -/

/-- PREPARE an operand: absolute value, then sign inversion, then the flush of .ftz (R309). -/
def prepare (f : Fmt) (ftz absx negx : Bool) (x : Nat) : Nat :=
  let sign := 2 ^ (f.spec.width - 1)
  let x := if absx then x % sign else x
  let x := if negx then (if x / sign % 2 = 1 then x - sign else x + sign) else x
  flushIn f ftz x

/-- The FP32 bits of operand a, b or c of a lane, prepared; b may be an immediate (R258). -/
def fltA (o : FltOp) (c : Issue) (l : Nat) : Nat := prepare .fp32 o.ftz o.absA o.negA (c.w32 .a l).toNat
def fltB (o : FltOp) (c : Issue) (l : Nat) : Nat :=
  prepare .fp32 o.ftz o.absB o.negB (match o.imm with | some x => x.toNat * 2 ^ 15 | none => (c.w32 .b l).toNat)
def fltC (o : FltOp) (c : Issue) (l : Nat) : Nat := prepare .fp32 o.ftz o.absC o.negC (c.w32 .c l).toNat

/-- The rounding mode of a form. -/
def fltMode (o : FltOp) : RMode := ⟨o.rnd, 0, 0⟩

/-- A floating form's result from its prepared operands. -/
def fltMeaning (o : FltOp) (s : State) (f : Nat → Nat → Nat → Nat) : Host.Outcome State Fault Refusal :=
  issuing s fun c => s.finish c (c.res32 fun l => BitVec.ofNat 32 (f (fltA o c l) (fltB o c l) (fltC o c l)))

/-! ## Arithmetic with one rounding (R310) -/

def execFadd (o : FltOp) (s : State) := fltMeaning o s fun a b _ => fAdd .fp32 (fltMode o) o.ftz (fval .fp32 a) (fval .fp32 b)
def execFsub (o : FltOp) (s : State) := fltMeaning o s fun a b _ => fAdd .fp32 (fltMode o) o.ftz (fval .fp32 a) (fval .fp32 b).negate
def execFmul (o : FltOp) (s : State) := fltMeaning o s fun a b _ => fMul .fp32 (fltMode o) o.ftz (fval .fp32 a) (fval .fp32 b)
def execFfma (o : FltOp) (s : State) := fltMeaning o s fun a b c => fFma .fp32 (fltMode o) o.ftz (fval .fp32 a) (fval .fp32 b) (fval .fp32 c)
def execFdiv (o : FltOp) (s : State) := fltMeaning o s fun a b _ => fDiv .fp32 (fltMode o) o.ftz (fval .fp32 a) (fval .fp32 b)
def execFsqrt (o : FltOp) (s : State) := fltMeaning o s fun a _ _ => fSqrt .fp32 (fltMode o) o.ftz (fval .fp32 a)

/-- FLDEXP (R310): operand b is an INT32; its immediate is sign-extended (R308). -/
def execFldexp (o : FltOp) (s : State) : Host.Outcome State Fault Refusal :=
  issuing s fun c => s.finish c (c.res32 fun l =>
    let y : Int := match o.imm with | some x => x.toInt | none => (c.w32 .b l).toInt
    BitVec.ofNat 32 (fLdexp .fp32 (fltMode o) o.ftz (fval .fp32 (fltA o c l)) y))

/-! ## Minimum, maximum, compare and class (R312 to R314) -/

def execFmin (num : Bool) (o : FltOp) (s : State) := fltMeaning o s fun a b _ => fMinMax .fp32 false num a b
def execFmax (num : Bool) (o : FltOp) (s : State) := fltMeaning o s fun a b _ => fMinMax .fp32 true num a b
def execFcmp (rel : FCmpRel) (o : FltOp) (s : State) :=
  fltMeaning o s fun a b _ => (truthWord (fCompare rel (fval .fp32 a) (fval .fp32 b))).toNat
def execFclass (o : FltOp) (s : State) := fltMeaning o s fun a _ _ => fClass a

/-! ## Rounding to an integral value (R315) and approximations (R316) -/

def execFrnd (o : FltOp) (s : State) := fltMeaning o s fun a _ _ => fRound (fltMode o) a
def execFrcp (o : FltOp) (s : State) := fltMeaning o s fun a _ _ => approximate .rcp o.ftz a
def execFrsq (o : FltOp) (s : State) := fltMeaning o s fun a _ _ => approximate .rsq o.ftz a
def execFex2 (o : FltOp) (s : State) := fltMeaning o s fun a _ _ => approximate .ex2 o.ftz a
def execFlg2 (o : FltOp) (s : State) := fltMeaning o s fun a _ _ => approximate .lg2 o.ftz a
def execFsin (o : FltOp) (s : State) := fltMeaning o s fun a _ _ => approximate .sin o.ftz a
def execFcos (o : FltOp) (s : State) := fltMeaning o s fun a _ _ => approximate .cos o.ftz a

/-! ## Packed halves (R311) -/

/-- The format of a half. -/
def halfFmt (bf : Bool) : Fmt := if bf then .bf16 else .fp16

/-- Half `h` of an operand, prepared. -/
def halfOf (f : Fmt) (ftz absx negx : Bool) (x h : Nat) : Nat := prepare f ftz absx negx (x / 2 ^ (16 * h) % 2 ^ 16)

/-- A packed form: each half computed by itself; an immediate supplies both halves (R258). -/
def halfMeaning (bf : Bool) (o : FltOp) (s : State) (f : Fmt → Nat → Nat → Nat → Nat) : Host.Outcome State Fault Refusal :=
  issuing s fun c => s.finish c (c.res32 fun l =>
    let b : Nat := match o.imm with | some x => x.toNat % 2 ^ 16 * 65537 | none => (c.w32 .b l).toNat
    let r (h : Nat) : Nat := f (halfFmt bf) (halfOf (halfFmt bf) o.ftz o.absA o.negA (c.w32 .a l).toNat h)
      (halfOf (halfFmt bf) o.ftz o.absB o.negB b h) (halfOf (halfFmt bf) o.ftz o.absC o.negC (c.w32 .c l).toNat h)
    BitVec.ofNat 32 (r 0 % 2 ^ 16 + r 1 % 2 ^ 16 * 2 ^ 16))

def execHadd2 (bf : Bool) (o : FltOp) (s : State) := halfMeaning bf o s fun f a b _ => fAdd f (fltMode o) o.ftz (fval f a) (fval f b)
def execHmul2 (bf : Bool) (o : FltOp) (s : State) := halfMeaning bf o s fun f a b _ => fMul f (fltMode o) o.ftz (fval f a) (fval f b)
def execHfma2 (bf : Bool) (o : FltOp) (s : State) := halfMeaning bf o s fun f a b c => fFma f (fltMode o) o.ftz (fval f a) (fval f b) (fval f c)

end Sys2Proof.Machine
end

