-- ==== Sys2Proof/Machine/Host.lean ====
section
/-! DEFINITION. The host's side of a virtual function (R458 to R469): the register page, kicks, the fault queue, handover and
release commands, BAR2, FLR and hot reset. An event whose conditions do not hold changes nothing. -/

namespace Sys2Proof.Machine

/-! ## The register page (Table 21.2) -/

/-- An ignored write sets VF.STATUS [3]. -/
def State.ignore (s : State) (vf : Nat) : State := s.modVf vf fun v => { v with ignored := true }

/-- The function exists and its page answers: the device is up and no FLR runs (R460, R474). -/
def State.pageUp (s : State) (vf : Nat) : Bool := vf < Config.functions && s.dev.up && !(s.vf vf).flr

/-- A request is a posted write of the function: a write to its page or through BAR2. -/
def isPosted : Instr → Bool
  | .bar2Read .. | .bar2Atomicop .. | .atsInvalidation .. => false
  | _ => true

/-- A posted write of the function waits: no later write, read or AtomicOp of the function passes it (R467, R480). -/
def State.behindWrites (s : State) (vf : Nat) : Bool := (s.vf vf).posted.any isPosted

/-- The function's page answers, and a write that arrives is performed at once. -/
def State.pageOpen (s : State) (vf : Nat) : Bool := s.pageUp vf && !s.behindWrites vf

/-- A write to a function's page; `i` is its event, which waits behind earlier posted writes of the function. -/
def State.pageWrite (s : State) (vf : Nat) (i : Instr) (f : State → State) : Host.Outcome State Fault Refusal :=
  .next (if s.pageOpen vf then f s else if s.pageUp vf then s.postpone vf i else s)

/-- The root of a function. -/
def State.vfRoot (s : State) (vf : Nat) : Option Ctx := (s.vf vf).root.bind s.ctx?

/-- VF.STATUS. -/
def State.vfStatus (s : State) (vf : Nat) : Nat :=
  let v := s.vf vf
  let st := match (s.vfRoot vf).map (·.st) with | none => 0 | some .stopped => 1 | some .running => 2 | some .killing => 3
  v.ready.toNat + fieldAt st 1 2 + fieldAt v.ignored.toNat 3 1 + fieldAt v.gen 16 16

/-- A read of `width` bytes of the register page (R461, Table 21.2): narrower or unlisted accesses, and reads during an FLR,
give 0. -/
def State.vfRead (s : State) (vf off width : Nat) : Nat :=
  let v := s.vf vf
  if width ≠ 8 || off % 8 ≠ 0 || !s.pageUp vf then 0
  else if off = 0x000 then s.vfStatus vf
  else if off = 0x008 then ((s.vfRoot vf).map fun r => r.id.toNat).getD 0
  else if off = 0x010 then v.rtroot.toNat
  else if off = 0x018 then v.rentry.toNat
  else if off = 0x030 then v.rarg.toNat
  else if off = 0x038 then v.cstat.toNat
  else if off = 0x040 then v.fqBase.toNat
  else if off = 0x048 then v.fqSize.toNat
  else if off = 0x050 then v.fqHead.toNat
  else if off = 0x058 then v.fqTail.toNat
  else if off = 0x068 then v.fqRstat.toNat
  else if 0x080 ≤ off && off < 0x0A0 then (v.hcmd.getD ((off - 0x080) / 8) 0).toNat
  else if off = 0x0A8 then v.frelDone.toNat
  else if off = 0x0B0 then v.aper.toNat
  else if 0x100 ≤ off && off < 0x100 + 8 * 63 then ((s.vfRoot vf).map fun r => (r.events.getD ((off - 0x100) / 8) 0).toNat).getD 0
  else if 0x800 ≤ off then ((s.capList vf).getD ((off - 0x800) / 8) 0).toNat
  else 0

/-- The bits of a word of HCMD that Table 4.6 gives a field; the others are reserved: ignored on write, read as 0 (R8). -/
def hcmdFields (n : Nat) : DWord :=
  match n with
  | 0 => 0xFFFFFFFFFFFFF000
  | 1 => 0x00000000FFFFFFFF
  | 2 => 0xFFFFFFFFFFFFFFFF
  | _ => 0xFFFFFFFF00000000

/-- VF_REGISTER_WRITE (R461, R464): the registers that only hold a value; a narrower write, a write to a read-only or an unlisted
offset is dropped. A register with an action of its own is written by that action's event. -/
def execVfRegisterWrite (vf off : Nat) (value : DWord) (width : Nat) (s : State) : Host.Outcome State Fault Refusal :=
  s.pageWrite vf (.vfRegisterWrite vf off value width) fun s =>
    if width ≠ 8 || off % 8 ≠ 0 then s
    else if off = 0x010 then s.modVf vf fun v => { v with rtroot := value }
    else if off = 0x018 then s.modVf vf fun v => { v with rentry := value }
    else if off = 0x030 then s.modVf vf fun v => { v with rarg := value }
    else if 0x080 ≤ off && off < 0x098 then s.modVf vf fun v => { v with hcmd := listMod v.hcmd ((off - 0x080) / 8) fun _ => value &&& hcmdFields ((off - 0x080) / 8) }
    else s

/-- APER_BASE_WRITE (Table 21.2). -/
def execAperBaseWrite (vf : Nat) (value : DWord) (s : State) : Host.Outcome State Fault Refusal :=
  s.pageWrite vf (.aperBaseWrite vf value) fun s => if value.toNat % 2 ^ 30 = 0 then s.modVf vf fun v => { v with aper := value } else s.ignore vf

/-- KICK (R467): the root's event counter rises; with no root the write is dropped. -/
def execKick (vf e : Nat) (s : State) : Host.Outcome State Fault Refusal :=
  s.pageWrite vf (.kick vf e) fun s =>
    if 63 ≤ e then s
    else match s.vfRoot vf with
      | none => s.ignore vf
      | some r => s.modCtx r.idx fun c => { c with events := listMod c.events e (· + 1), kicked := e :: c.kicked.filter (· != e) }

/-- ROOT_START (R462): the root is given ROOT.TROOT and ROOT.ENTRY and starts; its handover table is empty (R100). -/
def execRootStart (vf : Nat) (value : DWord) (s : State) : Host.Outcome State Fault Refusal :=
  s.pageWrite vf (.rootStart vf value) fun s =>
    match s.vfRoot vf with
    | none => s.ignore vf
    | some r =>
      if value != 1 || r.st != .stopped then s.ignore vf
      else
        let v := s.vf vf
        (((s.modCtx r.idx fun c => { c with troot := v.rtroot, entry := v.rentry }).tlbDropCtxs [r.idx]).modVf vf fun v =>
          { v with hand := [] }).startCtx r.idx

/-- ROOT_CMD_INVALID (Table 21.2). -/
def execRootCmdInvalid (vf : Nat) (value : DWord) (s : State) : Host.Outcome State Fault Refusal :=
  s.pageWrite vf (.rootCmdInvalid vf value) fun s => if value = 1 ∨ value = 2 ∨ value = 3 then s else s.ignore vf

/-! ## The fault queue (R463) -/

/-- A size FQ.SIZE takes. -/
def fqSizeOk (n : Nat) : Bool := (List.range 11).any fun k => n == 64 * 2 ^ k

/-- FQ_CONFIG_WRITE (R463): FQ.BASE or, with `size`, FQ.SIZE. -/
def execFqConfigWrite (vf : Nat) (size : Bool) (value : DWord) (s : State) : Host.Outcome State Fault Refusal :=
  s.pageWrite vf (.fqConfigWrite vf size value) fun s =>
    let v := s.vf vf
    if v.root.isSome && v.fqSize != 0 then s.ignore vf
    else if size then
      if fqSizeOk value.toNat then (s.modVf vf fun v => { v with fqSize := value }).drainHostFaults vf else s.ignore vf
    else if value.toNat % 4096 = 0 then s.modVf vf fun v => { v with fqBase := value }
    else s.ignore vf

/-- FQ_HEAD_WRITE (R463): the host has consumed records; those that waited enter. -/
def execFqHeadWrite (vf : Nat) (value : DWord) (s : State) : Host.Outcome State Fault Refusal :=
  s.pageWrite vf (.fqHeadWrite vf value) fun s => (s.modVf vf fun v => { v with fqHead := value }).drainHostFaults vf

/-- The status of a write to FQ.RESUME (R463, R446). -/
def State.fqResumeStatus (s : State) (r : Ctx) (halt : Nat) : CtxStatus :=
  if halt = 0 then .malformed else if r.st == .killing then .killing else s.resumeStatus r.idx r halt

/-- FQ_RESUME (R463): performed after every earlier posted write of the function, BAR2 writes included, as a kick is (R480). -/
def execFqResume (vf : Nat) (value : DWord) (s : State) : Host.Outcome State Fault Refusal :=
  s.pageWrite vf (.fqResume vf value) fun s =>
    match s.vfRoot vf with
    | none => s.ignore vf
    | some r =>
      let halt := bitsOf value.toNat 15 0
      let st := s.fqResumeStatus r halt
      (if st == .done then s.resumeHalts r.idx r.idx halt else s).modVf vf fun v => { v with fqRstat := BitVec.ofNat 64 st.num }

/-! ## Handover and release (R102 to R105, R464) -/

/-- Write word 3 of HCMD, which submits the command. -/
def State.hcmdWrite (s : State) (vf : Nat) (w3 : DWord) : State := s.modVf vf fun v => { v with hcmd := listMod v.hcmd 3 fun _ => w3 &&& hcmdFields 3 }

/-- The command the four words hold (Table 4.6), and whether its direction is sound. -/
def hcmdOf (ws : List DWord) : HandCmd × Bool :=
  let f (n hi lo : Nat) : Nat := bitsOf (ws.getD n 0).toNat hi lo
  ({ toHost := f 2 1 0 == 1, page := f 0 63 12, npages := f 1 31 0, staddr := f 2 63 3 * 8, msix := f 2 2 2 == 1, tag := f 3 63 32 },
   f 2 1 0 < 2)

/-- Carry out a handover command: it is refused at once where its form is malformed or its region IN_TRANSIT as it arrives; otherwise
it is carried out after the commands for its region that came before it (R105). -/
def State.handCommand (s : State) (vf : Nat) (h : HandCmd) (ok : Bool) : State :=
  if !ok || h.npages = 0 || 1048576 < h.npages then s.handReport vf h 2
  else if (s.vf vf).inTransit h.page h.npages then s.handReport vf h 5
  else (s.modVf vf fun v => { v with handCmds := v.handCmds ++ [h] }).handPoll vf

/-- HANDOVER_TO_HOST (R103): a command with DIR 1. -/
def execHandoverToHost (vf : Nat) (word3 : DWord) (s : State) : Host.Outcome State Fault Refusal :=
  s.pageWrite vf (.handoverToHost vf word3) fun s =>
    let q := hcmdOf (listMod (s.vf vf).hcmd 3 fun _ => word3)
    if q.1.toHost then (s.hcmdWrite vf word3).handCommand vf q.1 q.2 else s

/-- HANDOVER_TO_DEVICE (R104): a command with DIR 0, and one whose DIR is malformed. -/
def execHandoverToDevice (vf : Nat) (word3 : DWord) (s : State) : Host.Outcome State Fault Refusal :=
  s.pageWrite vf (.handoverToDevice vf word3) fun s =>
    let q := hcmdOf (listMod (s.vf vf).hcmd 3 fun _ => word3)
    if q.1.toHost then s else (s.hcmdWrite vf word3).handCommand vf q.1 q.2

/-- The regions of a function: its root's, or its profile's. -/
def State.vfRegions (s : State) (vf : Nat) : List Nat :=
  match s.vfRoot vf with
  | some r => r.regions
  | none => ((s.vf vf).profile.map fun q => q.2.regions).getD []

/-- RELEASE_COMMAND (R75, R464): a frame of the function's region set is released. -/
def execReleaseCommand (vf : Nat) (value : DWord) (s : State) : Host.Outcome State Fault Refusal :=
  s.pageWrite vf (.releaseCommand vf value) fun s =>
    let a := value.toNat
    let rg := s.dev.regions.getD (dpaRegion a) {}
    if a < 2 ^ 52 && (s.vfRegions vf).contains (dpaRegion a) && dpaOffset a < rg.size then s.releaseFrame (frameOf a) (some vf)
    else s.ignore vf

/-! ## BAR2 (R468) -/

/-- Translate the parts of a range for the host: none while the host must answer first. -/
def State.aperParts (s : State) (root : Ctx) (acc : AccKind) : List (Nat × Nat) → State × Except WalkStop (List (Place × Nat))
  | [] => (s, .ok [])
  | (va, n) :: rest =>
    match s.translate (root.cores.headD 0) root.idx (BitVec.ofNat 64 va) acc with
    | (s, .error e) => (s, .error e)
    | (s, .ok p) =>
      match s.aperParts root acc rest with
      | (s, .error e) => (s, .error e)
      | (s, .ok l) => (s, .ok ((p, n) :: l))

/-- The completion of a host request (R468): status 0 with data, 1 UR, 2 CA, 3 malformed TLP. -/
def State.complete (s : State) (vf status : Nat) (data : List (BitVec 8)) : State := s.modVf vf fun v => { v with reply := some (status, data) }

/-- A request whose translation faults completes with UR and is counted. -/
def State.completeUr (s : State) (vf : Nat) : State := (s.complete vf 1 []).modVf vf fun v => { v with urCount := v.urCount + 1 }

/-- A request through the aperture: its parts are translated, then it is performed. `i` is its event: it waits for a translation the
host has to give, and behind earlier posted writes of the function. -/
def State.aperture (s : State) (vf off n : Nat) (acc : AccKind) (i : Instr) (f : State → List (Place × Nat) → State) : State :=
  if !s.dev.up || 2 ^ 30 < off + n then s
  else if !(s.vf vf).flr && s.behindWrites vf then s.postpone vf i
  else match (if (s.vf vf).flr then none else s.vfRoot vf) with
    | none => s.completeUr vf
    | some r =>
      match s.aperParts r acc (pieces (n / 64 + 2) ((s.vf vf).aper.toNat + off) n) with
      | (s, .ok l) => f s l
      | (s, .error (.fault _)) => s.completeUr vf
      | (s, .error (.host v page wr)) => (s.askHost v page wr).postpone vf i

/-- The bytes a host read through the aperture gives: those of a device-owned page of host memory are undefined (R101, log 23). -/
def State.aperRead (s : State) (p : Place) (n : Nat) : State × List (BitVec 8) :=
  match p with
  | .host _ _ true => ({ s with free := s.free + n }, (List.range n).map fun i => Config.freeByte (s.free + i))
  | _ => s.homeRead none p n

/-- A host write to a device-owned page leaves undefined bytes in the device's copies of what it wrote (R101, log 23). -/
def State.spoilCopies (s : State) (p : Place) (n : Nat) : State :=
  match p with
  | .host vf a true =>
    let spoil (x : L1Sector) : L1Sector :=
      if x.key.vf == some vf then
        { x with data := x.data.zipIdx.map fun q => let b := x.key.sec * 64 + q.2
                                                    if a ≤ b && b < a + n then Config.freeByte (s.free + (b - a)) else q.1 }
      else x
    { s with free := s.free + n, cores := s.cores.map fun (q : Nat × Core) => (q.1, { q.2 with l1 := q.2.l1.map spoil }) }
  | _ => s

/-- The host's write of bytes through the aperture. -/
def State.aperWrite (s : State) (p : Place) (bs : List (BitVec 8)) : State := (s.homePoke none p bs).spoilCopies p bs.length

/-- BAR2_READ. -/
def execBar2Read (vf off n : Nat) (s : State) : Host.Outcome State Fault Refusal :=
  .next (s.aperture vf off n .read (.bar2Read vf off n) fun s l =>
    let (s, bs) := l.foldl (fun (r : State × List (BitVec 8)) q => let (s, bs) := r.1.aperRead q.1 q.2; (s, r.2 ++ bs)) (s, [])
    s.complete vf 0 bs)

/-- BAR2_WRITE. -/
def execBar2Write (vf off : Nat) (data : List (BitVec 8)) (s : State) : Host.Outcome State Fault Refusal :=
  .next (s.aperture vf off data.length .write (.bar2Write vf off data) fun s l =>
    (l.foldl (fun (q : State × List (BitVec 8)) p => (q.1.aperWrite p.1 (q.2.take p.2), q.2.drop p.2)) (s, data)).1)

/-- The AtomicOps a host may send: FetchAdd, Swap and CAS (Table 21.1). -/
def hostAtomic (op : AtomOp) (aw : AWidth) : Bool := match op with | .add | .exch => aw != .w128 | .cas => true | _ => false

/-- BAR2_ATOMICOP (R468): a misaligned one is a malformed TLP, a 128-bit CAS completes with CA, any other is performed at the
home. -/
def execBar2Atomicop (vf off : Nat) (op : AtomOp) (aw : AWidth) (v cmp : BitVec 128) (s : State) : Host.Outcome State Fault Refusal :=
  let n := aw.bytes
  .next (if !hostAtomic op aw || !s.dev.up || 2 ^ 30 < off + n then s
    else if off % n ≠ 0 then s.complete vf 3 []
    else if aw == .w128 then s.complete vf 2 []
    else s.aperture vf off n .atomic (.bar2Atomicop vf off op aw v cmp) fun s l =>
      match l with
      | (p, _) :: _ =>
        match p with
        | .host w _ _ => if (s.vf w).atomicReq then go s p n else s.completeUr vf
        | _ => go s p n
      | [] => s)
where
  go (s : State) (p : Place) (n : Nat) : State :=
    let (s, bs) := (s.settleSector none p n).aperRead p n
    let old := bytesVal bs
    let s := match atomNew op n old (v.toNat % 2 ^ (8 * n)) (cmp.toNat % 2 ^ (8 * n)) with
      | none => s
      | some x => s.aperWrite p (valBytes n x)
    s.complete vf 0 (valBytes n old)

/-- ATOMICOP_REQUESTER_ENABLE (R145): the bit of the function's Device Control 2 register. -/
def execAtomicopRequesterEnable (vf : Nat) (enable : Bool) (s : State) : Host.Outcome State Fault Refusal :=
  .next (s.modVf vf fun v => { v with atomicReq := enable })

/-! ## FLR and hot reset (R83, R105, R460) -/

/-- Dirty device copies of a function's host memory are discarded. -/
def State.discardHost (s : State) (vf : Nat) : State :=
  let s := (s.cores.map (·.1)).foldl (fun s c =>
    ((s.core c).l1.filter fun y => y.key.vf == some vf).foldl (fun s y => s.l1Drop c y.key) s) s
  { s with reqs := s.reqs.filter fun r => match r.kind with
      | .write k _ _ none | .filled k _ _ => k.vf != some vf
      | _ => true }

/-- The register page at its reset values; page-request indices are quarantined in a new generation. -/
def Vf.flrReset (v : Vf) (now : Nat) : Vf :=
  { v with ready := false, ignored := false, gen := (v.gen + 1) % 65536, flr := false
           rtroot := 0, rentry := 0, rarg := 0, cstat := 0, fqBase := 0, fqSize := 0, fqHead := 0, fqTail := 0, fqRstat := 0
           hcmd := [0, 0, 0, 0], frelDone := 0, aper := 0, atomicReq := false, saving := false, hand := [], handCmds := []
           atsPend := [], atsOk := [], atsFail := [], fqWait := [], posted := []
           pri := v.pri.map fun r => if r.quarantine then r else { r with quarantine := true, since := now } }

/-- FLR (R460), its first step: the root is killed. From here on the function's page answers nothing, its host requests are gone, and it
sends no translation or page request. -/
def execFlr (vf : Nat) (s : State) : Host.Outcome State Fault Refusal :=
  .next (if !s.pageUp vf then s
    else
      let s : State := match s.vfRoot vf with
        | some r => if r.st == CtxSt.killing then s else s.startKill r.idx none 0
        | none => s
      s.modVf vf fun v => { v with flr := true, ready := false, posted := [] })

/-- FLR_COMPLETE (R460): the root is gone; handover commands end with 0x06 and their table is empty, page-request indices are
quarantined in a new generation, the page is at its reset values, and the function is ready. -/
def execFlrComplete (vf : Nat) (s : State) : Host.Outcome State Fault Refusal :=
  .next (if (s.vf vf).flr && (s.vf vf).root.isNone then
      let s := (s.vf vf).handCmds.foldl (fun s h => s.handReport vf h 6) s
      (s.discardHost vf).modVf vf fun v => { v.flrReset s.time with ready := s.dev.up }
    else s)

/-- What a reset of the whole device leaves: fuses, the firmware image, the host's memory and the reference. -/
def State.deviceReset (s : State) (power : Bool) : State :=
  { State.reset with
    dev := { State.reset.dev with power, grade := s.dev.grade, package := s.dev.package, disabled := s.dev.disabled
                                  rollback := s.dev.rollback, keyHash := s.dev.keyHash, fwVersion := s.dev.fwVersion, away := s.dev.away, nextImage := s.dev.nextImage }
    mem := { State.reset.mem with host := s.mem.host }
    gens := s.gens, time := s.time, free := s.free, agenda := s.agenda }

/-- HOT_RESET (Table 21.1). -/
def execHotReset (s : State) : Host.Outcome State Fault Refusal := .next (s.deviceReset s.dev.power)

end Sys2Proof.Machine
end

