-- ==== Sys2Proof/Machine/Lane.lean ====
section
/-! DEFINITION. Lane instructions (R301 to R307): shuffles, votes, and the fixed trees of REDUCE and SCAN
(R178, R179). -/

namespace Sys2Proof.Machine

/-- The value of operand a of a lane. -/
def laneA (c : Issue) (w64 : Bool) (l : Nat) : Nat := if w64 then (c.w64 .a .ax l).toNat else (c.w32 .a l).toNat

/-- A result of the width of operand a. -/
def laneResult (c : Issue) (w64 : Bool) (f : Nat → Nat) : List Lanes :=
  if w64 then c.res64 fun l => BitVec.ofNat 64 (f l) else c.res32 fun l => BitVec.ofNat 32 (f l)

/-- LANEID (R302). -/
def execLaneid (_w : Wd) (s : State) : Host.Outcome State Fault Refusal :=
  issuing s fun c => s.finish c (c.res32 fun l => BitVec.ofNat 32 l)

/-- The source lane of SHFL, or none where it lies outside the warp (R303). -/
def shflSource (m : ShflMode) (l b : Nat) : Option Nat :=
  match m with
  | .idx => some (b % 32)
  | .xor => some (l ^^^ (b % 32))
  | .up => if b ≤ l then some (l - b) else none
  | .down => if l + b < 32 then some (l + b) else none

/-- SHFL (R303). -/
def execShfl (m : ShflMode) (_w : Wd) (w64 : Bool) (s : State) : Host.Outcome State Fault Refusal :=
  issuing s fun c => s.finish c (laneResult c w64 fun l =>
    match shflSource m l (c.w32 .b l).toNat with
    | none => laneA c w64 l
    | some k => if c.mask.getLsbD k then laneA c w64 k else laneA c w64 l)

/-- BCAST (R304). -/
def execBcast (_w : Wd) (w64 : Bool) (s : State) : Host.Outcome State Fault Refusal :=
  issuing s fun c => s.finish c (laneResult c w64 fun _ => laneA c w64 c.low)

/-- VOTE (R305). -/
def execVote (m : VoteMode) (_w : Wd) (s : State) : Host.Outcome State Fault Refusal :=
  issuing s fun c =>
    let p := lanesWhere c.lanes fun l => c.w32 .a l != 0
    s.finish c (c.res32 fun _ =>
      match m with
      | .any => truthWord (p != 0)
      | .all => truthWord (p == c.mask)
      | .ballot => p)

/-- One node of the tree: op(left, right) (R178, R306). For the floating operations `nat` is .ftz. -/
def redNode (op : RedOp) (w64 nat : Bool) (rnd : Rnd) (x y : Nat) : Nat :=
  let w := if w64 then 64 else 32
  let val (x : Nat) : Int := if nat then (x : Int) else signedOf x w
  match op with
  | .add => (x + y) % 2 ^ w
  | .min => if val x ≤ val y then x else y
  | .max => if val x ≤ val y then y else x
  | .and => x &&& y
  | .or => x ||| y
  | .xor => x ^^^ y
  | .fadd => fAdd .fp32 ⟨rnd, 0, 0⟩ nat (fval .fp32 x) (fval .fp32 y)
  | .fmin => fMinMax .fp32 false true x y
  | .fmax => fMinMax .fp32 true true x y

/-- A floating operation. -/
def redFloat : RedOp → Bool
  | .fadd | .fmin | .fmax => true
  | _ => false

/-- The root of the tree over the lanes of a mask, or none where every lane is absent. A floating operation reads a subnormal
input as a zero under .ftz (R158), and its result, where it is a NaN, is the canonical one, of a lone lane too (R157, R306, log
52). -/
def redRoot (op : RedOp) (w64 nat : Bool) (rnd : Rnd) (mask : Mask) (v : Nat → Nat) : Option Nat :=
  let leaf (x : Nat) : Nat := if redFloat op then flushIn .fp32 nat x else x
  (treeRoot (redNode op w64 nat rnd) 5 ((List.range 32).map fun l => if mask.getLsbD l then some (leaf (v l)) else none)).map fun r =>
    match redFloat op, fval .fp32 r with
    | true, .nan => nanCode .fp32
    | _, _ => r

/-- The identity of an operation (R307). -/
def redIdentity (op : RedOp) (w64 nat : Bool) : Nat :=
  let w := if w64 then 64 else 32
  match op with
  | .add | .or | .xor => 0
  | .and => 2 ^ w - 1
  | .min => if nat then 2 ^ w - 1 else 2 ^ (w - 1) - 1
  | .max => if nat then 0 else 2 ^ (w - 1)
  | .fadd => 0x80000000
  | .fmin => 0x7F800000
  | .fmax => 0xFF800000

/-- REDUCE (R306): the root goes to every lane of the firing mask. -/
def execReduce (op : RedOp) (_w : Wd) (w64 nat : Bool) (rnd : Rnd) (s : State) : Host.Outcome State Fault Refusal :=
  issuing s fun c =>
    let r := (redRoot op w64 nat rnd c.mask (laneA c w64)).getD 0
    s.finish c (laneResult c w64 fun _ => r)

/-- SCAN (R307): the prefix of each lane on the same tree; the exclusive form gives the identity where no active lane
lies below. -/
def execScan (op : RedOp) (_w : Wd) (w64 nat : Bool) (excl : Bool) (rnd : Rnd) (s : State) : Host.Outcome State Fault Refusal :=
  issuing s fun c =>
    let below (l : Nat) : Mask := c.mask &&& BitVec.ofNat 32 (if excl then 2 ^ l - 1 else 2 ^ (l + 1) - 1)
    s.finish c (laneResult c w64 fun l =>
      (redRoot op w64 nat rnd (below l) (laneA c w64)).getD (redIdentity op w64 nat))

end Sys2Proof.Machine
end

