-- ==== Sys2Proof/Machine/Firmware.lean ====
section
/-! DEFINITION. The verification of a firmware image (R472): SHA-256 with n = 32, LM-OTS with W4, LMS with trees of height 10 to 20 of
RFC 8554, and the fused hash of the public key. The algorithms are those of RFC 8554 and FIPS 180-4, which R472 names (log 26). -/

namespace Sys2Proof

/-- How an image brings its public key and signature: the spec gives an image no layout (log 26). -/
structure FirmwareParts where
  key     : List (BitVec 8)
  sig     : List (BitVec 8)
  message : List (BitVec 8)
  deriving Inhabited

/-- Free value: the parts of an image (R472, log 26). -/
opaque Config.firmwareParts : List (BitVec 8) → FirmwareParts

namespace Machine

/-! ## SHA-256 -/

/-- The round constants. -/
def shaK : List (BitVec 32) :=
  [0x428a2f98, 0x71374491, 0xb5c0fbcf, 0xe9b5dba5, 0x3956c25b, 0x59f111f1, 0x923f82a4, 0xab1c5ed5,
   0xd807aa98, 0x12835b01, 0x243185be, 0x550c7dc3, 0x72be5d74, 0x80deb1fe, 0x9bdc06a7, 0xc19bf174,
   0xe49b69c1, 0xefbe4786, 0x0fc19dc6, 0x240ca1cc, 0x2de92c6f, 0x4a7484aa, 0x5cb0a9dc, 0x76f988da,
   0x983e5152, 0xa831c66d, 0xb00327c8, 0xbf597fc7, 0xc6e00bf3, 0xd5a79147, 0x06ca6351, 0x14292967] ++
  [0x27b70a85, 0x2e1b2138, 0x4d2c6dfc, 0x53380d13, 0x650a7354, 0x766a0abb, 0x81c2c92e, 0x92722c85,
   0xa2bfe8a1, 0xa81a664b, 0xc24b8b70, 0xc76c51a3, 0xd192e819, 0xd6990624, 0xf40e3585, 0x106aa070,
   0x19a4c116, 0x1e376c08, 0x2748774c, 0x34b0bcb5, 0x391c0cb3, 0x4ed8aa4a, 0x5b9cca4f, 0x682e6ff3,
   0x748f82ee, 0x78a5636f, 0x84c87814, 0x8cc70208, 0x90befffa, 0xa4506ceb, 0xbef9a3f7, 0xc67178f2]

/-- The initial hash value. -/
def shaInit : List (BitVec 32) :=
  [0x6a09e667, 0xbb67ae85, 0x3c6ef372, 0xa54ff53a, 0x510e527f, 0x9b05688c, 0x1f83d9ab, 0x5be0cd19]

/-- Big-endian bytes of a number. -/
def beBytes (n x : Nat) : List (BitVec 8) := (valBytes n x).reverse

/-- The 16 words of a block of 64 bytes. -/
def shaWords (bs : List (BitVec 8)) : List (BitVec 32) :=
  (List.range 16).map fun i => BitVec.ofNat 32 (bytesVal ((bs.drop (4 * i)).take 4).reverse)

/-- The message schedule: `n` more words. -/
def shaExtend : Nat → List (BitVec 32) → List (BitVec 32)
  | 0, w => w
  | n + 1, w =>
    let x (k : Nat) : BitVec 32 := w.getD (w.length - k) 0
    let s0 := (x 15).rotateRight 7 ^^^ (x 15).rotateRight 18 ^^^ x 15 >>> 3
    let s1 := (x 2).rotateRight 17 ^^^ (x 2).rotateRight 19 ^^^ x 2 >>> 10
    shaExtend n (w ++ [x 16 + s0 + x 7 + s1])

/-- One round. -/
def shaRound (h : List (BitVec 32)) (kw : BitVec 32) : List (BitVec 32) :=
  match h with
  | [a, b, c, d, e, f, g, y] =>
    let t1 := y + (e.rotateRight 6 ^^^ e.rotateRight 11 ^^^ e.rotateRight 25) + ((e &&& f) ^^^ (~~~e &&& g)) + kw
    let t2 := (a.rotateRight 2 ^^^ a.rotateRight 13 ^^^ a.rotateRight 22) + ((a &&& b) ^^^ (a &&& c) ^^^ (b &&& c))
    [t1 + t2, a, b, c, d + t1, e, f, g]
  | _ => h

/-- One block. -/
def shaBlock (h : List (BitVec 32)) (bs : List (BitVec 8)) : List (BitVec 32) :=
  let w := shaExtend 48 (shaWords bs)
  List.zipWith (· + ·) h ((List.zipWith (· + ·) shaK w).foldl shaRound h)

/-- SHA-256. -/
def sha256 (m : List (BitVec 8)) : List (BitVec 8) :=
  let p := m ++ [0x80] ++ List.replicate ((119 - m.length % 64) % 64) 0 ++ beBytes 8 (8 * m.length)
  ((List.range (p.length / 64)).foldl (fun h i => shaBlock h ((p.drop (64 * i)).take 64)) shaInit).flatMap fun w => beBytes 4 w.toNat

/-! ## LM-OTS with W4 and n = 32: 67 chains -/

/-- Hash `n` chain steps from step `j` on. -/
def otsChain (iq : List (BitVec 8)) (i : Nat) : Nat → Nat → List (BitVec 8) → List (BitVec 8)
  | 0, _, t => t
  | n + 1, j, t => otsChain iq i n (j + 1) (sha256 (iq ++ beBytes 2 i ++ beBytes 1 j ++ t))

/-- The 64 digits of a hash, and the three of their checksum. -/
def otsDigits (q : List (BitVec 8)) : List Nat :=
  let d (l : List (BitVec 8)) : List Nat := l.flatMap fun b => [b.toNat / 16, b.toNat % 16]
  d q ++ (d (beBytes 2 (16 * ((d q).map (15 - ·)).foldl (· + ·) 0))).take 3

/-- The candidate for the one-time public key; `iq` is the tree's identifier and the leaf's number. -/
def otsCandidate (iq c : List (BitVec 8)) (y : Nat → List (BitVec 8)) (message : List (BitVec 8)) : List (BitVec 8) :=
  let q := sha256 (iq ++ [0x81, 0x81] ++ c ++ message)
  sha256 (iq ++ [0x80, 0x80] ++ (otsDigits q).zipIdx.flatMap fun a => otsChain iq a.2 (15 - a.1) a.1 (y a.2))

/-! ## LMS -/

/-- The height of a tree by its type code: 10, 15 and 20; the others are outside R472's bounds. -/
def lmsHeight (type : Nat) : Option Nat := if type = 6 then some 10 else if type = 7 then some 15 else if type = 8 then some 20 else none

/-- Climb from a node to the root along an authentication path. -/
def lmsClimb (id : List (BitVec 8)) : List (List (BitVec 8)) → Nat → List (BitVec 8) → List (BitVec 8)
  | [], _, t => t
  | p :: rest, node, t =>
    lmsClimb id rest (node / 2) (sha256 (id ++ beBytes 4 (node / 2) ++ [0x83, 0x83] ++ (if node % 2 = 1 then p ++ t else t ++ p)))

/-- Bytes `n` from `i` on, and the number they give, high byte first. -/
def bytesAt (l : List (BitVec 8)) (i n : Nat) : List (BitVec 8) := (l.drop i).take n
def numAt (l : List (BitVec 8)) (i n : Nat) : Nat := bytesVal (bytesAt l i n).reverse

/-- An LMS signature of a message verifies under a public key. -/
def lmsVerify (key sig message : List (BitVec 8)) : Bool :=
  match lmsHeight (numAt key 0 4) with
  | none => false
  | some h =>
    let id := bytesAt key 8 16
    let q := numAt sig 0 4
    let iq := id ++ beBytes 4 q
    let at_ := 8 + 32 + 67 * 32
    let kc := otsCandidate iq (bytesAt sig 8 32) (fun i => bytesAt sig (40 + 32 * i) 32) message
    let leaf := sha256 (id ++ beBytes 4 (2 ^ h + q) ++ [0x82, 0x82] ++ kc)
    key.length = 56 && numAt key 4 4 = 3 && sig.length = at_ + 4 + 32 * h && numAt sig 4 4 = 3 && numAt sig at_ 4 = numAt key 0 4 && q < 2 ^ h &&
    lmsClimb id ((List.range h).map fun i => bytesAt sig (at_ + 4 + 32 * i) 32) (2 ^ h + q) leaf == bytesAt key 24 32

/-! ## The management window (R473) -/

/-- Bytes of the management window. -/
def windowBytes : Nat := 2 ^ 28

/-- The firmware's DMA writes bytes: what lies outside the management window is not reached, nor is any other memory (R473). -/
def Device.dma (d : Device) (addr : Nat) (bs : List (BitVec 8)) : Device := { d with window := Mem.setBytes d.window addr (bs.take (windowBytes - addr)) }

/-! ## The image -/

/-- THE BOOT ROM ACCEPTS an image (R472): the hash of its public key is the fused one, its signature verifies, and its version is not
below the rollback counter. -/
def Device.accepts (d : Device) (version : Nat) (image : List (BitVec 8)) : Bool :=
  let p := Config.firmwareParts image
  d.rollback ≤ version && sha256 p.key == beBytes 32 d.keyHash.toNat && lmsVerify p.key p.sig p.message

end Machine

end Sys2Proof
end

