-- ==== Sys2Proof/Machine/MatrixRun.lean ====
section
/-! DEFINITION. The events of the matrix path (R223, R226, R227, R369 to R374): the queue starts its next operation, an MXMUL
adds a K-block, and an idle path is released. -/

namespace Sys2Proof.Machine

/-- An MXCFG takes effect (R370). -/
def State.startCfg (s : State) (core : Nat) (o : EngOp) (arr : MxArr) : State :=
  (s.modCore core fun k => { k with mx := { k.mx with holder := some o.ctx, arr := some arr } }).finishOp core o.id 0

/-- The queue's head is running. -/
def State.activate (s : State) (core : Nat) (o : EngOp) : State :=
  (s.modCore core fun k => { k with mx := { k.mx with active := true } }).modOp core o.id fun q => { q with st := .started }

/-- An MXMUL at its turn in the queue: its fields, then its macros (R374). -/
def State.startMul (s : State) (core : Nat) (o : EngOp) : State :=
  let mx := (s.core core).mx
  match mx.arr with
  | none => s.haltOp core o.id { code := .mxState }
  | some arr =>
    let a := arrangement arr
    if o.status != 0 || o.req.mmMalformed a then s.finishOp core o.id stMalformed
    else match mx.macroFault o.req a with
      | some code => s.haltOp core o.id { code }
      | none => s.activate core o

/-- MATRIX_QUEUE_START (R369, R370): the operation at the head of the queue takes its turn. -/
def execMatrixQueueStart (core : Nat) (s : State) : Host.Outcome State Fault Refusal :=
  let mx := (s.core core).mx
  .next (match mx.queue.head?.bind (s.core core).op? with
    | none => s
    | some o =>
      if mx.active || mx.halted || o.st != .queued || !o.ready || o.issuing || !s.opFree core o true then s
      else if mx.holder.any (· != o.ctx) || (mx.holder.isNone && !(match o.req.kind with | .mxcfg _ | .mxrelease => true | _ => false)) then
        s.haltOp core o.id { code := .mxState }
      else match o.req.kind with
        | .mxcfg arr => s.startCfg core o arr
        | .mxrelease => (s.clearPath core).finishOp core o.id 0
        | .mxload => s.activate core o
        | .mxmul => s.startMul core o
        | _ => s)

/-- The K-block of index `i` has been added; after the last the operation arrives and completes (R134, R374). -/
def State.afterBlock (s : State) (core : Nat) (o : EngOp) (i : Nat) : State :=
  let s := s.modOp core o.id fun q => { q with pos := i + 1 }
  if i + 1 < o.req.mmKb then s
  else
    let s := match o.nb, o.team with
      | some b, some t => s.modNBar core t b fun x => x.arrive (.op o.id) 1
      | _, _ => s
    s.finishOp core o.id 0

/-- A site is one of the weight arrays that a K-block of an MXMUL reads. -/
def ErrSite.inWeights (core : Nat) (a : Arrangement) (r : EngReq) (i : Nat) : ErrSite → Bool
  | .wgt c q => c == core && (List.range r.mmNg).any fun g => (r.mmG0 + g) * a.kbm + r.mmKb0 + i == q
  | _ => false

/-- MXMUL_KBLOCK (R226, R227, R374): the running MXMUL adds its next K-block once the block's row slots are FULL. -/
def execMxmulKblock (core : Nat) (s : State) : Host.Outcome State Fault Refusal :=
  let mx := (s.core core).mx
  .next (match mx.queue.head?.bind (s.core core).op?, mx.arr with
    | some o, some arr =>
      if !mx.active || mx.halted || o.req.kind != .mxmul || !s.opFree core o true then s
      else match mx.rowStop o.req mx.kprog with
        | some (_, false) => s
        | some (_, true) => s.haltOp core o.id { code := .mxFormatMismatch }
        | none =>
          let a := arrangement arr
          ((s.senseWhere (some (o.ctx, .op core o.id)) fun e => e.inAcc core 0 (4 * (o.req.mmRows * a.n)) || e.inWeights core a o.req mx.kprog).addBlock core o.req a mx.kprog).afterBlock
            core o mx.kprog
    | _, _ => s)

/-- The path is idle: its queue is empty, and its holder has no team resident and no control thread that runs on the core
(R223). -/
def Core.pathIdle (k : Core) : Bool :=
  match k.mx.holder with
  | none => false
  | some x => k.mx.queue.isEmpty && !(k.teams.any fun t => t.ctx == x) && !(k.ctls.any fun t => t.ctx == x && t.st == .running)

/-- A control thread's next instruction is an MXCFG of VAR 0 to 2. -/
def State.wantsPath (s : State) (core : Nat) (t : Ctl) : Bool :=
  t.st == .running && t.entered && !t.halt &&
  (((s.core core).block? t.ctx t.block t.ver).map fun b => match decode (b.words.drop t.next) with
    | .ok (.mxcfg _ e, _) => firingMask e.pred 1 ((t.vals.filter fun v => v.1 == t.next).map (·.2)) != 0
    | _ => false).getD false

/-- MATRIX_PATH_IDLE_RELEASE (R223): an idle path another context's MXCFG waits for is zeroed and released. -/
def execMatrixPathIdleRelease (core : Nat) (s : State) : Host.Outcome State Fault Refusal :=
  let k := s.core core
  .next (if k.pathIdle && k.ctls.any (fun t => some t.ctx != k.mx.holder && s.wantsPath core t) then s.clearPath core else s)

end Sys2Proof.Machine
end

