-- ==== Sys2Proof/Machine/Scheduling.lean ====
section
/-! DEFINITION. The events of scheduling (chapter 18) and the ends of revocations and kills (R391, R445): a grid starts, its
teams are admitted and retire, a waiting grid's priority rises. An event whose conditions do not hold changes nothing. -/

namespace Sys2Proof.Machine

/-! ## GRID_START (R406, R407, R410, R411) -/

/-- What reading a table of a launch record gave. -/
inductive TabRead where
  | vals (s : State) (l : List Nat)
  | bad (s : State)
  | wait (s : State)

/-- Read `n` entries of `size` bytes from entry `i` at the point of coherence; a fault is delivered and halts nothing
(R407). -/
def State.readTab (s : State) (x core va size : Nat) : Nat → Nat → TabRead
  | 0, _ => .vals s []
  | n + 1, i =>
    match s.translate core x (BitVec.ofNat 64 (va + size * i)) .read with
    | (s, .ok p) =>
      let (s, bs) := s.homeRead (some (x, .write 0)) p size
      let v := bytesVal bs
      match s.readTab x core va size n (i + 1) with
      | .vals s l => .vals s (v :: l)
      | r => r
    | (s, .error (.host vf page wr)) => .wait (s.askHost vf page wr)
    | (s, .error (.fault f)) => .bad ({ s with nextReq := s.nextReq + 1 }.deliver x (.write s.nextReq) true f 0 0)

/-- A table at an address that is not a multiple of its entries' size is a misaligned load. -/
def State.readTable (s : State) (x core : Nat) (va : DWord) (size n : Nat) : TabRead :=
  if n = 0 then .vals s []
  else if va.toNat % size != 0 then
    .bad ({ s with nextReq := s.nextReq + 1 }.deliver x (.write s.nextReq) true { code := .misaligned, raddr := va } 0 0)
  else s.readTab x core va.toNat size n 0

/-- A channel of an entry of the channel table (R406). -/
def chanOf (v : Nat) : Chan :=
  { kind := match bitsOf v 1 0 with | 0 => .unused | 1 => .fifo | 2 => .source | _ => .sink
    depth := bitsOf v 10 2, scount := bitsOf v 19 11 }

/-- An entry of the channel table breaks R407: a reserved bit, or a bad DEPTH. -/
def chanBad (v : Nat) : Bool :=
  let d := bitsOf v 10 2
  bitsOf v 31 20 != 0 || (if bitsOf v 1 0 == 1 then d == 0 || decide (256 < d) else d != 0)

/-- The FIFO depths of a list of channels. -/
def chanPool (cs : List Chan) : Nat := natSum ((cs.filter fun c => c.kind == .fifo).map (·.depth))

/-- The tables of a grid break R407. -/
def tablesBad (exps chans : List Nat) : Bool := exps.any (· == 0) || chans.any chanBad || decide (256 < chanPool (chans.map chanOf))

/-- A grid whose tables have been read is MALFORMED (R407); a context that revocation has left without a core keeps its grids (R444). -/
def gridBad (x : Ctx) (g : Grid) (exps chans : List Nat) : Bool :=
  tablesBad exps chans || (!x.cores.isEmpty && x.noGangDie g.lrec.gang)

/-- The grids of a queue before one, nearest first. -/
def Queue.before (u : Queue) (seq : Nat) : List Grid := (u.grids.takeWhile fun g => g.seq != seq).reverse

/-- A grid has ended. -/
def Grid.ended (g : Grid) : Bool := g.st == .done || g.st == .malformed || g.st == .killed

/-- The queue's order and the dependence let a grid enter RUNNING (R410, R411, R412). -/
def Queue.mayStart (u : Queue) (g : Grid) : Bool :=
  let pre := u.before g.seq
  pre.all (fun p => p.st == .running || p.ended) &&
  (if g.lrec.dep == 0 || g.full then pre.head?.all Grid.ended else true)

/-- The cores that ran the teams of the grid a FULL dependence waits for. -/
def Queue.fullCores (u : Queue) (g : Grid) : List Nat :=
  if g.lrec.dep == 0 || g.full then (((u.before g.seq).head?.map fun p => p.homes.map (·.2)).getD []).eraseDups else []

/-- Releases of several cores: every one's actions, or a wait. -/
def State.releaseAll (s : State) (vf : Nat) (scope : Scope) : List Nat → RelSt
  | [] => .done s
  | c :: rest =>
    match s.releaseActs c vf scope 0b111 with
    | .wait s => .wait s
    | .done s => s.releaseAll vf scope rest

/-- The scope at which the events of a grid are ordered: its context's device, or the system where the context has several (R135,
R388). -/
def Ctx.gridScope (x : Ctx) : Scope := if 1 < x.devices then .sys else .dev

/-- A FULL dependence is a release of the predecessor's cores (R135). -/
def State.releaseCores (s : State) (x : Ctx) (cores : List Nat) : RelSt := s.releaseAll x.vf x.gridScope cores

/-- A thread has reserved a new grant for a context by a CTXGRANT that has not committed (R24, R386). -/
def State.granting (s : State) (ctx : Nat) : Bool := s.ctxs.any fun c => c.held.any fun h => h.2.1 == ctx

/-- A grid may start: its context runs, its queue and dependence allow it, and no grant of the context is about to change (R24). -/
def State.gridMayStart (s : State) (x : Ctx) (queue : Nat) (g : Grid) : Bool :=
  x.st == .running && g.st == .queued && (x.queues.getD queue default).mayStart g && !s.granting x.idx

/-- GRID_START (R410): once a FULL predecessor's cores have released, a grid's tables are read and judged, and it runs or ends
MALFORMED. -/
def execGridStart (ctx queue seq : Nat) (s : State) : Host.Outcome State Fault Refusal :=
  .next (match s.ctx? ctx, s.grid? ctx queue seq with
    | some x, some g =>
      if !s.gridMayStart x queue g then s
      else match s.releaseCores x ((x.queues.getD queue default).fullCores g) with
      | .wait s => s
      | .done s =>
        let core := x.cores.headD 0
        let malformed (s : State) : State := s.modGrid ctx queue seq fun g => { g with st := .malformed }
        match s.readTable ctx core g.lrec.nbtab 2 g.lrec.nnb with
        | .wait s => s
        | .bad s => malformed s
        | .vals s exps =>
          match s.readTable ctx core g.lrec.chtab 4 (if g.lrec.chtab = 0 then 0 else 64) with
          | .wait s => s
          | .bad s => malformed s
          | .vals s chans =>
            if gridBad x g exps chans then malformed s
            else s.modGrid ctx queue seq fun g => { g with st := .running, exps, chans := chans.map chanOf, since := s.time }
    | _, _ => s)

/-! ## Room on a core (Table 18.2, R415) -/

/-- Warp slots of a core that no team holds, ascending: a team takes the lowest (R483). -/
def Core.freeSlots (k : Core) : List Nat :=
  (List.range Config.warpSlots).filter fun n => !(k.teams.any fun t => t.slots.contains n)

/-- A range of the scratchpad that no team holds. -/
def Core.spFree (k : Core) (a n : Nat) : Bool :=
  a + n ≤ Config.spadBytes && k.teams.all fun t => n == 0 || t.lrec.spb == 0 || a + n ≤ t.spBase || t.spBase + t.lrec.spb ≤ a

/-- The lowest 2,048-aligned free offset. -/
def Core.spFind (k : Core) (n : Nat) : Option Nat := ((List.range 257).map (· * 2048)).find? fun a => k.spFree a n

/-- Tag table entries reserved by the teams of a list. -/
def tagsOf (l : List Team) : Nat := natSum (l.map fun t => t.lrec.tagb * t.lrec.tdim)

/-- The core can reserve what a team of a context takes (Table 18.2), warp slots apart. -/
def Core.roomFor (k : Core) (x : Ctx) (r : LaunchRec) (pool : Nat) : Bool :=
  k.residentRoom x.idx &&
  natSum (k.teams.map fun t => t.lrec.tdim * t.lrec.nvec) + r.tdim * r.nvec ≤ 2048 &&
  (k.spFind r.spb).isSome &&
  tagsOf k.teams + r.tagb * r.tdim ≤ 256 &&
  tagsOf (k.teams.filter fun t => t.ctx == x.idx) + r.tagb * r.tdim ≤ x.tagb &&
  natSum (k.teams.map fun t => t.nbs.length) + r.nnb ≤ 256 &&
  k.poolUsed + pool ≤ 256 &&
  (r.centry == 0 || (k.ctl? x.idx).all fun t => t.st != .running)

/-- A pre-emption of the context drains on the core, or it is saved there (R433). -/
def Core.gated (k : Core) (x : Nat) : Bool := k.draining x || k.images.any fun i => i.ctx == x

/-- A team of a grid fits on a core (R409, R415). -/
def State.teamFits (s : State) (x : Ctx) (core : Nat) (g : Grid) : Bool :=
  let k := s.core core
  !k.gated x.idx && g.lrec.tdim ≤ k.freeSlots.length && k.roomFor x g.lrec (chanPool g.chans)

/-! ## Waiting teams (R411, R413, R414) -/

/-- The members of a unit of a grid, a team or a gang: TEAM.ID and physical core. -/
def Ctx.unitOf (x : Ctx) (q : Nat) (g : Grid) (u : Nat) : List (Nat × Nat) :=
  let n := max 1 g.lrec.gang
  (List.range n).filterMap fun j =>
    let t := u * n + j
    (x.homeOf q g.seq g.lrec.gang t).map fun h => (t, x.cores.getD h 0)

/-- A unit has been admitted. -/
def Grid.unitIn (g : Grid) (u : Nat) : Bool := g.admitted.contains (u * max 1 g.lrec.gang)

/-- The first unit of a grid that waits for a core. -/
def Ctx.firstWaiting (x : Ctx) (q : Nat) (g : Grid) (core : Nat) : Option Nat :=
  let period := if g.lrec.gang = 0 then x.cores.length else 10 * x.dies.length
  (List.range (min g.lrec.units ((g.admitted.length + 1) * period))).find? fun u =>
    !g.unitIn u && (x.unitOf q g u).any fun m => m.2 == core

/-- The teams of a SPLICE grid's predecessor whose home is a core have retired (R411); of a grid that a revocation has made FULL, the
predecessor has ended (R412). -/
def Ctx.spliceClear (x : Ctx) (q : Nat) (g : Grid) (core : Nat) : Bool :=
  g.lrec.dep != 1 ||
  match ((x.queues.getD q default).before g.seq).head? with
  | none => true
  | some p =>
    p.ended || (!g.full && (x.firstWaiting q p core).isNone && p.homes.all fun h => h.2 != core || p.retired.contains h.1)

/-- Every member of a unit can be admitted now, priorities apart. -/
def State.unitFits (s : State) (x : Ctx) (q : Nat) (g : Grid) (u : Nat) : Bool :=
  let ms := x.unitOf q g u
  !(s.vf x.vf).saving && !ms.isEmpty && ms.length == max 1 g.lrec.gang && ms.all fun m => s.teamFits x m.2 g && x.spliceClear q g m.2

/-- The RUNNING grids of the contexts that run: context, queue, grid. -/
def State.runningGrids (s : State) : List (Ctx × Nat × Grid) :=
  (s.ctxs.filter fun c => c.st == .running).flatMap fun c =>
    c.queues.zipIdx.flatMap fun q => (q.1.grids.filter fun g => g.st == .running).map fun g => (c, q.2, g)

/-- The units of a grid that wait for a core and may be the next admitted there: the first team, or any gang. -/
def Ctx.nextUnits (x : Ctx) (q : Nat) (g : Grid) (core : Nat) : List Nat :=
  if g.lrec.gang = 0 then (x.firstWaiting q g core).toList
  else (List.range (min g.lrec.units ((g.admitted.length + 1) * (10 * x.dies.length)))).filter fun u =>
    !g.unitIn u && (x.unitOf q g u).any fun m => m.2 == core

/-- A team of higher effective priority than a grid's waits for a core (R413). A context that is drained from the core or saved there
waits for nothing. -/
def State.outranked (s : State) (g : Grid) (core : Nat) : Bool :=
  s.runningGrids.any fun r => g.prio < r.2.2.prio && !(s.core core).gated r.1.idx && (r.1.firstWaiting r.2.1 r.2.2 core).isSome

/-- Another grid's waiting team goes before this grid's on a core: of higher effective priority, or of equal priority, launched earlier,
and able to be admitted now (R413). -/
def State.heldBack (s : State) (g : Grid) (core : Nat) : Bool :=
  s.outranked g core ||
  s.runningGrids.any fun r =>
    let h := r.2.2
    g.prio == h.prio && h.order < g.order && !(s.core core).gated r.1.idx &&
    (r.1.nextUnits r.2.1 h core).any fun u => s.unitFits r.1 r.2.1 h u && !((r.1.unitOf r.2.1 h u).any fun m => s.outranked h m.2)

/-! ## TEAM_ADMIT (R408, R409, R413 to R415) -/

/-- A warp at its admission (Table 9.2, R408). -/
def freshWarp (x team wid gwn age : Nat) (r : LaunchRec) : Warp :=
  { ctx := x, team, wid, gwn, age
    v := List.replicate r.nvec Lanes.zero, s := r.arg0 :: r.arg1 :: List.replicate 62 0, flags := List.replicate 12 0
    splits := [{ token := false, mask := BitVec.allOnes 32, next := r.entry.toNat, call := true }], run := some 0
    rets := List.replicate 4 (List.replicate 32 0) }

/-- Admit one team on a core: its resources, its warps, and its control thread. -/
def State.admitTeam (s : State) (x : Ctx) (q : Nat) (g : Grid) (tid core : Nat) : State :=
  let k := (s.core core).reside x.idx
  let r := g.lrec
  let slots := k.freeSlots.take r.tdim
  let team : Team :=
    { id := k.nextTeam, ctx := x.idx, queue := q, seq := g.seq, tid, lrec := r, spBase := (k.spFind r.spb).getD 0, slots, live := slots
      chans := g.chans ++ List.replicate (64 - g.chans.length) {}, nbs := g.exps.map (fun e => { exp := e }), view := g.view }
  let warps := slots.zipIdx.map fun p => (p.1, freshWarp x.idx k.nextTeam p.2 (tid * r.tdim + p.2) (k.nextAge + p.2) r)
  let s := s.setCore core
    { k with teams := k.teams ++ [team], nextTeam := k.nextTeam + 1, nextAge := k.nextAge + r.tdim
             warps := warps.foldl (fun l p => tabPut p.1 p.2 l) k.warps }
  let s := (s.beginSlice core x.idx).beginThread core x.idx
  if r.centry = 0 then s else s.startCtl core x.idx r.centry (some (k.nextTeam, team.vals)) r.arg0 r.arg1

/-- TEAM_ADMIT (R414, R415): a team, or all members of a gang, is admitted. -/
def execTeamAdmit (ctx queue seq unit : Nat) (s : State) : Host.Outcome State Fault Refusal :=
  .next (match s.ctx? ctx, s.grid? ctx queue seq with
    | some x, some g =>
      let ms := x.unitOf queue g unit
      if x.st != .running || g.st != .running || g.lrec.units ≤ unit || g.unitIn unit || !s.unitFits x queue g unit then s
      else if g.lrec.gang = 0 && ms.any (fun m => x.firstWaiting queue g m.2 != some unit) then s
      else if ms.any fun m => s.heldBack g m.2 then s
      else
        (ms.foldl (fun s m => s.admitTeam x queue g m.1 m.2) s).modGrid ctx queue seq fun g =>
          { g with admitted := g.admitted ++ ms.map (·.1), homes := g.homes ++ ms, prio := min g.lrec.prio x.prio, since := s.time }
    | _, _ => s)

/-! ## TEAM_RETIRE and PRIORITY_AGING (R358, R410, R413) -/

/-- A team has retired: the grid is DONE when all have. -/
def Grid.retire (g : Grid) (tid : Nat) : Grid :=
  let retired := g.retired ++ [tid]
  { g with retired, st := if g.st == .running && retired.length == g.lrec.teams then .done else g.st }

/-- The release of a core that a team of a context leaves (R388). -/
def State.releaseGrid (s : State) (core ctx : Nat) : RelSt :=
  match s.ctx? ctx with
  | none => .done s
  | some x => s.releaseActs core x.vf x.gridScope 0b111

/-- TEAM_RETIRE (R358, R410): its warps have exited and its operations completed; its core has released, so that what its warps have
done happens before what acquires from the end of its grid (R388); those that left its barriers in this cycle go (R242), and its
resources return. -/
def execTeamRetire (core ctx queue seq team : Nat) (s : State) : Host.Outcome State Fault Refusal :=
  let mine (t : Team) : Bool := t.ctx == ctx && t.queue == queue && t.seq == seq && t.tid == team
  .next (match (s.core core).teams.find? mine with
    | none => s
    | some t =>
      if !t.live.isEmpty || !t.ops.isEmpty then s
      else match s.releaseGrid core ctx with
      | .wait s => s
      | .done s => ((s.settleTeam core t).modCore core fun k => { k with teams := k.teams.filter fun u => u.id != t.id }).modGrid ctx queue seq fun g => g.retire team)

/-- One millisecond of the reference, in ticks. -/
def msTicks : Nat := 1000000 * Config.ticksPerNs

/-- PRIORITY_AGING (R413): a full millisecond has passed with a team waiting and none admitted. -/
def execPriorityAging (ctx queue seq : Nat) (s : State) : Host.Outcome State Fault Refusal :=
  .next (match s.grid? ctx queue seq with
    | none => s
    | some g =>
      if g.st != .running || g.lrec.teams ≤ g.admitted.length || s.time < g.since + msTicks then s
      else s.modGrid ctx queue seq fun g => { g with prio := min 3 (g.prio + 1), since := g.since + msTicks })

/-! ## REVOKE_COMPLETE and KILL_COMPLETE (R391, R444, R445) -/

/-- A context of a subtree is still being drained from one of some cores. -/
def State.drainsLeft (s : State) (x : Nat) (cores : List Nat) : Bool :=
  cores.any fun c => (s.core c).drains.any fun d => d.revoked && s.inSubtree x d.ctx

/-- REVOKE_COMPLETE (R391, R394): the pre-emptions have ended and every frame released is READY. -/
def execRevokeComplete (ctx : Nat) (s : State) : Host.Outcome State Fault Refusal :=
  .next (match s.ctx? ctx with
    | none => s
    | some x =>
      match x.revoke with
      | none => s
      | some r =>
        if s.drainsLeft ctx r.cores || !r.frames.all s.frameReady then s
        else
          (s.modCtx ctx fun c => { c with revoke := none }).callerWord r.caller r.cw x.id 1)

/-- KILL_COMPLETE (R445): a context none of whose children is left is taken apart; when its frames are READY it is gone. -/
def execKillComplete (ctx : Nat) (s : State) : Host.Outcome State Fault Refusal :=
  .next (match s.ctx? ctx with
    | none => s
    | some x =>
      if x.st != .killing || s.ctxs.any (fun c => c.parent == some ctx) then s
      else match x.dying with
        | none => s.takeApart ctx
        | some frames => if frames.all s.frameReady then s.removeCtx ctx else s)

end Sys2Proof.Machine
end

