-- ==== Sys2Proof/Machine/Preempt.lean ====
section
/-! DEFINITION. Pre-emption (R431 to R437, R444): a slice expires, the drain, saving a context's state on a core, and its
restore there or, after a revocation, on another core. An event whose conditions do not hold changes nothing. -/

namespace Sys2Proof.Machine

/-! ## Slices (R432) -/

/-- Another root's grant holds the core too. -/
def State.sharedCore (s : State) (core vf : Nat) : Bool := s.ctxs.any fun c => c.parent.isNone && c.vf != vf && c.cores.contains core

/-- BEGIN the pre-emption of a root's contexts on a core (R433); with nothing of the root there it is over at once. -/
def State.beginPreempt (s : State) (core vf : Nat) : State :=
  let s := (s.treeOf vf).foldl (fun s x => s.beginDrain core x false) s
  (s.modCore core fun k => { k with slices := mapIf (fun y => y.vf == vf) (fun y => { y with begun := true }) k.slices }).endSlice core vf

/-- A control thread stands still whatever its next instruction is: it has not become resident, is halted, or waits for an
access or a walk (R417). -/
def State.ctlWaits (s : State) (core : Nat) (t : Ctl) : Bool :=
  t.stopped || t.halt || t.pend.isSome || s.waitsForWalk core (.cfetch core t.ctx)

/-- A slice of a root has expired on a core and its pre-emption has not begun. -/
def State.slicePending (s : State) (core vf : Nat) : Bool := (s.core core).slices.any fun y => y.vf == vf && y.expired && !y.begun

/-- SLICE_EXPIRY (R432): the slice of a root that shares the core has passed; with no control thread that can go on the
pre-emption begins at once. -/
def execSliceExpiry (core vf : Nat) (s : State) : Host.Outcome State Fault Refusal :=
  .next (match (s.core core).slices.find? (fun y => y.vf == vf), (s.vf vf).profile with
    | some y, some (_, p) =>
      if y.expired || !s.sharedCore core vf || nsBetween y.since s.time < p.slice then s
      else
        let s := s.modCore core fun k => { k with slices := mapIf (fun y => y.vf == vf) (fun y => { y with expired := true, since := s.time }) k.slices }
        let tree := s.treeOf vf
        if (s.core core).ctls.all fun t => !tree.contains t.ctx || t.st != .running || s.ctlWaits core t then s.beginPreempt core vf else s
    | _, _ => s)

/-- OVERRUN_LIMIT_EXPIRY (R432): the overrun limit has passed since the slice expired. -/
def execOverrunLimitExpiry (core vf : Nat) (s : State) : Host.Outcome State Fault Refusal :=
  .next (match (s.core core).slices.find? (fun y => y.vf == vf), (s.vf vf).profile with
    | some y, some (_, p) => if y.expired && !y.begun && p.overrun ≤ nsBetween y.since s.time then s.beginPreempt core vf else s
    | _, _ => s)

/-! ## Draining (R434) -/

/-- An instance waits in a miss for the host's answer. -/
def State.hostWaits (s : State) (who : Who) : Bool :=
  let mine (w : Waiter) : Bool := match w with | .instr v _ _ => v == who | _ => false
  s.dies.any fun (p : Nat × Die) => p.2.missq.any fun m => m.hostWait.isSome && m.waiters.any fun w => mine w.1

/-- An instance waits for something a drain does not bring (R434): a barrier, channel, flag or event, an operation's token or a row
slot, the room its commit needs, or a page request. -/
def State.instWaits (s : State) (core slot : Nat) (i : Inst) (b : RBlock) : Bool :=
  let who : Who := .warp core slot i.itag
  i.st == .running && !s.atomicOut who &&
  ((s.holdups core slot i b).any (fun h => h == .event || h == .unit) ||
   (i.isEnded b && i.exit.isNone && !s.commitReady core slot i) || s.hostWaits who)

/-- Discard the waiting instances of a context's warps on a core; the warps' mailboxes are applied. -/
def State.drainWarp (s : State) (core slot : Nat) : State :=
  match s.warp? core slot with
  | none => s
  | some w =>
    let waits := w.insts.any fun i => ((s.core core).block? w.ctx i.block i.ver).any fun b => s.instWaits core slot i b
    if waits then ((s.squash core slot fun i => i.st == .running && !s.atomicOut (.warp core slot i.itag)).applyMailbox core slot).modCore core Core.unpin
    else if w.insts.isEmpty then s.applyMailbox core slot
    else s

/-- Waiters of a context on a core leave the miss queues. -/
def State.dropCoreWaiters (s : State) (core x : Nat) : State :=
  let drop (m : Miss) : Miss := if m.ctx == x && m.core == core then { m with waiters := [] } else m
  { s with dies := s.dies.map fun (p : Nat × Die) => (p.1, { p.2 with missq := p.2.missq.map drop }) }

/-- A control thread abandons the access its instruction waits in, unless an atomic of it is out (R434). -/
def State.drainCtl (s : State) (core x : Nat) : State :=
  if s.atomicOut (.ctl core x) then s
  else ({ s with reqs := s.reqs.filter fun r => !r.kind.loadOf (.ctl core x) }.dropWaiters (.ctl core x)).modCtl core x fun t => { t with pend := none }

/-- The slots of a context's warps on a core. -/
def Core.slotsOf (k : Core) (x : Nat) : List Nat := (k.warps.filter fun p => p.2.ctx == x).map (·.1)

/-- One round of draining. -/
def State.drainStep (s : State) (core x : Nat) : State :=
  ((s.core core).slotsOf x).foldl (fun s sl => s.drainWarp core sl) (s.drainCtl core x)

/-- An operation must end before its context is quiescent: one that has started, an MXMUL and streams apart, which stop at a
K-block or an element (R433, R434). -/
def EngOp.mustEnd (o : EngOp) : Bool :=
  !o.outside && !o.req.kind.streams && o.req.kind != .mxmul && (o.st == .started || o.st == .waiting || o.st == .finished)

/-- QUIESCENCE (R434): no instance, tag, reply or write of the context is left on the core. -/
def State.quiescent (s : State) (core x : Nat) : Bool :=
  let k := s.core core
  k.warps.all (fun p => p.2.ctx != x || p.2.insts.isEmpty) && k.tags.all (fun t => t.ctx != x) &&
  k.ops.all (fun o => o.ctx != x || !o.mustEnd) && k.ctls.all (fun t => t.ctx != x || t.pend.isNone) &&
  s.reqs.all (fun r => r.core != core || r.ctx != x) &&
  (s.die (dieOf core)).dreqs.all (fun r => r.core != core || r.ctx != x)

/-! ## Saving (R436, Table 19.5) -/

/-- The scratchpad bytes of a team. -/
def State.spadOf (s : State) (core : Nat) (t : Team) : List (BitVec 8) :=
  Mem.getBytes s.mem.spad (core * Config.spadBytes + t.spBase) t.lrec.spb

/-- The last TIME value that a context could have read: the highest counter of its dies, and its TOFF (R400, R453). -/
def State.lastTime (s : State) (x : Ctx) : Nat := (x.cores.map fun c => s.counter (dieOf c)).foldl max 0 + x.toff.toNat

/-- TOFF of a context of which an image is restored on a core (R453); a piece restored before may have raised it further. -/
def State.restoredToff (s : State) (core : Nat) (img : SaveImage) (toff : DWord) : DWord :=
  BitVec.ofNat 64 (max toff.toNat (img.toff + (img.saved - s.counter (dieOf core))))

/-- The save image of a context on a core. -/
def State.imageOf (s : State) (core x : Nat) : SaveImage :=
  let k := s.core core
  let ops := k.ops.filter fun o => o.ctx == x && !o.outside
  let ids := ops.map (·.id)
  let holds := k.mx.holder == some x
  let ctls := k.ctls.filter fun t => t.ctx == x && t.st == .running
  { ctx := x
    warps := k.warps.filter fun p => p.2.ctx == x
    ctls
    teams := k.teams.filter fun t => t.ctx == x
    spad := (k.teams.filter fun t => t.ctx == x).map fun t => (t.id, s.spadOf core t)
    gens := k.gens.zipIdx.filterMap fun q => (q.1.filter fun y => ids.contains y.op).map fun y => (q.2, y)
    ops := ops.map fun o => if o.req.kind == .mxmul && o.st == .started then { o with st := .queued } else o
    mx := if holds then some { k.mx with queue := k.mx.queue.filter ids.contains, active := false } else none
    acc := if holds then Mem.getBytes s.mem.acc (core * 65536) 65536 else []
    code := k.blocks.filter fun b => ctls.any fun t => t.entered && b.ctx == x && b.addr == t.block && b.ver == t.ver
    saved := ((s.ctx? x).map s.lastTime).getD 0
    toff := ((s.ctx? x).map fun c => c.toff.toNat).getD 0 }

/-- An image that holds nothing. -/
def SaveImage.isEmpty (i : SaveImage) : Bool := i.warps.isEmpty && i.ctls.isEmpty && i.teams.isEmpty && i.ops.isEmpty && i.mx.isNone

/-- A context's state leaves a core (R434, R436, R151). -/
def State.vacate (s : State) (core x : Nat) (img : SaveImage) : State :=
  let s := if img.mx.isSome then s.clearPath core else s
  let s := img.warps.foldl (fun s p => s.dropReserves core p.1) (s.dropCoreWaiters core x)
  let ids := img.ops.map (·.id)
  let mine (r : Reserve) : Bool := r.core == core && r.ctl == some x
  let s := { s with firns := s.firns.map fun (p : Nat × Firn) => (p.1, { p.2 with monitor := p.2.monitor.filter fun r => !mine r })
                    cores := s.cores.map fun (p : Nat × Core) => (p.1, { p.2 with monitor := p.2.monitor.filter fun r => !mine r }) }
  s.modCore core fun k =>
    { k with
      warps := k.warps.filter fun p => p.2.ctx != x
      teams := k.teams.filter fun t => t.ctx != x
      ctls := k.ctls.filter fun t => t.ctx != x
      ops := k.ops.filter fun o => !ids.contains o.id
      gens := k.gens.map fun (g : Option Stream) => g.filter fun y => !ids.contains y.op
      mx := { k.mx with queue := k.mx.queue.filter fun i => !ids.contains i }
      drains := k.drains.filter fun d => d.ctx != x
      images := if img.isEmpty then k.images else k.images ++ [img] }

/-- SAVE a context from a core. -/
def State.saveCtx (s : State) (core x : Nat) : State :=
  ((s.vacate core x (s.imageOf core x)).modCore core Core.unpin).endSlice core (s.vfOf x)

/-- The bound of a drain: 200 µs of the reference, in nanoseconds (R435). -/
def drainBound : Nat := 200000

/-- A drain of a context has passed its bound. -/
def State.drainLate (s : State) (core ctx : Nat) : Bool :=
  ((s.core core).drains.find? fun d => d.ctx == ctx).any fun d => drainBound ≤ nsBetween d.since s.time

/-- DRAIN_QUIESCENCE (R434 to R436): a round of draining, and the save when it leaves the context quiescent within the bound. -/
def execDrainQuiescence (core ctx : Nat) (s : State) : Host.Outcome State Fault Refusal :=
  .next (if !(s.core core).draining ctx || s.drainLate core ctx then s
    else
      let s := s.drainStep core ctx
      if s.quiescent core ctx then s.saveCtx core ctx else s)

/-- PREEMPT_TIMEOUT (R435): a drain of 200 µs or more ends in the kill of its context. -/
def execPreemptTimeout (core ctx : Nat) (s : State) : Host.Outcome State Fault Refusal :=
  .next (match (s.core core).drains.find? fun d => d.ctx == ctx with
    | none => s
    | some d =>
      if nsBetween d.since s.time < drainBound then s
      else (((s.deliver ctx (.write 0) false { code := .preemptTimeout } 0 0).startKill ctx none 0).modCore core fun k =>
        { k with drains := k.drains.filter fun d => d.ctx != ctx }).endSlice core (s.vfOf ctx))

/-! ## Restoring (R437, R443, R444) -/

/-- A move of saved state from one core to another: what it adds to identifiers of teams and operations. -/
structure Move where
  old   : Nat
  new   : Nat
  teams : Nat
  ops   : Nat
  deriving DecidableEq, Repr

def State.moveTo (s : State) (old new : Nat) : Move :=
  if old = new then ⟨old, new, 0, 0⟩ else ⟨old, new, (s.core new).nextTeam, (s.core new).nextOp⟩

/-- Identifiers given on the old core stay below the new core's next ones. -/
def State.moveNext (s : State) (m : Move) : State :=
  if m.old = m.new then s
  else
    let k := s.core m.old
    s.modCore m.new fun q => { q with nextTeam := m.teams + k.nextTeam, nextOp := m.ops + k.nextOp }

/-- A requester under its new name: `slots`, `gens`, `ids` are what moves; `ctl` and `mx` tell whether the control thread and
the matrix path do. -/
def Requester.moved (m : Move) (x : Nat) (slots gens ids : List Nat) (ctl mx : Bool) (r : Requester) : Requester :=
  match r with
  | .warp c sl => if c = m.old && slots.contains sl then .warp m.new sl else r
  | .ctl c y => if c = m.old && y = x && ctl then .ctl m.new y else r
  | .stream c g => if c = m.old && gens.contains g then .stream m.new g else r
  | .op c id => if c = m.old && ids.contains id then .op m.new (id + m.ops) else r
  | .mx c => if c = m.old && mx then .mx m.new else r
  | .write _ => r

/-- The issuer of an operation under its new name. -/
def Who.moved (m : Move) (x : Nat) (slots : List Nat) (ctl : Bool) (w : Who) : Who :=
  match w with
  | .warp c sl t => if c = m.old && slots.contains sl then .warp m.new sl t else w
  | .ctl c y => if c = m.old && y = x && ctl then .ctl m.new y else w

/-- Halts and waiting records of a context name what has moved by its new name. -/
def State.renameHalts (s : State) (x : Nat) (f : Requester → Requester) : State :=
  let wait (l : List WaitingFault) : List WaitingFault := mapIf (fun h => h.ctx == x) (fun h => { h with req := h.req.map f }) l
  { s with halts := mapIf (fun h => h.ctx == x) (fun h => { h with req := f h.req }) s.halts
           waitFaults := wait s.waitFaults
           vfs := s.vfs.map fun v => { v with fqWait := wait v.fqWait } }

/-- What of an image is restored together: teams, whether its control threads, and whether its matrix path. -/
structure Unit_ where
  teams : List Team
  ctl   : Bool
  mx    : Bool

/-- A team takes its resources on a core, its warp slots included, which it keeps (R194, R415, R437). -/
def State.placeTeam (s : State) (x : Ctx) (m : Move) (img : SaveImage) (t : Team) : Option State :=
  let k := s.core m.new
  match k.spFind t.lrec.spb with
  | none => none
  | some base =>
    if !(t.slots.all k.freeSlots.contains) || !k.roomFor x { t.lrec with centry := 0 } (chanPool t.chans) then none
    else
      let party (p : Party) : Party := match p with | .op id => .op (id + m.ops) | q => q
      let team : Team :=
        { t with id := t.id + m.teams, spBase := base, ops := t.ops.map (· + m.ops)
                 nbs := t.nbs.map fun b => { b with regs := b.regs.map fun r => { r with party := party r.party } } }
      let bytes := tabGet [] t.id img.spad
      let ws := (img.warps.filter fun p => p.2.team == t.id).zipIdx.map fun (q : (Nat × Warp) × Nat) =>
        (q.1.1, { q.1.2 with team := team.id, age := k.nextAge + q.2, halt := q.1.2.halt.map fun _ => Requester.warp m.new q.1.1 })
      -- the write ends the reservations on the sectors it covers (R151)
      let s := s.modCore m.new fun q => { q with monitor := q.monitor.filter fun r => r.sec * 64 + 64 ≤ base || base + bytes.length ≤ r.sec * 64 }
      let s := { s with mem := { s.mem with spad := Mem.setBytes s.mem.spad (m.new * Config.spadBytes + base) bytes } }
      some (s.setCore m.new
        { k.reside x.idx with teams := k.teams ++ [team], nextAge := k.nextAge + ws.length, warps := ws.foldl (fun l p => tabPut p.1 p.2 l) k.warps })

/-- Place the teams of a list, all or none. -/
def State.placeTeams (s : State) (x : Ctx) (m : Move) (img : SaveImage) : List Team → Option State
  | [] => some s
  | t :: rest => (s.placeTeam x m img t).bind fun s => s.placeTeams x m img rest

/-- The operation belongs to a unit: by its team, else by its issuer or the matrix path. -/
def SaveImage.opIn (img : SaveImage) (u : Unit_) (o : EngOp) : Bool :=
  match o.team.filter fun t => img.teams.any fun y => y.id == t with
  | some t => u.teams.any fun y => y.id == t
  | none => if o.req.kind.matrix then u.mx else u.ctl

/-- Read 128 aligned bytes as the restore of a path does: walks are made in the same step. -/
def reloadRead (core : Nat) (o : EngOp) (space addr : Nat) : EngM (List (BitVec 8)) := do
  if space = 0 then
    match (← get).translate core o.ctx (BitVec.ofNat 64 addr) .read with
    | (s, .ok _) => set s
    | (s, .error (.fault f)) => set s; throw (.fault f)
    | (s, .error (.host vf page wr)) => set (s.askHost vf page wr); throw .wait
  engRead core o space addr 128

/-- Column `c` of macro `q`, or, after its 128 columns, its scales. -/
def reloadColumn (core : Nat) (o : EngOp) (q c : Nat) : EngM Unit := do
  let n := q - o.mlQ0
  if c < 128 then
    let bs ← reloadRead core o o.mlWspc (wrapAddr o.mlWspc ((o.w 0 + 16384 * n + 128 * c : Nat) : Int))
    engOut core o { dst := .cell (q * 16384 + c * 128), data := bs }
  else
    let bs ← reloadRead core o o.mlSspc (wrapAddr o.mlSspc ((o.w 1 + 128 * n : Nat) : Int))
    engOut core o { dst := .scale (q * 128), data := bs }

/-- RELOAD a macro of a restored path from the parameter block that loaded it (R437); a fault is delivered and leaves it
unloaded, and a wait for the host makes the whole restore wait. -/
def State.reloadMacro (s : State) (core x q : Nat) (block : List DWord) : Option State :=
  let o : EngOp := { id := 2 ^ 64, ctx := x, issuer := none, flag := none, team := (block[8]?).map (·.toNat), params := block.take 8
                     req := { kind := .mxload, a := 0, b := 0, c := 0, scope := .dev, tok := none, fsel := false } }
  match (engLoop (fun c => reloadColumn core o q c) 129 0).go s with
  | (.ok _, s) => some s
  | (.error (.fault f), s) =>
    some (({ s with nextReq := s.nextReq + 1 }.deliver x (.write s.nextReq) true f 0 0).modCore core fun k =>
      { k with mx := { k.mx with loaded := listMod k.mx.loaded q fun _ => none } })
  | (.error _, _) => none

/-- The matrix path of an image on a core: accumulators, progress, slots and queue are written back and the macros reloaded. -/
def State.restorePath (s : State) (m : Move) (x : Nat) (p : Mx) (acc : List (BitVec 8)) : Option State :=
  if (s.core m.new).mx.holder.isSome then none
  else
    let team (l : List DWord) : List DWord := l.zipIdx.map fun q => if q.2 = 8 then q.1 + BitVec.ofNat 64 m.teams else q.1
    let blocks := p.blocks.map team
    let s := { s with mem := { s.mem with acc := Mem.setBytes s.mem.acc (m.new * 65536) acc } }
    let s := s.modCore m.new fun k => { k with mx := { p with holder := some x, blocks, queue := p.queue.map (· + m.ops) ++ k.mx.queue } }
    (p.loaded.zipIdx.filter fun q => q.1.isSome).foldl (fun (r : Option State) q =>
      r.bind fun s => s.reloadMacro m.new x q.2 (blocks.getD q.2 [])) (some s)

/-- What stays of an image when a unit has left it; an image left empty goes. -/
def Core.takeUnit (k : Core) (x : Nat) (u : Unit_) : Core :=
  let ids := u.teams.map (·.id)
  let cut (i : SaveImage) : SaveImage :=
    let gone := (i.ops.filter (i.opIn u)).map (·.id)
    { i with teams := i.teams.filter fun t => !ids.contains t.id
             warps := i.warps.filter fun p => !ids.contains p.2.team
             spad := i.spad.filter fun p => !ids.contains p.1
             ops := i.ops.filter fun o => !gone.contains o.id
             gens := i.gens.filter fun g => !gone.contains g.2.op
             ctls := if u.ctl then [] else i.ctls
             code := if u.ctl then [] else i.code
             mx := if u.mx then none else i.mx
             acc := if u.mx then [] else i.acc }
  { k with images := (mapIf (fun i => i.ctx == x) cut k.images).filter fun i => !i.isEmpty }

/-- What a move renames when it is to another core: issuers of operations, halts, and the grid's record of the teams. -/
def State.renameUnit (s : State) (x : Ctx) (m : Move) (u : Unit_) (gens ids : List Nat) : State :=
  if m.old = m.new then s
  else
    let slots := u.teams.flatMap (·.slots)
    let issuer (o : EngOp) : EngOp := { o with issuer := o.issuer.map (Who.moved m x.idx slots u.ctl) }
    let s : State := { s with cores := s.cores.map fun (p : Nat × Core) => (p.1, { p.2 with
      ops := mapIf (fun o => o.ctx == x.idx) issuer p.2.ops
      images := mapIf (fun i => i.ctx == x.idx) (fun i => { i with ops := i.ops.map issuer }) p.2.images }) }
    let s := s.renameHalts x.idx (Requester.moved m x.idx slots gens ids u.ctl u.mx)
    u.teams.foldl (fun s t => s.modGrid x.idx t.queue t.seq fun g =>
      { g with homes := mapIf (fun h => h.1 == t.tid) (fun h => (h.1, m.new)) g.homes
               gbars := g.gbars.map fun b => (b.1, b.2.map fun q => if q.1 == m.old && t.slots.contains q.2 then (m.new, q.2) else q) }) s

/-- Step 4 of R437: the control threads, operations and streams of a unit whose teams are placed, and the completions held. -/
def State.settleUnit (s : State) (x : Ctx) (img : SaveImage) (m : Move) (u : Unit_) (moving staying : List EngOp) : State :=
  let ctls := if u.ctl then img.ctls else []
  let ids := (moving ++ staying).map (·.id)
  let gens := img.gens.filter fun g => ids.contains g.2.op
  -- entries of the engine queue are taken anew, the lowest that is free
  let op (l : List EngOp) (o : EngOp) : List EngOp :=
    l ++ [{ o with id := o.id + m.ops, team := o.team.map (· + m.teams), entry := freeEntry l o.req.kind }]
  let s := s.modCore m.old fun q => { q.takeUnit x.idx u with ops := q.ops.filter fun o => !(staying.any fun y => y.id == o.id) }
  let s := s.modCore m.new fun q =>
    let ctl (t : Ctl) : Ctl := { t with team := t.team.map (· + m.teams), stopped := t.stopped || !q.residentRoom x.idx }
    { (if !ctls.isEmpty && q.residentRoom x.idx then q.reside x.idx else q) with
      ops := (moving ++ staying).foldl op q.ops
      restored := s.time
      gens := gens.foldl (fun l g => listMod l g.1 fun _ => some { g.2 with op := g.2.op + m.ops }) q.gens
      ctls := (if ctls.isEmpty then q.ctls else q.ctls.filter fun t => t.ctx != x.idx) ++ ctls.map ctl
      blocks := if u.ctl then img.code ++ q.blocks else q.blocks }
  let s := s.renameUnit x m u (gens.map (·.1)) ids
  let done := (moving.filter fun o => o.st == .finished).map fun o => o.id + m.ops
  (done.foldl (fun s id => s.endOp m.new id) s).beginSlice m.new x.idx

/-- RESTORE a unit of an image on a core (R437): resources, scratchpad, channels and barriers; the matrix path; then threads,
streams and queues. On another core than it was saved on, what its threads have seen and done is there too (R114): that core acquires at
.sys what `State.requeue` has the old one release (log 54). TOFF is set as R453 gives, so that TIME does not fall (R400). None when something has no room. -/
def State.restoreUnit (s : State) (x : Ctx) (img : SaveImage) (m : Move) (u : Unit_) : Option State :=
  let k := s.core m.new
  let moving := img.ops.filter (img.opIn u)
  let staying := if m.old = m.new then [] else (s.core m.old).ops.filter fun o => o.ctx == x.idx && img.opIn u o
  let gens := img.gens.filter fun g => moving.any fun o => o.id == g.2.op
  if gens.any (fun g => (k.gens.getD g.1 none).isSome) || (u.ctl && !img.ctls.isEmpty && (k.ctl? x.idx).any fun t => t.st == .running) then none
  else
    ((s.moveNext m).placeTeams x m img u.teams).bind fun s =>
      ((match u.mx, img.mx with
        | true, some p => s.restorePath m x.idx p img.acc
        | _, _ => some s)).map fun (s : State) =>
          let s := (s.settleUnit x img m u moving staying).modCtx x.idx fun c => { c with toff := s.restoredToff m.new img c.toff }
          if m.old = m.new then s else s.acquireActs m.new .sys 0b111

/-- The images of a context on cores it no longer has. -/
def State.lostImages (s : State) (x : Ctx) : List (Nat × SaveImage) :=
  s.cores.flatMap fun (p : Nat × Core) =>
    if x.cores.contains p.1 then [] else (p.2.images.filter fun i => i.ctx == x.idx).map fun i => (p.1, i)

/-- A team belongs to a gang of which a member is saved on a lost core (R444). -/
def gangBroken (lost : List (Nat × SaveImage)) (t : Team) : Bool :=
  t.lrec.gang != 0 && lost.any fun q => q.2.teams.any fun y => y.queue == t.queue && y.seq == t.seq && y.lrec.gang != 0 && y.tid / t.lrec.gang == t.tid / t.lrec.gang

/-- The part of an image that goes with a team: control threads with the team they are of; the matrix path with that team, or
with the first. A requeued team numbers the cores as they are now (R443). -/
def SaveImage.unitOf (img : SaveImage) (t : Team) : Unit_ :=
  let owner := (img.ctls.findSome? (·.team)).filter fun y => img.teams.any fun z => z.id == y
  { teams := [{ t with view := none }], ctl := owner == some t.id, mx := (owner.orElse fun _ => (img.teams.head?).map (·.id)) == some t.id }

/-- The physical core a requeued team is placed on, from the new number of cores (R414, R444). -/
def Ctx.newHome (x : Ctx) (t : Team) : Option Nat := (x.homeOf t.queue t.seq t.lrec.gang t.tid).bind fun h => x.cores[h]?

/-- Requeue a whole gang: every member on its new core, or none. -/
def State.requeueGang (s : State) (x : Ctx) (t : Team) : Option State :=
  let gang := t.tid / t.lrec.gang
  let all := s.cores.flatMap fun (p : Nat × Core) => (p.2.images.filter fun i => i.ctx == x.idx).flatMap fun i =>
    (i.teams.filter fun y => y.queue == t.queue && y.seq == t.seq && y.lrec.gang != 0 && y.tid / t.lrec.gang == gang).map fun y => (p.1, i, y)
  let live := (s.gangTeams x.idx t.queue t.seq gang).length
  if all.length ≠ live then none
  else all.foldl (fun (r : Option State) q => r.bind fun s => (x.newHome q.2.2).bind fun c =>
    let u := q.2.1.unitOf q.2.2
    s.restoreUnit x q.2.1 (s.moveTo q.1 c) (if x.cores.contains q.1 then { u with ctl := false, mx := false } else u)) (some s)

/-- Requeue on a core what a lost core held: a team whose new home it is, its gang with it, or, on logical core 0, the control
threads and the path of an image that has no team for them. -/
def State.requeueOn (s : State) (x : Ctx) (core : Nat) : Option State :=
  (s.lostImages x).findSome? fun q =>
    let m := s.moveTo q.1 core
    let team := q.2.teams.findSome? fun t =>
      if x.newHome t != some core then none
      else if t.lrec.gang != 0 then s.requeueGang x t
      else s.restoreUnit x q.2 m (q.2.unitOf t)
    team.orElse fun _ =>
      let free := (q.2.ctls.findSome? (·.team)).all fun y => !(q.2.teams.any fun z => z.id == y)
      if x.cores.head? == some core && free && (!q.2.ctls.isEmpty || q.2.teams.isEmpty) then
        s.restoreUnit x q.2 m { teams := [], ctl := true, mx := q.2.teams.isEmpty }
      else none

/-- The cores that hold images of a context. -/
def State.imageCores (s : State) (x : Nat) : List Nat :=
  (s.cores.filter fun (p : Nat × Core) => p.2.images.any fun i => i.ctx == x).map (·.1)

/-- Requeue on a core, once the cores that hold the context's images have released at .sys (R114, log 54). -/
def State.requeue (s : State) (x : Ctx) (core : Nat) : State :=
  match s.requeueOn x core with
  | none => s
  | some _ =>
    match s.releaseAll x.vf .sys (s.imageCores x.idx) with
    | .wait s => s
    | .done s => (s.requeueOn x core).getD s

/-- CONTEXT_RESTORE (R437, R444): a context saved on a core is restored there, its broken gangs apart; or a core takes its next
piece of what revocation has taken from a lost core. -/
def execContextRestore (core ctx : Nat) (s : State) : Host.Outcome State Fault Refusal :=
  .next (match s.ctx? ctx with
    | none => s
    | some x =>
      if x.st != .running || !x.cores.contains core || (s.core core).draining ctx || (s.vf x.vf).saving then s
      else
        let lost := s.lostImages x
        let own := ((s.core core).images.find? fun i => i.ctx == ctx).bind fun img =>
          let kept := img.teams.filter fun t => !gangBroken lost t
          if kept.isEmpty && img.ctls.isEmpty && img.mx.isNone && (img.ops.filter (img.opIn ⟨kept, true, true⟩)).isEmpty then none
          else s.restoreUnit x img (s.moveTo core core) ⟨kept, true, true⟩
        match own with
        | some s => s
        | none => s.requeue x core)

end Sys2Proof.Machine
end

