-- ==== Sys2Proof/Machine/Management.lean ====
section
/-! DEFINITION. Root commands (R451, R455 to R457, R465, R466), and what the firmware and the operator do (R39, R40, R449, R472 to
R475). An event whose conditions do not hold changes nothing. -/

namespace Sys2Proof

/-- Free value: the n-th image that another device's operator brings in (R466, log 67). -/
opaque Config.foreignImage : Nat → Machine.RootImage

namespace Machine

/-! ## Frames of a region set (R42, R465) -/

/-- 64 KiB frames of a region. -/
def State.regionFrames (s : State) (r : Nat) : Nat := (s.dev.regions.getD r {}).size / 65536

/-- The device physical address of frame `k` of a region set, regions in the order given. -/
def State.nthFrame (s : State) : List Nat → Nat → Nat
  | [], _ => 0
  | r :: t, k => if k < s.regionFrames r then r * 2 ^ 44 + 65536 * k else s.nthFrame t (k - s.regionFrames r)

/-- Frames of a region set. -/
def State.totalFrames (s : State) (rs : List Nat) : Nat := natSum (rs.map s.regionFrames)

/-- A region set in ascending order. -/
def sortNats (l : List Nat) : List Nat := (sortBy (fun a b => decide (a ≤ b)) l).eraseDups

/-! ## The bootstrap table (R465) -/

/-- Chunk `j` of 512 MiB of the `f` frames from `p` on is mapped by one leaf. -/
def State.bigRun (s : State) (rs : List Nat) (p f j : Nat) : Bool :=
  let d := s.nthFrame rs (p + 8192 * j)
  8192 * (j + 1) ≤ f && d % 2 ^ 29 == 0 && s.nthFrame rs (p + 8192 * j + 8191) == d + 8191 * 65536

/-- Chunks of 512 MiB, and first-level entries of 4 TiB, that `f` frames span. -/
def chunks (f : Nat) : Nat := (f + 8191) / 8192
def spans (f : Nat) : Nat := (f + 2 ^ 26 - 1) / 2 ^ 26

/-- The chunks that need a third-level table. -/
def State.smallChunks (s : State) (rs : List Nat) (p f : Nat) : List Nat := (List.range (chunks f)).filter fun j => !s.bigRun rs p f j

/-- Table pages that map the frames from `p` on. -/
def State.tablesNeeded (s : State) (rs : List Nat) (p f : Nat) : Nat := 1 + spans f + (s.smallChunks rs p f).length

/-- P: the least number of table frames, of `t` frames in all. -/
def State.leastTables (s : State) (rs : List Nat) (t : Nat) : Nat → Nat → Option Nat
  | 0, _ => none
  | n + 1, p => if s.tablesNeeded rs p (t - p) ≤ p then some p else s.leastTables rs t n (p + 1)

/-- Write a table entry. -/
def State.putEntry (s : State) (page i e : Nat) : State := s.pokeN (.dev (page + 8 * i)) (valBytes 8 e)

/-- A pointer, and a leaf that grants W and X. -/
def ptrEntry (out : Nat) : Nat := out + 1
def leafEntry (out : Nat) : Nat := out + 0xF

/-- Clear a frame. -/
def State.clearFrame (s : State) (dpa : Nat) : State :=
  (List.range 16).foldl (fun s g => { s with mem := { s.mem with hbm := Mem.clear s.mem.hbm (s.hbmKey (dpa + 4096 * g)) 4096 } }) s

/-- BUILD the bootstrap table over a region set: its first-level table's address, or none when the set has too few frames. -/
def State.bootstrap (s : State) (rs : List Nat) : Option (State × Nat) :=
  let t := s.totalFrames rs
  (s.leastTables rs t (t + 1) 0).map fun p =>
    let f := t - p
    let page (n : Nat) : Nat := s.nthFrame rs n
    let small := s.smallChunks rs p f
    let third (j : Nat) : Nat := page (1 + spans f + (indexIn small j).getD 0)
    let s := (List.range p).foldl (fun s n => s.clearFrame (page n)) s
    let s := (List.range (spans f)).foldl (fun s i => s.putEntry (page 0) i (ptrEntry (page (1 + i)))) s
    let s := (List.range (chunks f)).foldl (fun s j =>
      let second := page (1 + j / 8192)
      if small.contains j then
        let n := min 8192 (f - 8192 * j)
        (List.range n).foldl (fun s i => s.putEntry (third j) i (leafEntry (page (p + 8192 * j + i)))) (s.putEntry second (j % 8192) (ptrEntry (third j)))
      else s.putEntry second (j % 8192) (leafEntry (page (p + 8192 * j)))) s
    (s, page 0)

/-! ## CREATE (R451, R465) -/

/-- The command block at ROOT.ARG. -/
def State.rootBlock (s : State) (vf : Nat) : List DWord :=
  let a := (s.vf vf).rarg.toNat
  (List.range 8).map fun k => BitVec.ofNat 64 (bytesVal (s.hostRead vf (a + 8 * k) 8))

/-- Set ROOT.CSTAT. -/
def State.cstat (s : State) (vf code handle : Nat) : State :=
  s.modVf vf fun v => { v with cstat := BitVec.ofNat 64 (code + fieldAt handle 32 32) }

/-- A region matches a device mode for a root on some dies, whose share of the stacks is `share` (R42): ONE, a HASH region over every
stack of the share; TWO, one over every stack of a half, split as R27 splits the columns; DIES, the DIRECT region of a quarter that
one of the dies owns (R29, R43). -/
def Region.matches_ (r : Region) (mode : Nat) (dies share : List Nat) : Bool :=
  match mode with
  | 0 => r.type == 1 && r.stackSet == share
  | 1 =>
    let (lo, w) := colSpan dies
    let (left, right) := share.partition fun k => firnCol k < lo + (w + 1) / 2
    r.type == 1 && !r.stackSet.isEmpty && (r.stackSet == left || r.stackSet == right)
  | _ => r.type == 2 && r.rows == quarterRows && dies.any fun d => (quartersOf d).any fun q => q.1 == r.stack && q.2 * quarterGranules == r.base

/-- The regions of a set from which a root of a mode takes its frames (R42). Its share of the partition's stacks is those its HASH
regions lie on (log 48). -/
def State.modeRegions (s : State) (mode : Nat) (dies rs : List Nat) : List Nat :=
  let reg (i : Nat) : Region := s.dev.regions.getD i {}
  let share := sortNats ((rs.filter fun i => (reg i).type == 1).flatMap fun i => (reg i).stackSet)
  rs.filter fun i => (reg i).matches_ mode dies share

/-- The regions that back a root of a function: of the profile's region set, those that fit the root's mode and whose stacks lie in the
function's partition (R42, R450). -/
def State.frameRegions (s : State) (vf mode : Nat) (dies : List Nat) (p : Profile) : List Nat :=
  s.modeRegions mode dies ((sortNats p.regions).filter (s.regionInside vf))

/-- The region set of a root (R56). In mode DIES it is the quarters that the root's dies own: no other is used (R29). -/
def State.rootRegions (s : State) (vf mode : Nat) (dies : List Nat) (p : Profile) : List Nat :=
  if mode = 2 then s.frameRegions vf mode dies p else sortNats p.regions

/-- A block of CREATE breaks Table 21.7. -/
def createBad (ws : List DWord) : Bool :=
  let tr := blkW ws 3
  !blkZero ws 5 || ws.getD 4 0 != 0 || blkF ws 0 63 8 != 0 || blkF ws 0 4 2 != 0 || blkF ws 0 5 5 != 0 || blkF ws 0 1 0 == 3 ||
  blkW ws 2 % 64 != 0 || (tr != 0 && 2 ^ Nat.log2 tr != tr)

/-- The root of a profile and a block. -/
def rootCtx (vf idx gen : Nat) (p : Profile) (ws : List DWord) (cores regions : List Nat) (frames troot : Nat) : Ctx :=
  { idx, gen, vf, parent := none, depth := 0, st := .stopped, flags := BitVec.ofNat 8 (blkF ws 0 7 0), seed := ws.getD 1 0
    troot := BitVec.ofNat 64 troot, entry := 0, cores, frames, nq := p.nq, tagb := p.tagb, trsh := 65536, prio := p.prio
    events := List.replicate 64 0, queues := List.replicate 64 {}, comms := List.replicate 16 {}, regions
    trace := if blkW ws 3 = 0 then none else some { base := ws.getD 2 0, size := blkW ws 3, rate := p.traceRate } }

/-- The header of a new trace ring holds its size (R454), where the bootstrap table maps it. -/
def State.traceHeader (s : State) (x : Ctx) : State :=
  match x.trace with
  | none => s
  | some t =>
    match s.translate (x.cores.headD 0) x.idx (t.base + 16) .write with
    | (s, .ok p) => s.homePoke none p (valBytes 8 t.size)
    | (_, .error _) => s

/-- CREATE (R465). -/
def execCreate (vf : Nat) (s : State) : Host.Outcome State Fault Refusal :=
  s.pageWrite vf (.create vf) fun s =>
    let v := s.vf vf
    let ws := s.rootBlock vf
    if v.root.isSome then s.cstat vf 1 0
    else if v.rarg.toNat % 64 != 0 || createBad ws then s.cstat vf 2 0
    else match v.profile with
      | none => s.cstat vf 3 0
      | some (_, p) =>
        let cores := (sortNats p.cores).filter s.enabled
        let dies := (cores.map dieOf).eraseDups
        let mode := blkF ws 0 1 0
        if modeRefused mode p.nq dies then s.cstat vf 2 0
        else
          let rs := s.frameRegions vf mode dies p
          match s.bootstrap rs, s.freeIndex with
          | some (s, troot), some idx =>
            let gen := tabGet 0 idx s.gens
            let x := rootCtx vf idx gen p ws cores (s.rootRegions vf mode dies p) (s.totalFrames rs) troot
            let s : State := { s with gens := tabPut idx ((gen + 1) % 0xFFFF) s.gens, ctxs := s.ctxs ++ [x] }
            (((s.modVf vf fun v => { v with root := some idx, rtroot := BitVec.ofNat 64 troot }).traceHeader x).cstat vf 0 0)
          | _, _ => s.cstat vf 3 0

/-! ## SAVE (R455, R466) -/

/-- The tables of a root, frame and level, through the pointers of its grant. -/
def State.tablesFrom (s : State) (t : Tab) : Nat → Nat → List (Nat × Nat)
  | 0, _ => []
  | f + 1, ptr =>
    if !s.inGrant t false ptr 65536 then []
    else (ptr / 65536, 3 - f) :: (List.range 8192).flatMap fun i =>
      let e : Entry := ⟨bytesVal (s.peekN (.dev (ptr + 8 * i)) 8)⟩
      if e.v && !e.leaf && !e.malformed (3 - f) true then s.tablesFrom t f e.out else []

/-- The tables whose outputs are device addresses: T_0, and the shadows of the root's FLAT children (R68). -/
def State.deviceTables (s : State) (root : Ctx) : List (Nat × Nat) :=
  let flats := s.ctxs.filter fun c => c.parent == some root.idx && c.isFlat
  ((root.troot :: flats.map (·.shadow)).flatMap fun p => s.tablesFrom root.tab 3 p.toNat).eraseDups

/-- The contents of a frame. -/
def State.frameBytes (s : State) (frame : Nat) : List (BitVec 8) :=
  (List.range 16).flatMap fun g => Mem.getBytes s.mem.hbm (s.hbmKey (frame * 65536 + 4096 * g)) 4096

/-- Every L1 writes back what it holds of some frames. -/
def State.flushFrames (s : State) (frames : List Nat) : State :=
  (s.cores.map (·.1)).foldl (fun s c =>
    ((s.core c).l1.filter fun y => y.key.vf.isNone && frames.contains (frameOf (y.key.sec * 64))).foldl (fun s y => s.dieFlush (dieOf c) y.key) s) s

/-- Nothing of a tree is left on a core, or on its way, but operations that go on outside it. -/
def State.treeQuiet (s : State) (tree : List Nat) : Bool :=
  s.cores.all (fun (p : Nat × Core) =>
    p.2.warps.all (fun w => !tree.contains w.2.ctx) && p.2.teams.all (fun t => !tree.contains t.ctx) &&
    p.2.ctls.all (fun t => !tree.contains t.ctx || t.st != .running) && p.2.drains.all (fun d => !tree.contains d.ctx) &&
    p.2.ops.all (fun o => !tree.contains o.ctx || o.outside)) &&
  s.reqs.all (fun r => !tree.contains r.ctx) && s.ctxs.all (fun c => !tree.contains c.idx || (c.revoke.isNone && c.st != .killing)) &&
  s.words.all fun w => !tree.contains w.caller || w.halted

/-- A core's images of a tree, with the operations that were going on outside it. -/
def State.coreImages (s : State) (tree : List Nat) (core : Nat) : List (Nat × SaveImage) :=
  let k := s.core core
  let rest (x : Nat) : List EngOp := k.ops.filter fun o => o.ctx == x
  let mine := (k.images.filter fun i => tree.contains i.ctx).map fun i => (core, { i with ops := i.ops ++ rest i.ctx })
  mine ++ (tree.filter fun x => !(mine.any fun q => q.2.ctx == x) && !(rest x).isEmpty).map fun x =>
    (core, { ctx := x, warps := [], ctls := [], teams := [], spad := [], gens := [], ops := rest x, mx := none, acc := [] })

/-- A tree leaves the device. -/
def State.removeTree (s : State) (tree : List Nat) (vf : Nat) : State :=
  let gone (x : Nat) : Bool := tree.contains x
  let s := (s.tlbDropCtxs tree).dropCode tree
  { s with
    ctxs := s.ctxs.filter fun c => !gone c.idx
    halts := s.halts.filter fun h => !gone h.ctx
    waitFaults := s.waitFaults.filter fun f => !gone f.ctx
    words := s.words.filter fun w => !gone w.caller
    kills := s.kills.filter fun k => !gone k.caller
    comms := (s.comms.map fun (m : Comm) => { m with joined := m.joined.filter fun j => !(j.2.any gone) }).filter fun m => m.joined.any fun j => j.2.isSome
    vfs := listMod s.vfs vf fun v => { v with root := none, saving := false, fqWait := v.fqWait.filter fun f => !gone f.ctx }
    dies := s.dies.map fun (p : Nat × Die) => (p.1, { p.2 with missq := p.2.missq.filter fun m => !gone m.ctx })
    firns := s.firns.map fun (p : Nat × Firn) => (p.1, { p.2 with missq := p.2.missq.filter fun m => !gone m.ctx })
    cores := s.cores.map fun (p : Nat × Core) => (p.1, { p.2 with
      ops := p.2.ops.filter fun o => !gone o.ctx, images := p.2.images.filter fun i => !gone i.ctx
      ctls := p.2.ctls.filter fun t => !gone t.ctx, blocks := p.2.blocks.filter fun b => !gone b.ctx }) }

/-- The last value of the counter that a context could have read (R453). -/
def State.lastCounter (s : State) : Nat := ((List.range Config.seracDies).map s.counter).foldl max 0

/-- The image of a root whose tree is quiet. -/
def State.rootImage (s : State) (root : Ctx) (tree : List Nat) (handle : Nat) : RootImage :=
  let charged := s.charges.filter fun q => tree.contains q.2
  let tables := s.deviceTables root
  let frames := charged.map (fun q => (q.1, some q.2)) ++ ((tables.map (·.1)).eraseDups.filter fun f => !(charged.any fun q => q.1 == f)).map fun f => (f, none)
  { handle, root := root.idx, ctxs := s.ctxs.filter fun c => tree.contains c.idx
    cores := (s.cores.map (·.1)).flatMap (s.coreImages tree)
    halts := s.halts.filter fun h => tree.contains h.ctx
    waits := (s.waitFaults ++ (s.vf root.vf).fqWait).filter fun f => f.driver.isNone && tree.contains f.ctx
    words := s.words.filter fun w => tree.contains w.caller
    frames := frames.map fun q => (q.1, q.2, s.frameBytes q.1)
    tables, counter := s.lastCounter }

/-- SAVE comes to its end: the image enters the save pool, and the root is gone; its frames are scrubbed (R466). -/
def State.finishSave (s : State) (vf : Nat) (root : Ctx) (tree : List Nat) : State :=
  let frames := (s.charges.filter fun q => tree.contains q.2).map (·.1) ++ (s.deviceTables root).map (·.1)
  let s := s.flushFrames frames
  let img := s.rootImage root tree s.dev.nextImage
  let s : State := { s with dev := { s.dev with images := s.dev.images ++ [img], nextImage := s.dev.nextImage + 1 } }
  (((s.removeTree tree vf).releaseFrames frames.eraseDups).cstat vf 0 img.handle)

/-- Frames the images of a function's saved roots hold. -/
def State.savedFrames (s : State) (vf : Nat) : Nat :=
  natSum ((s.dev.images.filter fun m => m.ctxs.any fun c => c.vf == vf).map fun m => m.frames.length)

/-- SAVE (R455, R466): the tree is drained from every core and its communicators die; once it is quiet the image is made.
ROOT.CSTAT reads 0xFF meanwhile. -/
def execSave (vf : Nat) (s : State) : Host.Outcome State Fault Refusal :=
  if (s.vf vf).saving then
    .next (match s.vfRoot vf with
      | some root => if s.pageUp vf && s.treeQuiet (s.treeOf vf) then s.finishSave vf root (s.treeOf vf) else s
      | none => s)
  else s.pageWrite vf (.save vf) fun s =>
    match s.vfRoot vf, (s.vf vf).profile with
    | none, _ => s.cstat vf 1 0
    | _, none => s.cstat vf 3 0
    | some root, some (_, p) =>
      let tree := s.treeOf vf
      if p.saveAllow < s.savedFrames vf + s.chargeCount root.idx then s.cstat vf 3 0
      else
        let s := (s.modVf vf fun v => { v with saving := true }).cstat vf 0xFF 0
        let s := tree.foldl (fun s x => s.killCommsOf x) s
        (s.cores.map (·.1)).foldl (fun s c => tree.foldl (fun s x => s.beginDrain c x false) s) s

/-! ## RESTORE (R455 to R457, R466) -/

/-- Enabled cores of a profile that the target offers, by logical die (R22, R456). -/
def State.offer (s : State) (p : Profile) : List (List Nat) :=
  let cores := (sortNats p.cores).filter s.enabled
  ((cores.map dieOf).eraseDups).map fun d => cores.filter fun c => dieOf c == d

/-- Cores of a saved root, by logical die. -/
def Ctx.byDie (x : Ctx) : List (List Nat) := x.dies.map fun d => x.cores.filter fun c => dieOf c == d

/-- The image's cores fit the offer (R456). -/
def coresFit (saved offer : List (List Nat)) : Bool :=
  saved.length ≤ offer.length && saved.zipIdx.all fun q => q.1.length ≤ (offer.getD q.2 []).length

/-- Where a saved core goes: the same place on the same logical die, or nowhere (R456, R457). -/
def coreMap (saved offer : List (List Nat)) (c : Nat) : Option Nat :=
  (saved.zipIdx.find? fun q => q.1.contains c).bind fun q => (indexIn q.1 c).bind fun r => (offer.getD q.2 [])[r]?

/-- Runs of frames that leaves of the saved tables map, with their lengths. -/
def RootImage.runs (m : RootImage) : List (Nat × Nat) :=
  m.tables.flatMap fun t =>
    let bytes := ((m.frames.find? fun f => f.1 == t.1).map (·.2.2)).getD []
    (List.range 8192).filterMap fun i =>
      let e : Entry := ⟨bytesVal ((bytes.drop (8 * i)).take 8)⟩
      if e.v && e.leaf && e.tgt == 0 && !e.malformed t.2 true then some (e.out / 65536, pageSize t.2 / 65536) else none

/-- Nothing of the device holds one of `c` frames. -/
def State.framesFree (s : State) (b c : Nat) : Bool :=
  s.charges.all (fun q => q.1 < b || b + c ≤ q.1) && s.scrubs.all (fun q => q.frame < b || b + c ≤ q.frame) &&
  s.waitRel.all fun q => q.1 < b || b + c ≤ q.1

/-- A run of `c` frames, aligned, that nothing holds, in a region set, apart from what is used. -/
def State.findRun (s : State) (rs : List Nat) (used : List (Nat × Nat × Nat)) (c : Nat) : Option Nat :=
  rs.findSome? fun r => ((List.range (s.regionFrames r / c)).map fun i => r * 2 ^ 28 + c * i).find? fun b =>
    used.all (fun u => u.2.1 + u.2.2 ≤ b || b + c ≤ u.2.1) && s.framesFree b c

/-- The frames of a region set that nothing holds, in ascending order. -/
def State.freeFrames (s : State) (rs : List Nat) : List Nat :=
  (rs.flatMap fun r => (List.range (s.regionFrames r)).map (r * 2 ^ 28 + ·)).filter (s.framesFree · 1)

/-- A plan for the frames of an image: moves of runs (old, new, length), the runs of the large leaves whose frames come apart, and frames
for the tables that split them. -/
structure FramePlan where
  moves : List (Nat × Nat × Nat)
  split : List (Nat × Nat) := []
  spare : List Nat := []
  deriving DecidableEq, Repr

/-- Where a frame goes by a plan of (old, new, length). -/
def planned (plan : List (Nat × Nat × Nat)) (f : Nat) : Option Nat :=
  (plan.find? fun u => u.1 ≤ f && f < u.1 + u.2.2).map fun u => u.2.1 + (f - u.1)

/-- A run of `c` frames holds one that must be placed. -/
def RootImage.needs (m : RootImage) (b c : Nat) : Bool := m.frames.any fun f => b ≤ f.1 && f.1 < b + c

/-- Place wanted runs, first length, then old frame, around frames already taken; one that must be placed and has no room ends the plan. -/
def State.placeRuns (s : State) (rs : List Nat) (m : RootImage) (taken : List Nat) (wanted : List (Nat × Nat)) (start : List (Nat × Nat × Nat)) :
    Option (List (Nat × Nat × Nat)) :=
  let used := taken.map fun f => (0, f, 1)
  wanted.foldl (fun (r : Option (List (Nat × Nat × Nat))) u => r.bind fun plan =>
    if (planned plan u.1).isSome then some plan
    else match s.findRun rs (plan ++ used) u.2 with
      | some b => some (plan ++ [(u.1, b, u.2)])
      | none => if m.needs u.1 u.2 then none else some plan) (some start)

/-- The runs that the image's large leaves map, longest first, and those of its 64 KiB leaves. -/
def RootImage.longRuns (m : RootImage) : List (Nat × Nat) := sortBy (fun a b => decide (b.2 ≤ a.2)) (m.runs.filter fun u => 1 < u.2).eraseDups
def RootImage.shortRuns (m : RootImage) : List (Nat × Nat) := (m.runs.filter fun u => u.2 = 1).eraseDups

/-- The parts of a large leaf's run once it is split: a 4 TiB leaf's are runs of 512 MiB, whose own are single frames. -/
def leafParts (u : Nat × Nat) : List (Nat × Nat) := (List.range 8192).map fun j => (u.1 + j * (u.2 / 8192), u.2 / 8192)

/-- The runs of the leaves that come apart, each with a frame that must be placed: the image's large leaves, and the large parts of
those; a run for each leaf. -/
def RootImage.splits (m : RootImage) : List (Nat × Nat) :=
  let top := m.runs.filter fun u => 1 < u.2 && m.needs u.1 u.2
  top ++ ((top.filter fun u => 8192 < u.2).flatMap leafParts).filter fun u => m.needs u.1 u.2

/-- PLAN the new frames (R456). Whole runs are kept whole where there is room: long runs first, then what must be placed, then what is
only mapped. Where there is not, every frame that must be placed takes the lowest free one, the large leaves that hold such a frame are
split by tables in the next ones, and what is only mapped takes what is left. None when there are too few frames. -/
def State.planFrames (s : State) (rs : List Nat) (m : RootImage) : Option FramePlan :=
  match s.placeRuns rs m [] (m.longRuns ++ m.frames.map (fun f => (f.1, 1)) ++ m.shortRuns) [] with
  | some l => some { moves := l }
  | none =>
    let free := s.freeFrames rs
    let must := (m.frames.map (·.1)).eraseDups
    let split := m.splits
    let n := split.length
    if free.length < must.length + n then none
    else
      let spare := (free.drop must.length).take n
      let rest := m.longRuns ++ split.flatMap leafParts ++ m.shortRuns
      (s.placeRuns rs m spare (rest.filter fun u => !m.needs u.1 u.2) ((must.zip free).map fun q => (q.1, q.2, 1))).map fun l => { moves := l, split, spare }

/-- Entries of a table in a frame's contents. -/
def tableEntries (bytes : List (BitVec 8)) : List Entry := (List.range 8192).map fun i => ⟨bytesVal ((bytes.drop (8 * i)).take 8)⟩

/-- An entry of a restored table, with the tables that split it and the frames left for others: its output follows the plan; a large
leaf whose frames come apart points to a table of its parts; what was only mapped and found no frame is invalid. -/
def Entry.replan (plan : FramePlan) : Nat → Entry → Nat → List Nat → Nat × List (Nat × List Nat) × List Nat
  | 0, _, _, spare => (0, [], spare)
  | n + 1, e, lvl, spare =>
    let b := e.out / 65536
    let c := if e.leaf then pageSize lvl / 65536 else 1
    if !e.v || e.tgt != 0 || e.malformed lvl true then (e.raw, [], spare)
    else match plan.moves.find? fun u => u.1 ≤ b && b + c ≤ u.1 + u.2.2 with
      | some u => (e.raw - e.out + (u.2.1 + (b - u.1)) * 65536, [], spare)
      | none =>
        match spare with
        | [] => (0, [], [])
        | t :: spare =>
          if !plan.split.contains (b, c) then (0, [], t :: spare)
          else
            let r := (List.range 8192).foldl (fun (r : List Nat × List (Nat × List Nat) × List Nat) j =>
              let x := Entry.replan plan n ⟨e.raw + j * (c / 8192) * 65536⟩ (lvl + 1) r.2.2
              (r.1 ++ [x.1], r.2.1 ++ x.2.1, x.2.2)) ([], [], spare)
            (ptrEntry (t * 65536), (t, r.1) :: r.2.1, r.2.2)

/-- Put the contents of the saved frames in place, and the tables that split leaves. -/
def State.placeFrames (s : State) (m : RootImage) (plan : FramePlan) : State :=
  (m.frames.foldl (fun (r : State × List Nat) q =>
    match planned plan.moves q.1 with
    | none => r
    | some f =>
      let put (s : State) (f : Nat) (bytes : List (BitVec 8)) : State := s.pokeN (.dev (f * 65536)) (bytes.take 65536)
      let (s, spare) := match m.tables.find? fun t => t.1 == q.1 with
        | none => (put r.1 f q.2.2, r.2)
        | some t =>
          let r' := (tableEntries q.2.2).foldl (fun (r : List Nat × List (Nat × List Nat) × List Nat) e =>
            let x := e.replan plan 3 t.2 r.2.2
            (r.1 ++ [x.1], r.2.1 ++ x.2.1, x.2.2)) ([], [], r.2)
          (((f, r'.1) :: r'.2.1).foldl (fun s p => put s p.1 (p.2.flatMap (valBytes 8))) r.1, r'.2.2)
      match q.2.1 with
      | none => (s, spare)
      | some x => ({ s with charges := tabPut f x s.charges }, spare)) (s, plan.spare)).1

/-- Saved cores wait under numbers above those built, and their pieces are taken up as those of lost cores (R444). -/
def parkCore (c : Nat) : Nat := Config.coresBuilt + c

/-- A requester on a parked core. -/
def Requester.parked : Requester → Requester
  | .warp c sl => .warp (parkCore c) sl
  | .ctl c x => .ctl (parkCore c) x
  | .stream c g => .stream (parkCore c) g
  | .op c id => .op (parkCore c) id
  | .mx c => .mx (parkCore c)
  | .write id => .write id

/-- A thread on a parked core. -/
def Who.parked : Who → Who
  | .warp c sl t => .warp (parkCore c) sl t
  | .ctl c x => .ctl (parkCore c) x

/-- The image of a core, parked. -/
def SaveImage.parked (i : SaveImage) : SaveImage :=
  { i with warps := i.warps.map fun p => (p.1, { p.2 with halt := p.2.halt.map Requester.parked })
           ops := i.ops.map fun o => { o with issuer := o.issuer.map Who.parked } }

/-- A context of an image in its new place (R442, R453, R456, R457). -/
def Ctx.replaced (x : Ctx) (vf : Nat) (regions : List Nat) (plan : FramePlan) (cm : Nat → Option Nat) (now saved : Nat) : Ctx :=
  let frame (a : DWord) : DWord := BitVec.ofNat 64 (((planned plan.moves (a.toNat / 65536)).map (· * 65536)).getD 0)
  let root := x.parent.isNone
  let lost := x.cores.any fun c => (cm c).isNone
  let y : Ctx :=
    { x with vf, cores := x.cores.filterMap cm, regions := if root then regions else x.regions
             troot := if root then frame x.troot else x.troot
             shadow := if x.depth = 1 && x.isFlat then frame x.shadow else x.shadow
             toff := BitVec.ofNat 64 (x.toff.toNat + (saved + x.toff.toNat - now))
             lock := none, held := []
             queues := x.queues.map fun q => { q with grids := q.grids.map fun g =>
               { g with homes := g.homes.map fun h => (h.1, parkCore h.2), gbars := g.gbars.map fun b => (b.1, b.2.map fun w => (parkCore w.1, w.2)) } } }
  if lost then y.spliceToFull else y

/-- The parked cores of an image: identifiers there are kept, so later ones stay above them. -/
def State.parkCores (s : State) (m : RootImage) : State :=
  m.cores.foldl (fun s q => s.modCore (parkCore q.1) fun k =>
    { k with images := k.images ++ [q.2.parked]
             nextTeam := (q.2.teams.map fun t => t.id + 1).foldl max k.nextTeam
             nextOp := (q.2.ops.map fun o => o.id + 1).foldl max k.nextOp }) s

/-- Carry out a RESTORE that the offer allows. The counter of R453 is the lowest of the dies the root is restored on. -/
def State.doRestore (s : State) (vf : Nat) (m : RootImage) (p : Profile) (plan : FramePlan) (root : Ctx) : State :=
  let cm := coreMap root.byDie (s.offer p)
  let dies := ((root.cores.filterMap cm).map dieOf).eraseDups
  let now := (dies.map s.counter).min?.getD 0
  let ctxs := m.ctxs.map fun c => c.replaced vf (s.rootRegions vf root.mode dies p) plan cm now m.counter
  let s := (s.placeFrames m plan).parkCores m
  let s : State := { s with
    ctxs := s.ctxs ++ ctxs
    halts := s.halts ++ m.halts.map fun h => { h with req := h.req.parked }
    words := s.words ++ m.words
    dev := { s.dev with images := s.dev.images.filter fun i => i.handle != m.handle } }
  let s := s.modVf vf fun v => { v with root := some m.root, rtroot := ((ctxs.find? fun c => c.idx == m.root).map (·.troot)).getD 0, hand := [] }
  ((m.waits.foldl (fun s f => s.enqueueFault { f with req := f.req.map Requester.parked }) s).retryWords.cstat vf 0 0)

/-- A refused RESTORE: the status, and a RESTORE_SHORT record in the function's fault queue (R455, R457). -/
def State.restoreShort (s : State) (vf : Nat) : State :=
  let w : DWord := BitVec.ofNat 64 (Code.restoreShort.num + fieldAt 7 13 3)
  (s.enqueueFault { recv := 0, host := true, driver := some vf, req := none, ctx := 0, code := .restoreShort, record := w :: List.replicate 7 0 }).cstat vf 4 0

/-- RESTORE (R456, R457, R466). -/
def execRestore (vf : Nat) (s : State) : Host.Outcome State Fault Refusal :=
  s.pageWrite vf (.restore vf) fun s =>
    let v := s.vf vf
    let ws := s.rootBlock vf
    if v.root.isSome then s.cstat vf 1 0
    else if v.rarg.toNat % 64 != 0 || !blkZero ws 5 || blkF ws 4 63 32 != 0 || blkF ws 0 63 8 != 0 || blkF ws 0 5 2 != 0 then s.cstat vf 2 0
    else match v.profile with
      | none => s.cstat vf 3 0
      | some (_, p) =>
        match s.dev.images.find? fun m => m.handle == blkF ws 4 31 0 with
        | none => s.cstat vf 5 0
        | some m =>
          match m.ctxs.find? fun c => c.idx == m.root with
          | none => s.cstat vf 5 0
          | some root =>
            if !root.elastic && !coresFit root.byDie (s.offer p) then s.restoreShort vf
            else
            let dies := ((root.cores.filterMap (coreMap root.byDie (s.offer p))).map dieOf).eraseDups
            match s.planFrames (s.frameRegions vf root.mode dies p) m with
              | none => s.restoreShort vf
              | some plan => s.doRestore vf m p plan root

/-! ## Images (R466) -/

/-- An image's contexts have indices of their own, none of them taken here, and its root is one of them. -/
def State.imageFits (s : State) (m : RootImage) : Bool :=
  let l := m.ctxs.map (·.idx)
  l.contains m.root && l.Nodup && l.all fun i => !s.indexTaken i

/-- IMAGE_MOVE (R466): the operator carries an image out of the device under a handle, or brings one in: one that this device has sent
out comes back under its handle, and one of another device enters the save pool under the next. -/
def execImageMove (handle : Nat) (incoming : Bool) (s : State) : Host.Outcome State Fault Refusal :=
  let here (m : RootImage) : Bool := m.handle == handle
  .next (if incoming then
      if s.dev.away.any here then { s with dev := { s.dev with images := s.dev.images ++ s.dev.away.filter here, away := s.dev.away.filter fun m => !here m } }
      else
        let m := { Config.foreignImage s.dev.nextImage with handle := s.dev.nextImage }
        if s.imageFits m then { s with dev := { s.dev with images := s.dev.images ++ [m], nextImage := s.dev.nextImage + 1 } } else s
    else { s with dev := { s.dev with away := s.dev.away ++ s.dev.images.filter here, images := s.dev.images.filter fun m => !here m } })

/-- IMAGE_RELEASE: the image leaves the save pool. -/
def execImageRelease (handle : Nat) (s : State) : Host.Outcome State Fault Refusal :=
  .next { s with dev := { s.dev with images := s.dev.images.filter fun m => m.handle != handle } }

/-! ## Bring-up, firmware and power (R472 to R475) -/

/-- POWER_GOOD (R474): the firmware is verified, or the last image that verified is kept; LATBAND is written, every frame is
zeroed, and the functions are ready. Version 0 stands for no image. -/
def execPowerGood (version : Nat) (image : List (BitVec 8)) (s : State) : Host.Outcome State Fault Refusal :=
  .next (if s.dev.up then s
    else
      let fw := if s.dev.accepts version image then version else s.dev.fwVersion
      if fw = 0 then { s with dev := { s.dev with power := true } }
      else
        { s with
          dev := { s.dev with power := true, up := true, fwVersion := fw
                              latband := (List.range Config.seracDies).flatMap fun d => (List.range 4).map fun p => (d, p, latbandWord d p) }
          mem := { s.mem with hbm := [] }
          vfs := s.vfs.map fun v => { v with ready := true } })

/-- FIRMWARE_UPDATE (R472, R473): an image arrives in the firmware's management window, by its DMA (log 26), and is taken if it is
accepted. -/
def execFirmwareUpdate (version : Nat) (image : List (BitVec 8)) (s : State) : Host.Outcome State Fault Refusal :=
  .next (if s.dev.up then
      { s with dev := { s.dev.dma 0 image with fwVersion := if s.dev.accepts version image then version else s.dev.fwVersion } }
    else s)

/-- PANEL_POWER_OFF (Table 21.6). -/
def execPanelPowerOff (s : State) : Host.Outcome State Fault Refusal := .next (s.deviceReset false)

/-- THERMAL_THROTTLE (R475): timing only. -/
def execThermalThrottle (die : Nat) (s : State) : Host.Outcome State Fault Refusal :=
  .next { s with dev := { s.dev with throttled := if s.dev.throttled.contains die then s.dev.throttled else die :: s.dev.throttled } }

/-- CURRENT_CLAMP (R473, R475): timing only. -/
def execCurrentClamp (die : Nat) (s : State) : Host.Outcome State Fault Refusal :=
  .next { s with dev := { s.dev with clamped := if s.dev.clamped.contains die then s.dev.clamped else die :: s.dev.clamped } }

/-! ## Regions, partitions and profiles (R39, R40, R449, R451, R465) -/

/-- Two regions share a granule. -/
def Region.meets (r q : Region) : Bool :=
  r.onStacks.any q.onStacks.contains && max r.base q.base < min (r.base + r.rows) (q.base + q.rows)

/-- A leaf of a live root table names a region. -/
def State.regionNamed (s : State) (idx : Nat) : Bool :=
  s.ctxs.any fun c => c.parent.isNone && (s.tablesFrom c.tab 3 c.troot.toNat).any fun t =>
    (List.range 8192).any fun i =>
      let e : Entry := ⟨bytesVal (s.peekN (.dev (t.1 * 65536 + 8 * i)) 8)⟩
      e.v && e.leaf && e.tgt == 0 && dpaRegion e.out == idx

/-- A descriptor breaks R40, what lives apart. -/
def Region.bad (r : Region) : Bool :=
  r.type == 3 || (r.type == 1 && r.nstk != r.stackSet.length) || (r.type == 2 && (r.nstk != 1 || 96 ≤ r.stack)) ||
  r.nstk * r.rows % 16 != 0 || 15625000 < r.base + r.rows

/-- The descriptor that four words write, reserved bits left out (R8): STACK is one where TYPE is not DIRECT (Table 2.3). -/
def regionOf (w0 w1 w2 w3 : DWord) : Region :=
  { w0 := w0 &&& (if bitsOf w0.toNat 1 0 == 2 then 0xFFFFFFFFFF else 0xFFFFFFFE03), w1 := w1 &&& 0xFFFFFF, w2, w3 := w3 &&& 0xFFFFFFFF }

/-- REGION_DESCRIPTOR_WRITE (R39, R40): refused, or the entry takes the words. -/
def execRegionDescriptorWrite (idx : Nat) (w0 w1 w2 w3 : DWord) (s : State) : Host.Outcome State Fault Refusal :=
  let r := regionOf w0 w1 w2 w3
  .next (if !s.dev.up || s.dev.regions.length ≤ idx || r.bad || s.dev.regions.zipIdx.any (fun q => q.2 != idx && q.1.meets r) || s.regionNamed idx then s
    else { s with dev := { s.dev with regions := listMod s.dev.regions idx fun _ => r } })

/-- Two runs of columns are apart. -/
def Partition.apart (p q : Partition) : Bool := p.first + p.width ≤ q.first || q.first + q.width ≤ p.first

/-- A cut that R449 allows. -/
def cutOk (l : List Partition) : Bool :=
  l.length ≤ 12 && l.all (fun p => 2 ≤ p.width && p.first + p.width ≤ 24) && l.Pairwise fun p q => p.apart q = true

/-- A root lives in a partition. -/
def State.rootIn (s : State) (n : Nat) : Bool := s.vfs.any fun v => v.root.isSome && v.profile.any fun q => q.1 == n

/-- PARTITION_CUT (R449): only partitions without a root change; a profile follows its partition. -/
def execPartitionCut (runs : List (Nat × Nat)) (s : State) : Host.Outcome State Fault Refusal :=
  let new := runs.map fun r => (⟨r.1, r.2⟩ : Partition)
  .next (if !s.dev.up || !cutOk new || s.dev.parts.zipIdx.any (fun q => !new.contains q.1 && s.rootIn q.2) then s
    else
      let moved (n : Nat) : Option Nat := (s.dev.parts[n]?).bind fun p => new.findIdx? fun q => q == p
      { s with dev := { s.dev with parts := new }
               vfs := s.vfs.map fun v => { v with profile := v.profile.bind fun q => (moved q.1).map fun n => (n, q.2) } })

/-- A profile's cores and regions lie in a partition, and its numbers in their ranges. -/
def State.profileOk (s : State) (part : Partition) (p : Profile) : Bool :=
  !p.cores.isEmpty && p.cores.Nodup && p.cores.all (fun c => s.enabled c && part.holds (seracCol (dieOf c))) &&
  p.regions.all (fun r => (s.dev.regions.getD r {}).inside part) &&
  1 ≤ p.nq && p.nq ≤ 64 && p.prio ≤ 3 && 1 ≤ p.tagb && p.tagb ≤ 256 && 1 ≤ p.weight && p.weight ≤ 255 &&
  10000 ≤ p.slice && p.slice ≤ 100000000 && 10000 ≤ p.overrun && p.overrun ≤ 100000000

/-- RESOURCE_PROFILE_ASSIGN (R451, R465): a function of at most eight of its partition, without a root. -/
def execResourceProfileAssign (vf part : Nat) (p : Profile) (s : State) : Host.Outcome State Fault Refusal :=
  .next (match s.dev.parts[part]? with
    | none => s
    | some q =>
      let others := s.vfs.zipIdx.filter fun v => v.2 != vf && v.1.profile.any fun f => f.1 == part
      if !s.dev.up || Config.functions ≤ vf || (s.vf vf).root.isSome || 8 ≤ others.length || !s.profileOk q p then s
      else s.modVf vf fun v => { v with profile := some (part, p) })

end Machine

end Sys2Proof
end

