-- ==== Sys2Proof/Machine/Scrub.lean ====
section
/-! DEFINITION. The events of frame scrubbing (R75 to R80): release, the shootdown of each die, zeroing, and the frame's
return to READY. -/

namespace Sys2Proof.Machine

/-- FRAME_RELEASE (R79): a release that waited enters the scrub lists once they have room; a frame that nobody has released is one whose
scrub the firmware starts (R473). -/
def execFrameRelease (frame : Nat) (s : State) : Host.Outcome State Fault Refusal :=
  .next (match s.waitRel.find? fun q => q.1 == frame with
    | none => if s.dev.up && frame * 65536 < 2 ^ 52 && dpaOffset (frame * 65536) < (s.dev.regions.getD (dpaRegion (frame * 65536)) {}).size then s.releaseFrame frame none else s
    | some q =>
      if 256 ≤ s.scrubs.length && (s.scrubOf frame).isNone then s
      else { s with waitRel := s.waitRel.erase q }.releaseFrame frame q.2)

/-- A device place lies in a frame. -/
def Place.inFrame (p : Place) (frame : Nat) : Bool :=
  match p with
  | .dev d => frameOf d == frame
  | _ => false

/-- A translation leads into a frame. -/
def TlbEntry.intoFrame (e : TlbEntry) (frame : Nat) : Bool :=
  match e.out with
  | .dev d => d < (frame + 1) * 65536 && frame * 65536 < d + e.size
  | _ => false

/-- Accesses that a core of a die has translated into a frame, and that have not been performed (R77). -/
def State.frameBusy (s : State) (die frame : Nat) : Bool := s.accessing (fun c => dieOf c == die) (fun p => p.inFrame frame)

/-- A die removes every translation into a frame (R77 step 1), and a Serac die the block cache lines read from it, so that no later
fetch gives words from before the release (R78). -/
def State.dropFrameTlbs (s : State) (die : Nat) (onFirn : Bool) (frame : Nat) : State :=
  let keep (l : List TlbEntry) : List TlbEntry := l.filter fun e => !e.intoFrame frame
  if onFirn then s.modFirn die fun x => { x with tlb := keep x.tlb }
  else
    let s := s.modDie die fun x => { x with tlb := keep x.tlb }
    (dieCores die).foldl (fun s c => s.modCore c fun k => { k with tlb := keep k.tlb, bcache := k.bcache.filter fun q => !q.src.inFrame frame }) s

/-- A die discards every L1 sector of a frame, dirty data included (R77 step 3, Table 4.2). -/
def State.discardFrame (s : State) (die frame : Nat) : State :=
  (dieCores die).foldl (fun s c =>
    ((s.core c).l1.filter fun y => (y.key.place 0).inFrame frame).foldl (fun s y => s.l1Drop c y.key) s)
    (s.dropFilled fun c k => dieOf c == die && (k.place 0).inFrame frame)

/-- DIE_SHOOTDOWN (R77): a Serac or Firn die's shootdown of a frame; it acknowledges when it has finished. -/
def execDieShootdown (die : Nat) (firn : Bool) (frame : Nat) (s : State) : Host.Outcome State Fault Refusal :=
  .next (match s.scrubOf frame with
    | none => s
    | some x =>
      let acked := if firn then x.firn.contains die else x.serac.contains die
      if x.st != .shootdown || acked || Config.seracDies ≤ die then s
      else
        let s := s.dropFrameTlbs die firn frame
        if !firn && s.frameBusy die frame then s
        else
          let s := if firn then s else s.discardFrame die frame
          { s with scrubs := mapIf (fun y => y.frame == frame) (fun y =>
              if firn then { y with firn := die :: y.firn } else { y with serac := die :: y.serac }) s.scrubs })

/-- The Firn caches of a frame's stacks drop its lines without write-back (Table 3.4). -/
def State.dropLines (s : State) (frame : Nat) : State :=
  (List.range 16).foldl (fun s g =>
    let (st, b) := s.homeOf (frame * 65536 + g * 4096)
    s.modFirn st fun x => { x with lines := x.lines.filter fun q => q.1 / 64 != b / 4096 }) s

/-- SHOOTDOWN_COMPLETE (Table 3.4): every die has acknowledged; the frame is being zeroed. -/
def execShootdownComplete (frame : Nat) (s : State) : Host.Outcome State Fault Refusal :=
  .next (match s.scrubOf frame with
    | none => s
    | some x =>
      if x.st == .shootdown && (List.range Config.seracDies).all (x.serac.contains ·) && (List.range Config.hbmStacks).all (x.firn.contains ·) then
        { s.dropLines frame with scrubs := mapIf (fun y => y.frame == frame) (fun y => { y with st := .zeroing }) s.scrubs }
      else s)

/-- Every granule of a frame is written with zeros: reservations on it end; an error in it is corrected and counted, or reported to the
root owner, and is gone (R106, R107, R151). -/
def State.zeroFrame (s : State) (frame : Nat) : State :=
  let mine (e : ErrSite) : Bool := match e with | .home k => (k.place 0).inFrame frame | _ => false
  let s := ((s.dev.soft ++ s.dev.hard).filter mine).eraseDups.foldl (fun s e => s.sense none e) s
  let s := (s.frameStacks frame).foldl (fun s st => s.modFirn st fun x =>
    { x with monitor := x.monitor.filter fun r => frameOf (r.sec * 64) != frame, presence := x.presence.filter fun p => frameOf (p.1 * 64) != frame }) s
  let s : State := { s with dev := { s.dev with hard := s.dev.hard.filter (!mine ·), soft := s.dev.soft.filter (!mine ·) } }
  (List.range 16).foldl (fun s g =>
    { s with mem := { s.mem with hbm := Mem.clear s.mem.hbm (s.hbmKey (frame * 65536 + g * 4096)) 4096 } }) s

/-- ZEROING_COMPLETE (Table 3.4, R464): the frame is READY; each host release of it is counted and signalled. -/
def execZeroingComplete (frame : Nat) (s : State) : Host.Outcome State Fault Refusal :=
  .next (match s.scrubOf frame with
    | none => s
    | some x =>
      if x.st != .zeroing then s
      else
        let s := s.zeroFrame frame
        let s : State := { s with scrubs := s.scrubs.filter fun y => y.frame != frame }
        x.vfs.foldl (fun s vf => (s.modVf vf fun v => { v with frelDone := v.frelDone + 1 }).msix vf 2) s)

end Sys2Proof.Machine
end

