-- ==== Sys2Proof/Machine/Translation.lean ====
section
/-! DEFINITION. The events of translation (R62 to R73, R81 to R83): a walker serves a miss, and the host answers ATS and PRI
requests and invalidates. -/

namespace Sys2Proof.Machine

/-! ## Walks -/

/-- A fault reaches one requester that waited for a walk (R65, R71). -/
def State.faultWaiter (s : State) (w : Waiter) (f : FaultInfo) : State :=
  match w with
  | .instr who _ _ => s.faultAt who f
  | .fetch core slot =>
    let e := ((s.warp? core slot).bind (·.runSplit)).getD default
    s.haltWarp core slot { f with mask := e.mask, tmask := true } e.next 0 false false
  | .cfetch core c => s.haltCtl core c f
  | .op core id => s.haltOp core id f
  | .pref _ _ => s

/-- The fault that a walk gives one requester: its own access, and of an instruction the lanes that wait, each with its address and
what its own walk meets (R71, R479). -/
def State.waiterFault (s : State) (die : Option Nat) (m : Miss) (w : Waiter × DWord × AccKind) (f : FaultInfo) : FaultInfo :=
  let f := { f with acc := w.2.2 }
  match w.1 with
  | .instr _ _ ls =>
    let stop (q : Nat × DWord) : LaneFault := match (s.walk die m.ctx q.2 m.acc).2 with
      | .error (.fault g) => g.ofLane q.1 q.2
      | _ => f.ofLane q.1 q.2
    let keep := maskOf (ls.map (·.1))
    ({ f with mask := keep, lanes := ls.map stop } : FaultInfo).keepLanes keep
  | _ => f

/-- The die whose TLB a walk of a unit uses. -/
def walkDie (unit : Nat) (onFirn : Bool) : Option Nat := if onFirn then none else some unit

/-- A walk faulted: every requester waiting on it halts, each with its own address and access in its record (R71). -/
def State.faultWaiters (s : State) (die : Option Nat) (m : Miss) : State :=
  m.waiters.foldl (fun s w =>
    match s.walk die m.ctx w.2.1 m.acc with
    | (s, .error (.fault f)) => s.faultWaiter w.1 (s.waiterFault die m w f)
    | (s, _) => s) s

/-- The miss queue of a Serac or a Firn die. -/
def State.missq (s : State) (unit : Nat) (onFirn : Bool) : List Miss := if onFirn then (s.firn unit).missq else (s.die unit).missq
def State.setMissq (s : State) (unit : Nat) (onFirn : Bool) (f : List Miss → List Miss) : State :=
  if onFirn then s.modFirn unit fun x => { x with missq := f x.missq } else s.modDie unit fun x => { x with missq := f x.missq }

/-- The host has not answered for a page yet: a request for its 64 KiB unit is out, or the page is in a handover. -/
def State.hostSilent (s : State) (vf page : Nat) : Bool :=
  let v := s.vf vf
  v.atsPend.any (fun q => q.1 == page / 16) || v.pri.any (fun r => r.page == page / 16 && !r.quarantine) || v.handSt page == .transit

/-- Walkers of a Serac die and of a Firn die (Table 3.3). -/
def walkers (onFirn : Bool) : Nat := if onFirn then 1 else 8

/-- Misses that hold a walker while it awaits the host (R70, R82, log 46). -/
def walking (q : List Miss) : Nat := (q.filter fun m => m.hostWait.isSome).length

/-- A miss a walker may serve now: one whose host page has been answered for, or, while a walker is free, one that has none. -/
def State.missReady (s : State) (free : Bool) (m : Miss) : Bool :=
  match m.hostWait with
  | none => free
  | some (vf, page) => !s.hostSilent vf page

/-- Enter the translation of a walk: in the die's TLB and the TLB of the core that missed, or in the Firn die's. -/
def State.enterWalk (s : State) (unit : Nat) (onFirn : Bool) (m : Miss) (w : Walked) : State :=
  let e := w.entry m.ctx m.va.toNat
  if onFirn then (s.modFirn unit fun x => { x with tlb := tlbEnter x.tlb e firnTlbSets 8 (Config.freeChoice s.free) }).nextFree
  else (s.dieTlbEnter unit e).coreTlbEnter m.core e

/-- A walk that succeeded serves the prefetches that waited for it: each asks for its sector (R337), or, where the walk's result does
not reach its address, for a walk of its own. The other requesters present their addresses again. -/
def State.servePrefs (s : State) (m : Miss) (w : Walked) : State :=
  let e := w.entry m.ctx m.va.toNat
  m.waiters.foldl (fun s q => match q.1 with
    | .pref core cls => if e.base ≤ q.2.1.toNat && q.2.1.toNat < e.base + e.size then s.prefAsk core m.ctx cls q.2.1 (e.place q.2.1.toNat)
      else s.missAt core m.ctx q.2.1 .read (.pref core cls)
    | _ => s) s

/-- TRANSLATION_WALK (R62, R70, R71, R439): a walker takes the first miss that can be served. -/
def execTranslationWalk (unit : Nat) (onFirn : Bool) (s : State) : Host.Outcome State Fault Refusal :=
  .next (match (s.missq unit onFirn).find? (s.missReady (decide (walking (s.missq unit onFirn) < walkers onFirn))) with
    | none => s
    | some m =>
      let gone (s : State) : State := s.setMissq unit onFirn fun q => q.erase m
      match s.walk (walkDie unit onFirn) m.ctx m.va m.acc with
      | (s, .ok w) => ((gone s).enterWalk unit onFirn m w).servePrefs m w
      | (s, .error (.host vf page wr)) =>
        (s.askHost vf page wr).setMissq unit onFirn (mapIf (· == m) fun y => { y with hostWait := some (vf, page) })
      | (s, .error (.fault f)) =>
        match m.waiters.find? fun w => w.2.1 == m.va with
        | some w => ((gone s).faultWaiter w.1 (s.waiterFault (walkDie unit onFirn) m w f)).faultWaiters (walkDie unit onFirn) { m with waiters := m.waiters.erase w }
        | none => (gone s).faultWaiters (walkDie unit onFirn) m)

/-! ## ATS (R81) -/

/-- Page-request group indices of a function's pool: the lesser of 512 and the host's allocation (R83). -/
def Vf.priPool (v : Vf) : Nat := min 512 v.prAlloc

/-- The lowest page-request index that is not in use and not quarantined. -/
def Vf.freeIdx (v : Vf) : Option Nat := (List.range v.priPool).find? fun i => !(v.pri.any fun r => r.idx == i)

/-- Issue a PRI page request; with no index free it waits, and the ATS request stays (R82, R83). -/
def State.askPri (s : State) (vf page : Nat) (wr : Bool) : State :=
  s.modVf vf fun v =>
    match v.freeIdx with
    | none => { v with atsPend := v.atsPend ++ [(page, wr)] }
    | some idx => { v with pri := v.pri ++ [{ idx, page, write := wr, gen := v.gen, since := s.time }] }

/-- ATS_RESPONSE (R81, R82): the 64 KiB unit of a request is present with the right asked for, or a page request is issued. -/
def execAtsResponse (vf : Nat) (addr : DWord) (present allowed : Bool) (s : State) : Host.Outcome State Fault Refusal :=
  let page := addr.toNat / 65536
  .next (match (s.vf vf).atsPend.find? fun q => q.1 == page with
    | none => s
    | some q =>
      let s := s.modVf vf fun v => { v with atsPend := v.atsPend.erase q }
      if present && allowed then (s.modVf vf fun v => { v with atsOk := (page, q.2) :: v.atsOk.filter fun r => !(r.1 == page && (q.2 || !r.2)) }).retryWords
      else s.askPri vf page q.2)

/-! ## PRI (R82, R83) -/

/-- A response names an index: in use, quarantined, or stale (R83). -/
def State.priTake (s : State) (vf idx : Nat) (f : PageReq → State → State) : State :=
  match (s.vf vf).pri.find? fun r => r.idx == idx with
  | none => s.modVf vf fun v => { v with priStale := v.priStale + 1 }
  | some r =>
    let s := s.modVf vf fun v => { v with pri := v.pri.filter fun q => q.idx != idx }
    if r.quarantine then s.modVf vf fun v => { v with priStale := v.priStale + 1 } else f r s

/-- PRI_SUCCESS: the walker repeats the ATS request. -/
def execPriSuccess (vf idx : Nat) (s : State) : Host.Outcome State Fault Refusal :=
  .next (s.priTake vf idx fun r s => s.modVf vf fun v => { v with atsPend := v.atsPend ++ [(r.page, r.write)] })

/-- A miss awaits a 64 KiB unit of a function's host memory. -/
def Miss.awaits (m : Miss) (vf unit : Nat) : Bool := m.hostWait.any fun q => q.1 == vf && q.2 / 16 == unit

/-- One requester whose page the host did not give walks again, meets the failure at the leaf that leads there, and halts (R64,
R82). A walk that no longer leads there leaves it to present its address again. -/
def State.failWaiter (s : State) (die : Option Nat) (m : Miss) (vf page : Nat) (w : Waiter × DWord × AccKind) : State :=
  let s := s.modVf vf fun v => { v with atsFail := page :: v.atsFail }
  match s.walk die m.ctx w.2.1 m.acc with
  | (s, .error (.fault f)) => (s.modVf vf fun v => { v with atsFail := v.atsFail.filter (· != page) }).faultWaiter w.1 (s.waiterFault die m w f)
  | (s, _) => s.modVf vf fun v => { v with atsFail := v.atsFail.filter (· != page) }

/-- The misses of one queue that await a unit: their requesters fault. -/
def State.failMisses (s : State) (unit : Nat) (onFirn : Bool) (vf page : Nat) : State :=
  ((s.missq unit onFirn).filter fun m => m.awaits vf page).foldl (fun s m =>
    m.waiters.foldl (fun s w => s.failWaiter (walkDie unit onFirn) m vf page w) (s.setMissq unit onFirn fun q => q.erase m)) s

/-- A page request fails: PAGE_ABSENT to the host driver for every requester that waits (R82). An engine or a commit that
waits without a miss meets it at its next walk. -/
def State.priFail (s : State) (r : PageReq) (vf : Nat) : State :=
  let waits (q : List Miss) : Bool := q.any fun m => m.awaits vf r.page
  let queued := s.dies.any (fun (p : Nat × Die) => waits p.2.missq) || s.firns.any fun (p : Nat × Firn) => waits p.2.missq
  let s := (s.dies.map (·.1)).foldl (fun s d => s.failMisses d false vf r.page) s
  let s := (s.firns.map (·.1)).foldl (fun s d => s.failMisses d true vf r.page) s
  if queued then s else (s.modVf vf fun v => { v with atsFail := v.atsFail ++ [r.page] }).retryWords

/-- PRI_INVALID_REQUEST. -/
def execPriInvalidRequest (vf idx : Nat) (s : State) : Host.Outcome State Fault Refusal :=
  .next (s.priTake vf idx fun r s => s.priFail r vf)

/-- PRI_RESPONSE_FAILURE. -/
def execPriResponseFailure (vf idx : Nat) (s : State) : Host.Outcome State Fault Refusal :=
  .next (s.priTake vf idx fun r s => s.priFail r vf)

/-- One second of the time reference has passed since a time. -/
def State.secondSince (s : State) (t : Nat) : Bool := decide (1000000000 ≤ nsBetween t s.time)

/-- PRI_TIMEOUT: no response within 1 s. -/
def execPriTimeout (vf idx : Nat) (s : State) : Host.Outcome State Fault Refusal :=
  .next (if (s.vf vf).pri.any fun r => r.idx == idx && !r.quarantine && s.secondSince r.since then s.priTake vf idx fun r s => s.priFail r vf else s)

/-- PRI_QUARANTINE_EXPIRY (R83): 1 s after the FLR. -/
def execPriQuarantineExpiry (vf idx : Nat) (s : State) : Host.Outcome State Fault Refusal :=
  .next (s.modVf vf fun v => { v with pri := v.pri.filter fun r => !(r.idx == idx && r.quarantine && s.secondSince r.since) })

/-! ## Invalidation by the host (R81) -/

/-- ATS_INVALIDATION (R81): every translation into the range goes; its completion is returned once the accesses that used them have
been performed. A function has at most 32 outstanding (Table 21.1): one that comes beyond them waits. -/
def execAtsInvalidation (vf : Nat) (addr : DWord) (len : Nat) (s : State) : Host.Outcome State Fault Refusal :=
  let page := addr.toNat / 4096
  let npages := (addr.toNat % 4096 + len + 4095) / 4096
  .next (if 32 ≤ (s.vf vf).inval.length then s.postpone vf (.atsInvalidation vf addr len)
    else ((s.tlbDropOut fun e => e.meetsPages vf page npages).modVf vf fun v =>
    { v with atsOk := v.atsOk.filter fun q => !(16 * q.1 < page + npages && page < 16 * q.1 + 16), inval := v.inval ++ [{ page, npages }] }).invalPoll)

end Sys2Proof.Machine
end

