-- ==== Sys2Proof/Machine/Dispatch.lean ====
section
/-! DEFINITION. One arm for each constructor of `Instr`: each calls its own meaning. -/

namespace Sys2Proof.Machine

/-- The effect of an instruction form, machine operation or event on the machine. -/
def exec (i : Instr) (s : State) : Host.Outcome State Fault Refusal :=
  match i with
  | .getr w w64 reg => Sys2Proof.Machine.execGetr w w64 reg s
  | .setr w w64 reg => Sys2Proof.Machine.execSetr w w64 reg s
  | .fan w w64 => Sys2Proof.Machine.execFan w w64 s
  | .movi w w64 imm imm64 => Sys2Proof.Machine.execMovi w w64 imm imm64 s
  | .sel w w64 => Sys2Proof.Machine.execSel w w64 s
  | .sink w => Sys2Proof.Machine.execSink w s
  | .br w off => Sys2Proof.Machine.execBr w off s
  | .brc w off off2 => Sys2Proof.Machine.execBrc w off off2 s
  | .bri w => Sys2Proof.Machine.execBri w s
  | .call w off off2 => Sys2Proof.Machine.execCall w off off2 s
  | .calli w off2 => Sys2Proof.Machine.execCalli w off2 s
  | .ret w => Sys2Proof.Machine.execRet w s
  | .exit w => Sys2Proof.Machine.execExit w s
  | .loop w off2 => Sys2Proof.Machine.execLoop w off2 s
  | .trap w code => Sys2Proof.Machine.execTrap w code s
  | .iadd o => Sys2Proof.Machine.execIadd o s
  | .isub o => Sys2Proof.Machine.execIsub o s
  | .imul o => Sys2Proof.Machine.execImul o s
  | .imulh o => Sys2Proof.Machine.execImulh o s
  | .imad o => Sys2Proof.Machine.execImad o s
  | .ineg o => Sys2Proof.Machine.execIneg o s
  | .iabs o => Sys2Proof.Machine.execIabs o s
  | .imin o => Sys2Proof.Machine.execImin o s
  | .imax o => Sys2Proof.Machine.execImax o s
  | .idiv o => Sys2Proof.Machine.execIdiv o s
  | .irem o => Sys2Proof.Machine.execIrem o s
  | .iand o => Sys2Proof.Machine.execIand o s
  | .ior o => Sys2Proof.Machine.execIor o s
  | .ixor o => Sys2Proof.Machine.execIxor o s
  | .inot o => Sys2Proof.Machine.execInot o s
  | .andn o => Sys2Proof.Machine.execAndn o s
  | .shl o => Sys2Proof.Machine.execShl o s
  | .shr o => Sys2Proof.Machine.execShr o s
  | .sar o => Sys2Proof.Machine.execSar o s
  | .rol o => Sys2Proof.Machine.execRol o s
  | .ror o => Sys2Proof.Machine.execRor o s
  | .popc o => Sys2Proof.Machine.execPopc o s
  | .clz o => Sys2Proof.Machine.execClz o s
  | .ctz o => Sys2Proof.Machine.execCtz o s
  | .brev o => Sys2Proof.Machine.execBrev o s
  | .bfx o => Sys2Proof.Machine.execBfx o s
  | .bfi o => Sys2Proof.Machine.execBfi o s
  | .icmp rel o => Sys2Proof.Machine.execIcmp rel o s
  | .lea sh o => Sys2Proof.Machine.execLea sh o s
  | .laneid w => Sys2Proof.Machine.execLaneid w s
  | .shfl m w w64 => Sys2Proof.Machine.execShfl m w w64 s
  | .bcast w w64 => Sys2Proof.Machine.execBcast w w64 s
  | .vote m w => Sys2Proof.Machine.execVote m w s
  | .reduce op w w64 nat rnd => Sys2Proof.Machine.execReduce op w w64 nat rnd s
  | .scan op w w64 nat excl rnd => Sys2Proof.Machine.execScan op w w64 nat excl rnd s
  | .fadd o => Sys2Proof.Machine.execFadd o s
  | .fsub o => Sys2Proof.Machine.execFsub o s
  | .fmul o => Sys2Proof.Machine.execFmul o s
  | .ffma o => Sys2Proof.Machine.execFfma o s
  | .fmin num o => Sys2Proof.Machine.execFmin num o s
  | .fmax num o => Sys2Proof.Machine.execFmax num o s
  | .fcmp rel o => Sys2Proof.Machine.execFcmp rel o s
  | .fdiv o => Sys2Proof.Machine.execFdiv o s
  | .fsqrt o => Sys2Proof.Machine.execFsqrt o s
  | .frcp o => Sys2Proof.Machine.execFrcp o s
  | .frsq o => Sys2Proof.Machine.execFrsq o s
  | .fex2 o => Sys2Proof.Machine.execFex2 o s
  | .flg2 o => Sys2Proof.Machine.execFlg2 o s
  | .fsin o => Sys2Proof.Machine.execFsin o s
  | .fcos o => Sys2Proof.Machine.execFcos o s
  | .frnd o => Sys2Proof.Machine.execFrnd o s
  | .fclass o => Sys2Proof.Machine.execFclass o s
  | .fldexp o => Sys2Proof.Machine.execFldexp o s
  | .hadd2 bf o => Sys2Proof.Machine.execHadd2 bf o s
  | .hmul2 bf o => Sys2Proof.Machine.execHmul2 bf o s
  | .hfma2 bf o => Sys2Proof.Machine.execHfma2 bf o s
  | .cvt o => Sys2Proof.Machine.execCvt o s
  | .cvtSr o => Sys2Proof.Machine.execCvtSr o s
  | .pack o => Sys2Proof.Machine.execPack o s
  | .unpack o => Sys2Proof.Machine.execUnpack o s
  | .dsenc o => Sys2Proof.Machine.execDsenc o s
  | .dsdec o => Sys2Proof.Machine.execDsdec o s
  | .scaleq o => Sys2Proof.Machine.execScaleq o s
  | .quant o => Sys2Proof.Machine.execQuant o s
  | .rng w => Sys2Proof.Machine.execRng w s
  | .ld sz o => Sys2Proof.Machine.execLd sz o s
  | .st sz o => Sys2Proof.Machine.execSt sz o s
  | .lds sz o => Sys2Proof.Machine.execLds sz o s
  | .sts sz o => Sys2Proof.Machine.execSts sz o s
  | .ldw sz o => Sys2Proof.Machine.execLdw sz o s
  | .stw sz o => Sys2Proof.Machine.execStw sz o s
  | .ldres space w64 o => Sys2Proof.Machine.execLdres space w64 o s
  | .stcond space w64 o => Sys2Proof.Machine.execStcond space w64 o s
  | .pref o => Sys2Proof.Machine.execPref o s
  | .atom op aw o => Sys2Proof.Machine.execAtom op aw o s
  | .atoms op aw wn o => Sys2Proof.Machine.execAtoms op aw wn o s
  | .red op aw o => Sys2Proof.Machine.execRed op aw o s
  | .fence w order scope mask => Sys2Proof.Machine.execFence w order scope mask s
  | .bar w => Sys2Proof.Machine.execBar w s
  | .gbar w => Sys2Proof.Machine.execGbar w s
  | .nbjoin w num => Sys2Proof.Machine.execNbjoin w num s
  | .nbarrive w num => Sys2Proof.Machine.execNbarrive w num s
  | .nbwait w num => Sys2Proof.Machine.execNbwait w num s
  | .nbsync w num => Sys2Proof.Machine.execNbsync w num s
  | .waitf w num => Sys2Proof.Machine.execWaitf w num s
  | .evwait w num => Sys2Proof.Machine.execEvwait w num s
  | .evsig w num => Sys2Proof.Machine.execEvsig w num s
  | .send w num => Sys2Proof.Machine.execSend w num s
  | .recv w num => Sys2Proof.Machine.execRecv w num s
  | .chstat w num => Sys2Proof.Machine.execChstat w num s
  | .chresize w num => Sys2Proof.Machine.execChresize w num s
  | .copy e => Sys2Proof.Machine.execCopy e s
  | .copy2d e => Sys2Proof.Machine.execCopy2d e s
  | .tcopy e => Sys2Proof.Machine.execTcopy e s
  | .gath e => Sys2Proof.Machine.execGath e s
  | .scat e => Sys2Proof.Machine.execScat e s
  | .fill sz e => Sys2Proof.Machine.execFill sz e s
  | .stream e => Sys2Proof.Machine.execStream e s
  | .strmctlStart w => Sys2Proof.Machine.execStrmctlStart w s
  | .strmctlPause w => Sys2Proof.Machine.execStrmctlPause w s
  | .strmctlResume w => Sys2Proof.Machine.execStrmctlResume w s
  | .strmctlCancel w => Sys2Proof.Machine.execStrmctlCancel w s
  | .istream e => Sys2Proof.Machine.execIstream e s
  | .handoffTohost e => Sys2Proof.Machine.execHandoffTohost e s
  | .handoffTodevice e => Sys2Proof.Machine.execHandoffTodevice e s
  | .mxcfg arr w => Sys2Proof.Machine.execMxcfg arr w s
  | .mxcfgRelease w => Sys2Proof.Machine.execMxcfgRelease w s
  | .mxload e => Sys2Proof.Machine.execMxload e s
  | .mxfeed w => Sys2Proof.Machine.execMxfeed w s
  | .mxfeeds e => Sys2Proof.Machine.execMxfeeds e s
  | .mxmul e => Sys2Proof.Machine.execMxmul e s
  | .mxzero w => Sys2Proof.Machine.execMxzero w s
  | .mxdrain o => Sys2Proof.Machine.execMxdrain o s
  | .mxstat w => Sys2Proof.Machine.execMxstat w s
  | .commnew w => Sys2Proof.Machine.execCommnew w s
  | .commfree w => Sys2Proof.Machine.execCommfree w s
  | .commstat w => Sys2Proof.Machine.execCommstat w s
  | .collAllreduce e => Sys2Proof.Machine.execCollAllreduce e s
  | .collReduce e => Sys2Proof.Machine.execCollReduce e s
  | .collBroadcast e => Sys2Proof.Machine.execCollBroadcast e s
  | .collAllgather e => Sys2Proof.Machine.execCollAllgather e s
  | .collReducescatter e => Sys2Proof.Machine.execCollReducescatter e s
  | .collAlltoall e => Sys2Proof.Machine.execCollAlltoall e s
  | .collBarrier e => Sys2Proof.Machine.execCollBarrier e s
  | .launch w => Sys2Proof.Machine.execLaunch w s
  | .lstat w => Sys2Proof.Machine.execLstat w s
  | .ctxnew w => Sys2Proof.Machine.execCtxnew w s
  | .ctxgrant w => Sys2Proof.Machine.execCtxgrant w s
  | .ctxrevoke w => Sys2Proof.Machine.execCtxrevoke w s
  | .ctxkill w => Sys2Proof.Machine.execCtxkill w s
  | .ctxrunResume w => Sys2Proof.Machine.execCtxrunResume w s
  | .ctxrunReflect w => Sys2Proof.Machine.execCtxrunReflect w s
  | .ctxstat w => Sys2Proof.Machine.execCtxstat w s
  | .tlbinv w => Sys2Proof.Machine.execTlbinv w s
  | .fqpop w => Sys2Proof.Machine.execFqpop w s
  | .rdsys w sel => Sys2Proof.Machine.execRdsys w sel s
  | .wrsys w sel => Sys2Proof.Machine.execWrsys w sel s
  | .topo w sel => Sys2Proof.Machine.execTopo w sel s
  | .time w => Sys2Proof.Machine.execTime w s
  | .latband w => Sys2Proof.Machine.execLatband w s
  | .capw w => Sys2Proof.Machine.execCapw w s
  | .trace w => Sys2Proof.Machine.execTrace w s
  | .tmaskMask w => Sys2Proof.Machine.execTmaskMask w s
  | .tmaskUnmask w => Sys2Proof.Machine.execTmaskUnmask w s
  | .tret w => Sys2Proof.Machine.execTret w s
  | .blockAdmit core slot => Sys2Proof.Machine.execBlockAdmit core slot s
  | .tokenArrive core node => Sys2Proof.Machine.execTokenArrive core node s
  | .loadReply who idx => Sys2Proof.Machine.execLoadReply who idx s
  | .blockCommit core slot => Sys2Proof.Machine.execBlockCommit core slot s
  | .blockDiscard core slot itag => Sys2Proof.Machine.execBlockDiscard core slot itag s
  | .fairnessTimer core slot => Sys2Proof.Machine.execFairnessTimer core slot s
  | .tagExhausted core node => Sys2Proof.Machine.execTagExhausted core node s
  | .blockStuck core slot itag => Sys2Proof.Machine.execBlockStuck core slot itag s
  | .mailboxArrive req => Sys2Proof.Machine.execMailboxArrive req s
  | .dcuRequest die => Sys2Proof.Machine.execDcuRequest die s
  | .presenceInvalidation die req => Sys2Proof.Machine.execPresenceInvalidation die req s
  | .homeWrite req => Sys2Proof.Machine.execHomeWrite req s
  | .flushingReadDone core vf => Sys2Proof.Machine.execFlushingReadDone core vf s
  | .atomicAtPort req => Sys2Proof.Machine.execAtomicAtPort req s
  | .atomicReply req => Sys2Proof.Machine.execAtomicReply req s
  | .reservationPinExpiry port onFirn => Sys2Proof.Machine.execReservationPinExpiry port onFirn s
  | .translationWalk unit onFirn => Sys2Proof.Machine.execTranslationWalk unit onFirn s
  | .atsResponse vf addr present allowed => Sys2Proof.Machine.execAtsResponse vf addr present allowed s
  | .priSuccess vf idx => Sys2Proof.Machine.execPriSuccess vf idx s
  | .priInvalidRequest vf idx => Sys2Proof.Machine.execPriInvalidRequest vf idx s
  | .priResponseFailure vf idx => Sys2Proof.Machine.execPriResponseFailure vf idx s
  | .priTimeout vf idx => Sys2Proof.Machine.execPriTimeout vf idx s
  | .priQuarantineExpiry vf idx => Sys2Proof.Machine.execPriQuarantineExpiry vf idx s
  | .atsInvalidation vf addr len => Sys2Proof.Machine.execAtsInvalidation vf addr len s
  | .frameRelease frame => Sys2Proof.Machine.execFrameRelease frame s
  | .dieShootdown die firn frame => Sys2Proof.Machine.execDieShootdown die firn frame s
  | .shootdownComplete frame => Sys2Proof.Machine.execShootdownComplete frame s
  | .zeroingComplete frame => Sys2Proof.Machine.execZeroingComplete frame s
  | .engineOpStart core op => Sys2Proof.Machine.execEngineOpStart core op s
  | .engineOpComplete core op => Sys2Proof.Machine.execEngineOpComplete core op s
  | .streamBuffer core gen => Sys2Proof.Machine.execStreamBuffer core gen s
  | .matrixQueueStart core => Sys2Proof.Machine.execMatrixQueueStart core s
  | .mxmulKblock core => Sys2Proof.Machine.execMxmulKblock core s
  | .matrixPathIdleRelease core => Sys2Proof.Machine.execMatrixPathIdleRelease core s
  | .commReady key => Sys2Proof.Machine.execCommReady key s
  | .commFormTimeout key => Sys2Proof.Machine.execCommFormTimeout key s
  | .abortNotice key k => Sys2Proof.Machine.execAbortNotice key k s
  | .collDecisionTimeout key k => Sys2Proof.Machine.execCollDecisionTimeout key k s
  | .gridStart ctx queue seq => Sys2Proof.Machine.execGridStart ctx queue seq s
  | .teamAdmit ctx queue seq unit => Sys2Proof.Machine.execTeamAdmit ctx queue seq unit s
  | .teamRetire core ctx queue seq team => Sys2Proof.Machine.execTeamRetire core ctx queue seq team s
  | .priorityAging ctx queue seq => Sys2Proof.Machine.execPriorityAging ctx queue seq s
  | .revokeComplete ctx => Sys2Proof.Machine.execRevokeComplete ctx s
  | .killComplete ctx => Sys2Proof.Machine.execKillComplete ctx s
  | .sliceExpiry core vf => Sys2Proof.Machine.execSliceExpiry core vf s
  | .overrunLimitExpiry core vf => Sys2Proof.Machine.execOverrunLimitExpiry core vf s
  | .drainQuiescence core ctx => Sys2Proof.Machine.execDrainQuiescence core ctx s
  | .preemptTimeout core ctx => Sys2Proof.Machine.execPreemptTimeout core ctx s
  | .contextRestore core ctx => Sys2Proof.Machine.execContextRestore core ctx s
  | .rootStart vf value => Sys2Proof.Machine.execRootStart vf value s
  | .create vf => Sys2Proof.Machine.execCreate vf s
  | .save vf => Sys2Proof.Machine.execSave vf s
  | .restore vf => Sys2Proof.Machine.execRestore vf s
  | .rootCmdInvalid vf value => Sys2Proof.Machine.execRootCmdInvalid vf value s
  | .fqResume vf value => Sys2Proof.Machine.execFqResume vf value s
  | .fqConfigWrite vf size value => Sys2Proof.Machine.execFqConfigWrite vf size value s
  | .aperBaseWrite vf value => Sys2Proof.Machine.execAperBaseWrite vf value s
  | .handoverToHost vf word3 => Sys2Proof.Machine.execHandoverToHost vf word3 s
  | .handoverToDevice vf word3 => Sys2Proof.Machine.execHandoverToDevice vf word3 s
  | .releaseCommand vf value => Sys2Proof.Machine.execReleaseCommand vf value s
  | .kick vf e => Sys2Proof.Machine.execKick vf e s
  | .vfRegisterWrite vf off value width => Sys2Proof.Machine.execVfRegisterWrite vf off value width s
  | .bar2Read vf off n => Sys2Proof.Machine.execBar2Read vf off n s
  | .bar2Write vf off data => Sys2Proof.Machine.execBar2Write vf off data s
  | .bar2Atomicop vf off op aw v cmp => Sys2Proof.Machine.execBar2Atomicop vf off op aw v cmp s
  | .flr vf => Sys2Proof.Machine.execFlr vf s
  | .flrComplete vf => Sys2Proof.Machine.execFlrComplete vf s
  | .hotReset => Sys2Proof.Machine.execHotReset s
  | .powerGood version image => Sys2Proof.Machine.execPowerGood version image s
  | .firmwareUpdate version image => Sys2Proof.Machine.execFirmwareUpdate version image s
  | .regionDescriptorWrite idx w0 w1 w2 w3 => Sys2Proof.Machine.execRegionDescriptorWrite idx w0 w1 w2 w3 s
  | .partitionCut runs => Sys2Proof.Machine.execPartitionCut runs s
  | .resourceProfileAssign vf part p => Sys2Proof.Machine.execResourceProfileAssign vf part p s
  | .imageMove handle incoming => Sys2Proof.Machine.execImageMove handle incoming s
  | .thermalThrottle die => Sys2Proof.Machine.execThermalThrottle die s
  | .panelPowerOff => Sys2Proof.Machine.execPanelPowerOff s
  | .currentClamp die => Sys2Proof.Machine.execCurrentClamp die s
  | .vociaFlitReceive port flit => Sys2Proof.Machine.execVociaFlitReceive port flit s
  | .vociaPathLoss port => Sys2Proof.Machine.execVociaPathLoss port s
  | .homeRead req => Sys2Proof.Machine.execHomeRead req s
  | .windowAccessArrive req => Sys2Proof.Machine.execWindowAccessArrive req s
  | .fqHeadWrite vf value => Sys2Proof.Machine.execFqHeadWrite vf value s
  | .imageRelease handle => Sys2Proof.Machine.execImageRelease handle s
  | .atomicopRequesterEnable vf enable => Sys2Proof.Machine.execAtomicopRequesterEnable vf enable s

end Sys2Proof.Machine
end

