-- ==== Sys2Proof/Machine/Moves.lean ====
section
/-! DEFINITION. What a step carries out (R198, R203, R416, R417): the firing of an instruction of an instance, the turn of a
control thread on its core, and the events that can happen of themselves. -/

namespace Sys2Proof.Machine

/-! ## The instruction that fires (R198, R199, R207, R256) -/

/-- The instruction of a block at an index. -/
def RBlock.at? (b : RBlock) (idx : Nat) : Option Instr := (decode (b.words.drop idx)).toOption.map (·.1)

/-- The ready entry of an instruction of an instance. -/
def State.readyEntry (s : State) (core slot itag idx : Nat) (i : Inst) (b : RBlock) : Option MatchEntry :=
  (((s.core core).nodes.getD (b.node i.replica idx) {}).ready).find? fun m => m.wslot == slot && m.itag == itag && m.idx == idx

/-- What a thread would fire at an index: the instruction, with its mask and operands. -/
def State.issueOf (s : State) (who : Who) (idx : Nat) : Option (Instr × Issue) :=
  match s.blockOf who with
  | none => none
  | some b =>
    (b.at? idx).bind fun ins => ins.form.bind fun form =>
      match who with
      | .ctl core x => (s.ctl? core x).map fun t =>
          let vals := (t.vals.filter fun v => v.1 == idx).map (·.2)
          (ins, { who, idx, mask := firingMask form.wd.pred 1 vals, vals, form })
      | .warp core slot itag => (s.instOf who).bind fun i => (s.readyEntry core slot itag idx i b).map fun m =>
          (ins, { who, idx, mask := firingMask form.wd.pred i.acting m.vals, vals := m.vals, form })

/-- CARRY OUT an instruction of a thread. -/
def State.issue (s : State) (q : Instr × Issue) : Host.Outcome State Fault Refusal :=
  match exec q.1 { s with cur := some q.2 } with
  | .next s => .next { s with cur := none }
  | .fault f => .fault f
  | .refused r => .refused r

/-- The state after an instruction of a thread has been tried; none when it waits. -/
def State.tried (s : State) (who : Who) (idx : Nat) : Option State :=
  match s.issueOf who idx with
  | none => none
  | some q => match s.issue q with
    | .next t => if t = s then none else some t
    | _ => none

/-! ## Nodes (R203, R416) -/

/-- An instance may fire instructions: it runs, and its warp and context do. -/
def State.mayFire (s : State) (core : Nat) (m : MatchEntry) : Bool :=
  match s.warp? core m.wslot with
  | none => false
  | some w => w.halt.isNone && (w.inst? m.itag).any (fun i => i.st == .running) && (s.ctx? w.ctx).any fun x => x.st == .running

/-- The entry's instance is the oldest in flight of its warp. -/
def Core.ofOldest (k : Core) (m : MatchEntry) : Bool := ((k.warp? m.wslot).bind fun w => w.insts.head?).any fun i => i.itag == m.itag

/-- When an entry's instance was admitted. -/
def Core.admittedAt (k : Core) (m : MatchEntry) : Nat := (((k.warp? m.wslot).bind fun w => w.inst? m.itag).map (·.admitted)).getD 0

/-- THE ORDER in which a node takes its ready instructions (R416): those of oldest instances, by age after the warp it fired
last, then the others, oldest iteration first. -/
def Core.fireOrder (k : Core) (n : Node) (l : List MatchEntry) : List MatchEntry :=
  let first := sortBy (fun a b => decide (k.ageOf a.wslot ≤ k.ageOf b.wslot)) (l.filter k.ofOldest)
  let after (m : MatchEntry) : Bool := n.lastAge ≤ k.ageOf m.wslot
  first.filter after ++ first.filter (fun m => !after m) ++
    sortBy (fun a b => decide (k.admittedAt a ≤ k.admittedAt b)) (l.filter fun m => !k.ofOldest m)

/-- The entry a node fires: the only one ready, or the first in order that does not wait. -/
def State.nodePick (s : State) (core : Nat) (n : Node) : Option MatchEntry :=
  match n.ready.filter (s.mayFire core) with
  | [] => none
  | [m] => some m
  | l => ((s.core core).fireOrder n l).find? fun m => (s.tried (.warp core m.wslot m.itag) m.idx).isSome

/-- A node has fired in this cycle (R203). -/
def Node.firedNow (n : Node) (time : Nat) : Bool := n.lastFire != 0 && (n.lastFire - 1) / Config.ticksPerCycle == time / Config.ticksPerCycle

/-- FIRE an instruction of a warp's instance, when it is its node's turn to. -/
def State.fireWarp (s : State) (core slot itag idx : Nat) : Host.Outcome State Fault Refusal :=
  let who : Who := .warp core slot itag
  match s.issueOf who idx, s.instOf who, s.blockOf who with
  | some q, some i, some b =>
    let n := (s.core core).nodes.getD (b.node i.replica idx) {}
    if n.firedNow s.time then .next s
    else match s.nodePick core n with
      | none => .next s
      | some m => if m.wslot = slot ∧ m.itag = itag ∧ m.idx = idx then s.issue q else .next s
  | _, _, _ => .next s

/-! ## Control threads (R196, R417) -/

/-- Stores of a control thread, or REDs, have not been performed: they are on their way, or the L1 waits for its grant (R196). -/
def State.ctlStoresOut (s : State) (core x : Nat) : Bool :=
  let who : Who := .ctl core x
  let sector := (s.ctl? core x).bind (·.stored)
  s.reqs.any (fun r => r.core == core && (match r.kind with
    | .write _ _ _ (some q) => q.1 == who
    | .wstore w _ _ _ _ | .atomic w _ _ _ _ _ _ _ false => w == who
    | .mail _ _ _ _ => r.ctx == x
    | _ => false)) || (s.core core).l1.any fun y => !y.granted && some y.key == sector

/-- ENTER the block a control thread has come to: its flags are clear, and it is fetched and decoded (R196, R205, R246). -/
def State.ctlEnter (s : State) (core : Nat) (t : Ctl) : State :=
  let who : Who := .ctl core t.ctx
  if s.waitsForWalk core (.cfetch core t.ctx) then s
  else match s.fetchBlock core t.ctx t.block 0 true t.callEnt (.cfetch core t.ctx) with
    | .wait s => s
    | .fault s f => s.haltCtl core t.ctx { f with mask := 1 }
    | .ok r b =>
      let flags := (List.range 12).filter fun n => b.hdr.waits.getLsbD n
      if flags.any (s.flagSet who) then s
      else (flags.foldl (fun s n => s.joinFlag who n) r).modCtl core t.ctx fun t =>
        { t with entered := true, ver := b.ver, next := 0, choice := none, newRet := none, newDepth := t.depth, vals := [] }

/-- A CONTROL THREAD EXITS: its reservations end and its operations go on without it (R151, R358). -/
def State.ctlExit (s : State) (core x : Nat) : State :=
  let keep (l : List Reserve) : List Reserve := l.filter fun r => !(r.core == core && r.ctl == some x)
  let s : State := { s with
    firns := s.firns.map fun (p : Nat × Firn) => (p.1, { p.2 with monitor := keep p.2.monitor })
    cores := s.cores.map fun (p : Nat × Core) => (p.1, { p.2 with monitor := keep p.2.monitor }) }
  s.modCore core fun k =>
    ({ k with ctls := mapIf (fun t => t.ctx == x) (fun t => { t with st := .exited, entered := false }) k.ctls
              ops := mapIf (fun o => o.issuer == some (.ctl core x)) (fun o => { o with issuer := none }) k.ops } : Core).unpin

/-- THE END OF A BLOCK of a control thread (R196): the chosen block, the exit, or ILLEGAL_BLOCK. -/
def State.ctlEnd (s : State) (core : Nat) (t : Ctl) : State :=
  match t.choice with
  | none => s.haltCtl core t.ctx { code := .illegalBlock, mask := 1 }
  | some none => s.ctlExit core t.ctx
  | some (some a) =>
    (s.modCtl core t.ctx fun t =>
      { t with entered := false, block := a, next := 0, callEnt := decide (t.depth < t.newDepth), depth := t.newDepth, choice := none, newRet := none
               rets := match t.newRet with | none => t.rets | some (n, r) => listMod t.rets n fun _ => r }).modCore core Core.unpin

/-- An instruction at which a pending pre-emption begins (R432 point 1). -/
def slicePoint (i : Instr) : Bool :=
  match i with
  | .mxload _ | .mxcfg _ _ | .mxcfgRelease _ | .stream _ => true
  | _ => false

/-- A control thread could run, its own stores apart: started, resident, not halted, its context running and not drained from the
core. -/
def State.ctlCould (s : State) (core : Nat) (t : Ctl) : Bool :=
  t.st == .running && !t.halt && t.pend.isNone && !(s.core core).draining t.ctx && (s.ctx? t.ctx).any (fun x => x.st == .running) &&
  (!t.stopped || (s.core core).residentRoom t.ctx)

/-- A control thread can run. -/
def State.ctlReady (s : State) (core : Nat) (t : Ctl) : Bool := s.ctlCould core t && !s.ctlStoresOut core t.ctx

/-- THE NEXT THING a control thread does: it becomes resident, enters a block, executes an instruction, or ends the block. -/
def State.ctlTurn (s : State) (core : Nat) (t : Ctl) : Host.Outcome State Fault Refusal :=
  let who : Who := .ctl core t.ctx
  if !s.ctlReady core t then .next s
  else if t.stopped then .next ((s.modCore core fun k => k.reside t.ctx).modCtl core t.ctx fun t => { t with stopped := false })
  else if !t.entered then .next (s.ctlEnter core t)
  else match s.blockOf who with
    | none => .next (s.modCtl core t.ctx fun t => { t with entered := false })
    | some b =>
      if b.words.length ≤ t.next then .next (s.ctlEnd core t)
      else match s.issueOf who t.next with
        | none => .next s
        | some q => if slicePoint q.1 && s.slicePending core (s.vfOf t.ctx) then .next (s.beginPreempt core (s.vfOf t.ctx)) else s.issue q

/-- An engine form: its kind, as far as its queue and flag go, and its fields. -/
def engineFormOf (i : Instr) : Option (EngKind × EngForm) :=
  match i with
  | .copy e => some (.copy, e)
  | .copy2d e => some (.copy2d, e)
  | .tcopy e => some (.tcopy, e)
  | .gath e => some (.gath, e)
  | .scat e => some (.scat, e)
  | .fill sz e => some (.fill sz, e)
  | .stream e => some (.stream, e)
  | .istream e => some (.istream, e)
  | .handoffTohost e => some (.handoff true, e)
  | .handoffTodevice e => some (.handoff false, e)
  | .mxload e => some (.mxload, e)
  | .mxfeeds e => some (.mxfeeds, e)
  | .mxmul e => some (.mxmul, e)
  | .collAllreduce e | .collReduce e | .collBroadcast e | .collAllgather e | .collReducescatter e | .collAlltoall e | .collBarrier e =>
    some (.coll 0, e)
  | _ => none

/-- What keeps a control thread's next instruction from going on, if something does, is among the waits of R417: a walk, a load or an
atomic, a flag, an event or a channel, a full queue, the matrix queue or path, or a control lock (log 66). -/
def State.listedWait (s : State) (c : Issue) (ins : Instr) : Bool :=
  let x := s.ctxOf c.who
  s.walkOut c.who || (s.issuingOp c.who).isSome ||
  match ins with
  | .waitf _ _ | .evwait _ _ | .chresize _ _ | .mxcfg _ _ | .mxcfgRelease _ | .mxzero _ => true
  | .ld _ _ | .lds _ _ | .ldw _ _ | .ldres _ _ _ | .atom _ _ _ | .atoms _ _ _ _ | .stcond _ _ _ => true
  | .ctxgrant _ | .ctxrevoke _ => s.lockHolds c.who (s.childById x (c.lowW .b))
  | .ctxkill _ | .ctxrunResume _ | .ctxrunReflect _ => s.lockHolds c.who (s.targetById x (c.lowW .a))
  | i => (engineFormOf i).any fun q =>
      !s.queueRoom c.who.core q.1 || s.flagFull c.who (if q.1.flagged then s.flagFor c.who q.2.wd.fsel else none) 1

/-- A control thread STALLS (R417): it cannot go on, or its turn would change nothing and what it waits for is a wait that R417
lists. A thread whose store is being performed, or which waits for anything else, keeps the control core. -/
def State.ctlStalls (s : State) (core : Nat) (t : Ctl) : Bool :=
  !s.ctlCould core t ||
  (!s.ctlStoresOut core t.ctx &&
   (match s.ctlTurn core t with
    | .next r => decide (r = s)
    | _ => false) &&
   (!t.entered || (s.issueOf (.ctl core t.ctx) t.next).all fun q => s.listedWait q.2 q.1))

/-- The control threads of a core in the order of the control core's turns: the one it runs, then those after it in the order of
their contexts' residence (R417). -/
def Core.ctlOrder (k : Core) : List Ctl :=
  let place (t : Ctl) : Nat := (indexIn k.resid t.ctx).getD k.resid.length
  let l := sortBy (fun a b => decide (place a ≤ place b)) k.ctls
  let i := (l.findIdx? fun t => t.ctx == k.ctlCur).getD 0
  l.drop i ++ l.take i

/-- The control thread that the control core runs: the only one, or the first that does not stall. -/
def State.ctlPick (s : State) (core : Nat) : Option Ctl :=
  match (s.core core).ctlOrder with
  | [] => none
  | [t] => some t
  | l => l.find? fun t => !s.ctlStalls core t

/-- Point 2 of R432: every control thread of a root on a core is stalled or has exited. -/
def State.slicePoint2 (s : State) (core vf : Nat) : State :=
  if s.slicePending core vf then
    let tree := s.treeOf vf
    if (s.core core).ctls.all fun t => !tree.contains t.ctx || t.st != .running || s.ctlStalls core t then s.beginPreempt core vf else s
  else s

/-- FIRE: the control core runs a thread, when it is that thread's turn. -/
def State.fireCtl (s : State) (core x : Nat) : Host.Outcome State Fault Refusal :=
  let vf := s.vfOf x
  match s.ctlPick core with
  | none => .next (s.slicePoint2 core vf)
  | some t =>
    if t.ctx ≠ x then .next (s.slicePoint2 core vf)
    else match (s.modCore core fun k => { k with ctlCur := x }).ctlTurn core t with
      | .next s => .next (s.slicePoint2 core vf)
      | r => r

/-! ## Moves -/

/-- A waiting request of a function is tried again, once no posted write that came before it waits: it is performed, or waits on in its
place. -/
def State.goOnHost (s : State) (vf n : Nat) : Host.Outcome State Fault Refusal :=
  let q := (s.vf vf).posted
  match q[n]? with
  | none => .next s
  | some i =>
    if (q.take n).any isPosted then .next s
    else match exec i (s.modVf vf fun v => { v with posted := [] }) with
      | .next t => .next (t.modVf vf fun v => { v with posted := q.take n ++ v.posted ++ q.drop (n + 1) })
      | .fault f => .fault f
      | .refused r => .refused r

/-- A MOVE: a thread fires, an event happens, or a waiting request of the host goes on. -/
def State.move (s : State) (a : Act) : Host.Outcome State Fault Refusal :=
  match a with
  | .fire (.warp core slot itag) idx => s.fireWarp core slot itag idx
  | .fire (.ctl core x) _ => s.fireCtl core x
  | .ev i => if i.form.isSome then .next s else exec i s
  | .host vf n => s.goOnHost vf n

/-! ## What can happen next (log 1) -/

/-- Moves of a warp on a core. -/
def warpActs (core slot : Nat) (w : Warp) : List Act :=
  [.ev (.blockAdmit core slot), .ev (.blockCommit core slot), .ev (.fairnessTimer core slot)] ++
  w.insts.flatMap fun i => [.ev (.blockDiscard core slot i.itag), .ev (.blockStuck core slot i.itag)] ++
    i.pends.map fun p => .ev (.loadReply (.warp core slot i.itag) p.idx)

/-- Moves of a node. -/
def nodeActs (core : Nat) (n : Node) (i : Nat) : List Act :=
  (if n.chan.isEmpty then [] else [.ev (.tokenArrive core i), .ev (.tagExhausted core i)]) ++
  n.ready.map fun m => .fire (.warp core m.wslot m.itag) m.idx

/-- Moves of a control thread. -/
def ctlActs (core : Nat) (t : Ctl) : List Act :=
  [.fire (.ctl core t.ctx) t.next] ++ (match t.pend with | none => [] | some p => [.ev (.loadReply (.ctl core t.ctx) p.idx)])

/-- Moves of a core's engines, matrix path, slices and drains. -/
def unitActs (core : Nat) (k : Core) : List Act :=
  k.ops.flatMap (fun o => [.ev (.engineOpStart core o.id), .ev (.engineOpComplete core o.id)]) ++
  (List.range k.gens.length).map (fun g => .ev (.streamBuffer core g)) ++
  [.ev (.matrixQueueStart core), .ev (.mxmulKblock core), .ev (.matrixPathIdleRelease core)] ++
  k.flushing.map (fun vf => .ev (.flushingReadDone core vf)) ++
  (if k.monitor.isEmpty then [] else [.ev (.reservationPinExpiry core false)]) ++
  k.slices.flatMap (fun y => [.ev (.sliceExpiry core y.vf), .ev (.overrunLimitExpiry core y.vf)]) ++
  k.drains.flatMap (fun d => [.ev (.drainQuiescence core d.ctx), .ev (.preemptTimeout core d.ctx)]) ++
  k.teams.map (fun t => .ev (.teamRetire core t.ctx t.queue t.seq t.tid))

/-- Moves of a core. -/
def coreActs (core : Nat) (k : Core) : List Act :=
  k.warps.flatMap (fun p => warpActs core p.1 p.2) ++ k.nodes.zipIdx.flatMap (fun q => nodeActs core q.1 q.2) ++
  k.ctls.flatMap (ctlActs core) ++ unitActs core k

/-- Moves of a request in flight. -/
def reqActs (r : Req) : List Act :=
  (match r.kind with
    | .fill _ _ | .read _ _ _ _ _ _ | .data _ _ _ _ | .filled _ _ _ => [.ev (.homeRead r.id)]
    | .write _ _ _ _ => [.ev (.homeWrite r.id)]
    | .atomic _ _ _ _ _ _ _ _ _ => [.ev (.atomicAtPort r.id)]
    | .wload _ _ _ _ _ _ | .wstore _ _ _ _ _ => [.ev (.windowAccessArrive r.id)]
    | .mail _ _ _ _ => [.ev (.mailboxArrive r.id)]
    | .reply _ _ _ _ => [.ev (.atomicReply r.id)]) ++
  r.acks.map fun d => .ev (.presenceInvalidation d r.id)

/-- Moves of a context: its grids and teams, its restores, and the ends of revocations and kills. -/
def ctxActs (x : Ctx) : List Act :=
  x.queues.zipIdx.flatMap (fun q => q.1.grids.flatMap fun g =>
    [.ev (.gridStart x.idx q.2 g.seq), .ev (.priorityAging x.idx q.2 g.seq)] ++
    (x.cores.filterMap fun c => x.firstWaiting q.2 g c).eraseDups.map fun u => .ev (.teamAdmit x.idx q.2 g.seq u)) ++
  x.cores.map (fun c => .ev (.contextRestore c x.idx)) ++ [.ev (.revokeComplete x.idx), .ev (.killComplete x.idx)]

/-- Moves of a function: its timers and what it carries on with. -/
def vfActs (vf : Nat) (v : Vf) : List Act :=
  v.pri.flatMap (fun r => [.ev (.priTimeout vf r.idx), .ev (.priQuarantineExpiry vf r.idx)]) ++
  (if v.saving then [.ev (.save vf)] else []) ++ (if v.flr then [.ev (.flrComplete vf)] else []) ++
  (List.range v.posted.length).map fun n => .host vf n

/-- Moves of a frame that is scrubbed. -/
def scrubActs (x : Scrub) : List Act :=
  match x.st with
  | .shootdown => [.ev (.shootdownComplete x.frame)] ++
      (List.range Config.seracDies).flatMap fun d => [.ev (.dieShootdown d false x.frame), .ev (.dieShootdown d true x.frame)]
  | .zeroing => [.ev (.zeroingComplete x.frame)]

/-- Moves of a communicator. -/
def commActs (m : Comm) : List Act :=
  [.ev (.commReady m.key), .ev (.commFormTimeout m.key)] ++
  m.colls.flatMap fun q => [.ev (.abortNotice m.key q.k), .ev (.collDecisionTimeout m.key q.k)]

/-- Everything that can happen of itself. Inputs of the host, the operator and the links come by the agenda alone. -/
def State.candidates (s : State) : List Act :=
  s.cores.flatMap (fun p => coreActs p.1 p.2) ++ s.reqs.flatMap reqActs ++
  s.dies.flatMap (fun p => [.ev (.dcuRequest p.1), .ev (.translationWalk p.1 false)]) ++
  s.firns.flatMap (fun p => [.ev (.translationWalk p.1 true), .ev (.reservationPinExpiry p.1 true)]) ++
  s.ctxs.flatMap ctxActs ++ s.vfs.zipIdx.flatMap (fun q => vfActs q.2 q.1) ++ s.scrubs.flatMap scrubActs ++
  s.waitRel.map (fun q => .ev (.frameRelease q.1)) ++ s.comms.flatMap commActs

/-- A TURN: the agenda's next, or, with none, a free choice among what can happen, after a free time. -/
def State.turn (s : State) : Host.Outcome State Fault Refusal :=
  match s.agenda with
  | t :: rest => ({ s with agenda := rest }.pass t.dt).move t.act
  | [] =>
    let l := s.candidates
    let s' := { s with free := s.free + 2 }.pass (Config.freeChoice s.free)
    match l[Config.freeChoice (s.free + 1) % l.length]? with
    | none => .next s'
    | some a => s'.move a

/-! ## An instruction placed to run next (log 33) -/

/-- A context that runs on core 0. -/
def placedCtx : Ctx :=
  { idx := 1, gen := 0, vf := 0, parent := none, depth := 0, st := .running, flags := 0, seed := 0, troot := 0, entry := 0
    cores := [0], frames := 0, nq := 64, tagb := 256, trsh := 65536, prio := 3, events := List.replicate 64 0
    queues := List.replicate 64 {}, comms := List.replicate 16 {} }

/-- The block that holds the placed words, at address 8, all on node 0 of its replica. -/
def placedBlock (ws : List (BitVec 64)) : RBlock :=
  { ctx := 1, addr := 8, words := ws, bases := [0]
    hdr := { ninst := ws.length, waits := 0, setf0 := 0, setf1 := 0, iter := 0, self := false, atom := false, spwin := 0, reconv := 0, carry := 0
             reads := [], writes := [] } }

/-- A warp of one instance of the placed block, all its lanes in it. -/
def placedWarp : Warp :=
  { ctx := 1, team := 0, wid := 0, gwn := 0, age := 0, v := List.replicate 128 Lanes.zero, s := List.replicate 64 0
    flags := List.replicate 12 0, splits := [{ token := false, mask := BitVec.allOnes 32, next := 8 }], run := some 0, nt := 1
    rets := List.replicate 4 (List.replicate 32 0), insts := [{ itag := 0, block := 8, ver := 0, replica := 0, mask := BitVec.allOnes 32
                                                                depth := 0, number := 0, iterNo := 0 }] }

/-- The team of the placed warp. -/
def placedTeam : Team :=
  { id := 0, ctx := 1, queue := 0, seq := 0, tid := 0, lrec := { nvec := 128 }, spBase := 0, slots := [0], live := [0]
    chans := List.replicate 64 {}, nbs := [] }

/-- Operands of 0 on every port an instruction uses. -/
def placedVals (i : Option Instr) (mask : Mask) : List PortVal :=
  match i.bind Instr.form with
  | none => []
  | some f => (usedPorts f).map fun q => { port := q, mask, val := Lanes.zero }

/-- Core 0 with a warp that is about to fire the first instruction of a block of these words. -/
def placedWarpCore (i : Option Instr) (ws : List (BitVec 64)) : Core :=
  { Core.fresh with
    warps := [(0, placedWarp)], teams := [placedTeam], nextTeam := 1, nextAge := 1, blocks := [placedBlock ws]
    tags := [{ wslot := 0, itag := 0, ctx := 1, live := (placedVals i (BitVec.allOnes 32)).length, purging := false }]
    nodes := listMod Core.freshNodes 0 fun n => { n with ready := [{ wslot := 0, itag := 0, idx := 0, vals := placedVals i (BitVec.allOnes 32) }] } }

/-- Core 0 with a control thread that is about to execute the first instruction of a block of these words. -/
def placedCtlCore (i : Option Instr) (ws : List (BitVec 64)) : Core :=
  { Core.fresh with
    ctls := [{ freshCtl 1 8 none 0 0 false with entered := true, vals := (placedVals i 1).map fun v => (0, v) }]
    ctlCur := 1, blocks := [placedBlock ws] }

/-- PLACE an instruction of these words: a context runs on core 0, in which a warp, or a control thread for a form that only
these run, is about to fire it, and the agenda's next turn is that firing. -/
def State.placeWords (s : State) (ws : List (BitVec 64)) : State :=
  let i := (decode ws).toOption.map (·.1)
  let ctl := (i.bind Instr.form).any fun f => f.runs == .control
  { s with
    dev := { s.dev with power := true, up := true }
    ctxs := [placedCtx], cores := [(0, if ctl then placedCtlCore i ws else placedWarpCore i ws)]
    agenda := { dt := 0, act := .fire (if ctl then .ctl 0 1 else .warp 0 0 0) 0 } :: s.agenda }

/-- The words of an instruction whose bits are `w`, numbered as the opcode table numbers them. -/
def tableWords (nbits w : Nat) : List (BitVec 64) :=
  let v := w % 2 ^ nbits
  let first : BitVec 64 := BitVec.ofNat 64 v
  if first.getLsbD 17 then [first, BitVec.ofNat 64 (v / 2 ^ 64)] else [first]

end Sys2Proof.Machine
end

