-- ==== Sys2Proof/Machine/Step.lean ====
section
/-! DEFINITION. The step of the machine: one turn; and the state in which the next step runs a given instruction. -/

namespace Sys2Proof.Machine

/-- One step: the next turn of the agenda, or a free choice among what can happen (log 1). -/
def step (s : State) : Host.Outcome State Fault Refusal := s.turn

/-- The state whose next step fires the instruction of these bits, as the first of a resident block on core 0 (log 33). -/
def State.withFetchWord (s : State) (nbits w : Nat) : State := s.placeWords (tableWords nbits w)

end Sys2Proof.Machine
end

