-- ==== Sys2Proof/Safety.lean ====
section
/-! DEFINITION. What counts as a safe run, and the words the statements are written in: when an instruction is carried
out, what it computes, what a firing may change and what it leaves alone. -/

namespace Sys2Proof.Machine

/-! ## Runs -/

/-- A state is safe to step from: the machine answers a next state, no fault and no refusal. -/
def SafeStep (s : State) : Prop := ∃ t, step s = .next t

/-- A run of `k` steps is safe: every one of them answers a next state. -/
def SafeRun (k : Nat) (s : State) : Prop := ∃ t, Sys2Proof.core.run k s = .next t

/-! ## Carrying out an instruction -/

/-- `c` is what the machine is carrying out, for at least one lane. -/
def Issues (s : State) (c : Issue) : Prop := s.cur = some c ∧ c.mask ≠ 0

/-- The instruction fires, and `f l` goes from lane `l` to its targets as a 32-bit result. -/
def Sends32 (i : Instr) (s : State) (c : Issue) (f : Nat → Word) : Prop := exec i s = .next (s.finish c (c.res32 f))

/-- The instruction fires with a 64-bit result. -/
def Sends64 (i : Instr) (s : State) (c : Issue) (f : Nat → DWord) : Prop := exec i s = .next (s.finish c (c.res64 f))

/-- The instruction fires and sends nothing. -/
def SendsNothing (i : Instr) (s : State) (c : Issue) : Prop := exec i s = .next (s.finish c [])

/-- A warp's instruction fires: its effect is buffered until the block commits, and these results go to its targets. -/
def Buffers (i : Instr) (s : State) (c : Issue) (e : Eff) (parts : List Lanes) : Prop :=
  exec i s = .next ((s.addEff c e).finish c parts)

/-- The instruction faults as it fires. -/
def Faults (i : Instr) (s : State) (c : Issue) (f : FaultInfo) : Prop := exec i s = .next (s.faultIssue c f)

/-- The instruction waits: nothing changes, and it is tried again. -/
def Waits (i : Instr) (s : State) : Prop := exec i s = .next s

/-- A form whose effect a warp buffers, with what it reserves at fire, and a control thread makes at once, after the release of R386. -/
def TakesEffect (i : Instr) (s u : State) (c : Issue) (scope : Scope) (e : Eff) (res : List Lanes) (reserve : State → State)
    (now : State → RelSt) : Prop :=
  (c.who.isCtl = false → exec i s = .next (((reserve u).addEff c e).finish c res)) ∧
  (∀ core x v t, c.who = .ctl core x → u.releaseActs core (u.vfOf x) scope 0b111 = .done v → now v = .done t →
    exec i s = .next (t.finish c res))

/-- A form whose effect a warp buffers and a control thread takes at once. -/
def BuffersOrDoes (i : Instr) (s u : State) (c : Issue) (e : Eff) (res : List Lanes) (reserve now : State → State) : Prop :=
  (c.who.isCtl = false → exec i s = .next (((reserve u).addEff c e).finish c res)) ∧
  (c.who.isCtl = true → exec i s = .next ((now u).finish c res))

/-! ## Integer operands -/

/-- Operand b of an integer form, 32 and 64 bits wide: the immediate, sign-extended, or the port (R258, R295). -/
def intB32 (o : IntOp) (c : Issue) (l : Nat) : Word := match o.imm with | some x => x.signExtend 32 | none => c.w32 .b l
def intB64 (o : IntOp) (c : Issue) (l : Nat) : DWord := match o.imm with | some x => x.signExtend 64 | none => c.w64 .b .bx l

/-- An integer form fires and sends a function of its operands a, b and c, in words of the form's width. -/
def SendsInt (i : Instr) (o : IntOp) (s : State) (c : Issue) (f : (w : Nat) → BitVec w → BitVec w → BitVec w → BitVec w) : Prop :=
  (o.w64 = false → Sends32 i s c fun l => f 32 (c.w32 .a l) (intB32 o c l) (c.w32 .c l)) ∧
  (o.w64 = true → Sends64 i s c fun l => f 64 (c.w64 .a .ax l) (intB64 o c l) (c.w64 .c .cx l))

/-! ## What a firing leaves alone -/

/-- An instance without the counts of what has fired in it. -/
def Inst.quiet (i : Inst) : Inst := { i with fired := [], lastAct := 0 }

/-- A warp whose instances are so read. -/
def Warp.quiet (w : Warp) : Warp := { w with insts := w.insts.map Inst.quiet }

/-- A warp whose instances are read without their buffered effects, and the masks these fired with, too. -/
def Warp.calm (w : Warp) : Warp := { w with insts := w.insts.map fun i => { i.quiet with effs := [], fires := [] } }

/-- A control thread without the operands of its block and its place in it. -/
def Ctl.quiet (t : Ctl) : Ctl := { t with vals := [], next := 0 }

/-- A core without its nodes, their tags, and its warps, and with its control threads so read. -/
def Core.quiet (k : Core) : Core := { k with nodes := [], tags := [], warps := [], ctls := k.ctls.map Ctl.quiet }

/-- Only tokens moved: every warp keeps its registers, flags, splits, traps and buffered effects, every control thread its
registers, every core its teams, caches, scratchpad ports, engines and matrix path; everything outside the cores is as it was,
and every byte of memory reads as before. -/
def TokensOnly (s t : State) : Prop :=
  { t with cores := s.cores } = s ∧ (∀ n, (t.core n).quiet = (s.core n).quiet) ∧
  (∀ n sl, (t.warp? n sl).map Warp.quiet = (s.warp? n sl).map Warp.quiet) ∧ ∀ p, t.peek p = s.peek p

/-- Only tokens moved and effects were buffered. -/
def BuffersOnly (s t : State) : Prop :=
  { t with cores := s.cores } = s ∧ (∀ n, (t.core n).quiet = (s.core n).quiet) ∧
  (∀ n sl, (t.warp? n sl).map Warp.calm = (s.warp? n sl).map Warp.calm) ∧ ∀ p, t.peek p = s.peek p

/-- The forms that compute a result from their operands and touch nothing else: token plumbing, integer, lane, floating-point,
conversion and random-number forms (Tables 11.9 to 11.13). -/
def computes : Instr → Bool
  | .fan _ _ | .movi _ _ _ _ | .sel _ _ | .sink _
  | .iadd _ | .isub _ | .imul _ | .imulh _ | .imad _ | .ineg _ | .iabs _ | .imin _ | .imax _ | .idiv _ | .irem _ | .iand _ | .ior _
  | .ixor _ | .inot _ | .andn _ | .shl _ | .shr _ | .sar _ | .rol _ | .ror _ | .popc _ | .clz _ | .ctz _ | .brev _ | .bfx _ | .bfi _
  | .icmp _ _ | .lea _ _
  | .laneid _ | .shfl _ _ _ | .bcast _ _ | .vote _ _ | .reduce _ _ _ _ _ | .scan _ _ _ _ _ _
  | .fadd _ | .fsub _ | .fmul _ | .ffma _ | .fmin _ _ | .fmax _ _ | .fcmp _ _ | .fdiv _ | .fsqrt _ | .frcp _ | .frsq _ | .fex2 _
  | .flg2 _ | .fsin _ | .fcos _ | .frnd _ | .fclass _ | .fldexp _ | .hadd2 _ _ | .hmul2 _ _ | .hfma2 _ _
  | .cvt _ | .cvtSr _ | .pack _ | .unpack _ | .dsenc _ | .dsdec _ | .scaleq _ | .quant _ | .rng _ => true
  | _ => false

/-- The forms whose effect a warp only buffers, whatever their operands: SETR, the successors, BAR, events, trace and the trap
forms. -/
def buffered : Instr → Bool
  | .setr _ _ _ | .br _ _ | .brc _ _ _ | .bri _ | .call _ _ _ | .calli _ _ | .ret _ | .exit _ | .loop _ _
  | .bar _ | .evsig _ _ | .trace _ | .tmaskMask _ | .tmaskUnmask _ | .tret _ => true
  | _ => false

/-- A thread is a warp's instance. -/
def Issue.inWarp (c : Issue) : Prop := c.who.isCtl = false

/-! ## The words of the integer and lane statements -/

/-- BFX of a word: the field of `n` bits at `p` that the control word names, extended to the word (R298). -/
def bfxWord (nat : Bool) (w : Nat) (a b : BitVec w) : BitVec w :=
  let p := (b.extractLsb' 0 8).toNat
  let n := (b.extractLsb' 8 8).toNat
  if n = 0 ∨ w ≤ p then 0
  else
    let f := (a >>> p).setWidth (min n (w - p))
    if nat then f.setWidth w else f.signExtend w

/-- BFI of a word: the low bits of c stand in that field of a (R298). -/
def bfiWord (w : Nat) (a b c : BitVec w) : BitVec w :=
  let p := (b.extractLsb' 0 8).toNat
  let n := (b.extractLsb' 8 8).toNat
  if n = 0 ∨ w ≤ p then a
  else
    let field : BitVec w := ((BitVec.allOnes (min n (w - p))).setWidth w) <<< p
    (a &&& ~~~field) ||| ((c <<< p) &&& field)

/-- A relation of two words, signed or natural (R299). -/
def relWords (rel : CmpRel) (nat : Bool) {w : Nat} (a b : BitVec w) : Bool :=
  match rel with
  | .eq => a == b
  | .ne => a != b
  | .lt => if nat then a.ult b else a.slt b
  | .le => if nat then a.ule b else a.sle b
  | .gt => if nat then b.ult a else b.slt a
  | .ge => if nat then b.ule a else b.sle a

/-- The order of two words, signed or natural. -/
def leWords (nat : Bool) {w : Nat} (a b : BitVec w) : Bool := if nat then a.ule b else a.sle b

/-! ## Exact arithmetic (R159, R167, R310, R316, Table 14.2) -/

/-- The exact value of a finite floating-point value. -/
def FVal.rat : FVal → Rat
  | .fin n m e => (if n then -1 else 1) * (m : Rat) * (2 : Rat) ^ e
  | _ => 0

/-- A floating-point value is finite. -/
def FVal.finite : FVal → Bool
  | .fin _ _ _ => true
  | _ => false

/-- An FCMP relation on exact values (Table 14.3). -/
def relRats (rel : FCmpRel) (x y : Rat) : Bool :=
  match rel with
  | .eq => decide (x = y) | .ne => decide (x ≠ y) | .lt => decide (x < y) | .le => decide (x ≤ y) | .gt => decide (y < x)
  | .ge => decide (y ≤ x) | .unordered => false | .ordered => true

/-- An exact result before it is rounded: NaN, an infinity, or a real with the sign a zero takes. -/
inductive Exact where
  | nan
  | inf (neg : Bool)
  | val (neg : Bool) (x : Rat)

/-- A floating-point value, exactly. -/
def FVal.exact : FVal → Exact
  | .nan => .nan
  | .inf n => .inf n
  | .fin n m e => .val n (FVal.fin n m e).rat

/-- A value with its sign inverted. -/
def Exact.neg : Exact → Exact
  | .nan => .nan
  | .inf n => .inf (!n)
  | .val n x => .val (!n) (-x)

/-- x + y: infinities of opposite signs give NaN; a zero sum of opposite signs is −0 in mode RD and +0 otherwise (R159). -/
def Exact.add (rnd : Rnd) : Exact → Exact → Exact
  | .nan, _ | _, .nan => .nan
  | .inf a, .inf b => if a = b then .inf a else .nan
  | .inf a, .val _ _ => .inf a
  | .val _ _, .inf b => .inf b
  | .val a x, .val b y => .val (if x + y = 0 then (if a = b then a else rnd == .rd) else decide (x + y < 0)) (x + y)

/-- x × y: 0 × ∞ gives NaN. -/
def Exact.mul : Exact → Exact → Exact
  | .nan, _ | _, .nan => .nan
  | .inf a, .inf b => .inf (a != b)
  | .inf a, .val b y | .val b y, .inf a => if y = 0 then .nan else .inf (a != b)
  | .val a x, .val b y => .val (a != b) (x * y)

/-- x / y: 0 / 0 and ∞ / ∞ give NaN, a nonzero value by 0 an infinity. -/
def Exact.div : Exact → Exact → Exact
  | .nan, _ | _, .nan => .nan
  | .inf _, .inf _ => .nan
  | .inf a, .val b _ => .inf (a != b)
  | .val a _, .inf b => .val (a != b) 0
  | .val a x, .val b y => if y = 0 then (if x = 0 then .nan else .inf (a != b)) else .val (a != b) (x / y)

/-- floor(log2 a), a > 0. -/
def ratLog2 (a : Rat) : Int :=
  let e := (a.num.natAbs.log2 : Int) - a.den.log2
  if (2 : Rat) ^ e ≤ a then e else e - 1

/-- The absolute value. -/
def absRat (x : Rat) : Rat := if x < 0 then -x else x

/-- A magnitude rounded to an integer in a mode: k + up of R167. -/
def roundMag (m : RMode) (neg : Bool) (a : Rat) : Nat :=
  let k := a.floor.toNat
  let f := a - (k : Rat)
  let up : Bool := match m.rnd with
    | .rne => decide (1 / 2 < f) || (decide (f = 1 / 2) && k % 2 == 1)
    | .rz => false
    | .ru => decide (0 < f) && !neg
    | .rd => decide (0 < f) && neg
    | .sr => decide (2 ^ m.n ≤ (f * 2 ^ m.n).floor.toNat + m.r)
  k + up.toNat

/-- A real rounded to an integer (R167, R170, R315). -/
def roundWhole (m : RMode) (x : Rat) : Int :=
  if x < 0 then -(roundMag m true (absRat x) : Int) else roundMag m false (absRat x)

/-- Round(x, mode) of R167, x not 0: the code in a format, with Table 7.6 on overflow and the flush of .ftz. -/
def roundExact (f : Fmt) (m : RMode) (ftz sat : Bool) (x : Rat) : Nat :=
  let p := f.spec
  let emin : Int := 1 - p.bias
  let e := max (ratLog2 (absRat x)) emin
  let code := (e - emin).toNat * 2 ^ p.fbits + roundMag m (decide (x < 0)) (absRat x / (2 : Rat) ^ (e - p.fbits))
  if p.maxc < code then overflowCode f m.rnd sat (decide (x < 0))
  else if ftz && f.flushable && code < 2 ^ p.fbits then withSign f (decide (x < 0)) 0
  else withSign f (decide (x < 0)) code

/-- The code of an exact result: rounded once, NaN canonical (R157, R167, Table 7.4). -/
def Exact.code (f : Fmt) (m : RMode) (ftz sat : Bool) : Exact → Nat
  | .nan => nanCode f
  | .inf n => infCode f sat n
  | .val n x => if x = 0 then withSign f n 0 else roundExact f m ftz sat x

/-- Convert of R169 and R170, one element: a value rounded to the destination, an integer wrapped, clamped or extended. -/
def convertExact (src dst : Fmt) (m : RMode) (ftz sat : Bool) (bits : Nat) : Nat :=
  let b := bits % 2 ^ src.width
  let v := intVal src b
  let x := if src = .e8m0 ∧ dst.intRange = none then (scaleVal b).exact else (fval src (flushIn src ftz b)).exact
  match src.intRange, dst.intRange with
  | none, none => x.code dst m ftz sat
  | none, some (lo, hi) => intBits (match x with
      | .nan => 0
      | .inf n => if n then lo else hi
      | .val _ x => clampInt (roundWhole m x) lo hi) dst.width
  | some _, none => Exact.code dst m ftz sat (.val (decide (v < 0)) v)
  | some _, some (lo, hi) => intBits (if sat = true ∧ dst.width ≤ src.width then clampInt v lo hi else v) dst.width

/-- A zero, an infinity of FP32. -/
def zeroWord (neg : Bool) : Word := if neg then 0x80000000 else 0
def infWord (neg : Bool) : Word := if neg then 0xFF800000 else 0x7F800000

/-! ## Engine forms -/

/-- The engine forms that take a parameter block, and what they ask of the engine (R353, R355). -/
def blockKind : Instr → Option (EngKind × EngForm)
  | .copy e => some (.copy, e)
  | .copy2d e => some (.copy2d, e)
  | .tcopy e => some (.tcopy, e)
  | .gath e => some (.gath, e)
  | .scat e => some (.scat, e)
  | .fill sz e => some (.fill sz, e)
  | .stream e => some (.stream, e)
  | .istream e => some (.istream, e)
  | .handoffTohost e => some (.handoff true, e)
  | .handoffTodevice e => some (.handoff false, e)
  | .mxload e => some (.mxload, e)
  | .collAllreduce e => some (.coll 0, e)
  | .collReduce e => some (.coll 1, e)
  | .collBroadcast e => some (.coll 2, e)
  | .collAllgather e => some (.coll 3, e)
  | .collReducescatter e => some (.coll 4, e)
  | .collAlltoall e => some (.coll 5, e)
  | .collBarrier e => some (.coll 6, e)
  | _ => none

/-- The form is a collective. -/
def EngKind.isColl : EngKind → Bool
  | .coll _ => true
  | _ => false

/-- The request an engine form makes: its kind, the address of the lowest lane, its scope, token register and flag. -/
def blockReq (kind : EngKind) (e : EngForm) (c : Issue) : EngReq :=
  { kind, a := c.lowD .a .ax, b := 0, c := 0, scope := e.scope, tok := e.tok.map (·.toNat), fsel := e.wd.fsel }

/-- A thread can issue an operation that binds a flag now: it is issuing no other, its flag may count one more, its queue has
room, its earlier accesses have answered, its scope's release is made (in `t`), and its preparation, which answers `res` in `u`,
waits neither for a host page nor for a generator (R130, R184, R248, R353, R354). -/
structure IssuesNow (s : State) (who : Who) (r : EngReq) (t u : State) (res : Except EngStop (EngOp × Option Nat)) : Prop where
  fresh   : s.issuingOp who = none
  flag    : s.flagFull who (s.flagFor who r.fsel) 1 = false
  room    : s.queueRoom who.core r.kind = true
  behind  : s.threadOut who = false
  release : s.releaseActs who.core (s.vfOf (s.ctxOf who)) r.scope 0b111 = .done t
  prepare : (prepareOp who.core (t.enterOp who (s.flagFor who r.fsel) r).2).go (t.enterOp who (s.flagFor who r.fsel) r).1 = (res, u)
  free    : (∃ q, res = .ok q) ∨ (∃ f, res = .error (.fault f))

/-- The operation a thread has just issued, settled: it belongs to the team it is issued for, and its issue is complete. -/
def State.issuedOp (u : State) (who : Who) (id : Nat) (res : Except EngStop (EngOp × Option Nat)) : State :=
  ((u.settlePrep who.core id res).holdTeam who id).modOp who.core id fun q => { q with issuing := false }

end Sys2Proof.Machine
end

