-- ==== Sys2Proof/Certificates/Slice0/Obligations.lean ====
section
/-! DEFINITION. The statements for the provers. Each names the rules of spec/ it formalises; a clause that rests on a choice of
the model names its log entry. -/

open Sys2Proof Sys2Proof.Machine

/-! ## Decoding and the step -/

/-- Words written out bit by bit from Tables 11.5 to 11.17 decode to the instructions they stand for: a few words of several
families (R251 to R263). -/
def Obligations.WordsDecodeAsTheTablesSay : Prop :=
  decode [0x0000002002080001] = .ok (.getr ⟨.always, false, some ⟨.a, 1⟩, none, none⟩ false ⟨false, 1⟩, []) ∧
  decode [0x0000C00422180010] =
    .ok (.iadd { wd := ⟨.always, false, some ⟨.a, 3⟩, some ⟨.a, 2⟩, none⟩, w64 := false, nat := false, imm := some 1 }, []) ∧
  decode [0x000540000220022B] =
    .ok (.icmp .lt { wd := ⟨.always, false, some ⟨.a, 4⟩, none, none⟩, w64 := false, nat := false, imm := some 10 }, []) ∧
  decode [0x0000042002280053] =
    .ok (.ffma { wd := ⟨.always, false, some ⟨.a, 5⟩, none, none⟩, ftz := false, imm := none, absA := false, absB := false,
                 absC := false, negA := false, negB := false, negC := true, rnd := .rz }, []) ∧
  decode [0x000009800000A085] =
    .ok (.stw .b32 { wd := ⟨.ifTrue, false, none, none, none⟩, off := 0, order := .rel, scope := .dev, cls := .rnd }, []) ∧
  decode [0x00003880000200B0, 0] =
    .ok (.copy { wd := ⟨.always, false, none, none, some ⟨none, none⟩⟩, scope := .dev, tok := some 4 }, []) ∧
  decode [0x0000014000000007] = .ok (.br ⟨.always, false, none, none, none⟩ 10, []) ∧
  decode [0x00000000000000F8] = .ok (.tret ⟨.always, false, none, none, none⟩, [])

/-- DECODE AND ENCODE AGREE: the words of every well-formed form, followed by any words, decode to that form and leave the words
after it (R253, R257). -/
def Obligations.DecodingAnEncodedFormGivesItBack : Prop :=
  ∀ (i : Instr) (f : Form) (rest : List (BitVec 64)), i.form = some f → i.wellFormed = true → decode (encode i ++ rest) = .ok (i, rest)

/-- What the decoder accepts is well formed, and the words it read are that instruction's own encoding, so every reserved bit was
0 (R257, R264). -/
def Obligations.DecodedWordsAreTheEncoding : Prop :=
  ∀ (ws rest : List (BitVec 64)) (i : Instr), decode ws = .ok (i, rest) → ws = encode i ++ rest ∧ i.wellFormed = true

/-- A STEP RUNS THE DECODED INSTRUCTION. When the agenda's next turn is the firing of an instruction of a warp's instance, whose words
in its resident block decode to `i`, and its node picks its ready entry (the only one, or the first in the node's order that does not
wait) and has not fired in this cycle, the step is exec of `i` with the issue that Moves.lean forms from the entry; then nothing is
being carried out (R198, R203). The step takes the turn off the agenda and lets its time pass (log 1, log 2). -/
def Obligations.StepFiresTheDecodedInstruction : Prop :=
  ∀ (s r t : State) (dt core slot itag idx : Nat) (rest : List Turn) (x : Inst) (b : RBlock) (m : MatchEntry) (i : Instr) (c : Issue),
    s.agenda = { dt, act := .fire (.warp core slot itag) idx } :: rest →
    r = ({ s with agenda := rest } : State).pass dt →
    r.instOf (.warp core slot itag) = some x → r.blockOf (.warp core slot itag) = some b →
    r.issueOf (.warp core slot itag) idx = some (i, c) →
    ((r.core core).nodes.getD (b.node x.replica idx) {}).firedNow r.time = false →
    r.nodePick core ((r.core core).nodes.getD (b.node x.replica idx) {}) = some m →
    m.wslot = slot → m.itag = itag → m.idx = idx →
    exec i { r with cur := some c } = .next t →
    (decode (b.words.drop idx)).toOption.map (·.1) = some i ∧ step s = .next { t with cur := none }

/-- A STEP RUNS THE DECODED INSTRUCTION of a control thread. When the agenda's next turn is a control thread's and the control core
picks it, in a block it has entered, the step is exec of the instruction it has come to, decoded from the block's words (R196, R417),
unless a pre-emption of its root is due there (R432). -/
def Obligations.StepRunsTheControlThread : Prop :=
  ∀ (s r u t : State) (dt core x : Nat) (rest : List Turn) (h : Ctl) (b : RBlock) (i : Instr) (c : Issue),
    s.agenda = { dt, act := .fire (.ctl core x) 0 } :: rest →
    r = ({ s with agenda := rest } : State).pass dt → r.ctlPick core = some h → h.ctx = x →
    u = r.modCore core (fun k => { k with ctlCur := x }) →
    u.ctlReady core h = true → h.stopped = false → h.entered = true →
    u.blockOf (.ctl core x) = some b → h.next < b.words.length → u.issueOf (.ctl core x) h.next = some (i, c) →
    slicePoint i = false ∨ u.slicePending core (u.vfOf x) = false →
    exec i { u with cur := some c } = .next t → t.slicePending core (r.vfOf x) = false →
    (decode (b.words.drop h.next)).toOption.map (·.1) = some i ∧ step s = .next { t with cur := none }

/-- EVERY STEP ANSWERS: in every state the machine goes on to a next state; no run ends in a fault or a refusal. Every instruction, machine operation and event answers a next state whenever a thread is carrying one out. -/
def Obligations.EveryStepAnswersANextState : Prop :=
  (∀ s : State, SafeStep s) ∧
  (∀ (i : Instr) (s : State) (c : Issue), s.cur = some c → ∃ t, exec i s = .next t)

/-- THE MEMORIES KEEP THEIR CANONICAL FORM: whatever a step does, in every state whose memories are in canonical form, the state after it has
them so. The form is the model's own way to hold the spec's bytes (log 7). -/
def Obligations.StepKeepsTheMemoriesCanonical : Prop :=
  ∀ s t : State, Memory.wf s.mem = true → step s = .next t → Memory.wf t.mem = true

/-! ## Integer forms -/

/-- The arithmetic forms compute modulo 2^w, in signed and natural forms alike, and LEA adds B × 2^k (R161, R295, R300, Table
13.5). The logic forms compute bit by bit (R295, Table 13.5). -/
def Obligations.IntegerArithmeticAndLogic : Prop :=
  (∀ (o : IntOp) (sh : BitVec 4) (s : State) (c : Issue), Issues s c →
    SendsInt (.iadd o) o s c (fun _ a b _ => a + b) ∧ SendsInt (.isub o) o s c (fun _ a b _ => a - b) ∧
    SendsInt (.imul o) o s c (fun _ a b _ => a * b) ∧ SendsInt (.imad o) o s c (fun _ a b d => a * b + d) ∧
    SendsInt (.ineg o) o s c (fun _ a _ _ => -a) ∧ SendsInt (.lea sh o) o s c (fun _ a b _ => a + (b <<< sh.toNat))) ∧
  (∀ (o : IntOp) (s : State) (c : Issue), Issues s c →
    SendsInt (.iand o) o s c (fun _ a b _ => a &&& b) ∧ SendsInt (.ior o) o s c (fun _ a b _ => a ||| b) ∧
    SendsInt (.ixor o) o s c (fun _ a b _ => a ^^^ b) ∧ SendsInt (.inot o) o s c (fun _ a _ _ => ~~~a) ∧
    SendsInt (.andn o) o s c (fun _ a b _ => a &&& ~~~b))

/-- Shifts by w or more give 0, or copies of the sign in SAR; rotations count modulo w (R297). -/
def Obligations.ShiftsAndRotations : Prop :=
  ∀ (o : IntOp) (s : State) (c : Issue), Issues s c →
    SendsInt (.shl o) o s c (fun _ a b _ => a <<< b.toNat) ∧ SendsInt (.shr o) o s c (fun _ a b _ => a >>> b.toNat) ∧
    SendsInt (.sar o) o s c (fun _ a b _ => a.sshiftRight b.toNat) ∧
    SendsInt (.rol o) o s c (fun _ a b _ => a.rotateLeft b.toNat) ∧ SendsInt (.ror o) o s c (fun _ a b _ => a.rotateRight b.toNat)

/-- Division truncates; a divisor of 0 gives a quotient of all ones and the dividend as the remainder; the most negative number
by −1 gives itself and 0 (R296). IMULH gives the high word of the product; IABS, IMIN and IMAX read their operands signed or natural (R295, Table 13.5). -/
def Obligations.DivisionProductsAndOrder : Prop :=
  (∀ (o : IntOp) (s : State) (c : Issue), Issues s c →
    SendsInt (.idiv o) o s c (fun w a b _ => if b = 0 then BitVec.allOnes w else if o.nat then a / b else a.sdiv b) ∧
    SendsInt (.irem o) o s c (fun _ a b _ => if b = 0 then a else if o.nat then a % b else a.srem b)) ∧
  (∀ (o : IntOp) (s : State) (c : Issue), Issues s c →
    SendsInt (.imulh o) o s c (fun w a b _ =>
      if o.nat then (a.setWidth (2 * w) * b.setWidth (2 * w)).extractLsb' w w else (a.signExtend (2 * w) * b.signExtend (2 * w)).extractLsb' w w) ∧
    SendsInt (.iabs o) o s c (fun _ a _ _ => if o.nat then a else a.abs) ∧
    SendsInt (.imin o) o s c (fun _ a b _ => if leWords o.nat a b then a else b) ∧
    SendsInt (.imax o) o s c (fun _ a b _ => if leWords o.nat a b then b else a))

/-- The counting forms: ones, leading zeros and trailing zeros (w for 0), and the bits reversed (R295, Table 13.5). BFX and BFI act on the field that the control word names: position in bits [7:0], length in bits [15:8], cut at the word's
end; a length of 0 or a position beyond the word gives 0, or leaves a (R298). -/
def Obligations.BitCountsAndFields : Prop :=
  (∀ (o : IntOp) (s : State) (c : Issue), Issues s c →
    SendsInt (.popc o) o s c (fun _ a _ _ => a.cpop) ∧ SendsInt (.clz o) o s c (fun _ a _ _ => a.clz) ∧
    SendsInt (.ctz o) o s c (fun _ a _ _ => a.ctz) ∧ SendsInt (.brev o) o s c (fun _ a _ _ => a.reverse)) ∧
  (∀ (o : IntOp) (s : State) (c : Issue), Issues s c →
    SendsInt (.bfx o) o s c (fun w a b _ => bfxWord o.nat w a b) ∧ SendsInt (.bfi o) o s c (fun w a b d => bfiWord w a b d))

/-- ICMP sends 0xFFFF_FFFF where the relation that VAR names holds and 0 where it does not, 32 bits wide in every form, to every target;
a .64 form has a second word (R299). -/
def Obligations.IntegerCompareSendsATruthWord : Prop :=
  ∀ (rel : CmpRel) (o : IntOp), (∀ (s : State) (c : Issue), Issues s c →
    (o.w64 = false → Sends32 (.icmp rel o) s c fun l => if relWords rel o.nat (c.w32 .a l) (intB32 o c l) then 0xFFFFFFFF else 0) ∧
    (o.w64 = true → Sends32 (.icmp rel o) s c fun l => if relWords rel o.nat (c.w64 .a .ax l) (intB64 o c l) then 0xFFFFFFFF else 0)) ∧
  ((encode (.icmp rel o)).headD 0).extractLsb' 8 4 = (match rel with | .eq => 0 | .ne => 1 | .lt => 2 | .le => 3 | .gt => 4 | .ge => 5) ∧
  (∀ f, (Instr.icmp rel o).form = some f → ∀ n, n < 4 → partOf f n = 0) ∧
  (o.w64 = true → (Instr.icmp rel o).wellFormed = true → o.wd.ext.isSome = true)

/-! ## Lane forms -/

/-- LANEID sends each lane its own number, and it is a root: it has no operand (R302). -/
def Obligations.LaneidSendsTheLaneNumber : Prop :=
  ∀ w : Wd, (∀ (s : State) (c : Issue), Issues s c → Sends32 (.laneid w) s c fun l => BitVec.ofNat 32 l) ∧
    ∀ f, (Instr.laneid w).form = some f → f.ports = []

/-- SHFL: a lane receives operand a of its source lane when that lane exists and fires, else its own (R303). VOTE: any and all over the lanes that fire, and the set of true lanes; every lane receives the same (R305). -/
def Obligations.ShufflesAndVotes : Prop :=
  (∀ (m : ShflMode) (w : Wd) (s : State) (c : Issue), Issues s c →
    (Sends32 (.shfl m w false) s c fun l => match shflSource m l (c.w32 .b l).toNat with
      | some k => if c.mask.getLsbD k then c.w32 .a k else c.w32 .a l
      | none => c.w32 .a l) ∧
    (Sends64 (.shfl m w true) s c fun l => match shflSource m l (c.w32 .b l).toNat with
      | some k => if c.mask.getLsbD k then c.w64 .a .ax k else c.w64 .a .ax l
      | none => c.w64 .a .ax l)) ∧
  (∀ (w : Wd) (s : State) (c : Issue), Issues s c →
    (Sends32 (.vote .any w) s c fun _ => if c.lanes.any fun l => c.w32 .a l != 0 then 0xFFFFFFFF else 0) ∧
    (Sends32 (.vote .all w) s c fun _ => if c.lanes.all fun l => c.w32 .a l != 0 then 0xFFFFFFFF else 0) ∧
    ∃ p : Word, (∀ l, l < 32 → p.getLsbD l = (c.mask.getLsbD l && c.w32 .a l != 0)) ∧ Sends32 (.vote .ballot w) s c fun _ => p)

/-- BCAST sends every lane the operand of the lowest lane that fires (R304). -/
def Obligations.BroadcastSendsTheLowestLane : Prop :=
  ∀ (w : Wd) (s : State) (c : Issue), Issues s c →
    ∃ k, c.mask.getLsbD k = true ∧ (∀ j, j < k → c.mask.getLsbD j = false) ∧
      (Sends32 (.bcast w false) s c fun _ => c.w32 .a k) ∧ (Sends64 (.bcast w true) s c fun _ => c.w64 .a .ax k)

/-- The integer reductions do not depend on the tree: sum modulo 2^w, AND, OR, XOR, and the least and greatest value over the
lanes that fire, in every lane (R178, R306). REDUCE and SCAN run on the fixed tree of 32 leaves: every lane receives the root over the lanes that fire; lane l of SCAN the
root over those of them at or below l, or strictly below l in the exclusive form, and the operation's identity where there is
none (R178, R179, R306, R307).
A NaN that meets no other lane becomes the canonical one (log 52). -/
def Obligations.ReductionsAndScans : Prop :=
  (∀ (w : Wd) (nat : Bool) (rnd : Rnd) (s : State) (c : Issue), Issues s c →
    (Sends32 (.reduce .add w false nat rnd) s c fun _ => (c.lanes.map fun l => c.w32 .a l).sum) ∧
    (Sends64 (.reduce .add w true nat rnd) s c fun _ => (c.lanes.map fun l => c.w64 .a .ax l).sum) ∧
    (Sends32 (.reduce .and w false nat rnd) s c fun _ => c.lanes.foldl (fun r l => r &&& c.w32 .a l) (BitVec.allOnes 32)) ∧
    (Sends32 (.reduce .or w false nat rnd) s c fun _ => c.lanes.foldl (fun r l => r ||| c.w32 .a l) 0) ∧
    (Sends32 (.reduce .xor w false nat rnd) s c fun _ => c.lanes.foldl (fun r l => r ^^^ c.w32 .a l) 0) ∧
    (∃ k ∈ c.lanes, (∀ l ∈ c.lanes, leWords nat (c.w32 .a k) (c.w32 .a l) = true) ∧
      Sends32 (.reduce .min w false nat rnd) s c fun _ => c.w32 .a k) ∧
    (∃ k ∈ c.lanes, (∀ l ∈ c.lanes, leWords nat (c.w32 .a l) (c.w32 .a k) = true) ∧
      Sends32 (.reduce .max w false nat rnd) s c fun _ => c.w32 .a k)) ∧
  (∀ (op : RedOp) (w : Wd) (w64 nat excl : Bool) (rnd : Rnd) (s : State) (c : Issue), Issues s c →
    (exec (.reduce op w w64 nat rnd) s =
      .next (s.finish c (laneResult c w64 fun _ => (redRoot op w64 nat rnd c.mask (laneA c w64)).getD 0))) ∧
    ∃ below : Nat → Mask, (∀ l k, l < 32 → (below l).getLsbD k = (c.mask.getLsbD k && decide (if excl then k < l else k ≤ l))) ∧
      exec (.scan op w w64 nat excl rnd) s =
        .next (s.finish c (laneResult c w64 fun l => (redRoot op w64 nat rnd (below l) (laneA c w64)).getD (redIdentity op w64 nat))))

/-! ## Floating-point and conversion forms -/

/-- FADD, FSUB, FMUL, FFMA and FDIV send, in each lane, the exact result of their prepared operands, rounded once in the form's mode:
the canonical NaN for a NaN operand or an invalid operation, infinities and zero signs as Table 14.2 and R159 give them (R309, R310).
FSQRT rounds the exact root: it lies between two rationals that round alike, or is one (R310). FLDEXP rounds a × 2^b, b read as an
integer, and leaves zeros and infinities as they are (R310). FRND gives the operand rounded to an integer in the form's mode, with its
sign where that is 0 (R315), FCLASS the one bit of its operand's class (R314). FRCP, FRSQ, FEX2, FLG2, FSIN and FCOS send a word that depends on
the prepared operand and .ftz alone, and the words of Table 14.6 and the exact cases of Table 14.5 (R317). -/
def Obligations.FloatFormsRoundOnce : Prop :=
  (∀ (o : FltOp) (s : State) (c : Issue), Issues s c →
    let a (l : Nat) : Exact := (fval .fp32 (fltA o c l)).exact
    let b (l : Nat) : Exact := (fval .fp32 (fltB o c l)).exact
    let d (l : Nat) : Exact := (fval .fp32 (fltC o c l)).exact
    let round (x : Exact) : Word := BitVec.ofNat 32 (x.code .fp32 (fltMode o) o.ftz false)
    (Sends32 (.fadd o) s c fun l => round ((a l).add o.rnd (b l))) ∧
    (Sends32 (.fsub o) s c fun l => round ((a l).add o.rnd (b l).neg)) ∧
    (Sends32 (.fmul o) s c fun l => round ((a l).mul (b l))) ∧
    (Sends32 (.ffma o) s c fun l => round (((a l).mul (b l)).add o.rnd (d l))) ∧
    (Sends32 (.fdiv o) s c fun l => round ((a l).div (b l))) ∧
    (Sends32 (.fldexp o) s c fun l => match a l with
      | .val n x => round (.val n (x * (2 : Rat) ^ ((match o.imm with | some y => y.toInt | none => (c.w32 .b l).toInt) : Int)))
      | x => round x)) ∧
  (∀ (o : FltOp) (s : State) (c : Issue), Issues s c → ∃ r : Nat → Word, Sends32 (.fsqrt o) s c r ∧ ∀ l,
    let a := fval .fp32 (fltA o c l)
    (a.isNan = true ∨ (a.isNeg = true ∧ a.isZero = false) → r l = 0x7FC00000) ∧
    (a.isZero = true → r l = zeroWord a.isNeg) ∧ (a = .inf false → r l = infWord false) ∧
    (a.finite = true → 0 < a.rat → ∃ u v : Rat, 0 < u ∧ ((u = v ∧ u * u = a.rat) ∨ (u * u < a.rat ∧ a.rat < v * v ∧ 0 < v)) ∧
      r l = BitVec.ofNat 32 (roundExact .fp32 (fltMode o) o.ftz false u) ∧ r l = BitVec.ofNat 32 (roundExact .fp32 (fltMode o) o.ftz false v))) ∧
  (∀ (o : FltOp) (s : State) (c : Issue), Issues s c → ∃ r : Nat → Word, Sends32 (.frnd o) s c r ∧ ∀ l,
    let a := fval .fp32 (fltA o c l)
    let y := fval .fp32 (r l).toNat
    (a.isNan = true → r l = 0x7FC00000) ∧ (a.isNan = false → a.finite = false ∨ 2 ^ 23 ≤ absRat a.rat → r l = BitVec.ofNat 32 (fltA o c l)) ∧
    (a.finite = true → absRat a.rat < 2 ^ 23 → y.finite = true ∧ y.rat = roundWhole (fltMode o) a.rat ∧ y.isNeg = a.isNeg)) ∧
  (∀ (o : FltOp) (s : State) (c : Issue), Issues s c → Sends32 (.fclass o) s c fun l =>
    let x := fltA o c l
    match fval .fp32 x with
    | .nan => if x.testBit 22 then 2 else 1
    | .inf n => if n then 4 else 512
    | .fin n m _ => if m = 0 then (if n then 32 else 64) else if isSubnormal .fp32 x then (if n then 16 else 128) else (if n then 8 else 256)) ∧
  (∀ ftz : Bool, ∃ rcp rsq ex2 lg2 sin cos : Nat → Word,
    (∀ (o : FltOp) (s : State) (c : Issue), o.ftz = ftz → Issues s c →
      (Sends32 (.frcp o) s c fun l => rcp (fltA o c l)) ∧ (Sends32 (.frsq o) s c fun l => rsq (fltA o c l)) ∧
      (Sends32 (.fex2 o) s c fun l => ex2 (fltA o c l)) ∧ (Sends32 (.flg2 o) s c fun l => lg2 (fltA o c l)) ∧
      (Sends32 (.fsin o) s c fun l => sin (fltA o c l)) ∧ (Sends32 (.fcos o) s c fun l => cos (fltA o c l))) ∧
    ∀ x : Nat, x < 2 ^ 32 →
      let a := fval .fp32 x
      (a.isNan = true → ∀ f ∈ [rcp, rsq, ex2, lg2, sin, cos], f x = 0x7FC00000) ∧
      (∀ n, a = .inf n → rcp x = zeroWord n ∧ rsq x = (if n then 0x7FC00000 else 0) ∧ ex2 x = (if n then 0 else infWord false) ∧
        lg2 x = (if n then 0x7FC00000 else infWord false) ∧ sin x = 0x7FC00000 ∧ cos x = 0x7FC00000) ∧
      (a.isZero = true → rcp x = infWord a.isNeg ∧ rsq x = infWord a.isNeg ∧ ex2 x = 0x3F800000 ∧ lg2 x = infWord true ∧
        sin x = zeroWord a.isNeg ∧ cos x = 0x3F800000) ∧
      (a.finite = true → a.rat < 0 → rsq x = 0x7FC00000 ∧ lg2 x = 0x7FC00000) ∧
      (a.finite = true → 128 ≤ a.rat → ex2 x = infWord false) ∧ (a.finite = true → a.rat ≤ -150 → ex2 x = 0) ∧
      (a.finite = true → ftz = true → a.rat < -126 → ex2 x = 0) ∧
      (∀ k : Int, a.finite = true → absRat a.rat = (2 : Rat) ^ k → -126 ≤ -k → -k ≤ 127 →
        rcp x = BitVec.ofNat 32 (roundExact .fp32 ⟨.rne, 0, 0⟩ ftz false (1 / a.rat))) ∧
      (∀ k : Int, a.finite = true → a.rat = (2 : Rat) ^ (2 * k) → rsq x = BitVec.ofNat 32 (roundExact .fp32 ⟨.rne, 0, 0⟩ ftz false ((2 : Rat) ^ (-k)))) ∧
      (∀ k : Int, a.finite = true → a.rat = (k : Rat) → -126 ≤ k → k ≤ 127 →
        ex2 x = BitVec.ofNat 32 (roundExact .fp32 ⟨.rne, 0, 0⟩ ftz false ((2 : Rat) ^ k))) ∧
      (∀ k : Int, a.finite = true → a.rat = (2 : Rat) ^ k → -126 ≤ k →
        lg2 x = BitVec.ofNat 32 ((Exact.val false (k : Rat)).code .fp32 ⟨.rne, 0, 0⟩ ftz false)))

/-- FCMP compares the exact values of its prepared operands, +0 equal to −0, and a pair with a NaN as unordered (R313). FMIN and FMAX: the canonical NaN for a NaN operand, or in the Number forms the other operand; of two operands without a NaN the
result is one of them, bit by bit, and its value is the lesser or the greater (R312). -/
def Obligations.FloatComparesMinimaAndMaxima : Prop :=
  (∀ (rel : FCmpRel) (o : FltOp) (s : State) (c : Issue), Issues s c →
    ∃ r : Nat → Word, Sends32 (.fcmp rel o) s c r ∧ ∀ l,
      ((fval .fp32 (fltA o c l)).finite = true → (fval .fp32 (fltB o c l)).finite = true →
        r l = if relRats rel (fval .fp32 (fltA o c l)).rat (fval .fp32 (fltB o c l)).rat then 0xFFFFFFFF else 0) ∧
      ((fval .fp32 (fltA o c l)).isNan = true ∨ (fval .fp32 (fltB o c l)).isNan = true →
        r l = if rel = .ne ∨ rel = .unordered then 0xFFFFFFFF else 0)) ∧
  (∀ (num : Bool) (o : FltOp) (s : State) (c : Issue), Issues s c →
    ∃ lo hi : Nat → Nat, (Sends32 (.fmin num o) s c fun l => BitVec.ofNat 32 (lo l)) ∧ (Sends32 (.fmax num o) s c fun l => BitVec.ofNat 32 (hi l)) ∧ ∀ l,
      ((fval .fp32 (fltA o c l)).isNan = true → lo l = hi l ∧
        lo l = if num = true ∧ (fval .fp32 (fltB o c l)).isNan = false then fltB o c l else 0x7FC00000) ∧
      ((fval .fp32 (fltB o c l)).isNan = true → lo l = hi l ∧
        lo l = if num = true ∧ (fval .fp32 (fltA o c l)).isNan = false then fltA o c l else 0x7FC00000) ∧
      ((fval .fp32 (fltA o c l)).isNan = false → (fval .fp32 (fltB o c l)).isNan = false →
        (lo l = fltA o c l ∨ lo l = fltB o c l) ∧ (hi l = fltA o c l ∨ hi l = fltB o c l)) ∧
      ((fval .fp32 (fltA o c l)).finite = true → (fval .fp32 (fltB o c l)).finite = true →
        (fval .fp32 (lo l)).rat = min (fval .fp32 (fltA o c l)).rat (fval .fp32 (fltB o c l)).rat ∧
        (fval .fp32 (hi l)).rat = max (fval .fp32 (fltA o c l)).rat (fval .fp32 (fltB o c l)).rat))

/-- The packed forms compute each half by itself, low half from low halves and high half from high halves: the exact sum, product, or
product and sum of the prepared halves, rounded once to the half's format; an immediate supplies both halves of operand b (R258,
R311). -/
def Obligations.PackedHalvesAreIndependent : Prop :=
  ∀ (bf : Bool) (o : FltOp) (s : State) (c : Issue), Issues s c →
    let f : Fmt := if bf then .bf16 else .fp16
    let half (absx negx : Bool) (x h : Nat) : Exact := (fval f (prepare f o.ftz absx negx (x / 2 ^ (16 * h) % 65536))).exact
    let pa (l h : Nat) : Exact := half o.absA o.negA (c.w32 .a l).toNat h
    let pb (l h : Nat) : Exact := half o.absB o.negB (match o.imm with | some x => x.toNat % 65536 * 65537 | none => (c.w32 .b l).toNat) h
    let pc (l h : Nat) : Exact := half o.absC o.negC (c.w32 .c l).toNat h
    let round (x : Exact) : BitVec 16 := BitVec.ofNat 16 (x.code f (fltMode o) o.ftz false)
    ∃ add mul fma : Nat → Word, Sends32 (.hadd2 bf o) s c add ∧ Sends32 (.hmul2 bf o) s c mul ∧ Sends32 (.hfma2 bf o) s c fma ∧
      ∀ l h, h < 2 →
        (add l).extractLsb' (16 * h) 16 = round ((pa l h).add o.rnd (pb l h)) ∧
        (mul l).extractLsb' (16 * h) 16 = round ((pa l h).mul (pb l h)) ∧
        (fma l).extractLsb' (16 * h) 16 = round (((pa l h).mul (pb l h)).add o.rnd (pc l h))

/-- The conversion forms. CVT and UNPACK send the element converted by R169 and R170 in the form's mode, placed as R318 says, UNPACK the
element that b names (R319, R323); CVT.SR converts with the random bits of port b, one value with all 32 or a pair with 16 each
(R320); PACK sends the converted elements of a and then b, in ascending order (R322). DSENC sends a byte whose value is nearest the
operand, of two such the one of lesser magnitude, and DSDEC the value of a byte in the destination format (R324, R325). SCALEQ sends the
exponent of the operand less that of the target's largest power of two, as an E8M0 byte, and QUANT the operand divided by its scale,
rounded to INT8 or encoded as DS8 (R326, R327). RNG sends, in each lane, the word of R172 for the context's seed, the instance's number,
the warp's number in its grid, the iteration, the instruction's index and the launch record's RNGW (R172, R321).
INT4 widened with .sat is sign-extended (log 50). -/
def Obligations.ConversionsAndRandomWords : Prop :=
  (∀ (o : CvtOp) (s : State) (c : Issue), Issues s c →
    let m : RMode := ⟨o.rnd, 0, 0⟩
    let conv (x : Nat) : Nat := convertExact o.src o.dst m o.ftz o.sat x
    let w := o.src.width
    let k := 32 / w
    let at_ (l j : Nat) : Nat := (if j < k then (c.w32 .a l).toNat else (c.w32 .b l).toNat) / 2 ^ (w * (j % k)) % 2 ^ w
    (Sends32 (.cvt o) s c fun l => placeResult o.dst (conv (c.w32 .a l).toNat)) ∧
    (o.dst.width = 32 → Sends32 (.cvtSr o) s c fun l =>
      BitVec.ofNat 32 (convertExact o.src o.dst ⟨.sr, (c.w32 .b l).toNat, 32⟩ o.ftz o.sat (c.w32 .a l).toNat)) ∧
    (o.dst.width < 32 → ∃ r : Nat → Word, Sends32 (.cvtSr o) s c r ∧ ∀ l j, j < 2 →
      (r l).extractLsb' (o.dst.width * j) o.dst.width = BitVec.ofNat o.dst.width (convertExact o.src o.dst
        ⟨.sr, (c.w32 .b l).toNat / 2 ^ (16 * j) % 2 ^ 16, 16⟩ o.ftz o.sat
        (if w = 32 then (if j = 0 then (c.w32 .a l).toNat else (c.w32 .ax l).toNat) else (c.w32 .a l).toNat / 2 ^ (w * j) % 2 ^ w))) ∧
    (∃ r : Nat → BitVec 128, exec (.pack o) s = .next (s.finish c (c.resN r)) ∧ ∀ l j, j < 2 * k → o.dst.width * (j + 1) ≤ 128 →
      (r l).extractLsb' (o.dst.width * j) o.dst.width = BitVec.ofNat o.dst.width (conv (at_ l j))) ∧
    (Sends32 (.unpack o) s c fun l => placeResult o.dst (conv ((c.w32 .a l).toNat / 2 ^ (w * ((c.w32 .b l).toNat % k)) % 2 ^ w))) ∧
    (∃ r : Nat → Word, Sends32 (.dsenc o) s c r ∧ ∀ l,
      let x := fval o.src (flushIn o.src o.ftz ((c.w32 .a l).toNat % 2 ^ w))
      (r l).toNat < 256 ∧ (x = .nan → r l = 0x77) ∧ (∀ n, x = .inf n → ds8Val (r l).toNat = if n then -128 else 128) ∧
      (x.finite = true → ∀ b, b < 256 → absRat (64 * x.rat - ds8Val (r l).toNat) ≤ absRat (64 * x.rat - ds8Val b) ∧
        (absRat (64 * x.rat - ds8Val (r l).toNat) = absRat (64 * x.rat - ds8Val b) → (ds8Val (r l).toNat).natAbs ≤ (ds8Val b).natAbs))) ∧
    (Sends32 (.dsdec o) s c fun l =>
      BitVec.ofNat 32 ((Exact.val false ((ds8Val ((c.w32 .a l).toNat % 256) : Rat) / 64)).code o.dst m false false)) ∧
    (Sends32 (.scaleq o) s c fun l =>
      let t := (c.w32 .b l).toNat % 16
      match fval o.src (flushIn o.src o.ftz ((c.w32 .a l).toNat % 2 ^ w)) with
      | .nan | .inf _ => 0xFF
      | .fin n v e => if t ≠ 7 ∧ t ≠ 9 then 0xFF else if v = 0 then 0x7F
        else BitVec.ofInt 32 (clampInt (ratLog2 (absRat (FVal.fin n v e).rat) - (if t = 7 then 6 else 0) + 127) 0 254)) ∧
    (∃ r : Nat → Word, Sends32 (.quant o) s c r ∧ ∀ l,
      let x := fval o.src (flushIn o.src o.ftz ((c.w32 .a l).toNat % 2 ^ w))
      let e := (c.w32 .b l).toNat % 256
      let scaled : Rat := x.rat * (2 : Rat) ^ (127 - (e : Int))
      (x.isNan = true ∨ e = 255 → r l = if o.dst = .int8 then 0 else 0x77) ∧
      (o.dst = .int8 → e ≠ 255 → x.finite = true → r l = BitVec.ofInt 32 (clampInt (roundWhole m scaled) (-128) 127)) ∧
      (o.dst = .int8 → e ≠ 255 → ∀ n, x = .inf n → r l = BitVec.ofInt 32 (if n then -128 else 127)) ∧
      (o.dst ≠ .int8 → e ≠ 255 → x.finite = true → (r l).toNat < 256 ∧ ∀ b, b < 256 →
        absRat (64 * scaled - ds8Val (r l).toNat) ≤ absRat (64 * scaled - ds8Val b) ∧
        (absRat (64 * scaled - ds8Val (r l).toNat) = absRat (64 * scaled - ds8Val b) → (ds8Val (r l).toNat).natAbs ≤ (ds8Val b).natAbs)) ∧
      (o.dst ≠ .int8 → e ≠ 255 → ∀ n, x = .inf n → ds8Val (r l).toNat = if n then -128 else 128))) ∧
  (∀ (w : Wd) (s : State) (c : Issue) (core slot itag : Nat) (wp : Warp) (i : Inst) (tm : Team) (x : Ctx), Issues s c →
    c.who = .warp core slot itag → s.warp? core slot = some wp → wp.inst? itag = some i → (s.core core).team? wp.team = some tm →
    s.ctx? wp.ctx = some x →
    Sends32 (.rng w) s c fun l => rngWord x.seed i.number wp.gwn i.iterNo c.idx tm.lrec.rngw l)

/-! ## Registers, token plumbing and successors -/

/-- MOVI sends IMM27 sign-extended to the width, or its second word, bits [31:0] of it in the .32 form; with a second word IMM27 is 0,
and in the .32 form bits [63:32] of the word too; MOVI.64 sends its low half to T0 and its high half to T1, and has no T2 or T3 (R281). That a
well-formed MOVI.64 has a second word is R263 (log 34). -/
def Obligations.MoviSendsItsImmediate : Prop :=
  ∀ (w : Wd) (imm : BitVec 27) (x : BitVec 64), (∀ (s : State) (c : Issue), Issues s c →
    (Sends32 (.movi w false imm none) s c fun _ => imm.signExtend 32) ∧ (Sends64 (.movi w true imm none) s c fun _ => imm.signExtend 64) ∧
    (Sends32 (.movi w false imm (some x)) s c fun _ => x.setWidth 32) ∧ (Sends64 (.movi w true imm (some x)) s c fun _ => x)) ∧
  ((Instr.movi w false imm (some x)).wellFormed = true → imm = 0 ∧ x.extractLsb' 32 32 = 0) ∧
  ((Instr.movi w true imm (some x)).wellFormed = true → imm = 0 ∧ w.ext = none) ∧
  (∀ f, (Instr.movi w true imm (some x)).form = some f → partOf f 0 = 0 ∧ partOf f 1 = 1 ∧ f.ext = ⟨none, none⟩)

/-- FAN copies its operand bit by bit, SEL takes a where the condition on c is not zero and b elsewhere, SINK sends nothing (R280,
R282, R283). -/
def Obligations.FanSelectAndSink : Prop :=
  ∀ (w : Wd) (s : State) (c : Issue), Issues s c →
    Sends32 (.fan w false) s c (c.w32 .a) ∧ Sends64 (.fan w true) s c (c.w64 .a .ax) ∧
    (Sends32 (.sel w false) s c fun l => if c.w32 .c l ≠ 0 then c.w32 .a l else c.w32 .b l) ∧
    (Sends64 (.sel w true) s c fun l => if c.w32 .c l ≠ 0 then c.w64 .a .ax l else c.w64 .b .bx l) ∧
    SendsNothing (.sink w) s c

/-- GETR sends the register its instance sees: in a warp, with no token awaited and no older iteration to wait for, what
State.getrWarp gives, and any error in the warp's registers is reported (R106); a warp's only iteration, which keeps nothing from an older
one, sees the warp's own registers: the lanes of vector register n (and n + 1 in the .64 form), or a scalar register, bits [31:0] and
[63:32] of it, in every lane; a control thread reads the scalar as it stands (R211, R277, R279). While the register awaits an engine
operation's token, GETR waits; the first GETR of a token register is the join that State.joinToken makes (R131, R260). SETR is buffered
in a warp until its instance commits, for the lanes of its firing mask; in a control thread it writes at once, all 64 bits, or bits [31:0]
and no others (R278, R279). -/
def Obligations.RegistersAreReadAndWritten : Prop :=
  (∀ (w : Wd) (w64 : Bool) (r : RegSpec) (s : State) (c : Issue), Issues s c →
    let t : State := if r.scalar then s.joinToken c.who r.num.toNat else s
    (s.tokenAwaited c.who r = true → Waits (.getr w w64 r) s) ∧
    (∀ core slot itag lo hi, c.who = .warp core slot itag → s.tokenAwaited c.who r = false →
      t.getrWarp c.who core slot itag w64 r = some (lo, hi) →
      exec (.getr w w64 r) s = .next ((t.senseWhere (some (t.ctxOf c.who, c.who.requester)) (· == .regs core slot)).finish c
        (if w64 then c.res64 fun l => joinHalves (lo.at l) (hi.at l) else c.res32 fun l => lo.at l))) ∧
    (∀ core slot itag wp i b, c.who = .warp core slot itag → s.tokensOf c.who = [] → s.warp? core slot = some wp →
      wp.insts = [i] → i.itag = itag → i.carried = [] → s.blockOf c.who = some b → (∀ e ∈ s.dev.soft ++ s.dev.hard, e ≠ .regs core slot) →
      (r.scalar = false → exec (.getr w w64 r) s = .next (s.finish c
        (if w64 then c.res64 fun l => joinHalves ((wp.v.getD r.num.toNat []).at l) ((wp.v.getD (r.num.toNat + 1) []).at l)
          else c.res32 fun l => (wp.v.getD r.num.toNat []).at l))) ∧
      (r.scalar = true → exec (.getr w w64 r) s = .next ((s.joinToken c.who r.num.toNat).finish c
          (if w64 then c.res64 fun _ => wp.s.getD r.num.toNat 0 else c.res32 fun _ => (wp.s.getD r.num.toNat 0).setWidth 32)))) ∧
    (∀ core x t, c.who = .ctl core x → r.scalar = true → s.ctl? core x = some t → s.tokensOf c.who = [] →
      exec (.getr w w64 r) s = .next ((s.joinToken c.who r.num.toNat).finish c
        (if w64 then c.res64 fun _ => t.s.getD r.num.toNat 0 else c.res32 fun _ => (t.s.getD r.num.toNat 0).setWidth 32)))) ∧
  (∀ (w : Wd) (w64 : Bool) (r : RegSpec) (s : State) (c : Issue), Issues s c →
    (c.inWarp → Buffers (.setr w w64 r) s c (.setr c.idx r w64 c.mask (c.port .a).val (c.port .ax).val) []) ∧
    (∀ core x t, c.who = .ctl core x → s.ctl? core x = some t → r.num.toNat < t.s.length →
      ∃ u, exec (.setr w w64 r) s = .next u ∧ ∃ v, u.ctl? core x = some v ∧ v.s.length = t.s.length ∧
        (∀ n, n ≠ r.num.toNat → v.s.getD n 0 = t.s.getD n 0) ∧
        v.s.getD r.num.toNat 0 = if w64 then joinHalves (c.w32 .a c.low) (c.w32 .ax c.low)
          else joinHalves (c.w32 .a c.low) (highHalf (t.s.getD r.num.toNat 0))))

/-- At a commit a SETR changes exactly the lanes of its mask of the vector registers it names; every other lane and register keeps
its value (R278). -/
def Obligations.RegisterWritesKeepOtherLanes : Prop :=
  ∀ (w : Warp) (r : RegSpec) (w64 : Bool) (mask : Mask) (lo hi : Lanes) (n l : Nat), r.scalar = false → l < 32 →
    n < w.v.length → r.num.toNat + 1 < w.v.length →
    ((w.writeReg r w64 mask lo hi).v.getD n []).at l =
      (if mask.getLsbD l ∧ n = r.num.toNat then lo.at l
       else if mask.getLsbD l ∧ w64 = true ∧ n = r.num.toNat + 1 then hi.at l else (w.v.getD n []).at l) ∧
    (w.writeReg r w64 mask lo hi).s = w.s

/-- The successor forms of a warp: each lane of the firing mask chooses its target and depth, buffered for the vote (R284 to
R287, R289 to R293). A target is the block's own address plus 8 times the offset. A control thread's first successor chooses where it goes when the block ends: BR and CALL their target, RET the address its
depth holds, EXIT nowhere; a second one, a RET at depth 0 and a call beyond depth 4 halt the thread with ILLEGAL_BLOCK before
the instruction (R196, R230). -/
def Obligations.SuccessorsChoose : Prop :=
  (∀ (w : Wd) (off off2 : BitVec 27) (s : State) (c : Issue) (b : RBlock), Issues s c → c.inWarp → s.blockOf c.who = some b →
    let to_ (o : BitVec 27) : DWord := BitVec.ofNat 64 b.addr + (o.signExtend 64) * 8
    let chooses (i : Instr) (f : Nat → Choice) : Prop := Buffers i s c (.choose c.idx (c.lanes.map fun l => (l, f l))) []
    (chooses (.br w off) fun _ => .goto (to_ off)) ∧
    (chooses (.brc w off off2) fun l => .goto (if c.w32 .a l ≠ 0 then to_ off else to_ off2)) ∧
    (chooses (.bri w) fun l => .goto (c.w64 .a .ax l)) ∧
    (chooses (.call w off off2) fun _ => .call (to_ off) (to_ off2)) ∧
    (chooses (.calli w off2) fun l => .call (c.w64 .a .ax l) (to_ off2)) ∧
    (chooses (.ret w) fun _ => .ret) ∧ (chooses (.exit w) fun _ => .exit) ∧
    (chooses (.loop w off2) fun l => .goto (if c.w32 .a l ≠ 0 then to_ 0 else to_ off2))) ∧
  (∀ (w : Wd) (off off2 : BitVec 27) (s : State) (c : Issue) (core x : Nat) (t : Ctl) (b : RBlock),
    Issues s c → c.who = .ctl core x → s.ctl? core x = some t → s.blockOf c.who = some b →
    let to_ (o : BitVec 27) : DWord := BitVec.ofNat 64 b.addr + (o.signExtend 64) * 8
    let stops (i : Instr) : Prop := exec i s = .next (s.haltCtl core x { code := .illegalBlock, mask := c.mask })
    (t.choice.isSome = true → stops (.br w off) ∧ stops (.call w off off2) ∧ stops (.ret w) ∧ stops (.exit w)) ∧
    (t.choice = none →
      exec (.br w off) s = .next ((s.modCtl core x fun t => { t with choice := some (some (to_ off).toNat), newDepth := t.depth, newRet := none }).finish c []) ∧
      exec (.exit w) s = .next ((s.modCtl core x fun t => { t with choice := some none, newDepth := t.depth, newRet := none }).finish c []) ∧
      (4 ≤ t.depth → stops (.call w off off2)) ∧
      (t.depth < 4 → exec (.call w off off2) s = .next ((s.modCtl core x fun t =>
        { t with choice := some (some (to_ off).toNat), newDepth := t.depth + 1, newRet := some (t.depth, to_ off2) }).finish c [])) ∧
      (t.depth = 0 → stops (.ret w)) ∧
      (t.depth ≠ 0 → exec (.ret w) s = .next ((s.modCtl core x fun t =>
        { t with choice := some (some (t.rets.getD (t.depth - 1) 0).toNat), newDepth := t.depth - 1, newRet := none }).finish c []))))

/-- TRAP records USER_TRAP with its code and the firing lanes in its instance, unless the instance skips its TRAPs; a control
thread halts before it, the trap escalated to its receiver (R207, R294, R423, R426). TRACE, TMASK and TRET of a warp are buffered until the block commits; a control thread's TRACE appends at once (R403, R404, R422,
R424). -/
def Obligations.TrapAndTraceForms : Prop :=
  (∀ (w : Wd) (code : BitVec 16) (s : State) (c : Issue), Issues s c →
    (∀ i, s.instOf c.who = some i → c.inWarp → i.skipTrap = false →
      Faults (.trap w code) s c { code := .userTrap, mask := c.mask, ucode := code.toNat }) ∧
    (∀ i, s.instOf c.who = some i → c.inWarp → i.skipTrap = true → SendsNothing (.trap w code) s c) ∧
    (∀ core x t, c.who = .ctl core x → s.ctl? core x = some t → t.skip = false →
      exec (.trap w code) s = .next ((s.haltCtl core x { code := .userTrap, mask := c.mask, ucode := code.toNat } true).modCtl core x
        fun t => { t with skip := true }))) ∧
  (∀ (w : Wd) (s : State) (c : Issue), Issues s c →
    (c.inWarp → Buffers (.trace w) s c (.trace c.idx (c.lowW .a)) [] ∧ Buffers (.tmaskMask w) s c (.tmask c.idx true) [] ∧
      Buffers (.tmaskUnmask w) s c (.tmask c.idx false) [] ∧ Buffers (.tret w) s c (.tret c.idx c.mask) []) ∧
    (∀ t, c.who.isCtl = true → s.traceAppend c.who (c.lowW .a) = .done t → exec (.trace w) s = .next (t.finish c [])))

/-! ## Memory forms -/

/-- A load that is not held by the order of its block and whose checks pass leaves a pending access, one entry for each lane that
fires, with what buffered stores forward to it, and is tried at once (R114, R330, R333, R336). LDRES does the same, under the checks
of an atomic access, for a word of 32 or 64 bits (R114, R330, R342). -/
def Obligations.LoadsLeaveAPendingAccess : Prop :=
  (∀ (sz : Sz) (o : MemOp) (s t : State) (c : Issue) (accs : List Access), Issues s c →
    s.held c false false = false → s.midCommit c.who.core = false →
    let p : Pend := { idx := c.idx, kind := .load sz.bytes, cls := o.cls, acq := acquireScope o, mask := c.mask, lanes := t.loadLanes c accs }
    let loads (i : Instr) : Prop := exec i s = .next ((t.startPend c p).tryPend c.who p)
    (s.checkAccess c .gl .read .load sz.bytes (memAddr o true c) (fun _ => true) false = .ok t accs → loads (.ld sz o)) ∧
    (s.checkAccess c .sp .read .load sz.bytes (memAddr o false c) (fun _ => true) false = .ok t accs → loads (.lds sz o)) ∧
    (s.checkAccess c .wn .read .load sz.bytes (memAddr o false c) (fun _ => true) false = .ok t accs → loads (.ldw sz o))) ∧
  (∀ (space : Space) (w64 : Bool) (o : MemOp) (s t : State) (c : Issue) (accs : List Access), Issues s c →
    s.held c true false = false → s.midCommit c.who.core = false →
    let n := if w64 then 8 else 4
    let p : Pend := { idx := c.idx, kind := .ldres n, cls := o.cls, acq := none, mask := c.mask
                      lanes := t.loadLanes c accs }
    s.checkAccess c space .atomic .atomic n (memAddr o (space == .gl) c) Place.notHost true = .ok t accs →
      exec (.ldres space w64 o) s = .next ((t.startPend c p).tryPend c.who p))

/-- A warp's store is buffered with the data of its lanes until the block commits, after the release that its order code asks for;
its checks, and nothing else, decide whether it fires (R114, R115, R330, R334, R336). A control thread's store is performed as it
executes, after its release (R196), once the mailbox buffer it goes to has an entry for it (R50). -/
def Obligations.StoresAreBufferedUntilCommit : Prop :=
  ∀ (sz : Sz) (o : MemOp) (s t : State) (c : Issue) (accs : List Access), Issues s c → s.held c false false = false →
    let e : Eff := .store c.idx o.cls (accs.map fun a => (a, storeData sz c a.lane)) (if o.order = .rel ∨ o.order = .acqrel then some o.scope else none)
    let stores (i : Instr) : Prop :=
      (c.inWarp → o.order = .rel ∨ o.order = .acqrel → exec i s = .next (((t.addEff c (.release c.idx o.scope 0b111)).addEff c e).finish c [])) ∧
      (c.inWarp → o.order = .none ∨ o.order = .acq → exec i s = .next ((t.addEff c e).finish c [])) ∧
      (∀ a u v, c.who.isCtl = true → accs = [a] → t.mailRoom [a.place] = true → t.releaseNow c.who o.order o.scope 0b111 = .done u →
        u.applyStore c.who c.idx o.cls (throughScope o) a (storeData sz c a.lane) = .done v → exec i s = .next (v.finish c []))
    (s.checkAccess c .gl .write .store sz.bytes (memAddr o true c) (fun _ => true) false = .ok t accs → stores (.st sz o)) ∧
    (s.checkAccess c .sp .write .store sz.bytes (memAddr o false c) (fun _ => true) false = .ok t accs → stores (.sts sz o)) ∧
    (s.checkAccess c .wn .write .store sz.bytes (memAddr o false c) (fun _ => true) false = .ok t accs → stores (.stw sz o))

/-- The scratchpad accesses of a control thread, at the operand plus the offset in its team's allocation, aligned and inside it, where no
error stands in the scratchpad: LDS reads its bytes and changes no byte of memory; STS writes its operand's bytes at once, little-endian, and every other byte of memory and every
register of the thread stays (R5, R45, R196, R328, R330, R333, R334). -/
def Obligations.ScratchpadAccessesOfAControlThread : Prop :=
  (∀ (sz : Sz) (o : MemOp) (s : State) (c : Issue) (core x : Nat) (t : Ctl) (tm : Team),
    Issues s c → c.who = .ctl core x → c.mask = 1 → s.ctl? core x = some t → s.teamOf c.who = some tm → s.midCommit core = false →
    (∀ e ∈ s.dev.soft ++ s.dev.hard, ∀ sec, e ≠ .spad core sec) →
    let a := (c.w32 .a 0 + o.off.signExtend 32).toNat
    a % sz.bytes = 0 → a + sz.bytes ≤ tm.lrec.spb →
    ∃ u p, exec (.lds sz o) s = .next u ∧ u.pend? c.who c.idx = some p ∧
      p.lanes.map (·.got) = [some (BitVec.ofNat 128 (bytesVal (s.peekN (.sp core (tm.spBase + a)) sz.bytes)))] ∧ ∀ q, u.peek q = s.peek q) ∧
  (∀ (sz : Sz) (o : MemOp) (s : State) (c : Issue) (core x : Nat) (t : Ctl) (tm : Team),
    Issues s c → c.who = .ctl core x → c.mask = 1 → s.ctl? core x = some t → s.teamOf c.who = some tm → o.order = .none →
    tm.spBase + tm.lrec.spb ≤ Config.spadBytes →
    let a := (c.w32 .a 0 + o.off.signExtend 32).toNat
    a % sz.bytes = 0 → a + sz.bytes ≤ tm.lrec.spb →
    ∃ u v, exec (.sts sz o) s = .next u ∧ u.ctl? core x = some v ∧ v.s = t.s ∧ v.flags = t.flags ∧
      (∀ k, k < sz.bytes → u.peek (.sp core (tm.spBase + a + k)) = (storeData sz c 0).extractLsb' (8 * k) 8) ∧
      (∀ d off, off < Config.spadBytes → (d ≠ core ∨ off < tm.spBase + a ∨ tm.spBase + a + sz.bytes ≤ off) →
        u.peek (.sp d off) = s.peek (.sp d off)) ∧
      (∀ d, u.peek (.dev d) = s.peek (.dev d)) ∧ (∀ vf h w, u.peek (.host vf h w) = s.peek (.host vf h w)) ∧
      ∀ d off, u.peek (.acc d off) = s.peek (.acc d off))

/-- A value-returning atomic and STCOND, the oldest of their warp and not held, with nothing to replay, checks passed and their
release made, leave for their places, one request for each lane (R138 to R140, R148, R149, R338, R339, R342). The requests of an atomic on scratchpad places: each lane's carries its place, its operation and its own operands, and the
instruction has a pending access with an entry for each lane (R138, R140). -/
def Obligations.AtomicsLeaveForTheirPlaces : Prop :=
  (∀ (op : AtomOp) (aw : AWidth) (wn w64 : Bool) (space : Space) (o : MemOp) (s t u : State) (c : Issue) (accs : List Access),
    Issues s c → s.held c true true = false → s.midCommit c.who.core = false → s.logged c = [] →
    t.releaseNow c.who o.order o.scope 0b111 = .done u →
    (aw = .w128 → s.casRecord c = none ∧ t.recordOverlapped c = 0) →
    (s.checkAccess c .gl .atomic .atomic aw.bytes (memAddr o true c) (fun p => supports op aw p && s.hostAtomics p) true = .ok t accs →
      exec (.atom op aw o) s = .next (u.startAtomic c o (some op) aw.bytes [] accs)) ∧
    (s.checkAccess c (if wn then .wn else .sp) .atomic .atomic aw.bytes (memAddr o false c) (supports op aw) true = .ok t accs →
      exec (.atoms op aw wn o) s = .next (u.startAtomic c o (some op) aw.bytes [] accs)) ∧
    (s.checkAccess c space .write .atomic (if w64 then 8 else 4) (memAddr o (space == .gl) c)
        Place.notHost true = .ok t accs →
      exec (.stcond space w64 o) s = .next (u.startAtomic c o none (if w64 then 8 else 4) [] accs))) ∧
  (∀ (s : State) (c : Issue) (o : MemOp) (op : Option AtomOp) (n : Nat) (accs : List Access), n = 4 ∨ n = 8 →
    (∀ a ∈ accs, ∃ core off, a.place = .sp core off) →
    ∀ a ∈ accs, ∃ r ∈ (s.startAtomic c o op n [] accs).reqs, r.core = c.who.core ∧
      r.kind = .atomic c.who c.idx a.lane a.place op n (wideOperand (n == 8) c .b .bx a.lane) (wideOperand (n == 8) c .c .cx a.lane) true)

/-- RED of a warp is buffered with its operands, a control thread's performed as it executes (R196, R341); PREF, with room for its
misses in the queue of its die (R71), changes no byte of memory and sends nothing (R337); FENCE of a warp acts as an acquire when it fires and leaves its release to the commit, and where an
acquire follows a release in the block it is made again after it (R126, R343); a control thread's FENCE makes its release, then its
acquire (R196). -/
def Obligations.RedPrefetchAndFence : Prop :=
  ∀ (op : AtomOp) (aw : AWidth) (o : MemOp) (w : Wd) (order : Order) (scope : Scope) (mask : BitVec 3) (s t : State) (c : Issue)
    (accs : List Access), Issues s c →
    (s.held c false false = false →
      s.checkAccess c .gl .atomic .atomic aw.bytes (memAddr o true c) (fun p => supports op aw p && s.hostAtomics p) false = .ok t accs →
      let v (a : Access) : BitVec 128 := wideOperand (aw == .w64) c .b .bx a.lane
      (c.inWarp → exec (.red op aw o) s = .next ((t.addEff c (.red c.idx op aw o.cls (accs.map fun a => (a, v a)))).finish c [])) ∧
      (∀ a u, c.who.isCtl = true → accs = [a] → t.applyRed c.who c.idx op o.cls a (v a) = .done u → exec (.red op aw o) s = .next (u.finish c []))) ∧
    (s.held c false false = false → (s.die (dieOf c.who.core)).missq.length + 32 ≤ 64 →
      ∃ u : State, exec (.pref o) s = .next (u.finish c []) ∧ u.mem = s.mem ∧ u.ctxs = s.ctxs ∧
      ∀ n sl, u.warp? n sl = s.warp? n sl) ∧
    (c.inWarp → s.held c true false = false →
      (order = .acq → s.fenceBefore c = false → exec (.fence w order scope mask) s = .next ((s.acquireActs c.who.core scope mask).finish c [])) ∧
      (order = .acq → s.fenceBefore c = true →
        exec (.fence w order scope mask) s = .next (((s.acquireActs c.who.core scope mask).addEff c (.acquire c.idx scope mask)).finish c [])) ∧
      (order = .rel → Buffers (.fence w order scope mask) s c (.release c.idx scope mask) []) ∧
      (order = .acqrel → exec (.fence w order scope mask) s =
        .next ((((s.acquireActs c.who.core scope mask).addEff c (.release c.idx scope mask)).addEff c (.acquire c.idx scope mask)).finish c []))) ∧
    (c.who.isCtl = true →
      (order = .acq → exec (.fence w order scope mask) s = .next ((s.acquireActs c.who.core scope mask).finish c [])) ∧
      (∀ u, s.releaseActs c.who.core (s.vfOf (s.ctxOf c.who)) scope mask = .done u →
        (order = .rel → exec (.fence w order scope mask) s = .next (u.finish c [])) ∧
        (order = .acqrel → exec (.fence w order scope mask) s = .next ((u.acquireActs c.who.core scope mask).finish c []))))

/-- A memory form with a misaligned address in some lane that fires faults MISALIGNED, its MASK the lanes concerned and its address
that of the lowest of them, before any other check (R330). -/
def Obligations.MisalignedAccessFaults : Prop :=
  ∀ (sz : Sz) (o : MemOp) (s : State) (c : Issue), Issues s c → s.held c false false = false → s.midCommit c.who.core = false →
    let gl (l : Nat) : Bool := (memAddr o true c l).toNat % sz.bytes != 0
    let sp (l : Nat) : Bool := (memAddr o false c l).toNat % sz.bytes != 0
    let f (m : Mask) (g : Bool) (acc : AccKind) : FaultInfo :=
      { code := .misaligned, mask := m, raddr := memAddr o g c (lowestLane m), acc := acc
        lanes := (lanesOf m).map fun l => { lane := l, raddr := memAddr o g c l } }
    (c.lanes.any gl = true → Faults (.ld sz o) s c (f (lanesWhere c.lanes gl) true .read) ∧ Faults (.st sz o) s c (f (lanesWhere c.lanes gl) true .write)) ∧
    (c.lanes.any sp = true → Faults (.lds sz o) s c (f (lanesWhere c.lanes sp) false .read) ∧
      Faults (.sts sz o) s c (f (lanesWhere c.lanes sp) false .write) ∧ Faults (.ldw sz o) s c (f (lanesWhere c.lanes sp) false .read) ∧
      Faults (.stw sz o) s c (f (lanesWhere c.lanes sp) false .write))

/-- A byte of device, host, scratchpad or accumulator memory reads as it was written, a byte anywhere else as before, and memories
keep their canonical form; a store to a frame that is being zeroed is dropped (R5, Table 3.4; the canonical form is the model's
own, log 7). -/
def Obligations.BytesReadAsWritten : Prop :=
  ∀ (s : State) (p q : Place) (b : BitVec 8),
    (∀ vf a w, p = .host vf a w → (s.poke p b).peek p = b) ∧ (∀ c o, p = .sp c o → (s.poke p b).peek p = b) ∧
    (∀ c o, p = .acc c o → (s.poke p b).peek p = b) ∧
    (∀ d, p = .dev d → s.zeroing (frameOf d) = false → (s.poke p b).peek p = b) ∧
    (∀ d, p = .dev d → s.zeroing (frameOf d) = true → s.poke p b = s) ∧
    (∀ c o d x, p = .sp c o → q = .sp d x → o < Config.spadBytes → x < Config.spadBytes → p ≠ q → (s.poke p b).peek q = s.peek q) ∧
    (∀ c o d, p = .sp c o → q = .dev d → (s.poke p b).peek q = s.peek q) ∧
    (∀ vf a w d, p = .host vf a w → q = .dev d → (s.poke p b).peek q = s.peek q) ∧
    (Memory.wf s.mem = true → Memory.wf (s.poke p b).mem = true)

/-! ## Barriers, flags, events and channels -/

/-- BAR buffers its warp's arrival; GBAR too in a team that is a gang's, and faults ILLEGAL_BLOCK in any other (R236, R344). The
named-barrier forms of a warp: on a barrier its team does not have they fault ILLEGAL_BLOCK; arrivals within the pledge are buffered, more
of them fault ILLEGAL_BLOCK; NBSYNC sends 0 and waits at its boundary, or 0x29 on a stranded barrier, where its arrivals are buffered alone;
NBWAIT goes on once the phase it waits for has completed, sends 0x29 on a stranded barrier, or faults BARRIER_STRANDED where nothing takes
its status, and waits otherwise (R240, R241, R345, R346). Arrivals of a party complete a named barrier's phase when the count reaches EXP,
and the pledges are renewed; a stranded barrier ignores them (R241, Table 10.4). -/
def Obligations.BarrierForms : Prop :=
  (∀ (w : Wd) (s : State) (c : Issue) (t : Team), Issues s c →
    (c.inWarp → Buffers (.bar w) s c (.bar c.idx) []) ∧
    (c.inWarp → s.teamOf c.who = some t → t.lrec.gang ≠ 0 → Buffers (.gbar w) s c (.gbar c.idx) []) ∧
    (s.teamOf c.who = some t → t.lrec.gang = 0 → Faults (.gbar w) s c { code := .illegalBlock, mask := c.mask })) ∧
  (∀ (w : Wd) (num : BitVec 6) (s : State) (core slot itag : Nat) (c : Issue) (b : NBar), Issues s c → c.who = .warp core slot itag →
    s.nbar? c.who num.toNat = some b →
    let a := (c.lowW .a).toNat
    let bad (i : Instr) : Prop := Faults i s c { code := .illegalBlock, mask := c.mask }
    (a / 65536 ≤ a % 65536 → Buffers (.nbjoin w num) s c (.nbjoin c.idx num.toNat (a % 65536) (a / 65536)) []) ∧
    (a % 65536 < a / 65536 → bad (.nbjoin w num)) ∧
    (b.mayArrive (.warp slot) (a % 65536) = true →
      Buffers (.nbarrive w num) s c (.nbarrive c.idx num.toNat (a % 65536)) [] ∧
      (b.stranded = true → Buffers (.nbsync w num) s c (.nbarrive c.idx num.toNat (a % 65536)) (c.status 0x29)) ∧
      (b.stranded = false → Buffers (.nbsync w num) s c (.nbsync c.idx num.toNat (a % 65536)) (c.status 0))) ∧
    (b.mayArrive (.warp slot) (a % 65536) = false → bad (.nbarrive w num) ∧ bad (.nbsync w num)) ∧
    (b.ph ≠ s.waitPhase c num.toNat b → Buffers (.nbwait w num) s c (.nbwaited c.idx num.toNat) (c.status 0)) ∧
    (b.ph = s.waitPhase c num.toNat b → b.stranded = true → (∃ t ∈ c.form.targets, t ≠ none) →
      Buffers (.nbwait w num) s c (.nbwaited c.idx num.toNat) (c.status 0x29)) ∧
    (b.ph = s.waitPhase c num.toNat b → b.stranded = true → (∀ t ∈ c.form.targets, t = none) →
      Faults (.nbwait w num) s c { code := .barrierStranded, mask := c.mask }) ∧
    (b.ph = s.waitPhase c num.toNat b → b.stranded = false → exec (.nbwait w num) s = .next (s.notePhase c b.ph))) ∧
  (∀ (w : Wd) (num : BitVec 6) (s : State) (c : Issue) (i : Instr), Issues s c → s.nbar? c.who num.toNat = none →
    i = .nbjoin w num ∨ i = .nbarrive w num ∨ i = .nbsync w num ∨ i = .nbwait w num → Faults i s c { code := .illegalBlock, mask := c.mask }) ∧
  (∀ (b : NBar) (p : Party) (n : Nat),
    (b.stranded = true → b.arrive p n = b) ∧
    (b.stranded = false → n ≠ 0 → b.cnt + n < b.exp → (b.arrive p n).cnt = b.cnt + n ∧ (b.arrive p n).ph = b.ph) ∧
    (b.stranded = false → n ≠ 0 → b.exp ≤ b.cnt + n → b.cnt + n < 2 * b.exp →
      (b.arrive p n).cnt = b.cnt + n - b.exp ∧ (b.arrive p n).ph = (b.ph + 1) % 2 ^ 32 ∧
      ∀ r ∈ (b.arrive p n).regs, r.left = r.pledge))

/-- WAITF goes on when its flag is clear, and the acquires of the operations bound to it are made; EVWAIT when its counter has
reached the target modulo 2^32, with an acquire, at .sys in a context of several devices and on a counter that a kick of the host has ever
raised (R467; log 53 says why ever); EVSIG of a warp is buffered, and a control thread's adds 1 to the counter after its
release (R131, R135, R347, R348, R467). -/
def Obligations.FlagsAndEvents : Prop :=
  ∀ (w : Wd) (num : BitVec 6) (s t : State) (c : Issue) (x : Ctx), Issues s c → s.ctx? (s.ctxOf c.who) = some x →
    ((s.flagsOf c.who).getD num.toNat 0 ≠ 0 → Waits (.waitf w num) s) ∧
    ((s.flagsOf c.who).getD num.toNat 0 = 0 → exec (.waitf w num) s = .next ((s.joinFlag c.who num.toNat).finish c [])) ∧
    ((x.events.getD num.toNat 0 - c.lowW .a).toNat < 2 ^ 31 → exec (.evwait w num) s =
      .next ((s.acquireActs c.who.core (if num.toNat ∈ x.kicked ∨ 1 < x.devices then .sys else .dev) 0b111).finish c [])) ∧
    (2 ^ 31 ≤ (x.events.getD num.toNat 0 - c.lowW .a).toNat → Waits (.evwait w num) s) ∧
    (c.inWarp → Buffers (.evsig w num) s c (.evsig c.idx num.toNat) []) ∧
    (∀ core y, c.who = .ctl core y → s.releaseActs core (s.vfOf y) (if 1 < x.devices then .sys else .dev) 0b111 = .done t →
      exec (.evsig w num) s = .next ((t.modCtx y fun q => { q with events := listMod q.events num.toNat (· + 1) }).finish c []))

/-- The channel forms. SEND of a warp buffers its entry; RECV takes the head entry, which stays reserved for its instance, and sends
it with the entry's mask, or waits on an empty channel; CHSTAT reports kind, depth and occupancy; CHRESIZE sends 1 for a channel that is
no FIFO, 2 for a depth of 0 or above 256, 3 where the pool has no room, and 0 otherwise: its depth is then reserved until a warp's block
commits, or until the channel of a control thread's resize is idle, which waits till then, judged once. Another kind of channel faults CHANNEL_FAULT (R218, R219, R349 to
R351). -/
def Obligations.ChannelForms : Prop :=
  ∀ (w : Wd) (num : BitVec 6) (s : State) (c : Issue) (t : Team), Issues s c → s.teamOf c.who = some t →
    let ch := t.chan num.toNat
    let d := (c.lowW .a).toNat
    let others := (s.core c.who.core).poolUsed - ch.reserved
    (c.inWarp → ch.kind = .fifo ∨ ch.kind = .sink → Buffers (.send w num) s c (.send c.idx num.toNat c.mask (c.port .a).val) []) ∧
    (ch.kind = .unused ∨ ch.kind = .source → Faults (.send w num) s c { code := .channelFault, mask := c.mask }) ∧
    (ch.kind = .unused ∨ ch.kind = .sink → Faults (.recv w num) s c { code := .channelFault, mask := c.mask }) ∧
    (ch.kind = .fifo ∨ ch.kind = .source → ch.items = [] → Waits (.recv w num) s) ∧
    (∀ core slot itag m v more, c.who = .warp core slot itag → ch.kind = .fifo ∨ ch.kind = .source → ch.items = (m, v) :: more →
      (∀ e ∈ s.dev.soft ++ s.dev.hard, e ≠ .pool core) →
      exec (.recv w num) s = .next (((s.modChanOf c.who num.toNat fun ch => (ch.take.map (·.2)).getD ch).modInst core slot itag fun i =>
        { i with taken := i.taken ++ [(num.toNat, c.mask, m, v)] }).finishMask c (c.mask &&& m) [v])) ∧
    exec (.chstat w num) s = .next (s.finish c (c.status ch.stat)) ∧
    (s.resizing c.who = none →
      (ch.kind = .unused → Faults (.chresize w num) s c { code := .channelFault, mask := c.mask }) ∧
      (ch.kind = .source ∨ ch.kind = .sink → exec (.chresize w num) s = .next (s.finish c (c.status 1))) ∧
      (ch.kind = .fifo → d = 0 ∨ 256 < d → exec (.chresize w num) s = .next (s.finish c (c.status 2))) ∧
      (ch.kind = .fifo → 0 < d → d ≤ 256 → 256 < others + d → exec (.chresize w num) s = .next (s.finish c (c.status 3))) ∧
      (ch.kind = .fifo → 0 < d → d ≤ 256 → others + d ≤ 256 →
        (c.inWarp → exec (.chresize w num) s = .next (((s.modChanOf c.who num.toNat fun ch => { ch with resizes := ch.resizes ++ [d] }).addEff c
          (.chresize c.idx num.toNat d)).finish c (c.status 0))) ∧
        (c.who.isCtl = true → ch.items ≠ [] ∨ ch.taken ≠ 0 → exec (.chresize w num) s = .next (s.reserveDepth c.who num.toNat d)))) ∧
    (∀ k, s.resizing c.who = some k → c.who.isCtl = true → ch.kind = .fifo →
      (ch.items ≠ [] ∨ ch.taken ≠ 0 → Waits (.chresize w num) s) ∧
      (ch.items = [] → ch.taken = 0 → ∃ u : State, exec (.chresize w num) s = .next (u.finish c (c.status 0)) ∧ u.resizing c.who = none ∧
        (u.chan c.who num.toNat).depth = k ∧ (u.chan c.who num.toNat).resizes = ch.resizes.erase k)) ∧
    (s.resizing c.who = none → c.who.isCtl = true → ch.kind = .fifo → 0 < d → d ≤ 256 → others + d ≤ 256 → ch.items = [] → ch.taken = 0 →
      ∃ u : State, exec (.chresize w num) s = .next (u.finish c (c.status 0)) ∧ u.resizing c.who = none ∧
        (u.chan c.who num.toNat).depth = d)

/-! ## Engine operations and the matrix path -/

/-- The engine forms with a parameter block: COPY, COPY2D, TCOPY, GATH, SCAT, FILL, STREAM, ISTREAM, both HANDOFF forms, MXLOAD and the
seven COLL forms, which `blockKind` names. One faults MISALIGNED when some lane's address is no multiple of 64; a warp's is buffered with
the operands of its lowest lane; COLL whose block translates and names a handle that is FREE or DEAD faults COMM_DEAD at its firing (R353,
R355, R380, R381). A control thread issues an engine form with a parameter block at once, when it issues no other, its accesses have
answered, and its flag, its queue, its release and its preparation allow it: the operation is entered, bound, prepared and held by its
team, and the thread goes on (R130, R353 to R355, R358). -/
def Obligations.EngineFormsAreBufferedOrIssued : Prop :=
  (∀ (i : Instr) (kind : EngKind) (e : EngForm) (s : State) (c : Issue), blockKind i = some (kind, e) → Issues s c →
    let mis (l : Nat) : Bool := (c.w64 .a .ax l).toNat % 64 != 0
    (c.lanes.any mis = true →
      Faults i s c { code := .misaligned, mask := lanesWhere c.lanes mis, raddr := c.w64 .a .ax (lowestLane (lanesWhere c.lanes mis)) }) ∧
    (c.lanes.any mis = false → (kind.isColl = true → ∃ t accs, s.collDead c = .ok t accs) → c.inWarp →
      Buffers i s c (.engine c.idx (blockReq kind e c)) []) ∧
    (∀ t p, c.lanes.any mis = false → kind.isColl = true → s.translate c.who.core (s.ctxOf c.who) (c.lowD .a .ax + 16) .read = (t, .ok p) →
      let word := bytesVal (t.engGet c.who.core (some (s.ctxOf c.who, c.who.requester)) p 8).2
      let st := (t.handle (s.ctxOf c.who) (word / 2 ^ 42 % 16)).st
      (st = .free ∨ st = .dead → Faults i s c { code := .commDead, mask := c.mask }) ∧
      (st = .forming ∨ st = .ready → c.inWarp → Buffers i s c (.engine c.idx (blockReq kind e c)) []))) ∧
  (∀ (i : Instr) (kind : EngKind) (e : EngForm) (s t u : State) (c : Issue) (core x : Nat) (res : Except EngStop (EngOp × Option Nat)),
    blockKind i = some (kind, e) → Issues s c → c.who = .ctl core x → (c.lanes.any fun l => (c.w64 .a .ax l).toNat % 64 != 0) = false →
    (kind.isColl = true → ∃ v accs, s.collDead c = .ok v accs) → IssuesNow s c.who (blockReq kind e c) t u res →
    let id := (t.core core).nextOp
    let v := u.issuedOp c.who id res
    exec i s = .next ((if kind = .mxload then v.leaveQueue core id x else v).finish c []))

/-- STRMCTL: a generator number above 7 sends 3, a generator without a STREAM of the context 1, an action its state forbids 2; START,
PAUSE and RESUME move the stream as Table 16.8 says, CANCEL ends it with status 5, at once where no mailbox store of it is on its way
(R357), and they send 0 (R366). -/
def Obligations.StreamControlFollowsTheTable : Prop :=
  ∀ (w : Wd) (s : State) (c : Issue), Issues s c →
    let core := c.who.core
    let x := (c.lowW .a).toNat
    let tells (i : Instr) (n : Nat) : Prop := exec i s = .next (s.finish c (c.status n))
    (8 ≤ x → tells (.strmctlStart w) 3 ∧ tells (.strmctlPause w) 3 ∧ tells (.strmctlResume w) 3 ∧ tells (.strmctlCancel w) 3) ∧
    (x < 8 → (s.core core).gens.getD x none = none →
      tells (.strmctlStart w) 1 ∧ tells (.strmctlPause w) 1 ∧ tells (.strmctlResume w) 1 ∧ tells (.strmctlCancel w) 1) ∧
    (∀ (st : Stream) (o : EngOp), x < 8 → (s.core core).gens.getD x none = some st → (s.core core).op? st.op = some o →
      o.ctx = s.ctxOf c.who → o.req.kind = .stream →
      let moves (i : Instr) (n : StreamSt) : Prop := exec i s = .next ((s.putGen core x (some { st with st := n })).finish c (c.status 0))
      (st.st = .loaded → moves (.strmctlStart w) .running) ∧ (st.st ≠ .loaded → tells (.strmctlStart w) 2) ∧
      (st.st = .running → moves (.strmctlPause w) .paused) ∧ (st.st ≠ .running → tells (.strmctlPause w) 2) ∧
      (st.st = .paused → moves (.strmctlResume w) .running) ∧ (st.st ≠ .paused → tells (.strmctlResume w) 2) ∧
      exec (.strmctlCancel w) s = .next ((s.cancelStream core o).finish c (c.status 0)) ∧
      (s.mailOut core o.id = false → exec (.strmctlCancel w) s = .next ((s.finishOp core o.id 5).finish c (c.status 0))))

/-- MXCFG takes a free path for its context, and waits while another context holds it; its release form has no effect for a context
that does not hold the path; MXSTAT of such a context sends 0; MXFEED, MXFEEDS, MXZERO and MXDRAIN fault MX_STATE for it (R223, R369,
R370, R372, R373, R375 to R377). -/
def Obligations.MatrixPathHasOneHolder : Prop :=
  ∀ (arr : MxArr) (w : Wd) (e : EngForm) (o : CvtOp) (s : State) (c : Issue), Issues s c →
    let core := c.who.core
    let x := s.ctxOf c.who
    let faults (i : Instr) : Prop := Faults i s c { code := .mxState, mask := c.mask }
    ((s.core core).mx.holder = none → (s.core core).mx.queue = [] →
      exec (.mxcfg arr w) s = .next ((s.modCore core fun k => { k with mx := { k.mx with holder := some x } }).issueForm c
        (plainReq (.mxcfg arr) 0 0 0 .warp none false))) ∧
    (∀ y, (s.core core).mx.holder = some y → y ≠ x → Waits (.mxcfg arr w) s) ∧
    ((s.core core).mx.holder ≠ some x → SendsNothing (.mxcfgRelease w) s c ∧
      exec (.mxstat w) s = .next (s.finish c (c.status 0)) ∧
      faults (.mxfeed w) ∧ faults (.mxfeeds e) ∧ faults (.mxzero w) ∧ faults (.mxdrain o))

/-- The matrix forms of the path's holder. A warp's MXFEEDS is buffered, and a control thread's MXFEEDS and MXMUL are issued when its flag,
its queue, its release and their preparation allow it (R353, R373, R374); a control thread's MXCFG and its release enter the end of the
matrix queue, or wait while 32 operations are there, bind no flag and make no release (R354, R369, R370). MXZERO's rows are buffered, or
zeroed by a control thread once the queue is empty, and a row beyond the arrangement, or a reserved bit, faults MX_STATE (R375). MXFEED reserves its row part
and buffers its row, waits for a slot, and faults FORMAT_DIVERGENCE for words that differ among its lanes, MX_STATE for a malformed word or a
part that does not match its slot (R225, R372). MXDRAIN of a legal position, not held by an acquire of lower index (R122), with no error in the core's accumulators, sends in each lane its
elements converted and packed, and faults MX_STATE for an illegal one (R376); MXSTAT sends its word (R377).
A stochastic MXDRAIN takes the random word of the lowest lane (R353, log 42). -/
def Obligations.MatrixFormsOfTheHolder : Prop :=
  (∀ (arr : MxArr) (w : Wd) (e : EngForm) (o : CvtOp) (s : State) (c : Issue), Issues s c →
    (s.core c.who.core).mx.holder = some (s.ctxOf c.who) → (s.core c.who.core).mx.arr = some arr →
    let core := c.who.core
    let a0 := (c.lowW .a).toNat
    let faults (i : Instr) : Prop := Faults i s c { code := .mxState, mask := c.mask }
    let fw := c.lowW .b
    let row := ((s.core core).mx.slots.getD (fwSlot fw) default).take (fwFmt fw) (fwEa fw) (fwPart fw)
    let agree : Prop := ∀ l ∈ c.lanes, c.w32 .b l = fw
    (c.inWarp → Buffers (.mxfeeds e) s c
      (.engine c.idx (plainReq .mxfeeds ((c.lowW .a).setWidth 64) (c.lowW .b) (c.lowW .c) e.scope e.tok e.wd.fsel)) []) ∧
    (a0 < 65536 → a0 % 256 + a0 / 256 + 1 ≤ (arrangement arr).rows →
      (c.inWarp → Buffers (.mxzero w) s c (.mxzero c.idx (a0 % 256) (a0 / 256 + 1)) []) ∧
      (c.who.isCtl = true → (s.core core).mx.queue = [] →
        exec (.mxzero w) s = .next ((s.zeroRows core (arrangement arr) (a0 % 256) (a0 / 256 + 1)).finish c [])) ∧
      (c.who.isCtl = true → (s.core core).mx.queue ≠ [] → Waits (.mxzero w) s)) ∧
    (65536 ≤ a0 ∨ (arrangement arr).rows < a0 % 256 + a0 / 256 % 256 + 1 → faults (.mxzero w)) ∧
    (¬ agree → Faults (.mxfeed w) s c { code := .formatDivergence, mask := c.mask }) ∧
    (agree → fwBad fw = true → faults (.mxfeed w)) ∧
    (agree → fwBad fw = false → row = .refuse → faults (.mxfeed w)) ∧
    (agree → fwBad fw = false → row = .wait → Waits (.mxfeed w) s) ∧
    (agree → fwBad fw = false → row = .take →
      exec (.mxfeed w) s = .next (((s.modCore core fun k => { k with mx := { k.mx with slots := listMod k.mx.slots (fwSlot fw) fun q =>
        { q with hold := q.hold ++ [(fwPart fw, fwFmt fw, fwEa fw)] } } }).addEff c
        (.mxfeed c.idx (fwSlot fw) (fwPart fw) (fwFmt fw) (fwEa fw) (c.rowPart (fwFmt fw)))).finish c [])) ∧
    (drainOk o (arrangement arr) a0 = false → faults (.mxdrain o)) ∧
    (drainOk o (arrangement arr) a0 = true → s.held c false false = false → (∀ e ∈ s.dev.soft ++ s.dev.hard, ∀ sec, e ≠ .acc core sec) →
      ∃ r : Nat → Word, Sends32 (.mxdrain o) s c r ∧ ∀ l j, j < 32 / o.dst.width →
        let k := 32 / o.dst.width
        let rb := (c.lowW .b).toNat
        let m : RMode := if o.rnd = .sr then (if k = 1 then ⟨.sr, rb, 32⟩ else ⟨.sr, rb / 2 ^ (16 * j) % 2 ^ 16, 16⟩) else ⟨o.rnd, 0, 0⟩
        (r l).extractLsb' (o.dst.width * j) o.dst.width = BitVec.ofNat o.dst.width
          (convertExact .fp32 o.dst m o.ftz o.sat (s.accOf core (a0 % 128 * (arrangement arr).n + a0 / 128 % 2048 + k * l + j)))) ∧
    (exec (.mxstat w) s = .next (s.finish c (c.status (s.mxstat core (s.ctxOf c.who)))))) ∧
  (∀ (e : EngForm) (s t u : State) (c : Issue) (core x : Nat) (res : Except EngStop (EngOp × Option Nat)), Issues s c →
    c.who = .ctl core x → (s.core core).mx.holder = some x →
    let id := (t.core core).nextOp
    let mul := plainReq .mxmul ((c.lowW .a).setWidth 64) (c.lowW .b) 0 e.scope e.tok e.wd.fsel
    let feeds := plainReq .mxfeeds ((c.lowW .a).setWidth 64) (c.lowW .b) (c.lowW .c) e.scope e.tok e.wd.fsel
    (IssuesNow s c.who mul t u res → exec (.mxmul e) s = .next (((u.issuedOp c.who id res).leaveQueue core id x).finish c [])) ∧
    (IssuesNow s c.who feeds t u res → exec (.mxfeeds e) s = .next ((u.issuedOp c.who id res).finish c []))) ∧
  (∀ (a : MxArr) (w : Wd) (s : State) (c : Issue) (core x : Nat) (i : Instr), Issues s c → c.who = .ctl core x →
    (s.core core).mx.holder = some x → s.issuingOp c.who = none → i = .mxcfg a w ∨ i = .mxcfgRelease w →
    (32 ≤ (s.core core).mx.queue.length → Waits i s) ∧
    ((s.core core).mx.queue.length < 32 → ∃ u : State, exec i s = .next (u.finish c []) ∧
      (u.core core).mx.queue = (s.core core).mx.queue ++ [(s.core core).nextOp] ∧ (u.core core).nextOp = (s.core core).nextOp + 1 ∧
      u.flagsOf c.who = s.flagsOf c.who))

/-- COMMNEW with a readable parameter block sends 0x100 where no handle is free, 0x101 for a malformed block or member table, and
otherwise the number of the lowest free handle: a warp's is reserved and joins at commit, a control thread's joins at once (R378). COMMFREE
of a free handle sends 1, of another 0: a warp's frees it at commit, a control thread's once no COLL on it is outstanding, and it waits until
then; COMMSTAT sends the handle's state and open collectives (R379). -/
def Obligations.CommunicatorForms : Prop :=
  ∀ (w : Wd) (s t u : State) (c : Issue) (ws : List DWord) (bs : List (BitVec 8)) (h : Nat) (x : Ctx), Issues s c →
    let n := blkF ws 1 31 0
    let y := s.ctxOf c.who
    let members := memberPairs n (dwords (2 * n) bs)
    let tells (i : Instr) (t : State) (v : Nat) : Prop := exec i s = .next (t.finish c (c.status v))
    let a := (c.lowW .a).toNat
    (s.readBlock c (c.lowD .a .ax) = .ok t ws → t.ctx? y = some x →
      (x.freeHandle = none → tells (.commnew w) t 0x100) ∧
      (x.freeHandle = some h → commBad ws = true → tells (.commnew w) t 0x101) ∧
      (x.freeHandle = some h → commBad ws = false → t.readPieces c 16 n (blkW ws 2) = .ok u bs → membersBad members = true →
        tells (.commnew w) u 0x101) ∧
      (x.freeHandle = some h → commBad ws = false → t.readPieces c 16 n (blkW ws 2) = .ok u bs → membersBad members = false →
        BuffersOrDoes (.commnew w) s u c (.commnew c.idx h (blkW ws 0) n (blkF ws 1 63 32) members) (c.status h)
          (fun s => s.modHandle y h fun q => { q with st := .reserved }) (fun s => s.joinComm y h (blkW ws 0) n (blkF ws 1 63 32) members))) ∧
    ((s.handle y a).st = .free → tells (.commfree w) s 1) ∧
    ((s.handle y a).st ≠ .free → (c.who.isCtl = true → (s.handle y a).open_ = 0) →
      BuffersOrDoes (.commfree w) s s c (.commfree c.idx a) (c.status 0) id (fun s => s.freeHandle y a)) ∧
    ((s.handle y a).st ≠ .free → c.who.isCtl = true → (s.handle y a).open_ ≠ 0 → Waits (.commfree w) s) ∧
    tells (.commstat w) s (s.handle y a).stat

/-! ## Launches and contexts -/

/-- LAUNCH: a record address that is no multiple of 128 faults MISALIGNED; a queue number beyond 63 sends status 2, one beyond the
context's queues 0x10, and a queue with 256 grids 0x41, each with some sequence number (free, log 23), or, when nothing takes the status,
halts a control thread with QUEUE_FULL and defers it to a warp's commit; otherwise the next number of the queue is sent, a warp's launch reserved and buffered, a control thread's
made at once after its release. LSTAT sends 5 for what its queue does not know, and acquires before it reports DONE or KILLED (R387, R388,
Table 17.3). -/
def Obligations.LaunchReservesTheNextNumber : Prop :=
  ∀ (w : Wd) (s : State) (c : Issue) (x : Ctx), Issues s c → s.ctx? (s.ctxOf c.who) = some x →
    let va := c.w64 .a .ax c.low
    let q := (c.lowW .b).toNat
    let u := x.queues.getD q default
    let ql := (c.lowW .a).toNat
    let core := c.who.core
    let refused (n : Nat) : Prop := ∃ seq, seq < 2 ^ 24 ∧ exec (.launch w) s = .next ({ s with free := s.free + 1 }.finish c (c.status (seq * 256 + n)))
    (va.toNat % 128 ≠ 0 → Faults (.launch w) s c { code := .misaligned, mask := c.mask, raddr := va }) ∧
    (va.toNat % 128 = 0 → 64 ≤ q → refused 2) ∧
    (va.toNat % 128 = 0 → q < 64 → x.queueCount ≤ q → refused 0x10) ∧
    (va.toNat % 128 = 0 → q < 64 → q < x.queueCount → 256 ≤ u.load → (∃ t ∈ c.form.targets, t ≠ none) → refused 0x41) ∧
    (va.toNat % 128 = 0 → q < 64 → q < x.queueCount → 256 ≤ u.load → (∀ t ∈ c.form.targets, t = none) →
      (c.inWarp → Buffers (.launch w) s c (.launchFull c.idx) []) ∧
      (c.who.isCtl = true → Faults (.launch w) s c { code := .queueFull, mask := c.mask })) ∧
    (va.toNat % 128 = 0 → q < 64 → q < x.queueCount → u.load < 256 →
      TakesEffect (.launch w) s s c (if x.devIdx core = x.queueDev q then .dev else .sys) (.launch c.idx q u.next va)
        (c.status (u.next % 2 ^ 24 * 256)) (fun s => s.reserveGrid (s.ctxOf c.who) q)
        (fun v => v.launchNow c.who q u.next va)) ∧
    (64 ≤ ql ∨ 2 ^ 24 ≤ q ∨ x.queueCount ≤ ql → exec (.lstat w) s = .next (s.finish c (c.status 5))) ∧
    (ql < 64 → q < 2 ^ 24 → ql < x.queueCount →
      exec (.lstat w) s = .next ((if (x.queues.getD ql default).stat q = 2 ∨ (x.queues.getD ql default).stat q = 4 then
        s.acquireActs core (if x.devIdx core = x.queueDev ql then .dev else .sys) 0b111 else s).finish c (c.status ((x.queues.getD ql default).stat q))))

/-- CTXNEW at depth 3 sends 0xFFFF_000B; a malformed block 0xFFFF_0002, a core that is not the caller's or named twice 0xFFFF_000D, a mode
of R28 0xFFFF_0006, a request above the caller's grant 0xFFFF_0003, and no free index 0xFFFF_000C. Otherwise the grant is reserved and
the child's identifier sent, its generation over its index; the child is created when the warp's block commits, or at once in a control
thread (R384, R386, R389). CTXGRANT and CTXREVOKE on an identifier that names no live child of the caller send status 1, and wait for
the child's control lock; on a child whose block and lists are legal they lock the child, are buffered, and send 0, or are made at once
in a control thread (R386, R390, R391). -/
def Obligations.ContextsAreCreatedGrantedAndRevoked : Prop :=
  (∀ (w : Wd) (s t u : State) (c : Issue) (x : Ctx) (ws : List DWord) (l cores : List Nat) (i : Nat), Issues s c →
    s.ctx? (s.ctxOf c.who) = some x →
    let g := { grantParams ws with cores }
    let y := s.ctxOf c.who
    let tells (t : State) (n : Nat) : Prop := exec (.ctxnew w) s = .next (t.finish c (c.status n))
    (3 ≤ x.depth → tells s 0xFFFF000B) ∧
    (x.depth < 3 → s.readBlock c (c.lowD .a .ax) = .ok t ws →
      (t.grantBad x ws false = true → tells t 0xFFFF0002) ∧
      (t.grantBad x ws false = false → t.readCores c (blkF ws 5 31 16) (blkW ws 4) = .ok u l →
        (x.physCores l = none → tells u 0xFFFF000D) ∧
        (x.physCores l = some cores → modeBad g = true → tells u 0xFFFF0006) ∧
        (x.physCores l = some cores → modeBad g = false → u.overGrant x 0 g = true → tells u 0xFFFF0003) ∧
        (x.physCores l = some cores → modeBad g = false → u.overGrant x 0 g = false → u.freeIndex = none → tells u 0xFFFF000C) ∧
        (x.physCores l = some cores → modeBad g = false → u.overGrant x 0 g = false → u.freeIndex = some i →
          TakesEffect (.ctxnew w) s u c (if ∃ k ∈ cores, x.devIdx k ≠ x.devIdx c.who.core then .sys else .dev) (.ctxnew c.idx i g)
            (c.status (tabGet 0 i u.gens * 65536 + i)) (fun v => v.holdGrant y i c.who g) (fun v => .done (v.createChild y i g)))))) ∧
  (∀ (w : Wd) (s t u : State) (c : Issue) (x k : Ctx) (ws : List DWord) (l cores : List Nat), Issues s c →
    s.ctx? (s.ctxOf c.who) = some x →
    let id := c.lowW .b
    let y := s.ctxOf c.who
    let g := { grantParams ws with cores }
    let fr := blkF ws 1 63 32
    let r : RevokeParams := { cores, nq := blkF ws 1 6 0, frames := if fr = 0xFFFFFFFF then none else some fr, rbase := blkW ws 2, rsize := blkW ws 3, cwaddr := ws.getD 4 0 }
    (s.descendantById y id = none →
      exec (.ctxgrant w) s = .next (s.finish c (c.status 1)) ∧ exec (.ctxrevoke w) s = .next (s.finish c (c.status 1))) ∧
    (s.descendantById y id = some k → k.parent = some y → k.st ≠ .killing →
      (s.lockFree k.idx c.who = false → Waits (.ctxgrant w) s ∧ Waits (.ctxrevoke w) s) ∧
      (s.lockFree k.idx c.who = true → s.readBlock c (c.lowD .a .ax) = .ok t ws → x.physCores l = some cores →
        (t.grantBad x ws true = false → t.readCores c (blkF ws 5 31 16) (blkW ws 4) = .ok u l → u.regrantStatus x k g = .done →
          TakesEffect (.ctxgrant w) s u c (if ∃ n ∈ cores, x.devIdx n ≠ x.devIdx c.who.core then .sys else .dev) (.ctxgrant c.idx k.idx g)
            (c.status 0) (fun v => (v.holdGrant y k.idx c.who g).takeLock k.idx c.who) (fun v => .done (v.applyGrant k.idx g))) ∧
        (revokeBad k ws = false → t.readCores c (blkF ws 1 31 16) (blkW ws 0) = .ok u l → cores.all k.cores.contains = true →
          k.devicesOn (k.cores.filter fun y => !cores.contains y) ≤ blkF ws 1 6 0 → blkF ws 1 6 0 ≤ k.nq → k.revoke = none →
          BuffersOrDoes (.ctxrevoke w) s u c (.ctxrevoke c.idx k.idx r) (c.status 0) (fun v => v.takeLock k.idx c.who)
            (fun v => v.applyRevoke y k.idx r)))))

/-- CTXKILL and the two CTXRUN forms on an identifier that names no live descendant send status 1, on one being killed 0xA, and wait for the
target's control lock. CTXKILL, and a resume or reflect of a halt the caller holds, lock the target, are buffered and send 0, or are made at
once in a control thread; CTXKILL's completion word must be aligned to 8 bytes. CTXSTAT of an unknown identifier sends all ones (R386, R392 to R395,
Table 17.3). -/
def Obligations.KillRunAndStatActOnDescendants : Prop :=
  ∀ (w : Wd) (s : State) (c : Issue) (x k : Ctx), Issues s c → s.ctx? (s.ctxOf c.who) = some x →
    let id := c.lowW .a
    let y := s.ctxOf c.who
    let b := (c.lowW .b).toNat
    let v := (c.lowW .c).toNat
    let cw := c.w64 .b .bx c.low
    let tells (i : Instr) (n : Nat) : Prop := exec i s = .next (s.finish c (c.status n))
    let lock (u : State) : State := u.takeLock k.idx c.who
    let scope : Scope := if ∃ n ∈ k.cores, x.devIdx n ≠ x.devIdx c.who.core then .sys else .dev
    (cw.toNat % 8 ≠ 0 → Faults (.ctxkill w) s c { code := .misaligned, mask := c.mask, raddr := cw }) ∧
    (s.descendantById y id = none → (cw.toNat % 8 = 0 → tells (.ctxkill w) 1) ∧ tells (.ctxrunResume w) 1 ∧
      tells (.ctxrunReflect w) 1 ∧ (id ≠ 0 → tells (.ctxstat w) 0xFFFFFFFF)) ∧
    (id = 0 → tells (.ctxstat w) (s.ctxStat x b)) ∧
    (s.descendantById y id = some k →
      (k.st = .killing → (cw.toNat % 8 = 0 → tells (.ctxkill w) 0xA) ∧ tells (.ctxrunResume w) 0xA ∧ tells (.ctxrunReflect w) 0xA) ∧
      (k.st ≠ .killing → s.lockFree k.idx c.who = false →
        (cw.toNat % 8 = 0 → Waits (.ctxkill w) s) ∧ Waits (.ctxrunResume w) s ∧ Waits (.ctxrunReflect w) s) ∧
      (k.st ≠ .killing → s.lockFree k.idx c.who = true →
        (cw.toNat % 8 = 0 → BuffersOrDoes (.ctxkill w) s s c (.ctxkill c.idx k.idx k.id cw) (c.status 0) lock (fun u => u.startKill k.idx (some y) cw)) ∧
        (s.resumeStatus y k b = .done → TakesEffect (.ctxrunResume w) s s c scope (.resume c.idx k.idx b) (c.status 0) lock
          (fun u => .done (if b = 0 then u.startCtx k.idx else u.resumeHalts y k.idx b))) ∧
        (s.reflectStatus y k b v = .done → TakesEffect (.ctxrunReflect w) s s c scope (.reflect c.idx k.idx b (v % 256) (v / 256 % 4))
          (c.status 0) lock (fun u => .done (u.reflectHalt y k.idx b (v % 256) (v / 256 % 4))))) ∧
      (id ≠ 0 → tells (.ctxstat w) (s.ctxStat k b)))

/-- TLBINV faults MISALIGNED on an address that is no multiple of 64 KiB; a warp's is buffered, a control thread's acts once no other access
uses the translations (R396). FQPOP faults MISALIGNED on an address that is no multiple of 64, and sends 1 where the fault queue is empty;
otherwise, with its checks passed, it takes the oldest record and sends the number left: a warp's store of its 64 bytes is buffered, a
control thread's performed at once, and records that waited enter the queue (R397). -/
def Obligations.InvalidateAndPopForms : Prop :=
  ∀ (w : Wd) (s t u : State) (c : Issue) (x : Ctx) (r : List DWord) (rest : List (List DWord)) (accs : List Access),
    Issues s c → s.ctx? (s.ctxOf c.who) = some x →
    let va := c.w64 .a .ax c.low
    let n := (c.lowW .b).toNat
    let y := s.ctxOf c.who
    let data := accs.flatMap fun a => recordStore a r
    let left := c.status (rest.length % 65536 * 256)
    (va.toNat % 65536 ≠ 0 → Faults (.tlbinv w) s c { code := .misaligned, mask := c.mask, raddr := va }) ∧
    (va.toNat % 65536 = 0 → c.inWarp → Buffers (.tlbinv w) s c (.tlbinv c.idx va n) []) ∧
    (va.toNat % 65536 = 0 → c.who.isCtl = true → s.invWaits c.who va.toNat n = true → Waits (.tlbinv w) s) ∧
    (va.toNat % 65536 = 0 → c.who.isCtl = true → s.invWaits c.who va.toNat n = false →
      exec (.tlbinv w) s = .next ((s.invDo y va.toNat n).finish c [])) ∧
    (va.toNat % 64 ≠ 0 → Faults (.fqpop w) s c { code := .misaligned, mask := c.mask, raddr := va }) ∧
    (va.toNat % 64 = 0 → x.fq = [] → exec (.fqpop w) s = .next (s.finish c (c.status 1))) ∧
    (va.toNat % 64 = 0 → x.fq = r :: rest →
      s.checkAccess { c with mask := maskOf [c.low] } .gl .write .store 64 (fun _ => va) (fun _ => true) false = .ok t accs →
      (c.inWarp → exec (.fqpop w) s = .next (((t.modCtx y fun x => { x with fq := rest, fqHeld := x.fqHeld + 1 }).addEff c
        (.fqpop c.idx data r)).finish c left)) ∧
      (c.who.isCtl = true → applyLanes (fun s a v => s.applyStore c.who c.idx .rnd none a v) t data = (u, []) →
        exec (.fqpop w) s = .next (((u.modCtx y fun x => { x with fq := x.fq.drop 1 }).drainFaults).finish c left)))

/-! ## System forms -/

/-- RDSYS sends the register its selector names, 64 bits wide where Table 17.7 says so; WRSYS of a warp is buffered with the lowest
lane's value, a control thread's takes effect at once, and a CTX.TROOT that its rules refuse faults (R69, R398). TOPO, TIME, LATBAND and
CAPW: topology words, the die's counter plus TOFF, the band of a port or 0, and the word of the capability list at an offset that is a
multiple of 8, or 0 (R399 to R402, R453, R469). The counter's skew is free (log 22). -/
def Obligations.SystemForms : Prop :=
  (∀ (w : Wd) (sel : BitVec 16) (r : SysReg) (s : State) (c : Issue) (x : Ctx), Issues s c → s.ctx? (s.ctxOf c.who) = some x →
    SysReg.ofSel sel = some r →
    let v : DWord := if r.wide then c.w64 .a .ax c.low else (c.w32 .a c.low).setWidth 64
    (r.wide = true → Sends64 (.rdsys w sel) s c fun _ => BitVec.ofNat 64 (s.sysReg c.who r)) ∧
    (r.wide = false → Sends32 (.rdsys w sel) s c fun _ => BitVec.ofNat 32 (s.sysReg c.who r)) ∧
    ((r = .ctxTroot → s.trootFault c x v = none) →
      (c.inWarp → Buffers (.wrsys w sel) s c (.wrsys c.idx r v) []) ∧
      (∀ t, c.who.isCtl = true → s.wrsysDo c.who r v = .done t → exec (.wrsys w sel) s = .next (t.finish c []))) ∧
    (∀ f, r = .ctxTroot → s.trootFault c x v = some f → Faults (.wrsys w sel) s c f)) ∧
  (∀ (w : Wd) (sel : BitVec 16) (s : State) (c : Issue) (x : Ctx), Issues s c → s.ctx? (s.ctxOf c.who) = some x →
    (exec (.topo w sel) s = .next (s.finish c (c.status (s.topoValue x c.who.core sel.toNat)))) ∧
    (Sends64 (.time w) s c fun _ => BitVec.ofNat 64 (s.counter (dieOf c.who.core)) + x.toff) ∧
    (∀ word, s.dev.latband.find? (fun q => q.1 == dieOf c.who.core && q.2.1 == (c.lowW .a).toNat) = some (dieOf c.who.core, (c.lowW .a).toNat, word) →
      Sends32 (.latband w) s c fun _ => word) ∧
    ((∀ q ∈ s.dev.latband, q.1 ≠ dieOf c.who.core ∨ q.2.1 ≠ (c.lowW .a).toNat) → Sends32 (.latband w) s c fun _ => 0) ∧
    ((c.lowW .a).toNat % 8 ≠ 0 → Sends64 (.capw w) s c fun _ => 0) ∧
    ((c.lowW .a).toNat % 8 = 0 → Sends64 (.capw w) s c fun _ => (s.capList (s.vfOf (s.ctxOf c.who))).getD ((c.lowW .a).toNat / 8) 0))

/-! ## Traps and faults -/

/-- TAKING A TRAP and returning from it: the frame holds the resume address, the replay log, the depth, the cause and the old mask;
TRAP.CAUSE, TRAP.BLOCK and TRAP.MASK are set, the mask is set, and the split goes to the trap block. The return pops the frame, and log
and mask are as before the trap; registers, flags and return addresses never change (R421, R422, R423). What a boundary does with a trap: an asynchronous one is deferred while the mask is set; without an entry it escalates; a
synchronous one under the mask escalates marked MASKED; a fifth nested one escalates as TRAP_OVERFLOW; any other is handled (R420,
Table 19.2). -/
def Obligations.TrapsAreTakenAndReturnedFrom : Prop :=
  (∀ (w : Warp) (entry : DWord) (n : Nat) (code : Code) (ucode block resume : Nat) (mask : Mask), n < w.splits.length →
    let t := w.takeTrap entry n code ucode block resume mask
    t.cause = BitVec.ofNat 32 code.num ∧ t.tblock = BitVec.ofNat 64 block ∧ t.tlanes = mask ∧ t.trapMask = true ∧ t.log = {} ∧
    (t.splits.getD n default).next = entry.toNat ∧ t.traps.length = w.traps.length + 1 ∧
    (t.traps.map (·.resume)).head? = some resume ∧ (t.traps.map (·.depth)).head? = some (w.splits.getD n default).depth ∧
    t.v = w.v ∧ t.s = w.s ∧ t.flags = w.flags ∧ t.rets = w.rets ∧
    (∀ lanes : Mask, let r := t.trapReturn lanes
      r.traps = w.traps ∧ r.log = w.log ∧ r.trapMask = w.trapMask ∧
      (∀ b m, r.skipDue b m = true ↔ (code = .userTrap ∧ resume = b ∧ (lanes &&& m) ≠ 0) ∨ w.skipDue b m = true) ∧
      r.v = w.v ∧ r.s = w.s ∧ r.flags = w.flags)) ∧
  (∀ (w : Warp) (entry : DWord) (code : Code) (async : Bool),
    (async = true → w.trapMask = true → w.trapFate entry code async = .deferred) ∧
    (¬ (async = true ∧ w.trapMask = true) → entry = 0 → w.trapFate entry code async = .escalated code false) ∧
    (async = false → w.trapMask = true → entry ≠ 0 → w.trapFate entry code async = .escalated code true) ∧
    (w.trapMask = false → entry ≠ 0 → 4 ≤ w.traps.length → w.trapFate entry code async = .escalated .trapOverflow false) ∧
    (w.trapMask = false → entry ≠ 0 → w.traps.length < 4 → w.trapFate entry code async = .handled))

/-- FAULTS OF A FIRING. A warp's instance records the first fault and no later one, and its targets receive empty tokens; a control
thread halts before the instruction (R196, R207). DELIVERY OF A FAULT to a context that is no root: it takes the lowest free halt number and its
halt is recorded with its requester; with room in the queue the record enters it with that number, and event counter 63 rises; while 256
records are there the record waits with its number (R397, R427). Without a free number the fault waits and nothing is recorded (R427). -/
def Obligations.FaultsAreRecordedAndDelivered : Prop :=
  (∀ (s : State) (c : Issue) (core slot itag : Nat) (w : Warp) (i : Inst) (f : FaultInfo),
      c.who = .warp core slot itag → s.warp? core slot = some w → w.inst? itag = some i →
      s.faultIssue c f = (s.recordExit core slot itag f).finishMask c 0 [] ∧
      ∃ v j, (s.recordExit core slot itag f).warp? core slot = some v ∧ v.inst? itag = some j ∧
        j.exit = some (i.exit.getD f) ∧ j.effs = i.effs ∧ j.fired = i.fired ∧ v.v = w.v ∧ v.s = w.s) ∧
  (∀ (s : State) (c : Issue) (core x : Nat) (f : FaultInfo), c.who = .ctl core x → s.faultIssue c f = s.haltCtl core x f) ∧
  (∀ (s : State) (f : WaitingFault) (rx : Ctx) (r : Requester) (n : Nat), f.driver = none → f.host = false → f.req = some r → f.num = none →
      s.ctx? f.recv = some rx → rx.idx = f.recv → s.freeHalt f.recv = some n →
      (rx.fq.length + rx.fqHeld < 256 → ∃ y, (s.enqueueFault f).ctx? f.recv = some y ∧ y.fq = rx.fq ++ [withHaltNum f.record n] ∧
        y.events = listMod rx.events 63 (· + 1) ∧
        (s.enqueueFault f).halts = s.halts ++ [{ num := n, recv := f.recv, host := false, req := r, ctx := f.ctx, code := f.code, record := withHaltNum f.record n }] ∧
        (∀ h ∈ s.halts, h.recv = f.recv → h.num ≠ n) ∧ 0 < n ∧ (s.enqueueFault f).mem = s.mem) ∧
      (256 ≤ rx.fq.length + rx.fqHeld → s.enqueueFault f = { s with
        halts := s.halts ++ [{ num := n, recv := f.recv, host := false, req := r, ctx := f.ctx, code := f.code, record := withHaltNum f.record n }]
        waitFaults := s.waitFaults ++ [{ f with num := some n }] })) ∧
  (∀ (s : State) (f : WaitingFault) (rx : Ctx) (r : Requester), f.driver = none → f.req = some r → f.num = none →
      s.ctx? f.recv = some rx → s.freeHalt f.recv = none → s.enqueueFault f = { s with waitFaults := s.waitFaults ++ [f] })

/-! ## Reset, results and frames -/

/-- RESET: power-good has not been processed. READY is clear and every register of every page holds 0, no context exists and no halt,
command or request is outstanding, and every byte of memory reads 0. POWER_GOOD brings the device up exactly when its image verifies (R472; what
the spec leaves open of the image's layout is log 26), and then makes every function ready and leaves the pages as they are (R474, Table 21.2). Values where the spec gives none are the model's choice (logs 5 to 8). -/
def Obligations.ResetState : Prop :=
  State.reset.dev.up = false ∧ State.reset.vfs.length = 96 ∧ State.reset.vfs.all (fun v => v == {}) = true ∧
  State.reset.ctxs = [] ∧ State.reset.cores = [] ∧ State.reset.halts = [] ∧ State.reset.reqs = [] ∧ State.reset.cur = none ∧
  Memory.wf State.reset.mem = true ∧ (∀ p, State.reset.peek p = 0) ∧
  (∀ vf off width, State.reset.vfRead vf off width = 0) ∧
  (∀ version image, ∃ t, exec (.powerGood version image) State.reset = .next t ∧ t.dev.up = (version != 0 && State.reset.dev.accepts version image) ∧
    (t.dev.up = true → t.dev.fwVersion = version ∧ t.vfs = State.reset.vfs.map (fun v => { v with ready := true }) ∧
      ∀ vf, vf < 96 → t.vfRead vf 0 8 = 1 ∧ t.vfRead vf 0x40 8 = 0))

/-- RESULTS REACH THEIR TARGETS: when a warp's instruction fires, its entry leaves its node and it counts as fired; each target's
node receives, after the tokens already there, one token with the firing mask and the result's part. A control thread's targets hold the result, and the
thread goes on to the next instruction, after the second word of a LONG form (R196, R198, R199, R203). -/
def Obligations.ResultsReachTheirTargets : Prop :=
  (∀ (s : State) (c : Issue) (core slot itag : Nat) (w : Warp) (i : Inst) (b : RBlock) (parts : List Lanes),
    c.who = .warp core slot itag → s.warp? core slot = some w → w.inst? itag = some i → s.blockOf c.who = some b →
    ∃ v j, (s.finish c parts).warp? core slot = some v ∧ v.inst? itag = some j ∧ j.fired = c.idx :: i.fired ∧ j.effs = i.effs ∧ j.exit = i.exit ∧
      v.v = w.v ∧ v.s = w.s ∧
      ∀ n, n < (s.core core).nodes.length →
        (((s.finish c parts).core core).nodes.getD n {}).chan = ((s.core core).nodes.getD n {}).chan ++
          (((route c.form b.words parts).filter fun q => b.node i.replica q.1 == n).map fun q =>
            { wslot := slot, itag, idx := q.1, port := q.2.1, mask := c.mask, val := q.2.2 : Token })) ∧
  (∀ (s : State) (c : Issue) (core x : Nat) (h : Ctl) (b : RBlock) (parts : List Lanes),
    c.who = .ctl core x → s.ctl? core x = some h → s.blockOf c.who = some b →
    ∃ k, (s.finish c parts).ctl? core x = some k ∧ k.next = c.idx + (if c.form.isLong then 2 else 1) ∧ k.s = h.s ∧
      k.vals = (h.vals ++ (route c.form b.words parts).map fun q =>
        (q.1, { port := q.2.1, mask := c.mask, val := q.2.2 : PortVal })).filter fun v => v.1 != c.idx)

/-- THE FRAME of the forms that compute a result, and of those a warp only buffers: firing moves tokens, and buffers effects in the
second case; every register, flag, split and trap of every warp, every control thread's registers, every team, cache, engine and
matrix path, everything outside the cores and every byte of memory stay as they were (R198, R206, R278, R295). -/
def Obligations.ComputingFormsTouchNothingElse : Prop :=
  ∀ (i : Instr) (s t : State) (c : Issue), s.cur = some c → exec i s = .next t →
    (computes i = true → TokensOnly s t) ∧
    (buffered i = true → c.inWarp → BuffersOnly s t)

/-! ## The events -/

/-- BLOCK LIFE. An admitted instance takes the tag NT names, the next instance number and its replica, and starts with nothing fired,
buffered or faulted (R205, R209). A token at the head of a channel is dropped when its tag is gone, fetches its instruction into the node when it
is not there, and otherwise joins its operands, which are ready when the last has come (R203, R208). The oldest ended instance commits when its exit stands and its room is
there, its stores after the reads of its core that have left for their homes (R116), and its number counts one more (R206); a context that is not RUNNING commits nothing (R385, R434); one with an exit record is
discarded and its code raised, a fault halting the warp (R207, R420). FAIRNESS_TIMER pins the split that has waited longest when the running one has
committed 512 times (R234). TAG_EXHAUSTED squashes the younger iterations, or the youngest holder
alone (R215; time that a context spent saved does not count, R437). BLOCK_STUCK is raised for a warp whose oldest instance has done nothing for 2^20 cycles (R217). -/
def Obligations.BlockLifeEvents : Prop :=
  (∀ (s r : State) (core slot : Nat), s.admittedNow core = false → s.admitPick core = some (slot, r) →
    exec (.blockAdmit core slot) s = .next r) ∧
  (∀ (s : State) (core slot : Nat) (w : Warp) (e : SEntry) (b : RBlock), s.warp? core slot = some w → w.insts = [] →
    ∃ v i, (s.startInst core slot w e b).warp? core slot = some v ∧ v.insts = [i] ∧ i.itag = w.nt ∧ i.block = b.addr ∧ i.mask = e.mask ∧
      i.depth = e.depth ∧ i.number = w.icount ∧ i.replica = (slot + w.nt) % b.bases.length ∧ i.effs = [] ∧ i.fired = [] ∧ i.exit = none ∧
      v.nt = (w.nt + 1) % 32 ∧ v.v = w.v ∧ v.s = w.s ∧ v.flags = w.flags ∧ v.splits = w.splits) ∧
  (∀ (s : State) (core node : Nat) (t : Token) (rest : List Token) (n : Node), ((s.core core).nodes.getD node {}).chan = t :: rest →
    (n, true) ∈ ((s.core core).nodes.getD node {}).handle t rest (s.tokenForm core t) (s.tokenBlock core t, t.idx) →
    exec (.tokenArrive core node) s = .next (s.modCore core fun k => (k.modNode node fun _ => n).tagSub t.wslot t.itag 1)) ∧
  (∀ (s : State) (core node : Nat) (t : Token) (rest : List Token) (n : Node), ((s.core core).nodes.getD node {}).chan = t :: rest →
    (n, false) ∈ ((s.core core).nodes.getD node {}).handle t rest (s.tokenForm core t) (s.tokenBlock core t, t.idx) →
    exec (.tokenArrive core node) s = .next (s.modCore core fun k => k.modNode node fun _ => n)) ∧
  (∀ (n : Node) (t : Token) (rest : List Token) (f : Form) (loc : Nat × Nat),
    n.handle t rest none loc = some ({ n with chan := rest }, true) ∧
    (n.slots.contains loc = false → n.handle t rest (some f) loc = some ({ n with slots := (loc :: n.slots).take 32 }, false)) ∧
    (n.slots.contains loc = true → (∀ q ∈ usedPorts f, q = t.port) → n.store = [] →
      n.handle t rest (some f) loc = some ({ n with chan := rest, ready := n.ready ++
        [{ wslot := t.wslot, itag := t.itag, idx := t.idx, vals := [{ port := t.port, mask := t.mask, val := t.val }] }] }, false)) ∧
    (n.slots.contains loc = true → (∃ q ∈ usedPorts f, q ≠ t.port) → n.store = [] →
      n.handle t rest (some f) loc = some ({ n with chan := rest, store :=
        [{ wslot := t.wslot, itag := t.itag, idx := t.idx, vals := [{ port := t.port, mask := t.mask, val := t.val }] }] }, false))) ∧
  (∀ (s t u : State) (core slot : Nat) (w v : Warp) (i : Inst) (more : List Inst) (b : RBlock) (after : List SEntry × Bool),
    s.warp? core slot = some w → w.insts = i :: more → (s.core core).block? w.ctx i.block i.ver = some b →
    (∀ x, s.ctx? w.ctx = some x → x.st = .running) → i.st = .running →
    i.isEnded b = true → i.exit = none → i.squash = false → w.halt = none → s.checkExit core slot w i b = .ok t after → t.commitReady core slot i = true →
    (i.effs.any Eff.isStore = true → t.homeReadsInFlight core = false) →
    State.runEffs core slot i.itag (t.modInst core slot i.itag fun q => { q with st := .committing, after := some after }) i.work = (u, []) →
    u.warp? core slot = some v → exec (.blockCommit core slot) s = .next ((u.finishCommit core slot v i b after).endIfDone core slot)) ∧
  (∀ (w : Warp) (i : Inst) (stay : Mask), (w.committed i stay).icount = w.icount + 1 ∧ ∀ q ∈ (w.committed i stay).insts, q.itag ≠ i.itag) ∧
  (∀ (s : State) (core slot : Nat) (w : Warp) (i : Inst) (more : List Inst) (x : Ctx), s.warp? core slot = some w → w.insts = i :: more →
    s.ctx? w.ctx = some x → x.st ≠ .running → exec (.blockCommit core slot) s = .next s) ∧
  (∀ (s : State) (core slot : Nat) (w : Warp) (i : Inst) (more : List Inst) (b : RBlock) (f : FaultInfo),
    s.warp? core slot = some w → w.insts = i :: more → (s.core core).block? w.ctx i.block i.ver = some b → i.st = .running →
    s.atomicOut (.warp core slot i.itag) = false → i.squash = false → i.exit = some f → i.isEnded b = true →
    exec (.blockDiscard core slot i.itag) s = .next (s.raiseExit core slot i f) ∧
    (f.code.isTrap = false → s.raiseExit core slot i f =
      (((s.squash core slot fun _ => true).applyMailbox core slot).haltWarp core slot f i.block i.itag false false).modCore core Core.unpin)) ∧
  (∀ (s : State) (core slot j : Nat) (w : Warp) (e : SEntry), s.warp? core slot = some w → w.runSplit = some e → 512 ≤ e.fair → w.insts = [] →
    w.halt = none → fairPick (s.entriesOf core slot w) w.runIndex w.icount.toNat = some j →
    exec (.fairnessTimer core slot) s = .next ((s.setTable core slot (pinSplit (s.entriesOf core slot w) j) w.run).boundary core slot)) ∧
  (∀ (s : State) (core node sl itag : Nat), s.nodeFull core node = true →
    1024 ≤ cyclesBetween (max (((s.core core).nodes.getD node {}).lastFire - 1) (s.core core).restored) s.time →
    (∀ m ∈ ((s.core core).nodes.getD node {}).store, ∀ w, s.warp? core m.wslot = some w → w.insts.length ≤ 1) →
    s.youngestHolder core ((s.core core).nodes.getD node {}).store = some (sl, itag) →
    exec (.tagExhausted core node) s =
      .next (((s.modInst core sl itag fun i => { i with squash := true }).tagSuffer core sl false).tagCount core [sl])) ∧
  (∀ (s : State) (core slot : Nat) (w : Warp) (i : Inst) (more : List Inst) (b : RBlock),
    s.warp? core slot = some w → w.insts = i :: more → (s.core core).block? w.ctx i.block i.ver = some b → s.idleInst core slot w i b = true →
    2 ^ 20 ≤ cyclesBetween (max i.lastAct i.admitted) s.time → i.exit = none →
    exec (.blockStuck core slot i.itag) s = .next (s.raiseExit core slot i { code := .blockStuck, mask := i.mask }))

/-- MEMORY AND PORTS. LOAD_REPLY: when every lane has its value, a load's acquire acts and its result goes to its targets with the mask it fired
with (R199, R333, R336). DCU_REQUEST serves the first request whose page is in no transition (R92). A request that has not come to where it
is performed crosses one link of the column-then-row route, one hop nearer (R18); one on the edge chain crosses one of its links (log 57). HOME_READ reads
the home's bytes for the asking core's sector or a lane, and they set out for the core (R18), where they fill the sector or give the lane its value; HOME_WRITE, once every marked die has acknowledged, which PRESENCE_INVALIDATION does after
its die wrote the sector back, performs the write (R53, R91, R99). FLUSHING_READ_DONE settles posted writes (R101). A window access
inside the holder's allocation reads or writes; a load outside it faults WINDOW_PERM, and a store outside it has no effect and is reported
(R48; that it halts nothing is log 45). MAILBOX_ARRIVE enters the buffer of a warp of the context that declares the register, and no
other (R49, R50; log 45). ATOMIC_AT_PORT checks and performs a lane and sends its reply, ATOMIC_REPLY logs it (R48, R140, R149);
RESERVATION_PIN_EXPIRY unpins reservations 2,048 cycles of the port's clock old (R20, R152). -/
def Obligations.MemoryAndPortEvents : Prop :=
  (∀ (s : State) (who : Who) (idx : Nat) (p : Pend) (f : Form), s.pend? who idx = some p → s.formAt who idx = some f →
    (∀ l ∈ p.lanes, l.got.isSome = true) →
    (p.acq = none → exec (.loadReply who idx) s =
      .next (((s.dropPend who idx).sendTokens who f p.mask (p.parts f)).advance who idx f.isLong)) ∧
    (∀ sc, p.acq = some sc → exec (.loadReply who idx) s =
      .next ((((s.acquireActs who.core sc 0b111).dropPend who idx).sendTokens who f p.mask (p.parts f)).advance who idx f.isLong))) ∧
  (∀ (s : State) (die : Nat) (r : DcuReq) (rest : List DcuReq), (s.die die).dreqs = r :: rest → s.pageBusy die r = false →
    let t := s.modDie die fun x => { x with dreqs := rest }
    t.dcuMoot r = false → exec (.dcuRequest die) s = .next (t.ownerServe die r)) ∧
  (∀ (a b : Site) (p : Stitch), b.row < 8 → b.col < 24 → a.toward b = some p →
    (a.col ≠ b.col → p = .e ∨ p = .w) ∧ ∃ c, a.next p = some c ∧ c.hops b + 1 = a.hops b) ∧
  (∀ (s : State) (r : Req) (a b : Site), r.here = some a → s.goal r = some b → s.outPort r = a.toward b) ∧
  (∀ (s : State) (id m : Nat) (r : Req), s.req? id = some r → r.here = none → r.edge = some m → s.arrived r = false →
    (∀ key mask data src, r.kind = .write key mask data src →
      exec (.homeWrite id) s = .next { s with reqs := mapIf (fun y => y.id == r.id) (s.chain m) s.reqs }) ∧
    (∀ who idx lane q n resv, r.kind = .read who idx lane q n resv →
      exec (.homeRead id) s = .next { s with reqs := mapIf (fun y => y.id == r.id) (s.chain m) s.reqs })) ∧
  (∀ (s : State) (id : Nat) (r : Req) (a : Site) (p : Stitch), s.req? id = some r → r.here = some a → s.outPort r = some p →
    (∀ q ∈ s.reqs, q.here = some a → s.outPort q = some p → q = r) →
    let t : State := { s with
      reqs := mapIf (fun y => y.id == r.id) (a.hop p) s.reqs
      routers := ((a, p), r.inp) :: s.routers.filter fun y => y.1 != (a, p) }
    (∀ key priv, r.kind = .fill key priv → exec (.homeRead id) s = .next t) ∧
    (∀ who idx lane q n resv, r.kind = .read who idx lane q n resv → exec (.homeRead id) s = .next t) ∧
    (∀ key priv data, r.kind = .filled key priv data → exec (.homeRead id) s = .next t) ∧
    (∀ who idx lane v, r.kind = .data who idx lane v → exec (.homeRead id) s = .next t) ∧
    (∀ key mask data src, r.kind = .write key mask data src → exec (.homeWrite id) s = .next t) ∧
    (∀ who idx lane q n resv, r.kind = .wload who idx lane q n resv → exec (.windowAccessArrive id) s = .next t) ∧
    (∀ who idx lane q bs, r.kind = .wstore who idx lane q bs → exec (.windowAccessArrive id) s = .next t) ∧
    (∀ core slot reg lane vals who rel, r.kind = .mail (.mbox core slot reg lane) vals who rel → exec (.mailboxArrive id) s = .next t) ∧
    (∀ who idx lane q op n v cmp reply, r.kind = .atomic who idx lane q op n v cmp reply → exec (.atomicAtPort id) s = .next t) ∧
    (∀ who idx lane v, r.kind = .reply who idx lane v → exec (.atomicReply id) s = .next t)) ∧
  (∀ (s : State) (id : Nat) (r : Req), s.req? id = some r → s.arrived r = true → s.blocked r = false →
    (∀ key, r.kind = .fill key false → key.vf = none → s.dev.soft = [] → s.dev.hard = [] → s.zeroing (frameOf (key.sec * 64)) = false →
      s.tracked r.core key false = true → let t := s.throughFirn key false
      exec (.homeRead id) s = .next (t.turnBack id (.filled key false (t.peekN (key.place 0) 64)))) ∧
    (∀ key priv data, r.kind = .filled key priv data → s.tracked r.core key priv = true →
      exec (.homeRead id) s = .next ((s.l1Fill r.core key priv data).dropReq id).hostPoll) ∧
    (∀ who idx lane v, r.kind = .data who idx lane v → exec (.homeRead id) s = .next ((s.laneValue who idx lane v).dropReq id).hostPoll) ∧
    (∀ who idx lane d n, r.kind = .read who idx lane (.dev d) n false → ∃ t, s.readAt r who idx lane (.dev d) n false = some t ∧
      exec (.homeRead id) s = .next t.hostPoll) ∧
    (∀ key mask data src, r.kind = .write key mask data src → s.askMarked r key = none →
      exec (.homeWrite id) s = .next (((s.dropReq id).beforeWrite r key mask data src).homeWrite r.core key mask data).hostPoll) ∧
    (∀ key mask data src t, r.kind = .write key mask data src → s.askMarked r key = some t → exec (.homeWrite id) s = .next t)) ∧
  (∀ (s : State) (die id : Nat) (r : Req) (key : SKey), s.req? id = some r → (∀ q ∈ s.reqs, q.id = id → q = r) →
    r.kind.sector = some key → die ∈ r.acks →
    ∃ t, exec (.presenceInvalidation die id) s = .next t ∧
      ∀ q, t.req? id = some q → die ∉ q.acks ∧ ∀ d ∈ r.acks, d ≠ die → d ∈ q.acks) ∧
  (∀ (s : State) (core vf : Nat), vf ∈ (s.core core).flushing → s.flushAgain vf = false →
    exec (.flushingReadDone core vf) s =
      .next (State.hostPoll (s.modCore core fun k => { k with flushing := k.flushing.filter (· != vf) }))) ∧
  (∀ (s : State) (id : Nat) (r : Req) (core a : Nat), s.req? id = some r → s.arrived r = true →
    (∀ who idx lane n, r.kind = .wload who idx lane (.sp core a) n false → s.portBlocked r (.sp core a) n = false →
      (inAllocs ((s.core core).allocs r.ctx) a n = true → s.dev.soft = [] → s.dev.hard = [] →
        exec (.windowAccessArrive id) s = .next (s.turnBack id (.data who idx lane (toVal (s.peekN (.sp core a) n))))) ∧
      (inAllocs ((s.core core).allocs r.ctx) a n = false →
        exec (.windowAccessArrive id) s = .next (((s.laneValue who idx lane 0).faultAt who
          { code := .windowPerm, mask := (1 : Mask) <<< lane, raddr := s.laneVa who idx lane }).dropReq id))) ∧
    (∀ who idx lane bs, r.kind = .wstore who idx lane (.sp core a) bs → s.portBlocked r (.sp core a) bs.length = false →
      (inAllocs ((s.core core).allocs r.ctx) a bs.length = true →
        exec (.windowAccessArrive id) s = .next (((s.clearReserves (.sp core a)).pokeN (.sp core a) bs).dropReq id)) ∧
      (inAllocs ((s.core core).allocs r.ctx) a bs.length = false →
        exec (.windowAccessArrive id) s = .next ((s.lateFault r.ctx who .windowPerm lane).dropReq id)))) ∧
  (∀ (s : State) (id : Nat) (r : Req) (core slot reg lane : Nat) (vals : List Word) (who : Who) (rel : Option Scope), s.req? id = some r → s.arrived r = true →
    r.kind = .mail (.mbox core slot reg lane) vals who rel → (∀ q ∈ s.reqs, id ≤ q.id) →
    (∀ t, s.mboxOk r.ctx core slot reg = true → s.mailArrive core slot reg lane vals none rel = some t →
      exec (.mailboxArrive id) s = .next (t.dropReq id)) ∧
    (s.mboxOk r.ctx core slot reg = true → s.mailArrive core slot reg lane vals none rel = none → exec (.mailboxArrive id) s = .next s) ∧
    (s.mboxOk r.ctx core slot reg = false → exec (.mailboxArrive id) s = .next ((s.lateFault r.ctx who .windowPerm lane).dropReq id))) ∧
  (∀ (s : State) (id : Nat) (r : Req) (who : Who) (idx lane core a n : Nat) (op : Option AtomOp) (v cmp : BitVec 128),
    s.req? id = some r → s.arrived r = true → r.kind = .atomic who idx lane (.sp core a) op n v cmp true → s.portBlocked r (.sp core a) n = false →
    (inAllocs ((s.core core).allocs r.ctx) a n = true →
      let q := s.performAt r who lane (.sp core a) op n v cmp
      exec (.atomicAtPort id) s = .next (State.hostPoll (q.1.turnBack id (.reply who idx lane q.2)))) ∧
    (inAllocs ((s.core core).allocs r.ctx) a n = false →
      exec (.atomicAtPort id) s = .next (s.atomicTurned r who idx lane true .windowPerm))) ∧
  (∀ (s : State) (r : Req) (who : Who) (lane core a n : Nat) (op : AtomOp) (v cmp : BitVec 128), s.dev.soft = [] → s.dev.hard = [] →
    let q := s.performAt r who lane (.sp core a) (some op) n v cmp
    let old := bytesVal (s.peekN (.sp core a) n)
    q.2 = BitVec.ofNat 128 old ∧
    (∀ x, atomNew op n old (v.toNat % 2 ^ (8 * n)) (cmp.toNat % 2 ^ (8 * n)) = some x →
      q.1 = (s.clearReserves (.sp core a)).pokeN (.sp core a) (valBytes n x)) ∧
    (atomNew op n old (v.toNat % 2 ^ (8 * n)) (cmp.toNat % 2 ^ (8 * n)) = none → q.1 = s)) ∧
  (∀ (s : State) (id : Nat) (r : Req) (who : Who) (idx lane : Nat) (v : BitVec 128), s.req? id = some r → s.arrived r = true →
    r.kind = .reply who idx lane v →
    exec (.atomicReply id) s = .next ((((s.setGot who idx lane v).logValue who idx lane v).dropReq id).completePend who idx)) ∧
  (∀ (s : State) (port : Nat) (onFirn : Bool), ∃ t, exec (.reservationPinExpiry port onFirn) s = .next t ∧
    (onFirn = false → ∀ r ∈ (t.core port).monitor, 2048 ≤ cyclesBetween r.since s.time → r.pinned = false) ∧
    (onFirn = true → ∀ r ∈ (t.firn port).monitor, 2048 * Config.ticksPerFirnCycle ≤ s.time - r.since → r.pinned = false))

/-- TRANSLATION AND SCRUBBING. A walker that finds a translation enters it in the TLBs; one that meets a host page asks the host; one that
faults reports to the requester that waits (R62, R65, R71, R81). The host is asked by units of 64 KiB (log 44). An ATS response makes the page usable or leads to a page request; PRI SUCCESS repeats the request, its other answers and a second
without one fail it, and a stale index is counted (R81 to R83). ATS_INVALIDATION drops translations (R81); beyond 32 outstanding it waits (R458). A released frame goes through the
shootdown of all 96 dies of each kind, is zeroed once its lines have left the Firn caches, and each host release of it is counted and signalled (R75 to R80, R464); the firmware starts a scrub of a frame (R473). -/
def Obligations.TranslationAndScrubEvents : Prop :=
  (∀ (s t : State) (unit : Nat) (onFirn : Bool) (m : Miss),
    (s.missq unit onFirn).find? (s.missReady (decide (walking (s.missq unit onFirn) < walkers onFirn))) = some m →
    (∀ w, s.walk (walkDie unit onFirn) m.ctx m.va m.acc = (t, .ok w) →
      exec (.translationWalk unit onFirn) s = .next (((t.setMissq unit onFirn fun q => q.erase m).enterWalk unit onFirn m w).servePrefs m w)) ∧
    (∀ vf page wr, s.walk (walkDie unit onFirn) m.ctx m.va m.acc = (t, .error (.host vf page wr)) →
      exec (.translationWalk unit onFirn) s = .next ((t.askHost vf page wr).setMissq unit onFirn
        (mapIf (· == m) fun y => { y with hostWait := some (vf, page) }))) ∧
    (∀ f q a, s.walk (walkDie unit onFirn) m.ctx m.va m.acc = (t, .error (.fault f)) → m.waiters = [(q, m.va, a)] →
      exec (.translationWalk unit onFirn) s =
        .next ((t.setMissq unit onFirn fun l => l.erase m).faultWaiter q (t.waiterFault (walkDie unit onFirn) m (q, m.va, a) f)))) ∧
  (∀ (s : State) (vf : Nat) (addr : DWord) (wr : Bool), vf < s.vfs.length → (s.vf vf).atsPend = [(addr.toNat / 65536, wr)] →
    (∃ t, exec (.atsResponse vf addr true true) s = .next (State.retryWords t) ∧ (t.vf vf).atsPend = [] ∧ (addr.toNat / 65536, wr) ∈ (t.vf vf).atsOk) ∧
    (∀ present allowed idx, (present = false ∨ allowed = false) → (s.vf vf).freeIdx = some idx →
      ∃ t, exec (.atsResponse vf addr present allowed) s = .next t ∧ (t.vf vf).atsPend = [] ∧ (t.vf vf).pri = (s.vf vf).pri ++
        [{ idx, page := addr.toNat / 65536, write := wr, gen := (s.vf vf).gen, since := s.time }])) ∧
  (∀ (s : State) (vf idx : Nat) (r : PageReq), (s.vf vf).pri.find? (fun q => q.idx == idx) = some r → r.quarantine = false →
    let t := s.modVf vf fun v => { v with pri := v.pri.filter fun q => q.idx != idx }
    exec (.priSuccess vf idx) s = .next (t.modVf vf fun v => { v with atsPend := v.atsPend ++ [(r.page, r.write)] }) ∧
    exec (.priInvalidRequest vf idx) s = .next (t.priFail r vf) ∧ exec (.priResponseFailure vf idx) s = .next (t.priFail r vf) ∧
    (1000000000 ≤ nsBetween r.since s.time → exec (.priTimeout vf idx) s = .next (t.priFail r vf))) ∧
  (∀ (s : State) (vf idx : Nat), (s.vf vf).pri.find? (fun q => q.idx == idx) = none →
    exec (.priSuccess vf idx) s = .next (s.modVf vf fun v => { v with priStale := v.priStale + 1 })) ∧
  (∀ (s : State) (vf idx : Nat), vf < s.vfs.length → ∃ t, exec (.priQuarantineExpiry vf idx) s = .next t ∧
    ∀ r ∈ (s.vf vf).pri, r ∈ (t.vf vf).pri ↔ ¬ (r.idx = idx ∧ r.quarantine = true ∧ 1000000000 ≤ nsBetween r.since s.time)) ∧
  (∀ (s : State) (vf len : Nat) (addr : DWord), 32 ≤ (s.vf vf).inval.length →
    exec (.atsInvalidation vf addr len) s = .next (s.postpone vf (.atsInvalidation vf addr len))) ∧
  (∀ (s : State) (vf len : Nat) (addr : DWord), vf < s.vfs.length → (s.vf vf).inval.length < 32 → ∃ t, exec (.atsInvalidation vf addr len) s = .next (State.invalPoll t) ∧
    ∀ p w, (p, w) ∈ (t.vf vf).atsOk → p * 65536 + 65536 ≤ addr.toNat ∨ addr.toNat + len ≤ p * 65536) ∧
  (∀ (s : State) (frame : Nat) (q : Nat × Option Nat), s.waitRel.find? (fun q => q.1 == frame) = some q → s.scrubs.length < 256 →
    exec (.frameRelease frame) s = .next ({ s with waitRel := s.waitRel.erase q }.releaseFrame frame q.2)) ∧
  (∀ (s : State) (frame : Nat), (∀ q ∈ s.waitRel, q.1 ≠ frame) → s.dev.up = true → frame * 65536 < 2 ^ 52 →
    dpaOffset (frame * 65536) < (s.dev.regions.getD (dpaRegion (frame * 65536)) {}).size → exec (.frameRelease frame) s = .next (s.releaseFrame frame none)) ∧
  (∀ (s : State) (die frame : Nat) (x : Scrub), die < 96 → s.scrubOf frame = some x → x.st = .shootdown →
    (die ∉ x.firn → ∃ t y, exec (.dieShootdown die true frame) s = .next t ∧ t.scrubOf frame = some y ∧ y.firn = die :: x.firn ∧ y.serac = x.serac ∧
      ∀ e ∈ (t.firn die).tlb, e.intoFrame frame = false) ∧
    (die ∉ x.serac → (s.dropFrameTlbs die false frame).frameBusy die frame = false →
      ∃ t y, exec (.dieShootdown die false frame) s = .next t ∧ t.scrubOf frame = some y ∧ y.serac = die :: x.serac ∧ y.firn = x.firn)) ∧
  (∀ (s : State) (frame : Nat) (x : Scrub), s.scrubOf frame = some x → x.st = .shootdown → (∀ d, d < 96 → d ∈ x.serac ∧ d ∈ x.firn) →
    exec (.shootdownComplete frame) s = .next { s.dropLines frame with scrubs := mapIf (fun y => y.frame == frame) (fun y => { y with st := .zeroing }) s.scrubs }) ∧
  (∀ (s : State) (frame : Nat) (x : Scrub), s.scrubOf frame = some x → x.st = .zeroing →
    let t : State := { s.zeroFrame frame with scrubs := (s.zeroFrame frame).scrubs.filter fun y => y.frame != frame }
    (x.vfs = [] → exec (.zeroingComplete frame) s = .next t) ∧
    (∀ vf, x.vfs = [vf] → exec (.zeroingComplete frame) s = .next ((t.modVf vf fun v => { v with frelDone := v.frelDone + 1 }).msix vf 2)))

/-- ENGINES AND THE MATRIX PATH: where each of the six events ENGINE_OP_START, ENGINE_OP_COMPLETE, STREAM_BUFFER, MATRIX_QUEUE_START,
MXMUL_KBLOCK and MATRIX_PATH_IDLE_RELEASE completes, and with what next state. A prepared operation of an engine queue starts; a started one makes the next step of its transfer, completes
with its code when it has ended, halts with its fault, or waits (R354 to R357); a COLL whose collective is decided completes wherever it
has come to (R383); one that has nothing left to read or write completes DONE (R356). A running generator whose units have all moved completes,
and otherwise makes its next step (R364, R373). The head of the matrix queue takes its turn: MXCFG
takes the path, the release zeroes and frees it, and an operation of a context that does not hold the path faults MX_STATE
(R369, R370). An MXMUL adds a K-block when its row slots are FULL and waits for one that is not (R374). An idle path that another
context wants is released (R223). That an operation is carried out a step at a time, and in what steps, is log 24. -/
def Obligations.EngineAndMatrixEvents : Prop :=
  (∀ (s : State) (core op : Nat) (o : EngOp), (s.core core).op? op = some o → s.opFree core o true = true → o.st = .queued → o.issuing = false →
    o.ready = true → o.req.kind.matrix = false → o.req.kind.streams = false → o.req.kind.isColl = false →
    exec (.engineOpStart core op) s = .next (s.modOp core op fun q => { q with st := .started })) ∧
  (∀ (s t : State) (core op : Nat) (o : EngOp), (s.core core).op? op = some o → s.opFree core o false = true → o.st = .started ∨ o.st = .waiting →
    o.issuing = false → o.req.kind.streams = false → o.req.kind ≠ .mxmul →
    (∀ code, (transferOp core o).go s = (.ok (some code), t) → exec (.engineOpComplete core op) s = .next ((t.modOp core op fun q =>
      { q with st := .finished, status := code, pos := if code = 0 then q.total else q.pos }).endOp core op)) ∧
    ((transferOp core o).go s = (.ok none, t) → exec (.engineOpComplete core op) s = .next (t.modOp core op fun q => { q with st := .started })) ∧
    (∀ f, (transferOp core o).go s = (.error (.fault f), t) → exec (.engineOpComplete core op) s = .next (t.haltOp core op f)) ∧
    (∀ e, (∀ f, e ≠ .fault f) → (transferOp core o).go s = (.error e, t) →
      exec (.engineOpComplete core op) s = .next (t.modOp core op fun q => { q with st := .waiting }))) ∧
  (∀ (s : State) (core op : Nat) (o : EngOp), (s.core core).op? op = some o → s.opFree core o false = true → o.st = .started ∨ o.st = .waiting →
    o.issuing = false → o.req.kind = .copy ∨ o.req.kind = .copy2d ∨ o.req.kind = .tcopy ∨ o.req.kind = .gath ∨ o.req.kind = .scat ∨
      o.req.kind = .istream ∨ (∃ sz, o.req.kind = .fill sz) →
    o.work = [] → o.outs = [] → exec (.engineOpComplete core op) s =
      .next ((s.modOp core op fun q => { q with st := .finished, status := 0, pos := q.total }).endOp core op)) ∧
  (∀ (s : State) (core op code : Nat) (o : EngOp), (s.core core).op? op = some o → s.opFree core o false = true → o.st = .queued ∨ o.st = .halted →
    o.issuing = false → o.req.kind ≠ .mxmul → s.collDecided o = some code →
    exec (.engineOpComplete core op) s = .next (s.transferred core op code)) ∧
  (∀ (s : State) (core op : Nat) (o : EngOp), (s.core core).op? op = some o → s.opFree core o false = true → o.st = .finished → o.issuing = false →
    o.req.kind ≠ .istream → o.req.kind ≠ .mxmul → s.mailOut core op = false → s.savedOn core o.ctx = false →
    exec (.engineOpComplete core op) s = .next ((s.finishOp core op o.status).closeColl o)) ∧
  (∀ (s t : State) (core gen : Nat) (x : Stream) (o : EngOp), (s.core core).gens.getD gen none = some x → (s.core core).op? x.op = some o →
    s.opFree core o true = true → x.st = .running → o.issuing = false → o.st ≠ .halted → o.st ≠ .finished →
    let units := if o.req.kind = .mxfeeds then o.req.mfRows else o.sUnits
    (units ≤ x.pos → s.mailOut core o.id = false → exec (.streamBuffer core gen) s =
      .next ((s.modOp core o.id fun q => { q with pos := q.total }).finishOp core o.id 0)) ∧
    (x.pos < units → o.req.kind = .stream → o.phase = 0 → s.bufferReady core o x x.pos = true → (o.sOut && o.sChan) = false →
      exec (.streamBuffer core gen) s = .next (s.modOp core o.id fun q => { q with
        work := [{ first := 0, n := (o.sBytes x.pos + o.sCell - 1) / o.sCell }], row := List.replicate (o.sBytes x.pos) 0, rowMask := 0, phase := 1 })) ∧
    (x.pos < units → (stepStream core gen x o).go s = (.ok (), t) → exec (.streamBuffer core gen) s = .next t) ∧
    (∀ f, x.pos < units → (stepStream core gen x o).go s = (.error (.fault f), t) → exec (.streamBuffer core gen) s = .next (t.haltOp core o.id f))) ∧
  (∀ (s : State) (core : Nat) (o : EngOp), (s.core core).mx.queue.head?.bind (s.core core).op? = some o → (s.core core).mx.active = false →
    (s.core core).mx.halted = false → o.st = .queued → o.ready = true → o.issuing = false → s.opFree core o true = true →
    (∀ a, o.req.kind = .mxcfg a → (s.core core).mx.holder = none ∨ (s.core core).mx.holder = some o.ctx → exec (.matrixQueueStart core) s =
      .next ((s.modCore core fun k => { k with mx := { k.mx with holder := some o.ctx, arr := some a } }).finishOp core o.id 0)) ∧
    (o.req.kind = .mxrelease → (s.core core).mx.holder = some o.ctx → exec (.matrixQueueStart core) s = .next ((s.clearPath core).finishOp core o.id 0)) ∧
    (∀ y, (s.core core).mx.holder = some y → y ≠ o.ctx → exec (.matrixQueueStart core) s = .next (s.haltOp core o.id { code := .mxState })) ∧
    (o.req.kind = .mxload → (s.core core).mx.holder = some o.ctx → exec (.matrixQueueStart core) s = .next (s.activate core o)) ∧
    (∀ arr, o.req.kind = .mxmul → (s.core core).mx.holder = some o.ctx → (s.core core).mx.arr = some arr → o.status = 0 →
      o.req.mmMalformed (arrangement arr) = false →
      (∀ code, (s.core core).mx.macroFault o.req (arrangement arr) = some code → exec (.matrixQueueStart core) s = .next (s.haltOp core o.id { code })) ∧
      ((s.core core).mx.macroFault o.req (arrangement arr) = none → exec (.matrixQueueStart core) s = .next (s.activate core o)))) ∧
  (∀ (s : State) (core : Nat) (o : EngOp) (arr : MxArr), let mx := (s.core core).mx
    mx.queue.head?.bind (s.core core).op? = some o → mx.arr = some arr → mx.active = true → mx.halted = false → o.req.kind = .mxmul →
    s.opFree core o true = true → s.dev.soft = [] → s.dev.hard = [] →
    (mx.rowStop o.req mx.kprog = none → exec (.mxmulKblock core) s =
      .next ((s.addBlock core o.req (arrangement arr) mx.kprog).afterBlock core o mx.kprog)) ∧
    (∀ n, mx.rowStop o.req mx.kprog = some (n, false) → exec (.mxmulKblock core) s = .next s) ∧
    (∀ n, mx.rowStop o.req mx.kprog = some (n, true) → exec (.mxmulKblock core) s = .next (s.haltOp core o.id { code := .mxFormatMismatch }))) ∧
  (∀ (s : State) (core : Nat) (t : Ctl), (s.core core).pathIdle = true → t ∈ (s.core core).ctls → some t.ctx ≠ (s.core core).mx.holder →
    s.wantsPath core t = true → exec (.matrixPathIdleRelease core) s = .next (s.clearPath core))

/-- COMMUNICATORS AND LINKS. A forming communicator whose members have all joined becomes READY with its handles; after 10 s it becomes DEAD (R378).
The deciding engine ends an incomplete collective of a DEAD communicator DONE when every rank has placed its destination and ABORTED
otherwise; after 1 s without a decision it ends ABORTED (R447, R448). A flit with a bad CRC asks for a retry, one out of sequence
is dropped, the next one is taken and its effect made (R470; what it carries is decoded, log 25); a link that has been down for 1 s kills the
communicators of its partition that have members beyond it (R383, R471). -/
def Obligations.CommunicatorEvents : Prop :=
  (∀ (s : State) (key : Nat) (m : Comm), s.comms.find? (fun m => m.key == key && s.commComplete m) = some m →
    exec (.commReady key) s = .next ((s.markHandles m .ready).modComm (· == m) fun m => { m with st := .ready })) ∧
  (∀ (s : State) (key : Nat) (m : Comm), s.comms = [m] → m.key = key → m.st = .forming → 10000000000 ≤ nsBetween m.since s.time →
    ∃ t, exec (.commFormTimeout key) s = .next t ∧ t.comms.map (·.st) = [.dead]) ∧
  (∀ (s : State) (key k : Nat) (m : Comm) (q : Coll), s.comms = [m] → m.key = key → m.st = .dead → m.decidesHere = true → m.colls = [q] → q.k = k →
    q.decided = none → (∀ j ∈ m.joined, j.2.isSome = true) → exec (.abortNotice key k) s = .next { s with comms :=
      [{ m with colls := [{ q with decided := some (decide (∀ r, r < m.nranks → r ∈ q.placed)) }] }] }) ∧
  (∀ (s : State) (key k : Nat) (m : Comm) (q : Coll) (t0 : Nat), s.comms = [m] → m.key = key → m.st = .dead → m.colls = [q] → q.k = k →
    q.decided = none → q.deadAt = some t0 → 1000000000 ≤ nsBetween t0 s.time →
    exec (.collDecisionTimeout key k) s = .next { s with comms := [{ m with colls := [{ q with decided := some false }] }] }) ∧
  (∀ (s : State) (port : Nat) (flit : Flit), port < 48 → port < s.links.length →
    (∃ n, s.partitionOf (portColumn port) = some n) →
    (flit.crcOk = false → exec (.vociaFlitReceive port flit) s = .next (s.modLink port fun l => { l with retry := true })) ∧
    (flit.crcOk = true → flit.seq ≠ (s.links.getD port default).seq → exec (.vociaFlitReceive port flit) s = .next s) ∧
    (flit.crcOk = true → flit.seq = (s.links.getD port default).seq → ∃ t : State, exec (.vociaFlitReceive port flit) s = .next (t.flitEffect port flit.member flit.body) ∧
      (t.links.getD port default).seq = (flit.seq + 1) % 4096 ∧ t.comms = s.comms)) ∧
  (∀ (s : State) (port : Nat), port < 48 → (s.links.getD port default).down = none →
    exec (.vociaPathLoss port) s = .next (s.modLink port fun l => { l with down := some s.time })) ∧
  (∀ (s : State) (port t0 : Nat), port < 48 → (s.links.getD port default).down = some t0 → nsBetween t0 s.time < 1000000000 →
    exec (.vociaPathLoss port) s = .next s) ∧
  (∀ (s : State) (port n r q x t0 : Nat) (m : Comm), port < 48 → (s.links.getD port default).down = some t0 → 1000000000 ≤ nsBetween t0 s.time → s.comms = [m] → m.st ≠ .dead → s.partitionOf (portColumn port) = some n →
    (r, none) ∈ m.joined → (q, some x) ∈ m.joined → s.partOf x = some n →
    ∃ t, exec (.vociaPathLoss port) s = .next t ∧ t.comms.map (·.st) = [.dead])

/-- SCHEDULING AND PRE-EMPTION. A queued grid that its queue lets start and whose context's grant is not about to change, once the cores of a FULL
predecessor have released, with good tables and a die for its gang RUNS, and otherwise ends MALFORMED (R24, R135, R407, R410).
A waiting team that fits is admitted to its home with its resources (R408, R414, R415), and retires, its core having released (R388) and those that left its barriers gone
first (R242), when its warps have exited and its operations completed (R358). A full millisecond with none admitted raises a grid's priority, to 3 at most (R413). A revocation whose
drains have ended completes with its word, and a killed context whose frames are READY is gone (R391, R445). An expired slice begins a pre-emption at
once when no control thread can go on, an expired overrun limit in any case (R432); a drained core is saved when
it is quiescent, a drain of 200 µs ends in a kill, and a saved context is restored where there is room (R434 to R437). -/
def Obligations.SchedulingEvents : Prop :=
  (∀ (s r : State) (x : Ctx) (g : Grid) (ctx queue seq : Nat), s.ctx? ctx = some x → s.grid? ctx queue seq = some g → s.gridMayStart x queue g = true →
    s.releaseCores x ((x.queues.getD queue default).fullCores g) = .wait r → exec (.gridStart ctx queue seq) s = .next r) ∧
  (∀ (s r u v : State) (x : Ctx) (g : Grid) (ctx queue seq : Nat) (exps chans : List Nat), s.ctx? ctx = some x → s.grid? ctx queue seq = some g →
    x.st = .running → g.st = .queued → (x.queues.getD queue default).mayStart g = true → s.granting x.idx = false →
    s.releaseCores x ((x.queues.getD queue default).fullCores g) = .done r →
    r.readTable ctx (x.cores.headD 0) g.lrec.nbtab 2 g.lrec.nnb = .vals u exps →
    u.readTable ctx (x.cores.headD 0) g.lrec.chtab 4 (if g.lrec.chtab = 0 then 0 else 64) = .vals v chans →
    (gridBad x g exps chans = false → exec (.gridStart ctx queue seq) s = .next (v.modGrid ctx queue seq fun g =>
      { g with st := .running, exps, chans := chans.map chanOf, since := v.time })) ∧
    (gridBad x g exps chans = true → exec (.gridStart ctx queue seq) s = .next (v.modGrid ctx queue seq fun g => { g with st := .malformed }))) ∧
  (∀ (s : State) (x : Ctx) (g : Grid) (ctx queue seq unit core : Nat), s.ctx? ctx = some x → s.grid? ctx queue seq = some g →
    x.st = .running → g.st = .running → g.lrec.gang = 0 → unit < g.lrec.units → g.unitIn unit = false → s.unitFits x queue g unit = true →
    x.unitOf queue g unit = [(unit, core)] → x.firstWaiting queue g core = some unit → s.heldBack g core = false →
    exec (.teamAdmit ctx queue seq unit) s = .next ((s.admitTeam x queue g unit core).modGrid ctx queue seq fun g =>
      { g with admitted := g.admitted ++ [unit], homes := g.homes ++ [(unit, core)], prio := min g.lrec.prio x.prio, since := s.time })) ∧
  (∀ (s r : State) (core ctx queue seq team : Nat) (t : Team), (s.core core).teams.find? (fun t => t.ctx == ctx && t.queue == queue && t.seq == seq && t.tid == team) = some t →
    t.live = [] → t.ops = [] → s.releaseGrid core ctx = .done r → exec (.teamRetire core ctx queue seq team) s =
      .next (((r.settleTeam core t).modCore core fun k => { k with teams := k.teams.filter fun u => u.id != t.id }).modGrid ctx queue seq fun g => g.retire team)) ∧
  (∀ (s : State) (ctx queue seq : Nat) (g : Grid), s.grid? ctx queue seq = some g → g.st = .running → g.admitted.length < g.lrec.teams →
    g.since + msTicks ≤ s.time → exec (.priorityAging ctx queue seq) s =
      .next (s.modGrid ctx queue seq fun g => { g with prio := min 3 (g.prio + 1), since := g.since + msTicks })) ∧
  (∀ (s : State) (ctx : Nat) (x p : Ctx) (r : RevokeOp), s.ctx? ctx = some x → x.revoke = some r → s.drainsLeft ctx r.cores = false →
    r.frames.all s.frameReady = true → (s.modCtx ctx fun c => { c with revoke := none }).ctx? r.caller = some p → p.st ≠ .killing →
    exec (.revokeComplete ctx) s = .next ((s.modCtx ctx fun c => { c with revoke := none }).sendWord r.caller r.cw x.id 1)) ∧
  (∀ (s : State) (ctx : Nat) (x : Ctx), s.ctx? ctx = some x → x.st = .killing → (∀ c ∈ s.ctxs, c.parent ≠ some ctx) →
    (x.dying = none → exec (.killComplete ctx) s = .next (s.takeApart ctx)) ∧
    (∀ frames, x.dying = some frames → frames.all s.frameReady = true → exec (.killComplete ctx) s = .next (s.removeCtx ctx))) ∧
  (∀ (s : State) (core vf part : Nat) (y : Slice) (p : Profile), (s.core core).slices.find? (fun y => y.vf == vf) = some y → (s.vf vf).profile = some (part, p) →
    (y.expired = false → s.sharedCore core vf = true → p.slice ≤ nsBetween y.since s.time → (s.core core).ctls = [] →
      exec (.sliceExpiry core vf) s = .next ((s.modCore core fun k =>
        { k with slices := mapIf (fun y => y.vf == vf) (fun y => { y with expired := true, since := s.time }) k.slices }).beginPreempt core vf)) ∧
    (y.expired = true → y.begun = false → p.overrun ≤ nsBetween y.since s.time → exec (.overrunLimitExpiry core vf) s = .next (s.beginPreempt core vf))) ∧
  (∀ (s : State) (core ctx : Nat), (s.core core).draining ctx = true → s.drainLate core ctx = false → (s.drainStep core ctx).quiescent core ctx = true →
    exec (.drainQuiescence core ctx) s = .next ((s.drainStep core ctx).saveCtx core ctx)) ∧
  (∀ (s : State) (core ctx : Nat) (d : Drain), (s.core core).drains.find? (fun d => d.ctx == ctx) = some d → 200000 ≤ nsBetween d.since s.time →
    exec (.preemptTimeout core ctx) s = .next ((((s.deliver ctx (.write 0) false { code := .preemptTimeout } 0 0).startKill ctx none 0).modCore core fun k =>
      { k with drains := k.drains.filter fun d => d.ctx != ctx }).endSlice core (s.vfOf ctx))) ∧
  (∀ (s t : State) (core ctx : Nat) (x : Ctx) (img : SaveImage), s.ctx? ctx = some x → x.st = .running → core ∈ x.cores → (s.core core).draining ctx = false →
    (s.vf x.vf).saving = false → s.lostImages x = [] → (s.core core).images.find? (fun i => i.ctx == ctx) = some img → img.ctls ≠ [] →
    s.restoreUnit x img (s.moveTo core core) ⟨img.teams, true, true⟩ = some t → exec (.contextRestore core ctx) s = .next t)

/-- THE HOST'S PAGE. Writes to an open page: ROOT.TROOT, ROOT.ENTRY and ROOT.ARG take the value, the command words its bits that are not reserved (R8); APER.BASE a multiple of 1 GiB, FQ.SIZE and FQ.BASE a legal value
while the queue is unset, any other being ignored with VF.STATUS [3] set (Table 21.2, R463); a kick raises the root's event counter (R467);
FQ.HEAD and FQ.RESUME act on the queue (R463); handover commands are carried out by their direction (R103, R104); a frame of the region set is
released (R464). BAR2 reads and writes through the root's tables, AtomicOps return the old bytes, a read without a root, or whose translation faults,
completes with UR, a misaligned AtomicOp is malformed and a 128-bit CAS completes with CA (R468). A write behind a posted write of the function that waits, and
a request whose translation the host must give first, are kept until they can be performed (R467, R468, R480). -/
def Obligations.HostPageEvents : Prop :=
  (∀ (s : State) (vf : Nat) (value : DWord), s.pageOpen vf = true →
    exec (.vfRegisterWrite vf 0x010 value 8) s = .next (s.modVf vf fun v => { v with rtroot := value }) ∧
    exec (.vfRegisterWrite vf 0x018 value 8) s = .next (s.modVf vf fun v => { v with rentry := value }) ∧
    exec (.vfRegisterWrite vf 0x030 value 8) s = .next (s.modVf vf fun v => { v with rarg := value }) ∧
    (∀ n, n < 3 → exec (.vfRegisterWrite vf (0x080 + 8 * n) value 8) s = .next (s.modVf vf fun v => { v with hcmd := listMod v.hcmd n fun _ => value &&& hcmdFields n })) ∧
    (∀ off width, width ≠ 8 → exec (.vfRegisterWrite vf off value width) s = .next s) ∧
    (value.toNat % 2 ^ 30 = 0 → exec (.aperBaseWrite vf value) s = .next (s.modVf vf fun v => { v with aper := value })) ∧
    (value.toNat % 2 ^ 30 ≠ 0 → exec (.aperBaseWrite vf value) s = .next (s.modVf vf fun v => { v with ignored := true })) ∧
    ((s.vf vf).root = none → value.toNat % 4096 = 0 → exec (.fqConfigWrite vf false value) s = .next (s.modVf vf fun v => { v with fqBase := value })) ∧
    ((s.vf vf).root = none → (∃ k, k < 11 ∧ value.toNat = 64 * 2 ^ k) → exec (.fqConfigWrite vf true value) s =
      .next ((s.modVf vf fun v => { v with fqSize := value }).drainHostFaults vf)) ∧
    (∀ size r, (s.vf vf).root = some r → (s.vf vf).fqSize ≠ 0 → exec (.fqConfigWrite vf size value) s = .next (s.modVf vf fun v => { v with ignored := true })) ∧
    (exec (.fqHeadWrite vf value) s = .next ((s.modVf vf fun v => { v with fqHead := value }).drainHostFaults vf)) ∧
    (value ∉ [1, 2, 3] → exec (.rootCmdInvalid vf value) s = .next (s.modVf vf fun v => { v with ignored := true }))) ∧
  (∀ (s : State) (vf e : Nat) (value : DWord) (r : Ctx), s.pageOpen vf = true → s.vfRoot vf = some r →
    (e < 63 → exec (.kick vf e) s = .next (s.modCtx r.idx fun c =>
      { c with events := listMod c.events e (· + 1), kicked := e :: c.kicked.filter (· != e) })) ∧
    (value.toNat % 65536 = 0 → exec (.fqResume vf value) s = .next (s.modVf vf fun v => { v with fqRstat := 2 })) ∧
    (value.toNat % 65536 ≠ 0 → r.st ≠ .killing → s.resumeStatus r.idx r (value.toNat % 65536) = .done →
      exec (.fqResume vf value) s = .next ((s.resumeHalts r.idx r.idx (value.toNat % 65536)).modVf vf fun v => { v with fqRstat := 0 }))) ∧
  (∀ (s : State) (vf : Nat) (w3 : DWord), s.pageOpen vf = true →
    let q := hcmdOf (listMod (s.vf vf).hcmd 3 fun _ => w3)
    let t := s.modVf vf fun v => { v with hcmd := listMod v.hcmd 3 fun _ => w3 &&& 0xFFFFFFFF00000000 }
    (q.1.toHost = true → exec (.handoverToHost vf w3) s = .next (t.handCommand vf q.1 q.2)) ∧
    (q.1.toHost = false → exec (.handoverToDevice vf w3) s = .next (t.handCommand vf q.1 q.2))) ∧
  (∀ (s : State) (vf : Nat) (v : DWord), s.pageOpen vf = true → v.toNat < 2 ^ 52 → dpaRegion v.toNat ∈ s.vfRegions vf →
    dpaOffset v.toNat < (s.dev.regions.getD (dpaRegion v.toNat) {}).size → exec (.releaseCommand vf v) s = .next (s.releaseFrame (frameOf v.toNat) (some vf))) ∧
  (∀ (s : State) (vf off : Nat) (value : DWord), s.pageUp vf = true → s.behindWrites vf = true →
    exec (.vfRegisterWrite vf off value 8) s = .next (s.postpone vf (.vfRegisterWrite vf off value 8)) ∧
    exec (.kick vf off) s = .next (s.postpone vf (.kick vf off)) ∧
    exec (.fqResume vf value) s = .next (s.postpone vf (.fqResume vf value)) ∧
    exec (.rootStart vf value) s = .next (s.postpone vf (.rootStart vf value))) ∧
  (∀ (s t : State) (vf off n v page : Nat) (wr : Bool) (r : Ctx), s.dev.up = true → off + n ≤ 2 ^ 30 → (s.vf vf).flr = false → s.behindWrites vf = false →
    s.vfRoot vf = some r → s.aperParts r .read (pieces (n / 64 + 2) ((s.vf vf).aper.toNat + off) n) = (t, .error (.host v page wr)) →
    exec (.bar2Read vf off n) s = .next ((t.askHost v page wr).postpone vf (.bar2Read vf off n))) ∧
  (∀ (s : State) (vf off n : Nat), s.dev.up = true → off + n ≤ 2 ^ 30 → (s.vf vf).root = none → s.behindWrites vf = false → exec (.bar2Read vf off n) s =
    .next ((s.modVf vf fun v => { v with reply := some (1, []) }).modVf vf fun v => { v with urCount := v.urCount + 1 })) ∧
  (∀ (s t : State) (vf off n : Nat) (r : Ctx) (l : List (Place × Nat)), s.dev.up = true → off + n ≤ 2 ^ 30 → (s.vf vf).flr = false → s.behindWrites vf = false → s.vfRoot vf = some r →
    let parts := pieces (n / 64 + 2) ((s.vf vf).aper.toNat + off) n
    (s.aperParts r .read parts = (t, .ok l) →
      let u := l.foldl (fun (r : State × List (BitVec 8)) q => ((r.1.aperRead q.1 q.2).1, r.2 ++ (r.1.aperRead q.1 q.2).2)) (t, [])
      exec (.bar2Read vf off n) s = .next (u.1.modVf vf fun v => { v with reply := some (0, u.2) })) ∧
    (∀ f, s.aperParts r .read parts = (t, .error (.fault f)) → exec (.bar2Read vf off n) s =
      .next ((t.modVf vf fun v => { v with reply := some (1, []) }).modVf vf fun v => { v with urCount := v.urCount + 1 }))) ∧
  (∀ (s t : State) (vf off : Nat) (data : List (BitVec 8)) (r : Ctx) (p : Place), s.dev.up = true → off + data.length ≤ 2 ^ 30 → (s.vf vf).flr = false → s.behindWrites vf = false →
    s.vfRoot vf = some r →
    s.aperParts r .write (pieces (data.length / 64 + 2) ((s.vf vf).aper.toNat + off) data.length) = (t, .ok [(p, data.length)]) →
    exec (.bar2Write vf off data) s = .next (t.aperWrite p data)) ∧
  (∀ (s t : State) (vf off d n : Nat) (op : AtomOp) (aw : AWidth) (v cmp : BitVec 128) (r : Ctx), s.dev.up = true → hostAtomic op aw = true →
    aw.bytes = n → off + n ≤ 2 ^ 30 →
    (off % n ≠ 0 → exec (.bar2Atomicop vf off op aw v cmp) s = .next (s.modVf vf fun x => { x with reply := some (3, []) })) ∧
    (off % n = 0 → aw = .w128 → exec (.bar2Atomicop vf off op aw v cmp) s = .next (s.modVf vf fun x => { x with reply := some (2, []) })) ∧
    (off % n = 0 → aw ≠ .w128 → (s.vf vf).flr = false → s.behindWrites vf = false → s.vfRoot vf = some r →
      s.aperParts r .atomic (pieces (n / 64 + 2) ((s.vf vf).aper.toNat + off) n) = (t, .ok [(.dev d, n)]) →
      let q := (t.settleSector none (.dev d) n).aperRead (.dev d) n
      let old := bytesVal q.2
      (∀ x, atomNew op n old (v.toNat % 2 ^ (8 * n)) (cmp.toNat % 2 ^ (8 * n)) = some x → exec (.bar2Atomicop vf off op aw v cmp) s =
        .next ((q.1.aperWrite (.dev d) (valBytes n x)).modVf vf fun y => { y with reply := some (0, valBytes n old) })) ∧
      (atomNew op n old (v.toNat % 2 ^ (8 * n)) (cmp.toNat % 2 ^ (8 * n)) = none → exec (.bar2Atomicop vf off op aw v cmp) s =
        .next (q.1.modVf vf fun y => { y with reply := some (0, valBytes n old) })))) ∧
  (∀ (s : State) (p : Place) (n : Nat), s.dev.soft = [] → s.dev.hard = [] → (∀ d, p ≠ .dev d) → s.homeRead none p n = (s, s.peekN p n)) ∧
  (∀ (s : State) (d n : Nat) (bs : List (BitVec 8)), s.aperRead (.dev d) n = s.homeRead none (.dev d) n ∧ s.aperWrite (.dev d) bs = s.homePoke none (.dev d) bs) ∧
  (∀ (s : State) (vf : Nat) (enable : Bool), exec (.atomicopRequesterEnable vf enable) s = .next (s.modVf vf fun v => { v with atomicReq := enable }))

/-- ROOT COMMANDS. START gives the root ROOT.TROOT and ROOT.ENTRY, empties the handover table and starts it; another value, or a root that is
not stopped, is ignored (R100, R462). CREATE with a root there says 1, with a bad block 2; otherwise the root of the profile is made, stopped,
its bootstrap table's address in ROOT.TROOT (R451, R465). SAVE begins with ROOT.CSTAT 0xFF and, once the tree is quiet, makes the image (R466); a RESTORE that fits is
carried out, and one that does not answers 4 with a RESTORE_SHORT record (R455 to R457). An FLR starts the root's kill, and the page answers nothing; when the root is
gone it is at its reset values in a new generation, every page-request index in use quarantined (R460). A hot reset leaves the reset state with the host's memory (Table 21.1; what the state keeps is the model's choice, log 5).
The regions CREATE takes its frames from are those that fit the mode and lie in the partition (R42, R450, log 48). -/
def Obligations.RootCommandEvents : Prop :=
  (∀ (s : State) (vf : Nat) (value : DWord) (r : Ctx), s.pageOpen vf = true → s.vfRoot vf = some r →
    (r.st = .stopped → exec (.rootStart vf 1) s = .next ((((s.modCtx r.idx fun c => { c with troot := (s.vf vf).rtroot, entry := (s.vf vf).rentry }).tlbDropCtxs
      [r.idx]).modVf vf fun v => { v with hand := [] }).startCtx r.idx)) ∧
    (r.st ≠ .stopped ∨ value ≠ 1 → exec (.rootStart vf value) s = .next (s.modVf vf fun v => { v with ignored := true }))) ∧
  (∀ (s : State) (vf r : Nat), s.pageOpen vf = true → (s.vf vf).root = some r → exec (.create vf) s = .next (s.modVf vf fun v => { v with cstat := 1 })) ∧
  (∀ (s : State) (vf : Nat), s.pageOpen vf = true → (s.vf vf).root = none → (s.vf vf).rarg.toNat % 64 ≠ 0 ∨ createBad (s.rootBlock vf) = true →
    exec (.create vf) s = .next (s.modVf vf fun v => { v with cstat := 2 })) ∧
  (∀ (s t : State) (vf part troot idx : Nat) (p : Profile), s.pageOpen vf = true → (s.vf vf).root = none → (s.vf vf).rarg.toNat % 64 = 0 →
    createBad (s.rootBlock vf) = false → (s.vf vf).profile = some (part, p) → blkF (s.rootBlock vf) 0 1 0 = 0 → blkW (s.rootBlock vf) 3 = 0 →
    s.bootstrap (s.frameRegions vf 0 (((sortNats p.cores).filter s.enabled).map dieOf).eraseDups p) = some (t, troot) →
    s.freeIndex = some idx →
    vf < t.vfs.length →
    ∃ u x, exec (.create vf) s = .next u ∧ u.ctxs = t.ctxs ++ [x] ∧ x.idx = idx ∧ x.vf = vf ∧ x.parent = none ∧ x.depth = 0 ∧ x.st = .stopped ∧
      x.seed = (s.rootBlock vf).getD 1 0 ∧ x.cores = (sortNats p.cores).filter s.enabled ∧ x.nq = p.nq ∧ x.prio = p.prio ∧ x.tagb = p.tagb ∧
      (u.vf vf).root = some idx ∧ (u.vf vf).rtroot = BitVec.ofNat 64 troot ∧ (u.vf vf).cstat = 0) ∧
  (∀ (s : State) (vf part : Nat) (p : Profile) (root : Ctx), s.pageOpen vf = true → s.vfRoot vf = some root → (s.vf vf).profile = some (part, p) →
    ((s.vf vf).saving = false → s.savedFrames vf + s.chargeCount root.idx ≤ p.saveAllow →
      let tree := s.treeOf vf
      let t := tree.foldl (fun s x => s.killCommsOf x) ((s.modVf vf fun v => { v with saving := true }).modVf vf fun v => { v with cstat := 0xFF })
      exec (.save vf) s = .next ((t.cores.map (·.1)).foldl (fun s c => tree.foldl (fun s x => s.beginDrain c x false) s) t)) ∧
    ((s.vf vf).saving = true → s.treeQuiet (s.treeOf vf) = true → exec (.save vf) s = .next (s.finishSave vf root (s.treeOf vf)))) ∧
  (∀ (s : State) (vf part : Nat) (p : Profile) (m : RootImage) (root : Ctx) (plan : FramePlan), s.pageOpen vf = true → (s.vf vf).root = none →
    (s.vf vf).profile = some (part, p) → (s.vf vf).rarg.toNat % 64 = 0 → s.rootBlock vf = [0, 0, 0, 0, BitVec.ofNat 64 m.handle, 0, 0, 0] → m.handle < 2 ^ 32 →
    s.dev.images.find? (fun i => i.handle == m.handle) = some m → m.ctxs.find? (fun c => c.idx == m.root) = some root →
    let dies := ((root.cores.filterMap (coreMap root.byDie (s.offer p))).map dieOf).eraseDups
    let frames := s.planFrames (s.frameRegions vf root.mode dies p) m
    (root.elastic = true ∨ coresFit root.byDie (s.offer p) = true → frames = some plan →
      exec (.restore vf) s = .next (s.doRestore vf m p plan root)) ∧
    (frames = none ∨ root.elastic = false ∧ coresFit root.byDie (s.offer p) = false → exec (.restore vf) s = .next (s.restoreShort vf))) ∧
  (∀ (s : State) (vf : Nat), s.pageUp vf = true →
    let stop (t : State) : State := t.modVf vf fun v => { v with flr := true, ready := false, posted := [] }
    (s.vfRoot vf = none → exec (.flr vf) s = .next (stop s)) ∧
    (∀ r, s.vfRoot vf = some r → r.st ≠ .killing → exec (.flr vf) s = .next (stop (s.startKill r.idx none 0)))) ∧
  (∀ (s : State) (vf : Nat), (s.vf vf).flr = true → (s.vf vf).root = none → (s.vf vf).handCmds = [] →
    exec (.flrComplete vf) s = .next ((s.discardHost vf).modVf vf fun v => { v.flrReset s.time with ready := s.dev.up })) ∧
  (∀ (v : Vf) (now : Nat), let w := v.flrReset now
    w.gen = (v.gen + 1) % 65536 ∧ w.flr = false ∧ w.fqSize = 0 ∧ w.hand = [] ∧ w.aper = 0 ∧ ∀ r ∈ w.pri, r.quarantine = true) ∧
  (∀ (s : State), ∃ t, exec .hotReset s = .next t ∧ t.ctxs = [] ∧ t.cores = [] ∧ t.vfs = State.reset.vfs ∧ t.dev.up = false ∧ t.mem.hbm = [] ∧
    t.mem.host = s.mem.host)

/-- DEVICE MANAGEMENT. POWER_GOOD brings the device up with the image, or with the last one that verified, memory zeroed and every function ready (R474); an
update takes an image that verifies and is not below the rollback counter (R472); power off leaves the device down. Throttling and
clamping are recorded (R473, R475). A region descriptor that breaks no rule replaces its entry (R39, R40); partitions are cut where no root
lives (R449); a profile inside its partition is assigned to a function without a root (R451, R465); images move and are released
(R466). -/
def Obligations.DeviceManagementEvents : Prop :=
  (∀ (s : State) (version : Nat) (image : List (BitVec 8)), s.dev.up = false →
    let fw := if s.dev.accepts version image then version else s.dev.fwVersion
    ∃ t, exec (.powerGood version image) s = .next t ∧ t.dev.power = true ∧ t.ctxs = s.ctxs ∧ t.dev.up = (fw != 0) ∧
      (fw ≠ 0 → t.dev.fwVersion = fw ∧ t.mem.hbm = [] ∧ ∀ v ∈ t.vfs, v.ready = true)) ∧
  (∀ (s : State) (version : Nat) (image : List (BitVec 8)), s.dev.up = true → exec (.firmwareUpdate version image) s =
    .next { s with dev := { s.dev.dma 0 image with fwVersion := if s.dev.accepts version image then version else s.dev.fwVersion } }) ∧
  (∀ (s : State), ∃ t, exec .panelPowerOff s = .next t ∧ t.dev.power = false ∧ t.dev.up = false ∧ t.ctxs = [] ∧ t.dev.fwVersion = s.dev.fwVersion) ∧
  (∀ (s : State) (die : Nat), (∃ t, exec (.thermalThrottle die) s = .next t ∧ die ∈ t.dev.throttled ∧ { t with dev := s.dev } = s) ∧
    ∃ t, exec (.currentClamp die) s = .next t ∧ die ∈ t.dev.clamped ∧ { t with dev := s.dev } = s) ∧
  (∀ (s : State) (idx : Nat) (w0 w1 w2 w3 : DWord), s.dev.up = true → idx < s.dev.regions.length →
    let r : Region := { w0 := w0 &&& (if bitsOf w0.toNat 1 0 = 2 then 0xFFFFFFFFFF else 0xFFFFFFFE03), w1 := w1 &&& 0xFFFFFF, w2, w3 := w3 &&& 0xFFFFFFFF }
    r.bad = false → (∀ q ∈ s.dev.regions.zipIdx, q.2 ≠ idx → q.1.meets r = false) → s.regionNamed idx = false →
    exec (.regionDescriptorWrite idx w0 w1 w2 w3) s = .next { s with dev := { s.dev with regions := listMod s.dev.regions idx fun _ => r } }) ∧
  (∀ (s : State) (runs : List (Nat × Nat)), s.dev.up = true → cutOk (runs.map fun r => ⟨r.1, r.2⟩) = true → (∀ v ∈ s.vfs, v.root = none) →
    ∃ t, exec (.partitionCut runs) s = .next t ∧ t.dev.parts = runs.map (fun r => ⟨r.1, r.2⟩) ∧ t.ctxs = s.ctxs) ∧
  (∀ (s : State) (vf part : Nat) (q : Partition) (p : Profile), s.dev.parts[part]? = some q → s.dev.up = true → vf < 96 → (s.vf vf).root = none →
    (s.vfs.zipIdx.filter fun v => v.2 != vf && v.1.profile.any fun f => f.1 == part).length < 8 → s.profileOk q p = true →
    exec (.resourceProfileAssign vf part p) s = .next (s.modVf vf fun v => { v with profile := some (part, p) })) ∧
  (∀ (s : State) (handle : Nat), ∃ t u v, exec (.imageMove handle false) s = .next t ∧ exec (.imageMove handle true) s = .next u ∧
    exec (.imageRelease handle) s = .next v ∧ (∀ m ∈ t.dev.images, m.handle ≠ handle) ∧
    (∀ m ∈ s.dev.images, m.handle = handle → m ∈ t.dev.away) ∧ (∀ m ∈ s.dev.away, m.handle = handle → m ∈ u.dev.images) ∧
    (∀ m, m ∈ v.dev.images ↔ m ∈ s.dev.images ∧ m.handle ≠ handle))
end

