-- ==== Sys2Proof/Laws/Tables.lean ====
section
/-! SUPPORT. Tables keyed by numbers, changed lists, and byte memories: what reads give after writes, and that every memory
operation keeps the canonical form. -/

namespace Sys2Proof.Machine

/-! ## Tables -/

/-- A table reads as it was put. -/
theorem tabGet_tabPut {α : Type} (d : α) (k : Nat) (v : α) (l : List (Nat × α)) (j : Nat) :
    tabGet d j (tabPut k v l) = if j = k then v else tabGet d j l := by
  induction l with
  | nil =>
    by_cases e : j = k
    · subst e; simp [tabPut, tabGet]
    · have e' : ¬ k = j := fun q => e q.symm
      simp [tabPut, tabGet, e, e']
  | cons p t ih =>
    obtain ⟨i, w⟩ := p
    by_cases h1 : k < i
    · by_cases e : j = k
      · subst e; simp [tabPut, tabGet, h1]
      · have e' : ¬ k = j := fun q => e q.symm
        simp [tabPut, tabGet, h1, e, e']
    · by_cases h2 : k = i
      · subst h2
        by_cases e : j = k
        · subst e; simp [tabPut, tabGet]
        · have e' : ¬ k = j := fun q => e q.symm
          simp [tabPut, tabGet, e, e']
      · by_cases e : i = j
        · subst e
          have : ¬ i = k := fun q => h2 q.symm
          simp [tabPut, tabGet, h1, h2, this]
        · simp [tabPut, tabGet, h1, h2, e, ih]

/-- What is put is found. -/
theorem tabFind_tabPut {α : Type} (k : Nat) (v : α) (l : List (Nat × α)) (j : Nat) :
    tabFind j (tabPut k v l) = if j = k then some v else tabFind j l := by
  induction l with
  | nil =>
    by_cases e : j = k
    · subst e; simp [tabPut, tabFind]
    · have e' : ¬ k = j := fun q => e q.symm
      simp [tabPut, tabFind, e, e']
  | cons p t ih =>
    obtain ⟨i, w⟩ := p
    by_cases h1 : k < i
    · by_cases e : j = k
      · subst e; simp [tabPut, tabFind, h1]
      · have e' : ¬ k = j := fun q => e q.symm
        simp [tabPut, tabFind, h1, e, e']
    · by_cases h2 : k = i
      · subst h2
        by_cases e : j = k
        · subst e; simp [tabPut, tabFind]
        · have e' : ¬ k = j := fun q => e q.symm
          simp [tabPut, tabFind, e, e']
      · by_cases e : i = j
        · subst e
          have : ¬ i = k := fun q => h2 q.symm
          simp [tabPut, tabFind, h1, h2, this]
        · simp [tabPut, tabFind, h1, h2, e, ih]

/-! ## Changed lists -/

@[simp] theorem listMod_length {α : Type} (l : List α) (n : Nat) (f : α → α) : (listMod l n f).length = l.length := by
  induction l generalizing n with
  | nil => rfl
  | cons x t ih => cases n <;> simp [listMod, ih]

/-- The element that is changed. -/
theorem listMod_getD_self {α : Type} (l : List α) (n : Nat) (f : α → α) (d : α) (h : n < l.length) :
    (listMod l n f).getD n d = f (l.getD n d) := by
  induction l generalizing n with
  | nil => simp at h
  | cons x t ih =>
    cases n with
    | zero => simp [listMod]
    | succ n => simpa [listMod] using ih n (by simpa using h)

/-- Every other element. -/
theorem listMod_getD_other {α : Type} (l : List α) (n : Nat) (f : α → α) (d : α) (m : Nat) (h : m ≠ n) :
    (listMod l n f).getD m d = l.getD m d := by
  induction l generalizing n m with
  | nil => rfl
  | cons x t ih =>
    cases n with
    | zero => cases m with
      | zero => exact absurd rfl h
      | succ m => simp [listMod]
    | succ n => cases m with
      | zero => simp [listMod]
      | succ m => simpa [listMod] using ih n m (by omega)

/-- The element with a key, after the elements with that key are changed. -/
theorem find?_mapIf_self {α : Type} (l : List α) (key : α → Nat) (f : α → α) (hf : ∀ x, key (f x) = key x) (i : Nat) :
    (mapIf (fun x => key x == i) f l).find? (fun x => key x == i) = (l.find? fun x => key x == i).map f := by
  induction l with
  | nil => rfl
  | cons x t ih =>
    by_cases e : key x = i
    · simp [mapIf, e, hf]
    · simpa [mapIf, e] using ih

/-- An element with another key. -/
theorem find?_mapIf_other {α : Type} (l : List α) (key : α → Nat) (f : α → α) (hf : ∀ x, key (f x) = key x) {i j : Nat} (h : j ≠ i) :
    (mapIf (fun x => key x == i) f l).find? (fun x => key x == j) = l.find? fun x => key x == j := by
  induction l with
  | nil => rfl
  | cons x t ih =>
    by_cases e : key x = i
    · have : ¬ i = j := fun q => h q.symm
      simpa [mapIf, e, hf, this] using ih
    · by_cases g : key x = j
      · simp [mapIf, g, h]
      · simpa [mapIf, e, g] using ih

/-! ## Byte memories -/

/-- A byte that was put is read, and every other byte as before. -/
theorem Mem.get_put (m : List Host.Cell) (a : Nat) (b : BitVec 8) (x : Nat) :
    Mem.get (Mem.put m a b) x = if x = a then b else Mem.get m x := by
  induction m with
  | nil =>
    by_cases e : x = a
    · subst e; simp [Mem.put, Mem.get]
    · have e' : ¬ a = x := fun q => e q.symm
      simp [Mem.put, Mem.get, e, e']
  | cons p t ih =>
    obtain ⟨k, c⟩ := p
    by_cases h1 : a < k
    · by_cases e : x = a
      · subst e; simp [Mem.put, h1, Mem.get]
      · have e' : ¬ a = x := fun q => e q.symm
        simp [Mem.put, h1, Mem.get, e, e']
    · by_cases h2 : a = k
      · subst h2
        by_cases e : x = a
        · subst e; simp [Mem.put, Mem.get]
        · have e' : ¬ a = x := fun q => e q.symm
          simp [Mem.put, Mem.get, e, e']
      · by_cases e : k = x
        · subst e
          have : ¬ k = a := fun q => h2 q.symm
          simp [Mem.put, h1, h2, Mem.get, this]
        · simpa [Mem.put, h1, h2, Mem.get, e] using ih

/-- A byte whose entries are taken out reads as 0, and every other byte as before. -/
theorem Mem.get_drop (m : List Host.Cell) (a x : Nat) :
    Mem.get (m.filter fun c => c.1 != a) x = if x = a then 0 else Mem.get m x := by
  induction m with
  | nil => simp [Mem.get]
  | cons p t ih =>
    obtain ⟨k, c⟩ := p
    by_cases h : k = a
    · subst h
      by_cases e : x = k
      · subst e; simpa [List.filter_cons] using ih
      · have e' : ¬ k = x := fun q => e q.symm
        simpa [List.filter_cons, Mem.get, e, e'] using ih
    · by_cases e : k = x
      · subst e; simp [Mem.get, h]
      · simpa [List.filter_cons, Mem.get, h, e] using ih

/-- A byte reads as it was written, and every other byte as before, whatever the memory. -/
theorem Mem.get_set (m : List Host.Cell) (a : Nat) (b : BitVec 8) (x : Nat) :
    Mem.get (Mem.set m a b) x = if x = a then b else Mem.get m x := by
  unfold Mem.set
  split
  · next h => rw [Mem.get_drop, h]
  · exact Mem.get_put m a b x

/-- Putting a byte keeps every address above one that lies below the byte's. -/
theorem Mem.put_above (m : List Host.Cell) (a k : Nat) (b : BitVec 8) (hk : k < a) (h : m.all (fun c => k < c.1) = true) :
    (Mem.put m a b).all (fun c => k < c.1) = true := by
  induction m with
  | nil => simp [Mem.put, hk]
  | cons p t ih =>
    obtain ⟨j, c⟩ := p
    simp only [List.all_cons, Bool.and_eq_true] at h
    unfold Mem.put
    split
    · simp only [List.all_cons, Bool.and_eq_true]; exact ⟨by simpa using hk, h.1, h.2⟩
    · split
      · simp only [List.all_cons, Bool.and_eq_true]; exact ⟨by simpa using hk, h.2⟩
      · simp only [List.all_cons, Bool.and_eq_true]; exact ⟨h.1, ih h.2⟩

/-- Putting a byte that is not 0 keeps the canonical form. -/
theorem Mem.wf_put (m : List Host.Cell) (h : Mem.wf m = true) (a : Nat) (b : BitVec 8) (hb : b ≠ 0) : Mem.wf (Mem.put m a b) = true := by
  induction m with
  | nil => simpa [Mem.put, Mem.wf] using hb
  | cons p t ih =>
    obtain ⟨k, c⟩ := p
    simp only [Mem.wf, Bool.and_eq_true] at h
    obtain ⟨⟨hc, hk⟩, ht⟩ := h
    unfold Mem.put
    split
    · next h1 =>
      simp only [Mem.wf, Bool.and_eq_true, List.all_cons]
      refine ⟨⟨by simpa using hb, by simpa using h1, ?_⟩, ⟨hc, hk⟩, ht⟩
      rw [List.all_eq_true] at hk ⊢
      intro q hq
      have := hk q hq
      simp only [decide_eq_true_eq] at this ⊢
      omega
    · split
      · next h2 =>
        subst h2
        simp only [Mem.wf, Bool.and_eq_true]
        exact ⟨⟨by simpa using hb, hk⟩, ht⟩
      · simp only [Mem.wf, Bool.and_eq_true]
        exact ⟨⟨hc, Mem.put_above t a k b (by omega) hk⟩, ih ht⟩

/-- Taking entries out keeps the canonical form. -/
theorem Mem.wf_filter (m : List Host.Cell) (h : Mem.wf m = true) (f : Host.Cell → Bool) : Mem.wf (m.filter f) = true := by
  induction m with
  | nil => rfl
  | cons p t ih =>
    obtain ⟨k, b⟩ := p
    simp only [Mem.wf, Bool.and_eq_true] at h
    obtain ⟨⟨hb, hk⟩, ht⟩ := h
    simp only [List.filter_cons]
    split
    · simp only [Mem.wf, Bool.and_eq_true]
      refine ⟨⟨hb, ?_⟩, ih ht⟩
      rw [List.all_eq_true] at hk ⊢
      intro q hq
      exact hk q (List.mem_of_mem_filter hq)
    · exact ih ht

/-- Writing one byte keeps the canonical form. -/
theorem Mem.wf_set (m : List Host.Cell) (h : Mem.wf m = true) (a : Nat) (b : BitVec 8) : Mem.wf (Mem.set m a b) = true := by
  unfold Mem.set
  split
  · exact Mem.wf_filter m h _
  · next hb => exact Mem.wf_put m h a b hb

/-- Writing bytes keeps the canonical form. -/
theorem Mem.wf_setBytes (m : List Host.Cell) (h : Mem.wf m = true) (a : Nat) (bs : List (BitVec 8)) : Mem.wf (Mem.setBytes m a bs) = true := by
  induction bs generalizing m a with
  | nil => exact h
  | cons b t ih => exact ih _ (Mem.wf_set m h a b) _

/-- Zeroing a range keeps the canonical form. -/
theorem Mem.wf_clear (m : List Host.Cell) (h : Mem.wf m = true) (a n : Nat) : Mem.wf (Mem.clear m a n) = true := Mem.wf_filter m h _

end Sys2Proof.Machine
end

