-- ==== Sys2Proof/Laws/State.lean ====
section
/-! SUPPORT. What each update of the state leaves in every field: one lemma per field and update, and what the parts of the state
read as after an update of theirs. -/

namespace Sys2Proof.Machine

/-! ## `State.setCore` -/

@[simp] theorem State.setCore_dev (s : State) (c : Nat) (k : Core) : (s.setCore c k).dev = s.dev := rfl
@[simp] theorem State.setCore_gens (s : State) (c : Nat) (k : Core) : (s.setCore c k).gens = s.gens := rfl
@[simp] theorem State.setCore_links (s : State) (c : Nat) (k : Core) : (s.setCore c k).links = s.links := rfl
@[simp] theorem State.setCore_time (s : State) (c : Nat) (k : Core) : (s.setCore c k).time = s.time := rfl
@[simp] theorem State.setCore_mem (s : State) (c : Nat) (k : Core) : (s.setCore c k).mem = s.mem := rfl
@[simp] theorem State.setCore_vfs (s : State) (c : Nat) (k : Core) : (s.setCore c k).vfs = s.vfs := rfl
@[simp] theorem State.setCore_ctxs (s : State) (c : Nat) (k : Core) : (s.setCore c k).ctxs = s.ctxs := rfl
@[simp] theorem State.setCore_dies (s : State) (c : Nat) (k : Core) : (s.setCore c k).dies = s.dies := rfl
@[simp] theorem State.setCore_firns (s : State) (c : Nat) (k : Core) : (s.setCore c k).firns = s.firns := rfl
@[simp] theorem State.setCore_scrubs (s : State) (c : Nat) (k : Core) : (s.setCore c k).scrubs = s.scrubs := rfl
@[simp] theorem State.setCore_waitRel (s : State) (c : Nat) (k : Core) : (s.setCore c k).waitRel = s.waitRel := rfl
@[simp] theorem State.setCore_charges (s : State) (c : Nat) (k : Core) : (s.setCore c k).charges = s.charges := rfl
@[simp] theorem State.setCore_halts (s : State) (c : Nat) (k : Core) : (s.setCore c k).halts = s.halts := rfl
@[simp] theorem State.setCore_waitFaults (s : State) (c : Nat) (k : Core) : (s.setCore c k).waitFaults = s.waitFaults := rfl
@[simp] theorem State.setCore_kills (s : State) (c : Nat) (k : Core) : (s.setCore c k).kills = s.kills := rfl
@[simp] theorem State.setCore_words (s : State) (c : Nat) (k : Core) : (s.setCore c k).words = s.words := rfl
@[simp] theorem State.setCore_comms (s : State) (c : Nat) (k : Core) : (s.setCore c k).comms = s.comms := rfl
@[simp] theorem State.setCore_reqs (s : State) (c : Nat) (k : Core) : (s.setCore c k).reqs = s.reqs := rfl
@[simp] theorem State.setCore_nextReq (s : State) (c : Nat) (k : Core) : (s.setCore c k).nextReq = s.nextReq := rfl
@[simp] theorem State.setCore_nextComm (s : State) (c : Nat) (k : Core) : (s.setCore c k).nextComm = s.nextComm := rfl
@[simp] theorem State.setCore_routers (s : State) (c : Nat) (k : Core) : (s.setCore c k).routers = s.routers := rfl
@[simp] theorem State.setCore_launches (s : State) (c : Nat) (k : Core) : (s.setCore c k).launches = s.launches := rfl
@[simp] theorem State.setCore_free (s : State) (c : Nat) (k : Core) : (s.setCore c k).free = s.free := rfl
@[simp] theorem State.setCore_agenda (s : State) (c : Nat) (k : Core) : (s.setCore c k).agenda = s.agenda := rfl
@[simp] theorem State.setCore_cur (s : State) (c : Nat) (k : Core) : (s.setCore c k).cur = s.cur := rfl

/-! ## `State.modCore` -/

@[simp] theorem State.modCore_dev (s : State) (c : Nat) (f : Core → Core) : (s.modCore c f).dev = s.dev := rfl
@[simp] theorem State.modCore_gens (s : State) (c : Nat) (f : Core → Core) : (s.modCore c f).gens = s.gens := rfl
@[simp] theorem State.modCore_links (s : State) (c : Nat) (f : Core → Core) : (s.modCore c f).links = s.links := rfl
@[simp] theorem State.modCore_time (s : State) (c : Nat) (f : Core → Core) : (s.modCore c f).time = s.time := rfl
@[simp] theorem State.modCore_mem (s : State) (c : Nat) (f : Core → Core) : (s.modCore c f).mem = s.mem := rfl
@[simp] theorem State.modCore_vfs (s : State) (c : Nat) (f : Core → Core) : (s.modCore c f).vfs = s.vfs := rfl
@[simp] theorem State.modCore_ctxs (s : State) (c : Nat) (f : Core → Core) : (s.modCore c f).ctxs = s.ctxs := rfl
@[simp] theorem State.modCore_dies (s : State) (c : Nat) (f : Core → Core) : (s.modCore c f).dies = s.dies := rfl
@[simp] theorem State.modCore_firns (s : State) (c : Nat) (f : Core → Core) : (s.modCore c f).firns = s.firns := rfl
@[simp] theorem State.modCore_scrubs (s : State) (c : Nat) (f : Core → Core) : (s.modCore c f).scrubs = s.scrubs := rfl
@[simp] theorem State.modCore_waitRel (s : State) (c : Nat) (f : Core → Core) : (s.modCore c f).waitRel = s.waitRel := rfl
@[simp] theorem State.modCore_charges (s : State) (c : Nat) (f : Core → Core) : (s.modCore c f).charges = s.charges := rfl
@[simp] theorem State.modCore_halts (s : State) (c : Nat) (f : Core → Core) : (s.modCore c f).halts = s.halts := rfl
@[simp] theorem State.modCore_waitFaults (s : State) (c : Nat) (f : Core → Core) : (s.modCore c f).waitFaults = s.waitFaults := rfl
@[simp] theorem State.modCore_kills (s : State) (c : Nat) (f : Core → Core) : (s.modCore c f).kills = s.kills := rfl
@[simp] theorem State.modCore_words (s : State) (c : Nat) (f : Core → Core) : (s.modCore c f).words = s.words := rfl
@[simp] theorem State.modCore_comms (s : State) (c : Nat) (f : Core → Core) : (s.modCore c f).comms = s.comms := rfl
@[simp] theorem State.modCore_reqs (s : State) (c : Nat) (f : Core → Core) : (s.modCore c f).reqs = s.reqs := rfl
@[simp] theorem State.modCore_nextReq (s : State) (c : Nat) (f : Core → Core) : (s.modCore c f).nextReq = s.nextReq := rfl
@[simp] theorem State.modCore_nextComm (s : State) (c : Nat) (f : Core → Core) : (s.modCore c f).nextComm = s.nextComm := rfl
@[simp] theorem State.modCore_routers (s : State) (c : Nat) (f : Core → Core) : (s.modCore c f).routers = s.routers := rfl
@[simp] theorem State.modCore_launches (s : State) (c : Nat) (f : Core → Core) : (s.modCore c f).launches = s.launches := rfl
@[simp] theorem State.modCore_free (s : State) (c : Nat) (f : Core → Core) : (s.modCore c f).free = s.free := rfl
@[simp] theorem State.modCore_agenda (s : State) (c : Nat) (f : Core → Core) : (s.modCore c f).agenda = s.agenda := rfl
@[simp] theorem State.modCore_cur (s : State) (c : Nat) (f : Core → Core) : (s.modCore c f).cur = s.cur := rfl

/-! ## `State.modWarp` -/

@[simp] theorem State.modWarp_dev (s : State) (c slot : Nat) (f : Warp → Warp) : (s.modWarp c slot f).dev = s.dev := rfl
@[simp] theorem State.modWarp_gens (s : State) (c slot : Nat) (f : Warp → Warp) : (s.modWarp c slot f).gens = s.gens := rfl
@[simp] theorem State.modWarp_links (s : State) (c slot : Nat) (f : Warp → Warp) : (s.modWarp c slot f).links = s.links := rfl
@[simp] theorem State.modWarp_time (s : State) (c slot : Nat) (f : Warp → Warp) : (s.modWarp c slot f).time = s.time := rfl
@[simp] theorem State.modWarp_mem (s : State) (c slot : Nat) (f : Warp → Warp) : (s.modWarp c slot f).mem = s.mem := rfl
@[simp] theorem State.modWarp_vfs (s : State) (c slot : Nat) (f : Warp → Warp) : (s.modWarp c slot f).vfs = s.vfs := rfl
@[simp] theorem State.modWarp_ctxs (s : State) (c slot : Nat) (f : Warp → Warp) : (s.modWarp c slot f).ctxs = s.ctxs := rfl
@[simp] theorem State.modWarp_dies (s : State) (c slot : Nat) (f : Warp → Warp) : (s.modWarp c slot f).dies = s.dies := rfl
@[simp] theorem State.modWarp_firns (s : State) (c slot : Nat) (f : Warp → Warp) : (s.modWarp c slot f).firns = s.firns := rfl
@[simp] theorem State.modWarp_scrubs (s : State) (c slot : Nat) (f : Warp → Warp) : (s.modWarp c slot f).scrubs = s.scrubs := rfl
@[simp] theorem State.modWarp_waitRel (s : State) (c slot : Nat) (f : Warp → Warp) : (s.modWarp c slot f).waitRel = s.waitRel := rfl
@[simp] theorem State.modWarp_charges (s : State) (c slot : Nat) (f : Warp → Warp) : (s.modWarp c slot f).charges = s.charges := rfl
@[simp] theorem State.modWarp_halts (s : State) (c slot : Nat) (f : Warp → Warp) : (s.modWarp c slot f).halts = s.halts := rfl
@[simp] theorem State.modWarp_waitFaults (s : State) (c slot : Nat) (f : Warp → Warp) : (s.modWarp c slot f).waitFaults = s.waitFaults := rfl
@[simp] theorem State.modWarp_kills (s : State) (c slot : Nat) (f : Warp → Warp) : (s.modWarp c slot f).kills = s.kills := rfl
@[simp] theorem State.modWarp_words (s : State) (c slot : Nat) (f : Warp → Warp) : (s.modWarp c slot f).words = s.words := rfl
@[simp] theorem State.modWarp_comms (s : State) (c slot : Nat) (f : Warp → Warp) : (s.modWarp c slot f).comms = s.comms := rfl
@[simp] theorem State.modWarp_reqs (s : State) (c slot : Nat) (f : Warp → Warp) : (s.modWarp c slot f).reqs = s.reqs := rfl
@[simp] theorem State.modWarp_nextReq (s : State) (c slot : Nat) (f : Warp → Warp) : (s.modWarp c slot f).nextReq = s.nextReq := rfl
@[simp] theorem State.modWarp_nextComm (s : State) (c slot : Nat) (f : Warp → Warp) : (s.modWarp c slot f).nextComm = s.nextComm := rfl
@[simp] theorem State.modWarp_routers (s : State) (c slot : Nat) (f : Warp → Warp) : (s.modWarp c slot f).routers = s.routers := rfl
@[simp] theorem State.modWarp_launches (s : State) (c slot : Nat) (f : Warp → Warp) : (s.modWarp c slot f).launches = s.launches := rfl
@[simp] theorem State.modWarp_free (s : State) (c slot : Nat) (f : Warp → Warp) : (s.modWarp c slot f).free = s.free := rfl
@[simp] theorem State.modWarp_agenda (s : State) (c slot : Nat) (f : Warp → Warp) : (s.modWarp c slot f).agenda = s.agenda := rfl
@[simp] theorem State.modWarp_cur (s : State) (c slot : Nat) (f : Warp → Warp) : (s.modWarp c slot f).cur = s.cur := rfl

/-! ## `State.modCtl` -/

@[simp] theorem State.modCtl_dev (s : State) (c x : Nat) (f : Ctl → Ctl) : (s.modCtl c x f).dev = s.dev := rfl
@[simp] theorem State.modCtl_gens (s : State) (c x : Nat) (f : Ctl → Ctl) : (s.modCtl c x f).gens = s.gens := rfl
@[simp] theorem State.modCtl_links (s : State) (c x : Nat) (f : Ctl → Ctl) : (s.modCtl c x f).links = s.links := rfl
@[simp] theorem State.modCtl_time (s : State) (c x : Nat) (f : Ctl → Ctl) : (s.modCtl c x f).time = s.time := rfl
@[simp] theorem State.modCtl_mem (s : State) (c x : Nat) (f : Ctl → Ctl) : (s.modCtl c x f).mem = s.mem := rfl
@[simp] theorem State.modCtl_vfs (s : State) (c x : Nat) (f : Ctl → Ctl) : (s.modCtl c x f).vfs = s.vfs := rfl
@[simp] theorem State.modCtl_ctxs (s : State) (c x : Nat) (f : Ctl → Ctl) : (s.modCtl c x f).ctxs = s.ctxs := rfl
@[simp] theorem State.modCtl_dies (s : State) (c x : Nat) (f : Ctl → Ctl) : (s.modCtl c x f).dies = s.dies := rfl
@[simp] theorem State.modCtl_firns (s : State) (c x : Nat) (f : Ctl → Ctl) : (s.modCtl c x f).firns = s.firns := rfl
@[simp] theorem State.modCtl_scrubs (s : State) (c x : Nat) (f : Ctl → Ctl) : (s.modCtl c x f).scrubs = s.scrubs := rfl
@[simp] theorem State.modCtl_waitRel (s : State) (c x : Nat) (f : Ctl → Ctl) : (s.modCtl c x f).waitRel = s.waitRel := rfl
@[simp] theorem State.modCtl_charges (s : State) (c x : Nat) (f : Ctl → Ctl) : (s.modCtl c x f).charges = s.charges := rfl
@[simp] theorem State.modCtl_halts (s : State) (c x : Nat) (f : Ctl → Ctl) : (s.modCtl c x f).halts = s.halts := rfl
@[simp] theorem State.modCtl_waitFaults (s : State) (c x : Nat) (f : Ctl → Ctl) : (s.modCtl c x f).waitFaults = s.waitFaults := rfl
@[simp] theorem State.modCtl_kills (s : State) (c x : Nat) (f : Ctl → Ctl) : (s.modCtl c x f).kills = s.kills := rfl
@[simp] theorem State.modCtl_words (s : State) (c x : Nat) (f : Ctl → Ctl) : (s.modCtl c x f).words = s.words := rfl
@[simp] theorem State.modCtl_comms (s : State) (c x : Nat) (f : Ctl → Ctl) : (s.modCtl c x f).comms = s.comms := rfl
@[simp] theorem State.modCtl_reqs (s : State) (c x : Nat) (f : Ctl → Ctl) : (s.modCtl c x f).reqs = s.reqs := rfl
@[simp] theorem State.modCtl_nextReq (s : State) (c x : Nat) (f : Ctl → Ctl) : (s.modCtl c x f).nextReq = s.nextReq := rfl
@[simp] theorem State.modCtl_nextComm (s : State) (c x : Nat) (f : Ctl → Ctl) : (s.modCtl c x f).nextComm = s.nextComm := rfl
@[simp] theorem State.modCtl_routers (s : State) (c x : Nat) (f : Ctl → Ctl) : (s.modCtl c x f).routers = s.routers := rfl
@[simp] theorem State.modCtl_launches (s : State) (c x : Nat) (f : Ctl → Ctl) : (s.modCtl c x f).launches = s.launches := rfl
@[simp] theorem State.modCtl_free (s : State) (c x : Nat) (f : Ctl → Ctl) : (s.modCtl c x f).free = s.free := rfl
@[simp] theorem State.modCtl_agenda (s : State) (c x : Nat) (f : Ctl → Ctl) : (s.modCtl c x f).agenda = s.agenda := rfl
@[simp] theorem State.modCtl_cur (s : State) (c x : Nat) (f : Ctl → Ctl) : (s.modCtl c x f).cur = s.cur := rfl

/-! ## `State.modTeam` -/

@[simp] theorem State.modTeam_dev (s : State) (c t : Nat) (f : Team → Team) : (s.modTeam c t f).dev = s.dev := rfl
@[simp] theorem State.modTeam_gens (s : State) (c t : Nat) (f : Team → Team) : (s.modTeam c t f).gens = s.gens := rfl
@[simp] theorem State.modTeam_links (s : State) (c t : Nat) (f : Team → Team) : (s.modTeam c t f).links = s.links := rfl
@[simp] theorem State.modTeam_time (s : State) (c t : Nat) (f : Team → Team) : (s.modTeam c t f).time = s.time := rfl
@[simp] theorem State.modTeam_mem (s : State) (c t : Nat) (f : Team → Team) : (s.modTeam c t f).mem = s.mem := rfl
@[simp] theorem State.modTeam_vfs (s : State) (c t : Nat) (f : Team → Team) : (s.modTeam c t f).vfs = s.vfs := rfl
@[simp] theorem State.modTeam_ctxs (s : State) (c t : Nat) (f : Team → Team) : (s.modTeam c t f).ctxs = s.ctxs := rfl
@[simp] theorem State.modTeam_dies (s : State) (c t : Nat) (f : Team → Team) : (s.modTeam c t f).dies = s.dies := rfl
@[simp] theorem State.modTeam_firns (s : State) (c t : Nat) (f : Team → Team) : (s.modTeam c t f).firns = s.firns := rfl
@[simp] theorem State.modTeam_scrubs (s : State) (c t : Nat) (f : Team → Team) : (s.modTeam c t f).scrubs = s.scrubs := rfl
@[simp] theorem State.modTeam_waitRel (s : State) (c t : Nat) (f : Team → Team) : (s.modTeam c t f).waitRel = s.waitRel := rfl
@[simp] theorem State.modTeam_charges (s : State) (c t : Nat) (f : Team → Team) : (s.modTeam c t f).charges = s.charges := rfl
@[simp] theorem State.modTeam_halts (s : State) (c t : Nat) (f : Team → Team) : (s.modTeam c t f).halts = s.halts := rfl
@[simp] theorem State.modTeam_waitFaults (s : State) (c t : Nat) (f : Team → Team) : (s.modTeam c t f).waitFaults = s.waitFaults := rfl
@[simp] theorem State.modTeam_kills (s : State) (c t : Nat) (f : Team → Team) : (s.modTeam c t f).kills = s.kills := rfl
@[simp] theorem State.modTeam_words (s : State) (c t : Nat) (f : Team → Team) : (s.modTeam c t f).words = s.words := rfl
@[simp] theorem State.modTeam_comms (s : State) (c t : Nat) (f : Team → Team) : (s.modTeam c t f).comms = s.comms := rfl
@[simp] theorem State.modTeam_reqs (s : State) (c t : Nat) (f : Team → Team) : (s.modTeam c t f).reqs = s.reqs := rfl
@[simp] theorem State.modTeam_nextReq (s : State) (c t : Nat) (f : Team → Team) : (s.modTeam c t f).nextReq = s.nextReq := rfl
@[simp] theorem State.modTeam_nextComm (s : State) (c t : Nat) (f : Team → Team) : (s.modTeam c t f).nextComm = s.nextComm := rfl
@[simp] theorem State.modTeam_routers (s : State) (c t : Nat) (f : Team → Team) : (s.modTeam c t f).routers = s.routers := rfl
@[simp] theorem State.modTeam_launches (s : State) (c t : Nat) (f : Team → Team) : (s.modTeam c t f).launches = s.launches := rfl
@[simp] theorem State.modTeam_free (s : State) (c t : Nat) (f : Team → Team) : (s.modTeam c t f).free = s.free := rfl
@[simp] theorem State.modTeam_agenda (s : State) (c t : Nat) (f : Team → Team) : (s.modTeam c t f).agenda = s.agenda := rfl
@[simp] theorem State.modTeam_cur (s : State) (c t : Nat) (f : Team → Team) : (s.modTeam c t f).cur = s.cur := rfl

/-! ## `State.modInst` -/

@[simp] theorem State.modInst_dev (s : State) (c slot itag : Nat) (f : Inst → Inst) : (s.modInst c slot itag f).dev = s.dev := rfl
@[simp] theorem State.modInst_gens (s : State) (c slot itag : Nat) (f : Inst → Inst) : (s.modInst c slot itag f).gens = s.gens := rfl
@[simp] theorem State.modInst_links (s : State) (c slot itag : Nat) (f : Inst → Inst) : (s.modInst c slot itag f).links = s.links := rfl
@[simp] theorem State.modInst_time (s : State) (c slot itag : Nat) (f : Inst → Inst) : (s.modInst c slot itag f).time = s.time := rfl
@[simp] theorem State.modInst_mem (s : State) (c slot itag : Nat) (f : Inst → Inst) : (s.modInst c slot itag f).mem = s.mem := rfl
@[simp] theorem State.modInst_vfs (s : State) (c slot itag : Nat) (f : Inst → Inst) : (s.modInst c slot itag f).vfs = s.vfs := rfl
@[simp] theorem State.modInst_ctxs (s : State) (c slot itag : Nat) (f : Inst → Inst) : (s.modInst c slot itag f).ctxs = s.ctxs := rfl
@[simp] theorem State.modInst_dies (s : State) (c slot itag : Nat) (f : Inst → Inst) : (s.modInst c slot itag f).dies = s.dies := rfl
@[simp] theorem State.modInst_firns (s : State) (c slot itag : Nat) (f : Inst → Inst) : (s.modInst c slot itag f).firns = s.firns := rfl
@[simp] theorem State.modInst_scrubs (s : State) (c slot itag : Nat) (f : Inst → Inst) : (s.modInst c slot itag f).scrubs = s.scrubs := rfl
@[simp] theorem State.modInst_waitRel (s : State) (c slot itag : Nat) (f : Inst → Inst) : (s.modInst c slot itag f).waitRel = s.waitRel := rfl
@[simp] theorem State.modInst_charges (s : State) (c slot itag : Nat) (f : Inst → Inst) : (s.modInst c slot itag f).charges = s.charges := rfl
@[simp] theorem State.modInst_halts (s : State) (c slot itag : Nat) (f : Inst → Inst) : (s.modInst c slot itag f).halts = s.halts := rfl
@[simp] theorem State.modInst_waitFaults (s : State) (c slot itag : Nat) (f : Inst → Inst) : (s.modInst c slot itag f).waitFaults = s.waitFaults := rfl
@[simp] theorem State.modInst_kills (s : State) (c slot itag : Nat) (f : Inst → Inst) : (s.modInst c slot itag f).kills = s.kills := rfl
@[simp] theorem State.modInst_words (s : State) (c slot itag : Nat) (f : Inst → Inst) : (s.modInst c slot itag f).words = s.words := rfl
@[simp] theorem State.modInst_comms (s : State) (c slot itag : Nat) (f : Inst → Inst) : (s.modInst c slot itag f).comms = s.comms := rfl
@[simp] theorem State.modInst_reqs (s : State) (c slot itag : Nat) (f : Inst → Inst) : (s.modInst c slot itag f).reqs = s.reqs := rfl
@[simp] theorem State.modInst_nextReq (s : State) (c slot itag : Nat) (f : Inst → Inst) : (s.modInst c slot itag f).nextReq = s.nextReq := rfl
@[simp] theorem State.modInst_nextComm (s : State) (c slot itag : Nat) (f : Inst → Inst) : (s.modInst c slot itag f).nextComm = s.nextComm := rfl
@[simp] theorem State.modInst_routers (s : State) (c slot itag : Nat) (f : Inst → Inst) : (s.modInst c slot itag f).routers = s.routers := rfl
@[simp] theorem State.modInst_launches (s : State) (c slot itag : Nat) (f : Inst → Inst) : (s.modInst c slot itag f).launches = s.launches := rfl
@[simp] theorem State.modInst_free (s : State) (c slot itag : Nat) (f : Inst → Inst) : (s.modInst c slot itag f).free = s.free := rfl
@[simp] theorem State.modInst_agenda (s : State) (c slot itag : Nat) (f : Inst → Inst) : (s.modInst c slot itag f).agenda = s.agenda := rfl
@[simp] theorem State.modInst_cur (s : State) (c slot itag : Nat) (f : Inst → Inst) : (s.modInst c slot itag f).cur = s.cur := rfl

/-! ## `State.modOp` -/

@[simp] theorem State.modOp_dev (s : State) (c id : Nat) (f : EngOp → EngOp) : (s.modOp c id f).dev = s.dev := rfl
@[simp] theorem State.modOp_gens (s : State) (c id : Nat) (f : EngOp → EngOp) : (s.modOp c id f).gens = s.gens := rfl
@[simp] theorem State.modOp_links (s : State) (c id : Nat) (f : EngOp → EngOp) : (s.modOp c id f).links = s.links := rfl
@[simp] theorem State.modOp_time (s : State) (c id : Nat) (f : EngOp → EngOp) : (s.modOp c id f).time = s.time := rfl
@[simp] theorem State.modOp_mem (s : State) (c id : Nat) (f : EngOp → EngOp) : (s.modOp c id f).mem = s.mem := rfl
@[simp] theorem State.modOp_vfs (s : State) (c id : Nat) (f : EngOp → EngOp) : (s.modOp c id f).vfs = s.vfs := rfl
@[simp] theorem State.modOp_ctxs (s : State) (c id : Nat) (f : EngOp → EngOp) : (s.modOp c id f).ctxs = s.ctxs := rfl
@[simp] theorem State.modOp_dies (s : State) (c id : Nat) (f : EngOp → EngOp) : (s.modOp c id f).dies = s.dies := rfl
@[simp] theorem State.modOp_firns (s : State) (c id : Nat) (f : EngOp → EngOp) : (s.modOp c id f).firns = s.firns := rfl
@[simp] theorem State.modOp_scrubs (s : State) (c id : Nat) (f : EngOp → EngOp) : (s.modOp c id f).scrubs = s.scrubs := rfl
@[simp] theorem State.modOp_waitRel (s : State) (c id : Nat) (f : EngOp → EngOp) : (s.modOp c id f).waitRel = s.waitRel := rfl
@[simp] theorem State.modOp_charges (s : State) (c id : Nat) (f : EngOp → EngOp) : (s.modOp c id f).charges = s.charges := rfl
@[simp] theorem State.modOp_halts (s : State) (c id : Nat) (f : EngOp → EngOp) : (s.modOp c id f).halts = s.halts := rfl
@[simp] theorem State.modOp_waitFaults (s : State) (c id : Nat) (f : EngOp → EngOp) : (s.modOp c id f).waitFaults = s.waitFaults := rfl
@[simp] theorem State.modOp_kills (s : State) (c id : Nat) (f : EngOp → EngOp) : (s.modOp c id f).kills = s.kills := rfl
@[simp] theorem State.modOp_words (s : State) (c id : Nat) (f : EngOp → EngOp) : (s.modOp c id f).words = s.words := rfl
@[simp] theorem State.modOp_comms (s : State) (c id : Nat) (f : EngOp → EngOp) : (s.modOp c id f).comms = s.comms := rfl
@[simp] theorem State.modOp_reqs (s : State) (c id : Nat) (f : EngOp → EngOp) : (s.modOp c id f).reqs = s.reqs := rfl
@[simp] theorem State.modOp_nextReq (s : State) (c id : Nat) (f : EngOp → EngOp) : (s.modOp c id f).nextReq = s.nextReq := rfl
@[simp] theorem State.modOp_nextComm (s : State) (c id : Nat) (f : EngOp → EngOp) : (s.modOp c id f).nextComm = s.nextComm := rfl
@[simp] theorem State.modOp_routers (s : State) (c id : Nat) (f : EngOp → EngOp) : (s.modOp c id f).routers = s.routers := rfl
@[simp] theorem State.modOp_launches (s : State) (c id : Nat) (f : EngOp → EngOp) : (s.modOp c id f).launches = s.launches := rfl
@[simp] theorem State.modOp_free (s : State) (c id : Nat) (f : EngOp → EngOp) : (s.modOp c id f).free = s.free := rfl
@[simp] theorem State.modOp_agenda (s : State) (c id : Nat) (f : EngOp → EngOp) : (s.modOp c id f).agenda = s.agenda := rfl
@[simp] theorem State.modOp_cur (s : State) (c id : Nat) (f : EngOp → EngOp) : (s.modOp c id f).cur = s.cur := rfl

/-! ## `State.modDie` -/

@[simp] theorem State.modDie_dev (s : State) (d : Nat) (f : Die → Die) : (s.modDie d f).dev = s.dev := rfl
@[simp] theorem State.modDie_gens (s : State) (d : Nat) (f : Die → Die) : (s.modDie d f).gens = s.gens := rfl
@[simp] theorem State.modDie_links (s : State) (d : Nat) (f : Die → Die) : (s.modDie d f).links = s.links := rfl
@[simp] theorem State.modDie_time (s : State) (d : Nat) (f : Die → Die) : (s.modDie d f).time = s.time := rfl
@[simp] theorem State.modDie_mem (s : State) (d : Nat) (f : Die → Die) : (s.modDie d f).mem = s.mem := rfl
@[simp] theorem State.modDie_vfs (s : State) (d : Nat) (f : Die → Die) : (s.modDie d f).vfs = s.vfs := rfl
@[simp] theorem State.modDie_ctxs (s : State) (d : Nat) (f : Die → Die) : (s.modDie d f).ctxs = s.ctxs := rfl
@[simp] theorem State.modDie_cores (s : State) (d : Nat) (f : Die → Die) : (s.modDie d f).cores = s.cores := rfl
@[simp] theorem State.modDie_firns (s : State) (d : Nat) (f : Die → Die) : (s.modDie d f).firns = s.firns := rfl
@[simp] theorem State.modDie_scrubs (s : State) (d : Nat) (f : Die → Die) : (s.modDie d f).scrubs = s.scrubs := rfl
@[simp] theorem State.modDie_waitRel (s : State) (d : Nat) (f : Die → Die) : (s.modDie d f).waitRel = s.waitRel := rfl
@[simp] theorem State.modDie_charges (s : State) (d : Nat) (f : Die → Die) : (s.modDie d f).charges = s.charges := rfl
@[simp] theorem State.modDie_halts (s : State) (d : Nat) (f : Die → Die) : (s.modDie d f).halts = s.halts := rfl
@[simp] theorem State.modDie_waitFaults (s : State) (d : Nat) (f : Die → Die) : (s.modDie d f).waitFaults = s.waitFaults := rfl
@[simp] theorem State.modDie_kills (s : State) (d : Nat) (f : Die → Die) : (s.modDie d f).kills = s.kills := rfl
@[simp] theorem State.modDie_words (s : State) (d : Nat) (f : Die → Die) : (s.modDie d f).words = s.words := rfl
@[simp] theorem State.modDie_comms (s : State) (d : Nat) (f : Die → Die) : (s.modDie d f).comms = s.comms := rfl
@[simp] theorem State.modDie_reqs (s : State) (d : Nat) (f : Die → Die) : (s.modDie d f).reqs = s.reqs := rfl
@[simp] theorem State.modDie_nextReq (s : State) (d : Nat) (f : Die → Die) : (s.modDie d f).nextReq = s.nextReq := rfl
@[simp] theorem State.modDie_nextComm (s : State) (d : Nat) (f : Die → Die) : (s.modDie d f).nextComm = s.nextComm := rfl
@[simp] theorem State.modDie_routers (s : State) (d : Nat) (f : Die → Die) : (s.modDie d f).routers = s.routers := rfl
@[simp] theorem State.modDie_launches (s : State) (d : Nat) (f : Die → Die) : (s.modDie d f).launches = s.launches := rfl
@[simp] theorem State.modDie_free (s : State) (d : Nat) (f : Die → Die) : (s.modDie d f).free = s.free := rfl
@[simp] theorem State.modDie_agenda (s : State) (d : Nat) (f : Die → Die) : (s.modDie d f).agenda = s.agenda := rfl
@[simp] theorem State.modDie_cur (s : State) (d : Nat) (f : Die → Die) : (s.modDie d f).cur = s.cur := rfl

/-! ## `State.modFirn` -/

@[simp] theorem State.modFirn_dev (s : State) (d : Nat) (f : Firn → Firn) : (s.modFirn d f).dev = s.dev := rfl
@[simp] theorem State.modFirn_gens (s : State) (d : Nat) (f : Firn → Firn) : (s.modFirn d f).gens = s.gens := rfl
@[simp] theorem State.modFirn_links (s : State) (d : Nat) (f : Firn → Firn) : (s.modFirn d f).links = s.links := rfl
@[simp] theorem State.modFirn_time (s : State) (d : Nat) (f : Firn → Firn) : (s.modFirn d f).time = s.time := rfl
@[simp] theorem State.modFirn_mem (s : State) (d : Nat) (f : Firn → Firn) : (s.modFirn d f).mem = s.mem := rfl
@[simp] theorem State.modFirn_vfs (s : State) (d : Nat) (f : Firn → Firn) : (s.modFirn d f).vfs = s.vfs := rfl
@[simp] theorem State.modFirn_ctxs (s : State) (d : Nat) (f : Firn → Firn) : (s.modFirn d f).ctxs = s.ctxs := rfl
@[simp] theorem State.modFirn_cores (s : State) (d : Nat) (f : Firn → Firn) : (s.modFirn d f).cores = s.cores := rfl
@[simp] theorem State.modFirn_dies (s : State) (d : Nat) (f : Firn → Firn) : (s.modFirn d f).dies = s.dies := rfl
@[simp] theorem State.modFirn_scrubs (s : State) (d : Nat) (f : Firn → Firn) : (s.modFirn d f).scrubs = s.scrubs := rfl
@[simp] theorem State.modFirn_waitRel (s : State) (d : Nat) (f : Firn → Firn) : (s.modFirn d f).waitRel = s.waitRel := rfl
@[simp] theorem State.modFirn_charges (s : State) (d : Nat) (f : Firn → Firn) : (s.modFirn d f).charges = s.charges := rfl
@[simp] theorem State.modFirn_halts (s : State) (d : Nat) (f : Firn → Firn) : (s.modFirn d f).halts = s.halts := rfl
@[simp] theorem State.modFirn_waitFaults (s : State) (d : Nat) (f : Firn → Firn) : (s.modFirn d f).waitFaults = s.waitFaults := rfl
@[simp] theorem State.modFirn_kills (s : State) (d : Nat) (f : Firn → Firn) : (s.modFirn d f).kills = s.kills := rfl
@[simp] theorem State.modFirn_words (s : State) (d : Nat) (f : Firn → Firn) : (s.modFirn d f).words = s.words := rfl
@[simp] theorem State.modFirn_comms (s : State) (d : Nat) (f : Firn → Firn) : (s.modFirn d f).comms = s.comms := rfl
@[simp] theorem State.modFirn_reqs (s : State) (d : Nat) (f : Firn → Firn) : (s.modFirn d f).reqs = s.reqs := rfl
@[simp] theorem State.modFirn_nextReq (s : State) (d : Nat) (f : Firn → Firn) : (s.modFirn d f).nextReq = s.nextReq := rfl
@[simp] theorem State.modFirn_nextComm (s : State) (d : Nat) (f : Firn → Firn) : (s.modFirn d f).nextComm = s.nextComm := rfl
@[simp] theorem State.modFirn_routers (s : State) (d : Nat) (f : Firn → Firn) : (s.modFirn d f).routers = s.routers := rfl
@[simp] theorem State.modFirn_launches (s : State) (d : Nat) (f : Firn → Firn) : (s.modFirn d f).launches = s.launches := rfl
@[simp] theorem State.modFirn_free (s : State) (d : Nat) (f : Firn → Firn) : (s.modFirn d f).free = s.free := rfl
@[simp] theorem State.modFirn_agenda (s : State) (d : Nat) (f : Firn → Firn) : (s.modFirn d f).agenda = s.agenda := rfl
@[simp] theorem State.modFirn_cur (s : State) (d : Nat) (f : Firn → Firn) : (s.modFirn d f).cur = s.cur := rfl

/-! ## `State.modVf` -/

@[simp] theorem State.modVf_dev (s : State) (n : Nat) (f : Vf → Vf) : (s.modVf n f).dev = s.dev := rfl
@[simp] theorem State.modVf_gens (s : State) (n : Nat) (f : Vf → Vf) : (s.modVf n f).gens = s.gens := rfl
@[simp] theorem State.modVf_links (s : State) (n : Nat) (f : Vf → Vf) : (s.modVf n f).links = s.links := rfl
@[simp] theorem State.modVf_time (s : State) (n : Nat) (f : Vf → Vf) : (s.modVf n f).time = s.time := rfl
@[simp] theorem State.modVf_mem (s : State) (n : Nat) (f : Vf → Vf) : (s.modVf n f).mem = s.mem := rfl
@[simp] theorem State.modVf_ctxs (s : State) (n : Nat) (f : Vf → Vf) : (s.modVf n f).ctxs = s.ctxs := rfl
@[simp] theorem State.modVf_cores (s : State) (n : Nat) (f : Vf → Vf) : (s.modVf n f).cores = s.cores := rfl
@[simp] theorem State.modVf_dies (s : State) (n : Nat) (f : Vf → Vf) : (s.modVf n f).dies = s.dies := rfl
@[simp] theorem State.modVf_firns (s : State) (n : Nat) (f : Vf → Vf) : (s.modVf n f).firns = s.firns := rfl
@[simp] theorem State.modVf_scrubs (s : State) (n : Nat) (f : Vf → Vf) : (s.modVf n f).scrubs = s.scrubs := rfl
@[simp] theorem State.modVf_waitRel (s : State) (n : Nat) (f : Vf → Vf) : (s.modVf n f).waitRel = s.waitRel := rfl
@[simp] theorem State.modVf_charges (s : State) (n : Nat) (f : Vf → Vf) : (s.modVf n f).charges = s.charges := rfl
@[simp] theorem State.modVf_halts (s : State) (n : Nat) (f : Vf → Vf) : (s.modVf n f).halts = s.halts := rfl
@[simp] theorem State.modVf_waitFaults (s : State) (n : Nat) (f : Vf → Vf) : (s.modVf n f).waitFaults = s.waitFaults := rfl
@[simp] theorem State.modVf_kills (s : State) (n : Nat) (f : Vf → Vf) : (s.modVf n f).kills = s.kills := rfl
@[simp] theorem State.modVf_words (s : State) (n : Nat) (f : Vf → Vf) : (s.modVf n f).words = s.words := rfl
@[simp] theorem State.modVf_comms (s : State) (n : Nat) (f : Vf → Vf) : (s.modVf n f).comms = s.comms := rfl
@[simp] theorem State.modVf_reqs (s : State) (n : Nat) (f : Vf → Vf) : (s.modVf n f).reqs = s.reqs := rfl
@[simp] theorem State.modVf_nextReq (s : State) (n : Nat) (f : Vf → Vf) : (s.modVf n f).nextReq = s.nextReq := rfl
@[simp] theorem State.modVf_nextComm (s : State) (n : Nat) (f : Vf → Vf) : (s.modVf n f).nextComm = s.nextComm := rfl
@[simp] theorem State.modVf_routers (s : State) (n : Nat) (f : Vf → Vf) : (s.modVf n f).routers = s.routers := rfl
@[simp] theorem State.modVf_launches (s : State) (n : Nat) (f : Vf → Vf) : (s.modVf n f).launches = s.launches := rfl
@[simp] theorem State.modVf_free (s : State) (n : Nat) (f : Vf → Vf) : (s.modVf n f).free = s.free := rfl
@[simp] theorem State.modVf_agenda (s : State) (n : Nat) (f : Vf → Vf) : (s.modVf n f).agenda = s.agenda := rfl
@[simp] theorem State.modVf_cur (s : State) (n : Nat) (f : Vf → Vf) : (s.modVf n f).cur = s.cur := rfl

/-! ## `State.modCtx` -/

@[simp] theorem State.modCtx_dev (s : State) (i : Nat) (f : Ctx → Ctx) : (s.modCtx i f).dev = s.dev := rfl
@[simp] theorem State.modCtx_gens (s : State) (i : Nat) (f : Ctx → Ctx) : (s.modCtx i f).gens = s.gens := rfl
@[simp] theorem State.modCtx_links (s : State) (i : Nat) (f : Ctx → Ctx) : (s.modCtx i f).links = s.links := rfl
@[simp] theorem State.modCtx_time (s : State) (i : Nat) (f : Ctx → Ctx) : (s.modCtx i f).time = s.time := rfl
@[simp] theorem State.modCtx_mem (s : State) (i : Nat) (f : Ctx → Ctx) : (s.modCtx i f).mem = s.mem := rfl
@[simp] theorem State.modCtx_vfs (s : State) (i : Nat) (f : Ctx → Ctx) : (s.modCtx i f).vfs = s.vfs := rfl
@[simp] theorem State.modCtx_cores (s : State) (i : Nat) (f : Ctx → Ctx) : (s.modCtx i f).cores = s.cores := rfl
@[simp] theorem State.modCtx_dies (s : State) (i : Nat) (f : Ctx → Ctx) : (s.modCtx i f).dies = s.dies := rfl
@[simp] theorem State.modCtx_firns (s : State) (i : Nat) (f : Ctx → Ctx) : (s.modCtx i f).firns = s.firns := rfl
@[simp] theorem State.modCtx_scrubs (s : State) (i : Nat) (f : Ctx → Ctx) : (s.modCtx i f).scrubs = s.scrubs := rfl
@[simp] theorem State.modCtx_waitRel (s : State) (i : Nat) (f : Ctx → Ctx) : (s.modCtx i f).waitRel = s.waitRel := rfl
@[simp] theorem State.modCtx_charges (s : State) (i : Nat) (f : Ctx → Ctx) : (s.modCtx i f).charges = s.charges := rfl
@[simp] theorem State.modCtx_halts (s : State) (i : Nat) (f : Ctx → Ctx) : (s.modCtx i f).halts = s.halts := rfl
@[simp] theorem State.modCtx_waitFaults (s : State) (i : Nat) (f : Ctx → Ctx) : (s.modCtx i f).waitFaults = s.waitFaults := rfl
@[simp] theorem State.modCtx_kills (s : State) (i : Nat) (f : Ctx → Ctx) : (s.modCtx i f).kills = s.kills := rfl
@[simp] theorem State.modCtx_words (s : State) (i : Nat) (f : Ctx → Ctx) : (s.modCtx i f).words = s.words := rfl
@[simp] theorem State.modCtx_comms (s : State) (i : Nat) (f : Ctx → Ctx) : (s.modCtx i f).comms = s.comms := rfl
@[simp] theorem State.modCtx_reqs (s : State) (i : Nat) (f : Ctx → Ctx) : (s.modCtx i f).reqs = s.reqs := rfl
@[simp] theorem State.modCtx_nextReq (s : State) (i : Nat) (f : Ctx → Ctx) : (s.modCtx i f).nextReq = s.nextReq := rfl
@[simp] theorem State.modCtx_nextComm (s : State) (i : Nat) (f : Ctx → Ctx) : (s.modCtx i f).nextComm = s.nextComm := rfl
@[simp] theorem State.modCtx_routers (s : State) (i : Nat) (f : Ctx → Ctx) : (s.modCtx i f).routers = s.routers := rfl
@[simp] theorem State.modCtx_launches (s : State) (i : Nat) (f : Ctx → Ctx) : (s.modCtx i f).launches = s.launches := rfl
@[simp] theorem State.modCtx_free (s : State) (i : Nat) (f : Ctx → Ctx) : (s.modCtx i f).free = s.free := rfl
@[simp] theorem State.modCtx_agenda (s : State) (i : Nat) (f : Ctx → Ctx) : (s.modCtx i f).agenda = s.agenda := rfl
@[simp] theorem State.modCtx_cur (s : State) (i : Nat) (f : Ctx → Ctx) : (s.modCtx i f).cur = s.cur := rfl

/-! ## `State.nextFree` -/

@[simp] theorem State.nextFree_dev (s : State) : s.nextFree.dev = s.dev := rfl
@[simp] theorem State.nextFree_gens (s : State) : s.nextFree.gens = s.gens := rfl
@[simp] theorem State.nextFree_links (s : State) : s.nextFree.links = s.links := rfl
@[simp] theorem State.nextFree_time (s : State) : s.nextFree.time = s.time := rfl
@[simp] theorem State.nextFree_mem (s : State) : s.nextFree.mem = s.mem := rfl
@[simp] theorem State.nextFree_vfs (s : State) : s.nextFree.vfs = s.vfs := rfl
@[simp] theorem State.nextFree_ctxs (s : State) : s.nextFree.ctxs = s.ctxs := rfl
@[simp] theorem State.nextFree_cores (s : State) : s.nextFree.cores = s.cores := rfl
@[simp] theorem State.nextFree_dies (s : State) : s.nextFree.dies = s.dies := rfl
@[simp] theorem State.nextFree_firns (s : State) : s.nextFree.firns = s.firns := rfl
@[simp] theorem State.nextFree_scrubs (s : State) : s.nextFree.scrubs = s.scrubs := rfl
@[simp] theorem State.nextFree_waitRel (s : State) : s.nextFree.waitRel = s.waitRel := rfl
@[simp] theorem State.nextFree_charges (s : State) : s.nextFree.charges = s.charges := rfl
@[simp] theorem State.nextFree_halts (s : State) : s.nextFree.halts = s.halts := rfl
@[simp] theorem State.nextFree_waitFaults (s : State) : s.nextFree.waitFaults = s.waitFaults := rfl
@[simp] theorem State.nextFree_kills (s : State) : s.nextFree.kills = s.kills := rfl
@[simp] theorem State.nextFree_words (s : State) : s.nextFree.words = s.words := rfl
@[simp] theorem State.nextFree_comms (s : State) : s.nextFree.comms = s.comms := rfl
@[simp] theorem State.nextFree_reqs (s : State) : s.nextFree.reqs = s.reqs := rfl
@[simp] theorem State.nextFree_nextReq (s : State) : s.nextFree.nextReq = s.nextReq := rfl
@[simp] theorem State.nextFree_nextComm (s : State) : s.nextFree.nextComm = s.nextComm := rfl
@[simp] theorem State.nextFree_routers (s : State) : s.nextFree.routers = s.routers := rfl
@[simp] theorem State.nextFree_launches (s : State) : s.nextFree.launches = s.launches := rfl
@[simp] theorem State.nextFree_agenda (s : State) : s.nextFree.agenda = s.agenda := rfl
@[simp] theorem State.nextFree_cur (s : State) : s.nextFree.cur = s.cur := rfl

/-! ## What a core, die, context or function reads as after an update -/

@[simp] theorem State.core_setCore (s : State) (c : Nat) (k : Core) (d : Nat) :
    (s.setCore c k).core d = if d = c then k else s.core d := by
  simp [State.core, State.setCore, tabGet_tabPut]

@[simp] theorem State.core_modCore (s : State) (c : Nat) (f : Core → Core) (d : Nat) :
    (s.modCore c f).core d = if d = c then f (s.core c) else s.core d := by
  simp [State.modCore]

@[simp] theorem State.die_modDie (s : State) (d : Nat) (f : Die → Die) (e : Nat) :
    (s.modDie d f).die e = if e = d then f (s.die d) else s.die e := by
  simp [State.modDie, State.setDie, State.die, tabGet_tabPut]

@[simp] theorem State.firn_modFirn (s : State) (d : Nat) (f : Firn → Firn) (e : Nat) :
    (s.modFirn d f).firn e = if e = d then f (s.firn d) else s.firn e := by
  simp [State.modFirn, State.setFirn, State.firn, tabGet_tabPut]

/-- A function reads as it is changed to, when it exists. -/
theorem State.vf_modVf (s : State) (n : Nat) (f : Vf → Vf) (m : Nat) (h : n < s.vfs.length) :
    (s.modVf n f).vf m = if m = n then f (s.vf n) else s.vf m := by
  simp only [State.modVf, State.vf]
  by_cases e : m = n
  · subst e; rw [if_pos rfl]; exact listMod_getD_self _ _ _ _ h
  · rw [if_neg e]; exact listMod_getD_other _ _ _ _ _ e

/-- A context reads as it is changed to, when the change keeps its index. -/
theorem State.ctx?_modCtx (s : State) (i : Nat) (f : Ctx → Ctx) (hf : ∀ c, (f c).idx = c.idx) (j : Nat) :
    (s.modCtx i f).ctx? j = if j = i then (s.ctx? i).map f else s.ctx? j := by
  simp only [State.modCtx, State.ctx?]
  by_cases e : j = i
  · subst e; simpa using find?_mapIf_self s.ctxs (·.idx) f hf j
  · simpa [e] using find?_mapIf_other s.ctxs (·.idx) f hf e

@[simp] theorem State.ctx?_modCore (s : State) (c : Nat) (f : Core → Core) (i : Nat) : (s.modCore c f).ctx? i = s.ctx? i := rfl
@[simp] theorem State.vf_modCore (s : State) (c : Nat) (f : Core → Core) (n : Nat) : (s.modCore c f).vf n = s.vf n := rfl
@[simp] theorem State.vf_modCtx (s : State) (i : Nat) (f : Ctx → Ctx) (n : Nat) : (s.modCtx i f).vf n = s.vf n := rfl
@[simp] theorem State.core_modCtx (s : State) (i : Nat) (f : Ctx → Ctx) (c : Nat) : (s.modCtx i f).core c = s.core c := rfl
@[simp] theorem State.core_modVf (s : State) (n : Nat) (f : Vf → Vf) (c : Nat) : (s.modVf n f).core c = s.core c := rfl
@[simp] theorem State.ctx?_modVf (s : State) (n : Nat) (f : Vf → Vf) (i : Nat) : (s.modVf n f).ctx? i = s.ctx? i := rfl

end Sys2Proof.Machine
end

