-- ==== Sys2Proof/Tests/Slice0.lean ====
section
/-! SUPPORT. Tests of the model: words written from the encoding tables, ill-formed terms, results worked out by hand from the
rules, and for every statement of Certificates/Slice0 states and operands that meet its hypotheses. -/

set_option maxRecDepth 20000

namespace Sys2Proof.Tests
open Sys2Proof.Machine

/-! ## Decoding: words written from Tables 11.5 to 11.17 -/

/-- No predicate, no flag, no target. -/
def noWd : Wd := ⟨.always, false, none, none, none⟩
/-- A LONG word without targets. -/
def longWd : Wd := ⟨.always, false, none, none, some ⟨none, none⟩⟩
/-- One target: port a of the instruction at index 1. -/
def toNext : Wd := ⟨.always, false, some ⟨.a, 1⟩, none, none⟩
/-- A LONG word with targets T0 and T2: ports a and b of the instruction at index 2. -/
def toPair : Wd := ⟨.always, false, some ⟨.a, 2⟩, none, some ⟨some ⟨.b, 2⟩, none⟩⟩

/-- What a list of words decodes to. -/
def reads (ws : List (BitVec 64)) : Option Instr := (decode ws).toOption.map (·.1)

-- GETR.64 of s6: OPC 0x01, TYPE 1, LONG, T0 a of 2 (0x42), REG 0x86; second word T2 b of 2 (0x82)
theorem test_decode_getr : reads [0x000010C002121001, 0x82] = some (.getr toPair true ⟨true, 6⟩) := by decide
-- IADD.32.n: OPC 0x10, TYPE 1, T0 a of 1 (0x41), IMMB with IMM17 = -1
theorem test_decode_iadd : reads [0xFFFFC00002081010] = some (.iadd ⟨toNext, false, true, some (-1)⟩) := by decide
-- VOTE.ballot: OPC 0x43, VAR 2, T0 a of 1
theorem test_decode_vote : reads [0x0000000002080243] = some (.vote .ballot toNext) := by decide
-- FFMA.rz with operand c negated: OPC 0x53, RND 1, NEGC (bit 42), T0 a of 1
theorem test_decode_ffma : reads [0x0000042002080053] =
    some (.ffma ⟨toNext, false, none, false, false, false, false, false, true, .rz⟩) := by decide
-- CVT.SR FP32 to BF16: OPC 0x71, LONG, RND 4 (bits 47:45), TO 2, FROM 0, T0 a of 2, T2 b of 2
theorem test_decode_cvt_sr : reads [0x0000840002120071, 0x82] = some (.cvtSr ⟨toPair, false, false, .sr, .bf16, .fp32⟩) := by decide
-- LD.32.acq.dev: OPC 0x80, TYPE 2, LONG, ORDER 1 (bits 43:42), SCOPE 3 (bits 41:39), T0 a of 2
theorem test_decode_ld : reads [0x0000058002122080, 0x82] = some (.ld .b32 ⟨toPair, 0, .acq, .dev, .rnd⟩) := by decide
-- ATOMS.ADD.32 on WN, offset -4: OPC 0x8A, WIN (bit 44), OFF19 = -4
theorem test_decode_atoms_is_win : (reads [0xFFFF90000208008A]).map (fun i => decide (i = .atoms .add .w32 true ⟨toNext, -4, .none, .warp, .rnd⟩)) = some true := by decide
-- NBWAIT of barrier 5: OPC 0xA4, NUM 5, T0 a of 1
theorem test_decode_nbwait : reads [0x000000A0020800A4] = some (.nbwait toNext 5) := by decide
-- COPY with token register s4, SETF1: OPC 0xB0, LONG, FSEL, TOKV (bit 43), TOKR 4, scope dev (bits 46:44)
theorem test_decode_copy : reads [0x00003880000600B0, 0] = some (.copy ⟨⟨.always, true, none, none, some ⟨none, none⟩⟩, .dev, some 4⟩) := by decide
-- MXCFG.512: OPC 0xC0, VAR 1
theorem test_decode_mxcfg : reads [0x00000000000001C0] = some (.mxcfg .a512 noWd) := by decide
-- CTXKILL: OPC 0xE5, LONG
theorem test_decode_ctxkill : reads [0x00000000000200E5, 0] = some (.ctxkill longWd) := by decide
-- TMASK.unmask: OPC 0xF7, VAR 1
theorem test_decode_tmask : reads [0x00000000000001F7] = some (.tmaskUnmask noWd) := by decide
-- the bytes in memory are the words, lowest byte first (R5)
theorem test_decode_bytes : decodeTableWord 128 (0x82 * 2 ^ 64 + 0x000010C002121001) = some (.getr toPair true ⟨true, 6⟩) := by decide

/-! ## Refused words and ill-formed terms -/

-- OPC 0 (R263), PRED 11 (R256), a reserved bit (R257), CLASS 3 (R259), target kind 101 (R254), an empty list
theorem test_refuses_words : reads [0] = none ∧ reads [0x0000000000018007] = none ∧ reads [0x80000000020800A4] = none ∧
    reads [0x0000006002122080, 0] = none ∧ reads [0x000000000A000040] = none ∧ reads [] = none := by decide
-- a reserved bit of the second word (R253), a second word that is missing, LONG on a form without it
theorem test_refuses_second_words : reads [0x00000000000200E5, 0x40000] = none ∧ reads [0x00000000000200E5] = none ∧
    reads [0x0000000000020007, 0] = none := by decide
-- LONG: EXIT has none, BRI needs one, a 64-bit result of an "opt" form needs one, MOVI's too (R263)
theorem test_illformed_long : (Instr.exit longWd).wellFormed = false ∧ (Instr.bri noWd).wellFormed = false ∧
    (Instr.iadd ⟨toNext, true, false, some 0⟩).wellFormed = false ∧ (Instr.movi toNext true 0 none).wellFormed = false := by decide
-- targets on a form without a result (R254), FSEL on a form not marked F (R263)
theorem test_illformed_targets_and_flag : (Instr.sink toNext).wellFormed = false ∧
    (Instr.iadd ⟨⟨.always, true, none, none, none⟩, false, false, none⟩).wellFormed = false := by decide
-- the second word of another layout (R253)
theorem test_illformed_second_word : (Instr.br longWd 0).wellFormed = false ∧ (Instr.movi longWd true 0 (some 0)).wellFormed = false := by decide
-- an odd pair (R252), an immediate without port b (R258), .sr outside CVT.SR (R166), a release of a load (R112), WAITF of flag 12, a WRSYS of a
-- read-only register (R398), FENCE without a mask (R259), a pair that CVT does not take (R261)
theorem test_illformed_fields : (Instr.getr toPair true ⟨false, 1⟩).wellFormed = false ∧ (Instr.ineg ⟨toNext, false, false, some 1⟩).wellFormed = false ∧
    (Instr.cvt ⟨toNext, false, false, .sr, .bf16, .fp32⟩).wellFormed = false ∧ (Instr.ld .b32 ⟨toPair, 0, .rel, .dev, .rnd⟩).wellFormed = false ∧
    (Instr.waitf noWd 12).wellFormed = false ∧ (Instr.fence noWd .acq .dev 0).wellFormed = false ∧
    (Instr.cvt ⟨toNext, false, false, .rne, .e8m0, .int4⟩).wellFormed = false ∧ (Instr.wrsys noWd 0).wellFormed = false := by decide
-- units that do not exist
theorem test_illformed_events : (Instr.blockAdmit 960 0).wellFormed = false ∧ (Instr.blockAdmit 0 32).wellFormed = false ∧
    (Instr.kick 96 0).wellFormed = false ∧ (Instr.vociaPathLoss 48).wellFormed = false := by decide


/-! ## A warp and a control thread that carry out one instruction -/

/-- All lanes. -/
def full : Mask := BitVec.allOnes 32
/-- The placed warp's instance and the placed control thread (log 33). -/
def warp0 : Who := .warp 0 0 0
def ctl0 : Who := .ctl 0 1

/-- What a thread carries out: an instruction with these operands. -/
def issueAs (who : Who) (mask : Mask) (i : Instr) (vals : List (PortName × (Nat → Word))) : Issue :=
  { who, idx := 0, mask, vals := vals.map fun v => { port := v.1, mask, val := Lanes.of v.2 }, form := i.form.getD (baseForm 0 noWd) }

/-- The device with the placed context and this core 0, carrying something out. -/
def stateWith (k : Core) (c : Issue) : State :=
  { State.reset with dev := { State.reset.dev with power := true, up := true }, ctxs := [placedCtx], cores := [(0, k)], cur := some c }

/-- A warp carries out an instruction that a SINK follows. -/
def warpIssue (i : Instr) (vals : List (PortName × (Nat → Word))) : Issue := issueAs warp0 full i vals
def warpState (i : Instr) (vals : List (PortName × (Nat → Word))) : State :=
  stateWith (placedWarpCore (some i) (encode i ++ [6])) (warpIssue i vals)

/-- A control thread of a team carries out an instruction. -/
def ctlIssue (i : Instr) (vals : List (PortName × (Nat → Word))) : Issue := issueAs ctl0 1 i vals
def ctlCore (i : Instr) : Core :=
  { placedCtlCore (some i) (encode i ++ [6]) with
    ctls := [{ freshCtl 1 8 (some (0, placedTeam.vals)) 0 0 false with entered := true }], teams := [{ placedTeam with lrec := { nvec := 128, spb := 4096 } }] }
def ctlState (i : Instr) (vals : List (PortName × (Nat → Word))) : State := stateWith (ctlCore i) (ctlIssue i vals)

/-- The next state, if there is one. -/
def nextOf : Host.Outcome State Fault Refusal → Option State
  | .next t => some t
  | _ => none

/-- What lane `l` sends to the targets of its instruction, in the order of the nodes. -/
def sends (i : Instr) (vals : List (PortName × (Nat → Word))) (l : Nat) : List Nat :=
  match nextOf (exec i (warpState i vals)) with
  | some t => ((t.core 0).nodes.flatMap (·.chan)).map fun k => (k.val.at l).toNat
  | none => []

/-- An integer form with ports a, b and c, and a floating-point form. -/
def int32 (nat : Bool) : IntOp := ⟨toNext, false, nat, none⟩
def int64 (nat : Bool) : IntOp := ⟨toPair, true, nat, none⟩
def flt : FltOp := ⟨toNext, false, none, false, false, false, false, false, false, .rne⟩
def cvtOp (dst src : Fmt) : CvtOp := ⟨toNext, false, false, .rne, dst, src⟩

/-- Operands a, b and c, the same in every lane. -/
def abc (a b c : Word) : List (PortName × (Nat → Word)) := [(.a, fun _ => a), (.b, fun _ => b), (.c, fun _ => c)]

/-! ## Results worked out by hand -/

-- modulo 2^32 (R161); 64-bit operands join their halves (R255): 0x1_FFFF_FFFF + 1 = 0x2_0000_0000
theorem test_iadd : sends (.iadd (int32 false)) (abc 0xFFFFFFFF 2 0) 0 = [1] := by decide
theorem test_iadd64 : sends (.iadd (int64 false)) [(.a, fun _ => 0xFFFFFFFF), (.ax, fun _ => 1), (.b, fun _ => 1), (.bx, fun _ => 0)] 7 = [0, 2] := by decide
-- R296: a divisor of 0, and the most negative number by -1
theorem test_idiv : sends (.idiv (int32 false)) (abc 5 0 0) 0 = [0xFFFFFFFF] ∧ sends (.idiv (int32 false)) (abc 0x80000000 0xFFFFFFFF 0) 0 = [0x80000000] := by decide
theorem test_irem : sends (.irem (int32 false)) (abc 5 0 0) 0 = [5] ∧ sends (.irem (int32 false)) (abc 0xFFFFFFF9 2 0) 0 = [0xFFFFFFFF] := by decide
-- R297: shifts by the width and more
theorem test_shifts : sends (.shl (int32 false)) (abc 1 32 0) 0 = [0] ∧ sends (.sar (int32 false)) (abc 0x80000000 40 0) 0 = [0xFFFFFFFF] ∧
    sends (.rol (int32 false)) (abc 0x80000001 33 0) 0 = [3] := by decide
-- R298: four bits at 4 of 0x80 are 8, which is -8 signed; a field cut at bit 31
theorem test_bfx : sends (.bfx (int32 false)) (abc 0x80 0x0404 0) 0 = [0xFFFFFFF8] ∧ sends (.bfx (int32 true)) (abc 0x80000000 0x081F 0) 0 = [1] := by decide
theorem test_bfi : sends (.bfi (int32 false)) (abc 0xFFFFFFFF 0x0804 0) 0 = [0xFFFFF00F] := by decide
-- R299: -1 is below 1 signed, and above it natural
theorem test_icmp : sends (.icmp .lt (int32 false)) (abc 0xFFFFFFFF 1 0) 0 = [0xFFFFFFFF] ∧ sends (.icmp .lt (int32 true)) (abc 0xFFFFFFFF 1 0) 0 = [0] := by decide
-- Table 13.5: high words, counts
theorem test_imulh : sends (.imulh (int32 false)) (abc 0xFFFFFFFF 2 0) 0 = [0xFFFFFFFF] ∧ sends (.imulh (int32 true)) (abc 0xFFFFFFFF 2 0) 0 = [1] := by decide
theorem test_counts : sends (.popc (int32 false)) (abc 0xF0 0 0) 0 = [4] ∧ sends (.clz (int32 false)) (abc 0xF0 0 0) 0 = [24] ∧
    sends (.ctz (int32 false)) (abc 0 0 0) 0 = [32] ∧ sends (.brev (int32 false)) (abc 1 0 0) 0 = [0x80000000] := by decide
-- R301 to R307: lane numbers, a shift up leaves lane 0 its own value, the sum of 0 to 31 is 496, an exclusive scan of lane 3 is 0 + 1 + 2
theorem test_laneid : sends (.laneid toNext) [] 31 = [31] := by decide
theorem test_shfl : sends (.shfl .up toNext false) [(.a, fun l => BitVec.ofNat 32 (100 + l)), (.b, fun _ => 1)] 0 = [100] ∧
    sends (.shfl .up toNext false) [(.a, fun l => BitVec.ofNat 32 (100 + l)), (.b, fun _ => 1)] 5 = [104] := by decide
theorem test_vote : sends (.vote .ballot toNext) [(.a, fun l => if l = 3 then 1 else 0)] 9 = [8] := by decide
theorem test_reduce : sends (.reduce .add toNext false false .rne) [(.a, fun l => BitVec.ofNat 32 l)] 6 = [496] := by decide
theorem test_scan : sends (.scan .add toNext false false true .rne) [(.a, fun l => BitVec.ofNat 32 l)] 3 = [3] := by decide
-- FP32 bits: 1 + 2 = 3; 1 × 0.1 rounds to 0.1; a NaN gives the canonical NaN; 1/3 to nearest is 0x3EAAAAAB
theorem test_fadd : sends (.fadd flt) (abc 0x3F800000 0x40000000 0) 0 = [0x40400000] ∧ sends (.fadd flt) (abc 0x7F800001 0 0) 0 = [0x7FC00000] := by decide
theorem test_fdiv : sends (.fdiv flt) (abc 0x3F800000 0x40400000 0) 0 = [0x3EAAAAAB] := by decide
-- R313: +0 equals -0; a NaN is unordered
theorem test_fcmp : sends (.fcmp .eq flt) (abc 0 0x80000000 0) 0 = [0xFFFFFFFF] ∧ sends (.fcmp .unordered flt) (abc 0x7FC00000 0 0) 0 = [0xFFFFFFFF] := by decide
-- packed FP16: 1 + 1 = 2 in the high half, 0 + 0 in the low half
theorem test_hadd2 : sends (.hadd2 false flt) (abc 0x3C000000 0x3C000000 0) 0 = [0x40000000] := by decide
-- 2.5 to INT32 to nearest even is 2; 1.0 to BF16 is 0x3F80
theorem test_cvt : sends (.cvt (cvtOp .int32 .fp32)) (abc 0x40200000 0 0) 0 = [2] ∧ sends (.cvt (cvtOp .bf16 .fp32)) (abc 0x3F800000 0 0) 0 = [0x3F80] := by decide
-- R281: IMM27 sign-extended; a .64 MOVI sends its low half to T0 and its high half to T1
theorem test_movi : sends (.movi toNext false (-2) none) [] 0 = [0xFFFFFFFE] ∧
    sends (.movi ⟨.always, false, some ⟨.a, 2⟩, some ⟨.b, 2⟩, none⟩ true 0 (some 0x500000007)) [] 0 = [7, 5] := by decide
theorem test_sel : sends (.sel toNext false) (abc 1 2 0) 0 = [2] := by decide

/-! ## Witnesses: the computing forms -/

theorem issues_warp (i : Instr) (vals : List (PortName × (Nat → Word))) : Issues (warpState i vals) (warpIssue i vals) :=
  ⟨rfl, by show full ≠ 0; decide⟩
theorem issues_ctl (i : Instr) (vals : List (PortName × (Nat → Word))) : Issues (ctlState i vals) (ctlIssue i vals) :=
  ⟨rfl, by show (1 : Mask) ≠ 0; decide⟩

/-- An instruction is carried out, in a form of 32 bits and in one of 64. -/
theorem witness_ints (i : IntOp → Instr) : ∃ o₁ o₂ s c t d, Issues s c ∧ o₁.w64 = false ∧ Issues t d ∧ o₂.w64 = true ∧
    s = warpState (i o₁) [] ∧ t = warpState (i o₂) [] :=
  ⟨int32 false, int64 false, _, _, _, _, issues_warp _ [], rfl, issues_warp _ [], rfl, rfl, rfl⟩

theorem witness_IntegerArithmeticAndLogic : ∃ s c, Issues s c ∧ (int32 true).w64 = false ∧ (int64 true).w64 = true :=
  ⟨_, _, issues_warp (.iadd (int32 true)) (abc 1 2 3), rfl, rfl⟩
theorem witness_ShiftsAndRotations : ∃ s c, Issues s c ∧ c.w32 .b 0 = 32 := ⟨_, _, issues_warp (.shl (int32 true)) (abc 1 32 0), by decide⟩
theorem witness_DivisionProductsAndOrder : ∃ s c, Issues s c ∧ c.w32 .b 0 = 0 := ⟨_, _, issues_warp (.idiv (int32 true)) (abc 1 0 0), by decide⟩
theorem witness_BitCountsAndFields : ∃ s c, Issues s c ∧ c.w32 .b 0 = 0x0820 := ⟨_, _, issues_warp (.bfx (int32 true)) (abc 1 0x0820 0), by decide⟩
theorem witness_IntegerCompareSendsATruthWord : ∃ s c, Issues s c ∧ (int32 true).w64 = false ∧ (int64 true).w64 = true :=
  ⟨_, _, issues_warp (.icmp .eq (int32 true)) (abc 1 1 0), rfl, rfl⟩
theorem witness_LaneidSendsTheLaneNumber : ∃ s c, Issues s c := ⟨_, _, issues_warp (.laneid toNext) []⟩
theorem witness_ShufflesAndVotes : ∃ s c, Issues s c := ⟨_, _, issues_warp (.shfl .idx toNext false) (abc 1 31 0)⟩
theorem witness_BroadcastSendsTheLowestLane : ∃ s c, Issues s c ∧ c.mask.getLsbD 0 = true := ⟨_, _, issues_warp (.bcast toNext false) (abc 1 0 0), by decide⟩
theorem witness_ReductionsAndScans : ∃ s c, Issues s c := ⟨_, _, issues_warp (.reduce .min toNext false true .rne) (abc 1 0 0)⟩
-- operand a a NaN in one lane, operand b in another
theorem witness_FloatFormsRoundOnce : ∃ s c, Issues s c ∧ (fval .fp32 (fltA flt c 0)).isNan = true ∧ (fval .fp32 (fltB flt c 1)).isNan = true :=
  ⟨_, _, issues_warp (.fadd flt) [(.a, fun l => if l = 0 then 0x7FC00000 else 0), (.b, fun l => if l = 1 then 0x7F800001 else 0)], by decide, by decide⟩
-- finite operands, zeros of both signs, and a NaN on either side
theorem witness_FloatComparesMinimaAndMaxima : ∃ s c, Issues s c ∧
    ((fval .fp32 (fltA flt c 0)).finite = true ∧ (fval .fp32 (fltB flt c 0)).finite = true) ∧
    ((fval .fp32 (fltA flt c 1)).isNan = true ∧ (fval .fp32 (fltB flt c 1)).isNan = false) ∧
    ((fval .fp32 (fltA flt c 2)).isNan = false ∧ (fval .fp32 (fltB flt c 2)).isNan = true) ∧
    ((fval .fp32 (fltA flt c 0)).isNan = false ∧ (fval .fp32 (fltB flt c 0)).isNan = false) :=
  ⟨_, _, issues_warp (.fmin true flt) [(.a, fun l => if l = 1 then 0x7FC00000 else 0), (.b, fun l => if l = 2 then 0x7F800001 else 0x80000000)], by decide⟩
theorem witness_PackedHalvesAreIndependent : ∃ s c, Issues s c := ⟨_, _, issues_warp (.hfma2 true flt) (abc 1 2 3)⟩
theorem witness_ConversionsAndRandomWords : ∃ s c wp i tm x, Issues s c ∧ c.who = .warp 0 0 0 ∧ s.warp? 0 0 = some wp ∧ wp.inst? 0 = some i ∧
    (s.core 0).team? wp.team = some tm ∧ s.ctx? wp.ctx = some x :=
  ⟨_, _, _, _, _, _, issues_warp (.rng toNext) [], rfl, rfl, rfl, rfl, rfl⟩
-- DSDEC: the code that stands for 0, and another
theorem witness_dsdec : ds8Val 0x77 = 0 ∧ ds8Val 0x66 ≠ 0 := by decide
theorem witness_MoviSendsItsImmediate : (∃ s c, Issues s c) ∧ (Instr.movi toNext false 0 (some 0xFFFFFFFF)).wellFormed = true ∧
    (Instr.movi toNext true 0 (some (-1))).wellFormed = true ∧ ∃ f, (Instr.movi toNext true 0 (some 1)).form = some f :=
  ⟨⟨_, _, issues_warp (.movi toNext false 5 none) []⟩, by decide, by decide, _, rfl⟩
theorem witness_FanSelectAndSink : ∃ s c, Issues s c := ⟨_, _, issues_warp (.sel toNext false) (abc 1 2 0)⟩

/-! ## Witnesses: decoding and the step -/

theorem witness_DecodingAnEncodedFormGivesItBack : ∃ i f, Instr.form i = some f ∧ i.wellFormed = true ∧ (f.words).length = 2 :=
  ⟨.getr toPair true ⟨true, 6⟩, _, rfl, by decide, by decide⟩
theorem witness_DecodedWordsAreTheEncoding : ∃ ws rest i, decode ws = .ok (i, rest) ∧ rest = [6] :=
  ⟨[0x000010C002121001, 0x82, 6], _, _, rfl, rfl⟩

/-- The placed warp's GETR of s3, and the placed control thread's MXCFG, as the next turn (log 33). -/
def stepWarp : State := State.reset.withFetchWord 64 0x0000106000000001
def stepCtl : State := State.reset.withFetchWord 64 0x00000000000001C0
/-- The turn is off the agenda. -/
def stepWarp' : State := { stepWarp with agenda := [] }
def stepCtl' : State := { stepCtl with agenda := [] }.modCore 0 fun k => { k with ctlCur := 1 }

theorem witness_StepFiresTheDecodedInstruction : ∃ x b m i c t, stepWarp.agenda = { dt := 0, act := .fire (.warp 0 0 0) 0 } :: [] ∧
    stepWarp' = { stepWarp with agenda := [], time := stepWarp.time + 0 } ∧ stepWarp'.instOf (.warp 0 0 0) = some x ∧
    stepWarp'.blockOf (.warp 0 0 0) = some b ∧ stepWarp'.issueOf (.warp 0 0 0) 0 = some (i, c) ∧
    ((stepWarp'.core 0).nodes.getD (b.node x.replica 0) {}).firedNow stepWarp'.time = false ∧
    ((stepWarp'.core 0).nodes.getD (b.node x.replica 0) {}).ready.filter (stepWarp'.mayFire 0) = [m] ∧ m.wslot = 0 ∧ m.itag = 0 ∧ m.idx = 0 ∧
    exec i { stepWarp' with cur := some c } = .next t :=
  ⟨_, _, _, .getr noWd false ⟨true, 3⟩, _, _, rfl, rfl, rfl, rfl, rfl, by decide, rfl, rfl, rfl, rfl, rfl⟩
theorem witness_StepRunsTheControlThread : ∃ h b i c t, stepCtl.agenda = { dt := 0, act := .fire (.ctl 0 1) 0 } :: [] ∧
    stepCtl' = { stepCtl with agenda := [], time := stepCtl.time + 0 }.modCore 0 (fun k => { k with ctlCur := 1 }) ∧
    (stepCtl.core 0).ctls = [h] ∧ h.ctx = 1 ∧ stepCtl'.ctlReady 0 h = true ∧ h.stopped = false ∧ h.entered = true ∧
    stepCtl'.blockOf (.ctl 0 1) = some b ∧ h.next < b.words.length ∧ stepCtl'.issueOf (.ctl 0 1) h.next = some (i, c) ∧
    stepCtl'.slicePending 0 (stepCtl'.vfOf 1) = false ∧ exec i { stepCtl' with cur := some c } = .next t ∧
    t.slicePending 0 (stepCtl.vfOf 1) = false :=
  ⟨_, _, .mxcfg .a512 noWd, _, _, rfl, rfl, rfl, rfl, by decide, rfl, rfl, rfl, by decide, rfl, by decide, rfl, by decide⟩
theorem witness_EveryStepAnswersANextState : ∃ s : State, ∃ c, s.cur = some c := ⟨_, _, (issues_warp (.sink noWd) []).1⟩
-- the step of a placed instruction is its firing: the instance counts it
theorem test_step_fires : ∀ t, nextOf (step stepWarp) = some t → (t.instOf warp0).map (·.fired) = some [0] := by
  intro t h; rw [show nextOf (step stepWarp) = some _ from rfl] at h; injection h with h; rw [← h]; decide

/-! ## Witnesses: registers, successors, traps -/

/-- The warp state with its warp changed. -/
def warpStateW (f : Warp → Warp) (i : Instr) (vals : List (PortName × (Nat → Word))) : State :=
  { warpState i vals with cores := [(0, { placedWarpCore (some i) (encode i ++ [6]) with warps := [(0, f placedWarp)] })] }
/-- The control thread's state with the thread changed. -/
def ctlStateW (f : Ctl → Ctl) (i : Instr) (vals : List (PortName × (Nat → Word))) : State :=
  stateWith { ctlCore i with ctls := (ctlCore i).ctls.map f } (ctlIssue i vals)

def getS6 : Instr := .getr toPair true ⟨true, 6⟩
def setS6 : Instr := .setr longWd true ⟨true, 6⟩

theorem witness_RegistersAreReadAndWritten :
    (∃ s c, Issues s c ∧ s.tokenAwaited c.who ⟨true, 6⟩ = true) ∧
    (∃ s c lo hi, Issues s c ∧ c.who = .warp 0 0 0 ∧ (⟨false, 4⟩ : RegSpec).scalar = false ∧ s.getrWarp c.who 0 0 0 false ⟨false, 4⟩ = some (lo, hi)) ∧
    (∃ s c lo hi, Issues s c ∧ c.who = .warp 0 0 0 ∧ s.tokenAwaited c.who ⟨true, 6⟩ = false ∧
      (s.joinToken c.who 6).getrWarp c.who 0 0 0 true ⟨true, 6⟩ = some (lo, hi)) ∧
    (∃ s c t, Issues s c ∧ c.who = .ctl 0 1 ∧ s.ctl? 0 1 = some t ∧ s.tokensOf c.who = [] ∧ (63 : Nat) < t.s.length) ∧
    (∃ s c, Issues s c ∧ c.inWarp) :=
  ⟨⟨warpStateW (fun w => { w with tokens := [(6, .dev, true)] }) getS6 [], warpIssue getS6 [], ⟨rfl, by decide⟩, by decide⟩,
   ⟨_, _, _, _, issues_warp (.getr toNext false ⟨false, 4⟩) [], rfl, rfl, rfl⟩,
   ⟨_, _, _, _, issues_warp getS6 [], rfl, by decide, rfl⟩, ⟨_, _, _, issues_ctl setS6 [], rfl, rfl, rfl, by decide⟩,
   ⟨_, _, issues_warp setS6 [], rfl⟩⟩
-- the lowest and highest vector registers and lanes of the statement, for a warp of 128
theorem witness_RegisterWritesKeepOtherLanes : (⟨false, 126⟩ : RegSpec).scalar = false ∧ 31 < 32 ∧ 127 < placedWarp.v.length ∧
    (126#7).toNat + 1 < placedWarp.v.length ∧ (0#7).toNat + 1 < placedWarp.v.length := by decide
-- a SETR of v4 for lane 2 alone
theorem test_setr_lane : ((placedWarp.writeReg ⟨false, 4⟩ false 4 (Lanes.of fun _ => 9) []).v.getD 4 []).at 2 = 9 ∧
    ((placedWarp.writeReg ⟨false, 4⟩ false 4 (Lanes.of fun _ => 9) []).v.getD 4 []).at 3 = 0 := by decide

theorem witness_SuccessorsChoose : (∃ s c b, Issues s c ∧ c.inWarp ∧ s.blockOf c.who = some b) ∧
    (∃ s c t b, Issues s c ∧ c.who = .ctl 0 1 ∧ s.ctl? 0 1 = some t ∧ s.blockOf c.who = some b ∧ t.choice = none ∧ t.depth = 0 ∧ t.depth < 4) ∧
    (∃ s c t b, Issues s c ∧ c.who = .ctl 0 1 ∧ s.ctl? 0 1 = some t ∧ s.blockOf c.who = some b ∧ t.choice.isSome = true) ∧
    (∃ s c t b, Issues s c ∧ c.who = .ctl 0 1 ∧ s.ctl? 0 1 = some t ∧ s.blockOf c.who = some b ∧ t.choice = none ∧ 4 ≤ t.depth ∧ t.depth ≠ 0) ∧
    ∃ s c t b, Issues s c ∧ c.who = .ctl 0 1 ∧ s.ctl? 0 1 = some t ∧ s.blockOf c.who = some b ∧ t.choice = none ∧ t.depth < 4 ∧ t.depth ≠ 0 :=
  ⟨⟨_, _, _, issues_warp (.ret noWd) [], rfl, rfl⟩, ⟨_, _, _, _, issues_ctl (.br noWd 2) [], rfl, rfl, rfl, rfl, rfl, by decide⟩,
   ⟨ctlStateW (fun t => { t with choice := some none }) (.exit noWd) [], ctlIssue (.exit noWd) [], _, _, ⟨rfl, by decide⟩, rfl, rfl, rfl, rfl⟩,
   ⟨ctlStateW (fun t => { t with depth := 4 }) (.exit noWd) [], ctlIssue (.exit noWd) [], _, _, ⟨rfl, by decide⟩, rfl, rfl, rfl, rfl, by decide, by decide⟩,
   ⟨ctlStateW (fun t => { t with depth := 3 }) (.exit noWd) [], ctlIssue (.exit noWd) [], _, _, ⟨rfl, by decide⟩, rfl, rfl, rfl, rfl, by decide, by decide⟩⟩
-- a branch by 2 words from the block at 8 goes to 24
theorem test_br : ∀ t, nextOf (exec (.br noWd 2) (warpState (.br noWd 2) [])) = some t →
    (t.instOf warp0).map (fun i => i.effs.map fun e => match e with | .choose _ l => l.map (·.2) | _ => []) = some [List.replicate 32 (.goto 24)] := by
  intro t h; rw [show nextOf _ = some _ from rfl] at h; injection h with h; rw [← h]; decide

theorem witness_TrapAndTraceForms : (∃ s c i, Issues s c ∧ s.instOf c.who = some i ∧ c.inWarp ∧ i.skipTrap = false) ∧
    (∃ s c i, Issues s c ∧ s.instOf c.who = some i ∧ c.inWarp ∧ i.skipTrap = true) ∧
    ∃ s c t u, Issues s c ∧ c.who = .ctl 0 1 ∧ s.ctl? 0 1 = some t ∧ t.skip = false ∧ c.who.isCtl = true ∧ s.traceAppend c.who (c.lowW .a) = .done u :=
  ⟨⟨_, _, _, issues_warp (.trap noWd 7) [], rfl, rfl, rfl⟩,
   ⟨warpStateW (fun w => { w with insts := w.insts.map fun i => { i with skipTrap := true } }) (.trap noWd 7) [], warpIssue (.trap noWd 7) [], _,
     ⟨rfl, by decide⟩, rfl, rfl, rfl⟩, ⟨_, _, _, _, issues_ctl (.trap noWd 7) [], rfl, rfl, rfl, rfl, rfl⟩⟩
theorem witness_StepKeepsTheMemoriesCanonical : ∃ s t, Memory.wf (State.mem s) = true ∧ s.mem ≠ {} ∧ step s = .next t :=
  ⟨{ stepWarp with mem := { spad := [(0, 1)] } }, _, by decide, by decide, rfl⟩

/-! ## Witnesses: memory forms -/

/-- The placed context's page 0 stands in the core's TLB, where device address 0 or a host page is, and its team has 4,096 bytes of
scratchpad. -/
def memCore (out : Place) (k : Core) : Core :=
  { k with tlb := [{ ctx := 1, base := 0, size := 65536, out, write := true, fetch := true }]
           teams := [{ placedTeam with lrec := { nvec := 128, spb := 4096 } }] }
def memState (i : Instr) (vals : List (PortName × (Nat → Word))) : State :=
  stateWith (memCore (.dev 0) (placedWarpCore (some i) (encode i ++ [6]))) (warpIssue i vals)

theorem issues_mem (i : Instr) (vals : List (PortName × (Nat → Word))) : Issues (memState i vals) (warpIssue i vals) :=
  ⟨rfl, by show full ≠ 0; decide⟩

/-- An instance that has buffered no effect overlaps nothing. -/
theorem not_overlapped (i : Inst) (idx : Nat) (a : Access) (h : i.effs = []) : i.overlapped idx a = false := by
  simp [Inst.overlapped, Inst.storesBelow, sortBy, h]

/-- Entering a translation in a core's TLB leaves every instance alone. -/
theorem tlbPull_instOf (s : State) (core x : Nat) (va : DWord) (acc : AccKind) (who : Who) : (s.tlbPull core x va acc).instOf who = s.instOf who := by
  unfold State.tlbPull
  split
  · rfl
  · split
    · rfl
    · cases who with
      | ctl a b => rfl
      | warp a b d =>
        simp only [State.instOf, State.warp?, State.coreTlbEnter]
        have : ∀ (k : State) n, (k.nextFree).core n = k.core n := fun _ _ => rfl
        rw [this, State.core_modCore]
        split
        · rename_i h; rw [h]; rfl
        · rfl

/-- The overlap check of a form passes in an instance that has buffered no effect. -/
theorem checkAccess_overlap (s : State) (c : Issue) (space : Space) (acc : AccKind) (use : WnUse) (n : Nat) (addr : Nat → DWord) (f : Place → Bool)
    (h : ∀ i, s.instOf c.who = some i → i.effs = []) :
    s.checkAccess c space acc use n addr f true = s.checkAccess c space acc use n addr f false := by
  have hz : ∀ r : State, r.instOf c.who = s.instOf c.who → ∀ a, ((r.instOf c.who).any fun i => i.overlapped c.idx a) = false := by
    intro r hr a
    rw [hr]
    cases hi : s.instOf c.who with
    | none => rfl
    | some i => exact not_overlapped i c.idx a (h i hi)
  unfold State.checkAccess
  cases space with
  | gl =>
    have hf : ∀ (l : List Nat) (r : State), r.instOf c.who = s.instOf c.who →
        (l.foldl (fun s l => s.tlbPull c.who.core (r.ctxOf c.who) (addr l) acc) r).instOf c.who = s.instOf c.who := by
      intro l r hr
      generalize r.ctxOf c.who = x
      induction l generalizing r with
      | nil => exact hr
      | cons q l ih => exact ih _ ((tlbPull_instOf _ _ _ _ _ _).trans hr)
    simp only [hz _ (hf c.lanes s rfl), Bool.and_false]
  | sp => simp only [hz s rfl, Bool.and_false]
  | wn => simp only [hz s rfl, Bool.and_false]

/-- The record of a CAS.128 overlaps nothing in an instance that has buffered no effect. -/
theorem recordOverlapped_none (s : State) (c : Issue) (h : ∀ i, s.instOf c.who = some i → i.effs = []) : s.recordOverlapped c = 0 := by
  unfold State.recordOverlapped lanesWhere
  have : ∀ (p : Nat → Bool), (∀ l, p l = false) → maskOf (c.lanes.filter p) = 0 := by
    intro p hp; rw [List.filter_eq_nil_iff.2 (by simp [hp])]; rfl
  apply this
  intro l
  split
  · rename_i i _ hi; exact not_overlapped i _ _ (h i hi)
  · rfl

/-- A memory form without order, offset 0; and one that acquires, one that releases. -/
def memOp : MemOp := ⟨toPair, 0, .none, .warp, .rnd⟩
def acqOp : MemOp := ⟨toPair, 0, .acq, .dev, .rnd⟩
def relOp : MemOp := ⟨longWd, 0, .rel, .dev, .rnd⟩
/-- Lane l addresses byte 4 × l. -/
def words4 : List (PortName × (Nat → Word)) := [(.a, fun l => BitVec.ofNat 32 (4 * l)), (.ax, fun _ => 0), (.b, fun l => BitVec.ofNat 32 l)]

theorem witness_LoadsLeaveAPendingAccess :
    (∃ s c t accs, Issues s c ∧ s.held c false false = false ∧ s.midCommit c.who.core = false ∧
      s.checkAccess c .gl .read .load 4 (memAddr acqOp true c) (fun _ => true) false = .ok t accs) ∧
    (∃ s c t accs, Issues s c ∧ s.held c false false = false ∧ s.midCommit c.who.core = false ∧
      s.checkAccess c .sp .read .load 4 (memAddr memOp false c) (fun _ => true) false = .ok t accs) ∧
    (∃ s c t accs, Issues s c ∧ s.held c false false = false ∧ s.midCommit c.who.core = false ∧
      s.checkAccess c .wn .read .load 4 (memAddr memOp false c) (fun _ => true) false = .ok t accs) ∧
    ∃ s c t accs, Issues s c ∧ s.held c true false = false ∧ s.midCommit c.who.core = false ∧
      s.checkAccess c .sp .write .atomic 4 (memAddr memOp false c) Place.notHost true = .ok t accs :=
  ⟨⟨_, _, _, _, issues_mem (.ld .b32 acqOp) words4, by decide, by decide, rfl⟩, ⟨_, _, _, _, issues_mem (.lds .b32 memOp) words4, by decide, by decide, rfl⟩,
   ⟨_, _, _, _, issues_mem (.ldw .b32 memOp) words4, by decide, by decide, rfl⟩, ⟨_, _, _, _, issues_mem (.ldres .sp false memOp) words4, by decide, by decide, (checkAccess_overlap _ _ _ _ _ _ _ _ (by rintro _ ⟨⟩; rfl)).trans rfl⟩⟩

/-- The control thread at the last word of its team's allocation. -/
def atEnd : List (PortName × (Nat → Word)) := [(.a, fun _ => 4092), (.b, fun _ => 0x01020304)]

theorem witness_ScratchpadAccessesOfAControlThread_lds : ∃ s c t tm, Issues s c ∧ c.who = .ctl 0 1 ∧ c.mask = 1 ∧ s.ctl? 0 1 = some t ∧ s.teamOf c.who = some tm ∧
    s.midCommit 0 = false ∧ (c.w32 .a 0 + memOp.off.signExtend 32).toNat % 4 = 0 ∧ (c.w32 .a 0 + memOp.off.signExtend 32).toNat + 4 = tm.lrec.spb :=
  ⟨_, _, _, _, issues_ctl (.lds .b32 memOp) atEnd, rfl, rfl, rfl, rfl, by decide, by decide, by decide⟩
theorem witness_ScratchpadAccessesOfAControlThread_sts : ∃ s c t tm, Issues s c ∧ c.who = .ctl 0 1 ∧ c.mask = 1 ∧ s.ctl? 0 1 = some t ∧
    s.teamOf c.who = some tm ∧ memOp.order = .none ∧ tm.spBase + tm.lrec.spb ≤ Config.spadBytes ∧
    (c.w32 .a 0 + memOp.off.signExtend 32).toNat % 4 = 0 ∧ (c.w32 .a 0 + memOp.off.signExtend 32).toNat + 4 = tm.lrec.spb :=
  ⟨_, _, _, _, issues_ctl (.sts .b32 memOp) atEnd, rfl, rfl, rfl, rfl, rfl, by decide, by decide, by decide⟩
-- the stored word is little-endian (R5)
theorem test_sts : ∀ t, nextOf (exec (.sts .b32 memOp) (ctlState (.sts .b32 memOp) atEnd)) = some t →
    t.peek (.sp 0 4092) = 4 ∧ t.peek (.sp 0 4095) = 1 := by
  intro t h; rw [show nextOf _ = some _ from rfl] at h; injection h with h; rw [← h]; decide

theorem witness_StoresAreBufferedUntilCommit :
    (∃ s c t accs, Issues s c ∧ c.inWarp ∧ s.held c false false = false ∧ relOp.order = .rel ∧
      s.checkAccess c .gl .write .store 4 (memAddr relOp true c) (fun _ => true) false = .ok t accs) ∧
    (∃ s c t accs, Issues s c ∧ c.inWarp ∧ s.held c false false = false ∧ memOp.order = .none ∧
      s.checkAccess c .sp .write .store 4 (memAddr memOp false c) (fun _ => true) false = .ok t accs) ∧
    ∃ s c t accs, Issues s c ∧ c.inWarp ∧ s.held c false false = false ∧ memOp.order = .none ∧
      s.checkAccess c .wn .write .store 4 (memAddr memOp false c) (fun _ => true) false = .ok t accs :=
  ⟨⟨_, _, _, _, issues_mem (.st .b32 relOp) words4, rfl, by decide, rfl, rfl⟩, ⟨_, _, _, _, issues_mem (.sts .b32 memOp) words4, rfl, by decide, rfl, rfl⟩,
   ⟨_, _, _, _, issues_mem (.stw .b32 memOp) words4, rfl, by decide, rfl, rfl⟩⟩

/-- The CAS of 128 bits on a host page, by one lane. -/
def cas128 : Instr := .atom .cas .w128 memOp
def hostState : State :=
  { stateWith (memCore (.host 0 0 false) (placedWarpCore (some cas128) (encode cas128 ++ [6]))) (issueAs warp0 1 cas128 [(.a, fun _ => 0), (.ax, fun _ => 0)]) with
    vfs := listMod State.reset.vfs 0 fun v => { v with ready := true, atomicReq := true } }

theorem witness_AtomicsLeaveForTheirPlaces :
    (∃ s c t u accs, Issues s c ∧ s.held c true true = false ∧ s.midCommit c.who.core = false ∧ s.logged c = [] ∧
      t.releaseNow c.who .none .warp 0b111 = .done u ∧
      s.checkAccess c .gl .atomic .atomic 4 (memAddr memOp true c) (fun p => supports .add .w32 p && s.hostAtomics p) true = .ok t accs) ∧
    (∃ s c t u accs, Issues s c ∧ s.held c true true = false ∧ s.midCommit c.who.core = false ∧ s.logged c = [] ∧
      t.releaseNow c.who .none .warp 0b111 = .done u ∧
      s.checkAccess c .gl .atomic .atomic 16 (memAddr memOp true c) (fun p => supports .cas .w128 p && s.hostAtomics p) true = .ok t accs ∧
      s.casRecord c = none ∧ t.recordOverlapped c = 0) ∧
    (∃ s c t u accs, Issues s c ∧ s.held c true true = false ∧ s.midCommit c.who.core = false ∧ s.logged c = [] ∧
      t.releaseNow c.who .none .warp 0b111 = .done u ∧
      s.checkAccess c .sp .atomic .atomic 4 (memAddr memOp false c) (supports .add .w32) true = .ok t accs ∧
      (∀ a ∈ accs, ∃ core off, a.place = .sp core off) ∧ accs ≠ []) ∧
    ∃ s c t u accs, Issues s c ∧ s.held c true true = false ∧ s.midCommit c.who.core = false ∧ s.logged c = [] ∧
      t.releaseNow c.who .none .warp 0b111 = .done u ∧
      s.checkAccess c .sp .atomic .atomic 4 (memAddr memOp false c) Place.notHost true = .ok t accs :=
  ⟨⟨memState (.atom .add .w32 memOp) words4, _, _, _, _, issues_mem _ words4, by decide, by decide, by decide, rfl, (checkAccess_overlap _ _ _ _ _ _ _ _ (by rintro _ ⟨⟩; rfl)).trans rfl⟩,
   ⟨hostState, _, hostState.tlbPull 0 1 0 .atomic, _, _, ⟨rfl, by show (1 : Mask) ≠ 0; decide⟩, by decide, by decide, by decide, rfl, (checkAccess_overlap _ _ _ _ _ _ _ _ (by rintro _ ⟨⟩; rfl)).trans rfl, by decide, recordOverlapped_none _ _ (by rintro _ ⟨⟩; rfl)⟩,
   ⟨stateWith (memCore (.dev 0) (placedWarpCore none (encode (.atoms .add .w32 false memOp) ++ [6]))) (issueAs warp0 1 (.atoms .add .w32 false memOp) words4),
     _, _, _, [{ lane := 0, va := 0, place := .sp 0 0, bytes := 4 }], ⟨rfl, by show (1 : Mask) ≠ 0; decide⟩, by decide, by decide, by decide, rfl, (checkAccess_overlap _ _ _ _ _ _ _ _ (by rintro _ ⟨⟩; rfl)).trans rfl,
     by simp, by decide⟩,
   ⟨memState (.stcond .sp false memOp) words4, _, _, _, _, issues_mem _ words4, by decide, by decide, by decide, rfl, (checkAccess_overlap _ _ _ _ _ _ _ _ (by rintro _ ⟨⟩; rfl)).trans rfl⟩⟩

theorem witness_RedPrefetchAndFence :
    (∃ s c t accs, Issues s c ∧ c.inWarp ∧ s.held c false false = false ∧
      s.checkAccess c .gl .atomic .atomic 4 (memAddr memOp true c) (fun p => supports .add .w32 p && s.hostAtomics p) false = .ok t accs) ∧
    (∃ s c, Issues s c ∧ s.held c false false = false ∧ (s.die (dieOf c.who.core)).missq.length + 32 ≤ 64) ∧ ∃ s c, Issues s c ∧ c.inWarp ∧ s.held c true false = false :=
  ⟨⟨_, _, _, _, issues_mem (.red .add .w32 memOp) words4, rfl, by decide, rfl⟩, ⟨_, _, issues_mem (.pref memOp) words4, by decide, by decide⟩,
   ⟨_, _, issues_mem (.fence noWd .acqrel .sys 7) [], rfl, by decide⟩⟩
-- lane 1 alone is misaligned, by one byte
theorem witness_MisalignedAccessFaults : ∃ s c, Issues s c ∧ s.held c false false = false ∧ s.midCommit c.who.core = false ∧
    (c.lanes.any fun l => (memAddr memOp true c l).toNat % 4 != 0) = true ∧ (c.lanes.any fun l => (memAddr memOp false c l).toNat % 4 != 0) = true :=
  ⟨_, _, issues_mem (.ld .b32 memOp) [(.a, fun l => BitVec.ofNat 32 l), (.ax, fun _ => 0)], by decide, by decide, by decide, by decide⟩
theorem test_misaligned : ∀ t, nextOf (exec (.ld .b32 memOp) (memState (.ld .b32 memOp) [(.a, fun l => if l = 1 then 5 else 0), (.ax, fun _ => 0)])) = some t →
    ((t.instOf warp0).bind (·.exit)).map (fun f => (f.code, f.mask, f.raddr)) = some (.misaligned, 2, 5) := by
  intro t h; rw [show nextOf _ = some _ from rfl] at h; injection h with h; rw [← h]; decide
-- the first and last bytes of a scratchpad, a frame that is not zeroed and one that is
theorem witness_BytesReadAsWritten : (0 : Nat) < Config.spadBytes ∧ 524287 < Config.spadBytes ∧ Place.sp 0 524287 ≠ Place.sp 1 0 ∧
    State.reset.zeroing (frameOf 0) = false ∧ ({ State.reset with scrubs := [{ frame := frameOf 0, st := .zeroing }] } : State).zeroing (frameOf 0) = true ∧
    Memory.wf State.reset.mem = true := by decide

/-! ## Witnesses: barriers, flags, events and channels -/

/-- The warp state with its team changed. -/
def teamState (f : Team → Team) (g : Warp → Warp) (i : Instr) (vals : List (PortName × (Nat → Word))) : State :=
  stateWith { placedWarpCore (some i) (encode i ++ [6]) with teams := [f placedTeam], warps := [(0, g placedWarp)] } (warpIssue i vals)

theorem issues_team (f : Team → Team) (g : Warp → Warp) (i : Instr) (vals : List (PortName × (Nat → Word))) :
    Issues (teamState f g i vals) (warpIssue i vals) := ⟨rfl, by show full ≠ 0; decide⟩

/-- A team with one named barrier, for which warp 0 has pledged two arrivals a phase. -/
def withBar (b : NBar) (t : Team) : Team := { t with nbs := [b] }
def bar4 : NBar := { exp := 4, cnt := 1, regs := [{ party := .warp 0, pledge := 2, left := 2 }] }
def count (n : Word) : List (PortName × (Nat → Word)) := [(.a, fun _ => n)]

theorem witness_BarrierForms :
    (∃ s c t, Issues s c ∧ c.inWarp ∧ s.teamOf c.who = some t ∧ t.lrec.gang ≠ 0) ∧
    (∃ s c t, Issues s c ∧ s.teamOf c.who = some t ∧ t.lrec.gang = 0) ∧
    (∃ s c b, Issues s c ∧ c.who = .warp 0 0 0 ∧ s.nbar? c.who 0 = some b ∧ (c.lowW .a).toNat / 65536 = (c.lowW .a).toNat % 65536) ∧
    (∃ s c b, Issues s c ∧ c.who = .warp 0 0 0 ∧ s.nbar? c.who 0 = some b ∧ (c.lowW .a).toNat / 65536 = (c.lowW .a).toNat % 65536 + 1) ∧
    (∃ s c b, Issues s c ∧ c.who = .warp 0 0 0 ∧ s.nbar? c.who 0 = some b ∧ b.mayArrive (.warp 0) 2 = true ∧ (c.lowW .a).toNat % 65536 = 2) ∧
    (∃ s c b, Issues s c ∧ c.who = .warp 0 0 0 ∧ s.nbar? c.who 0 = some b ∧ b.mayArrive (.warp 0) 3 = false ∧ (c.lowW .a).toNat % 65536 = 3) ∧
    (∃ s c b, Issues s c ∧ c.who = .warp 0 0 0 ∧ s.nbar? c.who 0 = some b ∧ b.ph ≠ s.waitPhase c 0 b) ∧
    (∃ s c b, Issues s c ∧ c.who = .warp 0 0 0 ∧ s.nbar? c.who 0 = some b ∧ b.ph = s.waitPhase c 0 b ∧ b.stranded = true ∧ ∃ t ∈ c.form.targets, t ≠ none) ∧
    (∃ s c b, Issues s c ∧ c.who = .warp 0 0 0 ∧ s.nbar? c.who 0 = some b ∧ b.ph = s.waitPhase c 0 b ∧ b.stranded = true ∧ ∀ t ∈ c.form.targets, t = none) ∧
    (∃ s c b, Issues s c ∧ c.who = .warp 0 0 0 ∧ s.nbar? c.who 0 = some b ∧ b.ph = s.waitPhase c 0 b ∧ b.stranded = false) ∧
    ({ bar4 with stranded := true } : NBar).stranded = true ∧ (bar4.stranded = false ∧ bar4.cnt + 2 < bar4.exp) ∧
    (bar4.exp = bar4.cnt + 3 ∧ bar4.cnt + 3 < 2 * bar4.exp) ∧ bar4.cnt + 6 + 1 = 2 * bar4.exp :=
  ⟨⟨_, _, _, issues_team (fun t => { t with lrec := { gang := 1 } }) id (.gbar noWd) [], rfl, rfl, by decide⟩,
   ⟨_, _, _, issues_team id id (.gbar noWd) [], rfl, by decide⟩,
   ⟨_, _, _, issues_team (withBar bar4) id (.nbjoin noWd 0) (count 0x00020002), rfl, rfl, by decide⟩,
   ⟨_, _, _, issues_team (withBar bar4) id (.nbjoin noWd 0) (count 0x00020001), rfl, rfl, by decide⟩,
   ⟨_, _, _, issues_team (withBar bar4) id (.nbarrive noWd 0) (count 2), rfl, rfl, by decide, by decide⟩,
   ⟨_, _, _, issues_team (withBar bar4) id (.nbarrive noWd 0) (count 3), rfl, rfl, by decide, by decide⟩,
   ⟨_, _, _, issues_team (withBar { bar4 with ph := 6 }) (fun w => { w with nbLast := [(0, 5)] }) (.nbwait toNext 0) [], rfl, rfl, by decide⟩,
   ⟨_, _, _, issues_team (withBar { bar4 with stranded := true }) id (.nbwait toNext 0) [], rfl, rfl, by decide, rfl, by decide⟩,
   ⟨_, _, _, issues_team (withBar { bar4 with stranded := true }) id (.nbwait noWd 0) [], rfl, rfl, by decide, rfl, by decide⟩,
   ⟨_, _, _, issues_team (withBar bar4) id (.nbwait noWd 0) [], rfl, rfl, by decide, rfl⟩, by decide, by decide, by decide, by decide⟩
-- three arrivals complete a phase of 4 with 1 there; six leave 3 of the next
theorem test_arrive : (bar4.arrive (.warp 0) 3).cnt = 0 ∧ (bar4.arrive (.warp 0) 3).ph = 1 ∧ (bar4.arrive (.warp 0) 6).cnt = 3 := by decide

-- a count of one and of none; an event whose target is 2^31 - 1 behind it, and 2^31
theorem witness_FlagsAndEvents :
    (∃ s c x, Issues s c ∧ s.ctx? (s.ctxOf c.who) = some x ∧ (s.flagsOf c.who).getD 11 0 ≠ 0) ∧
    (∃ s c x, Issues s c ∧ s.ctx? (s.ctxOf c.who) = some x ∧ c.inWarp ∧ (s.flagsOf c.who).getD 11 0 = 0) ∧
    (∃ s c x, Issues s c ∧ s.ctx? (s.ctxOf c.who) = some x ∧ (x.events.getD 63 0 - c.lowW .a).toNat = 2 ^ 31 - 1) ∧
    (∃ s c x, Issues s c ∧ s.ctx? (s.ctxOf c.who) = some x ∧ (x.events.getD 63 0 - c.lowW .a).toNat = 2 ^ 31) ∧
    ∃ s c x t, Issues s c ∧ s.ctx? (s.ctxOf c.who) = some x ∧ c.who = .ctl 0 1 ∧ s.releaseActs 0 (s.vfOf 1) (if 1 < x.devices then .sys else .dev) 0b111 = .done t :=
  ⟨⟨_, _, _, issues_team id (fun w => { w with flags := List.replicate 12 1 }) (.waitf noWd 11) [], rfl, by decide⟩,
   ⟨_, _, _, issues_team id id (.waitf noWd 11) [], rfl, rfl, by decide⟩, ⟨_, _, _, issues_team id id (.evwait noWd 63) (count 0x80000001), rfl, by decide⟩,
   ⟨_, _, _, issues_team id id (.evwait noWd 63) (count 0x80000000), rfl, by decide⟩, ⟨_, _, _, _, issues_ctl (.evsig noWd 63) [], rfl, rfl, rfl⟩⟩

/-- A team whose channel 63 is this one. -/
def withChan (ch : Chan) (t : Team) : Team := { t with chans := List.replicate 63 {} ++ [ch] }

theorem witness_ChannelForms :
    (∃ s c t, Issues s c ∧ c.who = .warp 0 0 0 ∧ s.teamOf c.who = some t ∧ (t.chan 63).kind = .fifo ∧ (t.chan 63).items = [] ∧
      (s.core c.who.core).poolUsed - (t.chan 63).reserved + 256 = 256 ∧ (c.lowW .a).toNat = 256) ∧
    (∃ s c t, Issues s c ∧ c.who = .warp 0 0 0 ∧ s.teamOf c.who = some t ∧ (t.chan 63).kind = .fifo ∧
      (s.core c.who.core).poolUsed - (t.chan 63).reserved + 256 = 257 ∧ (c.lowW .a).toNat = 256) ∧
    (∃ s c t, Issues s c ∧ c.who = .warp 0 0 0 ∧ s.teamOf c.who = some t ∧ (t.chan 63).kind = .fifo ∧ (c.lowW .a).toNat = 257) ∧
    (∃ s c t, Issues s c ∧ c.who = .warp 0 0 0 ∧ s.teamOf c.who = some t ∧ (t.chan 63).kind = .fifo ∧ (t.chan 63).items = [(1, [7])]) ∧
    (∃ s c t, Issues s c ∧ c.who = .warp 0 0 0 ∧ s.teamOf c.who = some t ∧ (t.chan 63).kind = .sink) ∧
    (∃ s c t, Issues s c ∧ c.who = .warp 0 0 0 ∧ s.teamOf c.who = some t ∧ (t.chan 63).kind = .source ∧ (t.chan 63).items = []) ∧
    ∃ s c t, Issues s c ∧ c.who = .warp 0 0 0 ∧ s.teamOf c.who = some t ∧ (t.chan 63).kind = .unused :=
  ⟨⟨_, _, _, issues_team (withChan { kind := .fifo, depth := 1 }) id (.chresize toNext 63) (count 256), rfl, rfl, by decide, by decide, by decide, by decide⟩,
   ⟨_, _, _, issues_team (fun t => { t with chans := { kind := .fifo, depth := 1 } :: (List.replicate 62 {} ++ [{ kind := .fifo, depth := 1 }]) }) id (.chresize toNext 63) (count 256),
     rfl, rfl, by decide, by decide, by decide⟩,
   ⟨_, _, _, issues_team (withChan { kind := .fifo, depth := 1 }) id (.chresize toNext 63) (count 257), rfl, rfl, by decide, by decide⟩,
   ⟨_, _, _, issues_team (withChan { kind := .fifo, depth := 1, items := [(1, [7])] }) id (.recv toNext 63) [], rfl, rfl, by decide, by decide⟩,
   ⟨_, _, _, issues_team (withChan { kind := .sink }) id (.send noWd 63) (count 5), rfl, rfl, by decide⟩,
   ⟨_, _, _, issues_team (withChan { kind := .source }) id (.recv toNext 63) [], rfl, rfl, by decide, by decide⟩,
   ⟨_, _, _, issues_team id id (.chstat toNext 63) [], rfl, rfl, by decide⟩⟩

/-! ## Witnesses: engines, the matrix path, communicators -/

def engForm (scope : Scope) : EngForm := ⟨longWd, scope, none⟩
/-- A matrix path that context `x` holds, arranged as 512 × 512. -/
def heldBy (x : Nat) : Mx := { Mx.fresh with holder := some x, arr := some .a512 }
/-- A warp whose page 0 is a host page that holds these words. -/
def blockState (ws : List DWord) (f : Ctx → Ctx) (i : Instr) (vals : List (PortName × (Nat → Word))) : State :=
  { stateWith (memCore (.host 0 0 false) (placedWarpCore (some i) (encode i ++ [6]))) (warpIssue i vals) with
    ctxs := [f placedCtx], mem := (State.reset.pokeN (.host 0 0 false) (ws.flatMap fun w => valBytes 8 w.toNat)).mem }

theorem issues_block (ws : List DWord) (f : Ctx → Ctx) (i : Instr) (vals : List (PortName × (Nat → Word))) :
    Issues (blockState ws f i vals) (warpIssue i vals) := ⟨rfl, by show full ≠ 0; decide⟩

/-- A control thread that issues a COPY whose parameter block is in page 0. -/
def ctlCopy : Instr := .copy (engForm .dev)
def copyState : State := stateWith { memCore (.dev 0) (ctlCore ctlCopy) with teams := (ctlCore ctlCopy).teams } (ctlIssue ctlCopy (count 64))
def copyReq : EngReq := blockReq .copy (engForm .dev) (ctlIssue ctlCopy (count 64))

theorem witness_EngineFormsAreBufferedOrIssued :
    (∃ s c, blockKind (.copy (engForm .dev)) = some (.copy, engForm .dev) ∧ Issues s c ∧ (c.lanes.any fun l => (c.w64 .a .ax l).toNat % 64 != 0) = true) ∧
    (∃ s c, Issues s c ∧ c.inWarp ∧ (c.lanes.any fun l => (c.w64 .a .ax l).toNat % 64 != 0) = false) ∧
    (∀ st, st ≠ .reserved → ∃ s c t p bs, blockKind (.collBarrier (engForm .sys)) = some (.coll 6, engForm .sys) ∧ Issues s c ∧ EngKind.isColl (.coll 6) = true ∧ c.inWarp ∧
      (c.lanes.any fun l => (c.w64 .a .ax l).toNat % 64 != 0) = false ∧ s.translate c.who.core (s.ctxOf c.who) (c.lowD .a .ax + 16) .read = (t, .ok p) ∧
      (t.engGet c.who.core (some (s.ctxOf c.who, c.who.requester)) p 8).2 = bs ∧ (t.handle (s.ctxOf c.who) (bytesVal bs / 2 ^ 42 % 16)).st = st) ∧
    ∃ t u res, Issues copyState (ctlIssue ctlCopy (count 64)) ∧ ((ctlIssue ctlCopy (count 64)).lanes.any fun l =>
      ((ctlIssue ctlCopy (count 64)).w64 .a .ax l).toNat % 64 != 0) = false ∧ IssuesNow copyState ctl0 copyReq t u res :=
  ⟨⟨_, _, rfl, issues_mem (.copy (engForm .dev)) [(.a, fun l => if l = 31 then 65 else 64)], by decide⟩,
   ⟨_, _, issues_mem (.copy (engForm .dev)) (count 64), rfl, by decide⟩,
   fun st h => ⟨_, _, _, _, List.replicate 8 0, rfl, issues_block [] (fun x => { x with comms := [{ st }] }) (.collBarrier (engForm .sys)) (count 0), rfl, rfl, by decide, rfl, rfl, by cases st <;> first | decide | exact absurd rfl h⟩,
   ⟨_, _, _, ⟨rfl, by decide⟩, by decide, { fresh := by decide, flag := by decide, room := by decide, behind := by decide, release := rfl, prepare := rfl, free := Or.inl ⟨_, rfl⟩ }⟩⟩

/-- Core 0 with a STREAM of the placed context on generator 7, in this state. -/
def genState (st : StreamSt) (i : Instr) (x : Word) : State :=
  let o : EngOp := { id := 3, ctx := 1, issuer := none, req := plainReq .stream 0 0 0 .dev none false, flag := none, team := none }
  stateWith { placedWarpCore (some i) (encode i ++ [6]) with gens := List.replicate 7 none ++ [some { op := 3, st }], ops := [o] } (warpIssue i (count x))

theorem issues_gen (st : StreamSt) (i : Instr) (x : Word) : Issues (genState st i x) (warpIssue i (count x)) := ⟨rfl, by show full ≠ 0; decide⟩

theorem witness_StreamControlFollowsTheTable : (∃ s c, Issues s c ∧ (c.lowW .a).toNat = 8) ∧
    (∃ s c, Issues s c ∧ (c.lowW .a).toNat < 8 ∧ (s.core c.who.core).gens.getD 6 none = none ∧ (c.lowW .a).toNat = 6) ∧
    ∀ st, ∃ s c g o, Issues s c ∧ (c.lowW .a).toNat = 7 ∧ (s.core c.who.core).gens.getD 7 none = some g ∧ (s.core c.who.core).op? g.op = some o ∧
      o.ctx = s.ctxOf c.who ∧ o.req.kind = .stream ∧ g.st = st :=
  ⟨⟨_, _, issues_gen .loaded (.strmctlStart toNext) 8, by decide⟩, ⟨_, _, issues_gen .loaded (.strmctlStart toNext) 6, by decide, by decide, by decide⟩,
   fun st => ⟨_, _, _, _, issues_gen st (.strmctlStart toNext) 7, by decide, rfl, rfl, rfl, rfl, rfl⟩⟩

/-- Core 0 with this matrix path. -/
def mxState (mx : Mx) (i : Instr) (vals : List (PortName × (Nat → Word))) : State :=
  stateWith { placedWarpCore (some i) (encode i ++ [6]) with mx } (warpIssue i vals)
def mxCtl (mx : Mx) (i : Instr) : State := stateWith { ctlCore i with mx } (ctlIssue i [])

theorem issues_mx (mx : Mx) (i : Instr) (vals : List (PortName × (Nat → Word))) : Issues (mxState mx i vals) (warpIssue i vals) :=
  ⟨rfl, by show full ≠ 0; decide⟩

theorem witness_MatrixPathHasOneHolder :
    (∃ s c, Issues s c ∧ (s.core c.who.core).mx.holder = none ∧ (s.core c.who.core).mx.queue = []) ∧
    (∃ s c, Issues s c ∧ (s.core c.who.core).mx.holder = some 2 ∧ 2 ≠ s.ctxOf c.who) ∧
    ∃ s c, Issues s c ∧ (s.core c.who.core).mx.holder ≠ some (s.ctxOf c.who) :=
  ⟨⟨_, _, issues_mx .fresh (.mxcfg .a512 noWd) [], rfl, rfl⟩, ⟨_, _, issues_mx (heldBy 2) (.mxcfg .a512 noWd) [], rfl, by decide⟩,
   ⟨_, _, issues_mx .fresh (.mxstat toNext) [], by decide⟩⟩

-- row slot 63, the last rows and the last 32 columns of 512
theorem witness_MatrixFormsOfTheHolder :
    (∃ s c, Issues s c ∧ (s.core c.who.core).mx.holder = some (s.ctxOf c.who) ∧ (s.core c.who.core).mx.arr = some .a512 ∧ c.inWarp ∧
      (c.lowW .a).toNat < 65536 ∧ (c.lowW .a).toNat % 256 + (c.lowW .a).toNat / 256 + 1 = (arrangement .a512).rows) ∧
    (∃ s c, Issues s c ∧ (s.core c.who.core).mx.holder = some (s.ctxOf c.who) ∧ (s.core c.who.core).mx.arr = some .a512 ∧
      (∀ l ∈ c.lanes, c.w32 .b l = c.lowW .b) ∧ fwBad (c.lowW .b) = false ∧ fwSlot (c.lowW .b) = 63 ∧
      ((s.core c.who.core).mx.slots.getD (fwSlot (c.lowW .b)) default).take (fwFmt (c.lowW .b)) (fwEa (c.lowW .b)) (fwPart (c.lowW .b)) = .take) ∧
    (∃ s c, Issues s c ∧ (s.core c.who.core).mx.holder = some (s.ctxOf c.who) ∧ (s.core c.who.core).mx.arr = some .a512 ∧
      drainOk (cvtOp .fp32 .fp32) (arrangement .a512) (c.lowW .a).toNat = true ∧ s.held c false false = false) ∧
    (∃ (s : State) (c : Issue), c.who = .ctl 0 1 ∧ (s.core 0).mx.queue.length = 31) ∧ ∃ (s : State) (c : Issue), c.who = .ctl 0 1 ∧ (s.core 0).mx.queue.length = 32 :=
  ⟨⟨_, _, issues_mx (heldBy 1) (.mxzero noWd) (count 0x1F00), rfl, rfl, rfl, by decide, by decide⟩,
   ⟨_, _, issues_mx (heldBy 1) (.mxfeed noWd) [(.b, fun _ => 0x3F007)], rfl, rfl, by decide, by decide, by decide, by decide⟩,
   ⟨_, _, issues_mx (heldBy 1) (.mxdrain (cvtOp .fp32 .fp32)) (count (480 * 128 + 31)), rfl, rfl, by decide, by decide⟩,
   ⟨mxCtl { heldBy 1 with queue := List.replicate 31 0 } (.mxcfgRelease noWd), ctlIssue (.mxcfgRelease noWd) [], rfl, by decide⟩,
   ⟨mxCtl { heldBy 1 with queue := List.replicate 32 0 } (.mxcfgRelease noWd), ctlIssue (.mxcfgRelease noWd) [], rfl, by decide⟩⟩

/-- A COMMNEW block: key 5, two ranks of which this is rank 0, the member table at 64; then the table. -/
def commBlock : List DWord := [5, 2, 64, 0, 0, 0, 0, 0, 1, 1, 1, 2]

/-- The warp that reads it. -/
def commState : State := blockState commBlock id (.commnew toPair) (count 0)

theorem witness_CommunicatorForms :
    (∃ s c t u ws x h bs, Issues s c ∧ c.inWarp ∧ s.readBlock c (c.lowD .a .ax) = .ok t ws ∧ t.ctx? (s.ctxOf c.who) = some x ∧ x.freeHandle = some h ∧
      commBad ws = false ∧ t.readPieces c 16 (blkF ws 1 31 0) (blkW ws 2) = .ok u bs ∧
      membersBad (memberPairs (blkF ws 1 31 0) (dwords (2 * blkF ws 1 31 0) bs)) = false) ∧
    (∃ s c, Issues s c ∧ c.inWarp ∧ (s.handle (s.ctxOf c.who) (c.lowW .a).toNat).st = .free) ∧
    ∃ s c, Issues s c ∧ c.inWarp ∧ (s.handle (s.ctxOf c.who) (c.lowW .a).toNat).st ≠ .free :=
  ⟨⟨commState, _, commState, commState, [5, 2, 64, 0, 0, 0, 0, 0], _, _, [1, 1, 1, 2].flatMap fun n => valBytes 8 n, issues_block commBlock id (.commnew toPair) (count 0), rfl, rfl, rfl, rfl, by decide, rfl, by decide⟩,
   ⟨_, _, issues_block [] id (.commfree noWd) (count 15), rfl, by decide⟩,
   ⟨_, _, issues_block [] (fun x => { x with comms := [{ st := .dead }] }) (.commfree noWd) (count 0), rfl, by decide⟩⟩

/-! ## Witnesses: launches and contexts -/

/-- The warp state with its context changed. -/
def ctxState (f : Ctx → Ctx) (i : Instr) (vals : List (PortName × (Nat → Word))) : State := { warpState i vals with ctxs := [f placedCtx] }

theorem issues_ctx (f : Ctx → Ctx) (i : Instr) (vals : List (PortName × (Nat → Word))) : Issues (ctxState f i vals) (warpIssue i vals) :=
  ⟨rfl, by show full ≠ 0; decide⟩

/-- Queue 63 with this many grids in it. -/
def loaded (n : Nat) (x : Ctx) : Ctx := { x with queues := List.replicate 63 {} ++ [{ next := n, grids := List.replicate n { seq := 0, st := .queued } }] }
def ab (a b : Word) : List (PortName × (Nat → Word)) := [(.a, fun _ => a), (.b, fun _ => b)]

-- record addresses 64 and 128, queues 64, 63 and 1, 256 and 255 grids, LSTAT of number 2^24 and of the one below
theorem witness_LaunchReservesTheNextNumber :
    (∃ s c x, Issues s c ∧ c.inWarp ∧ s.ctx? (s.ctxOf c.who) = some x ∧ (c.w64 .a .ax c.low).toNat % 128 ≠ 0) ∧
    (∃ s c x, Issues s c ∧ c.inWarp ∧ s.ctx? (s.ctxOf c.who) = some x ∧ (c.w64 .a .ax c.low).toNat % 128 = 0 ∧ (c.lowW .b).toNat = 64) ∧
    (∃ s c x, Issues s c ∧ c.inWarp ∧ s.ctx? (s.ctxOf c.who) = some x ∧ (c.w64 .a .ax c.low).toNat % 128 = 0 ∧ (c.lowW .b).toNat < 64 ∧ x.queueCount = (c.lowW .b).toNat) ∧
    (∃ s c x, Issues s c ∧ c.inWarp ∧ s.ctx? (s.ctxOf c.who) = some x ∧ (c.w64 .a .ax c.low).toNat % 128 = 0 ∧ (c.lowW .b).toNat = 63 ∧ 63 < x.queueCount ∧
      (x.queues.getD 63 default).load = 256 ∧ ∃ t ∈ c.form.targets, t ≠ none) ∧
    (∃ s c x, Issues s c ∧ c.inWarp ∧ s.ctx? (s.ctxOf c.who) = some x ∧ (c.w64 .a .ax c.low).toNat % 128 = 0 ∧ (c.lowW .b).toNat = 63 ∧ 63 < x.queueCount ∧
      (x.queues.getD 63 default).load = 256 ∧ ∀ t ∈ c.form.targets, t = none) ∧
    (∃ s c x, Issues s c ∧ c.inWarp ∧ s.ctx? (s.ctxOf c.who) = some x ∧ (c.w64 .a .ax c.low).toNat % 128 = 0 ∧ (c.lowW .b).toNat = 63 ∧ 63 < x.queueCount ∧
      (x.queues.getD 63 default).load = 255) ∧
    (∃ s c x, Issues s c ∧ c.inWarp ∧ s.ctx? (s.ctxOf c.who) = some x ∧ (c.lowW .b).toNat = 2 ^ 24) ∧
    ∃ s c x, Issues s c ∧ c.inWarp ∧ s.ctx? (s.ctxOf c.who) = some x ∧ (c.lowW .a).toNat = 63 ∧ (c.lowW .b).toNat = 2 ^ 24 - 1 ∧ 63 < x.queueCount :=
  ⟨⟨_, _, _, issues_ctx id (.launch toPair) (ab 64 0), rfl, rfl, by decide +kernel⟩, ⟨_, _, _, issues_ctx id (.launch toPair) (ab 128 64), rfl, rfl, by decide +kernel, by decide +kernel⟩,
   ⟨_, _, _, issues_ctx (fun x => { x with nq := 1 }) (.launch toPair) (ab 128 1), rfl, rfl, by decide +kernel, by decide +kernel, by decide +kernel⟩,
   ⟨_, _, _, issues_ctx (loaded 256) (.launch toPair) (ab 128 63), rfl, rfl, by decide +kernel, by decide +kernel, by decide +kernel, by decide +kernel, by decide +kernel⟩,
   ⟨_, _, _, issues_ctx (loaded 256) (.launch longWd) (ab 128 63), rfl, rfl, by decide +kernel, by decide +kernel, by decide +kernel, by decide +kernel, by decide +kernel⟩,
   ⟨_, _, _, issues_ctx (loaded 255) (.launch toPair) (ab 128 63), rfl, rfl, by decide +kernel, by decide +kernel, by decide +kernel, by decide +kernel⟩,
   ⟨_, _, _, issues_ctx id (.lstat toNext) (ab 63 0x1000000), rfl, rfl, by decide +kernel⟩,
   ⟨_, _, _, issues_ctx id (.lstat toNext) (ab 63 0xFFFFFF), rfl, rfl, by decide +kernel, by decide +kernel, by decide +kernel⟩⟩

/-- A CTXNEW block: entry 8, window and first-level page at 64 KiB, the core list at 64, one core, one queue, one tag, seed 7; the list
names logical core 0. -/
def grantBlock : List DWord := [8, 0x10000, 0x10000, 0x10000, 64, 0x10000, 0x8100000000, 7, 0]
/-- The same for CTXGRANT. -/
def regrantBlock : List DWord := [0, 0x10000, 0x10000, 0x10000, 64, 0x10000, 0x8100000000, 0, 0]
/-- A CTXREVOKE block that takes nothing but the frames above 0. -/
def revokeBlock : List DWord := [0, 1, 0x10000, 0, 8, 0, 0, 0]

/-- The context that these blocks make: a child of the placed one. -/
def child : Ctx :=
  { placedCtx with idx := 2, parent := some 1, depth := 1, st := .stopped, troot := 0x10000, entry := 8, wbase := 0x10000, wsize := 0x10000, nq := 1, tagb := 1, trsh := 0, prio := 0 }
/-- The block state with that child, changed. -/
def childState (ws : List DWord) (f : Ctx → Ctx) (i : Instr) (vals : List (PortName × (Nat → Word))) : State :=
  { blockState ws id i vals with ctxs := [placedCtx, f child] }

theorem issues_child (ws : List DWord) (f : Ctx → Ctx) (i : Instr) (vals : List (PortName × (Nat → Word))) :
    Issues (childState ws f i vals) (warpIssue i vals) := ⟨rfl, by show full ≠ 0; decide⟩

theorem witness_ContextsAreCreatedGrantedAndRevoked :
    (∃ s c x, Issues s c ∧ c.inWarp ∧ s.ctx? (s.ctxOf c.who) = some x ∧ x.depth = 3) ∧
    (∃ s c t u x ws l cores i, Issues s c ∧ c.inWarp ∧ s.ctx? (s.ctxOf c.who) = some x ∧ x.depth < 3 ∧ s.readBlock c (c.lowD .a .ax) = .ok t ws ∧
      t.grantBad x ws false = false ∧ t.readCores c (blkF ws 5 31 16) (blkW ws 4) = .ok u l ∧ x.physCores l = some cores ∧
      modeBad { grantParams ws with cores } = false ∧ u.overGrant x 0 { grantParams ws with cores } = false ∧ u.freeIndex = some i) ∧
    (∃ s c x, Issues s c ∧ c.inWarp ∧ s.ctx? (s.ctxOf c.who) = some x ∧ s.descendantById (s.ctxOf c.who) (c.lowW .b) = none) ∧
    (∃ s c t u x k ws l cores, Issues s c ∧ c.inWarp ∧ s.ctx? (s.ctxOf c.who) = some x ∧ s.descendantById (s.ctxOf c.who) (c.lowW .b) = some k ∧
      k.parent = some (s.ctxOf c.who) ∧ k.st ≠ .killing ∧ s.lockFree k.idx c.who = true ∧ s.readBlock c (c.lowD .a .ax) = .ok t ws ∧
      t.grantBad x ws true = false ∧ t.readCores c (blkF ws 5 31 16) (blkW ws 4) = .ok u l ∧ x.physCores l = some cores ∧
      u.regrantStatus x k { grantParams ws with cores } = .done) ∧
    ∃ s c t u x k ws l cores, Issues s c ∧ c.inWarp ∧ s.ctx? (s.ctxOf c.who) = some x ∧ s.descendantById (s.ctxOf c.who) (c.lowW .b) = some k ∧
      k.parent = some (s.ctxOf c.who) ∧ k.st ≠ .killing ∧ s.lockFree k.idx c.who = true ∧ s.readBlock c (c.lowD .a .ax) = .ok t ws ∧
      revokeBad k ws = false ∧ t.readCores c (blkF ws 1 31 16) (blkW ws 0) = .ok u l ∧ x.physCores l = some cores ∧ cores.all k.cores.contains = true ∧
      k.devicesOn (k.cores.filter fun y => !cores.contains y) ≤ blkF ws 1 6 0 ∧ blkF ws 1 6 0 ≤ k.nq ∧ k.revoke = none :=
  ⟨⟨_, _, _, issues_ctx (fun x => { x with depth := 3 }) (.ctxnew toPair) (ab 0 0), rfl, rfl, rfl⟩,
   ⟨_, _, _, _, _, grantBlock.take 8, [0], [0], 2, issues_block grantBlock id (.ctxnew toPair) (ab 0 0), rfl, rfl, by decide, rfl, by decide, rfl, by decide, by decide, by decide, by decide⟩,
   ⟨_, _, _, issues_child [] id (.ctxgrant toPair) (ab 0 3), rfl, rfl, by decide⟩,
   ⟨_, _, _, _, _, child, regrantBlock.take 8, [0], [0], issues_child regrantBlock id (.ctxgrant toPair) (ab 0 2), rfl, rfl, by decide, by decide, by decide, by decide, rfl, by decide, rfl,
     by decide, by decide⟩,
   ⟨_, _, _, _, _, child, revokeBlock, [], [], issues_child revokeBlock id (.ctxrevoke toPair) (ab 0 2), rfl, rfl, by decide, by decide, by decide, by decide, rfl, by decide, rfl,
     by decide, by decide, by decide, by decide, rfl⟩⟩

/-- The child is FLAT and runs, and a page fault of its warp has halted number 1 at the placed context. -/
def haltState (i : Instr) (vals : List (PortName × (Nat → Word))) : State :=
  { childState [] (fun x => { x with st := .running, flags := 0x20 }) i vals with
    halts := [{ num := 1, recv := 1, host := false, req := .warp 0 5, ctx := 2, code := .pageAbsent, record := [] }] }

theorem issues_halt (i : Instr) (vals : List (PortName × (Nat → Word))) : Issues (haltState i vals) (warpIssue i vals) := ⟨rfl, by show full ≠ 0; decide⟩

theorem witness_KillRunAndStatActOnDescendants :
    (∃ s c x, Issues s c ∧ c.inWarp ∧ s.ctx? (s.ctxOf c.who) = some x ∧ (c.w64 .b .bx c.low).toNat % 8 ≠ 0) ∧
    (∃ s c x, Issues s c ∧ c.inWarp ∧ s.ctx? (s.ctxOf c.who) = some x ∧ s.descendantById (s.ctxOf c.who) (c.lowW .a) = none ∧
      (c.w64 .b .bx c.low).toNat % 8 = 0 ∧ c.lowW .a ≠ 0) ∧
    (∃ s c x, Issues s c ∧ c.inWarp ∧ s.ctx? (s.ctxOf c.who) = some x ∧ c.lowW .a = 0) ∧
    (∃ s c x k, Issues s c ∧ c.inWarp ∧ s.ctx? (s.ctxOf c.who) = some x ∧ s.descendantById (s.ctxOf c.who) (c.lowW .a) = some k ∧ k.st = .killing ∧
      (c.w64 .b .bx c.low).toNat % 8 = 0) ∧
    (∃ s c x k, Issues s c ∧ c.inWarp ∧ s.ctx? (s.ctxOf c.who) = some x ∧ s.descendantById (s.ctxOf c.who) (c.lowW .a) = some k ∧ k.st ≠ .killing ∧
      s.lockFree k.idx c.who = true ∧ (c.w64 .b .bx c.low).toNat % 8 = 0 ∧ s.resumeStatus (s.ctxOf c.who) k (c.lowW .b).toNat = .done) ∧
    ∃ s c x k, Issues s c ∧ c.inWarp ∧ s.ctx? (s.ctxOf c.who) = some x ∧ s.descendantById (s.ctxOf c.who) (c.lowW .a) = some k ∧ k.st ≠ .killing ∧
      s.lockFree k.idx c.who = true ∧ s.reflectStatus (s.ctxOf c.who) k (c.lowW .b).toNat (c.lowW .c).toNat = .done ∧ c.lowW .a ≠ 0 :=
  ⟨⟨_, _, _, issues_ctx id (.ctxkill longWd) (ab 2 4), rfl, rfl, by decide⟩, ⟨_, _, _, issues_child [] id (.ctxkill longWd) (ab 3 8), rfl, rfl, by decide, by decide, by decide⟩,
   ⟨_, _, _, issues_ctx id (.ctxstat toNext) (ab 0 0), rfl, rfl, by decide⟩,
   ⟨_, _, _, { child with st := .killing }, issues_child [] (fun x => { x with st := .killing }) (.ctxkill longWd) (ab 2 8), rfl, rfl, by decide, rfl, by decide⟩,
   ⟨_, _, _, child, issues_child [] id (.ctxrunResume toNext) (ab 2 0), rfl, rfl, by decide, by decide, by decide, by decide, by decide⟩,
   ⟨_, _, _, { child with st := .running, flags := 0x20 }, issues_halt (.ctxrunReflect toNext) (abc 2 1 0x110), rfl, rfl, by decide, by decide, by decide, by decide, by decide⟩⟩

/-- The memory state with two records in the fault queue. -/
def fqState (i : Instr) (vals : List (PortName × (Nat → Word))) : State :=
  { memState i vals with ctxs := [{ placedCtx with fq := [List.replicate 8 5, List.replicate 8 6] }] }

theorem witness_InvalidateAndPopForms :
    (∃ s c x, Issues s c ∧ c.inWarp ∧ s.ctx? (s.ctxOf c.who) = some x ∧ (c.w64 .a .ax c.low).toNat = 65535) ∧
    (∃ s c x, Issues s c ∧ c.inWarp ∧ s.ctx? (s.ctxOf c.who) = some x ∧ (c.w64 .a .ax c.low).toNat = 65536) ∧
    (∃ s c x, Issues s c ∧ c.inWarp ∧ s.ctx? (s.ctxOf c.who) = some x ∧ (c.w64 .a .ax c.low).toNat % 64 = 0 ∧ x.fq = []) ∧
    ∃ s c x r rest t accs, Issues s c ∧ c.inWarp ∧ s.ctx? (s.ctxOf c.who) = some x ∧ (c.w64 .a .ax c.low).toNat % 64 = 0 ∧ x.fq = r :: rest ∧
      s.checkAccess { c with mask := maskOf [c.low] } .gl .write .store 64 (fun _ => c.w64 .a .ax c.low) (fun _ => true) false = .ok t accs :=
  ⟨⟨_, _, _, issues_ctx id (.tlbinv longWd) (ab 65535 0), rfl, rfl, by decide⟩, ⟨_, _, _, issues_ctx id (.tlbinv longWd) (ab 65536 0), rfl, rfl, by decide⟩,
   ⟨_, _, _, issues_ctx id (.fqpop toPair) (ab 64 0), rfl, rfl, by decide, rfl⟩,
   ⟨fqState (.fqpop toPair) (ab 64 0), warpIssue (.fqpop toPair) (ab 64 0), _, _, _, _, _, ⟨rfl, by show full ≠ 0; decide⟩, rfl, rfl, by decide, rfl, rfl⟩⟩

/-! ## Witnesses: system forms, traps and faults -/

-- a narrow and a wide register; a legal first-level page of a FLAT context, and another; a band that is there; offsets 4 and 8
theorem witness_SystemForms :
    (∃ s c x, Issues s c ∧ s.ctx? (s.ctxOf c.who) = some x ∧ c.inWarp ∧ SysReg.ofSel 0 = some .devRev ∧ SysReg.devRev.wide = false ∧ SysReg.devRev ≠ .ctxTroot ∧
      SysReg.ofSel 3 = some .ctxSeed ∧ SysReg.ctxSeed.wide = true) ∧
    (∃ s c x, Issues s c ∧ s.ctx? (s.ctxOf c.who) = some x ∧ c.inWarp ∧ SysReg.ofSel 4 = some .ctxTroot ∧ s.trootFault c x (c.w64 .a .ax c.low) = none) ∧
    (∃ s c x f, Issues s c ∧ s.ctx? (s.ctxOf c.who) = some x ∧ SysReg.ofSel 4 = some .ctxTroot ∧ s.trootFault c x (c.w64 .a .ax c.low) = some f) ∧
    (∃ s c x, Issues s c ∧ s.ctx? (s.ctxOf c.who) = some x ∧
      s.dev.latband.find? (fun q => q.1 == dieOf c.who.core && q.2.1 == (c.lowW .a).toNat) = some (dieOf c.who.core, (c.lowW .a).toNat, 9)) ∧
    (∃ s c x, Issues s c ∧ s.ctx? (s.ctxOf c.who) = some x ∧ (∀ q ∈ s.dev.latband, q.1 ≠ dieOf c.who.core ∨ q.2.1 ≠ (c.lowW .a).toNat) ∧ (c.lowW .a).toNat % 8 ≠ 0) ∧
    ∃ s c x, Issues s c ∧ s.ctx? (s.ctxOf c.who) = some x ∧ (c.lowW .a).toNat % 8 = 0 :=
  ⟨⟨_, _, _, issues_ctx id (.rdsys toNext 0) [], rfl, rfl, by decide, by decide, by decide, by decide, by decide⟩,
   ⟨_, _, _, issues_ctx (fun x => { x with flags := 0x20 }) (.wrsys longWd 4) (ab 0 0), rfl, rfl, by decide, by decide⟩,
   ⟨_, _, _, _, issues_ctx (fun x => { x with flags := 0x20 }) (.wrsys longWd 4) (ab 0x10000 0), rfl, by decide, rfl⟩,
   ⟨{ warpState (.latband toNext) (ab 3 0) with dev := { State.reset.dev with latband := [(0, 3, 9)] } }, warpIssue (.latband toNext) (ab 3 0), _,
     ⟨rfl, by show full ≠ 0; decide⟩, rfl, by decide⟩,
   ⟨_, _, _, issues_ctx id (.capw toPair) (ab 4 0), rfl, by decide, by decide⟩, ⟨_, _, _, issues_ctx id (.capw toPair) (ab 8 0), rfl, by decide⟩⟩
-- R399: selector 0 counts the context's logical cores
theorem test_rdsys_warp_slot : sends (.rdsys toNext 0x25) [] 0 = [0] := by decide

/-- Three and four traps taken. -/
def trapped (n : Nat) : Warp := { placedWarp with traps := List.replicate n { resume := 8, log := {}, depth := 0, cause := .userTrap, ucode := 0, pmask := false } }

theorem witness_TrapsAreTakenAndReturnedFrom : 0 < placedWarp.splits.length ∧
    ({ placedWarp with trapMask := true } : Warp).trapMask = true ∧ ¬ (false = true ∧ placedWarp.trapMask = true) ∧
    (placedWarp.trapMask = false ∧ (8 : DWord) ≠ 0 ∧ (trapped 4).traps.length = 4 ∧ (trapped 3).traps.length < 4) := by decide
-- R421: the mask goes up, the split goes to the trap block at 0x100, and the return restores the mask
theorem test_trap : (placedWarp.takeTrap 0x100 0 .userTrap 7 8 24 1).trapMask = true ∧
    ((placedWarp.takeTrap 0x100 0 .userTrap 7 8 24 1).splits.map (·.next)) = [0x100] ∧
    ((placedWarp.takeTrap 0x100 0 .userTrap 7 8 24 1).trapReturn 1).trapMask = false := by decide

/-- A fault of the child for the placed context, whose queue holds `n` records. -/
def waiting : WaitingFault := { recv := 1, host := false, req := some (.warp 0 5), ctx := 2, code := .pageAbsent, record := List.replicate 8 0 }
def queued (n : Nat) : State := { State.reset with ctxs := [{ placedCtx with fq := List.replicate n [] }, child] }

theorem witness_FaultsAreRecordedAndDelivered :
    (∃ (s : State) (c : Issue) (w : Warp) (i : Inst), c.who = .warp 0 0 0 ∧ s.warp? 0 0 = some w ∧ w.inst? 0 = some i) ∧
    (∃ c : Issue, c.who = .ctl 0 1) ∧
    (∃ (s : State) (rx : Ctx) (r : Requester) (n : Nat), waiting.driver = none ∧ waiting.host = false ∧ waiting.req = some r ∧ s.ctx? waiting.recv = some rx ∧
      rx.idx = waiting.recv ∧ s.freeHalt waiting.recv = some n ∧ rx.fq.length + rx.fqHeld = 255) ∧
    ∃ (s : State) (rx : Ctx) (r : Requester) (n : Nat), waiting.driver = none ∧ waiting.host = false ∧ waiting.req = some r ∧ s.ctx? waiting.recv = some rx ∧
      rx.idx = waiting.recv ∧ s.freeHalt waiting.recv = some n ∧ rx.fq.length + rx.fqHeld = 256 :=
  ⟨⟨warpState (.sink noWd) [], warpIssue (.sink noWd) [], _, _, rfl, rfl, rfl⟩, ⟨ctlIssue (.sink noWd) [], rfl⟩,
   ⟨queued 255, _, _, 1, rfl, rfl, rfl, rfl, rfl, by decide, by decide⟩, ⟨queued 256, _, _, 1, rfl, rfl, rfl, rfl, rfl, by decide, by decide⟩⟩

/-! ## Witnesses: reset, results and frames -/

theorem witness_ResetState : ∃ t, exec (.powerGood 1 []) State.reset = .next t := ⟨_, rfl⟩
theorem witness_ResultsReachTheirTargets :
    (∃ (s : State) (c : Issue) (w : Warp) (i : Inst) (b : RBlock), c.who = .warp 0 0 0 ∧ s.warp? 0 0 = some w ∧ w.inst? 0 = some i ∧ s.blockOf c.who = some b ∧
      23 < (s.core 0).nodes.length) ∧
    ∃ (s : State) (c : Issue) (h : Ctl) (b : RBlock), c.who = .ctl 0 1 ∧ s.ctl? 0 1 = some h ∧ s.blockOf c.who = some b :=
  ⟨⟨warpState (.laneid toNext) [], warpIssue (.laneid toNext) [], _, _, _, rfl, rfl, rfl, rfl, by decide⟩,
   ⟨ctlState (.movi toNext false 1 none) [], ctlIssue (.movi toNext false 1 none) [], _, _, rfl, rfl, rfl⟩⟩
theorem witness_ComputingFormsTouchNothingElse :
    (∃ s t c, s.cur = some c ∧ exec (.laneid toNext) s = .next t ∧ computes (.laneid toNext) = true) ∧
    ∃ s t c, s.cur = some c ∧ exec (.bar noWd) s = .next t ∧ buffered (.bar noWd) = true ∧ c.inWarp :=
  ⟨⟨_, _, _, (issues_warp (.laneid toNext) []).1, rfl, rfl⟩, ⟨_, _, _, (issues_warp (.bar noWd) []).1, rfl, rfl, rfl⟩⟩

/-! ## Witnesses: further clauses of the statements above -/

theorem witness_StepFires_pass : stepWarp' = ({ stepWarp with agenda := [] } : State).pass 0 ∧
    ∃ m, stepWarp'.nodePick 0 ((stepWarp'.core 0).nodes.getD 0 {}) = some m ∧ m.wslot = 0 ∧ m.itag = 0 ∧ m.idx = 0 := ⟨rfl, _, rfl, rfl, rfl, rfl⟩
theorem witness_StepRuns_pick : (({ stepCtl with agenda := [] } : State).pass 0).ctlPick 0 = some (freshCtl 1 8 none 0 0 false |> fun t => { t with entered := true }) ∧
   slicePoint (.mxcfg .a512 noWd) = true ∧ stepCtl'.slicePending 0 (stepCtl'.vfOf 1) = false := ⟨rfl, rfl, by decide⟩

-- the least subnormal; 1.5, 2^23 and an infinity
theorem witness_FloatFormsRoundOnce_roots :
    (∃ s c, Issues s c ∧ (fval .fp32 (fltA flt c 0)).finite = true ∧ 0 < (fval .fp32 (fltA flt c 0)).rat) := 
  ⟨_, _, issues_warp (.fsqrt flt) (abc 1 0 0), by decide, by decide +kernel⟩
theorem witness_FloatFormsRoundOnce_rounded :
    (∃ s c, Issues s c ∧ (fval .fp32 (fltA flt c 0)).finite = true ∧ absRat (fval .fp32 (fltA flt c 0)).rat < 2 ^ 23 ∧
      2 ^ 23 ≤ absRat (fval .fp32 (fltA flt c 1)).rat ∧ (fval .fp32 (fltA flt c 2)).finite = false ∧ (fval .fp32 (fltA flt c 2)).isNan = false) := 
  ⟨_, _, issues_warp (.frnd flt) [(.a, fun l => if l = 0 then 0x3FC00000 else if l = 1 then 0xCB000000 else 0x7F800000)], by decide, by decide +kernel, by decide +kernel, by decide, by decide⟩
-- operands of the approximations: 128, -150, -127, 2^-2 (which is 2^(2 × -1)) and -126
theorem witness_FloatFormsRoundOnce_approximations :
    (∀ x ∈ [0x43000000, 0xC3160000, 0xC2FE0000, 0x3E800000, 0xC2FC0000], x < 2 ^ 32 ∧ (fval .fp32 x).finite = true) ∧
    (fval .fp32 0x43000000).rat = 128 ∧ (fval .fp32 0xC3160000).rat = -150 ∧ (fval .fp32 0xC2FE0000).rat = -127 ∧
    (fval .fp32 0x3E800000).rat = (2 : Rat) ^ (2 * (-1 : Int)) ∧ absRat (fval .fp32 0x3E800000).rat = (2 : Rat) ^ (-2 : Int) ∧ (fval .fp32 0xC2FC0000).rat = ((-126 : Int) : Rat) ∧
    (fval .fp32 0x7FC00000).isNan = true ∧ fval .fp32 0xFF800000 = .inf true ∧ (fval .fp32 0x80000000).isZero = true := by
  refine ⟨by decide, ?_, ?_, ?_, ?_, ?_, ?_, by decide, by decide, by decide⟩ <;> decide +kernel

-- destinations of 32 bits and fewer; a NaN, an infinity and a finite operand; scales 255 and 127
theorem witness_ConversionsAndRandomWords_forms :
    (cvtOp .fp32 .fp32).dst.width = 32 ∧ (cvtOp .bf16 .fp32).dst.width < 32 ∧ 16 * (7 + 1) ≤ 128 ∧ 7 < 2 * (32 / 8) ∧
    fval .fp32 (flushIn .fp32 false 0x7FC00000) = .nan ∧ fval .fp32 (flushIn .fp32 false 0xFF800000) = .inf true ∧
    (fval .fp32 (flushIn .fp32 false 0x3F800000)).finite = true ∧ (cvtOp .int8 .fp32).dst = .int8 ∧ (cvtOp .ds8 .fp32).dst ≠ .int8 ∧
    (0xFF#32).toNat % 256 = 255 ∧ (0x7F#32).toNat % 256 ≠ 255 := by decide
-- a vector register and a scalar pair in a warp of one iteration
theorem witness_RegistersAreReadAndWritten_only : ∀ r, r = (⟨false, 4⟩ : RegSpec) ∨ r = ⟨true, 6⟩ → ∃ s c wp i b, Issues s c ∧ c.who = .warp 0 0 0 ∧ s.tokensOf c.who = [] ∧
    s.warp? 0 0 = some wp ∧ wp.insts = [i] ∧ i.itag = 0 ∧ i.carried = [] ∧ s.blockOf c.who = some b ∧ ∀ e ∈ s.dev.soft ++ s.dev.hard, e ≠ .regs 0 0 := by
  rintro _ (rfl | rfl)
  · exact ⟨_, _, _, _, _, issues_warp (.getr toPair true ⟨false, 4⟩) [], rfl, rfl, rfl, rfl, rfl, rfl, rfl, by decide⟩
  · exact ⟨_, _, _, _, _, issues_warp getS6 [], rfl, rfl, rfl, rfl, rfl, rfl, rfl, by decide⟩

/-- The control thread's state with a team of 4,096 bytes of scratchpad and page 0 at device address 0. -/
def ctlMem (i : Instr) (vals : List (PortName × (Nat → Word))) : State :=
  stateWith { memCore (.dev 0) (ctlCore i) with teams := (ctlCore i).teams } (ctlIssue i vals)
theorem issues_ctlMem (i : Instr) (vals : List (PortName × (Nat → Word))) : Issues (ctlMem i vals) (ctlIssue i vals) := ⟨rfl, by show (1 : Mask) ≠ 0; decide⟩

-- a control thread's releasing store, and its RED
theorem witness_StoresAreBufferedUntilCommit_now : ∃ s c t u v a, Issues s c ∧ c.who.isCtl = true ∧ s.held c false false = false ∧
    s.checkAccess c .gl .write .store 4 (memAddr relOp true c) (fun _ => true) false = .ok t [a] ∧
    t.mailRoom [a.place] = true ∧ t.releaseNow c.who relOp.order relOp.scope 0b111 = .done u ∧ u.applyStore c.who c.idx relOp.cls (throughScope relOp) a (storeData .b32 c a.lane) = .done v :=
  ⟨_, _, _, _, _, _, issues_ctlMem (.st .b32 relOp) (abc 8 9 0), rfl, by decide, rfl, by decide, rfl, rfl⟩
theorem witness_RedPrefetchAndFence_now : ∃ s c t u a, Issues s c ∧ c.who.isCtl = true ∧ s.held c false false = false ∧
    s.checkAccess c .gl .atomic .atomic 4 (memAddr memOp true c) (fun p => supports .add .w32 p && s.hostAtomics p) false = .ok t [a] ∧
    t.applyRed c.who c.idx .add memOp.cls a (wideOperand false c .b .bx a.lane) = .done u :=
  ⟨_, _, _, _, _, issues_ctlMem (.red .add .w32 memOp) (abc 8 9 0), rfl, by decide, rfl, rfl⟩
/-- A FENCE that acquires, after a releasing one of lower index. -/
def fenced (before : Bool) : State :=
  let k := placedWarpCore none ((if before then encode (.fence noWd .rel .dev 7) else [6]) ++ encode (.fence noWd .acq .dev 7))
  stateWith k { warpIssue (.fence noWd .acq .dev 7) [] with idx := 1 }
theorem witness_RedPrefetchAndFence_again : ∀ before, ∃ s c, Issues s c ∧ c.inWarp ∧ s.held c true false = false ∧ s.fenceBefore c = before := by
  rintro (_ | _)
  · exact ⟨fenced false, _, ⟨rfl, by decide⟩, rfl, by decide, by decide⟩
  · exact ⟨fenced true, _, ⟨rfl, by decide⟩, rfl, by decide, by decide⟩
theorem witness_RedPrefetchAndFence_ctl : ∃ s c u, Issues s c ∧ c.who.isCtl = true ∧ s.releaseActs c.who.core (s.vfOf (s.ctxOf c.who)) .sys 7 = .done u :=
  ⟨_, _, _, issues_ctlMem (.fence noWd .acqrel .sys 7) [], rfl, rfl⟩

-- no barrier 1; NBSYNC of the pledge's rest, and beyond it, on a barrier stranded or not
theorem witness_BarrierForms_sync :
    (∃ s c, Issues s c ∧ s.nbar? c.who 1 = none) ∧
    ∀ st, ∃ s c b, Issues s c ∧ c.who = .warp 0 0 0 ∧ s.nbar? c.who 0 = some b ∧ b.stranded = st ∧ b.mayArrive (.warp 0) ((c.lowW .a).toNat % 65536) = true ∧
      b.mayArrive (.warp 0) 3 = false := by
  refine ⟨⟨_, _, issues_team (withBar bar4) id (.nbwait noWd 1) [], rfl⟩, ?_⟩
  rintro (_ | _)
  · exact ⟨_, _, _, issues_team (withBar bar4) id (.nbsync noWd 0) (count 2), rfl, rfl, rfl, by decide, by decide⟩
  · exact ⟨_, _, _, issues_team (withBar { bar4 with stranded := true }) id (.nbsync noWd 0) (count 2), rfl, rfl, rfl, by decide, by decide⟩

-- a control thread's CHRESIZE of a channel that is idle, and of one that is not; a depth within the pool
theorem witness_ChannelForms_ctl : ∀ l, l = [] ∨ l = [((1 : Mask), [(7 : Word)])] → ∃ s c t, Issues s c ∧ c.who.isCtl = true ∧ s.teamOf c.who = some t ∧ (t.chan 63).kind = .fifo ∧
    (t.chan 63).items = l ∧ (t.chan 63).taken = 0 ∧ 0 < (c.lowW .a).toNat ∧ (c.lowW .a).toNat ≤ 256 ∧
    (s.core c.who.core).poolUsed - (t.chan 63).reserved + (c.lowW .a).toNat ≤ 256 ∧ s.resizing c.who = none := by
  intro l h
  refine ⟨stateWith { ctlCore (.chresize toNext 63) with teams := [withChan { kind := .fifo, depth := 1, items := l } placedTeam] } (ctlIssue (.chresize toNext 63) (count 2)),
    ctlIssue (.chresize toNext 63) (count 2), _, ⟨rfl, by decide⟩, rfl, rfl, ?_⟩
  obtain rfl | rfl := h <;> decide
-- one whose depth is reserved, of a channel that has become idle, and of one that has not
theorem witness_ChannelForms_resizing : ∀ l, l = [] ∨ l = [((1 : Mask), [(7 : Word)])] → ∃ s c t, Issues s c ∧ c.who.isCtl = true ∧ s.teamOf c.who = some t ∧
    s.resizing c.who = some 2 ∧ (t.chan 63).kind = .fifo ∧ (t.chan 63).items = l ∧ (t.chan 63).taken = 0 := by
  intro l h
  let k := ctlCore (.chresize toNext 63)
  refine ⟨stateWith { k with teams := [withChan { kind := .fifo, depth := 1, items := l, resizes := [2] } placedTeam], ctls := k.ctls.map fun t => { t with resize := some 2 } }
    (ctlIssue (.chresize toNext 63) (count 2)), ctlIssue (.chresize toNext 63) (count 2), _, ⟨rfl, by decide⟩, rfl, rfl, ?_⟩
  obtain rfl | rfl := h <;> decide

-- a row beyond the arrangement; words that differ; a reserved bit; a slot that is full, and one whose part differs; an illegal position
theorem witness_MatrixFormsOfTheHolder_refusals :
    (arrangement .a512).rows < 0x1F01 % 256 + 0x1F01 / 256 % 256 + 1 ∧
    (∃ s c, Issues s c ∧ (s.core c.who.core).mx.holder = some (s.ctxOf c.who) ∧ (s.core c.who.core).mx.arr = some .a512 ∧ ¬ ∀ l ∈ c.lanes, c.w32 .b l = c.lowW .b) ∧
    (∃ s c, Issues s c ∧ (s.core c.who.core).mx.holder = some (s.ctxOf c.who) ∧ (s.core c.who.core).mx.arr = some .a512 ∧
      (∀ l ∈ c.lanes, c.w32 .b l = c.lowW .b) ∧ fwBad (c.lowW .b) = true) ∧
    (∀ r, r = TakeRow.wait ∨ r = .refuse → ∃ s c, Issues s c ∧ (s.core c.who.core).mx.holder = some (s.ctxOf c.who) ∧ (s.core c.who.core).mx.arr = some .a512 ∧
      (∀ l ∈ c.lanes, c.w32 .b l = c.lowW .b) ∧ fwBad (c.lowW .b) = false ∧
      ((s.core c.who.core).mx.slots.getD (fwSlot (c.lowW .b)) default).take (fwFmt (c.lowW .b)) (fwEa (c.lowW .b)) (fwPart (c.lowW .b)) = r) ∧
    drainOk (cvtOp .fp32 .fp32) (arrangement .a512) (512 * 128) = false ∧
    (∀ e ∈ State.reset.dev.soft ++ State.reset.dev.hard, ∀ sec, e ≠ .acc 0 sec) := by
  refine ⟨by decide, ⟨_, _, issues_mx (heldBy 1) (.mxfeed noWd) [(.b, fun l => if l = 3 then 1 else 0)], rfl, rfl, by decide⟩,
    ⟨_, _, issues_mx (heldBy 1) (.mxfeed noWd) [(.b, fun _ => 0x80000)], rfl, rfl, by decide, by decide⟩, ?_, by decide, fun _ h => nomatch h⟩
  rintro _ (rfl | rfl)
  · exact ⟨_, _, issues_mx { heldBy 1 with slots := List.replicate 63 {} ++ [{ st := .full }] } (.mxfeed noWd) [(.b, fun _ => 0x3F007)], rfl, rfl, by decide, by decide, by decide⟩
  · exact ⟨_, _, issues_mx { heldBy 1 with slots := List.replicate 63 {} ++ [{ st := .part0, fmt := 2 }] } (.mxfeed noWd) [(.b, fun _ => 0x3F007)], rfl, rfl, by decide, by decide, by decide⟩
/-- The holder's control thread with these operands, and the operations it issues. -/
def mxForm (feeds : Bool) : Instr := if feeds then .mxfeeds (engForm .dev) else .mxmul (engForm .dev)
def mxIssue (feeds : Bool) : Issue := ctlIssue (mxForm feeds) (abc 0 (if feeds then 7 else 0) 0)
def mxIssuer (feeds : Bool) : State := stateWith { ctlCore (mxForm feeds) with mx := heldBy 1 } (mxIssue feeds)
def mxReq (feeds : Bool) : EngReq := plainReq (if feeds then .mxfeeds else .mxmul) (((mxIssue feeds).lowW .a).setWidth 64) ((mxIssue feeds).lowW .b) (if feeds then (mxIssue feeds).lowW .c else 0) .dev none false
theorem witness_MatrixFormsOfTheHolder_issued : ∀ feeds, ∃ t u res, Issues (mxIssuer feeds) (mxIssue feeds) ∧ (mxIssue feeds).who = .ctl 0 1 ∧
    ((mxIssuer feeds).core 0).mx.holder = some 1 ∧ IssuesNow (mxIssuer feeds) ctl0 (mxReq feeds) t u res := by
  rintro (_ | _)
  · exact ⟨_, _, _, ⟨rfl, by decide⟩, rfl, rfl, { fresh := by decide, flag := by decide, room := by decide, behind := by decide, release := rfl, prepare := rfl, free := Or.inl ⟨_, rfl⟩ }⟩
  · exact ⟨_, _, _, ⟨rfl, by decide⟩, rfl, rfl, { fresh := by decide, flag := by decide, room := by decide, behind := by decide, release := rfl, prepare := rfl, free := Or.inl ⟨_, rfl⟩ }⟩
-- MXZERO of a control thread behind an empty queue and one that is not; MXCFG when no operation is being issued
theorem witness_MatrixFormsOfTheHolder_ctl : ∀ q, ∃ s c, Issues s c ∧ c.who.isCtl = true ∧ (s.core c.who.core).mx.holder = some (s.ctxOf c.who) ∧ (s.core c.who.core).mx.arr = some .a512 ∧
    (s.core c.who.core).mx.queue = q ∧ s.issuingOp c.who = none ∧ (c.lowW .a).toNat = 0 :=
  fun q => ⟨mxCtl { heldBy 1 with queue := q } (.mxzero noWd), ctlIssue (.mxzero noWd) [], ⟨rfl, by decide⟩, rfl, rfl, rfl, rfl, rfl, by decide⟩

/-- A warp whose COMMNEW reads a block and the table after it, with these handles. -/
def commStateOf (block table : List DWord) (hs : List Handle) : State :=
  blockState (block ++ table) (fun x => { x with comms := hs }) (.commnew toPair) (count 0)
def handles16 (st : CommSt) : List Handle := List.replicate 16 { st }
theorem issues_comm (b t : List DWord) (hs : List Handle) : Issues (commStateOf b t hs) (warpIssue (.commnew toPair) (count 0)) := ⟨rfl, by show full ≠ 0; decide⟩
def commWords : List DWord := [5, 2, 64, 0, 0, 0, 0, 0]
-- no handle free
theorem witness_CommunicatorForms_full : ∃ s c x, Issues s c ∧ s.readBlock c (c.lowD .a .ax) = .ok s commWords ∧ s.ctx? (s.ctxOf c.who) = some x ∧ x.freeHandle = none :=
  ⟨commStateOf commWords [] (handles16 .dead), _, _, issues_comm _ _ _, rfl, rfl, by decide⟩
-- one rank
theorem witness_CommunicatorForms_bad : ∃ s c x, Issues s c ∧ s.readBlock c (c.lowD .a .ax) = .ok s [5, 1, 64, 0, 0, 0, 0, 0] ∧ s.ctx? (s.ctxOf c.who) = some x ∧ x.freeHandle = some 0 ∧
    commBad [5, 1, 64, 0, 0, 0, 0, 0] = true :=
  ⟨commStateOf [5, 1, 64, 0, 0, 0, 0, 0] [] (handles16 .free), _, _, issues_comm _ _ _, rfl, rfl, by decide, by decide⟩
-- a context listed twice
theorem witness_CommunicatorForms_members : ∃ s c x, Issues s c ∧ s.readBlock c (c.lowD .a .ax) = .ok s commWords ∧ s.ctx? (s.ctxOf c.who) = some x ∧ x.freeHandle = some 0 ∧
    commBad commWords = false ∧ s.readPieces c 16 (blkF commWords 1 31 0) (blkW commWords 2) = .ok s ([1, 1, 1, 1].flatMap fun n => valBytes 8 n) ∧
    membersBad (memberPairs 2 (dwords 4 ([1, 1, 1, 1].flatMap fun n => valBytes 8 n))) = true :=
  ⟨commStateOf commWords [1, 1, 1, 1] (handles16 .free), _, _, issues_comm _ _ _, rfl, rfl, by decide, by decide, rfl, by decide⟩
-- a control thread's handle with and without a COLL outstanding
theorem witness_CommunicatorForms_free : ∀ n, ∃ s c, Issues s c ∧ c.who.isCtl = true ∧ (s.handle (s.ctxOf c.who) (c.lowW .a).toNat).st ≠ .free ∧
    (s.handle (s.ctxOf c.who) (c.lowW .a).toNat).open_ = n :=
  fun n => ⟨{ ctlState (.commfree noWd) (count 0) with ctxs := [{ placedCtx with comms := [{ st := .dead, open_ := n }] }] }, ctlIssue (.commfree noWd) (count 0),
    ⟨rfl, by decide⟩, rfl, fun h => (nomatch (show CommSt.dead = .free from h)), rfl⟩

-- a control thread's launch of number 0 of queue 63
def launchState : State := ctlState (.launch toPair) (ab 128 63)
def launchIssue : Issue := ctlIssue (.launch toPair) (ab 128 63)
theorem witness_LaunchReservesTheNextNumber_now : ∃ x t, Issues launchState launchIssue ∧ launchIssue.who = .ctl 0 1 ∧ launchState.ctx? (launchState.ctxOf launchIssue.who) = some x ∧
    (launchIssue.w64 .a .ax launchIssue.low).toNat % 128 = 0 ∧ (launchIssue.lowW .b).toNat = 63 ∧ 63 < x.queueCount ∧ (x.queues.getD 63 default).load = 0 ∧
    launchState.releaseActs 0 (launchState.vfOf 1) .dev 0b111 = .done launchState ∧ launchState.launchNow launchIssue.who 63 0 128 = .done t :=
  ⟨_, _, ⟨rfl, by decide⟩, rfl, rfl, by decide, by decide, by decide, by decide, rfl, rfl⟩

/-- A CTXNEW block with these words 5 and 6, and a core list, or a CTXNEW of a context that has no index left. -/
def newWords (w5 w6 : DWord) : List DWord := [8, 0x10000, 0x10000, 0x10000, 64, w5, w6, 7]
def newState (w5 w6 list : DWord) : State := blockState (newWords w5 w6 ++ [list]) id (.ctxnew toPair) (ab 0 0)
def newIssue : Issue := warpIssue (.ctxnew toPair) (ab 0 0)
-- a reserved bit
theorem witness_ContextsAreCreated_bad : (newState 0x10000 4 0).readBlock newIssue 0 = .ok (newState 0x10000 4 0) (newWords 0x10000 4) ∧
    (newState 0x10000 4 0).grantBad placedCtx (newWords 0x10000 4) false = true := ⟨rfl, by decide⟩
-- core 5 of a context with one core
theorem witness_ContextsAreCreated_core : (newState 0x10000 0x8100000000 5).readBlock newIssue 0 = .ok (newState 0x10000 0x8100000000 5) (newWords 0x10000 0x8100000000) ∧
    (newState 0x10000 0x8100000000 5).grantBad placedCtx (newWords 0x10000 0x8100000000) false = false ∧
    (newState 0x10000 0x8100000000 5).readCores newIssue 1 64 = .ok (newState 0x10000 0x8100000000 5) [5] ∧ placedCtx.physCores [5] = none := ⟨rfl, by decide, rfl, by decide⟩
-- mode TWO over one die; a frame more than granted
theorem witness_ContextsAreCreated_over : (newState 0x10000 0x8100000001 0).grantBad placedCtx (newWords 0x10000 0x8100000001) false = false ∧ placedCtx.physCores [0] = some [0] ∧
    modeBad { grantParams (newWords 0x10000 0x8100000001) with cores := [0] } = true ∧
    modeBad { grantParams (newWords 0x100010000 0x8100000000) with cores := [0] } = false ∧
    (newState 0x100010000 0x8100000000 0).overGrant placedCtx 0 { grantParams (newWords 0x100010000 0x8100000000) with cores := [0] } = true := by decide
/-- Every index is a saved context's. -/
def indexless : State :=
  { newState 0x10000 0x8100000000 0 with dev := { State.reset.dev with images := [{ handle := 1, root := 1, ctxs := (List.range 4095).map fun i => { placedCtx with idx := i + 1 }, cores := [], halts := [], waits := [], words := [], frames := [], tables := [], counter := 0 }] } }
theorem witness_ContextsAreCreated_index : indexless.freeIndex = none := by
  simp only [State.freeIndex, List.find?_eq_none, List.mem_map, List.mem_range]
  rintro _ ⟨i, h, rfl⟩
  simp [State.indexTaken, indexless, h]

-- a child that another thread has locked
theorem witness_KillRunAndStatActOnDescendants_locked : ∃ s c x k, Issues s c ∧ s.ctx? (s.ctxOf c.who) = some x ∧ s.descendantById (s.ctxOf c.who) (c.lowW .a) = some k ∧
    k.st ≠ .killing ∧ s.lockFree k.idx c.who = false ∧ (c.w64 .b .bx c.low).toNat % 8 = 0 ∧ k.parent = some (s.ctxOf c.who) :=
  ⟨_, _, _, { child with lock := some ctl0 }, issues_child [] (fun x => { x with lock := some ctl0 }) (.ctxkill longWd) (ab 2 0), rfl, by decide, by decide, by decide, by decide, by decide⟩
/-- A control thread whose page 0 is a host page, with a record in its context's fault queue. -/
def popState : State := { stateWith { memCore (.host 0 0 false) (ctlCore (.fqpop toPair)) with teams := (ctlCore (.fqpop toPair)).teams } (ctlIssue (.fqpop toPair) (ab 64 0)) with
  ctxs := [{ placedCtx with fq := [List.replicate 8 5, List.replicate 8 6] }] }
-- a control thread's TLBINV beside no access and beside one on its way; its FQPOP
theorem witness_InvalidateAndPopForms_now :
    (∀ l : List Req, l = [] ∨ l = [{ id := 7, core := 0, ctx := 1, kind := .write ⟨none, 0⟩ 1 [9] none }] → ∃ s c x, Issues s c ∧ s.ctx? (s.ctxOf c.who) = some x ∧ c.who.isCtl = true ∧
      (c.w64 .a .ax c.low).toNat = 65536 ∧ s.invWaits c.who 65536 1 = !l.isEmpty) ∧
    ∃ s c x t u accs, Issues s c ∧ s.ctx? (s.ctxOf c.who) = some x ∧ c.who.isCtl = true ∧ (c.w64 .a .ax c.low).toNat % 64 = 0 ∧
      x.fq = List.replicate 8 5 :: [List.replicate 8 6] ∧
      s.checkAccess { c with mask := maskOf [c.low] } .gl .write .store 64 (fun _ => c.w64 .a .ax c.low) (fun _ => true) false = .ok t accs ∧
      applyLanes (fun s a v => s.applyStore c.who c.idx .rnd none a v) t (accs.flatMap fun a => recordStore a (List.replicate 8 5)) = (u, []) := by
  refine ⟨?_, popState, ctlIssue (.fqpop toPair) (ab 64 0), _, popState, _, _, ⟨rfl, by decide⟩, rfl, rfl, by decide, rfl, rfl, rfl⟩
  rintro _ (rfl | rfl)
  · exact ⟨_, _, _, issues_ctl (.tlbinv longWd) (ab 65536 1), rfl, rfl, by decide, by decide⟩
  · exact ⟨{ ctlState (.tlbinv longWd) (ab 65536 1) with reqs := [{ id := 7, core := 0, ctx := 1, kind := .write ⟨none, 0⟩ 1 [9] none }] }, ctlIssue (.tlbinv longWd) (ab 65536 1), _, ⟨rfl, by decide⟩, rfl, rfl, by decide, by decide⟩
-- a control thread's WRSYS of the FQ low-water register
theorem witness_SystemForms_now : ∃ s c x t, Issues s c ∧ s.ctx? (s.ctxOf c.who) = some x ∧ c.who.isCtl = true ∧ SysReg.ofSel 4 = some .ctxTroot ∧
    s.trootFault c x (c.w64 .a .ax c.low) = none ∧ s.wrsysDo c.who .ctxTroot (c.w64 .a .ax c.low) = .done t :=
  ⟨{ ctlState (.wrsys longWd 4) (ab 0 0) with ctxs := [{ placedCtx with flags := 0x20 }] }, ctlIssue (.wrsys longWd 4) (ab 0 0), _, _, ⟨rfl, by decide⟩, rfl, rfl, by decide, by decide, rfl⟩

/-! ## Witnesses: the life of a block -/

/-- The device with the placed context and this core 0, at a time. -/
def idleState (time : Nat) (k : Core) : State :=
  { State.reset with dev := { State.reset.dev with power := true, up := true }, ctxs := [placedCtx], cores := [(0, k)], time }

/-- Core 0 with a block of these words and the placed warp changed. -/
def blockCore (ws : List (BitVec 64)) (f : Warp → Warp) : Core :=
  { placedWarpCore none ws with warps := [(0, f placedWarp)], nodes := Core.freshNodes }
/-- The placed instance changed. -/
def withInst (f : Inst → Inst) (w : Warp) : Warp := { w with insts := w.insts.map f }

/-- A token for port p of the placed instance's first instruction, and the operand that an entry holds. -/
def token (itag : Nat) : Token := { wslot := 0, itag, idx := 0, port := .a, mask := full, val := Lanes.zero }
/-- Core 0 with that token at the head of node 0's channel. -/
def tokenCore (n : Node) : Core := { blockCore [0x02080010, 6] id with nodes := n :: List.replicate 23 {} }
/-- A form of one port, and one of two. -/
def formA : Form := (Instr.form (.ineg (int32 false))).getD (baseForm 0 noWd)
def formAB : Form := (Instr.form (.iadd (int32 false))).getD (baseForm 0 noWd)

/-- An EXIT of every lane has fired in the placed instance. -/
def exited (i : Inst) : Inst := { i with fired := [0], effs := [.choose 0 ((List.range 32).map fun l => (l, .exit))] }
/-- Two splits at the same depth, the running one for 512 commits. -/
def twoSplits (w : Warp) : Warp :=
  { w with insts := [], run := some 1, splits := [{ token := false, mask := 0xFFFF0000, next := 8 }, { token := false, mask := 0xFFFF, next := 16, fair := 512 }] }

/-- Core 0 whose node 0 holds 63 entries of the placed instance and one of a warp in slot 1, admitted later, with a token that
needs one more. -/
def fullCore : Core :=
  { tokenCore { slots := [(8, 0)], chan := [token 0], lastFire := 1
                store := (List.range 64).map fun n => { wslot := if n = 0 then 1 else 0, itag := 0, idx := n + 1, vals := [{ port := .a, mask := full, val := [] }] } }
    with warps := [(0, placedWarp), (1, withInst (fun i => { i with admitted := 5 }) placedWarp)] }

theorem witness_BlockLifeEvents_admit : ∃ s r, State.admittedNow s 0 = false ∧ s.admitPick 0 = some (0, r) :=
  ⟨idleState 0 (blockCore [0xD] fun w => { w with insts := [] }), _, by decide, rfl⟩
theorem witness_BlockLifeEvents_start : ∃ (s : State) (w : Warp), s.warp? 0 0 = some w ∧ w.insts = [] :=
  ⟨idleState 0 (blockCore [0xD] fun w => { w with insts := [] }), _, rfl, rfl⟩
-- the tag is gone; the instruction is not in the node
theorem witness_BlockLifeEvents_token :
    (∃ (s : State) (n : Node), ((s.core 0).nodes.getD 0 {}).chan = token 5 :: [] ∧
      (n, true) ∈ ((s.core 0).nodes.getD 0 {}).handle (token 5) [] (s.tokenForm 0 (token 5)) (s.tokenBlock 0 (token 5), 0)) ∧
    (∃ (s : State) (n : Node), ((s.core 0).nodes.getD 0 {}).chan = token 0 :: [] ∧
      (n, false) ∈ ((s.core 0).nodes.getD 0 {}).handle (token 0) [] (s.tokenForm 0 (token 0)) (s.tokenBlock 0 (token 0), 0)) ∧
    (∃ n : Node, n.slots.contains (8, 0) = false) ∧
    (∃ n : Node, n.slots.contains (8, 0) = true ∧ (∀ q ∈ usedPorts formA, q = (token 0).port) ∧ n.store = []) ∧
    ∃ n : Node, n.slots.contains (8, 0) = true ∧ (∃ q ∈ usedPorts formAB, q ≠ (token 0).port) ∧ n.store = [] :=
  ⟨⟨idleState 0 (tokenCore { chan := [token 5] }), _, rfl, rfl⟩, ⟨idleState 0 (tokenCore { chan := [token 0] }), _, rfl, rfl⟩, ⟨{}, by decide⟩,
   ⟨{ slots := [(8, 0)] }, by decide, by decide, rfl⟩, ⟨{ slots := [(8, 0)] }, by decide, by decide, rfl⟩⟩
theorem witness_BlockLifeEvents_commit : ∃ s t u w i more b v after, State.warp? s 0 0 = some w ∧ w.insts = i :: more ∧
    (s.core 0).block? w.ctx i.block i.ver = some b ∧ i.st = .running ∧ i.isEnded b = true ∧ i.exit = none ∧ i.squash = false ∧ w.halt = none ∧
    (∀ x, s.ctx? w.ctx = some x → x.st = .running) ∧ s.checkExit 0 0 w i b = .ok t after ∧ t.commitReady 0 0 i = true ∧
    (i.effs.any Eff.isStore = true → t.homeReadsInFlight 0 = false) ∧
    State.runEffs 0 0 i.itag (t.modInst 0 0 i.itag fun q => { q with st := .committing, after := some after }) i.work = (u, []) ∧ u.warp? 0 0 = some v :=
  ⟨idleState 0 (blockCore [0xD] (withInst exited)), _, _, _, _, _, _, _, _, rfl, rfl, rfl, rfl, by decide, rfl, rfl, rfl,
   (fun x h => by cases h; rfl), rfl, by decide, by decide, rfl, rfl⟩
theorem witness_BlockLifeEvents_killing : ∃ s w i more x, State.warp? s 0 0 = some w ∧ w.insts = i :: more ∧ s.ctx? w.ctx = some x ∧ x.st ≠ .running :=
  ⟨{ idleState 0 (blockCore [0xD] (withInst exited)) with ctxs := [{ placedCtx with st := .killing }] }, _, _, _, _, rfl, rfl, rfl, by decide⟩
theorem witness_BlockLifeEvents_discard : ∃ s w i more b f, State.warp? s 0 0 = some w ∧ w.insts = i :: more ∧
    (s.core 0).block? w.ctx i.block i.ver = some b ∧ i.st = .running ∧ s.atomicOut (.warp 0 0 i.itag) = false ∧ i.squash = false ∧ i.exit = some f ∧
    i.isEnded b = true ∧ f.code.isTrap = false :=
  ⟨idleState 0 (blockCore [0xD] (withInst fun i => { exited i with exit := some { code := .misaligned } })), _, _, _, _, _, rfl, rfl, rfl, rfl, by decide, rfl, rfl,
   by decide, rfl⟩
theorem witness_BlockLifeEvents_fairness : ∃ s w e j, State.warp? s 0 0 = some w ∧ w.runSplit = some e ∧ e.fair = 512 ∧ w.insts = [] ∧ w.halt = none ∧
    fairPick (s.entriesOf 0 0 w) w.runIndex w.icount.toNat = some j :=
  ⟨idleState 0 (blockCore [0xD] twoSplits), _, _, _, rfl, rfl, rfl, rfl, rfl, rfl⟩
theorem witness_BlockLifeEvents_exhausted : ∃ s : State, s.nodeFull 0 0 = true ∧ cyclesBetween (max (((s.core 0).nodes.getD 0 {}).lastFire - 1) (s.core 0).restored) s.time = 1024 ∧
    (∀ m ∈ ((s.core 0).nodes.getD 0 {}).store, ∀ w, s.warp? 0 m.wslot = some w → w.insts.length ≤ 1) ∧
    s.youngestHolder 0 ((s.core 0).nodes.getD 0 {}).store = some (1, 0) :=
  ⟨idleState 4096 fullCore, by decide +kernel, by decide +kernel, by
    intro m hm w hw
    have : ∀ m ∈ (((idleState 4096 fullCore).core 0).nodes.getD 0 {}).store, m.wslot = 0 ∨ m.wslot = 1 := by decide +kernel
    obtain e | e := this m hm <;> rw [e] at hw <;> cases hw <;> decide +kernel, by decide +kernel⟩
theorem witness_BlockLifeEvents_stuck : ∃ s w i more b, State.warp? s 0 0 = some w ∧ w.insts = i :: more ∧ (s.core 0).block? w.ctx i.block i.ver = some b ∧
    s.idleInst 0 0 w i b = true ∧ cyclesBetween (max i.lastAct i.admitted) s.time = 2 ^ 20 ∧ i.exit = none :=
  ⟨idleState (2 ^ 22) (blockCore [0xD] id), _, _, _, _, rfl, rfl, rfl, by decide, by decide, rfl⟩
-- an EXIT of every lane ends the warp
theorem test_commit_ends_the_warp : (nextOf (exec (.blockCommit 0 0) (idleState 0 (blockCore [0xD] (withInst exited))))).map (fun t => (t.warp? 0 0).isNone) =
    some true := by decide

/-! ## Witnesses: memory, ports and translation -/

/-- The idle device with this request alone in flight. -/
def reqState (core : Nat) (kind : ReqKind) (acks : List Nat) : State :=
  { idleState 0 { blockCore [0xD] id with teams := [{ placedTeam with lrec := { nvec := 128, spb := 4096 } }] } with reqs := [{ id := 7, core, ctx := 1, kind, acks }] }
/-- A load of one lane whose value has returned, acquiring or not, at index 0 of the placed instance. -/
def returned (acq : Option Scope) : Pend :=
  { idx := 0, kind := .load 4, cls := .rnd, acq, mask := 1
    lanes := [{ acc := { lane := 0, va := 0, place := .host 0 0 false, bytes := 4 }, fmask := 0, fval := 0, v := 0, cmp := 0, sent := true, got := some 5 }] }
def loadCore (acq : Option Scope) : Core :=
  blockCore (encode (.ld .b32 { memOp with order := if acq.isSome then .acq else .none }) ++ [6]) (withInst fun i => { i with pends := [returned acq] })
/-- A sector of device memory, and of the host memory of function 0. -/
def devKey : SKey := ⟨none, 0⟩
def hostKey0 : SKey := ⟨some 0, 0⟩
/-- The monitor of core 0 holds a reservation of this age. -/
def pinCore : Core := { Core.fresh with monitor := [{ core := 0, slot := 0, lane := 0, ctl := none, sec := 0, since := 0 }] }

theorem witness_MemoryAndPortEvents_reply :
    (∃ s p f, State.pend? s warp0 0 = some p ∧ s.formAt warp0 0 = some f ∧ (∀ l ∈ p.lanes, l.got.isSome = true) ∧ p.acq = none) ∧
    (∃ s p f, State.pend? s warp0 0 = some p ∧ s.formAt warp0 0 = some f ∧ (∀ l ∈ p.lanes, l.got.isSome = true) ∧ p.acq = some .dev) ∧
    ∃ s r v, State.req? s 7 = some r ∧ s.arrived r = true ∧ r.kind = .reply warp0 0 31 v :=
  ⟨⟨idleState 0 (loadCore none), _, _, rfl, rfl, by decide, rfl⟩, ⟨idleState 0 (loadCore (some .dev)), _, _, rfl, rfl, by decide, rfl⟩,
   ⟨reqState 0 (.reply warp0 0 31 9) [], _, _, rfl, by decide, rfl⟩⟩
theorem witness_MemoryAndPortEvents_dcu : ∃ s r, ((State.die s 95).dreqs = r :: []) ∧ s.pageBusy 95 r = false ∧
    (s.modDie 95 fun x => { x with dreqs := [] }).dcuMoot r = false :=
  ⟨{ State.reset with dies := [(95, { dreqs := [{ core := 959, key := devKey, kind := .read, ctx := 1 }] })] }, _, rfl, by decide, by decide⟩
-- a request of the last row and column for the first, of any kind, and one link of its row; a host access on the edge chain
theorem witness_MemoryAndPortEvents_route : (Site.toward ⟨7, 23⟩ ⟨0, 0⟩ = some .w) ∧ (∀ kind b core, (∀ s : State, s.goal { id := 7, core, ctx := 1, kind } = some b) → b = ⟨0, 0⟩ →
    ∃ s r, State.req? s 7 = some r ∧ r.here = some ⟨7, 23⟩ ∧ s.goal r = some b ∧ r.kind = kind ∧ s.outPort r = some .w ∧
      ∀ q ∈ s.reqs, q.here = some ⟨7, 23⟩ → s.outPort q = some .w → q = r) ∧
    ∀ (m : Nat) (b : Bool), ∃ s r, State.req? s 7 = some r ∧ r.here = none ∧ r.edge = some m ∧ r.kind = (if b then .write hostKey0 1 [9] none else .read warp0 0 0 (.host 0 64 false) 4 false) ∧
      (m ≠ s.exitDie r → s.arrived r = false) := by
  refine ⟨by decide, fun kind b core h e => ?_, fun m b => ?_⟩
  · let r : Req := { id := 7, core, ctx := 1, kind, here := some ⟨7, 23⟩ }
    let s : State := { State.reset with reqs := [r] }
    have g : s.goal r = some b := by rw [← h s]; cases kind <;> rfl
    refine ⟨s, r, rfl, rfl, g, rfl, ?_, by simp [s]⟩
    simp only [State.outPort, g, e, r]; decide
  · refine ⟨{ State.reset with reqs := [{ id := 7, core := 0, ctx := 1, kind := if b then .write hostKey0 1 [9] none else .read warp0 0 0 (.host 0 64 false) 4 false, edge := some m }] },
      _, rfl, rfl, rfl, rfl, fun h => ?_⟩
    cases b <;> simpa [State.arrived, State.outPort, State.goal, State.destination, SKey.place, hostKey0] using h
theorem witness_MemoryAndPortEvents_home :
    (∃ s r, State.req? s 7 = some r ∧ s.arrived r = true ∧ s.blocked r = false ∧ r.kind = .fill devKey false ∧ devKey.vf = none ∧ s.dev.soft = [] ∧ s.dev.hard = [] ∧
      s.zeroing (frameOf 0) = false ∧ s.tracked r.core devKey false = true) ∧
    (∃ s r, State.req? s 7 = some r ∧ s.arrived r = true ∧ s.blocked r = false ∧ r.kind = .read warp0 0 0 (.dev 60) 4 false) ∧
    (∃ s r, State.req? s 7 = some r ∧ s.arrived r = true ∧ s.blocked r = false ∧ r.kind = .write devKey 1 [9] none ∧ s.askMarked r devKey = none) ∧
    ∃ s r t, State.req? s 7 = some r ∧ s.arrived r = true ∧ s.blocked r = false ∧ r.kind = .write devKey 1 [9] none ∧ s.askMarked r devKey = some t :=
  ⟨⟨{ reqState 0 (.fill devKey false) [] with dies := [(0, { dir := [(devKey, .s [0])] })] }, _, rfl, by decide, by decide, rfl, rfl, rfl, rfl, by decide, by decide⟩,
   ⟨reqState 0 (.read warp0 0 0 (.dev 60) 4 false) [], _, rfl, by decide, by decide, rfl⟩,
   ⟨reqState 0 (.write devKey 1 [9] none) [], _, rfl, by decide, by decide, rfl, by decide⟩,
   ⟨{ reqState 0 (.write devKey 1 [9] none) [] with firns := [(0, { presence := [(0, [4])] })] }, _, _, rfl, by decide, by decide, rfl, rfl⟩⟩
theorem witness_MemoryAndPortEvents_back :
    (∃ s r, State.req? s 7 = some r ∧ s.arrived r = true ∧ s.blocked r = false ∧ r.kind = .filled devKey false (List.replicate 64 5) ∧ s.tracked r.core devKey false = true) ∧
    ∃ s r, State.req? s 7 = some r ∧ s.arrived r = true ∧ s.blocked r = false ∧ r.kind = .data warp0 0 31 9 :=
  ⟨⟨{ reqState 0 (.filled devKey false (List.replicate 64 5)) [] with dies := [(0, { dir := [(devKey, .s [0])] })] }, _, rfl, by decide, by decide, rfl, by decide⟩,
   ⟨reqState 0 (.data warp0 0 31 9) [], _, rfl, by decide, by decide, rfl⟩⟩
theorem witness_MemoryAndPortEvents_presence : ∃ s r key, State.req? s 7 = some r ∧ (∀ q ∈ s.reqs, q.id = 7 → q = r) ∧ r.kind.sector = some key ∧ 95 ∈ r.acks :=
  ⟨reqState 0 (.write devKey 1 [9] none) [0, 95], _, _, rfl, by simp [reqState], rfl, by decide⟩
theorem witness_MemoryAndPortEvents_flush : ∃ s : State, 95 ∈ (s.core 959).flushing ∧ s.flushAgain 95 = false :=
  ⟨{ State.reset with cores := [(959, { Core.fresh with flushing := [95] })] }, by decide, by decide⟩
-- the last word of the allocation, and the first beyond it
theorem witness_MemoryAndPortEvents_window :
    (∃ s r, State.req? s 7 = some r ∧ s.arrived r = true ∧ r.kind = .wload warp0 0 0 (.sp 0 4092) 4 false ∧ s.portBlocked r (.sp 0 4092) 4 = false ∧
      inAllocs ((s.core 0).allocs r.ctx) 4092 4 = true ∧ s.dev.soft = [] ∧ s.dev.hard = []) ∧
    (∃ s r, State.req? s 7 = some r ∧ s.arrived r = true ∧ r.kind = .wload warp0 0 0 (.sp 0 4096) 4 false ∧ s.portBlocked r (.sp 0 4096) 4 = false ∧
      inAllocs ((s.core 0).allocs r.ctx) 4096 4 = false) ∧
    (∃ s r, State.req? s 7 = some r ∧ s.arrived r = true ∧ r.kind = .wstore warp0 0 0 (.sp 0 4095) [1] ∧ s.portBlocked r (.sp 0 4095) 1 = false ∧
      inAllocs ((s.core 0).allocs r.ctx) 4095 1 = true) ∧
    ∃ s r, State.req? s 7 = some r ∧ s.arrived r = true ∧ r.kind = .wstore warp0 0 0 (.sp 0 4095) [1, 2] ∧ s.portBlocked r (.sp 0 4095) 2 = false ∧
      inAllocs ((s.core 0).allocs r.ctx) 4095 2 = false :=
  ⟨⟨reqState 9 (.wload warp0 0 0 (.sp 0 4092) 4 false) [], _, rfl, by decide, rfl, by decide, by decide, rfl, rfl⟩,
   ⟨reqState 9 (.wload warp0 0 0 (.sp 0 4096) 4 false) [], _, rfl, by decide, rfl, by decide, by decide⟩,
   ⟨reqState 9 (.wstore warp0 0 0 (.sp 0 4095) [1]) [], _, rfl, by decide, rfl, by decide, by decide⟩,
   ⟨reqState 9 (.wstore warp0 0 0 (.sp 0 4095) [1, 2]) [], _, rfl, by decide, rfl, by decide, by decide⟩⟩
/-- Core 0 with a team that declares register 63, and a mailbox store of register `n` on its way; `full_`: its buffer has no free entry. -/
def mailState (n : Nat) (full_ : Bool) : State :=
  { idleState 0 { blockCore [0xD] id with
      teams := [{ placedTeam with lrec := { nvec := 128, mbox := (1 : BitVec 64) <<< 63 } }]
      mbox := if full_ then List.replicate 64 { slot := 1, reg := 0, lane := 1, vals := [] } else [] } with
    reqs := [{ id := 7, core := 9, ctx := 1, kind := .mail (.mbox 0 0 n 31) [5] warp0 none }] }
-- the register the team declares, with a free entry and without one; one it does not declare
theorem witness_MemoryAndPortEvents_mailbox :
    (∃ s r t, State.req? s 7 = some r ∧ s.arrived r = true ∧ r.kind = .mail (.mbox 0 0 63 31) [5] warp0 none ∧ (∀ q ∈ s.reqs, 7 ≤ q.id) ∧
      s.mboxOk r.ctx 0 0 63 = true ∧ s.mailArrive 0 0 63 31 [5] none none = some t) ∧
    (∃ s r, State.req? s 7 = some r ∧ s.arrived r = true ∧ r.kind = .mail (.mbox 0 0 63 31) [5] warp0 none ∧ (∀ q ∈ s.reqs, 7 ≤ q.id) ∧
      s.mboxOk r.ctx 0 0 63 = true ∧ s.mailArrive 0 0 63 31 [5] none none = none) ∧
    ∃ s r, State.req? s 7 = some r ∧ s.arrived r = true ∧ r.kind = .mail (.mbox 0 0 62 31) [5] warp0 none ∧ (∀ q ∈ s.reqs, 7 ≤ q.id) ∧ s.mboxOk r.ctx 0 0 62 = false :=
  ⟨⟨mailState 63 false, _, _, rfl, by decide, rfl, by simp [mailState], by decide, rfl⟩,
   ⟨mailState 63 true, _, rfl, by decide, rfl, by simp [mailState], by decide, by decide⟩,
   ⟨mailState 62 false, _, rfl, by decide, rfl, by simp [mailState], by decide⟩⟩
-- an atomic that writes, and a CAS that does not
theorem witness_MemoryAndPortEvents_atomic :
    (∃ s r, State.req? s 7 = some r ∧ s.arrived r = true ∧ r.kind = .atomic warp0 0 0 (.sp 0 4092) (some .add) 4 3 0 true ∧ s.portBlocked r (.sp 0 4092) 4 = false ∧
      inAllocs ((s.core 0).allocs r.ctx) 4092 4 = true ∧ s.dev.soft = [] ∧ s.dev.hard = []) ∧
    (∃ s r, State.req? s 7 = some r ∧ s.arrived r = true ∧ r.kind = .atomic warp0 0 0 (.sp 0 4096) (some .add) 4 3 0 true ∧ s.portBlocked r (.sp 0 4096) 4 = false ∧
      inAllocs ((s.core 0).allocs r.ctx) 4096 4 = false) ∧
    (∃ x, atomNew .add 4 5 3 0 = some x) ∧ atomNew .cas 4 5 3 4 = none :=
  ⟨⟨reqState 9 (.atomic warp0 0 0 (.sp 0 4092) (some .add) 4 3 0 true) [], _, rfl, by decide, rfl, by decide, by decide, rfl, rfl⟩,
   ⟨reqState 9 (.atomic warp0 0 0 (.sp 0 4096) (some .add) 4 3 0 true) [], _, rfl, by decide, rfl, by decide, by decide⟩, ⟨_, rfl⟩, by decide⟩
theorem witness_MemoryAndPortEvents_pin : ∃ s : State, ∃ r ∈ (s.core 0).monitor, r.pinned = true ∧ cyclesBetween r.since s.time = 2048 :=
  ⟨idleState 8192 pinCore, _, List.mem_singleton.2 rfl, rfl, by decide⟩
-- one cycle earlier the pin holds
theorem test_pin_holds : ∀ t, nextOf (exec (.reservationPinExpiry 0 false) (idleState 8188 pinCore)) = some t →
    ((t.core 0).monitor.map (·.pinned)) = [true] := by
  intro t h; rw [show nextOf _ = some _ from rfl] at h; injection h with h; rw [← h]; decide

/-- The idle device with region 0 of 64 KiB on stack 0, in whose first bytes the root's table has one leaf of level 1, its A bit
set, for host page 0; and with function 0 changed. -/
def walkState (f : Vf → Vf) (d : Die) : State :=
  { idleState 0 (blockCore [0xD] id) with
    dev := { State.reset.dev with power := true, up := true, regions := listMod State.reset.dev.regions 0 fun _ => { w0 := 0x100202 } }
    mem := { hbm := [(0, 0x07), (1, 0x05)] }, ctxs := [{ placedCtx with regions := [0] }], vfs := listMod State.reset.vfs 0 f, dies := [(0, d)] }
/-- A read miss in page 0. -/
def miss0 : Miss := { ctx := 1, va := 64, acc := .read, core := 0, waiters := [(.pref 0 .rnd, 64, .read)] }
/-- The idle device with function 95 changed. -/
def vfState (time : Nat) (f : Vf → Vf) : State := { State.reset with vfs := listMod State.reset.vfs 95 f, time }
/-- A page request on index 511. -/
def page511 (quarantine : Bool) : PageReq := { idx := 511, page := 3, write := true, gen := 0, since := 0, quarantine }
/-- The device with these frames being scrubbed. -/
def scrubState (l : List Scrub) : State := { State.reset with scrubs := l }

/-- The miss a walker of die 0 takes. -/
def taken (s : State) : Option Miss := (s.missq 0 false).find? (s.missReady (decide (walking (s.missq 0 false) < walkers false)))
theorem witness_TranslationAndScrubEvents_walk :
    (∃ s t m w, taken s = some m ∧ s.walk (walkDie 0 false) m.ctx m.va m.acc = (t, .ok w)) ∧
    (∃ s t m, taken s = some m ∧ s.walk (walkDie 0 false) m.ctx m.va m.acc = (t, .error (.host 0 0 false))) ∧
    ∃ s t m f q a, taken s = some m ∧ s.walk (walkDie 0 false) m.ctx m.va m.acc = (t, .error (.fault f)) ∧ m.waiters = [(q, m.va, a)] :=
  ⟨⟨walkState (fun v => { v with atsOk := [(0, false)] }) { missq := [miss0] }, _, _, _, rfl, rfl⟩,
   ⟨walkState id { missq := [miss0] }, _, _, rfl, rfl⟩,
   ⟨walkState id { missq := [{ miss0 with va := 2 ^ 42, waiters := [(.pref 0 .rnd, 2 ^ 42, .read)] }] }, _, _, _, _, _, rfl, rfl, rfl⟩⟩
-- the last function
theorem witness_TranslationAndScrubEvents_ats :
    (∃ (s : State) (addr : DWord), 95 < s.vfs.length ∧ (s.vf 95).atsPend = [(addr.toNat / 65536, true)]) ∧
    ∃ (s : State) (addr : DWord), 95 < s.vfs.length ∧ (s.vf 95).atsPend = [(addr.toNat / 65536, false)] ∧ (s.vf 95).freeIdx = some 7 :=
  ⟨⟨vfState 0 fun v => { v with atsPend := [(3, true)] }, 0x3FFFF, by decide, rfl⟩,
   ⟨vfState 0 fun v => { v with atsPend := [(3, false)], pri := (List.range 7).map fun n => { page511 false with idx := n, page := n + 4 } }, 0x30000,
    by decide, rfl, by decide +kernel⟩⟩
-- exactly one second; a second response to the same index finds nothing
theorem witness_TranslationAndScrubEvents_pri :
    (∃ s r, (State.vf s 95).pri.find? (fun q => q.idx == 511) = some r ∧ r.quarantine = false ∧ nsBetween r.since s.time = 1000000000) ∧
    (∃ s, (State.vf s 95).pri.find? (fun q => q.idx == 0) = none) ∧
    ∃ (s : State) (r : PageReq), 95 < s.vfs.length ∧ r ∈ (s.vf 95).pri ∧ r.idx = 511 ∧ r.quarantine = true ∧ nsBetween r.since s.time = 1000000000 :=
  ⟨⟨vfState 6000000000 fun v => { v with pri := [page511 false] }, _, rfl, rfl, by decide⟩, ⟨vfState 0 fun v => { v with pri := [page511 false] }, by decide⟩,
   ⟨vfState 6000000000 fun v => { v with pri := [page511 true] }, page511 true, by decide, by decide, rfl, rfl, by decide⟩⟩
theorem test_pri_waits_its_second : ∀ t, nextOf (exec (.priTimeout 95 511) (vfState 5999999999 fun v => { v with pri := [page511 false] })) = some t →
    (t.vf 95).pri = [page511 false] := by
  intro t h; rw [show nextOf _ = some _ from rfl] at h; injection h with h; rw [← h]; decide
theorem witness_TranslationAndScrubEvents_invalidation : ∀ n, n = 31 ∨ n = 32 → ∃ s : State, 95 < s.vfs.length ∧ (s.vf 95).inval.length = n := by
  rintro _ (rfl | rfl)
  · exact ⟨vfState 0 fun v => { v with inval := List.replicate 31 { page := 0, npages := 1 } }, by decide, by decide⟩
  · exact ⟨vfState 0 fun v => { v with inval := List.replicate 32 { page := 0, npages := 1 } }, by decide, by decide⟩
-- the only frame of region 0
theorem witness_TranslationAndScrubEvents_firmware : ∃ s : State, (∀ q ∈ s.waitRel, q.1 ≠ 0) ∧ s.dev.up = true ∧ 0 * 65536 < 2 ^ 52 ∧
    dpaOffset (0 * 65536) < (s.dev.regions.getD (dpaRegion (0 * 65536)) {}).size :=
  ⟨walkState id {}, fun _ h => (nomatch h), rfl, by decide, by decide⟩
-- 255 frames being scrubbed leave room for one; the acknowledgements of a die of each kind, the last of them, and of all
theorem witness_TranslationAndScrubEvents_scrub :
    (∃ (s : State) (q : Nat × Option Nat), s.waitRel.find? (fun q => q.1 == 256) = some q ∧ s.scrubs.length = 255) ∧
    (∃ s x, State.scrubOf s 5 = some x ∧ x.st = .shootdown ∧ 95 ∉ x.firn ∧ 95 ∉ x.serac ∧ (s.dropFrameTlbs 95 false 5).frameBusy 95 5 = false) ∧
    (∃ s x, State.scrubOf s 5 = some x ∧ x.st = .shootdown ∧ ∀ d, d < 96 → d ∈ x.serac ∧ d ∈ x.firn) ∧
    ∀ l, ∃ s x, State.scrubOf s 5 = some x ∧ x.st = .zeroing ∧ x.vfs = l :=
  ⟨⟨{ scrubState ((List.range 255).map fun n => { frame := n, st := .shootdown }) with waitRel := [(256, none)] }, _, rfl, by decide⟩,
   ⟨scrubState [{ frame := 5, st := .shootdown, serac := List.range 95, firn := List.range 95 }], _, rfl, rfl, by decide, by decide, by decide⟩,
   ⟨scrubState [{ frame := 5, st := .shootdown, serac := List.range 96, firn := List.range 96 }], _, rfl, rfl,
    fun d h => ⟨List.mem_range.2 h, List.mem_range.2 h⟩⟩,
   fun l => ⟨scrubState [{ frame := 5, st := .zeroing, vfs := l }], _, rfl, rfl, rfl⟩⟩
-- with 94 acknowledgements of a kind the frame is not yet zeroed
theorem test_shootdown_needs_all : ∀ t, nextOf (exec (.shootdownComplete 5) (scrubState [{ frame := 5, st := .shootdown, serac := List.range 95, firn := List.range 96 }])) = some t →
    (t.scrubs.map (·.st)) = [.shootdown] := by
  intro t h; rw [show nextOf _ = some _ from rfl] at h; injection h with h; rw [← h]; decide

/-! ## Witnesses: engines, the matrix path and communicators -/

/-- An operation of the placed context and its team. -/
def opOf (kind : EngKind) (st : OpSt) (params : List DWord) : EngOp :=
  { id := 3, ctx := 1, issuer := none, req := plainReq kind 0 0 0 .dev none false, flag := none, team := some 0, st, params }
/-- Core 0 with that operation alone, and a team with 4,096 bytes of scratchpad. -/
def opCore (o : EngOp) : Core := { blockCore [0xD] id with ops := [o], teams := [{ placedTeam with lrec := { nvec := 128, spb := 4096 } }] }
def opState (o : EngOp) : State := idleState 0 (opCore o)
/-- FILL of the scratchpad's last word, and of the word beyond. -/
def fillParams (dst : DWord) : List DWord := [0xAB, dst, 0x40000000004, 0, 0, 0, 0, 0]
/-- A STREAM from the window to the ring at 1,024, of a descriptor of one INT8 element. -/
def streamParams : List DWord := [0, 0, 0x8000000400, 0x10, 0, 0, 0, 0, 0x17, 1, 0, 0x100000000, 0, 0, 0, 0]
def streamOp : EngOp := opOf .stream .started streamParams
def streamState (pos : Nat) : State := idleState 0 { opCore streamOp with gens := List.replicate 7 none ++ [some { op := 3, st := .running, pos }] }

/-- A profile with a slice of 1 ms and an overrun limit of 100 µs on core 0. -/
def profile0 : Profile :=
  { cores := [0], traceRate := 0, weight := 1, slice := 1000000, overrun := 100000, prio := 3, nq := 64, tagb := 256, regions := [0], saveAllow := 8 }
/-- A communicator of two ranks, one on this package and one on another, the first of which a handle of the placed context holds. -/
def comm2 (st : CommSt) (joined : List (Nat × Option Nat)) (colls : List Coll) : Comm :=
  { id := 9, key := 5, nranks := 2, members := [(0, 1), (1, 2)], joined, st, since := 0, colls }
def commsAt (time : Nat) (m : Comm) : State :=
  { idleState time (blockCore [0xD] id) with comms := [m], vfs := listMod State.reset.vfs 0 fun v => { v with profile := some (0, profile0) } }
/-- A collective that rank 0 has placed. -/
def coll0 (dead : Option Nat) : Coll := { k := 4, parts := [], placed := [0], deadAt := dead }
/-- A halted COLL of the placed context whose collective has been decided ABORTED. -/
def decidedState : State :=
  let o : EngOp := { opOf (.coll 6) .halted [0, 0, 0, 0, 0, 0, 0, 0] with comm := some (9, 4) }
  { opState o with
    ctxs := [{ placedCtx with comms := [{ st := .dead, comm := 9, key := 5, rank := 0 }] }]
    comms := [comm2 .dead [(0, some 1)] [{ coll0 none with decided := some false }]] }

theorem witness_EngineAndMatrixEvents_operations :
    (∃ s o, (State.core s 0).op? 3 = some o ∧ s.opFree 0 o true = true ∧ o.st = .queued ∧ o.issuing = false ∧ o.ready = true ∧ o.req.kind.matrix = false ∧
      o.req.kind.streams = false ∧ o.req.kind.isColl = false) ∧
    (∀ retry, retry = 0 ∨ retry = 1 → ∃ s t o, (State.core s 0).op? 3 = some o ∧ s.opFree 0 o false = true ∧ o.st = .started ∧ o.issuing = false ∧
      o.req.kind.streams = false ∧ o.req.kind ≠ .mxmul ∧ (transferOp 0 o).go s = (.ok (if retry = 0 then some 0 else none), t)) ∧
    (∃ s t o f, (State.core s 0).op? 3 = some o ∧ s.opFree 0 o false = true ∧ o.st = .started ∧ o.issuing = false ∧ o.req.kind.streams = false ∧
      o.req.kind ≠ .mxmul ∧ (transferOp 0 o).go s = (.error (.fault f), t)) ∧
    ∃ s o, (State.core s 0).op? 3 = some o ∧ s.opFree 0 o false = true ∧ o.st = .finished ∧ o.issuing = false ∧ o.req.kind ≠ .istream ∧
      o.req.kind ≠ .mxmul ∧ s.mailOut 0 3 = false ∧ s.savedOn 0 o.ctx = false :=
  ⟨⟨opState { opOf (.fill .b32) .queued (fillParams 4092) with ready := true }, _, rfl, by decide, rfl, rfl, rfl, rfl, rfl, rfl⟩,
   (by
     rintro n (rfl | rfl)
     · exact ⟨opState (opOf (.fill .b32) .started (fillParams 4092)), _, _, rfl, by decide, rfl, rfl, rfl, by decide, rfl⟩
     · exact ⟨opState { opOf (.fill .b32) .started (fillParams 4092) with work := [{ first := 0, n := 4 }], retry := 1 }, _, _, rfl, by decide, rfl, rfl, rfl,
         by decide, rfl⟩),
   ⟨opState { opOf (.fill .b32) .started (fillParams 4096) with outs := [{ dst := .at 1 4096, data := [1, 2, 3, 4] }], retry := 2 }, _, _, _, rfl, by decide, rfl, rfl,
     rfl, by decide, rfl⟩,
   ⟨opState (opOf (.fill .b32) .finished (fillParams 4092)), _, rfl, by decide, rfl, rfl, by decide, by decide, by decide, by decide⟩⟩
-- nothing left to read or write
theorem witness_EngineAndMatrixEvents_done : ∀ kind, kind ≠ .mxmul → ∃ s o, (State.core s 0).op? 3 = some o ∧ s.opFree 0 o false = true ∧ o.st = .started ∧ o.issuing = false ∧
    o.req.kind = kind ∧ o.work = [] ∧ o.outs = [] :=
  fun kind _ => ⟨opState (opOf kind .started (fillParams 4092)), _, rfl, rfl, rfl, rfl, rfl, rfl, rfl⟩
theorem witness_EngineAndMatrixEvents_decided : ∃ s o, (State.core s 0).op? 3 = some o ∧ s.opFree 0 o false = true ∧ o.st = .halted ∧ o.issuing = false ∧
    o.req.kind ≠ .mxmul ∧ s.collDecided o = some 4 :=
  ⟨decidedState, _, rfl, by decide, rfl, rfl, by decide, by decide⟩
theorem witness_EngineAndMatrixEvents_stream : (∃ s t x o, (State.core s 0).gens.getD 7 none = some x ∧ (s.core 0).op? x.op = some o ∧
    s.opFree 0 o true = true ∧ x.st = .running ∧ o.issuing = false ∧ o.st = .started ∧ o.req.kind = .stream ∧ x.pos < o.sUnits ∧
    (stepStream 0 7 x o).go s = (.ok (), t) ∧ o.phase = 0 ∧ s.bufferReady 0 o x x.pos = true ∧ (o.sOut && o.sChan) = false) ∧
    ∃ s x o, (State.core s 0).gens.getD 7 none = some x ∧ (s.core 0).op? x.op = some o ∧ s.opFree 0 o true = true ∧ x.st = .running ∧ o.issuing = false ∧
      o.st = .started ∧ o.req.kind = .stream ∧ o.sUnits = x.pos ∧ s.mailOut 0 o.id = false :=
  ⟨⟨streamState 0, _, _, _, rfl, rfl, by decide, rfl, rfl, rfl, rfl, by decide +kernel, rfl, rfl, by decide, by decide⟩,
   ⟨streamState 1, _, _, rfl, rfl, by decide, rfl, rfl, rfl, rfl, by decide +kernel, by decide⟩⟩

/-- Core 0 with an operation at the head of its matrix queue. -/
def queueState (mx : Mx) (o : EngOp) : State := idleState 0 { opCore o with mx := { mx with queue := [3] } }
/-- MXMUL of one row of one K-block, A of format INT8 from slot 63. -/
def mulOp : EngOp := { opOf .mxmul .started [0] with req := plainReq .mxmul 0x1F800000 0x77 0 .dev none false }
/-- A path that runs it, slot 63 in this state. -/
def mulPath (st : RowSt) (fmt : Nat) : Mx := { heldBy 1 with active := true, slots := List.replicate 63 {} ++ [{ st, fmt }] }

theorem witness_EngineAndMatrixEvents_queue : ∀ (h : Option Nat) (kind : EngKind), ∃ s o, (State.core s 0).mx.queue.head?.bind (s.core 0).op? = some o ∧
    (s.core 0).mx.active = false ∧ (s.core 0).mx.halted = false ∧ o.st = .queued ∧ o.ready = true ∧ o.issuing = false ∧ s.opFree 0 o true = true ∧
    o.req.kind = kind ∧ o.ctx = 1 ∧ (s.core 0).mx.holder = h :=
  fun h kind => ⟨queueState { Mx.fresh with holder := h } { opOf kind .queued [0] with ready := true }, _, rfl, rfl, rfl, rfl, rfl, rfl, rfl, rfl, rfl, rfl⟩
-- macro 0 has not been loaded, and has
theorem witness_EngineAndMatrixEvents_macros : mulOp.req.mmMalformed (arrangement .a512) = false ∧ (heldBy 1).macroFault mulOp.req (arrangement .a512) ≠ none ∧
    ({ heldBy 1 with loaded := List.replicate 160 (some mulOp.req.mmWfmt) } : Mx).macroFault mulOp.req (arrangement .a512) = none := by decide +kernel
theorem witness_EngineAndMatrixEvents_kblock : ∀ (st : RowSt) (fmt : Nat), ∃ s o arr, (State.core s 0).mx.queue.head?.bind (s.core 0).op? = some o ∧
    (s.core 0).mx.arr = some arr ∧ (s.core 0).mx.active = true ∧ (s.core 0).mx.halted = false ∧ o.req.kind = .mxmul ∧ s.opFree 0 o true = true ∧
    (s.core 0).mx = { mulPath st fmt with queue := [3] } ∧ o = mulOp ∧ s.dev.soft = [] ∧ s.dev.hard = [] :=
  fun st fmt => ⟨queueState (mulPath st fmt) mulOp, _, _, rfl, rfl, rfl, rfl, rfl, rfl, rfl, rfl, rfl, rfl⟩
theorem witness_EngineAndMatrixEvents_rows : (mulPath .full 7).rowStop mulOp.req 0 = none ∧ (mulPath .part1 7).rowStop mulOp.req 0 = some (63, false) ∧
    (mulPath .full 3).rowStop mulOp.req 0 = some (63, true) := by decide
/-- A control thread before an MXCFG. -/
def wantsCtl : Ctl := { freshCtl 1 8 none 0 0 false with entered := true }
theorem witness_EngineAndMatrixEvents_idle : ∃ s t, (State.core s 0).pathIdle = true ∧ t ∈ (s.core 0).ctls ∧ some t.ctx ≠ (s.core 0).mx.holder ∧ s.wantsPath 0 t = true :=
  ⟨idleState 0 { blockCore (encode (.mxcfg .a2048 noWd)) id with warps := [], teams := [], ctls := [wantsCtl], mx := heldBy 2 }, wantsCtl,
   by decide, List.mem_singleton.2 rfl, by decide, by decide⟩

-- exactly 10 s; rank 0 joined, and only remote ranks; exactly 1 s
theorem witness_CommunicatorEvents_comm :
    (∃ s m, State.comms s = [m] ∧ s.comms.find? (fun m => m.key == 5 && s.commComplete m) = some m) ∧
    (∃ s m, State.comms s = [m] ∧ m.key = 5 ∧ m.st = .forming ∧ nsBetween m.since s.time = 10000000000) ∧
    (∃ s m q, State.comms s = [m] ∧ m.key = 5 ∧ m.st = .dead ∧ m.decidesHere = true ∧ m.colls = [q] ∧ q.k = 4 ∧ q.decided = none ∧
      ∀ j ∈ m.joined, j.2.isSome = true) ∧
    ∃ s m q, State.comms s = [m] ∧ m.key = 5 ∧ m.st = .dead ∧ m.colls = [q] ∧ q.k = 4 ∧ q.decided = none ∧ q.deadAt = some 6 ∧ nsBetween 6 s.time = 1000000000 :=
  ⟨⟨commsAt 0 (comm2 .forming [(0, some 1), (1, none)] []), _, rfl, by decide⟩, ⟨commsAt 60000000000 (comm2 .forming [] []), _, rfl, rfl, rfl, by decide⟩,
   ⟨commsAt 0 (comm2 .dead [(0, some 1)] [coll0 none]), _, _, rfl, rfl, rfl, by decide, rfl, rfl, rfl, by decide⟩,
   ⟨commsAt 6000000006 (comm2 .dead [] [coll0 (some 6)]), _, _, rfl, rfl, rfl, rfl, rfl, rfl, rfl, by decide⟩⟩
-- the last link, in a partition of the last two columns, with the highest sequence number
theorem witness_CommunicatorEvents_links : ∃ s n, 47 < (State.links s).length ∧ (s.links.getD 47 default).down = none ∧ (s.links.getD 47 default).seq = 4095 ∧
    s.partitionOf (portColumn 47) = some n :=
  ⟨{ State.reset with dev := { State.reset.dev with parts := [⟨0, 2⟩, ⟨22, 2⟩] }, links := List.replicate 48 { seq := 4095 } }, _, by decide, by decide, by decide, rfl⟩
-- a CRC that holds, whatever it must be, and one that does not; a sequence number that is the link's, and one that is not
theorem witness_CommunicatorEvents_flits : ∀ seq ok, seq = 4095 ∨ seq = 4094 → ∃ flit : Flit, flit.crcOk = ok ∧ flit.seq = seq := by
  rintro seq (_ | _) (rfl | rfl)
  · exact ⟨⟨0x0FFF0000, (0, 0), .abort 5, ~~~ Config.flitCrc 0x0FFF0000 (0, 0) (.abort 5)⟩, by simp [Flit.crcOk], by decide⟩
  · exact ⟨⟨0x0FFE0000, (0, 0), .abort 5, ~~~ Config.flitCrc 0x0FFE0000 (0, 0) (.abort 5)⟩, by simp [Flit.crcOk], by decide⟩
  · exact ⟨⟨0x0FFF0000, (0, 0), .abort 5, Config.flitCrc 0x0FFF0000 (0, 0) (.abort 5)⟩, by simp [Flit.crcOk], by decide⟩
  · exact ⟨⟨0x0FFE0000, (0, 0), .abort 5, Config.flitCrc 0x0FFE0000 (0, 0) (.abort 5)⟩, by simp [Flit.crcOk], by decide⟩
-- exactly 1 s, and one tick less
theorem witness_CommunicatorEvents_down : ∀ time, time = 6000000006 ∨ time = 6000000005 → ∃ s : State, (s.links.getD 47 default).down = some 6 ∧
    decide (1000000000 ≤ nsBetween 6 s.time) = decide (time = 6000000006) := by
  rintro time (rfl | rfl)
  · exact ⟨{ idleState 6000000006 Core.fresh with links := List.replicate 48 { down := some 6 } }, by decide, by decide⟩
  · exact ⟨{ idleState 6000000005 Core.fresh with links := List.replicate 48 { down := some 6 } }, by decide, by decide⟩
theorem witness_CommunicatorEvents_loss : ∃ s m, (s.links.getD 47 default).down = some 6 ∧ nsBetween 6 s.time = 1000000000 ∧ State.comms s = [m] ∧ m.st ≠ .dead ∧ s.partitionOf (portColumn 47) = some 1 ∧ (1, none) ∈ m.joined ∧
    (0, some 1) ∈ m.joined ∧ s.partOf 1 = some 1 :=
  ⟨{ idleState 6000000006 Core.fresh with
      links := List.replicate 48 { down := some 6 }, dev := { State.reset.dev with parts := [⟨0, 2⟩, ⟨22, 2⟩] }, comms := [comm2 .ready [(0, some 1), (1, none)] []]
      vfs := listMod State.reset.vfs 0 fun v => { v with profile := some (1, profile0) } }, _, by decide, by decide, rfl, by decide, rfl, by decide, by decide, rfl⟩

/-! ## Witnesses: scheduling and pre-emption -/

/-- A grid of the placed context's queue 63, and the idle device with it. -/
def grid0 (st : GridSt) (r : LaunchRec) : Grid := { seq := 0, st, lrec := r, prio := 2 }
def gridCtx (g : Grid) : Ctx := { placedCtx with queues := List.replicate 63 {} ++ [{ next := 1, grids := [g] }] }
def gridState (time : Nat) (g : Grid) (k : Core) : State := { idleState time k with ctxs := [gridCtx g] }
/-- A core whose TLB maps the placed context's page 0 to host page 0, which holds a table of two expected counts. -/
def tabState (n : Nat) : State :=
  { gridState 0 (grid0 .queued { nnb := 2, nbtab := 2 }) { Core.fresh with tlb := [{ ctx := 1, base := 0, size := 65536, out := .host 0 0 false, write := true, fetch := true }] } with
    mem := (State.reset.pokeN (.host 0 2 false) [1, 0, BitVec.ofNat 8 n, 0]).mem }
/-- A team whose warps have exited. -/
def doneTeam : Team := { placedTeam with queue := 63, live := [] }

-- expected counts of 1, and one of 0
theorem witness_SchedulingEvents_grid : ∀ n, n = 1 ∨ n = 0 → ∃ s r u v x g exps chans, State.ctx? s 1 = some x ∧ s.grid? 1 63 0 = some g ∧ x.st = .running ∧
    g.st = .queued ∧ (x.queues.getD 63 default).mayStart g = true ∧ s.granting x.idx = false ∧
    s.releaseCores x ((x.queues.getD 63 default).fullCores g) = .done r ∧ r.readTable 1 (x.cores.headD 0) g.lrec.nbtab 2 g.lrec.nnb = .vals u exps ∧
    u.readTable 1 (x.cores.headD 0) g.lrec.chtab 4 (if g.lrec.chtab = 0 then 0 else 64) = .vals v chans ∧ gridBad x g exps chans = decide (n = 0) := by
  rintro n (rfl | rfl)
  · exact ⟨tabState 1, _, _, _, _, _, [1, 1], _, rfl, rfl, rfl, rfl, by decide, by decide, rfl, rfl, rfl, by decide⟩
  · exact ⟨tabState 0, _, _, _, _, _, [1, 0], _, rfl, rfl, rfl, rfl, by decide, by decide, rfl, rfl, rfl, by decide⟩
/-- Core 0, which ran the team of a grid that is done, has a store on its way; the next grid depends FULL on that one. -/
def fullState : State :=
  { idleState 0 Core.fresh with
    ctxs := [{ placedCtx with queues := List.replicate 63 {} ++ [{ next := 2, grids := [{ grid0 .done {} with homes := [(0, 0)] }, { grid0 .queued {} with seq := 1 }] }] }]
    reqs := [{ id := 7, core := 0, ctx := 1, kind := .write devKey 1 [9] none }] }
theorem witness_SchedulingEvents_release : ∃ s x g r, State.ctx? s 1 = some x ∧ s.grid? 1 63 1 = some g ∧ s.gridMayStart x 63 g = true ∧
    s.releaseCores x ((x.queues.getD 63 default).fullCores g) = .wait r :=
  ⟨fullState, _, _, _, rfl, rfl, by decide, rfl⟩
-- all of the scratchpad, of the vector registers and of the tags, for the last team of two
theorem witness_SchedulingEvents_admit : ∃ s x g, State.ctx? s 1 = some x ∧ s.grid? 1 63 0 = some g ∧ x.st = .running ∧ g.st = .running ∧ g.lrec.gang = 0 ∧
    1 < g.lrec.units ∧ g.unitIn 1 = false ∧ s.unitFits x 63 g 1 = true ∧ x.unitOf 63 g 1 = [(1, 0)] ∧ x.firstWaiting 63 g 0 = some 1 ∧ s.heldBack g 0 = false :=
  ⟨gridState 0 { grid0 .running { griddim := 2, tdim := 16, nvec := 128, spb := 524288, tagb := 16 } with admitted := [0], retired := [0] } Core.fresh, _, _, rfl, rfl,
   rfl, rfl, rfl, by decide, by decide, by decide +kernel, by decide +kernel, by decide +kernel, by decide +kernel⟩
theorem witness_SchedulingEvents_retire : ∃ s t r, (State.core s 0).teams.find? (fun t => t.ctx == 1 && t.queue == 63 && t.seq == 0 && t.tid == 0) = some t ∧
    t.live = [] ∧ t.ops = [] ∧ s.releaseGrid 0 1 = .done r :=
  ⟨gridState 0 (grid0 .running { griddim := 1 }) { Core.fresh with teams := [doneTeam] }, _, _, rfl, rfl, rfl, rfl⟩
theorem witness_SchedulingEvents_aging : ∃ s g, State.grid? s 1 63 0 = some g ∧ g.st = .running ∧ g.admitted.length < g.lrec.teams ∧ g.since + msTicks = s.time :=
  ⟨gridState 6000000 (grid0 .running { griddim := 1 }) Core.fresh, _, rfl, rfl, by decide, by decide⟩
theorem test_aging_stops_at_3 : ∀ t, nextOf (exec (.priorityAging 1 63 0) (gridState 6000000 { grid0 .running { griddim := 1 } with prio := 3 } Core.fresh)) = some t →
    (t.grid? 1 63 0).map (·.prio) = some 3 := by
  intro t h; rw [show nextOf _ = some _ from rfl] at h; injection h with h; rw [← h]; decide

/-- The placed context and a child of it, being revoked or killed. -/
def endState (f : Ctx → Ctx) : State := { idleState 0 Core.fresh with ctxs := [placedCtx, f child] }
theorem witness_SchedulingEvents_ends :
    (∃ s x p r, State.ctx? s 2 = some x ∧ x.revoke = some r ∧ s.drainsLeft 2 r.cores = false ∧ r.frames.all s.frameReady = true ∧
      (s.modCtx 2 fun c => { c with revoke := none }).ctx? r.caller = some p ∧ p.st ≠ .killing) ∧
    (∃ s x, State.ctx? s 2 = some x ∧ x.st = .killing ∧ (∀ c ∈ s.ctxs, c.parent ≠ some 2) ∧ x.dying = none) ∧
    ∃ s x, State.ctx? s 2 = some x ∧ x.st = .killing ∧ (∀ c ∈ s.ctxs, c.parent ≠ some 2) ∧ x.dying = some [5] ∧ [5].all s.frameReady = true :=
  ⟨⟨endState fun c => { c with revoke := some { cw := 64, caller := 1, frames := [5], cores := [0] } }, _, _, _, rfl, rfl, by decide, by decide, rfl, by decide⟩,
   ⟨endState fun c => { c with st := .killing }, _, rfl, rfl, by decide, rfl⟩,
   ⟨endState fun c => { c with st := .killing, dying := some [5] }, _, rfl, rfl, by decide, rfl, by decide⟩⟩

/-- A device on which two roots share core 0. -/
def sliceState (time : Nat) (y : Slice) : State :=
  { idleState time { Core.fresh with slices := [y] } with
    ctxs := [placedCtx, { placedCtx with idx := 2, vf := 1 }], vfs := listMod State.reset.vfs 0 fun v => { v with profile := some (0, profile0) } }
theorem witness_SchedulingEvents_slices :
    (∃ s y p, (State.core s 0).slices.find? (fun y => y.vf == 0) = some y ∧ (s.vf 0).profile = some (0, p) ∧ y.expired = false ∧ s.sharedCore 0 0 = true ∧
      p.slice = nsBetween y.since s.time ∧ (s.core 0).ctls = []) ∧
    ∃ s y p, (State.core s 0).slices.find? (fun y => y.vf == 0) = some y ∧ (s.vf 0).profile = some (0, p) ∧ y.expired = true ∧ y.begun = false ∧
      p.overrun = nsBetween y.since s.time :=
  ⟨⟨sliceState 6000000 { vf := 0 }, _, _, rfl, rfl, rfl, by decide, by decide, rfl⟩,
   ⟨sliceState 600000 { vf := 0, expired := true }, _, _, rfl, rfl, rfl, rfl, by decide⟩⟩

/-- Core 0 draining the placed context. -/
def drainState (time : Nat) : State := idleState time { Core.fresh with drains := [{ ctx := 1, since := 0, revoked := false }] }
/-- The image of a control thread alone. -/
def ctlImage : SaveImage :=
  { ctx := 1, warps := [], ctls := [freshCtl 1 8 none 0 0 false], teams := [], spad := [], gens := [], ops := [], mx := none, acc := [] }
theorem witness_SchedulingEvents_drains :
    (∃ s : State, (s.core 0).draining 1 = true ∧ s.drainLate 0 1 = false ∧ (s.drainStep 0 1).quiescent 0 1 = true) ∧
    (∃ s d, (State.core s 0).drains.find? (fun d => d.ctx == 1) = some d ∧ nsBetween d.since s.time = 200000) ∧
    ∃ s t x img, State.ctx? s 1 = some x ∧ x.st = .running ∧ 0 ∈ x.cores ∧ (s.core 0).draining 1 = false ∧ (s.vf x.vf).saving = false ∧ s.lostImages x = [] ∧
      (s.core 0).images.find? (fun i => i.ctx == 1) = some img ∧ img.ctls ≠ [] ∧ s.restoreUnit x img (s.moveTo 0 0) ⟨img.teams, true, true⟩ = some t :=
  ⟨⟨drainState 0, by decide, by decide⟩, ⟨drainState 1200000, _, rfl, by decide⟩,
   ⟨idleState 0 { Core.fresh with images := [ctlImage] }, _, _, _, rfl, rfl, by decide, by decide, rfl, by decide, rfl, by decide, rfl⟩⟩

/-! ## Witnesses: the host, root commands and device management -/

/-- The device up, function 95 without a root, its page changed. -/
def pageState (f : Vf → Vf) : State :=
  { State.reset with dev := { State.reset.dev with power := true, up := true }, vfs := listMod State.reset.vfs 95 f }
/-- The device up with a root of function 95, changed, on core 0. -/
def rootState (f : Vf → Vf) (g : Ctx → Ctx) : State :=
  { pageState (fun v => f { v with root := some 1 }) with ctxs := [g { placedCtx with vf := 95, regions := [0] }], cores := [(0, Core.fresh)] }
/-- Region 0 of 64 KiB × n on stack 0. -/
def region64 (n : Nat) (s : State) : State :=
  { s with dev := { s.dev with regions := listMod s.dev.regions 0 fun _ => { w0 := BitVec.ofNat 64 (0x202 + 65536 * (16 * n)) } } }

-- aligned and misaligned values; the smallest and the largest queue; the last event, and values of ROOT.CMD that mean nothing
theorem witness_HostPageEvents_page : (∃ s : State, s.pageOpen 95 = true ∧ s.dev.up = true ∧ 2 ^ 30 - 64 + 64 ≤ 2 ^ 30 ∧ (s.vf 95).root = none ∧ s.behindWrites 95 = false) ∧
    (∃ s : State, ∃ r, s.pageOpen 95 = true ∧ (s.vf 95).root = some r ∧ (s.vf 95).fqSize ≠ 0) ∧
    (0x40000000#64).toNat % 2 ^ 30 = 0 ∧ (0x20000000#64).toNat % 2 ^ 30 ≠ 0 ∧ (0x1000#64).toNat % 4096 = 0 ∧
    (∃ k, k < 11 ∧ (64#64).toNat = 64 * 2 ^ k) ∧ (∃ k, k < 11 ∧ (65536#64).toNat = 64 * 2 ^ k) ∧ (0#64) ∉ [(1 : DWord), 2, 3] ∧ (4#64) ∉ [(1 : DWord), 2, 3] :=
  ⟨⟨pageState id, by decide, rfl, by decide, rfl, by decide⟩, ⟨rootState (fun v => { v with fqSize := 64 }) id, 1, by decide, rfl, by decide⟩, by decide, by decide, by decide,
   ⟨0, by decide, by decide⟩, ⟨10, by decide, by decide⟩, by decide, by decide⟩
-- a BAR2 write waits for a translation, and a read that comes to wait for one
theorem witness_HostPageEvents_waits : (∃ s : State, s.pageUp 95 = true ∧ s.behindWrites 95 = true) ∧
    ∃ s t r, (State.dev s).up = true ∧ 60 + 4 ≤ 2 ^ 30 ∧ (s.vf 0).flr = false ∧ s.behindWrites 0 = false ∧ s.vfRoot 0 = some r ∧
      s.aperParts r .read (pieces (4 / 64 + 2) ((s.vf 0).aper.toNat + 60) 4) = (t, .error (.host 0 0 false)) :=
  ⟨⟨pageState fun v => { v with posted := [.bar2Write 95 0 [1]] }, by decide, by decide⟩,
   ⟨walkState (fun v => { v with root := some 1 }) {}, _, _, rfl, by decide, rfl, by decide, rfl, rfl⟩⟩
theorem witness_HostPageEvents_root : (∃ s r, State.pageOpen s 95 = true ∧ s.vfRoot 95 = some r) ∧
    ∃ s r, State.pageOpen s 95 = true ∧ s.vfRoot 95 = some r ∧ r.st ≠ .killing ∧ s.resumeStatus r.idx r ((1#64).toNat % 65536) = .done :=
  ⟨⟨rootState id id, _, by decide, rfl⟩,
   ⟨{ rootState id id with halts := [{ num := 1, recv := 1, host := true, req := .ctl 0 1, ctx := 1, code := .pageAbsent, record := [] }] }, _, by decide, rfl, by decide, by decide⟩⟩
-- the 63rd event of the mailbox page does nothing
theorem test_kick_63 : ∀ t, nextOf (exec (.kick 95 63) (rootState id id)) = some t → (t.ctxs.map fun c => c.events.length) = [64] ∧
    (t.ctxs.all fun c => c.events.all (· == 0)) = true := by
  intro t h; rw [show nextOf _ = some _ from rfl] at h; injection h with h; rw [← h]; decide
theorem witness_HostPageEvents_handover : (∃ s : State, s.pageOpen 95 = true ∧ (hcmdOf (listMod (s.vf 95).hcmd 3 fun _ => 0)).1.toHost = false) ∧
    ∃ s : State, s.pageOpen 95 = true ∧ (hcmdOf (listMod (s.vf 95).hcmd 3 fun _ => 0)).1.toHost = true :=
  ⟨⟨pageState id, by decide, by decide⟩, ⟨pageState fun v => { v with hcmd := [0x1000, 1, 1, 0] }, by decide, by decide⟩⟩
-- R8, Table 4.6: the reserved bits of word 0 are ignored
theorem test_hcmd_reserved : ∀ t, nextOf (exec (.vfRegisterWrite 95 0x080 0x1FFF 8) (pageState id)) = some t → ((t.vf 95).hcmd.getD 0 0) = 0x1000 := by
  intro t h; rw [show nextOf _ = some _ from rfl] at h; injection h with h; rw [← h]; decide
-- the last byte of the region
theorem witness_HostPageEvents_release : ∃ s : State, s.pageOpen 95 = true ∧ (65535#64).toNat < 2 ^ 52 ∧ dpaRegion (65535#64).toNat ∈ s.vfRegions 95 ∧
    dpaOffset (65535#64).toNat + 1 = (s.dev.regions.getD (dpaRegion (65535#64).toNat) {}).size :=
  ⟨region64 1 (rootState id id), by decide, by decide, by decide, by decide⟩

/-- A root of function 95 whose page 0 is the host page 0, or device address 0, in its core's TLB. -/
def aperState (out : Place) : State :=
  { region64 1 (rootState id id) with cores := [(0, { Core.fresh with tlb := [{ ctx := 1, base := 0, size := 65536, out, write := true, fetch := true }] })] }
-- the aperture's last 4 bytes, of a base that wraps nothing; bytes 0 to 3; and without a translation
theorem witness_HostPageEvents_aperture :
    (∃ s t r l, (State.dev s).up = true ∧ 60 + 4 ≤ 2 ^ 30 ∧ (s.vf 95).flr = false ∧ s.behindWrites 95 = false ∧ s.vfRoot 95 = some r ∧
      s.aperParts r .read (pieces (4 / 64 + 2) ((s.vf 95).aper.toNat + 60) 4) = (t, .ok l)) ∧
    (∃ s t r f, (State.dev s).up = true ∧ 2 ^ 30 - 4 + 4 ≤ 2 ^ 30 ∧ (s.vf 95).flr = false ∧ s.behindWrites 95 = false ∧ s.vfRoot 95 = some r ∧
      s.aperParts r .read (pieces (4 / 64 + 2) ((s.vf 95).aper.toNat + (2 ^ 30 - 4)) 4) = (t, .error (.fault f))) ∧
    (∃ s t r p, (State.dev s).up = true ∧ 0 + [(1 : BitVec 8)].length ≤ 2 ^ 30 ∧ (s.vf 95).flr = false ∧ s.behindWrites 95 = false ∧ s.vfRoot 95 = some r ∧
      s.aperParts r .write (pieces ([(1 : BitVec 8)].length / 64 + 2) ((s.vf 95).aper.toNat + 0) [(1 : BitVec 8)].length) = (t, .ok [(p, [(1 : BitVec 8)].length)])) ∧
    (∃ s t r d, (State.dev s).up = true ∧ hostAtomic .add .w32 = true ∧ AWidth.w32.bytes = 4 ∧ 0 + 4 ≤ 2 ^ 30 ∧ 0 % 4 = 0 ∧ (s.vf 95).flr = false ∧ s.behindWrites 95 = false ∧ s.vfRoot 95 = some r ∧
      s.aperParts r .atomic (pieces (4 / 64 + 2) ((s.vf 95).aper.toNat + 0) 4) = (t, .ok [(.dev d, 4)])) ∧
    (hostAtomic .cas .w128 = true ∧ AWidth.w128.bytes = 16 ∧ 16 % 16 = 0 ∧ 2 % 4 ≠ 0) :=
  ⟨⟨aperState (.host 95 0 false), _, _, _, rfl, by decide, rfl, by decide, rfl, rfl⟩,
   ⟨aperState (.host 95 0 false), _, _, _, rfl, by decide, rfl, by decide, rfl, rfl⟩,
   ⟨aperState (.host 95 0 false), _, _, _, rfl, by decide, rfl, by decide, rfl, rfl⟩,
   ⟨aperState (.dev 0), _, _, _, rfl, by decide, by decide, by decide, by decide, rfl, by decide, rfl, rfl⟩, by decide, by decide, by decide, by decide⟩

/-- A function with the profile of core 0, and region 0 of four frames: a HASH region over stack 0 (R42: mode ONE). -/
def makeState (f : Vf → Vf) : State :=
  let s := pageState fun v => f { v with profile := some (0, profile0) }
  { s with dev := { s.dev with regions := listMod s.dev.regions 0 fun _ => { w0 := BitVec.ofNat 64 (0x201 + 65536 * 64), w2 := 1 } } }
/-- The regions of a root of mode ONE on core 0. -/
def oneRegions (s : State) : List Nat := s.frameRegions 95 0 (((sortNats profile0.cores).filter s.enabled).map dieOf).eraseDups profile0
theorem witness_RootCommandEvents_start : (∃ s r, State.pageOpen s 95 = true ∧ s.vfRoot 95 = some r ∧ r.st = .stopped) ∧
    ∃ s r, State.pageOpen s 95 = true ∧ s.vfRoot 95 = some r ∧ r.st ≠ .stopped :=
  ⟨⟨rootState id fun c => { c with st := .stopped }, _, by decide, rfl, rfl⟩, ⟨rootState id id, _, by decide, rfl, by decide⟩⟩
theorem bootstrap_of_four_frames : ((makeState id).bootstrap (oneRegions (makeState id))).isSome = true := by decide +kernel
-- a block at a misaligned address, and the block of zeros at address 0
theorem witness_RootCommandEvents_create :
    (∃ s : State, s.pageOpen 95 = true ∧ (s.vf 95).root = none ∧ (s.vf 95).rarg.toNat % 64 ≠ 0) ∧
    ∃ s t troot idx p, State.pageOpen s 95 = true ∧ (s.vf 95).root = none ∧ (s.vf 95).rarg.toNat % 64 = 0 ∧ createBad (s.rootBlock 95) = false ∧
      (s.vf 95).profile = some (0, p) ∧ blkF (s.rootBlock 95) 0 1 0 = 0 ∧ blkW (s.rootBlock 95) 3 = 0 ∧ p = profile0 ∧ s.bootstrap (oneRegions s) = some (t, troot) ∧
      s.freeIndex = some idx ∧ 95 < s.vfs.length := by
  refine ⟨⟨makeState fun v => { v with rarg := 1 }, by decide, rfl, by decide⟩, ?_⟩
  obtain ⟨⟨t, troot⟩, h⟩ := Option.isSome_iff_exists.1 bootstrap_of_four_frames
  exact ⟨makeState id, t, troot, _, _, by decide, rfl, by decide, by decide, rfl, by decide, by decide, rfl, h, rfl, by decide⟩
/-- A root with a profile, its SAVE not begun or begun. -/
def saveState (saving : Bool) : State := rootState (fun v => { v with profile := some (0, profile0), saving }) id
theorem witness_RootCommandEvents_save : ∀ b, ∃ s p root, State.pageOpen s 95 = true ∧ s.vfRoot 95 = some root ∧ (s.vf 95).profile = some (0, p) ∧
    (s.vf 95).saving = b ∧ s.savedFrames 95 + s.chargeCount root.idx ≤ p.saveAllow ∧ s.treeQuiet (s.treeOf 95) = true := by
  rintro (_ | _)
  · exact ⟨saveState false, _, _, by decide, rfl, rfl, rfl, by decide, by decide⟩
  · exact ⟨saveState true, _, _, by decide, rfl, rfl, rfl, by decide, by decide⟩
/-- An image of a root with these frames, the highest handle that a word holds. -/
def image0 (frames : List (Nat × Option Nat × List (BitVec 8))) : RootImage :=
  { handle := 2 ^ 32 - 1, root := 1, ctxs := [{ placedCtx with vf := 95 }], cores := [], halts := [], waits := [], words := [], frames, tables := [], counter := 0 }
def restoreState (frames : List (Nat × Option Nat × List (BitVec 8))) : State :=
  let s := makeState id
  { s with dev := { s.dev with images := [image0 frames] }, mem := (s.pokeN (.host 95 32 false) [0xFF, 0xFF, 0xFF, 0xFF]).mem }
-- no frame to place, and one more than the region has
theorem witness_RootCommandEvents_restore : ∀ n, n = 0 ∨ n = 5 →
    let frames := (List.range n).map fun k => (1000 + k, none, [])
    ∃ s p m root, State.pageOpen s 95 = true ∧ (s.vf 95).root = none ∧ (s.vf 95).profile = some (0, p) ∧ (s.vf 95).rarg.toNat % 64 = 0 ∧
      s.rootBlock 95 = [0, 0, 0, 0, BitVec.ofNat 64 m.handle, 0, 0, 0] ∧ m.handle < 2 ^ 32 ∧ s.dev.images.find? (fun i => i.handle == m.handle) = some m ∧
      m.ctxs.find? (fun c => c.idx == m.root) = some root ∧ coresFit root.byDie (s.offer p) = true ∧ m = image0 frames ∧
      p = profile0 ∧ (s.planFrames (oneRegions s) m).isSome = decide (n = 0) := by
  rintro n (rfl | rfl)
  · exact ⟨restoreState [], _, _, _, by decide, rfl, rfl, by decide, by decide, by decide, rfl, rfl, by decide, rfl, rfl, by decide⟩
  · exact ⟨restoreState _, _, _, _, by decide, rfl, rfl, by decide, by decide, by decide, rfl, rfl, by decide, rfl, rfl, by decide +kernel⟩
theorem witness_RootCommandEvents_flr : (∃ s : State, s.pageUp 95 = true ∧ s.vfRoot 95 = none) ∧
    (∃ s r, State.pageUp s 95 = true ∧ s.vfRoot 95 = some r ∧ r.st ≠ .killing) ∧
    ∃ s : State, (s.vf 95).flr = true ∧ (s.vf 95).root = none ∧ (s.vf 95).handCmds = [] :=
  ⟨⟨pageState id, by decide, rfl⟩, ⟨rootState id id, _, by decide, rfl, by decide⟩, ⟨pageState fun v => { v with flr := true }, by decide, rfl, rfl⟩⟩
-- a core more than the target offers
theorem witness_RootCommandEvents_short : ∃ s p m root, (State.vf s 95).profile = some (0, p) ∧ s.dev.images.find? (fun i => i.handle == m.handle) = some m ∧
    m.ctxs.find? (fun c => c.idx == m.root) = some root ∧ root.elastic = false ∧ coresFit root.byDie (s.offer p) = false :=
  let m : RootImage := { image0 [] with ctxs := [{ placedCtx with vf := 95, cores := [0, 1] }] }
  ⟨{ makeState id with dev := { (makeState id).dev with images := [m] } }, _, m, _, rfl, rfl, rfl, by decide, by decide⟩

-- two columns at the edge, the last region, the last function with seven others in its partition
theorem witness_DeviceManagementEvents :
    State.reset.dev.up = false ∧ (pageState id).dev.up = true ∧
    (∃ r : Region, r.bad = false ∧ 255 < (pageState id).dev.regions.length ∧ (∀ q ∈ (pageState id).dev.regions.zipIdx, q.2 ≠ 255 → q.1.meets r = false) ∧
      (pageState id).regionNamed 255 = false) ∧
    cutOk ([(22, 2)].map fun r => ⟨r.1, r.2⟩) = true ∧ (∀ v ∈ (pageState id).vfs, v.root = none) := by
  refine ⟨rfl, rfl, ⟨{ w0 := 0x100202 }, by decide, by decide, by decide +kernel, by decide⟩, by decide, by decide⟩
def assignState : State :=
  let s := pageState id
  { s with dev := { s.dev with parts := [⟨0, 24⟩] }, vfs := (s.vfs.take 7).map (fun v => { v with profile := some (0, profile0) }) ++ s.vfs.drop 7 }
theorem witness_DeviceManagementEvents_profile : ∃ s q, (State.dev s).parts[0]? = some q ∧ s.dev.up = true ∧ (s.vf 95).root = none ∧
    (s.vfs.zipIdx.filter fun v => v.2 != 95 && v.1.profile.any fun f => f.1 == 0).length = 7 ∧ s.profileOk q { profile0 with slice := 100000000, overrun := 10000 } = true :=
  ⟨assignState, _, rfl, rfl, rfl, by decide, by decide⟩
theorem witness_DeviceManagementEvents_images : ∃ s m, m ∈ (State.dev s).images ∧ m.handle = 2 ^ 32 - 1 :=
  ⟨restoreState [], image0 [], List.mem_singleton.2 rfl, rfl⟩

end Sys2Proof.Tests
end

section
/-! PROOF. Every step keeps the memories in canonical form (log 7). One lemma for each operation of the model says that the state it
leaves has the form when the state it starts from has; a lemma is named after its operation, and follows its branches. -/

namespace Sys2Proof.Machine

/-! ## The canonical form of a state and of what an operation answers -/

/-- The memories of a state are in canonical form (log 7). -/
def State.Canon (s : State) : Prop := Memory.wf s.mem = true

/-- Every state that an answer carries has its memories in canonical form: one definition for each kind of answer. -/
def OptCanon : Option State → Prop
  | some t => t.Canon
  | none => True

/-- A release, done or waiting. -/
def RelSt.Canon : RelSt → Prop
  | .done t | .wait t => t.Canon

/-- The checks of a memory form. -/
def Checked.Canon : Checked → Prop
  | .ok t _ | .wait t => t.Canon
  | .fault _ => True

/-- A read at fire. -/
def Fetch.Canon {α : Type} : Fetch α → Prop
  | .ok t _ | .wait t => t.Canon
  | .fault _ => True

/-- The read of a launch record. -/
def RecRead.Canon : RecRead → Prop
  | .record t _ | .bad t | .wait t => t.Canon

/-- The fetch of a block. -/
def Fetched.Canon : Fetched → Prop
  | .ok t _ | .wait t | .fault t _ => t.Canon

/-- An outcome of the machine. -/
def OutCanon : Host.Outcome State Fault Refusal → Prop
  | .next t => t.Canon
  | _ => True

/-- A computation of an engine, whatever it answers. -/
def EngCanon {α : Type} (m : EngM α) : Prop := ∀ s, s.Canon → (m.go s).2.Canon

/-- A table read at the point of coherence. -/
def TabRead.Canon : TabRead → Prop
  | .vals t _ | .bad t | .wait t => t.Canon

/-- The checks of a block's exit. -/
def ExitCheck.Canon : ExitCheck → Prop
  | .ok t _ | .wait t | .fault t _ => t.Canon

variable {s t : State}

/-! ## What an answer carries -/

theorem OptCanon.some {o : Option State} (h : OptCanon o) (e : o = .some t) : t.Canon := by subst e; exact h
theorem RelSt.Canon.done {r : RelSt} (h : r.Canon) (e : r = .done t) : t.Canon := by subst e; exact h
theorem RelSt.Canon.wait {r : RelSt} (h : r.Canon) (e : r = .wait t) : t.Canon := by subst e; exact h
theorem Checked.Canon.ok {r : Checked} {l : List Access} (h : r.Canon) (e : r = .ok t l) : t.Canon := by subst e; exact h
theorem Checked.Canon.wait {r : Checked} (h : r.Canon) (e : r = .wait t) : t.Canon := by subst e; exact h
theorem Fetch.Canon.ok {α : Type} {r : Fetch α} {v : α} (h : r.Canon) (e : r = .ok t v) : t.Canon := by subst e; exact h
theorem Fetch.Canon.wait {α : Type} {r : Fetch α} (h : r.Canon) (e : r = .wait t) : t.Canon := by subst e; exact h
theorem RecRead.Canon.record {r : RecRead} {ws : List DWord} (h : r.Canon) (e : r = .record t ws) : t.Canon := by subst e; exact h
theorem RecRead.Canon.bad {r : RecRead} (h : r.Canon) (e : r = .bad t) : t.Canon := by subst e; exact h
theorem RecRead.Canon.wait {r : RecRead} (h : r.Canon) (e : r = .wait t) : t.Canon := by subst e; exact h
theorem Fetched.Canon.ok {r : Fetched} {b : RBlock} (h : r.Canon) (e : r = .ok t b) : t.Canon := by subst e; exact h
theorem Fetched.Canon.wait {r : Fetched} (h : r.Canon) (e : r = .wait t) : t.Canon := by subst e; exact h
theorem Fetched.Canon.fault {r : Fetched} {f : FaultInfo} (h : r.Canon) (e : r = .fault t f) : t.Canon := by subst e; exact h
theorem TabRead.Canon.vals {r : TabRead} {l : List Nat} (h : r.Canon) (e : r = .vals t l) : t.Canon := by subst e; exact h
theorem TabRead.Canon.bad {r : TabRead} (h : r.Canon) (e : r = .bad t) : t.Canon := by subst e; exact h
theorem TabRead.Canon.wait {r : TabRead} (h : r.Canon) (e : r = .wait t) : t.Canon := by subst e; exact h
theorem ExitCheck.Canon.ok {r : ExitCheck} {l : List SEntry × Bool} (h : r.Canon) (e : r = .ok t l) : t.Canon := by subst e; exact h
theorem ExitCheck.Canon.wait {r : ExitCheck} (h : r.Canon) (e : r = .wait t) : t.Canon := by subst e; exact h
theorem ExitCheck.Canon.fault {r : ExitCheck} {f : FaultInfo} (h : r.Canon) (e : r = .fault t f) : t.Canon := by subst e; exact h
theorem OutCanon.next {r : Host.Outcome State Fault Refusal} (h : OutCanon r) (e : r = .next t) : t.Canon := by subst e; exact h

theorem OptCanon.bind {o : Option State} {f : State → Option State} (h : OptCanon o) (hf : ∀ s, s.Canon → OptCanon (f s)) : OptCanon (o.bind f) := by
  cases o with
  | none => trivial
  | some u => exact hf u h

theorem OptCanon.bindOf {α : Type} {o : Option α} {f : α → Option State} (hf : ∀ a, OptCanon (f a)) : OptCanon (o.bind f) := by
  cases o with
  | none => trivial
  | some a => exact hf a

theorem OptCanon.map {o : Option State} {f : State → State} (h : OptCanon o) (hf : ∀ s, s.Canon → (f s).Canon) : OptCanon (o.map f) := by
  cases o with
  | none => trivial
  | some u => exact hf u h

theorem OptCanon.foldl {α : Type} {o : Option State} {f : Option State → α → Option State} {l : List α} (h : OptCanon o)
    (hf : ∀ o a, OptCanon o → OptCanon (f o a)) : OptCanon (l.foldl f o) := by
  induction l generalizing o with
  | nil => exact h
  | cons a l ih => exact ih (hf o a h)

theorem OptCanon.findSome {α : Type} {l : List α} {f : α → Option State} (hf : ∀ a, OptCanon (f a)) : OptCanon (l.findSome? f) := by
  cases e : l.findSome? f with
  | none => trivial
  | some u =>
    obtain ⟨a, -, ha⟩ := List.exists_of_findSome?_eq_some e
    exact (hf a).some ha

theorem OptCanon.orElse {o : Option State} {f : Unit → Option State} (h : OptCanon o) (hf : OptCanon (f ())) : OptCanon (o.orElse f) := by
  cases o with
  | none => exact hf
  | some u => exact h

namespace State.Canon

theorem fst {α : Type} {x : State × α} {a : α} (h : x.1.Canon) (e : x = (t, a)) : t.Canon := by subst e; exact h
theorem snd {α : Type} {x : α × State} {a : α} (h : x.2.Canon) (e : x = (a, t)) : t.Canon := by subst e; exact h

/-- An update that leaves the memories alone keeps the form. -/
theorem upd (h : s.Canon) (e : t.mem = s.mem) : t.Canon := by unfold State.Canon; rw [e]; exact h

theorem foldl {α : Type} {f : State → α → State} {l : List α} (h : s.Canon) (hf : ∀ s a, s.Canon → (f s a).Canon) : (l.foldl f s).Canon := by
  induction l generalizing s with
  | nil => exact h
  | cons a l ih => exact ih (hf s a h)

theorem withGensCtxs (h : s.Canon) {gens ctxs} : State.Canon { s with gens := gens, ctxs := ctxs } := h
theorem withScrubs (h : s.Canon) {scrubs} : State.Canon { s with scrubs := scrubs } := h
theorem withCharges (h : s.Canon) {charges} : State.Canon { s with charges := charges } := h
theorem withReqs (h : s.Canon) {reqs} : State.Canon { s with reqs := reqs } := h

theorem getD {o : Option State} (h : s.Canon) (ho : OptCanon o) : (o.getD s).Canon := by
  cases o with
  | none => exact h
  | some t => exact ho

end State.Canon

/-! ## The state's tables -/

theorem State.Canon.setCore (h : s.Canon) {c k} : (s.setCore c k).Canon := h
theorem State.Canon.modCore (h : s.Canon) {c f} : (s.modCore c f).Canon := h
theorem State.Canon.modDie (h : s.Canon) {d f} : (s.modDie d f).Canon := h
theorem State.Canon.modFirn (h : s.Canon) {d f} : (s.modFirn d f).Canon := h
theorem State.Canon.modVf (h : s.Canon) {n f} : (s.modVf n f).Canon := h
theorem State.Canon.modCtx (h : s.Canon) {i f} : (s.modCtx i f).Canon := h
theorem State.Canon.modWarp (h : s.Canon) {c slot f} : (s.modWarp c slot f).Canon := h
theorem State.Canon.modCtl (h : s.Canon) {c x f} : (s.modCtl c x f).Canon := h
theorem State.Canon.modTeam (h : s.Canon) {c t f} : (s.modTeam c t f).Canon := h
theorem State.Canon.modInst (h : s.Canon) {c slot itag f} : (s.modInst c slot itag f).Canon := h
theorem State.Canon.modOp (h : s.Canon) {c id f} : (s.modOp c id f).Canon := h
theorem State.Canon.nextFree (h : s.Canon) : s.nextFree.Canon := h
theorem State.Canon.msix (h : s.Canon) {vf vec} : (s.msix vf vec).Canon := h

/-- A walk over a list that carries a state beside something else. -/
theorem State.Canon.foldlPair (h : s.Canon) {α β : Type} {f : State × β → α → State × β} {l : List α} {b : β}
    (hf : ∀ r a, r.1.Canon → (f r a).1.Canon) : (l.foldl f (s, b)).1.Canon := by
  suffices ∀ r : State × β, r.1.Canon → (l.foldl f r).1.Canon from this (s, b) h
  induction l with
  | nil => exact fun _ h => h
  | cons a l ih => exact fun r h => ih _ (hf r a h)

/-! ## Writing a memory -/

theorem State.Canon.parts : s.Canon ↔ Mem.wf s.mem.hbm = true ∧ Mem.wf s.mem.host = true ∧ Mem.wf s.mem.spad = true ∧ Mem.wf s.mem.acc = true ∧
    Mem.wf s.mem.wgt = true ∧ Mem.wf s.mem.scl = true := by
  simp only [State.Canon, Memory.wf, Bool.and_eq_true, and_assoc]

theorem State.Canon.setHbm (h : s.Canon) {m} (hm : Mem.wf s.mem.hbm = true → Mem.wf m = true) : State.Canon { s with mem := { s.mem with hbm := m } } := by
  obtain ⟨hbm, rest⟩ := parts.1 h
  exact parts.2 ⟨hm hbm, rest⟩

theorem State.Canon.setHost (h : s.Canon) {m} (hm : Mem.wf s.mem.host = true → Mem.wf m = true) : State.Canon { s with mem := { s.mem with host := m } } := by
  obtain ⟨hbm, host, rest⟩ := parts.1 h
  exact parts.2 ⟨hbm, hm host, rest⟩

theorem State.Canon.setSpad (h : s.Canon) {m} (hm : Mem.wf s.mem.spad = true → Mem.wf m = true) : State.Canon { s with mem := { s.mem with spad := m } } := by
  obtain ⟨hbm, host, spad, rest⟩ := parts.1 h
  exact parts.2 ⟨hbm, host, hm spad, rest⟩

theorem State.Canon.setAcc (h : s.Canon) {m} (hm : Mem.wf s.mem.acc = true → Mem.wf m = true) : State.Canon { s with mem := { s.mem with acc := m } } := by
  obtain ⟨hbm, host, spad, acc, rest⟩ := parts.1 h
  exact parts.2 ⟨hbm, host, spad, hm acc, rest⟩

theorem State.Canon.setWgt (h : s.Canon) {m} (hm : Mem.wf s.mem.wgt = true → Mem.wf m = true) : State.Canon { s with mem := { s.mem with wgt := m } } := by
  obtain ⟨hbm, host, spad, acc, wgt, scl⟩ := parts.1 h
  exact parts.2 ⟨hbm, host, spad, acc, hm wgt, scl⟩

theorem State.Canon.setScl (h : s.Canon) {m} (hm : Mem.wf s.mem.scl = true → Mem.wf m = true) : State.Canon { s with mem := { s.mem with scl := m } } := by
  obtain ⟨hbm, host, spad, acc, wgt, scl⟩ := parts.1 h
  exact parts.2 ⟨hbm, host, spad, acc, wgt, hm scl⟩

theorem State.Canon.hostWrite (h : s.Canon) {vf addr bs} : (s.hostWrite vf addr bs).Canon := h.setHost fun w => Mem.wf_setBytes _ w _ _

/-! ## Faults, their records, and single bytes -/

theorem State.Canon.hostRecord (h : s.Canon) {vf record} : OptCanon (s.hostRecord vf record) := by
  unfold State.hostRecord
  dsimp only
  split
  · exact h.hostWrite.modVf.msix
  · exact trivial

theorem State.Canon.numberFault (h : s.Canon) {f p} (e : s.numberFault f = some p) : p.1.Canon := by
  unfold State.numberFault at e
  split at e
  · cases e; exact h
  · cases e; exact h
  · obtain ⟨n, -, rfl⟩ := Option.map_eq_some_iff.1 e
    exact h.upd rfl

theorem State.Canon.enqueueFault (h : s.Canon) {f} : (s.enqueueFault f).Canon := by
  unfold State.enqueueFault
  split
  · exact h.modVf.getD h.hostRecord
  · split
    · exact h
    · exact h.upd rfl
    · next e =>
      have h₁ := h.numberFault e
      dsimp only at h₁ ⊢
      split
      · exact h₁.modVf.getD h₁.hostRecord
      · split
        · exact h₁.modCtx
        · exact h₁.upd rfl

theorem State.Canon.poke (h : s.Canon) {p b} : (s.poke p b).Canon := by
  unfold State.poke
  split
  · split
    · exact h
    · exact h.setHbm fun w => Mem.wf_set _ w _ _
  · exact h.setHost fun w => Mem.wf_set _ w _ _
  · exact h.setSpad fun w => Mem.wf_set _ w _ _
  · exact h.setAcc fun w => Mem.wf_set _ w _ _
  · exact h

theorem State.Canon.pokeN (h : s.Canon) {p bs} : (s.pokeN p bs).Canon := by
  induction bs generalizing s p with
  | nil => exact h
  | cons b t ih => exact ih h.poke

theorem State.Canon.drainFaults (h : s.Canon) : s.drainFaults.Canon := (h.upd (by rfl)).foldl (fun _ _ h₁ => h₁.enqueueFault)

/-! ## The operations of Machine/Ops -/

theorem State.Canon.drainHostFaults (h : s.Canon) {vf} : (s.drainHostFaults vf).Canon := h.modVf.foldl (fun _ _ h₁ => h₁.enqueueFault)

theorem State.Canon.deliver (h : s.Canon) {xi r halts f block itag esc masked} : (s.deliver xi r halts f block itag esc masked).Canon := by
  unfold State.deliver
  split
  · exact h
  · split
    · exact h
    · exact h.enqueueFault

theorem State.Canon.recordExit (h : s.Canon) {c slot itag f} : (s.recordExit c slot itag f).Canon := h

theorem State.Canon.haltWarp (h : s.Canon) {c slot f block itag esc masked} : (s.haltWarp c slot f block itag esc masked).Canon := by
  unfold State.haltWarp
  split
  · exact h
  · exact h.modWarp.deliver

theorem State.Canon.raiseTrap (h : s.Canon) {c slot n f async block resume itag} : (s.raiseTrap c slot n f async block resume itag).Canon := by
  unfold State.raiseTrap
  split
  · exact h
  · dsimp only
    split
    · split
      · exact h.modCtx
      · exact h.modWarp
    · exact h.modWarp.haltWarp
    · exact h.modWarp

theorem State.Canon.haltCtl (h : s.Canon) {c x f esc} : (s.haltCtl c x f esc).Canon := by
  unfold State.haltCtl
  split
  · exact h
  · exact h.modCtl.deliver

theorem State.Canon.startKill (h : s.Canon) {target caller cw} : (s.startKill target caller cw).Canon := h

/-! ## The operations of Machine/Cache -/

theorem State.Canon.countScrub (h : s.Canon) {frame} : (s.countScrub frame).Canon := h

theorem State.Canon.pokeSector (h : s.Canon) {k mask data} : (s.pokeSector k mask data).Canon := by
  unfold State.pokeSector
  refine State.Canon.foldl h fun _ _ h₁ => ?_
  split
  · exact h₁.poke
  · exact h₁

theorem State.Canon.modMonitor (h : s.Canon) {p f} : (s.modMonitor p f).Canon := by
  unfold State.modMonitor
  split
  · exact h.modFirn
  · exact h.modCore
  · exact h

theorem State.Canon.clearReserves (h : s.Canon) {p} : (s.clearReserves p).Canon := by
  unfold State.clearReserves
  split
  · exact h.modMonitor
  · exact h

theorem State.Canon.dropReserves (h : s.Canon) {core slot} : (s.dropReserves core slot).Canon := h
theorem State.Canon.reportError (h : s.Canon) {x r e} : (s.reportError x r e).Canon := h.deliver.msix

theorem State.Canon.sense (h : s.Canon) {by_ e} : (s.sense by_ e).Canon := by
  unfold State.sense
  dsimp only
  split
  · split
    · split
      · exact (h.upd (by rfl)).reportError.startKill
      · exact (h.upd (by rfl)).reportError
      · exact h.upd rfl
    · exact h.upd rfl
  · split
    · split
      · exact h.reportError.startKill
      · exact h.reportError
      · exact h
    · exact h

theorem State.Canon.senseWhere (h : s.Canon) {by_ p} : (s.senseWhere by_ p).Canon := h.foldl (fun _ _ h₁ => h₁.sense)

theorem State.Canon.throughFirn (h : s.Canon) {k dirty} : (s.throughFirn k dirty).Canon := by
  unfold State.throughFirn
  split
  · exact h
  · split
    dsimp only
    split
    · exact h.modFirn.nextFree.senseWhere
    · exact h.modFirn.nextFree

theorem State.Canon.homeRead (h : s.Canon) {by_ p n} : (s.homeRead by_ p n).1.Canon := by
  unfold State.homeRead
  dsimp only
  refine State.Canon.foldl ?_ (fun _ _ h₁ => h₁.sense)
  split
  · split
    · exact h.countScrub
    · exact h.foldl fun _ _ h₁ => h₁.throughFirn
  · exact h

theorem State.Canon.dropFilled (h : s.Canon) {p} : (s.dropFilled p).Canon := h
theorem State.Canon.l1Drop (h : s.Canon) {core key} : (s.l1Drop core key).Canon := h
theorem State.Canon.posted (h : s.Canon) {core vf addr} : (s.posted core vf addr).Canon := h

theorem State.Canon.land (h : s.Canon) {core key mask data} : (s.land core key mask data).Canon := by
  unfold State.land
  split
  · exact h.pokeSector.posted
  · split
    · exact h.countScrub
    · exact h.throughFirn.clearReserves.pokeSector

theorem State.Canon.dropQueued (h : s.Canon) {d key} : (s.dropQueued d key).Canon := h

theorem State.Canon.dieDrop (h : s.Canon) {d key} : (s.dieDrop d key).Canon := by
  unfold State.dieDrop
  refine State.Canon.foldl h.dropQueued.dropFilled fun _ _ h₁ => ?_
  split
  · exact h₁
  · refine State.Canon.l1Drop ?_
    split
    · exact h₁.sense
    · exact h₁

theorem State.Canon.setPresence (h : s.Canon) {key marks} : (s.setPresence key marks).Canon := h

theorem State.Canon.invalidateOthers (h : s.Canon) {writer key} : (s.invalidateOthers writer key).Canon := by
  unfold State.invalidateOthers
  dsimp only
  split
  · exact h
  · exact (h.foldl (fun _ _ h₁ => h₁.dieDrop)).setPresence.foldl fun _ _ h₁ => h₁.land

theorem State.Canon.homeWrite (h : s.Canon) {core key mask data} : (s.homeWrite core key mask data).Canon := h.invalidateOthers.land
theorem State.Canon.performBacks (h : s.Canon) {key l} : (s.performBacks key l).Canon := h.foldl (fun _ _ h₁ => h₁.homeWrite)

theorem State.Canon.homePoke (h : s.Canon) {writer p bs} : (s.homePoke writer p bs).Canon := by
  unfold State.homePoke
  split
  · dsimp only
    split
    · exact (h.foldl (fun _ _ h₁ => h₁.invalidateOthers)).countScrub
    · exact ((h.foldl (fun _ _ h₁ => h₁.invalidateOthers)).foldl (fun _ _ h₁ => h₁.throughFirn.clearReserves)).pokeN
  · exact h.pokeN
  · exact h.clearReserves.pokeN

theorem State.Canon.performQueued (h : s.Canon) {d key} : (s.performQueued d key).Canon := h.dropQueued.performBacks
theorem State.Canon.dieFlush (h : s.Canon) {d key} : (s.dieFlush d key).Canon := h.dieDrop.performBacks

theorem State.Canon.flushSector (h : s.Canon) {core key drop} : (s.flushSector core key drop).Canon := by
  unfold State.flushSector
  split
  · split
    · exact h.dropFilled
    · exact h
  · dsimp only
    split
    · split
      · exact h.performQueued.modCore
      · exact h.performQueued
    · split
      · refine State.Canon.homeWrite ?_
        split
        · exact h.performQueued.sense.l1Drop
        · exact h.performQueued.sense.modCore
      · split
        · exact h.performQueued.l1Drop
        · exact h.performQueued.modCore

theorem State.Canon.coresFlush (h : s.Canon) {d cores key} : (s.coresFlush d cores key).Canon := by
  unfold State.coresFlush
  split
  · exact h.dieFlush
  · exact h.performQueued.foldl fun _ _ h₁ => h₁.flushSector

theorem State.Canon.dieClean (h : s.Canon) {d key} : (s.dieClean d key).Canon := by
  unfold State.dieClean
  split
  · exact h.dieFlush
  · exact (h.performQueued.foldl (fun _ _ h₁ => h₁.flushSector)).modDie

theorem State.Canon.send (h : s.Canon) {core ctx kind ord} : (s.send core ctx kind ord).Canon := h
theorem State.Canon.dropReq (h : s.Canon) {id} : (s.dropReq id).Canon := h

theorem State.Canon.travel (h : s.Canon) {r} : (s.travel r).Canon := by
  unfold State.travel
  split
  · dsimp only
    split
    · exact h
    · exact h.upd rfl
  · split
    · exact h.upd rfl
    · exact h

theorem State.Canon.turnBack (h : s.Canon) {id kind} : (s.turnBack id kind).Canon := h

theorem State.Canon.l1Room (h : s.Canon) {core key} : (s.l1Room core key).Canon := by
  unfold State.l1Room
  dsimp only
  split
  · exact h
  · refine State.Canon.foldl h fun _ _ h₁ => ?_
    split
    · exact h₁.dieFlush
    · refine State.Canon.l1Drop ?_
      split
      · exact h₁.sense.send
      · exact h₁

theorem State.Canon.askDcu (h : s.Canon) {core ctx key kind} : (s.askDcu core ctx key kind).Canon := h

theorem State.Canon.l1Store (h : s.Canon) {core ctx key at_ bs} : (s.l1Store core ctx key at_ bs).Canon := by
  unfold State.l1Store
  split
  · dsimp only
    split
    · exact h.modCore.modCore
    · split
      · exact h.modCore.modCore
      · exact h.modCore.modCore.askDcu
  · exact h.l1Room.modCore.askDcu

theorem State.Canon.l1Fill (h : s.Canon) {core key priv data} : (s.l1Fill core key priv data).Canon := by
  unfold State.l1Fill
  split
  · split
    · exact h.modCore
    · exact h
  · exact h.l1Room.modCore

theorem State.Canon.releaseGl (h : s.Canon) {core vf scope} : (s.releaseGl core vf scope).Canon := by
  unfold State.releaseGl
  dsimp only
  split
  · split <;> exact h
  · split <;> exact h
  · split
    · exact h
    · split
      · split
        · refine State.Canon.foldl h fun _ _ h₁ => ?_
          split
          · exact h₁.sense.send.l1Drop
          · exact h₁.sense.send.modCore
        · split
          · exact h
          · split
            · exact h.modCore
            · exact h
      · split
        · refine State.Canon.foldl h fun _ _ h₁ => ?_
          split
          · exact h₁.sense.send.l1Drop
          · exact h₁.sense.send.modCore
        · split
          · exact h
          · split
            · exact h.modCore
            · exact h
      · exact h

theorem State.Canon.releaseActs (h : s.Canon) {core vf scope mask} : (s.releaseActs core vf scope mask).Canon := by
  unfold State.releaseActs
  dsimp only
  split
  · refine RelSt.Canon.wait ?_ ‹_›
    split <;> exact h
  · split
    · refine State.Canon.releaseGl ?_
      refine RelSt.Canon.done ?_ ‹_›
      split <;> exact h
    · refine RelSt.Canon.done ?_ ‹_›
      split <;> exact h

theorem State.Canon.acquireActs (h : s.Canon) {core scope mask} : (s.acquireActs core scope mask).Canon := by
  unfold State.acquireActs
  split
  · exact h
  · split
    · exact h.dropFilled.foldl fun _ _ h₁ => h₁.flushSector
    · exact h.dropFilled.foldl fun _ _ h₁ => h₁.flushSector
    · exact h

/-! ## The operations of Machine/Walk -/

theorem State.Canon.setAD (h : s.Canon) {p e acc} : (s.setAD p e acc).Canon := by
  unfold State.setAD
  dsimp only
  split
  · split
    · exact h
    · exact h.invalidateOthers.homePoke
  · split
    · exact h
    · exact h.invalidateOthers.homePoke

/-- Carrying an address down the rest of a stage list keeps the form. -/
def Carry.Canon (c : Carry) : Prop := ∀ s a acc forEntry, s.Canon → (c s a acc forEntry).1.Canon

theorem State.Canon.walkTable_go (h : s.Canon) {x t a acc forEntry carry n lvl ptr root} (hc : Carry.Canon carry) :
    (State.walkTable.go x t a acc forEntry carry n lvl ptr root s).1.Canon := by
  induction n generalizing s lvl ptr root with
  | zero => exact h
  | succ n ih =>
    unfold State.walkTable.go
    dsimp only
    split
    · next e => exact (hc _ _ _ _ h).fst e
    · next pa e =>
      have h₁ := ((hc _ _ _ _ h).fst e).homeRead (by_ := some (x, .write 0)) (p := pa.place) (n := 8)
      split
      · exact h₁
      · split
        · exact h₁
        · split
          · split
            · exact h₁
            · exact ih h₁
          · split
            · exact h₁
            · split
              · exact h₁
              · split
                · exact h₁
                · exact h₁.setAD

theorem State.Canon.walkTable (h : s.Canon) {x t a acc forEntry carry} (hc : Carry.Canon carry) : (s.walkTable x t a acc forEntry carry).1.Canon := by
  unfold State.walkTable
  dsimp only
  split
  · exact h
  · exact h.walkTable_go hc

theorem State.Canon.dieTlbEnter (h : s.Canon) {d e} : (s.dieTlbEnter d e).Canon := h
theorem State.Canon.coreTlbEnter (h : s.Canon) {c e} : (s.coreTlbEnter c e).Canon := h

theorem Carry.Canon.throughTableTlb {die x stages} {c : Carry} (hc : c.Canon) : Carry.Canon (Machine.throughTableTlb die x stages c) := by
  intro s a acc forEntry h
  have h₁ := hc s a acc forEntry h
  unfold Machine.throughTableTlb
  split
  · exact h
  · split
    · next e =>
      have h₂ := (hc _ _ _ _ h).fst e
      refine h₂.getD ?_
      cases die with
      | none => trivial
      | some d => exact h₂.dieTlbEnter
    · exact hc _ _ _ _ h
  · exact h₁

theorem Carry.Canon.carry {vf die x ts last} : Carry.Canon (State.carry vf die x ts last) := by
  induction ts generalizing last with
  | nil =>
    intro s a acc forEntry h
    unfold State.carry
    split
    · split
      · exact h.modVf
      · split
        · exact h
        · exact h
    · exact h
    · exact h
  | cons t rest ih =>
    intro s a acc forEntry h
    have h₁ := h.walkTable (x := x) (t := t) (a := a.num) (acc := acc) (forEntry := forEntry) (Carry.Canon.throughTableTlb (die := die) (x := x) (stages := rest.length) (ih (last := none)))
    unfold State.carry
    split
    · next e => exact h₁.fst e
    · next e =>
      split
      · next e' => exact (ih _ _ _ _ (h₁.fst e)).fst e'
      · next e' => exact (ih _ _ _ _ (h₁.fst e)).fst e'

theorem State.Canon.carry (h : s.Canon) {vf die x ts last a acc forEntry} : (State.carry vf die x ts last s a acc forEntry).1.Canon :=
  Carry.Canon.carry _ _ _ _ h

theorem State.Canon.charge (h : s.Canon) {x top w} : (s.charge x top w).1.Canon := by
  unfold State.charge
  split
  · dsimp only
    split
    · split
      · exact h
      · exact h.upd rfl
    · split
      · exact h.upd rfl
      · split
        · exact h
        · split
          · exact h
          · exact h.nextFree
  · exact h

theorem State.Canon.walk (h : s.Canon) {die x va acc} : (s.walk die x va acc).1.Canon := by
  unfold State.walk
  dsimp only
  split
  · exact h
  · split
    · exact h
    · split
      · exact h.carry.fst ‹_›
      · exact h.carry.fst ‹_›
      · split <;> exact (h.carry.fst ‹_›).charge.fst ‹_›

theorem State.Canon.askHost (h : s.Canon) {vf page wr} : (s.askHost vf page wr).Canon := by
  unfold State.askHost
  dsimp only
  split
  · exact h
  · exact h.modVf

theorem State.Canon.tlbPull (h : s.Canon) {core x va acc} : (s.tlbPull core x va acc).Canon := by
  unfold State.tlbPull
  split
  · exact h
  · split
    · exact h
    · exact h.coreTlbEnter

theorem State.Canon.missAt (h : s.Canon) {core x va acc w} : (s.missAt core x va acc w).Canon := h

theorem State.Canon.translate (h : s.Canon) {core x va acc} : (s.translate core x va acc).1.Canon := by
  unfold State.translate
  split
  · exact h.tlbPull
  · exact h
  · split
    · exact h.walk.fst ‹_›
    · exact (h.walk.fst ‹_›).dieTlbEnter.coreTlbEnter

theorem State.Canon.tlbDropCtxs (h : s.Canon) {xs} : (s.tlbDropCtxs xs).Canon := h
theorem State.Canon.tlbDropOut (h : s.Canon) {f} : (s.tlbDropOut f).Canon := h

/-! ## The operations of Machine/Operands -/

theorem State.Canon.fired (h : s.Canon) {c} : (s.fired c).Canon := by
  unfold State.fired
  split
  · exact h
  · split
    · exact h.modCore.modInst
    · exact h

theorem State.Canon.sendTokens (h : s.Canon) {who form mask parts} : (s.sendTokens who form mask parts).Canon := by
  unfold State.sendTokens
  split
  · exact h
  · dsimp only
    split
    · exact h.modCtl
    · exact h.modCore

theorem State.Canon.advance (h : s.Canon) {who idx long} : (s.advance who idx long).Canon := by
  unfold State.advance
  split
  · exact h.modCtl
  · exact h

theorem State.Canon.finish (h : s.Canon) {c parts} : (s.finish c parts).Canon := h.fired.sendTokens.advance
theorem State.Canon.finishMask (h : s.Canon) {c mask parts} : (s.finishMask c mask parts).Canon := h.fired.sendTokens.advance

theorem State.Canon.faultIssue (h : s.Canon) {c f} : (s.faultIssue c f).Canon := by
  unfold State.faultIssue
  split
  · exact h.recordExit.finishMask
  · exact h.haltCtl

/-- An instruction form keeps the form when what it does for its issue does. -/
theorem State.Canon.issuing (h : s.Canon) {k : Issue → State} (hk : ∀ c, (k c).Canon) : OutCanon (issuing s k) := by
  unfold Machine.issuing
  split
  · trivial
  · split
    · exact h.finish
    · exact hk _

theorem State.Canon.setTokens (h : s.Canon) {who f} : (s.setTokens who f).Canon := by
  unfold State.setTokens
  split
  · exact h.modWarp
  · exact h.modCtl

theorem State.Canon.setJoins (h : s.Canon) {who f} : (s.setJoins who f).Canon := by
  unfold State.setJoins
  split
  · exact h.modWarp
  · exact h.modCtl

theorem State.Canon.setFlags (h : s.Canon) {who f} : (s.setFlags who f).Canon := by
  unfold State.setFlags
  split
  · exact h.modWarp
  · exact h.modCtl

theorem State.Canon.joinFlag (h : s.Canon) {who n} : (s.joinFlag who n).Canon := (h.foldl (fun _ _ h₁ => h₁.acquireActs)).setJoins
theorem State.Canon.joinToken (h : s.Canon) {who r} : (s.joinToken who r).Canon := (h.foldl (fun _ _ h₁ => h₁.acquireActs)).setTokens

/-! ## The operations of Machine/Access -/

theorem State.Canon.lateFault (h : s.Canon) {x who code lane} : (s.lateFault x who code lane).Canon := h.deliver

theorem State.Canon.checkAccess (h : s.Canon) {c space acc use n addr support overlap} : (s.checkAccess c space acc use n addr support overlap).Canon := by
  unfold State.checkAccess
  dsimp only
  split
  · exact trivial
  · split
    · split
      · exact trivial
      · split
        · exact trivial
        · split
          · exact trivial
          · exact h
    · split
      · exact trivial
      · split
        · split
          · split
            · exact trivial
            · split
              · exact trivial
              · exact h
          · split
            · exact trivial
            · split
              · exact trivial
              · exact h
        · split
          · exact trivial
          · split
            · exact trivial
            · exact h
    · split
      · exact trivial
      · split
        · refine State.Canon.foldl h fun _ _ h₁ => ?_
          split
          · exact h₁
          · exact h₁.missAt
        · split
          · exact trivial
          · split
            · exact trivial
            · exact h.foldl fun _ _ h₁ => h₁.tlbPull

theorem State.Canon.modPend (h : s.Canon) {who idx f} : (s.modPend who idx f).Canon := by
  unfold State.modPend
  split
  · exact h.modInst
  · exact h.modCtl

theorem State.Canon.addPend (h : s.Canon) {who q} : (s.addPend who q).Canon := by
  unfold State.addPend
  split
  · exact h.modInst
  · exact h.modCtl

theorem State.Canon.dropPend (h : s.Canon) {who idx} : (s.dropPend who idx).Canon := by
  unfold State.dropPend
  split
  · exact h.modInst
  · exact h.modCtl

theorem State.Canon.setGot (h : s.Canon) {who idx lane v} : (s.setGot who idx lane v).Canon := h.modPend
theorem State.Canon.setSent (h : s.Canon) {who idx lane} : (s.setSent who idx lane).Canon := h.modPend

theorem State.Canon.takeOrd (h : s.Canon) {core cls} : (s.takeOrd core cls).1.Canon := by
  unfold State.takeOrd
  split
  · exact h.modCore
  · exact h

theorem State.Canon.readAhead (h : s.Canon) {core x cls va} : (s.readAhead core x cls va).Canon := by
  unfold State.readAhead
  split
  · exact h
  · dsimp only
    refine State.Canon.nextFree ?_
    refine State.Canon.foldl h fun _ _ h₁ => ?_
    split
    · exact h₁
    · split
      · exact h₁
      · split
        · exact h₁.askDcu
        · exact h₁

theorem State.Canon.prefAsk (h : s.Canon) {core x cls va p} : (s.prefAsk core x cls va p).Canon := by
  unfold State.prefAsk
  split
  · exact h.askDcu.readAhead
  · exact h

theorem State.Canon.tryLoad (h : s.Canon) {who idx cls acq l} : (s.tryLoad who idx cls acq l).Canon := by
  unfold State.tryLoad
  split
  · exact h
  · dsimp only
    split
    · split
      · exact h.homeRead.setGot
      · split
        · exact h
        · exact h.send.setSent
    · split
      · exact h.homeRead.setGot
      · split
        · exact h
        · exact h.send.setSent
    · exact h
    · split
      · split
        · exact h
        · split
          · exact h.modCore.sense.setGot
          · split
            · exact h.setGot
            · split
              · exact h
              · exact h.askDcu.readAhead
      · split
        · exact h
        · refine State.Canon.setSent ?_
          refine State.Canon.send ?_
          refine State.Canon.takeOrd ?_
          split
          · exact h.dieFlush
          · exact h.dieFlush
          · exact h
    · split
      · split
        · exact h
        · split
          · exact h.modCore.sense.setGot
          · split
            · exact h.setGot
            · split
              · exact h
              · exact h.askDcu.readAhead
      · split
        · exact h
        · refine State.Canon.setSent ?_
          refine State.Canon.send ?_
          refine State.Canon.takeOrd ?_
          split
          · exact h.dieFlush
          · exact h.dieFlush
          · exact h

/-! ## The operations of Machine/Flags -/

theorem State.Canon.bindOp (h : s.Canon) {who flag tok scope} : (s.bindOp who flag tok scope).Canon := by
  unfold State.bindOp
  dsimp only
  split
  · split
    · exact h
    · exact h.setFlags.setJoins
  · refine State.Canon.setTokens ?_
    split
    · exact h
    · exact h.setFlags.setJoins

theorem State.Canon.writeToken (h : s.Canon) {who r v} : (s.writeToken who r v).Canon := by
  unfold State.writeToken
  split
  · exact h.modWarp
  · exact h.modCtl

theorem State.Canon.completeOp (h : s.Canon) {o status} : (s.completeOp o status).Canon := by
  unfold State.completeOp
  split
  · exact h
  · dsimp only
    split
    · split
      · exact h
      · exact h.writeToken.setTokens
    · refine State.Canon.setFlags ?_
      split
      · exact h
      · exact h.writeToken.setTokens

/-! ## The operations of Machine/Handover -/

theorem State.Canon.flushPosted (h : s.Canon) {vf} : (s.flushPosted vf).Canon := h

theorem State.Canon.flushPages (h : s.Canon) {vf page n} : (s.flushPages vf page n).Canon :=
  (h.foldl (fun _ _ h₁ => h₁.foldl (fun _ _ h₂ => h₂.dieFlush))).flushPosted

theorem State.Canon.handBegin (h : s.Canon) {vf toHost page n} : (s.handBegin vf toHost page n).Canon := by
  unfold State.handBegin
  dsimp only
  refine State.Canon.flushPages ?_
  refine State.Canon.tlbDropOut ?_
  split
  · exact h.modVf
  · exact h

theorem State.Canon.handMore (h : s.Canon) {vf toHost page n} : (s.handMore vf toHost page n).Canon := by
  unfold State.handMore
  split
  · exact h.flushPages
  · exact h

theorem State.Canon.handEnd (h : s.Canon) {vf toHost page n} : (s.handEnd vf toHost page n).1.Canon := by
  unfold State.handEnd
  split
  · exact h.modVf
  · split
    · exact h
    · exact h.modVf

theorem State.Canon.handReport (h : s.Canon) {vf a0 code} : (s.handReport vf a0 code).Canon := by
  unfold State.handReport
  dsimp only
  split
  · exact h.hostWrite.msix
  · exact h.hostWrite

theorem State.Canon.handGone (h : s.Canon) {vf a0} : (s.handGone vf a0).Canon := h

theorem State.Canon.handStep (h : s.Canon) {vf a0} : (s.handStep vf a0).Canon := by
  unfold State.handStep
  dsimp only
  split
  · split
    · exact h.handMore
    · exact h.handMore.handEnd.handGone.handReport
  · split
    · exact h
    · split
      · exact h.handGone.handReport
      · split
        · exact h.handBegin.modVf.handMore
        · exact h.handBegin.modVf.handMore.handEnd.handGone.handReport

theorem State.Canon.handPoll (h : s.Canon) {vf} : (s.handPoll vf).Canon := h.foldl (fun _ _ h₁ => h₁.handStep)

theorem State.Canon.handPollAll (h : s.Canon) : s.handPollAll.Canon := by
  unfold State.handPollAll
  refine State.Canon.foldl h fun _ _ h₁ => ?_
  split
  · exact h₁
  · exact h₁.handPoll

theorem State.Canon.invalPoll (h : s.Canon) : s.invalPoll.Canon := by
  unfold State.invalPoll
  refine State.Canon.foldl h fun _ _ h₁ => ?_
  dsimp only
  split
  · split
    · exact h₁.foldl fun _ _ h₂ => h₂.flushPages.modVf
    · exact (h₁.foldl (fun _ _ h₂ => h₂.flushPages.modVf)).modVf
  · split
    · exact h₁.foldl fun _ _ h₂ => h₂.flushPages.modVf
    · exact (h₁.foldl (fun _ _ h₂ => h₂.flushPages.modVf)).modVf

theorem State.Canon.postpone (h : s.Canon) {vf i} : (s.postpone vf i).Canon := h
theorem State.Canon.hostPoll (h : s.Canon) : s.hostPoll.Canon := h.handPollAll.invalPoll

/-! ## The operations of Machine/Mail -/

theorem State.Canon.mailAcquire (h : s.Canon) {core m} : (s.mailAcquire core m).Canon := by
  unfold State.mailAcquire
  split
  · exact h
  · exact h.acquireActs

theorem State.Canon.applyMailbox (h : s.Canon) {core slot} : (s.applyMailbox core slot).Canon := by
  unfold State.applyMailbox
  dsimp only
  split
  · exact h
  · exact h.modCore.foldl fun _ _ h₁ => h₁.mailAcquire

theorem State.Canon.mailArrive (h : s.Canon) {core slot reg lane vals src rel} : OptCanon (s.mailArrive core slot reg lane vals src rel) := by
  unfold State.mailArrive
  split
  · split
    · exact trivial
    · dsimp only
      split
      · exact h.modCore.applyMailbox
      · exact h.modCore
  · split
    · exact trivial
    · dsimp only
      split
      · exact h.modCore.applyMailbox
      · exact h.modCore

/-! ## The operations of Machine/Teams -/

theorem State.Canon.settleBar (h : s.Canon) {core tid} : (s.settleBar core tid).Canon := by
  unfold State.settleBar
  split
  · exact h
  · split
    · exact h.modCore.modTeam
    · exact h

theorem State.Canon.arriveBar (h : s.Canon) {core slot tid} : (s.arriveBar core slot tid).Canon := h.modWarp.modTeam.settleBar
theorem State.Canon.modGrid (h : s.Canon) {x q seq f} : (s.modGrid x q seq f).Canon := h
theorem State.Canon.leaveGbar (h : s.Canon) {x core slot} : (s.leaveGbar x core slot).Canon := h

theorem State.Canon.settleGbar (h : s.Canon) {x q seq gang} : (s.settleGbar x q seq gang).Canon := by
  unfold State.settleGbar
  split
  · exact h
  · dsimp only
    split
    · exact (h.foldl (fun _ _ h₁ => h₁.leaveGbar)).modGrid
    · exact h

theorem State.Canon.arriveGbar (h : s.Canon) {core slot t} : (s.arriveGbar core slot t).Canon := h.modWarp.modGrid.settleGbar

theorem State.Canon.modNBar (h : s.Canon) {core tid b f} : (s.modNBar core tid b f).Canon := by
  unfold State.modNBar
  split
  · exact h
  · split
    · exact h
    · dsimp only
      split
      · exact h.modTeam.modCtx
      · exact h.modTeam

theorem State.Canon.settleTeam (h : s.Canon) {core t} : (s.settleTeam core t).Canon := h.foldl (fun _ _ h₁ => h₁.modNBar)
theorem State.Canon.settleLeaves (h : s.Canon) {core} : (s.settleLeaves core).Canon := h.foldl (fun _ _ h₁ => h₁.settleTeam)

theorem State.Canon.pass (h : s.Canon) {dt} : (s.pass dt).Canon := by
  unfold State.pass
  dsimp only
  split
  · exact h.upd rfl
  · exact (h.upd (by rfl)).foldl fun _ _ h₁ => h₁.settleLeaves

theorem State.Canon.leaveAll (h : s.Canon) {core tid p} : (s.leaveAll core tid p).Canon := by
  unfold State.leaveAll
  split
  · exact h
  · exact h.foldl fun _ _ h₁ => h₁.modNBar

theorem State.Canon.endWarp (h : s.Canon) {core slot} : (s.endWarp core slot).Canon := by
  unfold State.endWarp
  split
  · exact h
  · dsimp only
    split
    · exact (h.dropReserves.leaveAll.upd (by rfl)).settleBar
    · split
      · exact (h.dropReserves.leaveAll.upd (by rfl)).settleBar
      · exact (h.dropReserves.leaveAll.upd (by rfl)).settleBar.modGrid.settleGbar

/-! ## Engine computations -/

theorem EngCanon.pure {α : Type} {a : α} : EngCanon (Pure.pure a : EngM α) := fun _ h => h
theorem EngCanon.throw {α : Type} {e : EngStop} : EngCanon (MonadExcept.throw e : EngM α) := fun _ h => h

/-! ## The operations of Machine/Engines -/

theorem EngCanon.engFault {α : Type} {code addr} : EngCanon (Machine.engFault code addr : EngM α) := EngCanon.throw
theorem EngCanon.modifyState {f : State → State} (hf : ∀ s, s.Canon → (f s).Canon) : EngCanon (modify f : EngM Unit) := fun s h => hf s h
theorem EngCanon.set (h : t.Canon) : EngCanon (MonadStateOf.set t : EngM PUnit) := fun _ _ => h

theorem EngCanon.bind {α β : Type} {m : EngM α} {k : α → EngM β} (hm : EngCanon m) (hk : ∀ a, EngCanon (k a)) : EngCanon (m >>= k) := by
  intro s h
  have hs : (m s).2.Canon := hm s h
  change (ExceptT.bindCont k (m s).1 (m s).2).2.Canon
  cases (m s).1 with
  | ok a => exact hk a _ hs
  | error e => exact hs

theorem EngCanon.get_bind {β : Type} {k : State → EngM β} (hk : ∀ s, s.Canon → EngCanon (k s)) : EngCanon (get >>= k) := fun s h => hk s h s h
theorem EngCanon.engMod {f : State → State} (hf : ∀ s, s.Canon → (f s).Canon) : EngCanon (Machine.engMod f) := EngCanon.modifyState hf

theorem EngCanon.engLoop {body : Nat → EngM Unit} {n i : Nat} (hb : ∀ i, EngCanon (body i)) : EngCanon (Machine.engLoop body n i) := by
  induction n generalizing i with
  | zero => exact EngCanon.pure
  | succ n ih => exact EngCanon.bind (hb i) fun _ => ih

theorem EngCanon.engMap {α β : Type} {f : α → EngM β} {l : List α} (hf : ∀ a, EngCanon (f a)) : EngCanon (Machine.engMap f l) := by
  induction l with
  | nil => exact EngCanon.pure
  | cons a t ih => exact EngCanon.bind (hf a) fun _ => EngCanon.bind ih fun _ => EngCanon.pure

/-- Running a computation from a state in canonical form leaves one. -/
theorem State.Canon.go (h : s.Canon) {α : Type} {m : EngM α} (hm : EngCanon m) : (m.go s).2.Canon := hm s h

theorem EngCanon.engPlace {core o va acc} : EngCanon (engPlace core o va acc) := by
  unfold Machine.engPlace
  refine EngCanon.get_bind fun _ h₁ => ?_
  dsimp only
  split
  · exact .bind (.set h₁.tlbPull) fun _ => .pure
  · exact .throw
  · exact .bind (.set h₁.missAt) fun _ => .throw

theorem EngCanon.engAt {core o space addr n write} : EngCanon (engAt core o space addr n write) := by
  unfold Machine.engAt
  split
  · exact EngCanon.engPlace
  · refine EngCanon.get_bind fun _ h₁ => ?_
    split
    · exact .pure
    · exact EngCanon.engFault
  · refine EngCanon.get_bind fun _ h₁ => ?_
    split
    · exact .pure
    · exact EngCanon.engFault

theorem State.Canon.putSaved (h : s.Canon) {core o a bs} : (s.putSaved core o a bs).Canon := h

theorem EngCanon.engSaved {core o space addr n} : EngCanon (engSaved core o space addr n) := by
  unfold Machine.engSaved
  refine EngCanon.get_bind fun _ h₁ => ?_
  split
  · exact .pure
  · split
    · exact .pure
    · split
      · exact .pure
      · exact EngCanon.engFault

theorem State.Canon.engGet (h : s.Canon) {core by_ p n} : (s.engGet core by_ p n).1.Canon := by
  unfold State.engGet
  dsimp only
  refine State.Canon.homeRead ?_
  split
  · exact h.dieClean
  · exact h.dieClean
  · exact h

theorem State.Canon.engPut (h : s.Canon) {core p bs src} : OptCanon (s.engPut core p bs src) := by
  unfold State.engPut
  split
  · exact h.dieFlush.homePoke
  · exact h.dieFlush.homePoke.posted
  · exact h.pokeN.posted
  · exact h.mailArrive
  · exact h.homePoke

theorem EngCanon.engRead {core o space addr n} : EngCanon (engRead core o space addr n) := by
  unfold Machine.engRead
  refine EngCanon.bind EngCanon.engSaved fun _ => ?_
  split
  · exact .pure
  · exact .bind (.engMap (fun _ => .bind .engAt (fun _ => .get_bind (fun _ h₁ => .bind (.set h₁.engGet) (fun _ => .pure))))) fun _ => .pure

theorem EngCanon.engWrite {core o space addr bs} : EngCanon (engWrite core o space addr bs) := by
  unfold Machine.engWrite
  refine EngCanon.bind EngCanon.engSaved fun _ => ?_
  split
  · exact .engMod fun _ h₁ => h₁.putSaved
  · dsimp only
    refine EngCanon.bind ?_ (fun _ => EngCanon.pure)
    refine EngCanon.engMap fun _ => ?_
    refine EngCanon.bind EngCanon.engAt fun _ => ?_
    refine EngCanon.get_bind fun _ h₁ => ?_
    split
    · exact .throw
    · exact .set (h₁.engPut.some ‹_›)

theorem EngCanon.engBlock {core o addr} : EngCanon (engBlock core o addr) := EngCanon.bind EngCanon.engRead (fun _ => EngCanon.pure)

theorem EngCanon.engAcc {space addr width} : EngCanon (engAcc space addr width) := by
  unfold Machine.engAcc
  split
  · exact EngCanon.engFault
  · exact .pure

theorem EngCanon.engOut {core o e} : EngCanon (engOut core o e) := by
  unfold Machine.engOut
  split
  · exact EngCanon.engWrite
  · exact .bind .engRead fun _ => .engWrite
  · exact .engMod fun _ h => h.setWgt fun w => Mem.wf_setBytes _ w _ _
  · exact .engMod fun _ h => h.setScl fun w => Mem.wf_setBytes _ w _ _
  · exact .engMod fun _ h => h.modOp

theorem EngCanon.moveOut {core o outs} : EngCanon (moveOut core o outs) := by
  unfold Machine.moveOut
  refine EngCanon.bind (EngCanon.engMod (fun _ h₁ => h₁.modOp)) fun _ => ?_
  split
  · exact .pure
  · exact .bind .engOut fun _ => .engMod fun _ h₁ => h₁.modOp

theorem EngCanon.moveIn {core o work read} (hr : ∀ u, EngCanon (read u)) : EngCanon (moveIn core o work read) := by
  unfold Machine.moveIn
  refine EngCanon.bind (EngCanon.engMod fun _ h => h.modOp) fun _ => ?_
  split
  · exact .pure
  · exact .bind (hr _) fun _ => .engMod fun _ h => h.modOp

theorem EngCanon.engMove {core o read} (hr : ∀ u, EngCanon (read u)) : EngCanon (engMove core o read) := by
  unfold Machine.engMove
  refine EngCanon.get_bind fun s h => ?_
  dsimp only
  refine EngCanon.bind (EngCanon.engMod fun _ h => h.upd (by rfl)) fun _ => ?_
  split
  · exact EngCanon.moveOut
  · split
    · exact EngCanon.moveIn hr
    · split
      · exact EngCanon.moveOut
      · exact EngCanon.moveIn hr

theorem EngCanon.engCheck {core o space addr n write} : EngCanon (engCheck core o space addr n write) := by
  unfold Machine.engCheck
  split
  · exact .pure
  · refine EngCanon.get_bind fun _ h₁ => ?_
    split
    · exact .pure
    · split
      · exact .pure
      · exact EngCanon.engFault
  · refine EngCanon.get_bind fun _ h₁ => ?_
    split
    · exact .pure
    · exact EngCanon.engFault

theorem EngCanon.engCross {space addr n} : EngCanon (engCross space addr n) := by
  unfold Machine.engCross
  dsimp only
  split
  · exact EngCanon.engFault
  · exact .pure

theorem EngCanon.prepCopy {core o} : EngCanon (prepCopy core o) := by
  unfold Machine.prepCopy
  dsimp only
  split
  · split
    · exact .pure
    · split
      · exact .pure
      · exact .bind .engCross fun _ => .bind .engCross fun _ => .bind (.engLoop (fun _ => .bind .engCheck (fun _ => .engCheck))) fun _ =>
          .get_bind fun _ h₁ => .pure
  · split
    · exact .pure
    · split
      · exact .pure
      · exact .bind .engCross fun _ => .bind .engCross fun _ => .bind (.engLoop (fun _ => .bind .engCheck (fun _ => .engCheck))) fun _ =>
          .get_bind fun _ h₁ => .pure

theorem EngCanon.readCopy {core o u} : EngCanon (readCopy core o u) := EngCanon.bind EngCanon.engRead (fun _ => EngCanon.pure)

theorem EngCanon.prepFill {core o sz} : EngCanon (prepFill core o sz) := by
  unfold Machine.prepFill
  dsimp only
  split
  · exact .pure
  · refine EngCanon.bind EngCanon.engCross fun _ => ?_
    split
    · exact .bind .engAcc fun _ => .bind .engCheck fun _ => .pure
    · exact .bind .engCheck fun _ => .pure

theorem EngCanon.readFill {o sz u} : EngCanon (readFill o sz u) := EngCanon.pure

theorem EngCanon.checkTensor {core o t scales write} : EngCanon (checkTensor core o t scales write) := by
  unfold Machine.checkTensor
  refine EngCanon.bind EngCanon.engCross fun _ => ?_
  refine EngCanon.engLoop fun _ => ?_
  dsimp only
  refine EngCanon.bind EngCanon.engCheck fun _ => ?_
  split
  · exact EngCanon.engCheck
  · exact .pure

theorem EngCanon.checkSwizzle {core o t} : EngCanon (checkSwizzle core o t) := by
  unfold Machine.checkSwizzle
  refine EngCanon.get_bind fun _ h₁ => ?_
  dsimp only
  split
  · split
    · exact EngCanon.engFault
    · exact .pure
  · split
    · exact EngCanon.engFault
    · exact .pure

theorem EngCanon.readElem {core o t i} : EngCanon (readElem core o t i) := by
  unfold Machine.readElem
  split
  exact .bind .engRead fun _ => .pure

theorem EngCanon.readDesc {core o n k} : EngCanon (readDesc core o n k) := by
  unfold Machine.readDesc
  split
  · exact .pure
  · dsimp only
    split
    · exact .bind .engFault fun _ => .bind .engBlock fun _ => .bind (.engMod (fun _ h₁ => h₁.modOp)) fun _ => .pure
    · exact .bind .engBlock fun _ => .bind (.engMod (fun _ h₁ => h₁.modOp)) fun _ => .pure

theorem EngCanon.prepTcopy {core o} : EngCanon (prepTcopy core o) := by
  unfold Machine.prepTcopy
  split
  · exact .pure
  · refine EngCanon.bind EngCanon.readDesc fun _ => ?_
    refine EngCanon.bind EngCanon.readDesc fun _ => ?_
    dsimp only
    split
    · exact .pure
    · split
      · exact .pure
      · exact .bind .checkSwizzle fun _ => .bind .checkSwizzle fun _ => .bind .checkTensor fun _ => .bind .checkTensor fun _ =>
          .get_bind fun _ h₁ => .pure

theorem EngCanon.srcScale {core o t i} : EngCanon (srcScale core o t i) := by
  unfold Machine.srcScale
  split
  · exact .bind .engRead fun _ => .pure
  · exact .pure

theorem EngCanon.blockOuts {core o a b i} : EngCanon (blockOuts core o a b i) := by
  unfold Machine.blockOuts
  dsimp only
  refine EngCanon.bind (EngCanon.engMap (fun _ => EngCanon.readElem)) fun _ => ?_
  refine EngCanon.bind EngCanon.srcScale fun _ => ?_
  split <;> exact EngCanon.pure

theorem EngCanon.readTcopy {core o u} : EngCanon (readTcopy core o u) := by
  unfold Machine.readTcopy
  dsimp only
  split
  · exact .bind .blockOuts fun _ => .pure
  · exact .bind .readElem fun _ => .bind .srcScale fun _ => .pure

theorem EngCanon.prepGather {core o} : EngCanon (prepGather core o) := by
  unfold Machine.prepGather
  dsimp only
  split
  · exact .pure
  · refine EngCanon.bind EngCanon.readDesc fun _ => ?_
    split
    · exact .pure
    · refine EngCanon.bind EngCanon.checkSwizzle fun _ => ?_
      refine EngCanon.bind EngCanon.checkTensor fun _ => ?_
      refine EngCanon.bind EngCanon.engCross fun _ => ?_
      split
      · exact .bind .engAcc fun _ => .bind .engCheck fun _ => .get_bind fun _ h₁ => .pure
      · exact .bind .engCheck fun _ => .get_bind fun _ h₁ => .pure

theorem EngCanon.readGather {core o u} : EngCanon (readGather core o u) := by
  unfold Machine.readGather
  dsimp only
  split
  · refine EngCanon.bind EngCanon.engRead fun _ => ?_
    split
    · exact .bind (.engMod (fun _ h₁ => h₁.modOp)) fun _ => .pure
    · exact .pure
  · split
    · refine EngCanon.bind ?_ (fun _ => EngCanon.pure)
      refine EngCanon.engMap fun _ => ?_
      split
      · exact EngCanon.readElem
      · exact .pure
    · exact .bind .engRead fun _ => .pure

theorem EngCanon.firnRead {firn core o addr n} : EngCanon (firnRead firn core o addr n) := by
  unfold Machine.firnRead
  refine EngCanon.bind ?_ (fun _ => EngCanon.pure)
  refine EngCanon.engMap fun _ => ?_
  dsimp only
  split
  · refine EngCanon.bind EngCanon.engPlace fun _ => ?_
    refine EngCanon.get_bind fun _ h₁ => ?_
    split
    · exact .bind (.engMod (fun _ h₂ => h₂.modFirn)) fun _ => .throw
    · exact .get_bind fun _ h₂ => .bind (.set h₂.engGet) fun _ => .pure
  · refine EngCanon.get_bind fun _ h₁ => ?_
    split
    · exact .bind (.engMod (fun _ h₂ => h₂.modFirn)) fun _ => .throw
    · exact .get_bind fun _ h₂ => .bind (.set h₂.engGet) fun _ => .pure

theorem EngCanon.regBarrier {core team b p} : EngCanon (regBarrier core team b p) := by
  unfold Machine.regBarrier
  refine EngCanon.get_bind fun _ h₁ => ?_
  split
  · exact .pure
  · exact .bind (.set h₁.modNBar) fun _ => .pure

theorem EngCanon.prepIstream {core o} : EngCanon (prepIstream core o) := by
  unfold Machine.prepIstream
  dsimp only
  refine EngCanon.get_bind fun _ h₁ => ?_
  split
  · split
    · split
      · exact .pure
      · refine EngCanon.bind EngCanon.engCheck fun _ => ?_
        split
        · exact .bind .regBarrier fun _ => .pure
        · exact .pure
    · split
      · exact .pure
      · refine EngCanon.bind EngCanon.engCheck fun _ => ?_
        split
        · exact .bind .regBarrier fun _ => .pure
        · exact .pure
  · split
    · split
      · exact .pure
      · refine EngCanon.bind EngCanon.engCheck fun _ => ?_
        split
        · exact .bind .regBarrier fun _ => .pure
        · exact .pure
    · split
      · exact .pure
      · refine EngCanon.bind EngCanon.engCheck fun _ => ?_
        split
        · exact .bind .regBarrier fun _ => .pure
        · exact .pure

theorem EngCanon.readIstream {core o u} : EngCanon (readIstream core o u) := by
  unfold Machine.readIstream
  refine EngCanon.bind EngCanon.engPlace fun _ => ?_
  refine EngCanon.get_bind fun _ h₁ => ?_
  dsimp only
  split <;> exact EngCanon.bind EngCanon.firnRead (fun _ => EngCanon.pure)

theorem EngCanon.readHandoff {core o u} : EngCanon (readHandoff core o u) := by
  unfold Machine.readHandoff
  refine EngCanon.bind EngCanon.engPlace fun _ => ?_
  dsimp only
  split
  · exact .bind (.engMod (fun _ h₁ => h₁.modOp)) fun _ => .pure
  · split
    · exact .bind (.engMod (fun _ h₁ => h₁.modOp)) fun _ => .pure
    · split
      · exact .bind (.engMod (fun _ h₁ => h₁.modOp)) fun _ => .pure
      · exact .pure

/-- A conditional step before the rest of a computation. -/
theorem EngCanon.iteBind {p : Prop} [Decidable p] {β : Type} {m : EngM Unit} {k : Unit → EngM β} (hm : EngCanon m) (hk : ∀ a, EngCanon (k a)) :
    EngCanon (if p then m >>= k else k ()) := by
  split
  · exact .bind hm hk
  · exact hk ()

theorem EngCanon.runHandoff {core o toHost} : EngCanon (Machine.runHandoff core o toHost) := by
  unfold Machine.runHandoff
  refine EngCanon.get_bind fun s h => ?_
  extract_lets vf page fresh report finish more start
  have hreport : ∀ code, EngCanon (report code) := fun code =>
    EngCanon.iteBind EngCanon.engWrite fun _ => EngCanon.bind (EngCanon.engMod fun _ h₁ => by
      split
      · exact h₁.msix
      · exact h₁) fun _ => EngCanon.pure
  have hfinish : ∀ u, EngCanon (finish u) := fun _ =>
    EngCanon.get_bind fun _ h₁ => EngCanon.bind (EngCanon.set h₁.handEnd.modOp) fun _ => hreport _
  have hmore : ∀ u, EngCanon (more u) := fun _ => by
    dsimp only [more]
    split
    · exact hreport _
    · exact .bind (.engMod fun _ h₁ => h₁.handMore) fun _ => .get_bind fun _ _ =>
        EngCanon.iteBind EngCanon.throw hfinish
  have hstart : ∀ u, EngCanon (start u) := fun _ => by
    refine EngCanon.get_bind fun s h₁ => ?_
    extract_lets early refusal begin_ check
    clear_value refusal
    have hbegin : ∀ u, EngCanon (begin_ u) := by
      intro _
      dsimp only [begin_]
      split
      · exact hreport _
      · exact .iteBind (.engMod fun _ h₂ => h₂.handBegin.modOp) hmore
    exact .iteBind (.set h₁.modOp) fun _ => .iteBind .throw hbegin
  split
  · exact .pure
  · split
    · exact .bind .engPlace fun _ => hstart ()
    · exact hstart ()

/-! ## The operations of Machine/Streams -/

theorem State.Canon.putGen (h : s.Canon) {core g x} : (s.putGen core g x).Canon := h

theorem EngCanon.prepStream {core o} : EngCanon (prepStream core o) := by
  unfold Machine.prepStream
  refine EngCanon.get_bind fun _ h₁ => ?_
  dsimp only
  split
  · split
    · exact .pure
    · split
      · exact .throw
      · refine EngCanon.bind EngCanon.readDesc fun _ => ?_
        split
        · exact .pure
        · refine EngCanon.bind EngCanon.checkSwizzle fun _ => ?_
          refine EngCanon.bind EngCanon.checkTensor fun _ => ?_
          split
          · refine EngCanon.bind EngCanon.engCheck fun _ => ?_
            split
            · exact .bind .regBarrier fun _ => .bind (.engMod (fun _ h₂ => h₂.putGen)) fun _ => .pure
            · exact .bind .pure fun _ => .bind (.engMod (fun _ h₂ => h₂.putGen)) fun _ => .pure
          · split
            · exact .bind .regBarrier fun _ => .bind (.engMod (fun _ h₂ => h₂.putGen)) fun _ => .pure
            · exact .bind .pure fun _ => .bind (.engMod (fun _ h₂ => h₂.putGen)) fun _ => .pure
  · split
    · exact .pure
    · split
      · exact .throw
      · refine EngCanon.bind EngCanon.readDesc fun _ => ?_
        split
        · exact .pure
        · refine EngCanon.bind EngCanon.checkSwizzle fun _ => ?_
          refine EngCanon.bind EngCanon.checkTensor fun _ => ?_
          split
          · refine EngCanon.bind EngCanon.engCheck fun _ => ?_
            split
            · exact .bind .regBarrier fun _ => .bind (.engMod (fun _ h₂ => h₂.putGen)) fun _ => .pure
            · exact .bind .pure fun _ => .bind (.engMod (fun _ h₂ => h₂.putGen)) fun _ => .pure
          · split
            · exact .bind .regBarrier fun _ => .bind (.engMod (fun _ h₂ => h₂.putGen)) fun _ => .pure
            · exact .bind .pure fun _ => .bind (.engMod (fun _ h₂ => h₂.putGen)) fun _ => .pure

theorem EngCanon.readStream {core o j u} : EngCanon (readStream core o j u) := by
  unfold Machine.readStream
  dsimp only
  split
  · refine EngCanon.bind ?_ ?_
    · refine EngCanon.engMap fun _ => ?_
      split
      · exact EngCanon.readElem
      · exact .pure
    · intro _
      split <;> exact EngCanon.pure
  · split
    · exact .bind .pure fun _ => .pure
    · exact .bind .engRead fun _ => .pure

theorem State.Canon.modStreamChan (h : s.Canon) {core o f} : (s.modStreamChan core o f).Canon := h

theorem EngCanon.beginUnit {core o j} : EngCanon (beginUnit core o j) := by
  unfold Machine.beginUnit
  dsimp only
  split
  · refine EngCanon.get_bind fun _ h₁ => ?_
    split
    · exact .throw
    · exact .engMod fun _ h₂ => h₂.modStreamChan.modOp
  · exact .engMod fun _ h₁ => h₁.modOp

theorem EngCanon.endUnit {core o j} : EngCanon (endUnit core o j) := by
  unfold Machine.endUnit
  dsimp only
  split
  · refine EngCanon.get_bind fun _ h₁ => ?_
    split
    · exact .bind .throw fun _ => .engMod fun _ h₂ => h₂.modOp
    · exact .bind (.engMod (fun _ h₂ => h₂.modStreamChan.modOp)) fun _ => .engMod fun _ h₂ => h₂.modOp
  · exact .engMod fun _ h₁ => h₁.modOp

theorem State.Canon.streamArrive (h : s.Canon) {core o} : (s.streamArrive core o).Canon := by
  unfold State.streamArrive
  split
  · exact h.modNBar
  · exact h

theorem EngCanon.prepMxfeeds {core o} : EngCanon (prepMxfeeds core o) := by
  unfold Machine.prepMxfeeds
  refine EngCanon.get_bind fun _ h₁ => ?_
  dsimp only
  split
  · exact .pure
  · split
    · exact EngCanon.engFault
    · split
      · exact .throw
      · exact .bind .engCheck fun _ => .bind .engCheck fun _ => .bind (.engMod (fun _ h₂ => h₂.putGen)) fun _ => .pure

theorem EngCanon.moveRow {core o j} : EngCanon (moveRow core o j) := by
  unfold Machine.moveRow
  dsimp only
  refine EngCanon.get_bind fun _ h₁ => ?_
  split
  · exact .throw
  · exact .bind .engRead fun _ => .bind .engRead fun _ => .engMod fun _ h₂ => h₂.modCore

/-! ## The operations of Machine/MxOps -/

theorem State.Canon.finishOp (h : s.Canon) {core id code} : (s.finishOp core id code).Canon := by
  unfold State.finishOp
  split
  · exact h
  · dsimp only
    refine State.Canon.completeOp ?_
    split
    · exact State.Canon.upd (s := List.foldl _ _ _) (h.foldl fun _ _ h₁ => h₁.leaveAll) rfl
    · exact h.upd rfl

theorem State.Canon.haltOp (h : s.Canon) {core id f} : (s.haltOp core id f).Canon := by
  unfold State.haltOp
  split
  · exact h
  · exact h.modCore.deliver

theorem State.Canon.clearPath (h : s.Canon) {core} : (s.clearPath core).Canon :=
  (((h.setWgt fun w => Mem.wf_clear _ w _ _).setScl fun w => Mem.wf_clear _ w _ _).setAcc fun w => Mem.wf_clear _ w _ _).modCore

theorem EngCanon.prepMxload {core o} : EngCanon (prepMxload core o) := by
  unfold Machine.prepMxload
  split
  · exact .pure
  · exact .bind .engCross fun _ => .bind .engCross fun _ => .bind .engCheck fun _ => .bind .engCheck fun _ => .pure

theorem EngCanon.loadByte {core o space addr} : EngCanon (loadByte core o space addr) := by
  unfold Machine.loadByte
  split
  · exact .bind .engRead fun _ => .pure
  · exact EngCanon.engRead

theorem EngCanon.readMxload {core o u} : EngCanon (readMxload core o u) := by
  unfold Machine.readMxload
  dsimp only
  split <;> exact EngCanon.bind EngCanon.loadByte (fun _ => EngCanon.pure)

theorem State.Canon.markLoaded (h : s.Canon) {core o} : (s.markLoaded core o).Canon := h

theorem EngCanon.prepMxmul {core o} : EngCanon (prepMxmul core o) := by
  unfold Machine.prepMxmul
  refine EngCanon.get_bind fun _ h₁ => ?_
  dsimp only
  split
  · split
    · exact .pure
    · exact .bind .regBarrier fun _ => .pure
  · split <;> exact EngCanon.pure

theorem State.Canon.setAcc32 (h : s.Canon) {core i v} : (s.setAcc core i v).Canon := h.setAcc fun w => Mem.wf_setBytes _ w _ _

theorem State.Canon.addBlock (h : s.Canon) {core r a i} : (s.addBlock core r a i).Canon := by
  refine State.Canon.modCore (State.Canon.foldl h fun _ _ h₁ => State.Canon.foldl h₁ fun _ _ h₂ => h₂.setAcc32)

theorem State.Canon.zeroRows (h : s.Canon) {core a r0 n} : (s.zeroRows core a r0 n).Canon := h.setAcc fun w => Mem.wf_clear _ w _ _

/-! ## The operations of Machine/CollOps -/

theorem State.Canon.modComm (h : s.Canon) {p f} : (s.modComm p f).Canon := h
theorem State.Canon.modHandle (h : s.Canon) {x a0 f} : (s.modHandle x a0 f).Canon := h

theorem State.Canon.enterComm (h : s.Canon) {key nranks rank members who} : (s.enterComm key nranks rank members who).2.Canon := by
  unfold State.enterComm
  dsimp only
  split
  · exact h.modComm
  · exact h.upd rfl

theorem State.Canon.modLink (h : s.Canon) {port f} : (s.modLink port f).Canon := h

theorem State.Canon.sendFlits (h : s.Canon) {x ch l} : (s.sendFlits x ch l).Canon := by
  unfold State.sendFlits
  split
  · exact h
  · exact h.modLink

theorem State.Canon.tellPeers (h : s.Canon) {m ch to_ l} : (s.tellPeers m ch to_ l).Canon := by
  unfold State.tellPeers
  split
  · exact h
  · exact h.foldl fun _ _ h₁ => h₁.sendFlits

theorem State.Canon.tellDecisions (h : s.Canon) {s1 k} : (s.tellDecisions s1 k).Canon := by
  unfold State.tellDecisions
  refine State.Canon.foldl h fun _ _ h₂ => ?_
  split
  · split
    · exact h₂.tellPeers
    · exact h₂
  · exact h₂

theorem State.Canon.joinComm (h : s.Canon) {x handle key nranks rank members} : (s.joinComm x handle key nranks rank members).Canon := by
  unfold State.joinComm
  split
  exact (h.enterComm.snd ‹_›).sendFlits.modHandle

theorem State.Canon.joinRemote (h : s.Canon) {key nranks rank members} : (s.joinRemote key nranks rank members).Canon := h.enterComm

theorem State.Canon.markHandles (h : s.Canon) {m st} : (s.markHandles m st).Canon := by
  unfold State.markHandles
  refine State.Canon.foldl h fun _ _ h₁ => ?_
  split
  · exact h₁
  · exact h₁.modCtx

theorem State.Canon.killComm (h : s.Canon) {m} : (s.killComm m).Canon := by
  unfold State.killComm
  split
  · exact h
  · exact h.tellPeers.markHandles.modComm

theorem State.Canon.killCommsOf (h : s.Canon) {x} : (s.killCommsOf x).Canon := h.foldl (fun _ _ h₁ => h₁.killComm)

theorem State.Canon.freeHandle (h : s.Canon) {x a0} : (s.freeHandle x a0).Canon := by
  unfold State.freeHandle
  dsimp only
  refine State.Canon.modHandle ?_
  split
  · exact h
  · exact h.killComm.upd rfl

theorem State.Canon.modColl (h : s.Canon) {id k f} : (s.modColl id k f).Canon := h

theorem EngCanon.issueColl {core o m a0} : EngCanon (issueColl core o m a0) := by
  unfold Machine.issueColl
  split
  · exact .pure
  · refine EngCanon.get_bind fun _ h₁ => ?_
    dsimp only
    split
    · exact .bind .throw fun _ => .bind (.engMod (fun _ h₂ => h₂.modHandle.modComm.modOp)) fun _ => .pure
    · exact .bind (.engMod (fun _ h₂ => h₂.modHandle.modComm.modOp)) fun _ => .pure

theorem EngCanon.prepColl {core o var} : EngCanon (prepColl core o var) := by
  unfold Machine.prepColl
  refine EngCanon.get_bind fun _ h₁ => ?_
  dsimp only
  split
  · exact .pure
  · refine EngCanon.bind EngCanon.issueColl fun _ => ?_
    split
    · exact .bind (.engMod (fun _ h₂ => h₂.modColl)) fun _ => .pure
    · split
      · exact .pure
      · refine EngCanon.bind EngCanon.engCross fun _ => ?_
        refine EngCanon.bind EngCanon.engCross fun _ => ?_
        split
        · refine EngCanon.bind EngCanon.engAcc fun _ => ?_
          split
          · exact .bind .engAcc fun _ => .bind .engCheck fun _ => .bind .engCheck fun _ => .pure
          · exact .bind .engCheck fun _ => .bind .engCheck fun _ => .pure
        · split
          · exact .bind .engAcc fun _ => .bind .engCheck fun _ => .bind .engCheck fun _ => .pure
          · exact .bind .engCheck fun _ => .bind .engCheck fun _ => .pure

theorem EngCanon.startColl {core o var} : EngCanon (startColl core o var) := by
  unfold Machine.startColl
  refine EngCanon.get_bind fun _ h₁ => ?_
  split
  · exact .pure
  · split
    · exact .throw
    · exact .engMod fun _ h₂ => h₂.modOp

theorem EngCanon.readColl {core o u} : EngCanon (readColl core o u) :=
  EngCanon.bind EngCanon.engRead (fun _ => EngCanon.bind (EngCanon.engMod (fun _ h₁ => h₁.modOp)) (fun _ => EngCanon.pure))

theorem State.Canon.collPlaced (h : s.Canon) {core o m k r} : (s.collPlaced core o m k r).Canon :=
  h.modColl.tellDecisions.tellPeers.modOp

theorem EngCanon.runColl {core o var} : EngCanon (runColl core o var) := by
  unfold Machine.runColl
  refine EngCanon.get_bind fun _ h₁ => ?_
  split
  · exact .pure
  · exact .pure
  · dsimp only
    split
    · refine EngCanon.bind EngCanon.throw fun _ => ?_
      split
      · split
        · exact .bind (.engMove (fun _ => .readColl)) fun _ => .pure
        · exact .bind (.engMod (fun _ h₂ => h₂.modColl.tellPeers.modOp)) fun _ => .pure
      · split
        · exact .throw
        · split
          · exact .bind (.engMod (fun _ h₂ => h₂.modColl)) fun _ => .pure
          · refine EngCanon.bind (EngCanon.engMod (fun _ h₂ => h₂.modOp)) fun _ => ?_
            split
            · exact .bind (.engMod (fun _ h₂ => h₂.collPlaced)) fun _ => .pure
            · exact .pure
      · split
        · refine EngCanon.bind (EngCanon.engMove (fun _ => EngCanon.readColl)) fun _ => ?_
          refine EngCanon.get_bind fun _ h₂ => ?_
          split
          · exact .bind (.engMod (fun _ h₃ => h₃.collPlaced)) fun _ => .pure
          · split
            · exact .bind .throw fun _ => .pure
            · exact .pure
        · refine EngCanon.get_bind fun _ h₂ => ?_
          split
          · exact .bind (.engMod (fun _ h₃ => h₃.collPlaced)) fun _ => .pure
          · split
            · exact .bind .throw fun _ => .pure
            · exact .pure
      · exact .throw
    · split
      · split
        · exact .bind (.engMove (fun _ => .readColl)) fun _ => .pure
        · exact .bind (.engMod (fun _ h₂ => h₂.modColl.tellPeers.modOp)) fun _ => .pure
      · split
        · exact .throw
        · split
          · exact .bind (.engMod (fun _ h₂ => h₂.modColl)) fun _ => .pure
          · refine EngCanon.bind (EngCanon.engMod (fun _ h₂ => h₂.modOp)) fun _ => ?_
            split
            · exact .bind (.engMod (fun _ h₂ => h₂.collPlaced)) fun _ => .pure
            · exact .pure
      · split
        · refine EngCanon.bind (EngCanon.engMove (fun _ => EngCanon.readColl)) fun _ => ?_
          refine EngCanon.get_bind fun _ h₂ => ?_
          split
          · exact .bind (.engMod (fun _ h₃ => h₃.collPlaced)) fun _ => .pure
          · split
            · exact .bind .throw fun _ => .pure
            · exact .pure
        · refine EngCanon.get_bind fun _ h₂ => ?_
          split
          · exact .bind (.engMod (fun _ h₃ => h₃.collPlaced)) fun _ => .pure
          · split
            · exact .bind .throw fun _ => .pure
            · exact .pure
      · exact .throw

theorem State.Canon.closeColl (h : s.Canon) {o} : (s.closeColl o).Canon := by
  unfold State.closeColl
  split
  · exact h
  · dsimp only
    split
    · exact h.modHandle
    · exact h.modHandle.modComm

theorem State.Canon.decideColl (h : s.Canon) {key k} : (s.decideColl key k).Canon := h.modComm.tellDecisions

/-! ## The operations of Machine/Stores -/

theorem State.Canon.othersFlush (h : s.Canon) {core key} : (s.othersFlush core key).Canon := h.coresFlush

theorem State.Canon.storeOut (h : s.Canon) {who idx cls p bs} : (s.storeOut who idx cls p bs).Canon := by
  unfold State.storeOut
  split
  exact (h.takeOrd.fst ‹_›).send

theorem State.Canon.throughCopy (h : s.Canon) {core key at_ bs} : (s.throughCopy core key at_ bs).Canon := by
  unfold State.throughCopy
  dsimp only
  split
  · exact h.flushSector
  · exact h.flushSector.modCore

theorem State.Canon.applyStore (h : s.Canon) {who idx cls thru a v} : (s.applyStore who idx cls thru a v).Canon := by
  unfold State.applyStore
  dsimp only
  split
  · split
    · split
      · exact h.lateFault
      · exact h.homePoke
    · exact h.send
  · split
    · split
      · exact h.lateFault
      · exact h.homePoke
    · exact h.send
  · exact h.send
  · exact h.storeOut
  · split
    · exact h
    · split
      · exact h.dieFlush.storeOut
      · split
        · split
          · exact h.othersFlush.throughCopy.storeOut
          · split
            · exact h.l1Store.modCtl
            · exact h.l1Store
        · split
          · exact h.othersFlush.throughCopy.storeOut
          · split
            · exact h.l1Store.modCtl
            · exact h.l1Store
        · split
          · exact h.othersFlush.throughCopy.storeOut
          · split
            · exact h.l1Store.modCtl
            · exact h.l1Store
  · split
    · exact h
    · split
      · exact h.dieFlush.storeOut
      · split
        · split
          · exact h.othersFlush.throughCopy.storeOut
          · split
            · exact h.l1Store.modCtl
            · exact h.l1Store
        · split
          · exact h.othersFlush.throughCopy.storeOut
          · split
            · exact h.l1Store.modCtl
            · exact h.l1Store
        · split
          · exact h.othersFlush.throughCopy.storeOut
          · split
            · exact h.l1Store.modCtl
            · exact h.l1Store

theorem State.Canon.applyRed (h : s.Canon) {who idx op cls a v} : (s.applyRed who idx op cls a v).Canon := by
  refine State.Canon.send (State.Canon.takeOrd ?_)
  split
  · exact h.dieFlush
  · exact h.dieFlush
  · exact h

/-- Applying the lanes of a store or RED keeps the form when applying one lane does. -/
theorem State.Canon.applyLanes (h : s.Canon) {f : State → Access → BitVec 128 → RelSt} {l} (hf : ∀ s a v, s.Canon → (f s a v).Canon) :
    (applyLanes f s l).1.Canon := by
  induction l generalizing s with
  | nil => exact h
  | cons q rest ih =>
    unfold Machine.applyLanes
    split
    · next e => exact (hf _ _ _ h).wait e
    · next e => exact ih ((hf _ _ _ h).done e)

/-! ## The operations of Machine/CtxOps -/

theorem State.Canon.releaseFrame (h : s.Canon) {frame vf} : (s.releaseFrame frame vf).Canon := by
  unfold State.releaseFrame
  dsimp only
  split
  · exact h.upd rfl
  · split <;> exact h.upd rfl

theorem State.Canon.releaseFrames (h : s.Canon) {fs} : (s.releaseFrames fs).Canon := h.foldl (fun _ _ h₁ => h₁.releaseFrame)

theorem State.Canon.createChild (h : s.Canon) {xi idx g} : (s.createChild xi idx g).Canon := by
  unfold State.createChild
  split
  · exact h
  · exact h.upd rfl

theorem State.Canon.applyGrant (h : s.Canon) {child g} : (s.applyGrant child g).Canon := by
  unfold State.applyGrant
  split
  · exact h
  · dsimp only
    split
    · split
      · exact h.modCtx.tlbDropCtxs
      · exact h.modCtx
    · split
      · exact h.modCtx.tlbDropCtxs
      · exact h.modCtx

theorem State.Canon.takeLock (h : s.Canon) {x who} : (s.takeLock x who).Canon := h
theorem State.Canon.dropHeld (h : s.Canon) {who} : (s.dropHeld who).Canon := h
theorem State.Canon.dropCode (h : s.Canon) {xs} : (s.dropCode xs).Canon := h

theorem State.Canon.endSlice (h : s.Canon) {core vf} : (s.endSlice core vf).Canon := by
  unfold State.endSlice
  dsimp only
  split
  · exact h
  · exact h.modCore

theorem State.Canon.beginDrain (h : s.Canon) {core x revoked} : (s.beginDrain core x revoked).Canon := by
  unfold State.beginDrain
  dsimp only
  split
  · exact h.modCore
  · split
    · exact h.modCore
    · split
      · exact h.modCore
      · exact h

theorem State.Canon.capTo (h : s.Canon) {lost x} : (s.capTo lost x).Canon := by
  unfold State.capTo
  split
  · exact h
  · exact h.modCtx

theorem State.Canon.keepNumbers (h : s.Canon) {x cores} : (s.keepNumbers x cores).Canon := h

theorem State.Canon.applyRevoke (h : s.Canon) {caller child r} : (s.applyRevoke caller child r).Canon := by
  unfold State.applyRevoke
  split
  · dsimp only
    refine State.Canon.modCtx ?_
    refine State.Canon.releaseFrames ?_
    refine State.Canon.dropCode ?_
    refine State.Canon.tlbDropCtxs ?_
    refine State.Canon.foldl ?_ (fun _ _ h₁ => h₁.foldl (fun _ _ h₂ => h₂.beginDrain))
    split
    · exact (h.modCtx.foldl (fun _ _ h₁ => h₁.capTo)).foldl fun _ _ h₁ => h₁.modCtx
    · exact (((h.foldl (fun _ _ h₁ => h₁.keepNumbers)).modCtx.foldl (fun _ _ h₁ => h₁.capTo)).foldl (fun _ _ h₁ =>
        h₁.modCtx)).foldl fun _ _ h₁ => h₁.modCtx
  · exact h

theorem State.Canon.tryWord (h : s.Canon) {w} : (s.tryWord w).Canon := by
  unfold State.tryWord
  split
  · exact h
  · split
    · exact (h.translate.fst ‹_›).homePoke
    · exact (h.translate.fst ‹_›).askHost.upd (by rfl)
    · exact ((h.translate.fst ‹_›).upd (by rfl)).deliver

theorem State.Canon.sendWord (h : s.Canon) {caller addr ident code} : (s.sendWord caller addr ident code).Canon := by
  unfold State.sendWord
  split
  · exact h
  · exact (h.upd (by rfl)).tryWord

theorem State.Canon.retryWords (h : s.Canon) : s.retryWords.Canon := (h.upd (by rfl)).foldl (fun _ _ h₁ => h₁.tryWord)

theorem State.Canon.clearCore (h : s.Canon) {x core} : (s.clearCore x core).Canon := by
  unfold State.clearCore
  dsimp only
  refine State.Canon.endSlice ?_
  refine State.Canon.modCore ?_
  split
  · exact (h.foldl (fun _ _ h₁ => h₁.endWarp)).clearPath
  · exact h.foldl fun _ _ h₁ => h₁.endWarp

theorem State.Canon.takeApart (h : s.Canon) {x} : (s.takeApart x).Canon := by
  unfold State.takeApart
  split
  · exact h
  · refine State.Canon.drainFaults (State.Canon.modCtx (State.Canon.releaseFrames (State.Canon.killCommsOf (State.Canon.tlbDropCtxs ?_))))
    refine State.Canon.upd (s := List.foldl (fun s k => s.clearCore x k) _ _) ?_ rfl
    exact State.Canon.foldl (h.upd (by rfl)) fun _ _ h₁ => h₁.clearCore

theorem State.Canon.callerWord (h : s.Canon) {caller cw ident code} : (s.callerWord caller cw ident code).Canon := by
  unfold State.callerWord
  split
  · exact h.sendWord
  · exact h

theorem State.Canon.removeCtx (h : s.Canon) {x} : (s.removeCtx x).Canon := by
  unfold State.removeCtx
  dsimp only
  refine State.Canon.foldl ?_ (fun _ _ h₁ => h₁.callerWord)
  split
  · exact (h.upd (by rfl)).callerWord
  · exact h.upd rfl

theorem State.Canon.killNamed (h : s.Canon) {caller target ident cw} : (s.killNamed caller target ident cw).Canon := by
  unfold State.killNamed
  split
  · exact h.startKill
  · exact h.callerWord

theorem State.Canon.beginSlice (h : s.Canon) {core x} : (s.beginSlice core x).Canon := by
  unfold State.beginSlice
  split
  · exact h
  · exact h.modCore

theorem State.Canon.beginThread (h : s.Canon) {core x} : (s.beginThread core x).Canon := h.acquireActs

theorem State.Canon.startCtl (h : s.Canon) {core x entry team s0 s1} : (s.startCtl core x entry team s0 s1).Canon :=
  h.beginSlice.beginThread.modCore

theorem State.Canon.startCtx (h : s.Canon) {x} : (s.startCtx x).Canon := by
  unfold State.startCtx
  split
  · exact h
  · split
    · exact h
    · dsimp only
      split
      · exact h.modCtx
      · exact h.modCtx.startCtl

theorem State.Canon.resumeHalt (h : s.Canon) {a0} : (s.resumeHalt a0).Canon := by
  unfold State.resumeHalt
  dsimp only
  split
  · exact (h.upd (by rfl)).beginThread.modCore
  · exact (h.upd (by rfl)).beginThread.modCore
  · exact (h.upd (by rfl)).modCore
  · exact (h.upd (by rfl)).modCore
  · exact (h.upd (by rfl)).modCore
  · exact (h.upd (by rfl)).retryWords

theorem State.Canon.resumeHalts (h : s.Canon) {recv target b} : (s.resumeHalts recv target b).Canon :=
  (h.foldl (fun _ _ h₁ => h₁.resumeHalt)).drainFaults

theorem State.Canon.reflectHalt (h : s.Canon) {recv target num code level} : (s.reflectHalt recv target num code level).Canon := by
  unfold State.reflectHalt
  split
  · exact (h.upd (by rfl)).enqueueFault
  · exact h

theorem State.Canon.invDo (h : s.Canon) {x start pages} : (s.invDo x start pages).Canon := h

theorem State.Canon.traceAppend (h : s.Canon) {who value} : (s.traceAppend who value).Canon := by
  unfold State.traceAppend
  dsimp only
  split
  · split
    · exact h
    · split
      · exact (h.translate.fst ‹_›).askHost
      · exact h
      · split
        · exact (h.translate.fst ‹_›).homeRead.homePoke
        · split
          · exact ((h.translate.fst ‹_›).homeRead.translate.fst ‹_›).askHost
          · exact ((h.translate.fst ‹_›).homeRead.translate.fst ‹_›).homePoke
          · split
            · exact (((h.translate.fst ‹_›).homeRead.translate.fst ‹_›).translate.fst ‹_›).askHost
            · exact (((h.translate.fst ‹_›).homeRead.translate.fst ‹_›).translate.fst ‹_›).homePoke
            · exact (((h.translate.fst ‹_›).homeRead.translate.fst ‹_›).translate.fst ‹_›).homePoke.homePoke.homePoke.modCtx
  · exact h

/-! ## The operations of Machine/Block -/

theorem State.Canon.fetchLine (h : s.Canon) {core x line by_ p} : (s.fetchLine core x line by_ p).1.Canon := by
  unfold State.fetchLine
  split
  · exact h.sense
  · split
    exact (h.homeRead.fst ‹_›).modCore.nextFree

theorem State.Canon.fetchLines (h : s.Canon) {core x w l} : (s.fetchLines core x w l).1.Canon := by
  induction l generalizing s with
  | nil => exact h
  | cons line rest ih =>
    unfold State.fetchLines
    dsimp only
    split
    · exact h
    · exact h.missAt
    · have h₁ := ih (s := (((s.tlbPull core x (BitVec.ofNat 64 (line * 128)) .fetch).fetchLine core x line w.requester ‹_›).1)) h.tlbPull.fetchLine
      split
      · exact h₁.fst ‹_›
      · exact h₁.fst ‹_›

theorem State.Canon.fetchBlock (h : s.Canon) {core x entry nv ctl strict w} : (s.fetchBlock core x entry nv ctl strict w).Canon := by
  unfold State.fetchBlock
  split
  · exact h
  · split
    · exact h.fetchLines.fst ‹_›
    · exact h.fetchLines.fst ‹_›
    · dsimp only
      split
      · exact h.fetchLines.fst ‹_›
      · split
        · exact (h.fetchLines.fst ‹_›).fetchLines.fst ‹_›
        · exact (h.fetchLines.fst ‹_›).fetchLines.fst ‹_›
        · split
          · exact (h.fetchLines.fst ‹_›).fetchLines.fst ‹_›
          · split
            · exact (h.fetchLines.fst ‹_›).fetchLines.fst ‹_›
            · exact (((h.fetchLines.fst ‹_›).fetchLines.fst ‹_›).upd (by rfl)).modCore

/-! ## The operations of Machine/Control -/

theorem State.Canon.addEff (h : s.Canon) {c e} : (s.addEff c e).Canon := by
  unfold State.addEff
  split
  · exact h.modInst
  · exact h

theorem State.Canon.execGetr (h : s.Canon) {a0 w64 reg} : OutCanon (execGetr a0 w64 reg s) := by
  unfold Machine.execGetr
  refine State.Canon.issuing h fun _ => ?_
  split
  · exact h
  · dsimp only
    split
    · refine State.Canon.finish ?_
      split
      · exact h.joinToken
      · exact h
    · split
      · split
        · exact h.joinToken
        · exact h
      · refine State.Canon.finish ?_
        refine State.Canon.senseWhere ?_
        split
        · exact h.joinToken
        · exact h

theorem State.Canon.execSetr (h : s.Canon) {a0 w64 reg} : OutCanon (execSetr a0 w64 reg s) := by
  unfold Machine.execSetr
  refine State.Canon.issuing h fun _ => ?_
  dsimp only
  split
  · exact h.modCtl.finish
  · exact h.addEff.finish

theorem State.Canon.execFan (h : s.Canon) {a0 w64} : OutCanon (execFan a0 w64 s) := h.issuing (fun _ => h.finish)
theorem State.Canon.execMovi (h : s.Canon) {a0 w64 imm imm64} : OutCanon (execMovi a0 w64 imm imm64 s) := h.issuing (fun _ => h.finish)
theorem State.Canon.execSel (h : s.Canon) {a0 w64} : OutCanon (execSel a0 w64 s) := h.issuing (fun _ => h.finish)
theorem State.Canon.execSink (h : s.Canon) {a0} : OutCanon (execSink a0 s) := h.issuing (fun _ => h.finish)

theorem State.Canon.succeed (h : s.Canon) {c f} : (s.succeed c f).Canon := by
  unfold State.succeed
  split
  · exact h.addEff.finish
  · split
    · exact h
    · split
      · exact h.faultIssue
      · exact h.modCtl.finish

theorem State.Canon.execBr (h : s.Canon) {a0 off} : OutCanon (execBr a0 off s) := h.issuing (fun _ => h.succeed)
theorem State.Canon.execBrc (h : s.Canon) {a0 off off2} : OutCanon (execBrc a0 off off2 s) := h.issuing (fun _ => h.succeed)
theorem State.Canon.execBri (h : s.Canon) {a0} : OutCanon (execBri a0 s) := h.issuing (fun _ => h.succeed)
theorem State.Canon.execCall (h : s.Canon) {a0 off off2} : OutCanon (execCall a0 off off2 s) := h.issuing (fun _ => h.succeed)
theorem State.Canon.execCalli (h : s.Canon) {a0 off2} : OutCanon (execCalli a0 off2 s) := h.issuing (fun _ => h.succeed)
theorem State.Canon.execRet (h : s.Canon) {a0} : OutCanon (execRet a0 s) := h.issuing (fun _ => h.succeed)
theorem State.Canon.execExit (h : s.Canon) {a0} : OutCanon (execExit a0 s) := h.issuing (fun _ => h.succeed)
theorem State.Canon.execLoop (h : s.Canon) {a0 off2} : OutCanon (execLoop a0 off2 s) := h.issuing (fun _ => h.succeed)

theorem State.Canon.execTrap (h : s.Canon) {a0 code} : OutCanon (execTrap a0 code s) := by
  unfold Machine.execTrap
  refine State.Canon.issuing h fun _ => ?_
  dsimp only
  split
  · split
    · exact h.finish
    · exact h.faultIssue
  · split
    · exact h.modCtl.finish
    · exact h.haltCtl.modCtl

/-! ## The operations of Machine/MemoryForms -/

theorem State.Canon.endReserve (h : s.Canon) {who lane} : (s.endReserve who lane).Canon := h

theorem State.Canon.reserve (h : s.Canon) {who lane p} : OptCanon (s.reserve who lane p) := by
  unfold State.reserve
  dsimp only
  split
  · exact h.endReserve.modMonitor
  · split
    · exact trivial
    · exact h.endReserve.modMonitor.nextFree

theorem State.Canon.tryResv (h : s.Canon) {who idx cls l} : (s.tryResv who idx cls l).Canon := by
  unfold State.tryResv
  dsimp only
  split
  · exact h
  · split
    · split
      · split
        · exact h
        · exact (h.reserve.some ‹_›).homeRead.setGot
      · exact h.send.setSent
    · exact h.dieFlush.takeOrd.send.setSent

theorem State.Canon.tryPend (h : s.Canon) {who p} : (s.tryPend who p).Canon := by
  unfold State.tryPend
  dsimp only
  split
  · exact h
  · refine State.Canon.foldl h fun _ _ h₁ => ?_
    split
    · exact h₁
    · split
      · exact h₁.tryLoad
      · exact h₁.tryResv
      · exact h₁

theorem State.Canon.completePend (h : s.Canon) {who idx} : (s.completePend who idx).Canon := by
  unfold State.completePend
  split
  · split
    · dsimp only
      refine State.Canon.advance ?_
      refine State.Canon.sendTokens ?_
      refine State.Canon.dropPend ?_
      split
      · exact h
      · exact h.acquireActs
    · exact h
  · exact h

theorem State.Canon.startPend (h : s.Canon) {c p} : (s.startPend c p).Canon := h.fired.addPend

theorem State.Canon.loadMeaning (h : s.Canon) {space sz o} : OutCanon (loadMeaning space sz o s) := by
  unfold Machine.loadMeaning
  refine State.Canon.issuing h fun _ => ?_
  split
  · exact h
  · split
    · exact h.checkAccess.wait ‹_›
    · exact h.faultIssue
    · exact (h.checkAccess.ok ‹_›).startPend.tryPend

theorem State.Canon.execLd (h : s.Canon) {sz o} : OutCanon (execLd sz o s) := h.loadMeaning
theorem State.Canon.execLds (h : s.Canon) {sz o} : OutCanon (execLds sz o s) := h.loadMeaning
theorem State.Canon.execLdw (h : s.Canon) {sz o} : OutCanon (execLdw sz o s) := h.loadMeaning

theorem State.Canon.execLdres (h : s.Canon) {space w64 o} : OutCanon (execLdres space w64 o s) := by
  unfold Machine.execLdres
  refine State.Canon.issuing h fun _ => ?_
  dsimp only
  split
  · exact h
  · split
    · exact h.checkAccess.wait ‹_›
    · exact h.faultIssue
    · exact (h.checkAccess.ok ‹_›).startPend.tryPend

theorem State.Canon.releaseNow (h : s.Canon) {who order scope mask} : (s.releaseNow who order scope mask).Canon := by
  unfold State.releaseNow
  split
  · exact h.releaseActs
  · exact h

theorem State.Canon.storeMeaning (h : s.Canon) {space sz o} : OutCanon (storeMeaning space sz o s) := by
  unfold Machine.storeMeaning
  refine State.Canon.issuing h fun _ => ?_
  split
  · exact h
  · split
    · exact h.checkAccess.wait ‹_›
    · exact h.faultIssue
    · dsimp only
      split
      · refine State.Canon.finish ?_
        refine State.Canon.addEff ?_
        split
        · exact (h.checkAccess.ok ‹_›).addEff
        · exact h.checkAccess.ok ‹_›
      · split
        · exact h.checkAccess.ok ‹_›
        · split
          · exact (h.checkAccess.ok ‹_›).releaseNow.wait ‹_›
          · split
            · exact ((((h.checkAccess.ok ‹_›).releaseNow.done ‹_›).applyLanes (fun _ _ _ h₁ => h₁.applyStore)).fst ‹_›).finish
            · exact (((h.checkAccess.ok ‹_›).releaseNow.done ‹_›).applyLanes (fun _ _ _ h₁ => h₁.applyStore)).fst ‹_›

theorem State.Canon.execSt (h : s.Canon) {sz o} : OutCanon (execSt sz o s) := h.storeMeaning
theorem State.Canon.execSts (h : s.Canon) {sz o} : OutCanon (execSts sz o s) := h.storeMeaning
theorem State.Canon.execStw (h : s.Canon) {sz o} : OutCanon (execStw sz o s) := h.storeMeaning

theorem State.Canon.execRed (h : s.Canon) {op aw o} : OutCanon (execRed op aw o s) := by
  unfold Machine.execRed
  refine State.Canon.issuing h fun _ => ?_
  split
  · exact h
  · split
    · exact h.checkAccess.wait ‹_›
    · exact h.faultIssue
    · dsimp only
      split
      · exact (h.checkAccess.ok ‹_›).addEff.finish
      · split
        · exact (((h.checkAccess.ok ‹_›).applyLanes (fun _ _ _ h₁ => h₁.applyRed)).fst ‹_›).finish
        · exact ((h.checkAccess.ok ‹_›).applyLanes (fun _ _ _ h₁ => h₁.applyRed)).fst ‹_›

theorem State.Canon.ownLog (h : s.Canon) {c} : (s.ownLog c).Canon := by
  unfold State.ownLog
  split
  · exact h
  · split
    · exact h
    · exact h.modWarp

theorem State.Canon.logValue (h : s.Canon) {who idx lane v} : (s.logValue who idx lane v).Canon := by
  unfold State.logValue
  split
  · exact h
  · split
    · exact h
    · exact h.modWarp

theorem State.Canon.senseRecord (h : s.Canon) {c l} : (s.senseRecord c l).Canon := by
  unfold State.senseRecord
  split
  · exact h.foldl fun _ _ h₁ => h₁.sense
  · exact h

theorem State.Canon.sendAtomic (h : s.Canon) {c cls op n v cmp a} : (s.sendAtomic c cls op n v cmp a).Canon := by
  unfold State.sendAtomic
  dsimp only
  refine State.Canon.send ?_
  refine State.Canon.takeOrd ?_
  split
  · exact h.dieFlush
  · exact h.dieFlush
  · exact h

theorem State.Canon.startAtomic (h : s.Canon) {c o op n done accs} : (s.startAtomic c o op n done accs).Canon := by
  unfold State.startAtomic
  dsimp only
  refine State.Canon.foldl ?_ (fun _ _ h₁ => h₁.sendAtomic)
  refine State.Canon.startPend ?_
  split
  · exact h.ownLog.foldl fun _ _ h₁ => h₁.senseRecord
  · exact h.ownLog

theorem State.Canon.atomicMeaning (h : s.Canon) {space op n support o} : OutCanon (atomicMeaning space op n support o s) := by
  unfold Machine.atomicMeaning
  refine State.Canon.issuing h fun _ => ?_
  split
  · exact h
  · dsimp only
    split
    · exact h.faultIssue
    · split
      · exact h.checkAccess.wait ‹_›
      · exact h.faultIssue
      · split
        · split
          · exact (h.checkAccess.ok ‹_›).faultIssue
          · split
            · exact (h.checkAccess.ok ‹_›).releaseNow.wait ‹_›
            · exact ((h.checkAccess.ok ‹_›).releaseNow.done ‹_›).startAtomic
        · split
          · exact (h.checkAccess.ok ‹_›).faultIssue
          · split
            · exact (h.checkAccess.ok ‹_›).releaseNow.wait ‹_›
            · exact ((h.checkAccess.ok ‹_›).releaseNow.done ‹_›).startAtomic

theorem State.Canon.execAtom (h : s.Canon) {op aw o} : OutCanon (execAtom op aw o s) := h.atomicMeaning
theorem State.Canon.execAtoms (h : s.Canon) {op aw wn o} : OutCanon (execAtoms op aw wn o s) := h.atomicMeaning
theorem State.Canon.execStcond (h : s.Canon) {space w64 o} : OutCanon (execStcond space w64 o s) := h.atomicMeaning

theorem State.Canon.execPref (h : s.Canon) {o} : OutCanon (execPref o s) := by
  refine h.issuing fun c => ?_
  split
  · exact h
  · refine (fun hr => ?_ : ∀ {r : State × Bool}, r.1.Canon → (if r.2 then r.1 else r.1.finish c []).Canon) (h.foldlPair fun r l h₁ => ?_)
    · split
      · exact hr
      · exact hr.finish
    · dsimp only
      split
      · exact h₁.tlbPull.prefAsk
      · split
        · exact h₁
        · exact h₁.missAt
      · exact h₁

theorem State.Canon.execFence (h : s.Canon) {a0 order scope mask} : OutCanon (execFence a0 order scope mask s) := by
  unfold Machine.execFence
  refine State.Canon.issuing h fun _ => ?_
  split
  · exact h
  · split
    · dsimp only
      refine State.Canon.finish ?_
      split
      · refine State.Canon.addEff ?_
        split
        · refine State.Canon.addEff ?_
          split
          · exact h.acquireActs
          · exact h
        · split
          · exact h.acquireActs
          · exact h
      · split
        · refine State.Canon.addEff ?_
          split
          · exact h.acquireActs
          · exact h
        · split
          · exact h.acquireActs
          · exact h
    · split
      · exact h.releaseNow.wait ‹_›
      · refine State.Canon.finish ?_
        split
        · exact (h.releaseNow.done ‹_›).acquireActs
        · exact h.releaseNow.done ‹_›

/-! ## The operations of Machine/Coherence -/

theorem State.Canon.dcuServe (h : s.Canon) {r priv} : (s.dcuServe r priv).Canon := by
  unfold State.dcuServe
  split
  · exact h.send
  · exact h.modCore
  · exact h.modCore

theorem State.Canon.setOwner (h : s.Canon) {d pg o} : (s.setOwner d pg o).Canon := h

theorem State.Canon.ownerRoom (h : s.Canon) {d page} : (s.ownerRoom d page).Canon := by
  unfold State.ownerRoom
  dsimp only
  split
  · exact h
  · exact (h.nextFree.dropFilled.foldl (fun _ _ h₁ => h₁.foldl (fun _ _ h₂ => h₂.flushSector))).modDie

theorem State.Canon.dirRoom (h : s.Canon) {d sector} : (s.dirRoom d sector).Canon := by
  unfold State.dirRoom
  dsimp only
  split
  · exact h
  · exact h.nextFree.dieFlush.modDie

theorem State.Canon.setDir (h : s.Canon) {d key e} : (s.setDir d key e).Canon := h

theorem State.Canon.dirServe (h : s.Canon) {d r} : (s.dirServe d r).Canon := by
  unfold State.dirServe
  dsimp only
  split
  · refine State.Canon.dcuServe ?_
    refine State.Canon.setDir ?_
    split
    · exact h.dirRoom.setOwner
    · exact h
  · refine State.Canon.dcuServe ?_
    refine State.Canon.setDir ?_
    split
    · exact h.dirRoom.setOwner
    · exact h
  · split
    · refine State.Canon.dcuServe ?_
      split
      · exact h.dirRoom.setOwner
      · exact h
    · refine State.Canon.dcuServe ?_
      refine State.Canon.flushSector ?_
      refine State.Canon.setDir ?_
      split
      · exact h.dirRoom.setOwner
      · exact h
  · refine State.Canon.dcuServe ?_
    refine State.Canon.setDir ?_
    split
    · exact h.dirRoom.setOwner
    · exact h
  · refine State.Canon.dcuServe ?_
    refine State.Canon.foldl ?_ (fun _ _ h₁ => h₁.flushSector)
    refine State.Canon.setDir ?_
    split
    · exact h.dirRoom.setOwner
    · exact h
  · refine State.Canon.dcuServe ?_
    split
    · refine State.Canon.setDir ?_
      split
      · exact h.dirRoom.setOwner
      · exact h
    · refine State.Canon.flushSector ?_
      refine State.Canon.setDir ?_
      split
      · exact h.dirRoom.setOwner
      · exact h

theorem State.Canon.ownerServe (h : s.Canon) {d r} : (s.ownerServe d r).Canon := by
  unfold State.ownerServe
  dsimp only
  split
  · exact h.ownerRoom.setOwner.dcuServe
  · split
    · exact h.dcuServe
    · exact (h.foldl (fun _ _ h₁ => h₁.flushSector)).setOwner.dirServe
  · exact h.dirServe

theorem State.Canon.execDcuRequest (h : s.Canon) {die} : OutCanon (execDcuRequest die s) := by
  unfold Machine.execDcuRequest
  split
  · exact h
  · dsimp only
    split
    · exact h.modDie
    · exact h.modDie.ownerServe

theorem State.Canon.markPresence (h : s.Canon) {d key} : (s.markPresence d key).Canon := by
  unfold State.markPresence
  split
  · exact h
  · dsimp only
    split
    · exact h
    · refine State.Canon.modFirn ?_
      split
      · exact h
      · exact h.nextFree.invalidateOthers

theorem State.Canon.askMarked (h : s.Canon) {r key} : OptCanon (s.askMarked r key) := by
  unfold State.askMarked
  dsimp only
  split
  · split
    · exact trivial
    · exact h
  · split
    · exact trivial
    · exact h.upd rfl

theorem State.Canon.execPresenceInvalidation (h : s.Canon) {die req} : OutCanon (execPresenceInvalidation die req s) := by
  unfold Machine.execPresenceInvalidation
  split
  · exact h
  · split
    · exact h
    · split
      · exact h
      · exact h.dieFlush.upd rfl

theorem State.Canon.laneValue (h : s.Canon) {who idx lane v} : (s.laneValue who idx lane v).Canon := by
  unfold State.laneValue
  split
  · exact h
  · exact h.setGot

theorem State.Canon.readAt (h : s.Canon) {r who idx lane p n resv} : OptCanon (s.readAt r who idx lane p n resv) := by
  unfold State.readAt
  dsimp only
  split
  · exact trivial
  · refine State.Canon.turnBack ?_
    refine State.Canon.homeRead ?_
    refine OptCanon.some ?_ ‹_›
    split
    · refine State.Canon.reserve ?_
      split
      · exact h.dieFlush
      · exact h.dieFlush
      · exact h
    · split
      · exact h.dieFlush
      · exact h.dieFlush
      · exact h

theorem State.Canon.execHomeRead (h : s.Canon) {req} : OutCanon (execHomeRead req s) := by
  unfold Machine.execHomeRead
  split
  · exact h
  · split
    · exact h.travel
    · split
      · exact h
      · split
        · split
          · exact h.dropReq
          · split
            dsimp only
            refine State.Canon.turnBack ?_
            split
            · exact (h.homeRead.fst ‹_›).markPresence
            · exact h.homeRead.fst ‹_›
        · exact (h.getD h.readAt).hostPoll
        · refine State.Canon.hostPoll ?_
          refine State.Canon.dropReq ?_
          split
          · exact h.l1Fill
          · exact h
        · exact h.laneValue.dropReq.hostPoll
        · exact h

theorem State.Canon.ownCopy (h : s.Canon) {core key mask data} : (s.ownCopy core key mask data).Canon := by
  unfold State.ownCopy
  split
  · exact h
  · exact h.modCore

theorem State.Canon.beforeWrite (h : s.Canon) {r key mask data src} : (s.beforeWrite r key mask data src).Canon := by
  unfold State.beforeWrite
  split
  · exact h
  · split
    · exact h.dieFlush
    · exact h.othersFlush.ownCopy

theorem State.Canon.execHomeWrite (h : s.Canon) {req} : OutCanon (execHomeWrite req s) := by
  unfold Machine.execHomeWrite
  split
  · exact h
  · split
    · split
      · exact h.travel
      · split
        · exact h
        · split
          · exact h.askMarked.some ‹_›
          · exact h.dropReq.beforeWrite.homeWrite.hostPoll
    · exact h

theorem State.Canon.flushed (h : s.Canon) {core vf} : (s.flushed core vf).Canon := h

theorem State.Canon.execFlushingReadDone (h : s.Canon) {core vf} : OutCanon (execFlushingReadDone core vf s) := by
  unfold Machine.execFlushingReadDone
  split
  · exact h.flushed.hostPoll
  · exact h

theorem State.Canon.faultAt (h : s.Canon) {who f} : (s.faultAt who f).Canon := by
  unfold State.faultAt
  split
  · dsimp only
    split
    · exact h
    · exact h.recordExit
  · exact h.haltCtl

theorem State.Canon.execWindowAccessArrive (h : s.Canon) {req} : OutCanon (execWindowAccessArrive req s) := by
  unfold Machine.execWindowAccessArrive
  split
  · exact h
  · split
    · split
      · exact h.travel
      · split
        · exact h
        · split
          · exact h.laneValue.faultAt.dropReq
          · split
            · exact h
            · split
              refine State.Canon.turnBack ?_
              refine State.Canon.fst ?_ ‹_›
              refine State.Canon.homeRead ?_
              refine OptCanon.some ?_ ‹_›
              split
              · exact h.reserve
              · exact h
    · split
      · exact h.travel
      · split
        · exact h
        · split
          · exact h.lateFault.dropReq
          · exact h.homePoke.dropReq
    · exact h

theorem State.Canon.execMailboxArrive (h : s.Canon) {req} : OutCanon (execMailboxArrive req s) := by
  unfold Machine.execMailboxArrive
  split
  · exact h
  · split
    · dsimp only
      split
      · exact h.travel
      · split
        · exact h
        · split
          · exact h.lateFault.dropReq
          · split
            · exact h
            · exact (h.mailArrive.some ‹_›).dropReq
    · exact h

/-! ## The operations of Machine/AtomicPorts -/

theorem State.Canon.settleSector (h : s.Canon) {writer p n} : (s.settleSector writer p n).Canon := by
  unfold State.settleSector
  dsimp only
  split
  · refine State.Canon.foldl h fun _ _ h₁ => ?_
    refine State.Canon.invalidateOthers ?_
    split
    · exact h₁.dieFlush
    · exact h₁
  · split
    · exact h.dieFlush
    · exact h
  · exact h

theorem State.Canon.performAt (h : s.Canon) {r who lane p op n v cmp} : (s.performAt r who lane p op n v cmp).1.Canon := by
  unfold State.performAt
  dsimp only
  split
  · split
    · split
      · exact h.settleSector.endReserve.homePoke
      · dsimp only
        split
        · exact h.settleSector.endReserve.countScrub
        · exact h.settleSector.endReserve
    · split
      · exact h.settleSector.endReserve.homePoke
      · exact h.settleSector.endReserve
  · split
    · split
      · exact h.settleSector.homeRead.nextFree
      · dsimp only
        split
        · exact h.settleSector.homeRead
        · exact h.settleSector.homeRead.homePoke
    · split
      · exact h.settleSector.homeRead.nextFree
      · dsimp only
        split
        · exact h.settleSector.homeRead
        · exact h.settleSector.homeRead.homePoke

theorem State.Canon.refuseAtomic (h : s.Canon) {r who idx lane p reply} : (s.refuseAtomic r who idx lane p reply).Canon := by
  unfold State.refuseAtomic
  dsimp only
  split
  · exact h.dropReq.setGot.faultAt
  · exact h.dropReq.deliver

theorem State.Canon.atomicTurned (h : s.Canon) {r who idx lane reply code} : (s.atomicTurned r who idx lane reply code).Canon := by
  unfold State.atomicTurned
  dsimp only
  split
  · exact h.dropReq.setGot.faultAt
  · exact h.dropReq.lateFault

theorem State.Canon.execAtomicAtPort (h : s.Canon) {req} : OutCanon (execAtomicAtPort req s) := by
  unfold Machine.execAtomicAtPort
  split
  · exact h
  · split
    · split
      · exact h.travel
      · split
        · exact h
        · split
          · exact h.atomicTurned
          · split
            · exact h.refuseAtomic.nextFree
            · split
              · refine OptCanon.some ?_ ‹_›
                split
                · exact h.askMarked
                · exact trivial
              · dsimp only
                refine State.Canon.hostPoll ?_
                split
                · refine State.Canon.turnBack ?_
                  refine State.Canon.performAt ?_
                  split
                  · exact h.nextFree
                  · exact h
                · refine State.Canon.dropReq ?_
                  refine State.Canon.performAt ?_
                  split
                  · exact h.nextFree
                  · exact h
    · exact h

theorem State.Canon.execAtomicReply (h : s.Canon) {req} : OutCanon (execAtomicReply req s) := by
  unfold Machine.execAtomicReply
  split
  · exact h
  · split
    · split
      · exact h.travel
      · exact h.setGot.logValue.dropReq.completePend
    · exact h

theorem State.Canon.execReservationPinExpiry (h : s.Canon) {port onFirn} : OutCanon (execReservationPinExpiry port onFirn s) := by
  unfold Machine.execReservationPinExpiry
  dsimp only
  split
  · exact h.modFirn
  · exact h.modCore

/-! ## The operations of Machine/EngineIssue -/

theorem EngCanon.engParams {core o} : EngCanon (engParams core o) := by
  unfold Machine.engParams
  split
  · exact .pure
  · dsimp only
    split
    · exact .bind .engBlock fun _ => .bind (.engMod (fun _ h₁ => h₁.modOp)) fun _ => .pure
    · exact .bind .pure fun _ => .bind (.engMod (fun _ h₁ => h₁.modOp)) fun _ => .pure

theorem EngCanon.prepareOp {core o} : EngCanon (prepareOp core o) := by
  unfold Machine.prepareOp
  dsimp only
  refine EngCanon.get_bind fun _ h₁ => ?_
  split
  · refine EngCanon.bind EngCanon.engFault fun _ => ?_
    refine EngCanon.bind EngCanon.engParams fun _ => ?_
    split
    · exact .bind .prepCopy fun _ => .pure
    · exact .bind .prepCopy fun _ => .pure
    · exact .bind .prepFill fun _ => .pure
    · exact EngCanon.prepTcopy
    · exact EngCanon.prepGather
    · exact EngCanon.prepGather
    · exact EngCanon.prepStream
    · exact EngCanon.prepIstream
    · exact .pure
    · exact .bind .prepMxload fun _ => .pure
    · exact EngCanon.prepMxmul
    · exact EngCanon.prepMxfeeds
    · exact EngCanon.prepColl
    · exact .pure
    · exact .pure
  · refine EngCanon.bind EngCanon.engParams fun _ => ?_
    split
    · exact .bind .prepCopy fun _ => .pure
    · exact .bind .prepCopy fun _ => .pure
    · exact .bind .prepFill fun _ => .pure
    · exact EngCanon.prepTcopy
    · exact EngCanon.prepGather
    · exact EngCanon.prepGather
    · exact EngCanon.prepStream
    · exact EngCanon.prepIstream
    · exact .pure
    · exact .bind .prepMxload fun _ => .pure
    · exact EngCanon.prepMxmul
    · exact EngCanon.prepMxfeeds
    · exact EngCanon.prepColl
    · exact .pure
    · exact .pure

theorem State.Canon.settlePrep (h : s.Canon) {core id r} : (s.settlePrep core id r).Canon := by
  unfold State.settlePrep
  split
  · exact h.modOp
  · split <;> exact h.modOp
  · exact h.haltOp
  · exact h
  · exact h

theorem State.Canon.enterOp (h : s.Canon) {who flag r} : (s.enterOp who flag r).1.Canon := by
  unfold State.enterOp
  dsimp only
  split
  · exact h.modCore.bindOp
  · exact h.modCore

theorem State.Canon.holdFor (h : s.Canon) {core id team} : (s.holdFor core id team).Canon := by
  unfold State.holdFor
  split
  · exact h.modTeam
  · exact h

theorem State.Canon.holdTeam (h : s.Canon) {who id} : (s.holdTeam who id).Canon := by
  unfold State.holdTeam
  split
  · exact h
  · dsimp only
    refine State.Canon.holdFor ?_
    split
    · exact h
    · exact h.holdFor

theorem State.Canon.leaveQueue (h : s.Canon) {core id ctx} : (s.leaveQueue core id ctx).Canon := by
  unfold State.leaveQueue
  split
  · exact h
  · exact h.modCore

theorem State.Canon.goOnIssue (h : s.Canon) {who o} : (s.goOnIssue who o).Canon := by
  unfold State.goOnIssue
  dsimp only
  split
  · split
    · exact h.holdTeam.modOp.leaveQueue
    · exact h.holdTeam.modOp
  · split
    · exact (h.go EngCanon.prepareOp).snd ‹_›
    · exact (h.go EngCanon.prepareOp).snd ‹_›
    · split
      · exact ((h.go EngCanon.prepareOp).snd ‹_›).settlePrep.holdTeam.modOp.leaveQueue
      · exact ((h.go EngCanon.prepareOp).snd ‹_›).settlePrep.holdTeam.modOp

theorem State.Canon.issueEngine (h : s.Canon) {who r} : (s.issueEngine who r).Canon := by
  have hr : RelSt.Canon (if r.kind.flagged then s.releaseActs who.core (s.vfOf (s.ctxOf who)) r.scope 0b111 else .done s) := by
    split
    · exact h.releaseActs
    · exact h
  unfold State.issueEngine
  cases e : s.issuingOp who with
  | some o => exact h.goOnIssue
  | none =>
    dsimp only
    generalize (if r.kind.flagged then s.flagFor who r.fsel else none) = flag
    split
    · exact h
    · split
      · exact hr.wait ‹_›
      · exact (hr.done ‹_›).enterOp.goOnIssue

theorem State.Canon.blockForm (h : s.Canon) {kind e first} (hf : ∀ c, (first c).Canon) : OutCanon (blockForm kind e s first) := by
  refine h.issuing fun c => ?_
  dsimp only
  split
  · exact h.faultIssue
  · split
    · exact (hf c).wait ‹_›
    · exact h.faultIssue
    · split
      · exact h.addEff.finish
      · split
        · exact h.issueEngine.wait ‹_›
        · exact (h.issueEngine.done ‹_›).finish

theorem State.Canon.execCopy (h : s.Canon) {e} : OutCanon (execCopy e s) := h.blockForm (fun _ => h)
theorem State.Canon.execCopy2d (h : s.Canon) {e} : OutCanon (execCopy2d e s) := h.blockForm (fun _ => h)
theorem State.Canon.execTcopy (h : s.Canon) {e} : OutCanon (execTcopy e s) := h.blockForm (fun _ => h)
theorem State.Canon.execGath (h : s.Canon) {e} : OutCanon (execGath e s) := h.blockForm (fun _ => h)
theorem State.Canon.execScat (h : s.Canon) {e} : OutCanon (execScat e s) := h.blockForm (fun _ => h)
theorem State.Canon.execFill (h : s.Canon) {sz e} : OutCanon (execFill sz e s) := h.blockForm (fun _ => h)
theorem State.Canon.execStream (h : s.Canon) {e} : OutCanon (execStream e s) := h.blockForm (fun _ => h)
theorem State.Canon.execIstream (h : s.Canon) {e} : OutCanon (execIstream e s) := h.blockForm (fun _ => h)
theorem State.Canon.execHandoffTohost (h : s.Canon) {e} : OutCanon (execHandoffTohost e s) := h.blockForm (fun _ => h)
theorem State.Canon.execHandoffTodevice (h : s.Canon) {e} : OutCanon (execHandoffTodevice e s) := h.blockForm (fun _ => h)
theorem State.Canon.execMxload (h : s.Canon) {e} : OutCanon (execMxload e s) := h.blockForm (fun _ => h)

theorem State.Canon.cancelStream (h : s.Canon) {core o} : (s.cancelStream core o).Canon := by
  unfold State.cancelStream
  split
  · exact h.finishOp
  · dsimp only
    refine State.Canon.modCore ?_
    refine State.Canon.upd ?_ rfl
    split
    · exact h.foldl fun _ _ h₁ => h₁.leaveAll
    · exact h

theorem State.Canon.strmctl (h : s.Canon) {a} : OutCanon (strmctl a s) := by
  unfold Machine.strmctl
  refine State.Canon.issuing h fun _ => ?_
  dsimp only
  split
  · exact h.finish
  · split
    · exact h.finish
    · split
      · exact h.finish
      · exact h.cancelStream.finish
      · exact h.putGen.finish

theorem State.Canon.execStrmctlStart (h : s.Canon) {a0} : OutCanon (execStrmctlStart a0 s) := h.strmctl
theorem State.Canon.execStrmctlPause (h : s.Canon) {a0} : OutCanon (execStrmctlPause a0 s) := h.strmctl
theorem State.Canon.execStrmctlResume (h : s.Canon) {a0} : OutCanon (execStrmctlResume a0 s) := h.strmctl
theorem State.Canon.execStrmctlCancel (h : s.Canon) {a0} : OutCanon (execStrmctlCancel a0 s) := h.strmctl

/-! ## The operations of Machine/Parameters -/

theorem State.Canon.coreRead (h : s.Canon) {core by_ p n} : (s.coreRead core by_ p n).1.Canon := by
  unfold State.coreRead
  dsimp only
  split
  · exact h.modCore.sense
  · exact h.engGet

theorem State.Canon.readPiece (h : s.Canon) {c w va} : (s.readPiece c w va).Canon := by
  unfold State.readPiece
  dsimp only
  split
  · exact trivial
  · exact h.missAt
  · exact h.tlbPull.coreRead

theorem State.Canon.readPieces (h : s.Canon) {c w n va} : (s.readPieces c w n va).Canon := by
  induction n generalizing s va with
  | zero => exact h
  | succ n ih =>
    unfold State.readPieces
    split
    · next e =>
      have h₁ := ih (va := va + w) (h.readPiece.ok e)
      split
      · exact h₁.ok ‹_›
      · exact h₁.wait ‹_›
      · trivial
    · exact h.readPiece.wait ‹_›
    · trivial

theorem State.Canon.readBlock (h : s.Canon) {c va} : (s.readBlock c va).Canon := by
  unfold State.readBlock
  split
  · exact h
  · split
    · exact trivial
    · split
      · exact h.readPieces.ok ‹_›
      · exact h.readPieces.wait ‹_›
      · exact trivial

/-! ## The operations of Machine/Collectives -/

theorem State.Canon.execCommnew (h : s.Canon) {a0} : OutCanon (execCommnew a0 s) := by
  unfold Machine.execCommnew
  refine State.Canon.issuing h fun _ => ?_
  dsimp only
  split
  · exact h.readBlock.wait ‹_›
  · exact h.faultIssue
  · split
    · exact (h.readBlock.ok ‹_›).finish
    · split
      · exact (h.readBlock.ok ‹_›).finish
      · split
        · exact (h.readBlock.ok ‹_›).readPieces.wait ‹_›
        · exact (h.readBlock.ok ‹_›).faultIssue
        · split
          · exact ((h.readBlock.ok ‹_›).readPieces.ok ‹_›).finish
          · split
            · exact ((h.readBlock.ok ‹_›).readPieces.ok ‹_›).modHandle.addEff.finish
            · exact ((h.readBlock.ok ‹_›).readPieces.ok ‹_›).joinComm.finish

theorem State.Canon.execCommfree (h : s.Canon) {a0} : OutCanon (execCommfree a0 s) := by
  unfold Machine.execCommfree
  refine State.Canon.issuing h fun _ => ?_
  dsimp only
  split
  · exact h.finish
  · split
    · exact h.addEff.finish
    · split
      · exact h.freeHandle.finish
      · exact h

theorem State.Canon.execCommstat (h : s.Canon) {a0} : OutCanon (execCommstat a0 s) := h.issuing (fun _ => h.finish)

theorem State.Canon.collDead (h : s.Canon) {c} : (s.collDead c).Canon := by
  unfold State.collDead
  dsimp only
  split
  · split
    · exact trivial
    · exact trivial
    · exact trivial
    · exact h.translate.fst ‹_›
    · exact h.translate.fst ‹_›
  · exact (h.translate.fst ‹_›).askHost
  · exact h.translate.fst ‹_›

theorem State.Canon.collForm (h : s.Canon) {var e} : OutCanon (collForm var e s) := h.blockForm (fun _ => h.collDead)
theorem State.Canon.execCollAllreduce (h : s.Canon) {e} : OutCanon (execCollAllreduce e s) := h.collForm
theorem State.Canon.execCollReduce (h : s.Canon) {e} : OutCanon (execCollReduce e s) := h.collForm
theorem State.Canon.execCollBroadcast (h : s.Canon) {e} : OutCanon (execCollBroadcast e s) := h.collForm
theorem State.Canon.execCollAllgather (h : s.Canon) {e} : OutCanon (execCollAllgather e s) := h.collForm
theorem State.Canon.execCollReducescatter (h : s.Canon) {e} : OutCanon (execCollReducescatter e s) := h.collForm
theorem State.Canon.execCollAlltoall (h : s.Canon) {e} : OutCanon (execCollAlltoall e s) := h.collForm
theorem State.Canon.execCollBarrier (h : s.Canon) {e} : OutCanon (execCollBarrier e s) := h.collForm

/-! ## The operations of Machine/Matrix -/

theorem State.Canon.issueNow (h : s.Canon) {c r} : (s.issueNow c r).Canon := by
  unfold State.issueNow
  split
  · exact h.issueEngine.wait ‹_›
  · exact (h.issueEngine.done ‹_›).finish

theorem State.Canon.issueForm (h : s.Canon) {c r} : (s.issueForm c r).Canon := by
  unfold State.issueForm
  split
  · exact h.addEff.finish
  · exact h.issueNow

theorem State.Canon.execMxcfg (h : s.Canon) {arr a0} : OutCanon (execMxcfg arr a0 s) := by
  unfold Machine.execMxcfg
  refine State.Canon.issuing h fun _ => ?_
  dsimp only
  split
  · exact h.issueForm
  · split
    · exact h.modCore.issueForm
    · exact h

theorem State.Canon.execMxcfgRelease (h : s.Canon) {a0} : OutCanon (execMxcfgRelease a0 s) := by
  unfold Machine.execMxcfgRelease
  refine State.Canon.issuing h fun _ => ?_
  split
  · exact h.issueForm
  · exact h.finish

theorem State.Canon.execMxfeed (h : s.Canon) {a0} : OutCanon (execMxfeed a0 s) := by
  unfold Machine.execMxfeed
  refine State.Canon.issuing h fun _ => ?_
  dsimp only
  split
  · exact h.faultIssue
  · split
    · exact h.faultIssue
    · split
      · exact h.faultIssue
      · split
        · exact h.faultIssue
        · exact h
        · exact h.modCore.addEff.finish

theorem State.Canon.execMxfeeds (h : s.Canon) {e} : OutCanon (execMxfeeds e s) := by
  unfold Machine.execMxfeeds
  refine State.Canon.issuing h fun _ => ?_
  split
  · exact h.faultIssue
  · exact h.issueForm

theorem State.Canon.execMxmul (h : s.Canon) {e} : OutCanon (execMxmul e s) := h.issuing (fun _ => h.issueForm)

theorem State.Canon.execMxzero (h : s.Canon) {a0} : OutCanon (execMxzero a0 s) := by
  unfold Machine.execMxzero
  refine State.Canon.issuing h fun _ => ?_
  dsimp only
  split
  · exact h.faultIssue
  · split
    · exact h.faultIssue
    · split
      · exact h.addEff.finish
      · split
        · exact h.zeroRows.finish
        · exact h

theorem State.Canon.execMxdrain (h : s.Canon) {o} : OutCanon (execMxdrain o s) := by
  unfold Machine.execMxdrain
  refine State.Canon.issuing h fun _ => ?_
  dsimp only
  split
  · exact h.faultIssue
  · split
    · exact h.faultIssue
    · split
      · exact h
      · exact h.senseWhere.finish

theorem State.Canon.execMxstat (h : s.Canon) {a0} : OutCanon (execMxstat a0 s) := h.issuing (fun _ => h.finish)

/-! ## The operations of Machine/Sync -/

theorem State.Canon.execBar (h : s.Canon) {a0} : OutCanon (execBar a0 s) := h.issuing (fun _ => h.addEff.finish)

theorem State.Canon.execGbar (h : s.Canon) {a0} : OutCanon (execGbar a0 s) := by
  unfold Machine.execGbar
  refine State.Canon.issuing h fun _ => ?_
  split
  · exact h.addEff.finish
  · exact h.faultIssue

theorem State.Canon.execNbjoin (h : s.Canon) {a0 num} : OutCanon (execNbjoin a0 num s) := by
  unfold Machine.execNbjoin
  refine State.Canon.issuing h fun _ => ?_
  dsimp only
  split
  · exact h.faultIssue
  · split
    · exact h.faultIssue
    · exact h.addEff.finish

theorem State.Canon.execNbarrive (h : s.Canon) {a0 num} : OutCanon (execNbarrive a0 num s) := by
  unfold Machine.execNbarrive
  refine State.Canon.issuing h fun _ => ?_
  dsimp only
  split
  · exact h.faultIssue
  · split
    · exact h.addEff.finish
    · exact h.faultIssue

theorem State.Canon.execNbsync (h : s.Canon) {a0 num} : OutCanon (execNbsync a0 num s) := by
  unfold Machine.execNbsync
  refine State.Canon.issuing h fun _ => ?_
  dsimp only
  split
  · exact h.faultIssue
  · split
    · split <;> exact h.addEff.finish
    · exact h.faultIssue

theorem State.Canon.notePhase (h : s.Canon) {c p} : (s.notePhase c p).Canon := by
  unfold State.notePhase
  split
  · exact h
  · exact h.modInst

theorem State.Canon.execNbwait (h : s.Canon) {a0 num} : OutCanon (execNbwait a0 num s) := by
  unfold Machine.execNbwait
  refine State.Canon.issuing h fun _ => ?_
  split
  · exact h.faultIssue
  · dsimp only
    split
    · exact h.addEff.finish
    · split
      · split
        · exact h.faultIssue
        · exact h.addEff.finish
      · exact h.notePhase

theorem State.Canon.execWaitf (h : s.Canon) {a0 num} : OutCanon (execWaitf a0 num s) := by
  unfold Machine.execWaitf
  refine State.Canon.issuing h fun _ => ?_
  split
  · exact h
  · exact h.joinFlag.finish

theorem State.Canon.execEvwait (h : s.Canon) {a0 num} : OutCanon (execEvwait a0 num s) := by
  unfold Machine.execEvwait
  refine State.Canon.issuing h fun _ => ?_
  dsimp only
  split
  · exact h.acquireActs.finish
  · exact h

theorem State.Canon.signal (h : s.Canon) {x e} : (s.signal x e).Canon := h

theorem State.Canon.execEvsig (h : s.Canon) {a0 num} : OutCanon (execEvsig a0 num s) := by
  unfold Machine.execEvsig
  refine State.Canon.issuing h fun _ => ?_
  split
  · exact h.addEff.finish
  · split
    · exact h.releaseActs.wait ‹_›
    · exact (h.releaseActs.done ‹_›).signal.finish

theorem State.Canon.modChanOf (h : s.Canon) {who n f} : (s.modChanOf who n f).Canon := by
  unfold State.modChanOf
  split
  · exact h
  · exact h.modTeam

theorem State.Canon.execSend (h : s.Canon) {a0 num} : OutCanon (execSend a0 num s) := by
  unfold Machine.execSend
  refine State.Canon.issuing h fun _ => ?_
  split
  · exact h.addEff.finish
  · exact h.addEff.finish
  · exact h.faultIssue

theorem State.Canon.execRecv (h : s.Canon) {a0 num} : OutCanon (execRecv a0 num s) := by
  unfold Machine.execRecv
  refine State.Canon.issuing h fun _ => ?_
  dsimp only
  split
  · split
    · exact h.modChanOf.modInst.sense.finishMask
    · exact h
  · split
    · exact h.modChanOf.modInst.sense.finishMask
    · exact h
  · exact h.faultIssue

theorem State.Canon.execChstat (h : s.Canon) {a0 num} : OutCanon (execChstat a0 num s) := h.issuing (fun _ => h.finish)

theorem State.Canon.resizeCtl (h : s.Canon) {c n d} : (s.resizeCtl c n d).Canon := by
  unfold State.resizeCtl
  split
  · dsimp only
    refine State.Canon.finish ?_
    split
    · exact h.modChanOf.modCtl
    · exact h.modChanOf
  · exact h

theorem State.Canon.reserveDepth (h : s.Canon) {who n d} : (s.reserveDepth who n d).Canon := by
  unfold State.reserveDepth
  dsimp only
  split
  · exact h.modChanOf.modCtl
  · exact h.modChanOf

theorem State.Canon.execChresize (h : s.Canon) {a0 num} : OutCanon (execChresize a0 num s) := by
  unfold Machine.execChresize
  refine State.Canon.issuing h fun _ => ?_
  split
  · exact h.resizeCtl
  · dsimp only
    split
    · exact h.faultIssue
    · split
      · exact h.finish
      · split
        · exact h.reserveDepth.addEff.finish
        · exact h.reserveDepth.resizeCtl

/-! ## The operations of Machine/Launch -/

theorem State.Canon.reserveGrid (h : s.Canon) {x q} : (s.reserveGrid x q).Canon := h
theorem State.Canon.returnGrid (h : s.Canon) {x q seq} : (s.returnGrid x q seq).Canon := h

theorem State.Canon.readRecord (h : s.Canon) {who va} : (s.readRecord who va).Canon := by
  unfold State.readRecord
  dsimp only
  split
  · exact (h.translate.fst ‹_›).homeRead
  · exact (h.translate.fst ‹_›).askHost
  · exact ((h.translate.fst ‹_›).upd (by rfl)).deliver

theorem State.Canon.enterGrid (h : s.Canon) {x q seq rec_ va} : (s.enterGrid x q seq rec_ va).Canon := by
  unfold State.enterGrid
  split
  · exact h
  · exact (h.upd (by rfl)).modGrid

theorem State.Canon.launchDo (h : s.Canon) {who q seq va} : (s.launchDo who q seq va).Canon := by
  unfold State.launchDo
  dsimp only
  split
  · exact (h.readRecord.record ‹_›).enterGrid
  · exact (h.readRecord.bad ‹_›).enterGrid
  · exact h.readRecord.wait ‹_›

theorem State.Canon.launchNow (h : s.Canon) {who q seq va} : (s.launchNow who q seq va).Canon := by
  unfold State.launchNow
  dsimp only
  split
  · exact (h.readRecord.record ‹_›).reserveGrid.enterGrid
  · exact (h.readRecord.bad ‹_›).reserveGrid.enterGrid
  · exact h.readRecord.wait ‹_›

/-! ## The operations of Machine/Contexts -/

theorem State.Canon.effectForm (h : s.Canon) {c scope e res reserve now} (hr : ∀ s, s.Canon → (reserve s).Canon) (hn : ∀ s, s.Canon → (now s).Canon) :
    (s.effectForm c scope e res reserve now).Canon := by
  unfold State.effectForm
  split
  · exact (hr s h).addEff.finish
  · split
    · exact h.releaseActs.wait ‹_›
    · next e =>
      have h₁ := hn _ (h.releaseActs.done e)
      split
      · exact h₁.wait ‹_›
      · exact (h₁.done ‹_›).finish

theorem State.Canon.refuseLaunch (h : s.Canon) {c st} : (s.refuseLaunch c st).Canon := h.nextFree.finish

theorem State.Canon.execLaunch (h : s.Canon) {a0} : OutCanon (execLaunch a0 s) := by
  unfold Machine.execLaunch
  refine State.Canon.issuing h fun _ => ?_
  dsimp only
  split
  · exact h
  · split
    · exact h.faultIssue
    · split
      · exact h.refuseLaunch
      · split
        · exact h.refuseLaunch
        · split
          · split
            · exact h.refuseLaunch
            · split
              · exact h.addEff.finish
              · exact h.faultIssue
          · exact h.effectForm (fun _ h₁ => h₁.reserveGrid) fun _ h₁ => h₁.launchNow

theorem State.Canon.execLstat (h : s.Canon) {a0} : OutCanon (execLstat a0 s) := by
  unfold Machine.execLstat
  refine State.Canon.issuing h fun _ => ?_
  dsimp only
  split
  · exact h
  · refine State.Canon.finish ?_
    split
    · split
      · exact h.acquireActs
      · exact h
    · split
      · exact h.acquireActs
      · exact h

theorem State.Canon.readCores (h : s.Canon) {c n va} : (s.readCores c n va).Canon := by
  unfold State.readCores
  split
  · exact h.readPieces.ok ‹_›
  · exact h.readPieces.wait ‹_›
  · exact trivial

theorem State.Canon.holdGrant (h : s.Canon) {x idx who g} : (s.holdGrant x idx who g).Canon := h

theorem State.Canon.execCtxnew (h : s.Canon) {a0} : OutCanon (Machine.execCtxnew a0 s) := by
  unfold Machine.execCtxnew
  refine h.issuing fun c => ?_
  dsimp only
  split
  · exact h
  · split
    · exact h.finish
    · split
      · exact h.readBlock.wait ‹_›
      · exact h.faultIssue
      · next e =>
        have h₁ := h.readBlock.ok e
        split
        · exact h₁.finish
        · split
          · next e => exact h₁.readCores.wait e
          · exact h₁.faultIssue
          · next e =>
            have h₂ := h₁.readCores.ok e
            split
            · exact h₂.finish
            · split
              · exact h₂.finish
              · split
                · exact h₂.finish
                · split
                  · exact h₂.finish
                  · refine h₂.effectForm (fun _ h₃ => ?_) (fun _ h₃ => ?_)
                    · exact h₃.holdGrant
                    · exact h₃.createChild

theorem State.Canon.execCtxgrant (h : s.Canon) {a0} : OutCanon (execCtxgrant a0 s) := by
  unfold Machine.execCtxgrant
  refine State.Canon.issuing h fun _ => ?_
  dsimp only
  split
  · exact h
  · exact h.finish
  · split
    · exact h
    · split
      · exact h.readBlock.wait ‹_›
      · exact h.faultIssue
      · split
        · exact (h.readBlock.ok ‹_›).finish
        · split
          · exact (h.readBlock.ok ‹_›).readCores.wait ‹_›
          · exact (h.readBlock.ok ‹_›).faultIssue
          · split
            · exact ((h.readBlock.ok ‹_›).readCores.ok ‹_›).finish
            · split
              · exact ((h.readBlock.ok ‹_›).readCores.ok ‹_›).effectForm (fun _ h₁ => h₁.holdGrant.takeLock) fun _ h₁ => h₁.applyGrant
              · exact ((h.readBlock.ok ‹_›).readCores.ok ‹_›).finish

theorem State.Canon.execCtxrevoke (h : s.Canon) {a0} : OutCanon (execCtxrevoke a0 s) := by
  unfold Machine.execCtxrevoke
  refine State.Canon.issuing h fun _ => ?_
  dsimp only
  split
  · exact h
  · exact h.finish
  · split
    · exact h
    · split
      · exact h.readBlock.wait ‹_›
      · exact h.faultIssue
      · split
        · exact (h.readBlock.ok ‹_›).finish
        · split
          · exact (h.readBlock.ok ‹_›).readCores.wait ‹_›
          · exact (h.readBlock.ok ‹_›).faultIssue
          · split
            · exact ((h.readBlock.ok ‹_›).readCores.ok ‹_›).finish
            · split
              · exact ((h.readBlock.ok ‹_›).readCores.ok ‹_›).finish
              · split
                · exact ((h.readBlock.ok ‹_›).readCores.ok ‹_›).finish
                · split
                  · exact ((h.readBlock.ok ‹_›).readCores.ok ‹_›).takeLock.addEff.finish
                  · exact ((h.readBlock.ok ‹_›).readCores.ok ‹_›).applyRevoke.finish

theorem State.Canon.execCtxkill (h : s.Canon) {a0} : OutCanon (execCtxkill a0 s) := by
  unfold Machine.execCtxkill
  refine State.Canon.issuing h fun _ => ?_
  dsimp only
  split
  · exact h.faultIssue
  · split
    · exact h.finish
    · split
      · exact h
      · split
        · exact h.takeLock.addEff.finish
        · exact h.startKill.finish

theorem State.Canon.resumeDo (h : s.Canon) {x target b} : (s.resumeDo x target b).Canon := by
  unfold State.resumeDo
  split
  · exact h.startCtx
  · exact h.resumeHalts

theorem State.Canon.execCtxrunResume (h : s.Canon) {a0} : OutCanon (execCtxrunResume a0 s) := by
  unfold Machine.execCtxrunResume
  refine State.Canon.issuing h fun _ => ?_
  dsimp only
  split
  · exact h
  · exact h.finish
  · split
    · exact h
    · split
      · exact h.effectForm (fun _ h₁ => h₁.takeLock) fun _ h₁ => h₁.resumeDo
      · exact h.finish

theorem State.Canon.execCtxrunReflect (h : s.Canon) {a0} : OutCanon (execCtxrunReflect a0 s) := by
  unfold Machine.execCtxrunReflect
  refine State.Canon.issuing h fun _ => ?_
  dsimp only
  split
  · exact h
  · exact h.finish
  · split
    · exact h
    · split
      · exact h.effectForm (fun _ h₁ => h₁.takeLock) fun _ h₁ => h₁.reflectHalt
      · exact h.finish

theorem State.Canon.execCtxstat (h : s.Canon) {a0} : OutCanon (execCtxstat a0 s) := h.issuing (fun _ => h.finish)

theorem State.Canon.execTlbinv (h : s.Canon) {a0} : OutCanon (execTlbinv a0 s) := by
  unfold Machine.execTlbinv
  refine State.Canon.issuing h fun _ => ?_
  dsimp only
  split
  · exact h.faultIssue
  · split
    · exact h.addEff.finish
    · split
      · exact h
      · exact h.invDo.finish

theorem State.Canon.execFqpop (h : s.Canon) {a0} : OutCanon (execFqpop a0 s) := by
  unfold Machine.execFqpop
  refine State.Canon.issuing h fun _ => ?_
  dsimp only
  split
  · exact h.faultIssue
  · split
    · exact h
    · exact h.finish
    · split
      · exact h.checkAccess.wait ‹_›
      · exact h.faultIssue
      · split
        · exact (h.checkAccess.ok ‹_›).modCtx.addEff.finish
        · split
          · exact (((h.checkAccess.ok ‹_›).applyLanes (fun _ _ _ h₁ => h₁.applyStore)).fst ‹_›).modCtx.drainFaults.finish
          · exact ((h.checkAccess.ok ‹_›).applyLanes (fun _ _ _ h₁ => h₁.applyStore)).fst ‹_›

/-! ## The operations of Machine/System -/

theorem State.Canon.execRdsys (h : s.Canon) {a0 sel} : OutCanon (execRdsys a0 sel s) := by
  unfold Machine.execRdsys
  refine State.Canon.issuing h fun _ => ?_
  split
  · exact h.faultIssue
  · exact h.finish

theorem State.Canon.wrsysDo (h : s.Canon) {who r v} : (s.wrsysDo who r v).Canon := by
  unfold State.wrsysDo
  dsimp only
  split
  · split
    · exact h
    · exact h.modCtx.invDo
  · split
    · exact h
    · exact h.modTeam
  · exact h

theorem State.Canon.execWrsys (h : s.Canon) {a0 sel} : OutCanon (execWrsys a0 sel s) := by
  unfold Machine.execWrsys
  refine State.Canon.issuing h fun _ => ?_
  split
  · dsimp only
    split
    · exact h.faultIssue
    · split
      · exact h.addEff.finish
      · split
        · exact h.wrsysDo.wait ‹_›
        · exact (h.wrsysDo.done ‹_›).finish
  · exact h.faultIssue

theorem State.Canon.execTopo (h : s.Canon) {a0 sel} : OutCanon (execTopo a0 sel s) := by
  unfold Machine.execTopo
  refine State.Canon.issuing h fun _ => ?_
  split
  · exact h
  · exact h.finish

theorem State.Canon.execTime (h : s.Canon) {a0} : OutCanon (execTime a0 s) := h.issuing (fun _ => h.finish)
theorem State.Canon.execLatband (h : s.Canon) {a0} : OutCanon (execLatband a0 s) := h.issuing (fun _ => h.finish)
theorem State.Canon.execCapw (h : s.Canon) {a0} : OutCanon (execCapw a0 s) := h.issuing (fun _ => h.finish)

theorem State.Canon.execTrace (h : s.Canon) {a0} : OutCanon (execTrace a0 s) := by
  unfold Machine.execTrace
  refine State.Canon.issuing h fun _ => ?_
  split
  · exact h.addEff.finish
  · split
    · exact h.traceAppend.wait ‹_›
    · exact (h.traceAppend.done ‹_›).finish

theorem State.Canon.execTmaskMask (h : s.Canon) {a0} : OutCanon (execTmaskMask a0 s) := h.issuing (fun _ => h.addEff.finish)
theorem State.Canon.execTmaskUnmask (h : s.Canon) {a0} : OutCanon (execTmaskUnmask a0 s) := h.issuing (fun _ => h.addEff.finish)
theorem State.Canon.execTret (h : s.Canon) {a0} : OutCanon (execTret a0 s) := h.issuing (fun _ => h.addEff.finish)

/-! ## The operations of Machine/Effects -/

theorem State.Canon.afterRelease (h : s.Canon) {who scope e f} (hf : ∀ s, s.Canon → (f s).Canon) : (s.afterRelease who scope e f).s.Canon := by
  unfold State.afterRelease
  split
  · exact h.releaseActs.wait ‹_›
  · next e =>
    have h₁ := hf _ (h.releaseActs.done e)
    split
    · exact h₁.wait ‹_›
    · exact h₁.done ‹_›

theorem State.Canon.nbGive (h : s.Canon) {core slot b n f} : (s.nbGive core slot b n f).Canon := by
  unfold State.nbGive
  split
  · exact h
  · dsimp only
    split
    · split
      · exact h.modNBar
      · exact h.modNBar.modWarp
    · exact h.modNBar

theorem State.Canon.nbAwait (h : s.Canon) {core slot b n} : (s.nbAwait core slot b n).Canon := by
  unfold State.nbAwait
  split
  · exact h
  · split
    · exact h
    · exact h.modWarp

theorem State.Canon.stepEff (h : s.Canon) {core slot itag e} : (s.stepEff core slot itag e).s.Canon := by
  unfold State.stepEff
  dsimp only
  split
  · split
    · exact h.releaseActs.wait ‹_›
    · exact h.releaseActs.done ‹_›
  · exact h.acquireActs
  · split
    · split <;> exact (h.applyLanes (fun _ _ _ h₁ => h₁.applyStore)).fst ‹_›
    · exact (h.applyLanes (fun _ _ _ h₁ => h₁.applyStore)).fst ‹_›
  · split
    · split <;> exact (h.applyLanes (fun _ _ _ h₁ => h₁.applyRed)).fst ‹_›
    · exact (h.applyLanes (fun _ _ _ h₁ => h₁.applyRed)).fst ‹_›
  · split
    · split
      · exact (h.applyLanes (fun _ _ _ h₁ => h₁.applyStore)).fst ‹_›
      · exact ((h.applyLanes (fun _ _ _ h₁ => h₁.applyStore)).fst ‹_›).modCtx.drainFaults
    · exact (h.applyLanes (fun _ _ _ h₁ => h₁.applyStore)).fst ‹_›
  · split
    · exact h.issueEngine.wait ‹_›
    · exact h.issueEngine.done ‹_›
  · split
    · exact h.modChanOf
    · exact h
  · split
    · exact h.modChanOf
    · exact h
  · refine State.Canon.afterRelease h fun _ h₁ => ?_
    split
    · exact h₁
    · exact h₁.arriveBar
  · refine State.Canon.afterRelease h fun _ h₁ => ?_
    split
    · exact h₁
    · exact h₁.arriveGbar
  · exact h.afterRelease fun _ h₁ => h₁.nbGive
  · exact h.afterRelease fun _ h₁ => h₁.nbGive
  · exact h.afterRelease fun _ h₁ => h₁.nbGive.nbAwait
  · exact h.modWarp
  · exact h.afterRelease fun _ h₁ => h₁.signal
  · exact h.modCore
  · split
    · exact h
    · dsimp only
      split
      · split
        · exact h.zeroRows
        · exact h
      · exact h
  · exact h.joinComm
  · split
    · exact h.freeHandle
    · exact h
  · exact h.afterRelease fun _ h₁ => h₁.launchDo
  · exact h.afterRelease fun _ h₁ => h₁.createChild
  · exact h.afterRelease fun _ h₁ => h₁.applyGrant
  · exact h.applyRevoke
  · exact h.killNamed
  · exact h.afterRelease fun _ h₁ => h₁.resumeDo
  · exact h.afterRelease fun _ h₁ => h₁.reflectHalt
  · split
    · exact h
    · exact h.invDo
  · split
    · exact h.wrsysDo.wait ‹_›
    · exact h.wrsysDo.done ‹_›
  · split
    · exact h.traceAppend.wait ‹_›
    · exact h.traceAppend.done ‹_›
  · exact h.modWarp
  · exact h
  · exact h
  · exact h
  · exact h

theorem State.Canon.runEffs (h : s.Canon) {core slot itag l} : (State.runEffs core slot itag s l).1.Canon := by
  induction l generalizing s with
  | nil => exact h
  | cons e rest ih =>
    unfold State.runEffs
    dsimp only
    split
    · exact ih h.stepEff
    · exact h.stepEff

theorem State.Canon.undoEff (h : s.Canon) {core slot itag e} : (s.undoEff core slot itag e).Canon := by
  unfold State.undoEff
  dsimp only
  split
  · exact h.modChanOf
  · exact h.modCore
  · exact h.modHandle
  · exact h.returnGrid
  · exact h.modCtx
  · exact h

theorem State.Canon.dropInstReserves (h : s.Canon) {core slot itag} : (s.dropInstReserves core slot itag).Canon := h
theorem State.Canon.dropWaiters (h : s.Canon) {who} : (s.dropWaiters who).Canon := h

theorem State.Canon.dropInst (h : s.Canon) {core slot itag} : (s.dropInst core slot itag).Canon := by
  unfold State.dropInst
  split
  · exact h
  · split
    · exact h
    · next i _ =>
      have hu : (i.effs.reverse.foldl (fun s e => s.undoEff core slot itag e) s).Canon := h.foldl fun _ _ h₁ => h₁.undoEff
      exact hu.modTeam.dropHeld.dropInstReserves.dropWaiters.withReqs.modCore.modWarp

theorem State.Canon.squash (h : s.Canon) {core slot p} : (s.squash core slot p).Canon := by
  unfold State.squash
  split
  · exact h
  · exact h.foldl fun _ _ h₁ => h₁.dropInst

theorem State.Canon.undoDropped (h : s.Canon) {core slot keep i} : (s.undoDropped core slot keep i).Canon := by
  unfold State.undoDropped
  dsimp only
  have h₁ : (s.dropLoads core slot i.itag keep).Canon := h.upd (by rfl)
  split
  · exact h₁.foldl fun _ _ h₂ => h₂.undoEff
  · exact (h₁.foldl fun _ _ h₂ => h₂.undoEff).modTeam

/-! ## The operations of Machine/Commit -/

theorem State.Canon.areaWrite (h : s.Canon) {core x va bs} : (s.areaWrite core x va bs).Canon := by
  unfold State.areaWrite
  split
  · exact h.translate.fst ‹_›
  · exact ((h.translate.fst ‹_›).foldl (fun _ _ h₁ => h₁.dieFlush)).homePoke

theorem State.Canon.setTable (h : s.Canon) {core slot l run} : (s.setTable core slot l run).Canon := by
  unfold State.setTable
  split
  · exact h
  · exact (h.foldl (fun _ _ h₁ => h₁.areaWrite)).modWarp

theorem State.Canon.exitWalks (h : s.Canon) {core x l} : (State.exitWalks core x s l).1.Canon := by
  induction l generalizing s with
  | nil => exact h
  | cons q rest ih =>
    unfold State.exitWalks
    split
    · exact ih (h.translate.fst ‹_›)
    · exact h.translate.fst ‹_›

theorem State.Canon.checkExit (h : s.Canon) {core slot w i b} : (s.checkExit core slot w i b).Canon := by
  have hw {s} (h : s.Canon) {l} : (State.exitWalks core w.ctx s l).1.Canon := h.exitWalks
  unfold State.checkExit
  dsimp only
  split
  · exact h
  · split
    · exact h
    · split
      · next e => exact (hw h).fst e |>.askHost
      · next e => exact (hw h).fst e
      · next e =>
        have h₁ := (hw h).fst e
        split
        · exact h₁
        · split
          · next e => exact (hw h₁).fst e
          · next e => exact (hw h₁).fst e |>.askHost
          · next e => exact (hw h₁).fst e

theorem State.Canon.trapAt (h : s.Canon) {core slot f async block resume itag} : (s.trapAt core slot f async block resume itag).Canon := by
  unfold State.trapAt
  split
  · exact h
  · exact h.raiseTrap

theorem State.Canon.endSwitch (h : s.Canon) {core slot} : (s.endSwitch core slot).Canon := by
  unfold State.endSwitch
  split
  · exact h
  · split
    · exact h.dropReserves
    · exact h

theorem State.Canon.barrierTrap (h : s.Canon) {core slot} : (s.barrierTrap core slot).Canon := by
  unfold State.barrierTrap
  split
  · exact h
  · split
    · exact h
    · exact h.setTable.endSwitch.trapAt

theorem State.Canon.chooseRun (h : s.Canon) {core slot} : (s.chooseRun core slot).Canon := by
  unfold State.chooseRun
  split
  · exact h
  · split
    · exact h
    · exact h.barrierTrap
    · dsimp only
      refine State.Canon.endSwitch ?_
      refine State.Canon.setTable ?_
      split
      · exact h.modCtx
      · exact h

theorem State.Canon.asyncTrap (h : s.Canon) {core slot} : (s.asyncTrap core slot).Canon := by
  unfold State.asyncTrap
  split
  · exact h
  · split
    · exact h
    · split
      · exact h
      · dsimp only
        split
        · exact h.modWarp.trapAt
        · split
          · exact h.modWarp.trapAt
          · exact h

theorem State.Canon.keepYounger (h : s.Canon) {core slot} : (s.keepYounger core slot).Canon := by
  unfold State.keepYounger
  split
  · exact h
  · split
    · exact h.squash
    · dsimp only
      split
      · exact h
      · exact h.squash

theorem State.Canon.boundary (h : s.Canon) {core slot} : (s.boundary core slot).Canon := h.applyMailbox.chooseRun.asyncTrap.keepYounger

theorem State.Canon.pushCalls (h : s.Canon) {core slot w i} : (s.pushCalls core slot w i).Canon := by
  unfold State.pushCalls
  split
  · exact h
  · dsimp only
    refine State.Canon.foldl h fun _ _ h₁ => ?_
    split
    · exact h₁.areaWrite
    · exact h₁

theorem State.Canon.looseReserves (h : s.Canon) {core slot itag} : (s.looseReserves core slot itag).Canon := h

theorem State.Canon.finishCommit (h : s.Canon) {core slot w i b after} : (s.finishCommit core slot w i b after).Canon := by
  unfold State.finishCommit
  dsimp only
  refine State.Canon.modCore ?_
  split
  · exact (h.pushCalls.foldl (fun _ _ h₁ => h₁.undoDropped)).modWarp.setTable.modTeam.dropHeld.looseReserves.modCore
  · split
    · exact (h.pushCalls.foldl (fun _ _ h₁ => h₁.undoDropped)).modWarp.setTable.modTeam.dropHeld.looseReserves.modCore.squash.applyMailbox.barrierTrap
    · exact (h.pushCalls.foldl (fun _ _ h₁ => h₁.undoDropped)).modWarp.setTable.modTeam.dropHeld.looseReserves.modCore.boundary

theorem State.Canon.endIfDone (h : s.Canon) {core slot} : (s.endIfDone core slot).Canon := by
  unfold State.endIfDone
  split
  · exact h
  · split
    · exact h.endWarp.modCore
    · exact h

theorem State.Canon.commitStep (h : s.Canon) {core slot} : (s.commitStep core slot).Canon := by
  unfold State.commitStep
  split
  · exact h
  · split
    · exact h
    · split
      · exact h
      · dsimp only
        split
        · exact h
        · split
          · split
            · exact h.modInst
            · split
              · split
                · exact h.modInst.runEffs.fst ‹_›
                · exact (h.modInst.runEffs.fst ‹_›).finishCommit.endIfDone
              · exact (h.modInst.runEffs.fst ‹_›).modInst
          · split
            · exact h
            · split
              · exact (h.checkExit.fault ‹_›).recordExit
              · exact h.checkExit.wait ‹_›
              · split
                · split
                  · exact (h.checkExit.ok ‹_›).modInst
                  · split
                    · split
                      · exact (h.checkExit.ok ‹_›).modInst.runEffs.fst ‹_›
                      · exact ((h.checkExit.ok ‹_›).modInst.runEffs.fst ‹_›).finishCommit.endIfDone
                    · exact ((h.checkExit.ok ‹_›).modInst.runEffs.fst ‹_›).modInst
                · exact h.checkExit.ok ‹_›

theorem State.Canon.raiseExit (h : s.Canon) {core slot i f} : (s.raiseExit core slot i f).Canon := by
  unfold State.raiseExit
  dsimp only
  refine State.Canon.modCore ?_
  split
  · exact h.squash.applyMailbox.trapAt.asyncTrap
  · exact h.squash.applyMailbox.haltWarp

theorem State.Canon.discardStep (h : s.Canon) {core slot itag} : (s.discardStep core slot itag).Canon := by
  unfold State.discardStep
  split
  · exact h
  · split
    · exact h
    · split
      · exact h
      · split
        · dsimp only
          refine State.Canon.modCore ?_
          split
          · exact h.squash.applyMailbox
          · exact h.squash
        · split
          · split
            · exact h
            · exact h.raiseExit
          · exact h

/-! ## The operations of Machine/BlockLife -/

theorem State.Canon.startInst (h : s.Canon) {core slot w e b} : (s.startInst core slot w e b).Canon := h

theorem State.Canon.parkOrAdmit (h : s.Canon) {core slot w e b} : (s.parkOrAdmit core slot w e b).Canon := by
  unfold State.parkOrAdmit
  split
  · exact h.startInst
  · split
    · exact h.startInst
    · split
      · exact h.haltWarp
      · dsimp only
        split
        · exact h.setTable.barrierTrap
        · exact h.setTable.boundary
    · exact h.barrierTrap
    · exact h.haltWarp

theorem State.Canon.admitNext (h : s.Canon) {core slot w t e} : OptCanon (s.admitNext core slot w t e) := by
  have go {s : State} (h : s.Canon) {b : RBlock} {flags : List Nat} {c : Bool} : OptCanon (if c then none else
      some ((flags.foldl (fun s n => s.joinFlag (.warp core slot w.nt) n) s).parkOrAdmit core slot w e b)) := by
    split
    · trivial
    · exact (h.foldl fun _ _ h₁ => h₁.joinFlag).parkOrAdmit
  unfold State.admitNext
  dsimp only
  split
  · trivial
  · split
    · refine OptCanon.bindOf fun b => ?_
      split
      · exact go h
      · trivial
    · split
      · trivial
      · split
        · exact h.fetchBlock.wait ‹_›
        · exact (h.fetchBlock.fault ‹_›).haltWarp
        · exact go (h.fetchBlock.ok ‹_›)

theorem State.Canon.admitTry (h : s.Canon) {core slot} : OptCanon (s.admitTry core slot) := by
  unfold State.admitTry
  split
  · exact trivial
  · split
    · split
      · exact trivial
      · split
        · exact h.endIfDone
        · dsimp only
          split
          · exact h.modWarp.haltWarp
          · split
            · exact h.modWarp
            · split
              · exact trivial
              · split
                · split
                  · exact h.chooseRun
                  · exact trivial
                · split
                  · exact h.asyncTrap
                  · split
                    · exact trivial
                    · exact h.admitNext
    · exact trivial

theorem State.Canon.admitPick (h : s.Canon) {core p} (e : s.admitPick core = some p) : p.2.Canon := by
  obtain ⟨sl, -, he⟩ := List.exists_of_findSome?_eq_some e
  obtain ⟨r, hr, rfl⟩ := Option.map_eq_some_iff.1 he
  exact h.admitTry.some hr

theorem State.Canon.execBlockAdmit (h : s.Canon) {core slot} : OutCanon (execBlockAdmit core slot s) := by
  change State.Canon (ite _ _ _)
  split
  · exact h
  · split
    · next e =>
      split
      · exact h.admitPick e
      · exact h
    · exact h

theorem State.Canon.execTokenArrive (h : s.Canon) {core node} : OutCanon (execTokenArrive core node s) := by
  unfold Machine.execTokenArrive
  dsimp only
  split
  · exact h
  · split
    · exact h
    · exact h.modCore

theorem State.Canon.execLoadReply (h : s.Canon) {who idx} : OutCanon (execLoadReply who idx s) := by
  unfold Machine.execLoadReply
  split
  · exact h
  · exact h.tryPend.completePend

theorem State.Canon.execBlockCommit (h : s.Canon) {core slot} : OutCanon (execBlockCommit core slot s) := h.commitStep
theorem State.Canon.execBlockDiscard (h : s.Canon) {core slot itag} : OutCanon (execBlockDiscard core slot itag s) := h.discardStep

theorem State.Canon.execFairnessTimer (h : s.Canon) {core slot} : OutCanon (execFairnessTimer core slot s) := by
  unfold Machine.execFairnessTimer
  split
  · exact h
  · split
    · exact h
    · split
      · exact h
      · dsimp only
        split
        · exact h
        · exact h.setTable.boundary

theorem State.Canon.tagSuffer (h : s.Canon) {core slot iterations} : (s.tagSuffer core slot iterations).Canon := h
theorem State.Canon.tagCount (h : s.Canon) {core slots} : (s.tagCount core slots).Canon := h.foldl (fun _ _ h₁ => h₁.modCtx)

theorem State.Canon.execTagExhausted (h : s.Canon) {core node} : OutCanon (execTagExhausted core node s) := by
  unfold Machine.execTagExhausted
  dsimp only
  split
  · exact h
  · split
    · exact (h.foldl (fun _ _ h₁ => h₁.squash.tagSuffer)).tagCount.modCore
    · split
      · exact h
      · exact h.modInst.tagSuffer.tagCount

theorem State.Canon.execBlockStuck (h : s.Canon) {core slot itag} : OutCanon (execBlockStuck core slot itag s) := by
  unfold Machine.execBlockStuck
  split
  · exact h
  · split
    · exact h
    · split
      · exact h
      · split
        · exact h
        · exact h.raiseExit

/-! ## The operations of Machine/EngineRun -/

theorem State.Canon.prepareAgain (h : s.Canon) {core o} : (s.prepareAgain core o).Canon := by
  unfold State.prepareAgain
  split
  · exact h
  · split
    · exact (h.go EngCanon.prepareOp).snd ‹_›
    · dsimp only
      split
      · exact ((h.go EngCanon.prepareOp).snd ‹_›).settlePrep.holdTeam.modCore
      · exact ((h.go EngCanon.prepareOp).snd ‹_›).settlePrep.holdTeam

theorem State.Canon.execEngineOpStart (h : s.Canon) {core op} : OutCanon (execEngineOpStart core op s) := by
  unfold Machine.execEngineOpStart
  split
  · exact h
  · split
    · exact h
    · split
      · exact h.prepareAgain
      · split
        · exact h
        · dsimp only
          split
          · split
            · exact ((h.go EngCanon.startColl).snd ‹_›).modOp
            · exact ((h.go EngCanon.startColl).snd ‹_›).haltOp
            · exact (h.go EngCanon.startColl).snd ‹_›
          · exact h.modOp

theorem EngCanon.readUnit {core o u} : EngCanon (readUnit core o u) := by
  unfold Machine.readUnit
  split
  · exact EngCanon.readCopy
  · exact EngCanon.readCopy
  · exact EngCanon.readFill
  · exact EngCanon.readTcopy
  · exact EngCanon.readGather
  · exact EngCanon.readGather
  · exact EngCanon.readIstream
  · exact EngCanon.readHandoff
  · exact EngCanon.readMxload
  · exact .pure
  · exact .pure
  · exact .pure
  · exact .pure
  · exact .pure
  · exact .pure

theorem EngCanon.transferOp {core o} : EngCanon (transferOp core o) := by
  unfold Machine.transferOp
  split
  · exact EngCanon.runColl
  · split
    · exact .bind (.engMove (fun _ => .readUnit)) fun _ => .pure
    · split
      · exact .bind .runHandoff fun _ => .pure
      · exact .bind (.engMod (fun _ h₁ => h₁.markLoaded)) fun _ => .pure
      · exact .pure

theorem State.Canon.endOp (h : s.Canon) {core op} : (s.endOp core op).Canon := by
  unfold State.endOp
  split
  · exact h
  · split
    · exact h
    · split
      · exact h.modCore
      · dsimp only
        refine State.Canon.closeColl ?_
        refine State.Canon.finishOp ?_
        split
        · split
          · exact h.modNBar
          · exact h
        · exact h

theorem State.Canon.transferred (h : s.Canon) {core op code} : (s.transferred core op code).Canon := h.modOp.endOp

theorem State.Canon.execEngineOpComplete (h : s.Canon) {core op} : OutCanon (execEngineOpComplete core op s) := by
  unfold Machine.execEngineOpComplete
  split
  · exact h
  · split
    · exact h
    · split
      · exact h.endOp
      · split
        · exact h
        · split
          · exact ((h.go EngCanon.transferOp).snd ‹_›).transferred
          · exact ((h.go EngCanon.transferOp).snd ‹_›).modOp
          · exact ((h.go EngCanon.transferOp).snd ‹_›).haltOp
          · exact ((h.go EngCanon.transferOp).snd ‹_›).modOp
      · split
        · exact h
        · split
          · exact ((h.go EngCanon.transferOp).snd ‹_›).transferred
          · exact ((h.go EngCanon.transferOp).snd ‹_›).modOp
          · exact ((h.go EngCanon.transferOp).snd ‹_›).haltOp
          · exact ((h.go EngCanon.transferOp).snd ‹_›).modOp
      · split
        · exact h.transferred
        · exact h
      · split
        · exact h.transferred
        · exact h

theorem State.Canon.endStream (h : s.Canon) {core o} : (s.endStream core o).Canon := by
  unfold State.endStream
  split
  · exact h
  · exact h.modOp.finishOp

theorem EngCanon.stepStream {core gen st o} : EngCanon (stepStream core gen st o) := by
  unfold Machine.stepStream
  dsimp only
  split
  · exact .bind .moveRow fun _ => .engMod fun _ h₁ => h₁.putGen
  · split
    · refine EngCanon.get_bind fun _ h₁ => ?_
      split
      · exact .bind .throw fun _ => .beginUnit
      · exact EngCanon.beginUnit
    · split
      · exact EngCanon.engMove fun _ => EngCanon.readStream
      · exact .bind .endUnit fun _ => .bind (.engMod (fun _ h₁ => h₁.streamArrive)) fun _ => .engMod fun _ h₁ => h₁.putGen

theorem State.Canon.execStreamBuffer (h : s.Canon) {core gen} : OutCanon (execStreamBuffer core gen s) := by
  unfold Machine.execStreamBuffer
  dsimp only
  split
  · exact h
  · split
    · exact h
    · split
      · split
        · exact h.endStream
        · split
          · exact (h.go EngCanon.stepStream).snd ‹_›
          · exact ((h.go EngCanon.stepStream).snd ‹_›).haltOp
          · exact (h.go EngCanon.stepStream).snd ‹_›
      · split
        · exact h.endStream
        · split
          · exact (h.go EngCanon.stepStream).snd ‹_›
          · exact ((h.go EngCanon.stepStream).snd ‹_›).haltOp
          · exact (h.go EngCanon.stepStream).snd ‹_›

/-! ## The operations of Machine/CollRun -/

theorem State.Canon.execCommReady (h : s.Canon) {key} : OutCanon (execCommReady key s) := by
  unfold Machine.execCommReady
  split
  · exact h
  · exact h.markHandles.modComm

theorem State.Canon.execCommFormTimeout (h : s.Canon) {key} : OutCanon (execCommFormTimeout key s) := by
  unfold Machine.execCommFormTimeout
  split
  · exact h
  · exact h.killComm

theorem State.Canon.execAbortNotice (h : s.Canon) {key k} : OutCanon (execAbortNotice key k s) := by
  unfold Machine.execAbortNotice
  split
  · exact h.decideColl
  · exact h

theorem State.Canon.execCollDecisionTimeout (h : s.Canon) {key k} : OutCanon (execCollDecisionTimeout key k s) := h.modComm

theorem State.Canon.flitEffect (h : s.Canon) {port e b} : (s.flitEffect port e b).Canon := by
  unfold State.flitEffect
  split
  · split
    · exact h.modLink
    · exact h
  · split
    · exact h.modLink
    · dsimp only
      split
      · exact h.joinRemote
      · exact h
    · exact h.modComm
    · exact h.modComm.tellDecisions
    · exact h.foldl fun _ _ h₁ => h₁.killComm
    · exact h.modComm

theorem State.Canon.execVociaFlitReceive (h : s.Canon) {port flit} : OutCanon (execVociaFlitReceive port flit s) := by
  unfold Machine.execVociaFlitReceive
  split
  · exact h
  · split
    · exact h.modLink
    · split
      · exact h
      · exact h.modLink.flitEffect

theorem State.Canon.execVociaPathLoss (h : s.Canon) {port} : OutCanon (execVociaPathLoss port s) := by
  unfold Machine.execVociaPathLoss
  dsimp only
  split
  · exact h
  · split
    · exact h.modLink
    · split
      · exact h.foldl fun _ _ h₁ => h₁.killComm
      · exact h

/-! ## The operations of Machine/Convert -/

theorem State.Canon.cvtMeaning (h : s.Canon) {f} : OutCanon (cvtMeaning s f) := h.issuing (fun _ => h.finish)
theorem State.Canon.execCvt (h : s.Canon) {o} : OutCanon (execCvt o s) := h.cvtMeaning
theorem State.Canon.execCvtSr (h : s.Canon) {o} : OutCanon (execCvtSr o s) := h.cvtMeaning
theorem State.Canon.execPack (h : s.Canon) {o} : OutCanon (execPack o s) := h.issuing (fun _ => h.finish)
theorem State.Canon.execUnpack (h : s.Canon) {o} : OutCanon (execUnpack o s) := h.cvtMeaning
theorem State.Canon.execDsenc (h : s.Canon) {o} : OutCanon (execDsenc o s) := h.cvtMeaning
theorem State.Canon.execDsdec (h : s.Canon) {o} : OutCanon (execDsdec o s) := h.cvtMeaning
theorem State.Canon.execScaleq (h : s.Canon) {o} : OutCanon (execScaleq o s) := h.cvtMeaning
theorem State.Canon.execQuant (h : s.Canon) {o} : OutCanon (execQuant o s) := h.cvtMeaning

theorem State.Canon.execRng (h : s.Canon) {a0} : OutCanon (execRng a0 s) := by
  unfold Machine.execRng
  refine State.Canon.issuing h fun _ => ?_
  dsimp only
  split <;> exact h.finish

/-! ## The operations of Machine/Integer -/

theorem State.Canon.intMeaning (h : s.Canon) {o f} : OutCanon (intMeaning o s f) := h.issuing (fun _ => h.finish)
theorem State.Canon.execIadd (h : s.Canon) {o} : OutCanon (execIadd o s) := h.intMeaning
theorem State.Canon.execIsub (h : s.Canon) {o} : OutCanon (execIsub o s) := h.intMeaning
theorem State.Canon.execImul (h : s.Canon) {o} : OutCanon (execImul o s) := h.intMeaning
theorem State.Canon.execImulh (h : s.Canon) {o} : OutCanon (execImulh o s) := h.intMeaning
theorem State.Canon.execImad (h : s.Canon) {o} : OutCanon (execImad o s) := h.intMeaning
theorem State.Canon.execIneg (h : s.Canon) {o} : OutCanon (execIneg o s) := h.intMeaning
theorem State.Canon.execIabs (h : s.Canon) {o} : OutCanon (execIabs o s) := h.intMeaning
theorem State.Canon.execImin (h : s.Canon) {o} : OutCanon (execImin o s) := h.intMeaning
theorem State.Canon.execImax (h : s.Canon) {o} : OutCanon (execImax o s) := h.intMeaning
theorem State.Canon.execIdiv (h : s.Canon) {o} : OutCanon (execIdiv o s) := h.intMeaning
theorem State.Canon.execIrem (h : s.Canon) {o} : OutCanon (execIrem o s) := h.intMeaning
theorem State.Canon.execIand (h : s.Canon) {o} : OutCanon (execIand o s) := h.intMeaning
theorem State.Canon.execIor (h : s.Canon) {o} : OutCanon (execIor o s) := h.intMeaning
theorem State.Canon.execIxor (h : s.Canon) {o} : OutCanon (execIxor o s) := h.intMeaning
theorem State.Canon.execInot (h : s.Canon) {o} : OutCanon (execInot o s) := h.intMeaning
theorem State.Canon.execAndn (h : s.Canon) {o} : OutCanon (execAndn o s) := h.intMeaning
theorem State.Canon.execShl (h : s.Canon) {o} : OutCanon (execShl o s) := h.intMeaning
theorem State.Canon.execShr (h : s.Canon) {o} : OutCanon (execShr o s) := h.intMeaning
theorem State.Canon.execSar (h : s.Canon) {o} : OutCanon (execSar o s) := h.intMeaning
theorem State.Canon.execRol (h : s.Canon) {o} : OutCanon (execRol o s) := h.intMeaning
theorem State.Canon.execRor (h : s.Canon) {o} : OutCanon (execRor o s) := h.intMeaning
theorem State.Canon.execPopc (h : s.Canon) {o} : OutCanon (execPopc o s) := h.intMeaning
theorem State.Canon.execClz (h : s.Canon) {o} : OutCanon (execClz o s) := h.intMeaning
theorem State.Canon.execCtz (h : s.Canon) {o} : OutCanon (execCtz o s) := h.intMeaning
theorem State.Canon.execBrev (h : s.Canon) {o} : OutCanon (execBrev o s) := h.intMeaning
theorem State.Canon.execBfx (h : s.Canon) {o} : OutCanon (execBfx o s) := h.intMeaning
theorem State.Canon.execBfi (h : s.Canon) {o} : OutCanon (execBfi o s) := h.intMeaning
theorem State.Canon.execIcmp (h : s.Canon) {rel o} : OutCanon (execIcmp rel o s) := h.issuing (fun _ => h.finish)
theorem State.Canon.execLea (h : s.Canon) {sh o} : OutCanon (execLea sh o s) := h.intMeaning

/-! ## The operations of Machine/Float -/

theorem State.Canon.fltMeaning (h : s.Canon) {o f} : OutCanon (fltMeaning o s f) := h.issuing (fun _ => h.finish)
theorem State.Canon.execFadd (h : s.Canon) {o} : OutCanon (execFadd o s) := h.fltMeaning
theorem State.Canon.execFsub (h : s.Canon) {o} : OutCanon (execFsub o s) := h.fltMeaning
theorem State.Canon.execFmul (h : s.Canon) {o} : OutCanon (execFmul o s) := h.fltMeaning
theorem State.Canon.execFfma (h : s.Canon) {o} : OutCanon (execFfma o s) := h.fltMeaning
theorem State.Canon.execFdiv (h : s.Canon) {o} : OutCanon (execFdiv o s) := h.fltMeaning
theorem State.Canon.execFsqrt (h : s.Canon) {o} : OutCanon (execFsqrt o s) := h.fltMeaning
theorem State.Canon.execFldexp (h : s.Canon) {o} : OutCanon (execFldexp o s) := h.issuing (fun _ => h.finish)
theorem State.Canon.execFmin (h : s.Canon) {num o} : OutCanon (execFmin num o s) := h.fltMeaning
theorem State.Canon.execFmax (h : s.Canon) {num o} : OutCanon (execFmax num o s) := h.fltMeaning
theorem State.Canon.execFcmp (h : s.Canon) {rel o} : OutCanon (execFcmp rel o s) := h.fltMeaning
theorem State.Canon.execFclass (h : s.Canon) {o} : OutCanon (execFclass o s) := h.fltMeaning
theorem State.Canon.execFrnd (h : s.Canon) {o} : OutCanon (execFrnd o s) := h.fltMeaning
theorem State.Canon.execFrcp (h : s.Canon) {o} : OutCanon (execFrcp o s) := h.fltMeaning
theorem State.Canon.execFrsq (h : s.Canon) {o} : OutCanon (execFrsq o s) := h.fltMeaning
theorem State.Canon.execFex2 (h : s.Canon) {o} : OutCanon (execFex2 o s) := h.fltMeaning
theorem State.Canon.execFlg2 (h : s.Canon) {o} : OutCanon (execFlg2 o s) := h.fltMeaning
theorem State.Canon.execFsin (h : s.Canon) {o} : OutCanon (execFsin o s) := h.fltMeaning
theorem State.Canon.execFcos (h : s.Canon) {o} : OutCanon (execFcos o s) := h.fltMeaning
theorem State.Canon.halfMeaning (h : s.Canon) {bf o f} : OutCanon (halfMeaning bf o s f) := h.issuing (fun _ => h.finish)
theorem State.Canon.execHadd2 (h : s.Canon) {bf o} : OutCanon (execHadd2 bf o s) := h.halfMeaning
theorem State.Canon.execHmul2 (h : s.Canon) {bf o} : OutCanon (execHmul2 bf o s) := h.halfMeaning
theorem State.Canon.execHfma2 (h : s.Canon) {bf o} : OutCanon (execHfma2 bf o s) := h.halfMeaning

/-! ## The operations of Machine/Host -/

theorem State.Canon.ignore (h : s.Canon) {vf} : (s.ignore vf).Canon := h

theorem State.Canon.pageWrite (h : s.Canon) {vf i f} (hf : ∀ s, s.Canon → (f s).Canon) : OutCanon (s.pageWrite vf i f) := by
  unfold State.pageWrite
  split
  · exact hf s h
  · split
    · exact h.postpone
    · exact h

theorem State.Canon.execVfRegisterWrite (h : s.Canon) {vf off value width} : OutCanon (execVfRegisterWrite vf off value width s) := by
  unfold Machine.execVfRegisterWrite
  refine State.Canon.pageWrite h fun _ h₁ => ?_
  split
  · exact h₁
  · split
    · exact h₁.modVf
    · split
      · exact h₁.modVf
      · split
        · exact h₁.modVf
        · split
          · exact h₁.modVf
          · exact h₁

theorem State.Canon.execAperBaseWrite (h : s.Canon) {vf value} : OutCanon (execAperBaseWrite vf value s) := by
  unfold Machine.execAperBaseWrite
  refine State.Canon.pageWrite h fun _ h₁ => ?_
  split
  · exact h₁.modVf
  · exact h₁.ignore

theorem State.Canon.execKick (h : s.Canon) {vf e} : OutCanon (execKick vf e s) := by
  unfold Machine.execKick
  refine State.Canon.pageWrite h fun _ h₁ => ?_
  split
  · exact h₁
  · split
    · exact h₁.ignore
    · exact h₁.modCtx

theorem State.Canon.execRootStart (h : s.Canon) {vf value} : OutCanon (execRootStart vf value s) := by
  unfold Machine.execRootStart
  refine State.Canon.pageWrite h fun _ h₁ => ?_
  split
  · exact h₁.ignore
  · split
    · exact h₁.ignore
    · exact h₁.modCtx.tlbDropCtxs.modVf.startCtx

theorem State.Canon.execRootCmdInvalid (h : s.Canon) {vf value} : OutCanon (execRootCmdInvalid vf value s) := by
  unfold Machine.execRootCmdInvalid
  refine State.Canon.pageWrite h fun _ h₁ => ?_
  split
  · exact h₁
  · exact h₁.ignore

theorem State.Canon.execFqConfigWrite (h : s.Canon) {vf size value} : OutCanon (execFqConfigWrite vf size value s) := by
  unfold Machine.execFqConfigWrite
  refine State.Canon.pageWrite h fun _ h₁ => ?_
  dsimp only
  split
  · exact h₁.ignore
  · split
    · split
      · exact h₁.modVf.drainHostFaults
      · exact h₁.ignore
    · split
      · exact h₁.modVf
      · exact h₁.ignore

theorem State.Canon.execFqHeadWrite (h : s.Canon) {vf value} : OutCanon (execFqHeadWrite vf value s) :=
  h.pageWrite (fun _ h₁ => h₁.modVf.drainHostFaults)

theorem State.Canon.execFqResume (h : s.Canon) {vf value} : OutCanon (execFqResume vf value s) := by
  unfold Machine.execFqResume
  refine State.Canon.pageWrite h fun _ h₁ => ?_
  split
  · exact h₁.ignore
  · dsimp only
    refine State.Canon.modVf ?_
    split
    · exact h₁.resumeHalts
    · exact h₁

theorem State.Canon.hcmdWrite (h : s.Canon) {vf w3} : (s.hcmdWrite vf w3).Canon := h

theorem State.Canon.handCommand (h : s.Canon) {vf a0 ok} : (s.handCommand vf a0 ok).Canon := by
  unfold State.handCommand
  split
  · exact h.handReport
  · split
    · exact h.handReport
    · exact h.modVf.handPoll

theorem State.Canon.execHandoverToHost (h : s.Canon) {vf word3} : OutCanon (execHandoverToHost vf word3 s) := by
  unfold Machine.execHandoverToHost
  refine State.Canon.pageWrite h fun _ h₁ => ?_
  dsimp only
  split
  · exact h₁.hcmdWrite.handCommand
  · exact h₁

theorem State.Canon.execHandoverToDevice (h : s.Canon) {vf word3} : OutCanon (execHandoverToDevice vf word3 s) := by
  unfold Machine.execHandoverToDevice
  refine State.Canon.pageWrite h fun _ h₁ => ?_
  dsimp only
  split
  · exact h₁
  · exact h₁.hcmdWrite.handCommand

theorem State.Canon.execReleaseCommand (h : s.Canon) {vf value} : OutCanon (execReleaseCommand vf value s) := by
  unfold Machine.execReleaseCommand
  refine State.Canon.pageWrite h fun _ h₁ => ?_
  dsimp only
  split
  · exact h₁.releaseFrame
  · exact h₁.ignore

theorem State.Canon.aperParts (h : s.Canon) {root acc l} : (s.aperParts root acc l).1.Canon := by
  induction l generalizing s with
  | nil => exact h
  | cons q rest ih =>
    unfold State.aperParts
    split
    · exact h.translate.fst ‹_›
    · have h₁ := ih (h.translate.fst ‹_›)
      split
      · exact h₁.fst ‹_›
      · exact h₁.fst ‹_›

theorem State.Canon.complete (h : s.Canon) {vf status data} : (s.complete vf status data).Canon := h
theorem State.Canon.completeUr (h : s.Canon) {vf} : (s.completeUr vf).Canon := h

theorem State.Canon.aperture (h : s.Canon) {vf off n acc i f} (hf : ∀ s l, s.Canon → (f s l).Canon) : (s.aperture vf off n acc i f).Canon := by
  unfold State.aperture
  split
  · exact h
  · split
    · exact h.postpone
    · split
      · exact h.completeUr
      · split
        · exact hf _ _ (h.aperParts.fst ‹_›)
        · exact (h.aperParts.fst ‹_›).completeUr
        · exact (h.aperParts.fst ‹_›).askHost.postpone

theorem State.Canon.aperRead (h : s.Canon) {p n} : (s.aperRead p n).1.Canon := by
  unfold State.aperRead
  split
  · exact h.upd rfl
  · exact h.homeRead

theorem State.Canon.spoilCopies (h : s.Canon) {p n} : (s.spoilCopies p n).Canon := by
  unfold State.spoilCopies
  split
  · exact h.upd rfl
  · exact h

theorem State.Canon.aperWrite (h : s.Canon) {p bs} : (s.aperWrite p bs).Canon := h.homePoke.spoilCopies

theorem State.Canon.execBar2Read (h : s.Canon) {vf off n} : OutCanon (execBar2Read vf off n s) := by
  unfold Machine.execBar2Read
  refine State.Canon.aperture h fun _ _ h₁ => ?_
  split
  refine State.Canon.complete ?_
  refine State.Canon.fst ?_ ‹_›
  refine State.Canon.foldlPair h₁ fun _ _ h₂ => ?_
  split
  exact h₂.aperRead.fst ‹_›

theorem State.Canon.execBar2Write (h : s.Canon) {vf off data} : OutCanon (execBar2Write vf off data s) :=
  h.aperture (fun _ _ h₁ => h₁.foldlPair (fun _ _ h₂ => h₂.aperWrite))

theorem State.Canon.execBar2Atomicop_go (h : s.Canon) {vf op v cmp p n} : (execBar2Atomicop.go vf op v cmp s p n).Canon := by
  have h₁ := (h.settleSector (writer := none) (p := p) (n := n)).aperRead (p := p) (n := n)
  refine State.Canon.complete ?_
  split
  · exact h₁
  · exact h₁.aperWrite

theorem State.Canon.execBar2Atomicop (h : s.Canon) {vf off op aw v cmp} : OutCanon (execBar2Atomicop vf off op aw v cmp s) := by
  unfold Machine.execBar2Atomicop
  dsimp only
  split
  · exact h
  · split
    · exact h.complete
    · split
      · exact h.complete
      · refine State.Canon.aperture h fun _ _ h₁ => ?_
        split
        · split
          · split
            · exact h₁.execBar2Atomicop_go
            · exact h₁.completeUr
          · exact h₁.execBar2Atomicop_go
        · exact h₁

theorem State.Canon.execAtomicopRequesterEnable (h : s.Canon) {vf enable} : OutCanon (execAtomicopRequesterEnable vf enable s) := h.modVf

theorem State.Canon.discardHost (h : s.Canon) {vf} : (s.discardHost vf).Canon :=
  ((h.foldl (fun _ _ h₁ => h₁.foldl (fun _ _ h₂ => h₂.l1Drop))).upd (by rfl))

theorem State.Canon.execFlr (h : s.Canon) {vf} : OutCanon (execFlr vf s) := by
  unfold Machine.execFlr
  split
  · exact h
  · dsimp only
    refine State.Canon.modVf ?_
    split
    · split
      · exact h
      · exact h.startKill
    · exact h

theorem State.Canon.execFlrComplete (h : s.Canon) {vf} : OutCanon (execFlrComplete vf s) := by
  unfold Machine.execFlrComplete
  split
  · exact (h.foldl (fun _ _ h₁ => h₁.handReport)).discardHost.modVf
  · exact h

theorem State.Canon.deviceReset (h : s.Canon) {power} : (s.deviceReset power).Canon := by
  obtain ⟨-, host, -⟩ := parts.1 h
  exact parts.2 ⟨rfl, host, rfl, rfl, rfl, rfl⟩

theorem State.Canon.execHotReset (h : s.Canon) : OutCanon (execHotReset s) := h.deviceReset

/-! ## The operations of Machine/Lane -/

theorem State.Canon.execLaneid (h : s.Canon) {a0} : OutCanon (execLaneid a0 s) := h.issuing (fun _ => h.finish)
theorem State.Canon.execShfl (h : s.Canon) {m a0 w64} : OutCanon (execShfl m a0 w64 s) := h.issuing (fun _ => h.finish)
theorem State.Canon.execBcast (h : s.Canon) {a0 w64} : OutCanon (execBcast a0 w64 s) := h.issuing (fun _ => h.finish)
theorem State.Canon.execVote (h : s.Canon) {m a0} : OutCanon (execVote m a0 s) := h.issuing (fun _ => h.finish)

theorem State.Canon.execReduce (h : s.Canon) {op a0 w64 nat rnd} : OutCanon (execReduce op a0 w64 nat rnd s) :=
  h.issuing (fun _ => h.finish)

theorem State.Canon.execScan (h : s.Canon) {op a0 w64 nat excl rnd} : OutCanon (execScan op a0 w64 nat excl rnd s) :=
  h.issuing (fun _ => h.finish)

/-! ## The operations of Machine/MatrixRun -/

theorem State.Canon.startCfg (h : s.Canon) {core o arr} : (s.startCfg core o arr).Canon := h.modCore.finishOp
theorem State.Canon.activate (h : s.Canon) {core o} : (s.activate core o).Canon := h

theorem State.Canon.startMul (h : s.Canon) {core o} : (s.startMul core o).Canon := by
  unfold State.startMul
  dsimp only
  split
  · exact h.haltOp
  · split
    · exact h.finishOp
    · split
      · exact h.haltOp
      · exact h.activate

theorem State.Canon.execMatrixQueueStart (h : s.Canon) {core} : OutCanon (execMatrixQueueStart core s) := by
  unfold Machine.execMatrixQueueStart
  dsimp only
  split
  · exact h
  · split
    · exact h
    · split
      · split
        · exact h.haltOp
        · split
          · exact h.startCfg
          · exact h.clearPath.finishOp
          · exact h.activate
          · exact h.startMul
          · exact h
      · split
        · exact h.haltOp
        · split
          · exact h.startCfg
          · exact h.clearPath.finishOp
          · exact h.activate
          · exact h.startMul
          · exact h
      · split
        · exact h.haltOp
        · split
          · exact h.startCfg
          · exact h.clearPath.finishOp
          · exact h.activate
          · exact h.startMul
          · exact h

theorem State.Canon.afterBlock (h : s.Canon) {core o i} : (s.afterBlock core o i).Canon := by
  unfold State.afterBlock
  dsimp only
  split
  · exact h.modOp
  · refine State.Canon.finishOp ?_
    split
    · exact h.modOp.modNBar
    · exact h.modOp

theorem State.Canon.execMxmulKblock (h : s.Canon) {core} : OutCanon (execMxmulKblock core s) := by
  unfold Machine.execMxmulKblock
  dsimp only
  split
  · split
    · exact h
    · split
      · exact h
      · exact h.haltOp
      · exact h.senseWhere.addBlock.afterBlock
  · exact h

theorem State.Canon.execMatrixPathIdleRelease (h : s.Canon) {core} : OutCanon (execMatrixPathIdleRelease core s) := by
  unfold Machine.execMatrixPathIdleRelease
  dsimp only
  split
  · exact h.clearPath
  · exact h

/-! ## The operations of Machine/Scheduling -/

theorem State.Canon.readTab (h : s.Canon) {x core va size n i} : (s.readTab x core va size n i).Canon := by
  induction n generalizing s i with
  | zero => exact h
  | succ n ih =>
    unfold State.readTab
    split
    · have h₁ := h.translate.fst ‹_›
      dsimp only
      split
      · exact (ih h₁.homeRead).vals ‹_›
      · exact ih h₁.homeRead
    · exact (h.translate.fst ‹_›).askHost
    · exact ((h.translate.fst ‹_›).upd (by rfl)).deliver

theorem State.Canon.readTable (h : s.Canon) {x core va size n} : (s.readTable x core va size n).Canon := by
  unfold State.readTable
  split
  · exact h
  · split
    · exact (h.upd (by rfl)).deliver
    · exact h.readTab

theorem State.Canon.releaseAll (h : s.Canon) {vf scope l} : (s.releaseAll vf scope l).Canon := by
  induction l generalizing s with
  | nil => exact h
  | cons c rest ih =>
    unfold State.releaseAll
    split
    · exact h.releaseActs.wait ‹_›
    · exact ih (h.releaseActs.done ‹_›)

theorem State.Canon.releaseCores (h : s.Canon) {x cores} : (s.releaseCores x cores).Canon := h.releaseAll

theorem State.Canon.execGridStart (h : s.Canon) {ctx queue seq} : OutCanon (execGridStart ctx queue seq s) := by
  unfold Machine.execGridStart
  split
  · split
    · exact h
    · split
      · exact h.releaseCores.wait ‹_›
      · dsimp only
        split
        · exact (h.releaseCores.done ‹_›).readTable.wait ‹_›
        · exact ((h.releaseCores.done ‹_›).readTable.bad ‹_›).modGrid
        · split
          · exact ((h.releaseCores.done ‹_›).readTable.vals ‹_›).readTable.wait ‹_›
          · exact (((h.releaseCores.done ‹_›).readTable.vals ‹_›).readTable.bad ‹_›).modGrid
          · split <;> exact (((h.releaseCores.done ‹_›).readTable.vals ‹_›).readTable.vals ‹_›).modGrid
  · exact h

theorem State.Canon.admitTeam (h : s.Canon) {x q g tid core} : (s.admitTeam x q g tid core).Canon := by
  unfold State.admitTeam
  dsimp only
  split
  · exact h.setCore.beginSlice.beginThread
  · exact h.setCore.beginSlice.beginThread.startCtl

theorem State.Canon.execTeamAdmit (h : s.Canon) {ctx queue seq unit} : OutCanon (execTeamAdmit ctx queue seq unit s) := by
  unfold Machine.execTeamAdmit
  split
  · dsimp only
    split
    · exact h
    · split
      · exact h
      · split
        · exact h
        · exact (h.foldl (fun _ _ h₁ => h₁.admitTeam)).modGrid
  · exact h

theorem State.Canon.releaseGrid (h : s.Canon) {core ctx} : (s.releaseGrid core ctx).Canon := by
  unfold State.releaseGrid
  split
  · exact h
  · exact h.releaseActs

theorem State.Canon.execTeamRetire (h : s.Canon) {core ctx queue seq team} : OutCanon (execTeamRetire core ctx queue seq team s) := by
  unfold Machine.execTeamRetire
  dsimp only
  split
  · exact h
  · split
    · exact h
    · split
      · exact h.releaseGrid.wait ‹_›
      · exact (h.releaseGrid.done ‹_›).settleTeam.modCore.modGrid

theorem State.Canon.execPriorityAging (h : s.Canon) {ctx queue seq} : OutCanon (execPriorityAging ctx queue seq s) := by
  unfold Machine.execPriorityAging
  split
  · exact h
  · split
    · exact h
    · exact h.modGrid

theorem State.Canon.execRevokeComplete (h : s.Canon) {ctx} : OutCanon (execRevokeComplete ctx s) := by
  unfold Machine.execRevokeComplete
  split
  · exact h
  · split
    · exact h
    · split
      · exact h
      · exact h.modCtx.callerWord

theorem State.Canon.execKillComplete (h : s.Canon) {ctx} : OutCanon (execKillComplete ctx s) := by
  unfold Machine.execKillComplete
  split
  · exact h
  · split
    · exact h
    · split
      · exact h.takeApart
      · split
        · exact h.removeCtx
        · exact h

/-! ## The operations of Machine/Preempt -/

theorem State.Canon.beginPreempt (h : s.Canon) {core vf} : (s.beginPreempt core vf).Canon :=
  (h.foldl (fun _ _ h₁ => h₁.beginDrain)).modCore.endSlice

theorem State.Canon.execSliceExpiry (h : s.Canon) {core vf} : OutCanon (execSliceExpiry core vf s) := by
  unfold Machine.execSliceExpiry
  split
  · split
    · exact h
    · dsimp only
      split
      · exact h.modCore.beginPreempt
      · exact h.modCore
  · exact h

theorem State.Canon.execOverrunLimitExpiry (h : s.Canon) {core vf} : OutCanon (execOverrunLimitExpiry core vf s) := by
  unfold Machine.execOverrunLimitExpiry
  split
  · split
    · exact h.beginPreempt
    · exact h
  · exact h

theorem State.Canon.drainWarp (h : s.Canon) {core slot} : (s.drainWarp core slot).Canon := by
  unfold State.drainWarp
  split
  · exact h
  · dsimp only
    split
    · exact h.squash.applyMailbox.modCore
    · split
      · exact h.applyMailbox
      · exact h

theorem State.Canon.dropCoreWaiters (h : s.Canon) {core x} : (s.dropCoreWaiters core x).Canon := h

theorem State.Canon.drainCtl (h : s.Canon) {core x} : (s.drainCtl core x).Canon := by
  unfold State.drainCtl
  split
  · exact h
  · exact (h.upd (by rfl)).dropWaiters.modCtl

theorem State.Canon.drainStep (h : s.Canon) {core x} : (s.drainStep core x).Canon := h.drainCtl.foldl (fun _ _ h₁ => h₁.drainWarp)

theorem State.Canon.vacate (h : s.Canon) {core x img} : (s.vacate core x img).Canon := by
  unfold State.vacate
  dsimp only
  refine State.Canon.modCore ?_
  refine State.Canon.upd ?_ rfl
  refine State.Canon.foldl ?_ (fun _ _ h₁ => h₁.dropReserves)
  refine State.Canon.dropCoreWaiters ?_
  split
  · exact h.clearPath
  · exact h

theorem State.Canon.saveCtx (h : s.Canon) {core x} : (s.saveCtx core x).Canon := h.vacate.modCore.endSlice

theorem State.Canon.execDrainQuiescence (h : s.Canon) {core ctx} : OutCanon (execDrainQuiescence core ctx s) := by
  unfold Machine.execDrainQuiescence
  split
  · exact h
  · dsimp only
    split
    · exact h.drainStep.saveCtx
    · exact h.drainStep

theorem State.Canon.execPreemptTimeout (h : s.Canon) {core ctx} : OutCanon (execPreemptTimeout core ctx s) := by
  unfold Machine.execPreemptTimeout
  split
  · exact h
  · split
    · exact h
    · exact h.deliver.startKill.modCore.endSlice

theorem State.Canon.moveNext (h : s.Canon) {m} : (s.moveNext m).Canon := by
  unfold State.moveNext
  split
  · exact h
  · exact h.modCore

theorem State.Canon.renameHalts (h : s.Canon) {x f} : (s.renameHalts x f).Canon := h

theorem State.Canon.placeTeam (h : s.Canon) {x m img t} : OptCanon (s.placeTeam x m img t) := by
  unfold State.placeTeam
  dsimp only
  split
  · trivial
  · split
    · trivial
    · exact (h.modCore.setSpad fun w => Mem.wf_setBytes _ w _ _).setCore

theorem State.Canon.placeTeams (h : s.Canon) {x m img l} : OptCanon (s.placeTeams x m img l) := by
  induction l generalizing s with
  | nil => exact h
  | cons t rest ih =>
    exact h.placeTeam.bind fun _ h₁ => ih h₁

theorem EngCanon.reloadRead {core o space addr} : EngCanon (reloadRead core o space addr) := by
  unfold Machine.reloadRead
  dsimp only
  split
  · refine EngCanon.get_bind fun _ h₁ => ?_
    split
    · exact .bind (.set (h₁.translate.fst ‹_›)) fun _ => .engRead
    · exact .bind (.set (h₁.translate.fst ‹_›)) fun _ => .bind .throw fun _ => .engRead
    · exact .bind (.set ((h₁.translate.fst ‹_›).askHost)) fun _ => .bind .throw fun _ => .engRead
  · exact EngCanon.engRead

theorem EngCanon.reloadColumn {core o q c} : EngCanon (reloadColumn core o q c) := by
  unfold Machine.reloadColumn
  dsimp only
  split <;> exact EngCanon.bind EngCanon.reloadRead (fun _ => EngCanon.engOut)

theorem State.Canon.reloadMacro (h : s.Canon) {core x q block} : OptCanon (s.reloadMacro core x q block) := by
  unfold State.reloadMacro
  dsimp only
  split
  · exact (h.go (EngCanon.engLoop (fun _ => EngCanon.reloadColumn))).snd ‹_›
  · exact (((h.go (EngCanon.engLoop (fun _ => EngCanon.reloadColumn))).snd ‹_›).upd (by rfl)).deliver.modCore
  · exact trivial

theorem State.Canon.restorePath (h : s.Canon) {m x p acc} : OptCanon (s.restorePath m x p acc) := by
  unfold State.restorePath
  split
  · trivial
  · refine OptCanon.foldl (o := some _) (State.Canon.modCore (h.setAcc fun w => Mem.wf_setBytes _ w _ _)) fun o q ho => ?_
    exact ho.bind fun _ h₁ => h₁.reloadMacro

theorem State.Canon.renameUnit (h : s.Canon) {x m u gens ids} : (s.renameUnit x m u gens ids).Canon := by
  unfold State.renameUnit
  split
  · exact h
  · exact (h.upd (by rfl)).renameHalts.foldl fun _ _ h₁ => h₁.modGrid

theorem State.Canon.settleUnit (h : s.Canon) {x img m u moving staying} : (s.settleUnit x img m u moving staying).Canon :=
  (h.modCore.modCore.renameUnit.foldl (fun _ _ h₁ => h₁.endOp)).beginSlice

theorem State.Canon.restoreUnit (h : s.Canon) {x img m u} : OptCanon (s.restoreUnit x img m u) := by
  unfold State.restoreUnit
  dsimp only
  split
  · trivial
  · refine OptCanon.bind h.moveNext.placeTeams fun s h₁ => OptCanon.map ?_ fun s h₂ => ?_
    · split
      · exact h₁.restorePath
      · exact h₁
    · split
      · exact h₂.settleUnit.modCtx
      · exact h₂.settleUnit.modCtx.acquireActs

theorem State.Canon.requeueGang (h : s.Canon) {x t} : OptCanon (s.requeueGang x t) := by
  unfold State.requeueGang
  dsimp only
  split
  · trivial
  · exact OptCanon.foldl (o := some s) h fun o q ho => ho.bind fun _ h₁ => OptCanon.bindOf fun _ => h₁.restoreUnit

theorem State.Canon.requeueOn (h : s.Canon) {x core} : OptCanon (s.requeueOn x core) := by
  refine OptCanon.findSome fun q => OptCanon.orElse (OptCanon.findSome fun t => ?_) ?_
  · split
    · trivial
    · split
      · exact h.requeueGang
      · exact h.restoreUnit
  · dsimp only
    split
    · exact h.restoreUnit
    · trivial

theorem State.Canon.requeue (h : s.Canon) {x core} : (s.requeue x core).Canon := by
  unfold State.requeue
  split
  · exact h
  · split
    · exact h.releaseAll.wait ‹_›
    · exact (h.releaseAll.done ‹_›).getD ((h.releaseAll.done ‹_›).requeueOn)

theorem State.Canon.execContextRestore (h : s.Canon) {core ctx} : OutCanon (execContextRestore core ctx s) := by
  unfold Machine.execContextRestore
  change State.Canon (match s.ctx? ctx with | none => s | some x => _)
  split
  · exact h
  · next x _ =>
    split
    · exact h
    · dsimp only
      split
      · next e =>
        refine OptCanon.some (OptCanon.bindOf fun img => ?_) e
        split
        · trivial
        · exact h.restoreUnit
      · exact h.requeue

/-! ## The operations of Machine/Management -/

theorem State.Canon.putEntry (h : s.Canon) {page i e} : (s.putEntry page i e).Canon := h.pokeN

theorem State.Canon.clearFrame (h : s.Canon) {dpa} : (s.clearFrame dpa).Canon :=
  h.foldl fun _ _ h₁ => h₁.setHbm fun w => Mem.wf_clear _ w _ _

theorem State.Canon.bootstrap (h : s.Canon) {rs p} (e : s.bootstrap rs = some p) : p.1.Canon := by
  obtain ⟨n, -, rfl⟩ := Option.map_eq_some_iff.1 e
  have hf {s : State} (h : s.Canon) {l : List Nat} {f : State → Nat → State} (hf : ∀ s j, s.Canon → (f s j).Canon) : (l.foldl f s).Canon := h.foldl hf
  dsimp only
  refine hf (hf (hf h fun _ _ h₁ => h₁.clearFrame) fun _ _ h₁ => h₁.putEntry) fun s j h₁ => ?_
  split
  · exact hf h₁.putEntry fun _ _ h₂ => h₂.putEntry
  · exact h₁.putEntry

theorem State.Canon.cstat (h : s.Canon) {vf code handle} : (s.cstat vf code handle).Canon := h

theorem State.Canon.traceHeader (h : s.Canon) {x} : (s.traceHeader x).Canon := by
  unfold State.traceHeader
  split
  · exact h
  · split
    · exact (h.translate.fst ‹_›).homePoke
    · exact h

theorem State.Canon.execCreate (h : s.Canon) {vf} : OutCanon (Machine.execCreate vf s) := by
  refine h.pageWrite fun s h => ?_
  extract_lets v ws
  split
  · exact h.cstat
  · split
    · exact h.cstat
    · split
      · exact h.cstat
      · extract_lets
        split
        · exact h.cstat
        · split
          · next s₁ troot idx e _ =>
            exact (h.bootstrap e).withGensCtxs.modVf.traceHeader.cstat
          · exact h.cstat

theorem State.Canon.flushFrames (h : s.Canon) {frames} : (s.flushFrames frames).Canon :=
  h.foldl (fun _ _ h₁ => h₁.foldl (fun _ _ h₂ => h₂.dieFlush))

theorem State.Canon.removeTree (h : s.Canon) {tree vf} : (s.removeTree tree vf).Canon := h

theorem State.Canon.finishSave (h : s.Canon) {vf root tree} : (s.finishSave vf root tree).Canon :=
  (h.flushFrames.upd (by rfl)).removeTree.releaseFrames.cstat

theorem State.Canon.execSave (h : s.Canon) {vf} : OutCanon (execSave vf s) := by
  unfold Machine.execSave
  split
  · split
    · split
      · exact h.finishSave
      · exact h
    · exact h
  · refine State.Canon.pageWrite h fun _ h₁ => ?_
    split
    · exact h₁.cstat
    · exact h₁.cstat
    · dsimp only
      split
      · exact h₁.cstat
      · exact (h₁.modVf.cstat.foldl (fun _ _ h₂ => h₂.killCommsOf)).foldl fun _ _ h₂ => h₂.foldl fun _ _ h₃ => h₃.beginDrain

theorem State.Canon.placeFrames (h : s.Canon) {m plan} : (s.placeFrames m plan).Canon := by
  have hp {s : State} (h : s.Canon) {f bs} : (s.pokeN (.dev (f * 65536)) (List.take 65536 bs)).Canon := h.pokeN
  refine h.foldlPair fun r q h₁ => ?_
  split
  · exact h₁
  · dsimp only
    split
    · split
      · dsimp only
        exact hp h₁
      · dsimp only
        exact h₁.foldl fun _ _ h₂ => hp h₂
    · refine State.Canon.withCharges ?_
      split
      · dsimp only
        exact hp h₁
      · dsimp only
        exact h₁.foldl fun _ _ h₂ => hp h₂

theorem State.Canon.parkCores (h : s.Canon) {m} : (s.parkCores m).Canon := h.foldl (fun _ _ h₁ => h₁.modCore)

theorem State.Canon.doRestore (h : s.Canon) {vf m p plan root} : (s.doRestore vf m p plan root).Canon :=
  ((h.placeFrames.parkCores.upd (by rfl)).modVf.foldl (fun _ _ h₁ => h₁.enqueueFault)).retryWords.cstat

theorem State.Canon.restoreShort (h : s.Canon) {vf} : (s.restoreShort vf).Canon := h.enqueueFault.cstat

theorem State.Canon.execRestore (h : s.Canon) {vf} : OutCanon (execRestore vf s) := by
  unfold Machine.execRestore
  refine State.Canon.pageWrite h fun _ h₁ => ?_
  dsimp only
  split
  · exact h₁.cstat
  · split
    · exact h₁.cstat
    · split
      · exact h₁.cstat
      · split
        · exact h₁.cstat
        · split
          · exact h₁.cstat
          · split
            · exact h₁.restoreShort
            · split
              · exact h₁.restoreShort
              · exact h₁.doRestore

theorem State.Canon.execImageMove (h : s.Canon) {handle incoming} : OutCanon (execImageMove handle incoming s) := by
  unfold Machine.execImageMove
  dsimp only
  split
  · split
    · exact h.upd rfl
    · split
      · exact h.upd rfl
      · exact h
  · exact h.upd rfl

theorem State.Canon.execImageRelease (h : s.Canon) {handle} : OutCanon (execImageRelease handle s) := h.upd (by rfl)

theorem State.Canon.execPowerGood (h : s.Canon) {version image} : OutCanon (execPowerGood version image s) := by
  obtain ⟨-, rest⟩ := parts.1 h
  have hw : State.Canon { s with mem := { s.mem with hbm := [] } } := parts.2 ⟨rfl, rest⟩
  unfold Machine.execPowerGood
  change State.Canon (ite _ _ _)
  split
  · exact h
  · dsimp only
    generalize (if s.dev.accepts version image = true then version else s.dev.fwVersion) = fw
    split
    · exact h.upd rfl
    · exact hw.upd rfl

theorem State.Canon.execFirmwareUpdate (h : s.Canon) {version image} : OutCanon (execFirmwareUpdate version image s) := by
  unfold Machine.execFirmwareUpdate
  split
  · exact h.upd rfl
  · exact h

theorem State.Canon.execPanelPowerOff (h : s.Canon) : OutCanon (execPanelPowerOff s) := h.deviceReset
theorem State.Canon.execThermalThrottle (h : s.Canon) {die} : OutCanon (execThermalThrottle die s) := h.upd (by rfl)
theorem State.Canon.execCurrentClamp (h : s.Canon) {die} : OutCanon (execCurrentClamp die s) := h.upd (by rfl)

theorem State.Canon.execRegionDescriptorWrite (h : s.Canon) {idx w0 w1 w2 w3} : OutCanon (execRegionDescriptorWrite idx w0 w1 w2 w3 s) := by
  unfold Machine.execRegionDescriptorWrite
  dsimp only
  split
  · exact h
  · exact h.upd rfl

theorem State.Canon.execPartitionCut (h : s.Canon) {runs} : OutCanon (execPartitionCut runs s) := by
  unfold Machine.execPartitionCut
  dsimp only
  split
  · exact h
  · exact h.upd rfl

theorem State.Canon.execResourceProfileAssign (h : s.Canon) {vf part p} : OutCanon (execResourceProfileAssign vf part p s) := by
  unfold Machine.execResourceProfileAssign
  split
  · exact h
  · dsimp only
    split
    · exact h
    · exact h.modVf

/-! ## The operations of Machine/Scrub -/

theorem State.Canon.execFrameRelease (h : s.Canon) {frame} : OutCanon (execFrameRelease frame s) := by
  unfold Machine.execFrameRelease
  split
  · split
    · exact h.releaseFrame
    · exact h
  · split
    · exact h
    · exact (h.upd (by rfl)).releaseFrame

theorem State.Canon.dropFrameTlbs (h : s.Canon) {die onFirn frame} : (s.dropFrameTlbs die onFirn frame).Canon := by
  unfold State.dropFrameTlbs
  dsimp only
  split
  · exact h.modFirn
  · exact h.modDie.foldl fun _ _ h₁ => h₁.modCore

theorem State.Canon.discardFrame (h : s.Canon) {die frame} : (s.discardFrame die frame).Canon :=
  h.dropFilled.foldl (fun _ _ h₁ => h₁.foldl (fun _ _ h₂ => h₂.l1Drop))

theorem State.Canon.execDieShootdown (h : s.Canon) {die firn frame} : OutCanon (Machine.execDieShootdown die firn frame s) := by
  have h₁ : (s.dropFrameTlbs die firn frame).Canon := h.dropFrameTlbs
  unfold Machine.execDieShootdown
  dsimp only [OutCanon]
  split
  · exact h
  · cases firn with
    | true =>
      simp only [if_true]
      split
      · exact h
      · exact h₁.withScrubs
    | false =>
      simp only [Bool.false_eq_true, if_false]
      split
      · exact h
      · split
        · exact h₁
        · exact h₁.discardFrame.withScrubs

theorem State.Canon.dropLines (h : s.Canon) {frame} : (s.dropLines frame).Canon := by
  unfold State.dropLines
  refine State.Canon.foldl h fun _ _ h₁ => ?_
  split
  exact h₁.modFirn

theorem State.Canon.execShootdownComplete (h : s.Canon) {frame} : OutCanon (Machine.execShootdownComplete frame s) := by
  unfold Machine.execShootdownComplete
  split
  · exact h
  · split
    · exact h.dropLines.withScrubs
    · exact h

theorem State.Canon.zeroFrame (h : s.Canon) {frame} : (s.zeroFrame frame).Canon :=
  State.Canon.foldl (((h.foldl fun _ _ h₁ => h₁.sense).foldl fun _ _ h₁ => h₁.modFirn).upd (by rfl)) fun _ _ h₁ => h₁.setHbm fun w => Mem.wf_clear _ w _ _

theorem State.Canon.execZeroingComplete (h : s.Canon) {frame} : OutCanon (Machine.execZeroingComplete frame s) := by
  unfold Machine.execZeroingComplete
  split
  · exact h
  · split
    · exact h
    · exact State.Canon.foldl h.zeroFrame.withScrubs fun _ _ h₁ => h₁.modVf.msix

/-! ## The operations of Machine/Translation -/

theorem State.Canon.faultWaiter (h : s.Canon) {w f} : (s.faultWaiter w f).Canon := by
  unfold State.faultWaiter
  split
  · exact h.faultAt
  · exact h.haltWarp
  · exact h.haltCtl
  · exact h.haltOp
  · exact h

theorem State.Canon.faultWaiters (h : s.Canon) {die m} : (s.faultWaiters die m).Canon := by
  unfold State.faultWaiters
  refine State.Canon.foldl h fun _ _ h₁ => ?_
  split
  · exact (h₁.walk.fst ‹_›).faultWaiter
  · exact h₁.walk.fst ‹_›

theorem State.Canon.setMissq (h : s.Canon) {unit onFirn f} : (s.setMissq unit onFirn f).Canon := by
  unfold State.setMissq
  split
  · exact h.modFirn
  · exact h.modDie

theorem State.Canon.enterWalk (h : s.Canon) {unit onFirn m w} : (s.enterWalk unit onFirn m w).Canon := by
  unfold State.enterWalk
  dsimp only
  split
  · exact h.modFirn.nextFree
  · exact h.dieTlbEnter.coreTlbEnter

theorem State.Canon.servePrefs (h : s.Canon) {m w} : (s.servePrefs m w).Canon := by
  unfold State.servePrefs
  dsimp only
  refine State.Canon.foldl h fun _ _ h₁ => ?_
  split
  · split
    · exact h₁.prefAsk
    · exact h₁.missAt
  · exact h₁

theorem State.Canon.execTranslationWalk (h : s.Canon) {unit onFirn} : OutCanon (execTranslationWalk unit onFirn s) := by
  unfold Machine.execTranslationWalk
  split
  · exact h
  · dsimp only
    split
    · exact (h.walk.fst ‹_›).setMissq.enterWalk.servePrefs
    · exact (h.walk.fst ‹_›).askHost.setMissq
    · split
      · exact (h.walk.fst ‹_›).setMissq.faultWaiter.faultWaiters
      · exact (h.walk.fst ‹_›).setMissq.faultWaiters

theorem State.Canon.askPri (h : s.Canon) {vf page wr} : (s.askPri vf page wr).Canon := h

theorem State.Canon.execAtsResponse (h : s.Canon) {vf addr present allowed} : OutCanon (execAtsResponse vf addr present allowed s) := by
  unfold Machine.execAtsResponse
  dsimp only
  split
  · exact h
  · split
    · exact h.modVf.modVf.retryWords
    · exact h.modVf.askPri

theorem State.Canon.priTake (h : s.Canon) {vf idx f} (hf : ∀ r s, s.Canon → (f r s).Canon) : (s.priTake vf idx f).Canon := by
  unfold State.priTake
  split
  · exact h.modVf
  · dsimp only
    split
    · exact h.modVf.modVf
    · exact hf _ _ h.modVf

theorem State.Canon.execPriSuccess (h : s.Canon) {vf idx} : OutCanon (execPriSuccess vf idx s) := h.priTake (fun _ _ h₁ => h₁.modVf)

theorem State.Canon.failWaiter (h : s.Canon) {die m vf page w} : (s.failWaiter die m vf page w).Canon := by
  unfold State.failWaiter
  dsimp only
  split
  · exact (h.modVf.walk.fst ‹_›).modVf.faultWaiter
  · exact (h.modVf.walk.fst ‹_›).modVf

theorem State.Canon.failMisses (h : s.Canon) {unit onFirn vf page} : (s.failMisses unit onFirn vf page).Canon :=
  h.foldl (fun _ _ h₁ => h₁.setMissq.foldl (fun _ _ h₂ => h₂.failWaiter))

theorem State.Canon.priFail (h : s.Canon) {r vf} : (s.priFail r vf).Canon := by
  unfold State.priFail
  dsimp only
  split
  · exact (h.foldl (fun _ _ h₁ => h₁.failMisses)).foldl fun _ _ h₁ => h₁.failMisses
  · exact ((h.foldl (fun _ _ h₁ => h₁.failMisses)).foldl (fun _ _ h₁ => h₁.failMisses)).modVf.retryWords

theorem State.Canon.execPriInvalidRequest (h : s.Canon) {vf idx} : OutCanon (execPriInvalidRequest vf idx s) :=
  h.priTake (fun _ _ h₁ => h₁.priFail)

theorem State.Canon.execPriResponseFailure (h : s.Canon) {vf idx} : OutCanon (execPriResponseFailure vf idx s) :=
  h.priTake (fun _ _ h₁ => h₁.priFail)

theorem State.Canon.execPriTimeout (h : s.Canon) {vf idx} : OutCanon (execPriTimeout vf idx s) := by
  unfold Machine.execPriTimeout
  split
  · exact h.priTake fun _ _ h₁ => h₁.priFail
  · exact h

theorem State.Canon.execPriQuarantineExpiry (h : s.Canon) {vf idx} : OutCanon (execPriQuarantineExpiry vf idx s) := h.modVf

theorem State.Canon.execAtsInvalidation (h : s.Canon) {vf addr len} : OutCanon (execAtsInvalidation vf addr len s) := by
  unfold Machine.execAtsInvalidation
  dsimp only
  split
  · exact h.postpone
  · exact h.tlbDropOut.modVf.invalPoll

/-! ## The operations of Machine/Dispatch -/

theorem State.Canon.exec (h : s.Canon) {i} : OutCanon (exec i s) := by
  unfold Machine.exec
  split
  · exact h.execGetr
  · exact h.execSetr
  · exact h.execFan
  · exact h.execMovi
  · exact h.execSel
  · exact h.execSink
  · exact h.execBr
  · exact h.execBrc
  · exact h.execBri
  · exact h.execCall
  · exact h.execCalli
  · exact h.execRet
  · exact h.execExit
  · exact h.execLoop
  · exact h.execTrap
  · exact h.execIadd
  · exact h.execIsub
  · exact h.execImul
  · exact h.execImulh
  · exact h.execImad
  · exact h.execIneg
  · exact h.execIabs
  · exact h.execImin
  · exact h.execImax
  · exact h.execIdiv
  · exact h.execIrem
  · exact h.execIand
  · exact h.execIor
  · exact h.execIxor
  · exact h.execInot
  · exact h.execAndn
  · exact h.execShl
  · exact h.execShr
  · exact h.execSar
  · exact h.execRol
  · exact h.execRor
  · exact h.execPopc
  · exact h.execClz
  · exact h.execCtz
  · exact h.execBrev
  · exact h.execBfx
  · exact h.execBfi
  · exact h.execIcmp
  · exact h.execLea
  · exact h.execLaneid
  · exact h.execShfl
  · exact h.execBcast
  · exact h.execVote
  · exact h.execReduce
  · exact h.execScan
  · exact h.execFadd
  · exact h.execFsub
  · exact h.execFmul
  · exact h.execFfma
  · exact h.execFmin
  · exact h.execFmax
  · exact h.execFcmp
  · exact h.execFdiv
  · exact h.execFsqrt
  · exact h.execFrcp
  · exact h.execFrsq
  · exact h.execFex2
  · exact h.execFlg2
  · exact h.execFsin
  · exact h.execFcos
  · exact h.execFrnd
  · exact h.execFclass
  · exact h.execFldexp
  · exact h.execHadd2
  · exact h.execHmul2
  · exact h.execHfma2
  · exact h.execCvt
  · exact h.execCvtSr
  · exact h.execPack
  · exact h.execUnpack
  · exact h.execDsenc
  · exact h.execDsdec
  · exact h.execScaleq
  · exact h.execQuant
  · exact h.execRng
  · exact h.execLd
  · exact h.execSt
  · exact h.execLds
  · exact h.execSts
  · exact h.execLdw
  · exact h.execStw
  · exact h.execLdres
  · exact h.execStcond
  · exact h.execPref
  · exact h.execAtom
  · exact h.execAtoms
  · exact h.execRed
  · exact h.execFence
  · exact h.execBar
  · exact h.execGbar
  · exact h.execNbjoin
  · exact h.execNbarrive
  · exact h.execNbwait
  · exact h.execNbsync
  · exact h.execWaitf
  · exact h.execEvwait
  · exact h.execEvsig
  · exact h.execSend
  · exact h.execRecv
  · exact h.execChstat
  · exact h.execChresize
  · exact h.execCopy
  · exact h.execCopy2d
  · exact h.execTcopy
  · exact h.execGath
  · exact h.execScat
  · exact h.execFill
  · exact h.execStream
  · exact h.execStrmctlStart
  · exact h.execStrmctlPause
  · exact h.execStrmctlResume
  · exact h.execStrmctlCancel
  · exact h.execIstream
  · exact h.execHandoffTohost
  · exact h.execHandoffTodevice
  · exact h.execMxcfg
  · exact h.execMxcfgRelease
  · exact h.execMxload
  · exact h.execMxfeed
  · exact h.execMxfeeds
  · exact h.execMxmul
  · exact h.execMxzero
  · exact h.execMxdrain
  · exact h.execMxstat
  · exact h.execCommnew
  · exact h.execCommfree
  · exact h.execCommstat
  · exact h.execCollAllreduce
  · exact h.execCollReduce
  · exact h.execCollBroadcast
  · exact h.execCollAllgather
  · exact h.execCollReducescatter
  · exact h.execCollAlltoall
  · exact h.execCollBarrier
  · exact h.execLaunch
  · exact h.execLstat
  · exact h.execCtxnew
  · exact h.execCtxgrant
  · exact h.execCtxrevoke
  · exact h.execCtxkill
  · exact h.execCtxrunResume
  · exact h.execCtxrunReflect
  · exact h.execCtxstat
  · exact h.execTlbinv
  · exact h.execFqpop
  · exact h.execRdsys
  · exact h.execWrsys
  · exact h.execTopo
  · exact h.execTime
  · exact h.execLatband
  · exact h.execCapw
  · exact h.execTrace
  · exact h.execTmaskMask
  · exact h.execTmaskUnmask
  · exact h.execTret
  · exact h.execBlockAdmit
  · exact h.execTokenArrive
  · exact h.execLoadReply
  · exact h.execBlockCommit
  · exact h.execBlockDiscard
  · exact h.execFairnessTimer
  · exact h.execTagExhausted
  · exact h.execBlockStuck
  · exact h.execMailboxArrive
  · exact h.execDcuRequest
  · exact h.execPresenceInvalidation
  · exact h.execHomeWrite
  · exact h.execFlushingReadDone
  · exact h.execAtomicAtPort
  · exact h.execAtomicReply
  · exact h.execReservationPinExpiry
  · exact h.execTranslationWalk
  · exact h.execAtsResponse
  · exact h.execPriSuccess
  · exact h.execPriInvalidRequest
  · exact h.execPriResponseFailure
  · exact h.execPriTimeout
  · exact h.execPriQuarantineExpiry
  · exact h.execAtsInvalidation
  · exact h.execFrameRelease
  · exact h.execDieShootdown
  · exact h.execShootdownComplete
  · exact h.execZeroingComplete
  · exact h.execEngineOpStart
  · exact h.execEngineOpComplete
  · exact h.execStreamBuffer
  · exact h.execMatrixQueueStart
  · exact h.execMxmulKblock
  · exact h.execMatrixPathIdleRelease
  · exact h.execCommReady
  · exact h.execCommFormTimeout
  · exact h.execAbortNotice
  · exact h.execCollDecisionTimeout
  · exact h.execGridStart
  · exact h.execTeamAdmit
  · exact h.execTeamRetire
  · exact h.execPriorityAging
  · exact h.execRevokeComplete
  · exact h.execKillComplete
  · exact h.execSliceExpiry
  · exact h.execOverrunLimitExpiry
  · exact h.execDrainQuiescence
  · exact h.execPreemptTimeout
  · exact h.execContextRestore
  · exact h.execRootStart
  · exact h.execCreate
  · exact h.execSave
  · exact h.execRestore
  · exact h.execRootCmdInvalid
  · exact h.execFqResume
  · exact h.execFqConfigWrite
  · exact h.execAperBaseWrite
  · exact h.execHandoverToHost
  · exact h.execHandoverToDevice
  · exact h.execReleaseCommand
  · exact h.execKick
  · exact h.execVfRegisterWrite
  · exact h.execBar2Read
  · exact h.execBar2Write
  · exact h.execBar2Atomicop
  · exact h.execFlr
  · exact h.execFlrComplete
  · exact h.execHotReset
  · exact h.execPowerGood
  · exact h.execFirmwareUpdate
  · exact h.execRegionDescriptorWrite
  · exact h.execPartitionCut
  · exact h.execResourceProfileAssign
  · exact h.execImageMove
  · exact h.execThermalThrottle
  · exact h.execPanelPowerOff
  · exact h.execCurrentClamp
  · exact h.execVociaFlitReceive
  · exact h.execVociaPathLoss
  · exact h.execHomeRead
  · exact h.execWindowAccessArrive
  · exact h.execFqHeadWrite
  · exact h.execImageRelease
  · exact h.execAtomicopRequesterEnable

/-! ## The operations of Machine/Moves -/

theorem State.Canon.issue (h : s.Canon) {q} : OutCanon (s.issue q) := by
  unfold State.issue
  split
  · next e => exact ((State.Canon.exec (s := { s with cur := some q.2 }) h).next e).upd rfl
  · exact trivial
  · exact trivial

theorem State.Canon.fireWarp (h : s.Canon) {core slot itag idx} : OutCanon (s.fireWarp core slot itag idx) := by
  unfold State.fireWarp
  dsimp only
  split
  · split
    · exact h
    · split
      · exact h
      · split
        · exact h.issue
        · exact h
  · exact h

theorem State.Canon.ctlEnter (h : s.Canon) {core t} : (s.ctlEnter core t).Canon := by
  unfold State.ctlEnter
  dsimp only
  split
  · exact h
  · split
    · exact h.fetchBlock.wait ‹_›
    · exact (h.fetchBlock.fault ‹_›).haltCtl
    · split
      · exact h
      · exact ((h.fetchBlock.ok ‹_›).foldl (fun _ _ h₁ => h₁.joinFlag)).modCtl

theorem State.Canon.ctlExit (h : s.Canon) {core x} : (s.ctlExit core x).Canon := h

theorem State.Canon.ctlEnd (h : s.Canon) {core t} : (s.ctlEnd core t).Canon := by
  unfold State.ctlEnd
  split
  · exact h.haltCtl
  · exact h.ctlExit
  · exact h.modCtl.modCore

theorem State.Canon.ctlTurn (h : s.Canon) {core t} : OutCanon (s.ctlTurn core t) := by
  unfold State.ctlTurn
  dsimp only
  split
  · exact h
  · split
    · exact h.modCore.modCtl
    · split
      · exact h.ctlEnter
      · split
        · exact h.modCtl
        · split
          · exact h.ctlEnd
          · split
            · exact h
            · split
              · exact h.beginPreempt
              · exact h.issue

theorem State.Canon.slicePoint2 (h : s.Canon) {core vf} : (s.slicePoint2 core vf).Canon := by
  unfold State.slicePoint2
  split
  · dsimp only
    split
    · exact h.beginPreempt
    · exact h
  · exact h

theorem State.Canon.fireCtl (h : s.Canon) {core x} : OutCanon (s.fireCtl core x) := by
  unfold State.fireCtl
  dsimp only
  split
  · exact h.slicePoint2
  · split
    · exact h.slicePoint2
    · split
      · exact (h.modCore.ctlTurn.next ‹_›).slicePoint2
      · exact h.modCore.ctlTurn

theorem State.Canon.goOnHost (h : s.Canon) {vf n} : OutCanon (s.goOnHost vf n) := by
  unfold State.goOnHost
  dsimp only
  split
  · exact h
  · split
    · exact h
    · split
      · exact (h.modVf.exec.next ‹_›).modVf
      · exact trivial
      · exact trivial

theorem State.Canon.move (h : s.Canon) {a} : OutCanon (s.move a) := by
  unfold State.move
  split
  · exact h.fireWarp
  · exact h.fireCtl
  · split
    · exact h
    · exact h.exec
  · exact h.goOnHost

theorem State.Canon.turn (h : s.Canon) : OutCanon s.turn := by
  unfold State.turn
  split
  · exact (h.upd (by rfl)).pass.move
  · dsimp only
    split
    · exact (h.upd (by rfl)).pass
    · exact (h.upd (by rfl)).pass.move

/-! ## The operations of Machine/Step -/

theorem State.Canon.step (h : s.Canon) : OutCanon (step s) := h.turn

/-- Settles O7: a step is a run of the operations above, and each of them writes a memory only through `Mem.set`, `Mem.setBytes` and
`Mem.clear`, which keep the form. -/
theorem stepKeepsTheMemoriesCanonical : Obligations.StepKeepsTheMemoriesCanonical :=
  fun _ _ h e => (State.Canon.step h).next e

end Sys2Proof.Machine
end

section
/-! PROOF. The function's page, its fault queue and handover commands, and BAR2. -/

namespace Sys2Proof.Machine

variable {s t : State} {vf off n : Nat}

/-! ## Writes to the page -/

/-- A write to an open page is performed at once (R467, R480). -/
theorem State.pageWrite_open (h : s.pageOpen vf = true) {i : Instr} {f : State → State} : s.pageWrite vf i f = .next (f s) := by
  simp [State.pageWrite, h]

/-- A write behind a posted write that waits is kept (R467, R480). -/
theorem State.pageWrite_behind (hu : s.pageUp vf = true) (hb : s.behindWrites vf = true) {i : Instr} {f : State → State} :
    s.pageWrite vf i f = .next (s.postpone vf i) := by
  simp [State.pageWrite, State.pageOpen, hu, hb]

theorem fqSizeOk_iff {n : Nat} : fqSizeOk n = true ↔ ∃ k, k < 11 ∧ n = 64 * 2 ^ k := by
  simp [fqSizeOk]

/-- The registers that only hold a value (Table 21.2). -/
theorem execVfRegisterWrite_value (h : s.pageOpen vf = true) (value : DWord) :
    execVfRegisterWrite vf 0x010 value 8 s = .next (s.modVf vf fun v => { v with rtroot := value }) ∧
    execVfRegisterWrite vf 0x018 value 8 s = .next (s.modVf vf fun v => { v with rentry := value }) ∧
    execVfRegisterWrite vf 0x030 value 8 s = .next (s.modVf vf fun v => { v with rarg := value }) :=
  ⟨State.pageWrite_open h, State.pageWrite_open h, State.pageWrite_open h⟩

/-- A word of a handover command takes the bits that have a field (R8). -/
theorem execVfRegisterWrite_hcmd (h : s.pageOpen vf = true) (value : DWord) {n : Nat} (hn : n < 3) :
    execVfRegisterWrite vf (0x080 + 8 * n) value 8 s = .next (s.modVf vf fun v => { v with hcmd := listMod v.hcmd n fun _ => value &&& hcmdFields n }) := by
  refine (State.pageWrite_open h).trans ?_
  have hd : (0x080 + 8 * n) % 8 = 0 := by omega
  have hi : (0x080 + 8 * n - 0x080) / 8 = n := by omega
  have hr : (decide (0x080 ≤ 0x080 + 8 * n) && decide (0x080 + 8 * n < 0x098)) = true := by simp; omega
  have h₀ : 0x080 + 8 * n ≠ 0x010 ∧ 0x080 + 8 * n ≠ 0x018 ∧ 0x080 + 8 * n ≠ 0x030 := by omega
  simp only [hd, hi, hr, h₀, if_true, if_false, ne_eq, not_true_eq_false, decide_false, Bool.or_self, Bool.false_eq_true]

/-- A narrower write is dropped. -/
theorem execVfRegisterWrite_narrow (h : s.pageOpen vf = true) (value : DWord) {width : Nat} (hw : width ≠ 8) :
    execVfRegisterWrite vf off value width s = .next s := by
  refine (State.pageWrite_open h).trans ?_
  simp [hw]

/-- The base of the aperture is a multiple of 1 GiB, or ignored. -/
theorem execAperBaseWrite_open (h : s.pageOpen vf = true) (value : DWord) :
    (value.toNat % 2 ^ 30 = 0 → execAperBaseWrite vf value s = .next (s.modVf vf fun v => { v with aper := value })) ∧
    (value.toNat % 2 ^ 30 ≠ 0 → execAperBaseWrite vf value s = .next (s.modVf vf fun v => { v with ignored := true })) :=
  ⟨fun ha => (State.pageWrite_open h).trans (congrArg _ (if_pos ha)), fun ha => (State.pageWrite_open h).trans (congrArg _ (if_neg ha))⟩

theorem execRootCmdInvalid_open (h : s.pageOpen vf = true) {value : DWord} (hv : value ∉ [1, 2, 3]) :
    execRootCmdInvalid vf value s = .next (s.modVf vf fun v => { v with ignored := true }) := by
  refine (State.pageWrite_open h).trans (congrArg _ (if_neg ?_))
  simpa using hv

/-! ## The fault queue -/

/-- FQ.BASE and FQ.SIZE take a legal value while there is no root (R463). -/
theorem execFqConfigWrite_unset (h : s.pageOpen vf = true) (hr : (s.vf vf).root = none) (value : DWord) :
    (value.toNat % 4096 = 0 → execFqConfigWrite vf false value s = .next (s.modVf vf fun v => { v with fqBase := value })) ∧
    ((∃ k, k < 11 ∧ value.toNat = 64 * 2 ^ k) →
      execFqConfigWrite vf true value s = .next ((s.modVf vf fun v => { v with fqSize := value }).drainHostFaults vf)) := by
  constructor
  · intro hv
    refine (State.pageWrite_open h).trans ?_
    simp [hr, hv]
  · intro hv
    refine (State.pageWrite_open h).trans ?_
    simp [hr, fqSizeOk_iff.2 hv]

/-- The queue of a root that has a size keeps its place. -/
theorem execFqConfigWrite_set (h : s.pageOpen vf = true) {r : Nat} (hr : (s.vf vf).root = some r) (hs : (s.vf vf).fqSize ≠ 0) (size : Bool) (value : DWord) :
    execFqConfigWrite vf size value s = .next (s.modVf vf fun v => { v with ignored := true }) := by
  have hq : ((s.vf vf).root.isSome && (s.vf vf).fqSize != 0) = true := by rw [hr, Option.isSome_some, Bool.true_and, bne_iff_ne]; exact hs
  exact (State.pageWrite_open h).trans (congrArg _ (if_pos hq))

theorem execFqResume_open (h : s.pageOpen vf = true) {r : Ctx} (hr : s.vfRoot vf = some r) (value : DWord) :
    execFqResume vf value s = .next ((if s.fqResumeStatus r (value.toNat % 65536) == .done then s.resumeHalts r.idx r.idx (value.toNat % 65536) else s).modVf vf
      fun v => { v with fqRstat := BitVec.ofNat 64 (s.fqResumeStatus r (value.toNat % 65536)).num }) := by
  refine (State.pageWrite_open h).trans ?_
  have hb : bitsOf value.toNat 15 0 = value.toNat % 65536 := by simp [bitsOf]
  simp [hr, hb]

/-- A word without a halt is malformed. -/
theorem fqResumeStatus_zero {r : Ctx} : s.fqResumeStatus r 0 = .malformed := rfl

theorem fqResumeStatus_of_alive {r : Ctx} {halt : Nat} (hh : halt ≠ 0) (hk : r.st ≠ .killing) : s.fqResumeStatus r halt = s.resumeStatus r.idx r halt := by
  simp [State.fqResumeStatus, hh, hk]

theorem execKick_open (h : s.pageOpen vf = true) {r : Ctx} (hr : s.vfRoot vf = some r) {e : Nat} (he : e < 63) :
    execKick vf e s = .next (s.modCtx r.idx fun c => { c with events := listMod c.events e (· + 1), kicked := e :: c.kicked.filter (· != e) }) := by
  refine (State.pageWrite_open h).trans ?_
  simp [hr, Nat.not_le.2 he]

/-! ## Handover and release -/

theorem execHandover_open (h : s.pageOpen vf = true) (w3 : DWord) :
    let q := hcmdOf (listMod (s.vf vf).hcmd 3 fun _ => w3)
    let t := s.modVf vf fun v => { v with hcmd := listMod v.hcmd 3 fun _ => w3 &&& 0xFFFFFFFF00000000 }
    (q.1.toHost = true → execHandoverToHost vf w3 s = .next (t.handCommand vf q.1 q.2)) ∧
    (q.1.toHost = false → execHandoverToDevice vf w3 s = .next (t.handCommand vf q.1 q.2)) := by
  intro q t
  refine ⟨fun hq => ?_, fun hq => ?_⟩
  · exact (State.pageWrite_open h).trans (congrArg _ (if_pos hq))
  · exact (State.pageWrite_open h).trans (congrArg _ (if_neg (ne_true_of_eq_false hq)))

theorem execReleaseCommand_open (h : s.pageOpen vf = true) {v : DWord} (hv : v.toNat < 2 ^ 52) (hr : dpaRegion v.toNat ∈ s.vfRegions vf)
    (ho : dpaOffset v.toNat < (s.dev.regions.getD (dpaRegion v.toNat) {}).size) :
    execReleaseCommand vf v s = .next (s.releaseFrame (frameOf v.toNat) (some vf)) :=
  (State.pageWrite_open h).trans (congrArg _ (if_pos (by simp only [hv, ho, List.contains_iff_mem.2 hr, decide_true, Bool.and_self])))

/-! ## BAR2 -/

/-- A request inside the aperture of a device that is up is not dropped. -/
theorem apertureRange_ok (hu : s.dev.up = true) (hn : off + n ≤ 2 ^ 30) : (!s.dev.up || decide (2 ^ 30 < off + n)) = false := by
  simp only [hu, Bool.not_true, Bool.false_or, decide_eq_false_iff_not, Nat.not_lt, hn]

section Root

variable {r : Ctx} {acc : AccKind} {i : Instr} {f : State → List (Place × Nat) → State}
  (hu : s.dev.up = true) (hn : off + n ≤ 2 ^ 30) (hf : (s.vf vf).flr = false) (hb : s.behindWrites vf = false) (hr : s.vfRoot vf = some r)

include hu hn hf hb hr

/-- A request whose parts are translated is performed. -/
theorem State.aperture_ok {l : List (Place × Nat)} (hp : s.aperParts r acc (pieces (n / 64 + 2) ((s.vf vf).aper.toNat + off) n) = (t, .ok l)) :
    s.aperture vf off n acc i f = f t l := by
  simp only [State.aperture, apertureRange_ok hu hn, hf, hb, hr, hp, Bool.false_eq_true, if_false, Bool.and_false]

/-- A request whose translation faults completes with UR. -/
theorem State.aperture_fault {e : FaultInfo} (hp : s.aperParts r acc (pieces (n / 64 + 2) ((s.vf vf).aper.toNat + off) n) = (t, .error (.fault e))) :
    s.aperture vf off n acc i f = t.completeUr vf := by
  simp only [State.aperture, apertureRange_ok hu hn, hf, hb, hr, hp, Bool.false_eq_true, if_false, Bool.and_false]

/-- A request whose translation the host must give is kept. -/
theorem State.aperture_host {v page : Nat} {wr : Bool}
    (hp : s.aperParts r acc (pieces (n / 64 + 2) ((s.vf vf).aper.toNat + off) n) = (t, .error (.host v page wr))) :
    s.aperture vf off n acc i f = (t.askHost v page wr).postpone vf i := by
  simp only [State.aperture, apertureRange_ok hu hn, hf, hb, hr, hp, Bool.false_eq_true, if_false, Bool.and_false]

end Root

/-- Without a root a request completes with UR. -/
theorem State.aperture_noRoot (hu : s.dev.up = true) (hn : off + n ≤ 2 ^ 30) (hb : s.behindWrites vf = false) (hr : (s.vf vf).root = none)
    {acc : AccKind} {i : Instr} {f : State → List (Place × Nat) → State} : s.aperture vf off n acc i f = s.completeUr vf := by
  have hv : s.vfRoot vf = none := by simp only [State.vfRoot, hr, Option.bind_none]
  simp only [State.aperture, apertureRange_ok hu hn, hb, hv, Bool.false_eq_true, if_false, Bool.and_false, ite_self]

/-- With no error in the machine nothing is met. -/
theorem State.sense_clean (hs : s.dev.soft = []) (hh : s.dev.hard = []) {by_ : Option (Nat × Requester)} {e : ErrSite} : s.sense by_ e = s := by
  simp [State.sense, hs, hh]

/-- A read outside the device memory only reads. -/
theorem State.homeRead_clean (hs : s.dev.soft = []) (hh : s.dev.hard = []) {by_ : Option (Nat × Requester)} {p : Place} (hp : ∀ d, p ≠ .dev d) :
    s.homeRead by_ p n = (s, s.peekN p n) := by
  have hfold : ∀ l : List ErrSite, l.foldl (fun s e => s.sense by_ e) s = s := by
    intro l
    induction l with
    | nil => rfl
    | cons e l ih => rw [List.foldl_cons, State.sense_clean hs hh, ih]
  cases p with
  | dev d => exact absurd rfl (hp d)
  | host _ _ _ | mbox _ _ _ _ | sp _ _ | acc _ _ => exact congrArg (·, _) (hfold _)

/-- A misaligned AtomicOp is a malformed TLP, and a 128-bit CAS completes with CA. -/
theorem execBar2Atomicop_unserved (hu : s.dev.up = true) {op : AtomOp} {aw : AWidth} (ha : hostAtomic op aw = true) (hn : off + aw.bytes ≤ 2 ^ 30)
    (v cmp : BitVec 128) :
    (off % aw.bytes ≠ 0 → execBar2Atomicop vf off op aw v cmp s = .next (s.modVf vf fun x => { x with reply := some (3, []) })) ∧
    (off % aw.bytes = 0 → aw = .w128 → execBar2Atomicop vf off op aw v cmp s = .next (s.modVf vf fun x => { x with reply := some (2, []) })) := by
  have hg : (!hostAtomic op aw || !s.dev.up || decide (2 ^ 30 < off + aw.bytes)) = false := by
    simp only [ha, hu, Bool.not_true, Bool.false_or, decide_eq_false_iff_not, Nat.not_lt, hn]
  refine ⟨fun hm => ?_, fun hm hw => ?_⟩
  · simp only [execBar2Atomicop, hg, Bool.false_eq_true, if_false, if_pos hm, State.complete]
  · have hq : (aw == .w128) = true := beq_iff_eq.2 hw
    simp only [execBar2Atomicop, hg, Bool.false_eq_true, if_false, hm, ne_eq, not_true_eq_false, hq, if_true, State.complete]

/-- An aligned AtomicOp of 32 or 64 bits on device memory is performed at the home (R468). -/
theorem execBar2Atomicop_served (hu : s.dev.up = true) {op : AtomOp} {aw : AWidth} (ha : hostAtomic op aw = true) (hn : off + aw.bytes ≤ 2 ^ 30)
    (hm : off % aw.bytes = 0) (hw : aw ≠ .w128) (hf : (s.vf vf).flr = false) (hb : s.behindWrites vf = false) {r : Ctx} (hr : s.vfRoot vf = some r)
    {d : Nat} (v cmp : BitVec 128)
    (hp : s.aperParts r .atomic (pieces (aw.bytes / 64 + 2) ((s.vf vf).aper.toNat + off) aw.bytes) = (t, .ok [(.dev d, aw.bytes)])) :
    execBar2Atomicop vf off op aw v cmp s = .next (execBar2Atomicop.go vf op v cmp t (.dev d) aw.bytes) := by
  have hg : (!hostAtomic op aw || !s.dev.up || decide (2 ^ 30 < off + aw.bytes)) = false := by
    simp only [ha, hu, Bool.not_true, Bool.false_or, decide_eq_false_iff_not, Nat.not_lt, hn]
  have hq : (aw == .w128) = false := beq_eq_false_iff_ne.2 hw
  simp only [execBar2Atomicop, hg, Bool.false_eq_true, if_false, hm, ne_eq, not_true_eq_false, hq, State.aperture_ok hu hn hf hb hr hp]

/-- Settles O58: a form at a time, by the lemma of its function. -/
theorem hostPageEvents : Obligations.HostPageEvents := by
  refine ⟨fun s vf value h => ?_, fun s vf e value r h hr => ⟨?_, ?_, ?_⟩, fun s vf w3 h => execHandover_open h w3,
    fun s vf v h hv hr ho => execReleaseCommand_open h hv hr ho, fun s vf off value hu hb => ⟨?_, ?_, ?_, ?_⟩,
    fun s t vf off n v page wr r hu hn hf hb hr hp => ?_, fun s vf off n hu hn hr hb => ?_,
    fun s t vf off n r l hu hn hf hb hr => ⟨fun hp => ?_, fun e hp => ?_⟩,
    fun s t vf off data r p hu hn hf hb hr hp => ?_, fun s t vf off d n op aw v cmp r hu ha hw hn => ?_,
    fun s p n hs hh hp => State.homeRead_clean hs hh hp, fun s d n bs => ⟨rfl, rfl⟩, fun s vf enable => rfl⟩
  · obtain ⟨htroot, hentry, harg⟩ := execVfRegisterWrite_value h value
    obtain ⟨haper, hbad⟩ := execAperBaseWrite_open h value
    have hhead : execFqHeadWrite vf value s = _ := State.pageWrite_open h
    exact ⟨htroot, hentry, harg, fun n hn => execVfRegisterWrite_hcmd h value hn, fun off width hw => execVfRegisterWrite_narrow h value hw, haper, hbad,
      fun hr hv => (execFqConfigWrite_unset h hr value).1 hv, fun hr hv => (execFqConfigWrite_unset h hr value).2 hv,
      fun size r hr hs => execFqConfigWrite_set h hr hs size value, hhead, fun hv => execRootCmdInvalid_open h hv⟩
  · exact fun he => execKick_open h hr he
  · intro hv
    refine (execFqResume_open h hr value).trans ?_
    rw [hv]
    rfl
  · intro hv hk hd
    refine (execFqResume_open h hr value).trans ?_
    rw [fqResumeStatus_of_alive hv hk, hd]
    rfl
  · exact (State.pageWrite_behind hu hb : execVfRegisterWrite vf off value 8 s = _)
  · exact (State.pageWrite_behind hu hb : execKick vf off s = _)
  · exact (State.pageWrite_behind hu hb : execFqResume vf value s = _)
  · exact (State.pageWrite_behind hu hb : execRootStart vf value s = _)
  · exact congrArg _ (State.aperture_host hu hn hf hb hr hp)
  · exact congrArg _ (State.aperture_noRoot hu hn hb hr)
  · exact congrArg _ (State.aperture_ok hu hn hf hb hr hp)
  · exact congrArg _ (State.aperture_fault hu hn hf hb hr hp)
  · refine congrArg _ ((State.aperture_ok hu hn hf hb hr hp).trans ?_)
    simp only [List.foldl_cons, List.foldl_nil, List.take_length]
  · subst hw
    obtain ⟨hmis, hwide⟩ := execBar2Atomicop_unserved hu ha hn v cmp
    refine ⟨hmis, hwide, fun hm hw hf hb hr hp => ?_⟩
    have hgo := execBar2Atomicop_served hu ha hn hm hw hf hb hr v cmp hp
    refine ⟨fun x hx => hgo.trans ?_, fun hx => hgo.trans ?_⟩
    · simp only [execBar2Atomicop.go, hx]
      rfl
    · simp only [execBar2Atomicop.go, hx]
      rfl

end Sys2Proof.Machine
end

section
/-! PROOF. An STS of a control thread whose team belongs to another context: the window check of R48 asks for an allocation of the
thread's context, finds none, and the store is dropped with WINDOW_PERM. -/

namespace Sys2Proof.Machine

/-- STS of 32 bits, without offset and without order. -/
def strayForm : MemOp := ⟨⟨.always, false, none, none, none⟩, 0, .none, .warp, .rnd⟩

/-- The control thread of context 1 stores 1 at the first byte of its team's allocation. -/
def strayIssue : Issue := { who := .ctl 0 1, idx := 0, mask := 1, vals := [⟨.b, 1, [1]⟩], form := baseForm 0 strayForm.wd }

/-- Its team, with an allocation of 4096 bytes, belongs to context 2. -/
def strayTeam : Team := { placedTeam with ctx := 2, lrec := { spb := 4096 } }

/-- The thread. -/
def strayThread : Ctl := freshCtl 1 8 (some (0, placedTeam.vals)) 0 0 false

/-- Core 0 with the thread and the team; context 1 runs. -/
def strayState : State := { State.reset with
  ctxs := [placedCtx]
  cores := [(0, { Core.fresh with ctls := [strayThread], teams := [strayTeam] })]
  cur := some strayIssue }

/-- The first byte of the allocation still reads 0. -/
theorem peek_of_strayStore {u : State} (hu : exec (.sts .b32 strayForm) strayState = .next u) : u.peek (.sp 0 0) = 0 := by
  obtain rfl := Host.Outcome.next.inj (hu.symm.trans (show exec (.sts .b32 strayForm) strayState = Host.Outcome.next _ from rfl))
  rfl

/-- Refutes O29: nothing says that the team of the thread belongs to the thread's context. Where it does not, the store
is dropped, and its bytes are not there. -/
theorem not_scratchpadAccessesOfAControlThread : ¬ Obligations.ScratchpadAccessesOfAControlThread := by
  rintro ⟨-, hsts⟩
  obtain ⟨u, v, hu, -, -, -, hbytes, -⟩ := hsts .b32 strayForm strayState strayIssue 0 1 strayThread strayTeam ⟨rfl, by decide⟩ rfl rfl rfl rfl rfl
    (by decide) (by decide) (by decide)
  have hone : (1 : BitVec 8) = u.peek (.sp 0 0) := (hbytes 0 (by decide)).symm
  rw [peek_of_strayStore hu] at hone
  exact absurd hone (by decide)

end Sys2Proof.Machine
end

section
/-! PROOF. The events of scheduling and pre-emption (chapters 18 and 19): each carries out what its conditions allow. -/

namespace Sys2Proof.Machine

variable {s : State} {x : Ctx} {g : Grid} {ctx queue seq core vf : Nat}

/-! ## Grids start and teams are admitted and retire -/

/-- The conditions under which a grid may start (R24, R410). -/
theorem State.gridMayStart_iff : s.gridMayStart x queue g = true ↔
    x.st = .running ∧ g.st = .queued ∧ (x.queues.getD queue default).mayStart g = true ∧ s.granting x.idx = false := by
  simp [State.gridMayStart, and_assoc]

section Start

variable (hx : s.ctx? ctx = some x) (hg : s.grid? ctx queue seq = some g) (hm : s.gridMayStart x queue g = true)

include hx hg hm

/-- A grid waits while the cores of a FULL predecessor release (R135). -/
theorem execGridStart_wait {r : State} (hr : s.releaseCores x ((x.queues.getD queue default).fullCores g) = .wait r) :
    execGridStart ctx queue seq s = .next r := by
  simp only [execGridStart, hx, hg, hm, hr, Bool.not_true, Bool.false_eq_true, if_false]

/-- A grid whose tables have been read runs, or ends MALFORMED (R407). -/
theorem execGridStart_read {r u v : State} {exps chans : List Nat}
    (hr : s.releaseCores x ((x.queues.getD queue default).fullCores g) = .done r)
    (hn : r.readTable ctx (x.cores.headD 0) g.lrec.nbtab 2 g.lrec.nnb = .vals u exps)
    (hc : u.readTable ctx (x.cores.headD 0) g.lrec.chtab 4 (if g.lrec.chtab = 0 then 0 else 64) = .vals v chans) :
    execGridStart ctx queue seq s = .next (if gridBad x g exps chans then v.modGrid ctx queue seq fun g => { g with st := .malformed }
      else v.modGrid ctx queue seq fun g => { g with st := .running, exps, chans := chans.map chanOf, since := v.time }) := by
  simp only [execGridStart, hx, hg, hm, hr, hn, hc, Bool.not_true, Bool.false_eq_true, if_false]

end Start

/-- A single team that fits and that nothing goes before is admitted to its home (R414, R415). -/
theorem execTeamAdmit_team {unit : Nat} (hx : s.ctx? ctx = some x) (hg : s.grid? ctx queue seq = some g) (hxr : x.st = .running)
    (hgr : g.st = .running) (hu : unit < g.lrec.units) (hin : g.unitIn unit = false) (hfit : s.unitFits x queue g unit = true)
    (hms : x.unitOf queue g unit = [(unit, core)]) (hfirst : x.firstWaiting queue g core = some unit) (hheld : s.heldBack g core = false) :
    execTeamAdmit ctx queue seq unit s = .next ((s.admitTeam x queue g unit core).modGrid ctx queue seq fun g =>
      { g with admitted := g.admitted ++ [unit], homes := g.homes ++ [(unit, core)], prio := min g.lrec.prio x.prio, since := s.time }) := by
  have hready : (x.st != .running || g.st != .running || decide (g.lrec.units ≤ unit) || g.unitIn unit || !s.unitFits x queue g unit) = false := by
    simp [hxr, hgr, hu, hin, hfit]
  have hturn : (decide (g.lrec.gang = 0) && [(unit, core)].any fun m => x.firstWaiting queue g m.2 != some unit) = false := by
    simp [hfirst]
  have hfree : ([(unit, core)].any fun m => s.heldBack g m.2) = false := by
    simp [hheld]
  simp only [execTeamAdmit, hx, hg, hms, hready, hturn, hfree, Bool.false_eq_true, if_false, List.foldl_cons, List.foldl_nil, List.map_cons,
    List.map_nil]

/-- A team whose warps have exited and whose operations have completed retires once its core has released (R242, R358, R388). -/
theorem execTeamRetire_ended {team : Nat} {t : Team} {r : State}
    (ht : (s.core core).teams.find? (fun t => t.ctx == ctx && t.queue == queue && t.seq == seq && t.tid == team) = some t)
    (hlive : t.live = []) (hops : t.ops = []) (hr : s.releaseGrid core ctx = .done r) :
    execTeamRetire core ctx queue seq team s = .next (((r.settleTeam core t).modCore core fun k =>
      { k with teams := k.teams.filter fun u => u.id != t.id }).modGrid ctx queue seq fun g => g.retire team) := by
  simp only [execTeamRetire, ht, hlive, hops, hr, List.isEmpty_nil, Bool.not_true, Bool.or_self, Bool.false_eq_true, if_false]

/-- A millisecond without an admission raises the priority of a grid whose teams wait (R413). -/
theorem execPriorityAging_due (hg : s.grid? ctx queue seq = some g) (hgr : g.st = .running) (hwait : g.admitted.length < g.lrec.teams)
    (hdue : g.since + msTicks ≤ s.time) :
    execPriorityAging ctx queue seq s = .next (s.modGrid ctx queue seq fun g => { g with prio := min 3 (g.prio + 1), since := g.since + msTicks }) := by
  have hold : (g.st != .running || decide (g.lrec.teams ≤ g.admitted.length) || decide (s.time < g.since + msTicks)) = false := by
    simp [hgr, hwait, hdue]
  simp only [execPriorityAging, hg, hold, Bool.false_eq_true, if_false]

/-! ## Revocations and kills end -/

/-- The word of a caller that is not being killed is sent (R394). -/
theorem State.callerWord_alive {caller code : Nat} {cw : DWord} {ident : Word} (hx : s.ctx? caller = some x) (hk : x.st ≠ .killing) :
    s.callerWord caller cw ident code = s.sendWord caller cw ident code := by
  simp [State.callerWord, hx, hk]

/-- A revocation whose drains have ended and whose frames are READY completes with its word (R391, R394). -/
theorem execRevokeComplete_drained {p : Ctx} {r : RevokeOp} (hx : s.ctx? ctx = some x) (hr : x.revoke = some r)
    (hdrain : s.drainsLeft ctx r.cores = false) (hready : r.frames.all s.frameReady = true)
    (hp : (s.modCtx ctx fun c => { c with revoke := none }).ctx? r.caller = some p) (hk : p.st ≠ .killing) :
    execRevokeComplete ctx s = .next ((s.modCtx ctx fun c => { c with revoke := none }).sendWord r.caller r.cw x.id 1) := by
  simp only [execRevokeComplete, hx, hr, hdrain, hready, Bool.not_true, Bool.or_self, Bool.false_eq_true, if_false, State.callerWord_alive hp hk]

section Kill

variable (hx : s.ctx? ctx = some x) (hk : x.st = .killing) (hch : ∀ c ∈ s.ctxs, c.parent ≠ some ctx)

include hk hch in
/-- A killed context without children is one whose end may come. -/
theorem killing_childless : (x.st != .killing || s.ctxs.any fun c => c.parent == some ctx) = false := by
  simpa [hk] using hch

include hx hk hch

/-- A killed context without children is taken apart (R445). -/
theorem execKillComplete_whole (hd : x.dying = none) : execKillComplete ctx s = .next (s.takeApart ctx) := by
  simp only [execKillComplete, hx, killing_childless hk hch, hd, Bool.false_eq_true, if_false]

/-- A context taken apart is gone when its frames are READY (R445). -/
theorem execKillComplete_ready {frames : List Nat} (hd : x.dying = some frames) (hready : frames.all s.frameReady = true) :
    execKillComplete ctx s = .next (s.removeCtx ctx) := by
  simp only [execKillComplete, hx, killing_childless hk hch, hd, hready, Bool.false_eq_true, if_false, if_true]

end Kill

/-! ## Slices -/

/-- A slice that has passed on a core without control threads begins its pre-emption at once (R432). -/
theorem execSliceExpiry_noThread {part : Nat} {y : Slice} {p : Profile} (hy : (s.core core).slices.find? (fun y => y.vf == vf) = some y)
    (hp : (s.vf vf).profile = some (part, p)) (hnew : y.expired = false) (hshare : s.sharedCore core vf = true)
    (hdue : p.slice ≤ nsBetween y.since s.time) (hctl : (s.core core).ctls = []) :
    execSliceExpiry core vf s = .next ((s.modCore core fun k =>
      { k with slices := mapIf (fun y => y.vf == vf) (fun y => { y with expired := true, since := s.time }) k.slices }).beginPreempt core vf) := by
  have hpass : (y.expired || !s.sharedCore core vf || decide (nsBetween y.since s.time < p.slice)) = false := by
    simp [hnew, hshare, hdue]
  simp only [execSliceExpiry, hy, hp, hpass, Bool.false_eq_true, if_false, State.core_modCore, if_true, hctl, List.all_nil]

/-- An expired slice begins its pre-emption at the overrun limit, whatever its control threads do (R432). -/
theorem execOverrunLimitExpiry_due {part : Nat} {y : Slice} {p : Profile} (hy : (s.core core).slices.find? (fun y => y.vf == vf) = some y)
    (hp : (s.vf vf).profile = some (part, p)) (hexp : y.expired = true) (hbeg : y.begun = false) (hdue : p.overrun ≤ nsBetween y.since s.time) :
    execOverrunLimitExpiry core vf s = .next (s.beginPreempt core vf) := by
  simp only [execOverrunLimitExpiry, hy, hp, hexp, hbeg, hdue, Bool.not_false, Bool.and_self, decide_true, if_true]

/-! ## Drains and restores -/

/-- A context that a round of draining leaves quiescent within the bound is saved (R434 to R436). -/
theorem execDrainQuiescence_quiet (hd : (s.core core).draining ctx = true) (hlate : s.drainLate core ctx = false)
    (hq : (s.drainStep core ctx).quiescent core ctx = true) :
    execDrainQuiescence core ctx s = .next ((s.drainStep core ctx).saveCtx core ctx) := by
  simp only [execDrainQuiescence, hd, hlate, hq, Bool.not_true, Bool.or_self, Bool.false_eq_true, if_false, if_true]

/-- A drain that reaches its bound ends in the kill of its context (R435). -/
theorem execPreemptTimeout_late {d : Drain} (hd : (s.core core).drains.find? (fun d => d.ctx == ctx) = some d)
    (hlate : drainBound ≤ nsBetween d.since s.time) :
    execPreemptTimeout core ctx s = .next ((((s.deliver ctx (.write 0) false { code := .preemptTimeout } 0 0).startKill ctx none 0).modCore core fun k =>
      { k with drains := k.drains.filter fun d => d.ctx != ctx }).endSlice core (s.vfOf ctx)) := by
  simp only [execPreemptTimeout, hd, if_neg (Nat.not_lt.2 hlate)]

/-- With no image on a lost core no gang is broken (R444). -/
theorem gangBroken_nil (t : Team) : gangBroken [] t = false := by
  simp [gangBroken]

/-- A context saved with a control thread, none of it on a lost core, is restored whole where there is room (R437). -/
theorem execContextRestore_whole {t : State} {img : SaveImage} (hx : s.ctx? ctx = some x) (hxr : x.st = .running) (hc : core ∈ x.cores)
    (hd : (s.core core).draining ctx = false) (hs : (s.vf x.vf).saving = false) (hl : s.lostImages x = [])
    (hi : (s.core core).images.find? (fun i => i.ctx == ctx) = some img) (hctl : img.ctls ≠ [])
    (hr : s.restoreUnit x img (s.moveTo core core) ⟨img.teams, true, true⟩ = some t) : execContextRestore core ctx s = .next t := by
  have hmay : (x.st != .running || !x.cores.contains core || (s.core core).draining ctx || (s.vf x.vf).saving) = false := by
    simp [hxr, hc, hd, hs]
  have hkept : (img.teams.filter fun t => !gangBroken [] t) = img.teams := by
    simp [gangBroken_nil]
  have hsome : img.ctls.isEmpty = false := List.isEmpty_eq_false_iff.2 hctl
  simp only [execContextRestore, hx, hmay, hl, hi, hkept, hsome, hr, Option.bind_some, Bool.and_false, Bool.false_and, Bool.false_eq_true, if_false]

/-- Settles O57: an event at a time, by the lemma of its function. -/
theorem schedulingEvents : Obligations.SchedulingEvents := by
  refine ⟨fun s r x g ctx queue seq hx hg hm hr => execGridStart_wait hx hg hm hr,
    fun s r u v x g ctx queue seq exps chans hx hg hxr hgq hq hgr hr hn hc => ?_,
    fun s x g ctx queue seq unit core hx hg hxr hgr _ hu hin hfit hms hfirst hheld =>
      execTeamAdmit_team hx hg hxr hgr hu hin hfit hms hfirst hheld,
    fun s r core ctx queue seq team t ht hlive hops hr => execTeamRetire_ended ht hlive hops hr,
    fun s ctx queue seq g hg hgr hwait hdue => execPriorityAging_due hg hgr hwait hdue,
    fun s ctx x p r hx hr hdrain hready hp hk => execRevokeComplete_drained hx hr hdrain hready hp hk,
    fun s ctx x hx hk hch => ⟨fun hdy => execKillComplete_whole hx hk hch hdy,
      fun frames hdy hready => execKillComplete_ready hx hk hch hdy hready⟩,
    fun s core vf part y p hy hp => ⟨fun hnew hshare hdue hctl => execSliceExpiry_noThread hy hp hnew hshare hdue hctl,
      fun hexp hbeg hdue => execOverrunLimitExpiry_due hy hp hexp hbeg hdue⟩,
    fun s core ctx hd hlate hq => execDrainQuiescence_quiet hd hlate hq,
    fun s core ctx d hd hlate => execPreemptTimeout_late hd hlate,
    fun s t core ctx x img hx hxr hc hd hs hl hi hctl hr => execContextRestore_whole hx hxr hc hd hs hl hi hctl hr⟩
  · have hm := State.gridMayStart_iff.2 ⟨hxr, hgq, hq, hgr⟩
    have hread := execGridStart_read hx hg hm hr hn hc
    exact ⟨fun hb => hread.trans (congrArg _ (if_neg (ne_true_of_eq_false hb))), fun hb => hread.trans (congrArg _ (if_pos hb))⟩

end Sys2Proof.Machine
end

section
/-! PROOF. The system forms (chapter 17): system registers, topology, time, latency bands and the capability list. -/

namespace Sys2Proof.Machine

/-- A form that issues is carried out for its lanes. -/
theorem issuing_of_issues {s : State} {c : Issue} (h : Issues s c) {k : Issue → State} : issuing s k = .next (k c) := by
  obtain ⟨hcur, hmask⟩ := h
  simp only [issuing, hcur, hmask, if_false]

/-! ## RDSYS and WRSYS -/

/-- RDSYS sends the register in its width (R398). -/
theorem execRdsys_sends {s : State} {c : Issue} {r : SysReg} {sel : BitVec 16} (w : Wd) (h : Issues s c) (hr : SysReg.ofSel sel = some r) :
    execRdsys w sel s = .next (s.finish c
      (if r.wide then c.res64 fun _ => BitVec.ofNat 64 (s.sysReg c.who r) else c.status (s.sysReg c.who r))) := by
  simp only [execRdsys, issuing_of_issues h, hr]

/-- The value that WRSYS writes to a register: the lowest lane's operand, in the register's width (R398). -/
def Issue.sysWord (c : Issue) (r : SysReg) : DWord := if r.wide then c.lowD .a .ax else (c.lowW .a).setWidth 64

/-- WRSYS judges only a CTX.TROOT, so no other value faults, nor one that its rules allow (R69). -/
theorem wrsysFault_eq_none {s : State} {c : Issue} {x : Ctx} {r : SysReg} (hok : r = .ctxTroot → s.trootFault c x (c.sysWord r) = none) :
    (if r == .ctxTroot then s.trootFault c x (c.sysWord r) else none) = none := by
  by_cases htroot : r = .ctxTroot
  · rw [hok htroot, ite_self]
  · simp [htroot]

section Wrsys

variable {s : State} {c : Issue} {x : Ctx} {r : SysReg} {sel : BitVec 16} (w : Wd) (h : Issues s c)
  (hr : SysReg.ofSel sel = some r) (hx : s.ctx? (s.ctxOf c.who) = some x)

include h hr hx

/-- A CTX.TROOT that its rules refuse faults (R69, R398). -/
theorem execWrsys_refused {f : FaultInfo} (htroot : r = .ctxTroot) (hf : s.trootFault c x (c.sysWord r) = some f) :
    execWrsys w sel s = .next (s.faultIssue c f) := by
  subst htroot
  unfold Issue.sysWord at hf
  simp only [execWrsys, issuing_of_issues h, hr, hx, beq_self_eq_true, if_true, hf]

variable (hok : r = .ctxTroot → s.trootFault c x (c.sysWord r) = none)

include hok

/-- A warp buffers its WRSYS. -/
theorem execWrsys_warp (hw : c.inWarp) : execWrsys w sel s = .next ((s.addEff c (.wrsys c.idx r (c.sysWord r))).finish c []) := by
  have hn := wrsysFault_eq_none hok
  unfold Issue.sysWord at hn
  simp only [execWrsys, issuing_of_issues h, hr, hx, hn]
  cases hc : c.who with
  | warp core slot itag => rfl
  | ctl core y => simp [Issue.inWarp, hc, Who.isCtl] at hw

/-- A control thread's WRSYS takes effect at once. -/
theorem execWrsys_ctl {t : State} (hc : c.who.isCtl = true) (hd : s.wrsysDo c.who r (c.sysWord r) = .done t) :
    execWrsys w sel s = .next (t.finish c []) := by
  have hn := wrsysFault_eq_none hok
  unfold Issue.sysWord at hn hd
  simp only [execWrsys, issuing_of_issues h, hr, hx, hn, hd]
  cases hw : c.who with
  | warp core slot itag => simp [hw, Who.isCtl] at hc
  | ctl core y => rfl

end Wrsys

/-! ## TOPO, TIME, LATBAND and CAPW -/

section Reports

variable {s : State} {c : Issue} {x : Ctx} (w : Wd) (h : Issues s c)

include h

/-- TOPO sends the word of its selector (R399). -/
theorem execTopo_sends (sel : BitVec 16) (hx : s.ctx? (s.ctxOf c.who) = some x) :
    execTopo w sel s = .next (s.finish c (c.status (s.topoValue x c.who.core sel.toNat))) := by
  simp only [execTopo, issuing_of_issues h, hx]

/-- TIME sends the die's counter plus TOFF (R400). -/
theorem execTime_sends (hx : s.ctx? (s.ctxOf c.who) = some x) :
    execTime w s = .next (s.finish c (c.res64 fun _ => BitVec.ofNat 64 (s.counter (dieOf c.who.core)) + x.toff)) := by
  simp only [execTime, issuing_of_issues h, hx, Option.map_some, Option.getD_some]

/-- LATBAND sends the band of the caller's die and port (R401). -/
theorem execLatband_found {word : Word}
    (hq : s.dev.latband.find? (fun q => q.1 == dieOf c.who.core && q.2.1 == (c.lowW .a).toNat) = some (dieOf c.who.core, (c.lowW .a).toNat, word)) :
    execLatband w s = .next (s.finish c (c.res32 fun _ => word)) := by
  simp only [execLatband, issuing_of_issues h, hq, Option.map_some, Option.getD_some]

/-- A port without a band reads 0. -/
theorem execLatband_missing (hq : ∀ q ∈ s.dev.latband, q.1 ≠ dieOf c.who.core ∨ q.2.1 ≠ (c.lowW .a).toNat) :
    execLatband w s = .next (s.finish c (c.res32 fun _ => 0)) := by
  have hnone : s.dev.latband.find? (fun q => q.1 == dieOf c.who.core && q.2.1 == (c.lowW .a).toNat) = none := by
    rw [List.find?_eq_none]
    intro q hmem
    simpa [← imp_iff_not_or] using hq q hmem
  simp only [execLatband, issuing_of_issues h, hnone, Option.map_none, Option.getD_none]

/-- CAPW sends the word at an offset that is a multiple of 8, or 0 (R402). -/
theorem execCapw_sends : execCapw w s = .next (s.finish c (c.res64 fun _ =>
    if (c.lowW .a).toNat % 8 ≠ 0 then 0 else (s.capList (s.vfOf (s.ctxOf c.who))).getD ((c.lowW .a).toNat / 8) 0)) := by
  simp only [execCapw, issuing_of_issues h, bne_iff_ne]

end Reports

/-- Settles O46: a form at a time, by the lemma of its function. -/
theorem systemForms : Obligations.SystemForms := by
  refine ⟨fun w sel r s c x h hx hr => ⟨fun hw => ?_, fun hw => ?_, fun hok => ⟨fun hwarp => ?_, fun t hc hd => ?_⟩, fun f htroot hf => ?_⟩,
    fun w sel s c x h hx => ⟨execTopo_sends w h sel hx, execTime_sends w h hx, fun word hq => execLatband_found w h hq,
      fun hq => execLatband_missing w h hq, fun ho => ?_, fun ho => ?_⟩⟩
  · exact (execRdsys_sends w h hr).trans (by rw [if_pos hw])
  · exact (execRdsys_sends w h hr).trans (by rw [if_neg (ne_true_of_eq_false hw)]; rfl)
  · exact execWrsys_warp w h hr hx hok hwarp
  · exact execWrsys_ctl w h hr hx hok hc hd
  · exact execWrsys_refused w h hr hx htroot hf
  · exact (execCapw_sends w h).trans (by simp only [if_pos ho])
  · exact (execCapw_sends w h).trans (by simp only [if_neg (not_not.2 ho)])

end Sys2Proof.Machine
end

section
/-! PROOF. Walks, ATS and PRI answers, invalidations, and the scrubbing of frames (chapter 3). -/

namespace Sys2Proof.Machine

variable {s : State}

/-! ## Walks -/

section Walk

variable {t : State} {unit : Nat} {onFirn : Bool} {m : Miss}
  (hm : (s.missq unit onFirn).find? (s.missReady (decide (walking (s.missq unit onFirn) < walkers onFirn))) = some m)

include hm

/-- A walk that finds a translation enters it and serves the prefetches (R62, R337). -/
theorem execTranslationWalk_found {w : Walked} (hw : s.walk (walkDie unit onFirn) m.ctx m.va m.acc = (t, .ok w)) :
    execTranslationWalk unit onFirn s =
      .next (((t.setMissq unit onFirn fun q => q.erase m).enterWalk unit onFirn m w).servePrefs m w) := by
  simp only [execTranslationWalk, hm, hw]

/-- A walk that meets a host page asks the host, and its miss waits (R81, log 46). -/
theorem execTranslationWalk_host {vf page : Nat} {wr : Bool}
    (hw : s.walk (walkDie unit onFirn) m.ctx m.va m.acc = (t, .error (.host vf page wr))) :
    execTranslationWalk unit onFirn s = .next ((t.askHost vf page wr).setMissq unit onFirn
      (mapIf (· == m) fun y => { y with hostWait := some (vf, page) })) := by
  simp only [execTranslationWalk, hm, hw]

/-- A walk that faults reports to its one requester (R65, R71). -/
theorem execTranslationWalk_fault {f : FaultInfo} {q : Waiter} {a : AccKind}
    (hw : s.walk (walkDie unit onFirn) m.ctx m.va m.acc = (t, .error (.fault f))) (hq : m.waiters = [(q, m.va, a)]) :
    execTranslationWalk unit onFirn s =
      .next ((t.setMissq unit onFirn fun l => l.erase m).faultWaiter q (t.waiterFault (walkDie unit onFirn) m (q, m.va, a) f)) := by
  simp only [execTranslationWalk, hm, hw, hq, List.find?_cons, beq_self_eq_true, List.erase_cons_head, State.faultWaiters, List.foldl_nil]

end Walk

/-! ## ATS -/

/-- A change of a function leaves all of them in their places. -/
@[simp] theorem State.length_vfs_modVf (n : Nat) (f : Vf → Vf) : (s.modVf n f).vfs.length = s.vfs.length := listMod_length _ _ _

/-- A second change of a function works on the first. -/
theorem State.vf_modVf_modVf {vf : Nat} (hv : vf < s.vfs.length) (f g : Vf → Vf) : ((s.modVf vf f).modVf vf g).vf vf = g (f (s.vf vf)) := by
  rw [State.vf_modVf _ _ _ _ (by rwa [State.length_vfs_modVf]), if_pos rfl, State.vf_modVf _ _ _ _ hv, if_pos rfl]

/-- Which page-request index is free does not depend on the ATS requests. -/
theorem Vf.freeIdx_setAtsPend (v : Vf) (l : List (Nat × Bool)) : ({ v with atsPend := l } : Vf).freeIdx = v.freeIdx := rfl

/-- With a free index a page request is issued on it (R82, R83). -/
theorem State.vf_askPri {vf page idx : Nat} {wr : Bool} (hv : vf < s.vfs.length) (hi : (s.vf vf).freeIdx = some idx) :
    (s.askPri vf page wr).vf vf =
      { s.vf vf with pri := (s.vf vf).pri ++ [{ idx, page, write := wr, gen := (s.vf vf).gen, since := s.time }] } := by
  simp only [State.askPri, State.vf_modVf _ _ _ _ hv, if_true, hi]

section Ats

variable {vf : Nat} {addr : DWord} {wr : Bool} (hp : (s.vf vf).atsPend = [(addr.toNat / 65536, wr)])

include hp

/-- A unit that is present with its right can be used, and what waits for words is tried again (R81). -/
theorem execAtsResponse_present : execAtsResponse vf addr true true s =
    .next (((s.modVf vf fun v => { v with atsPend := v.atsPend.erase (addr.toNat / 65536, wr) }).modVf vf fun v =>
      { v with atsOk := (addr.toNat / 65536, wr) :: v.atsOk.filter fun r => !(r.1 == addr.toNat / 65536 && (wr || !r.2)) }).retryWords) := by
  simp only [execAtsResponse, hp, List.find?_cons, beq_self_eq_true, Bool.and_self, if_true]

/-- A unit that is absent, or without its right, leads to a page request (R82). -/
theorem execAtsResponse_refused {present allowed : Bool} (hno : present = false ∨ allowed = false) : execAtsResponse vf addr present allowed s =
    .next ((s.modVf vf fun v => { v with atsPend := v.atsPend.erase (addr.toNat / 65536, wr) }).askPri vf (addr.toNat / 65536) wr) := by
  simp only [execAtsResponse, hp, List.find?_cons, beq_self_eq_true, Bool.and_eq_false_iff.2 hno, Bool.false_eq_true, if_false]

/-- A unit that is answered for is asked for no longer, and can be used. -/
theorem execAtsResponse_usable (hv : vf < s.vfs.length) : ∃ t, execAtsResponse vf addr true true s = .next (State.retryWords t) ∧
    (t.vf vf).atsPend = [] ∧ (addr.toNat / 65536, wr) ∈ (t.vf vf).atsOk := by
  refine ⟨_, execAtsResponse_present hp, ?_, ?_⟩
  · simp only [State.vf_modVf_modVf hv, hp, List.erase_cons_head]
  · simp only [State.vf_modVf_modVf hv, List.mem_cons_self]

/-- A page request takes the lowest free index (R83). -/
theorem execAtsResponse_asksPri (hv : vf < s.vfs.length) {present allowed : Bool} {idx : Nat} (hno : present = false ∨ allowed = false)
    (hi : (s.vf vf).freeIdx = some idx) :
    ∃ t, execAtsResponse vf addr present allowed s = .next t ∧ (t.vf vf).atsPend = [] ∧ (t.vf vf).pri = (s.vf vf).pri ++
      [{ idx, page := addr.toNat / 65536, write := wr, gen := (s.vf vf).gen, since := s.time }] := by
  have hvf : (s.modVf vf fun v => { v with atsPend := v.atsPend.erase (addr.toNat / 65536, wr) }).vf vf = { s.vf vf with atsPend := [] } := by
    simp only [State.vf_modVf _ _ _ _ hv, if_true, hp, List.erase_cons_head]
  have hask := State.vf_askPri (page := addr.toNat / 65536) (wr := wr)
    (by rwa [State.length_vfs_modVf]) ((congrArg Vf.freeIdx hvf).trans ((Vf.freeIdx_setAtsPend _ _).trans hi))
  rw [hvf] at hask
  exact ⟨_, execAtsResponse_refused hp hno, congrArg Vf.atsPend hask, congrArg Vf.pri hask⟩

end Ats

/-! ## PRI -/

/-- A response to an index that is in use takes its request (R83). -/
theorem State.priTake_live {vf idx : Nat} {r : PageReq} (hr : (s.vf vf).pri.find? (fun q => q.idx == idx) = some r) (hq : r.quarantine = false)
    (f : PageReq → State → State) :
    s.priTake vf idx f = f r (s.modVf vf fun v => { v with pri := v.pri.filter fun q => q.idx != idx }) := by
  simp only [State.priTake, hr, hq, Bool.false_eq_true, if_false]

/-- A response to an index that is not in use is counted (R83). -/
theorem State.priTake_stale {vf idx : Nat} (hr : (s.vf vf).pri.find? (fun q => q.idx == idx) = none) (f : PageReq → State → State) :
    s.priTake vf idx f = s.modVf vf fun v => { v with priStale := v.priStale + 1 } := by
  simp only [State.priTake, hr]

/-- A page request without an answer for a second fails (R82). -/
theorem execPriTimeout_due {vf idx : Nat} {r : PageReq} (hr : (s.vf vf).pri.find? (fun q => q.idx == idx) = some r) (hq : r.quarantine = false)
    (hd : 1000000000 ≤ nsBetween r.since s.time) : execPriTimeout vf idx s =
      .next ((s.modVf vf fun v => { v with pri := v.pri.filter fun q => q.idx != idx }).priFail r vf) := by
  have hidx := List.find?_some hr
  have hdue : ((s.vf vf).pri.any fun r => r.idx == idx && !r.quarantine && s.secondSince r.since) = true :=
    List.any_eq_true.2 ⟨r, List.mem_of_find?_eq_some hr, by simp only [hidx, hq, State.secondSince, hd, Bool.not_false, Bool.and_self, decide_true]⟩
  simp only [execPriTimeout, hdue, if_true, State.priTake_live hr hq]

/-- The end of a quarantine frees its index and no other (R83). -/
theorem mem_pri_quarantineExpiry {vf idx : Nat} (hv : vf < s.vfs.length) : ∃ t, execPriQuarantineExpiry vf idx s = .next t ∧
    ∀ r ∈ (s.vf vf).pri, r ∈ (t.vf vf).pri ↔ ¬ (r.idx = idx ∧ r.quarantine = true ∧ 1000000000 ≤ nsBetween r.since s.time) := by
  refine ⟨_, rfl, fun r hr => ?_⟩
  rw [State.vf_modVf _ _ _ _ hv, if_pos rfl, List.mem_filter]
  simp only [hr, true_and, Bool.not_eq_true', ← Bool.not_eq_true, Bool.and_eq_true, beq_iff_eq, State.secondSince, decide_eq_true_eq, and_assoc]

/-! ## Invalidation -/

/-- A unit of 64 KiB that meets none of a range's 4 KiB pages meets none of its bytes. -/
theorem unit_outside_range {p a n : Nat} (h : a / 4096 + (a % 4096 + n + 4095) / 4096 ≤ 16 * p ∨ 16 * p + 16 ≤ a / 4096) :
    p * 65536 + 65536 ≤ a ∨ a + n ≤ p * 65536 := by
  omega

/-- An invalidation with fewer than 32 outstanding is taken: every translation into the range goes (R81). -/
theorem execAtsInvalidation_taken {vf len : Nat} {addr : DWord} (hn : (s.vf vf).inval.length < 32) :
    let page := addr.toNat / 4096
    let npages := (addr.toNat % 4096 + len + 4095) / 4096
    execAtsInvalidation vf addr len s = .next ((s.tlbDropOut fun e => e.meetsPages vf page npages).modVf vf fun v =>
      { v with atsOk := v.atsOk.filter fun q => !(16 * q.1 < page + npages && page < 16 * q.1 + 16), inval := v.inval ++ [{ page, npages }] }).invalPoll := by
  simp only [execAtsInvalidation, if_neg (Nat.not_le.2 hn)]

/-- No unit that an invalidation meets stays usable. -/
theorem execAtsInvalidation_drops {vf len : Nat} {addr : DWord} (hv : vf < s.vfs.length) (hn : (s.vf vf).inval.length < 32) :
    ∃ t, execAtsInvalidation vf addr len s = .next (State.invalPoll t) ∧
      ∀ p w, (p, w) ∈ (t.vf vf).atsOk → p * 65536 + 65536 ≤ addr.toNat ∨ addr.toNat + len ≤ p * 65536 := by
  refine ⟨_, execAtsInvalidation_taken hn, fun p w hpw => ?_⟩
  rw [State.vf_modVf _ _ _ _ (by exact hv), if_pos rfl, List.mem_filter] at hpw
  exact unit_outside_range (by simpa using hpw.2)

/-- An invalidation beyond 32 that are outstanding waits (R458). -/
theorem execAtsInvalidation_waits {vf len : Nat} {addr : DWord} (hn : 32 ≤ (s.vf vf).inval.length) :
    execAtsInvalidation vf addr len s = .next (s.postpone vf (.atsInvalidation vf addr len)) := by
  simp only [execAtsInvalidation, if_pos hn]

/-! ## The scrub of a frame -/

variable {frame die : Nat} {x : Scrub}

/-- A release that waited begins once the scrub lists have room (R79). -/
theorem execFrameRelease_waited {q : Nat × Option Nat} (hq : s.waitRel.find? (fun q => q.1 == frame) = some q) (hroom : s.scrubs.length < 256) :
    execFrameRelease frame s = .next ({ s with waitRel := s.waitRel.erase q }.releaseFrame frame q.2) := by
  simp only [execFrameRelease, hq, Nat.not_le.2 hroom, decide_false, Bool.false_and, Bool.false_eq_true, if_false]

/-- The firmware starts the scrub of a frame that no release waits for (R473). -/
theorem execFrameRelease_firmware (hw : ∀ q ∈ s.waitRel, q.1 ≠ frame) (hu : s.dev.up = true) (hf : frame * 65536 < 2 ^ 52)
    (ho : dpaOffset (frame * 65536) < (s.dev.regions.getD (dpaRegion (frame * 65536)) {}).size) :
    execFrameRelease frame s = .next (s.releaseFrame frame none) := by
  have hnone : s.waitRel.find? (fun q => q.1 == frame) = none := List.find?_eq_none.2 fun q hq => by simpa using hw q hq
  simp only [execFrameRelease, hnone, hu, hf, ho, decide_true, Bool.and_self, if_true]

/-- A walk over a list keeps the scrub lists when each of its steps does. -/
theorem State.scrubs_foldl {α : Type} (s : State) (l : List α) {f : State → α → State} (hf : ∀ s a, (f s a).scrubs = s.scrubs) :
    (l.foldl f s).scrubs = s.scrubs :=
  List.foldlRecOn (motive := fun t => t.scrubs = s.scrubs) l f rfl fun t ht a _ => (hf t a).trans ht

@[simp] theorem State.dropFrameTlbs_scrubs (onFirn : Bool) : (s.dropFrameTlbs die onFirn frame).scrubs = s.scrubs := by
  cases onFirn with
  | true => rfl
  | false => exact State.scrubs_foldl (s.modDie die fun y => { y with tlb := y.tlb.filter fun e => !e.intoFrame frame }) _ fun _ _ => rfl

@[simp] theorem State.l1Drop_scrubs (core : Nat) (key : SKey) : (s.l1Drop core key).scrubs = s.scrubs := rfl

@[simp] theorem State.discardFrame_scrubs : (s.discardFrame die frame).scrubs = s.scrubs :=
  State.scrubs_foldl (s.dropFilled fun c k => dieOf c == die && (k.place 0).inFrame frame) _ fun _ _ =>
    State.scrubs_foldl _ _ fun _ _ => State.l1Drop_scrubs _ _

/-- The entry of a frame's scrub, after a change that keeps its frame. -/
theorem State.scrubOf_mapIf (hx : s.scrubOf frame = some x) (t : State) {f : Scrub → Scrub} (hf : ∀ y, (f y).frame = y.frame) :
    State.scrubOf { t with scrubs := mapIf (fun y => y.frame == frame) f s.scrubs } frame = some (f x) :=
  (find?_mapIf_self s.scrubs (·.frame) f hf frame).trans (congrArg (Option.map f) hx)

section Shootdown

variable (hd : die < 96) (hx : s.scrubOf frame = some x) (hst : x.st = .shootdown)

include hd hx hst

/-- A Firn die's shootdown drops its translations into the frame and acknowledges (R77). -/
theorem execDieShootdown_firn (ha : die ∉ x.firn) : execDieShootdown die true frame s =
    .next { s.dropFrameTlbs die true frame with scrubs := mapIf (fun y => y.frame == frame) (fun y => { y with firn := die :: y.firn }) s.scrubs } := by
  have hgo : (x.st != .shootdown || x.firn.contains die || decide (Config.seracDies ≤ die)) = false := by
    simp [hst, ha, Nat.not_le.2 (show die < Config.seracDies from hd)]
  simp only [execDieShootdown, hx, if_true, hgo, Bool.not_true, Bool.false_and, Bool.false_eq_true, if_false, State.dropFrameTlbs_scrubs]

/-- A Serac die on which no access to the frame is under way discards the frame's sectors and acknowledges (R77). -/
theorem execDieShootdown_serac (ha : die ∉ x.serac) (hb : (s.dropFrameTlbs die false frame).frameBusy die frame = false) :
    execDieShootdown die false frame s = .next { (s.dropFrameTlbs die false frame).discardFrame die frame with
      scrubs := mapIf (fun y => y.frame == frame) (fun y => { y with serac := die :: y.serac }) s.scrubs } := by
  have hgo : (x.st != .shootdown || x.serac.contains die || decide (Config.seracDies ≤ die)) = false := by
    simp [hst, ha, Nat.not_le.2 (show die < Config.seracDies from hd)]
  simp only [execDieShootdown, hx, hgo, hb, Bool.not_false, Bool.true_and, Bool.false_eq_true, if_false, State.discardFrame_scrubs,
    State.dropFrameTlbs_scrubs]

end Shootdown

/-- A Firn die that has dropped its translations into a frame holds none (R77). -/
theorem State.tlb_dropFrameTlbs_firn {e : TlbEntry} (he : e ∈ ((s.dropFrameTlbs die true frame).firn die).tlb) : e.intoFrame frame = false := by
  have hm : e ∈ ((s.modFirn die fun y => { y with tlb := y.tlb.filter fun e => !e.intoFrame frame }).firn die).tlb := he
  rw [State.firn_modFirn, if_pos rfl, List.mem_filter] at hm
  simpa using hm.2

/-- A frame that every die of each kind has acknowledged is zeroed, and its lines leave the Firn caches (R78). -/
theorem execShootdownComplete_acknowledged (hx : s.scrubOf frame = some x) (hst : x.st = .shootdown) (hall : ∀ d, d < 96 → d ∈ x.serac ∧ d ∈ x.firn) :
    execShootdownComplete frame s =
      .next { s.dropLines frame with scrubs := mapIf (fun y => y.frame == frame) (fun y => { y with st := .zeroing }) s.scrubs } := by
  have hserac : (List.range Config.seracDies).all (x.serac.contains ·) = true :=
    List.all_eq_true.2 fun d hd => List.contains_iff_mem.2 (hall d (List.mem_range.1 hd)).1
  have hfirn : (List.range Config.hbmStacks).all (x.firn.contains ·) = true :=
    List.all_eq_true.2 fun d hd => List.contains_iff_mem.2 (hall d (List.mem_range.1 hd)).2
  simp only [execShootdownComplete, hx, hst, hserac, hfirn, beq_self_eq_true, Bool.and_self, if_true]

/-- A zeroed frame is READY, and each host release of it is counted and signalled (R464). -/
theorem execZeroingComplete_zeroing (hx : s.scrubOf frame = some x) (hst : x.st = .zeroing) : execZeroingComplete frame s =
    .next (x.vfs.foldl (fun s vf => (s.modVf vf fun v => { v with frelDone := v.frelDone + 1 }).msix vf 2)
      { s.zeroFrame frame with scrubs := (s.zeroFrame frame).scrubs.filter fun y => y.frame != frame }) := by
  simp only [execZeroingComplete, hx, hst, bne_self_eq_false, Bool.false_eq_true, if_false]

/-- Settles O54: an event at a time, by the lemma of its function. -/
theorem translationAndScrubEvents : Obligations.TranslationAndScrubEvents := by
  refine ⟨fun s t unit onFirn m hm => ⟨fun w hw => execTranslationWalk_found hm hw, fun vf page wr hw => execTranslationWalk_host hm hw,
      fun f q a hw hq => execTranslationWalk_fault hm hw hq⟩,
    fun s vf addr wr hv hp => ⟨execAtsResponse_usable hp hv, fun present allowed idx hno hi => execAtsResponse_asksPri hp hv hno hi⟩,
    fun s vf idx r hr hq => ⟨congrArg _ (State.priTake_live hr hq _), congrArg _ (State.priTake_live hr hq _),
      congrArg _ (State.priTake_live hr hq _), fun hd => execPriTimeout_due hr hq hd⟩,
    fun s vf idx hr => congrArg _ (State.priTake_stale hr _),
    fun s vf idx hv => mem_pri_quarantineExpiry hv,
    fun s vf len addr hn => execAtsInvalidation_waits hn,
    fun s vf len addr hv hn => execAtsInvalidation_drops hv hn,
    fun s frame q hq hroom => execFrameRelease_waited hq hroom,
    fun s frame hw hu hf ho => execFrameRelease_firmware hw hu hf ho,
    fun s die frame x hd hx hst => ⟨fun ha => ?_, fun ha hb => ?_⟩,
    fun s frame x hx hst hall => execShootdownComplete_acknowledged hx hst hall,
    fun s frame x hx hst => ⟨fun hl => ?_, fun vf hl => ?_⟩⟩
  · exact ⟨_, _, execDieShootdown_firn hd hx hst ha, State.scrubOf_mapIf hx _ fun _ => rfl, rfl, rfl, fun e he => State.tlb_dropFrameTlbs_firn he⟩
  · exact ⟨_, _, execDieShootdown_serac hd hx hst ha hb, State.scrubOf_mapIf hx _ fun _ => rfl, rfl, rfl⟩
  · exact (execZeroingComplete_zeroing hx hst).trans (by rw [hl]; rfl)
  · exact (execZeroingComplete_zeroing hx hst).trans (by rw [hl]; rfl)

end Sys2Proof.Machine
end

section
/-! PROOF. The register forms of a block (R277 to R279): GETR waits, joins and sends; SETR is buffered or written at once. -/

namespace Sys2Proof.Machine

/-! ## Words and lanes -/

/-- A 64-bit value is its two halves (R255). -/
@[simp] theorem joinHalves_halves (x : DWord) : joinHalves (lowHalf x) (highHalf x) = x := by
  refine BitVec.eq_of_getLsbD_eq fun i hi => BitVec.getLsbD_append.trans ?_
  split
  · simp [lowHalf, *]
  · simp [highHalf, Nat.add_sub_cancel' (Nat.le_of_not_lt ‹_›), show i - 32 < 32 by omega]

theorem Lanes.at_replicate (x : Word) {l : Nat} (hl : l < 32) : Lanes.at (List.replicate 32 x) l = x := by
  rw [Lanes.at, List.getD_eq_getElem _ _ (by simpa using hl), List.getElem_replicate]

theorem Lanes.of_congr {f g : Nat → Word} (h : ∀ l, l < 32 → f l = g l) : Lanes.of f = Lanes.of g :=
  List.map_congr_left fun l hl => h l (List.mem_range.1 hl)

theorem Issue.res32_congr (c : Issue) {f g : Nat → Word} (h : ∀ l, l < 32 → f l = g l) : c.res32 f = c.res32 g :=
  congrArg (fun x => [x]) (Lanes.of_congr fun l hl => by rw [h l hl])

theorem Issue.res64_congr (c : Issue) {f g : Nat → DWord} (h : ∀ l, l < 32 → f l = g l) : c.res64 f = c.res64 g :=
  congrArg₂ (fun x y => [x, y]) (Lanes.of_congr fun l hl => by rw [h l hl]) (Lanes.of_congr fun l hl => by rw [h l hl])

/-- A scalar register read in every lane gives the scalar, bits [31:0] of it in the .32 form (R277). -/
theorem Issue.res_readScalar (c : Issue) (w64 : Bool) (x : DWord) :
    (if w64 then c.res64 fun l => joinHalves (Lanes.at (List.replicate 32 (lowHalf x)) l) (Lanes.at (List.replicate 32 (highHalf x)) l)
      else c.res32 fun l => Lanes.at (List.replicate 32 (lowHalf x)) l) =
    if w64 then c.res64 fun _ => x else c.res32 fun _ => x.setWidth 32 := by
  have hwide := c.res64_congr (f := fun l => joinHalves (Lanes.at (List.replicate 32 (lowHalf x)) l) (Lanes.at (List.replicate 32 (highHalf x)) l))
    (g := fun _ => x) fun l hl => by rw [Lanes.at_replicate _ hl, Lanes.at_replicate _ hl, joinHalves_halves]
  rw [hwide, c.res32_congr fun l hl => Lanes.at_replicate (lowHalf x) hl]
  rfl

/-! ## Threads after an update -/

variable {s : State} {core slot itag x : Nat}

theorem State.warp?_modWarp (f : Warp → Warp) : (s.modWarp core slot f).warp? core slot = (s.warp? core slot).map f := by
  simp only [State.warp?, State.modWarp, State.core_modCore, if_true, Core.modWarp]
  cases hw : (s.core core).warp? slot with
  | none => exact hw
  | some w => simp [Core.warp?, Core.setWarp, tabFind_tabPut]

theorem Core.block?_modWarp (k : Core) (f : Warp → Warp) : (k.modWarp slot f).block? = k.block? := by
  unfold Core.modWarp
  split <;> rfl

theorem State.ctl?_modCtl {f : Ctl → Ctl} (hf : ∀ t, (f t).ctx = t.ctx) : (s.modCtl core x f).ctl? core x = (s.ctl? core x).map f := by
  simp only [State.ctl?, State.modCtl, State.core_modCore, if_true, Core.ctl?]
  exact find?_mapIf_self _ (·.ctx) f hf x

/-! ## A join of a thread that has no token register -/

/-- With no token register nothing is awaited. -/
theorem State.tokenAwaited_of_noTokens {who : Who} (h : s.tokensOf who = []) (r : RegSpec) : s.tokenAwaited who r = false := by
  simp [State.tokenAwaited, h]

/-- With no token register a join makes no acquire (R131). -/
theorem State.joinToken_of_noTokens {who : Who} (h : s.tokensOf who = []) (r : Nat) :
    s.joinToken who r = s.setTokens who fun l => l.filter fun q => q.1 != r := by
  simp only [State.joinToken, h, List.filter_nil, List.map_nil, List.foldl_nil]

theorem State.dev_setTokens (who : Who) (f : List (Nat × Scope × Bool) → List (Nat × Scope × Bool)) : (s.setTokens who f).dev = s.dev := by
  cases who <;> rfl

theorem State.warp?_joinToken (h : s.tokensOf (.warp core slot itag) = []) (r : Nat) :
    (s.joinToken (.warp core slot itag) r).warp? core slot = s.warp? core slot := by
  rw [State.joinToken_of_noTokens h, State.setTokens, State.warp?_modWarp]
  simp only [State.tokensOf] at h
  cases hw : s.warp? core slot with
  | none => rfl
  | some w =>
    have hn : w.tokens = [] := by simpa [hw] using h
    rw [Option.map_some, hn, List.filter_nil, ← hn]

theorem State.blockOf_joinToken (h : s.tokensOf (.warp core slot itag) = []) (r : Nat) :
    (s.joinToken (.warp core slot itag) r).blockOf (.warp core slot itag) = s.blockOf (.warp core slot itag) := by
  have hk : ((s.joinToken (.warp core slot itag) r).core core).block? = (s.core core).block? := by
    rw [State.joinToken_of_noTokens h, State.setTokens, State.modWarp, State.core_modCore, if_pos rfl, Core.block?_modWarp]
  simp only [State.blockOf, State.warp?_joinToken h, hk]

theorem State.ctl?_joinToken (h : s.tokensOf (.ctl core x) = []) (r : Nat) : (s.joinToken (.ctl core x) r).ctl? core x = s.ctl? core x := by
  rw [State.joinToken_of_noTokens h, State.setTokens, State.ctl?_modCtl fun _ => by rfl]
  simp only [State.tokensOf] at h
  cases ht : s.ctl? core x with
  | none => rfl
  | some t =>
    have hn : t.tokens = [] := by simpa [ht] using h
    rw [Option.map_some, hn, List.filter_nil, ← hn]

/-! ## What a GETR sees -/

/-- Where no error stands in the units of a test, none is met. -/
theorem State.senseWhere_clean {p : ErrSite → Bool} (h : ∀ e ∈ s.dev.soft ++ s.dev.hard, ¬ p e = true) (by_ : Option (Nat × Requester)) :
    s.senseWhere by_ p = s := by
  rw [State.senseWhere, List.filter_eq_nil_iff.2 h]
  rfl

/-- A warp's only iteration, which keeps nothing from an older one, reads the warp's own registers (R211, R277). -/
theorem State.getrWarp_only {wp : Warp} {i : Inst} {b : RBlock} (hwp : s.warp? core slot = some wp) (hi : wp.insts = [i]) (ht : i.itag = itag)
    (hc : i.carried = []) (hb : s.blockOf (.warp core slot itag) = some b) (w64 : Bool) (r : RegSpec) :
    s.getrWarp (.warp core slot itag) core slot itag w64 r = some (wp.readReg r) := by
  have hinst : s.instOf (.warp core slot itag) = some i := by simp [State.instOf, hwp, Warp.inst?, hi, ht]
  have holder : wp.olderThan itag = [] := by simp [Warp.olderThan, hi, ht]
  have hfile : wp.keptFile i = wp := by simp [Warp.keptFile, hc]
  simp only [State.getrWarp, hwp, hinst, hb, holder, hfile, List.any_nil, List.isEmpty_nil, Bool.not_true, ite_self, Bool.and_false, List.foldl_nil]
  exact if_neg (by simp)

/-! ## GETR -/

section Getr

variable {c : Issue} (w : Wd) (w64 : Bool) {r : RegSpec} (h : Issues s c)
include h

/-- GETR of a register that awaits a token is tried again (R260). -/
theorem execGetr_waits (ha : s.tokenAwaited c.who r = true) : execGetr w w64 r s = .next s := by
  simp only [execGetr, issuing_of_issues h, ha, if_true]

/-- GETR of a warp sends what its iteration sees, after the join of a token register. -/
theorem execGetr_warp {t : State} (hw : c.who = .warp core slot itag) (ha : s.tokenAwaited c.who r = false)
    (ht : (if r.scalar then s.joinToken c.who r.num.toNat else s) = t) {lo hi : Lanes} (hg : t.getrWarp c.who core slot itag w64 r = some (lo, hi)) :
    execGetr w w64 r s = .next ((t.senseWhere (some (t.ctxOf c.who, c.who.requester)) (· == .regs core slot)).finish c
      (if w64 then c.res64 fun l => joinHalves (lo.at l) (hi.at l) else c.res32 fun l => lo.at l)) := by
  simp only [hw] at ha ht hg ⊢
  simp only [execGetr, issuing_of_issues h, hw, ha, ht, hg, Bool.false_eq_true, if_false]

/-- GETR of a control thread sends the scalar as it stands (R279). -/
theorem execGetr_ctl {t : Ctl} (hw : c.who = .ctl core x) (hr : r.scalar = true) (ht : s.ctl? core x = some t) (hn : s.tokensOf c.who = []) :
    execGetr w w64 r s = .next ((s.joinToken c.who r.num.toNat).finish c
      (if w64 then c.res64 fun _ => t.s.getD r.num.toNat 0 else c.res32 fun _ => (t.s.getD r.num.toNat 0).setWidth 32)) := by
  have ha := State.tokenAwaited_of_noTokens hn r
  simp only [hw] at ha hn ⊢
  simp only [execGetr, issuing_of_issues h, hw, ha, hr, State.ctl?_joinToken hn, ht, Bool.false_eq_true, if_false, if_true, Option.map_some, Option.getD_some]
  rfl

/-- GETR of a warp's only iteration sends the warp's own registers: a vector register, or a scalar in every lane. -/
theorem execGetr_only {wp : Warp} {i : Inst} {b : RBlock} (hw : c.who = .warp core slot itag) (hn : s.tokensOf c.who = [])
    (hwp : s.warp? core slot = some wp) (hi : wp.insts = [i]) (ht : i.itag = itag) (hc : i.carried = []) (hb : s.blockOf c.who = some b)
    (hclean : ∀ e ∈ s.dev.soft ++ s.dev.hard, e ≠ .regs core slot) :
    (r.scalar = false → execGetr w w64 r s = .next (s.finish c
      (if w64 then c.res64 fun l => joinHalves ((wp.v.getD r.num.toNat []).at l) ((wp.v.getD (r.num.toNat + 1) []).at l)
        else c.res32 fun l => (wp.v.getD r.num.toNat []).at l))) ∧
    (r.scalar = true → execGetr w w64 r s = .next ((s.joinToken c.who r.num.toNat).finish c
      (if w64 then c.res64 fun _ => wp.s.getD r.num.toNat 0 else c.res32 fun _ => (wp.s.getD r.num.toNat 0).setWidth 32))) := by
  have ha := State.tokenAwaited_of_noTokens hn r
  have hsite : ∀ e ∈ s.dev.soft ++ s.dev.hard, ¬ (e == ErrSite.regs core slot) = true := fun e he => by simpa using hclean e he
  refine ⟨fun hr => ?_, fun hr => ?_⟩
  · have hg := State.getrWarp_only hwp hi ht hc (hw ▸ hb) w64 r
    rw [Warp.readReg, if_neg (by simp [hr])] at hg
    rw [execGetr_warp w w64 h hw ha (if_neg (by simp [hr])) (hw ▸ hg), State.senseWhere_clean hsite]
  · have hn' : s.tokensOf (.warp core slot itag) = [] := hw ▸ hn
    have hg := State.getrWarp_only ((State.warp?_joinToken hn' r.num.toNat).trans hwp) hi ht hc ((State.blockOf_joinToken hn' _).trans (hw ▸ hb)) w64 r
    rw [Warp.readReg, if_pos hr] at hg
    have hdev : (s.joinToken c.who r.num.toNat).dev = s.dev := by rw [State.joinToken_of_noTokens hn, State.dev_setTokens]
    rw [execGetr_warp w w64 h hw ha (if_pos hr) (hw ▸ hg), State.senseWhere_clean (by rw [hdev]; exact hsite), Issue.res_readScalar]

end Getr

/-! ## SETR -/

section Setr

variable {c : Issue} (w : Wd) (w64 : Bool) (r : RegSpec) (h : Issues s c)

/-- The end of a firing leaves the scalars of its control thread. -/
theorem State.scalars_finish {t : Ctl} (hw : c.who = .ctl core x) (ht : s.ctl? core x = some t) (parts : List Lanes) :
    ∃ v, (s.finish c parts).ctl? core x = some v ∧ v.s = t.s := by
  have hsent : ∃ v, ((s.fired c).sendTokens c.who c.form c.mask parts).ctl? core x = some v ∧ v.s = t.s := by
    simp only [State.fired, State.sendTokens, hw]
    split
    · exact ⟨t, ht, rfl⟩
    · rw [State.ctl?_modCtl fun _ => by rfl, ht]
      exact ⟨_, rfl, rfl⟩
  obtain ⟨v, hv, hs⟩ := hsent
  simp only [State.finish, State.advance]
  rw [hw] at hv ⊢
  rw [State.ctl?_modCtl fun _ => by rfl, hv]
  exact ⟨_, rfl, hs⟩

/-- A SETR of a control thread changes the register that it names and no other (R278, R279). -/
theorem Ctl.writeReg_scalars {t : Ctl} (hr : r.num.toNat < t.s.length) (lo hi : Word) :
    (t.writeReg r w64 lo hi).s.length = t.s.length ∧ (∀ n, n ≠ r.num.toNat → (t.writeReg r w64 lo hi).s.getD n 0 = t.s.getD n 0) ∧
    (t.writeReg r w64 lo hi).s.getD r.num.toNat 0 = scalarWrite (t.s.getD r.num.toNat 0) w64 lo hi :=
  ⟨listMod_length _ _ _, fun _ hn => listMod_getD_other _ _ _ _ _ hn, listMod_getD_self _ _ _ _ hr⟩

include h

theorem execSetr_warp (hw : c.inWarp) :
    execSetr w w64 r s = .next ((s.addEff c (.setr c.idx r w64 c.mask (c.port .a).val (c.port .ax).val)).finish c []) := by
  rw [execSetr, issuing_of_issues h]
  cases hwho : c.who with
  | ctl core x => simp [Issue.inWarp, hwho, Who.isCtl] at hw
  | warp core slot itag => rfl

theorem execSetr_ctl (hw : c.who = .ctl core x) : execSetr w w64 r s =
    .next ((s.modCtl core x fun t => t.writeReg r w64 (c.w32 .a c.low) (c.w32 .ax c.low)).finish c []) := by
  simp only [execSetr, issuing_of_issues h, hw]
  rfl

end Setr

/-- Settles O23: a form and a kind of thread at a time, by the lemma of its case. -/
theorem registersAreReadAndWritten : Obligations.RegistersAreReadAndWritten := by
  refine ⟨fun w w64 r s c h => ⟨fun ha => execGetr_waits w w64 h ha, fun core slot itag lo hi hw ha hg => execGetr_warp w w64 h hw ha rfl hg,
      fun core slot itag wp i b hw hn hwp hi ht hc hb hclean => execGetr_only w w64 h hw hn hwp hi ht hc hb hclean,
      fun core x t hw hr ht hn => execGetr_ctl w w64 h hw hr ht hn⟩,
    fun w w64 r s c h => ⟨fun hw => execSetr_warp w w64 r h hw, fun core x t hw ht hr => ?_⟩⟩
  obtain ⟨hlen, hother, hself⟩ := Ctl.writeReg_scalars w64 r hr (c.w32 .a c.low) (c.w32 .ax c.low)
  have hwrite := (State.ctl?_modCtl (s := s) (core := core) (x := x) (f := fun t => t.writeReg r w64 (c.w32 .a c.low) (c.w32 .ax c.low))
    fun _ => rfl).trans (congrArg _ ht)
  obtain ⟨v, hv, hs⟩ := State.scalars_finish hw hwrite []
  rw [← hs] at hlen hother hself
  exact ⟨_, execSetr_ctl w w64 r h hw, v, hv, hlen, hother, hself⟩

end Sys2Proof.Machine
end

section
/-! PROOF. The commands to a function's root, FLR and hot reset (chapters 20 and 21): each carries out what its conditions allow. -/

namespace Sys2Proof.Machine

variable {s : State} {vf : Nat}

/-! ## START -/

section Start

variable (h : s.pageOpen vf = true) {r : Ctx} (hr : s.vfRoot vf = some r)
include h hr

/-- START gives a stopped root its registers and starts it (R100, R462). -/
theorem execRootStart_starts (hst : r.st = .stopped) : execRootStart vf 1 s =
    .next ((((s.modCtx r.idx fun c => { c with troot := (s.vf vf).rtroot, entry := (s.vf vf).rentry }).tlbDropCtxs [r.idx]).modVf vf fun v =>
      { v with hand := [] }).startCtx r.idx) := by
  have hgo : ((1 : DWord) != 1 || r.st != .stopped) = false := by rw [hst]; rfl
  simp only [execRootStart, State.pageWrite_open h, hr, hgo, Bool.false_eq_true, if_false]

/-- A root that is not stopped, or another value, is not started (R462). -/
theorem execRootStart_ignored {value : DWord} (hno : r.st ≠ .stopped ∨ value ≠ 1) :
    execRootStart vf value s = .next (s.modVf vf fun v => { v with ignored := true }) := by
  have hgo : (value != 1 || r.st != .stopped) = true := by simpa [or_comm] using hno
  simp only [execRootStart, State.pageWrite_open h, hr, hgo, if_true, State.ignore]

end Start

/-! ## CREATE -/

/-- With a root there CREATE says 1 (R465). -/
theorem execCreate_rooted (h : s.pageOpen vf = true) {r : Nat} (hr : (s.vf vf).root = some r) : execCreate vf s = .next (s.cstat vf 1 0) :=
  (State.pageWrite_open h).trans (congrArg _ (if_pos (congrArg Option.isSome hr)))

/-- What CREATE leaves of a state with the bootstrap table: the root is there, its index is used, and the page names it (R465). -/
def State.withRoot (t : State) (vf idx troot : Nat) (x : Ctx) : State :=
  ((({ t with gens := tabPut idx ((tabGet 0 idx t.gens + 1) % 0xFFFF) t.gens, ctxs := t.ctxs ++ [x] } : State).modVf vf fun v =>
    { v with root := some idx, rtroot := BitVec.ofNat 64 troot }).traceHeader x).cstat vf 0 0

section Create

variable (h : s.pageOpen vf = true) (hr : (s.vf vf).root = none)
include h hr

/-- A block that is misaligned or breaks Table 21.7 is refused with 2. -/
theorem execCreate_badBlock (hbad : (s.vf vf).rarg.toNat % 64 ≠ 0 ∨ createBad (s.rootBlock vf) = true) : execCreate vf s = .next (s.cstat vf 2 0) := by
  have hb : ((s.vf vf).rarg.toNat % 64 != 0 || createBad (s.rootBlock vf)) = true := by simpa using hbad
  exact (State.pageWrite_open h).trans (congrArg _ ((if_neg (by simp [hr])).trans (if_pos hb)))

/-- CREATE of mode ONE, which R28 never refuses, makes the root of the profile over its bootstrap table (R451, R465). -/
theorem execCreate_makes {t : State} {part troot idx : Nat} {p : Profile} {dies regions : List Nat} (ha : (s.vf vf).rarg.toNat % 64 = 0)
    (hok : createBad (s.rootBlock vf) = false) (hp : (s.vf vf).profile = some (part, p)) (hmode : blkF (s.rootBlock vf) 0 1 0 = 0)
    (hdies : (((sortNats p.cores).filter s.enabled).map dieOf).eraseDups = dies) (hregions : s.frameRegions vf 0 dies p = regions)
    (hboot : s.bootstrap regions = some (t, troot)) (hidx : s.freeIndex = some idx) :
    execCreate vf s = .next (t.withRoot vf idx troot (rootCtx vf idx (tabGet 0 idx t.gens) p (s.rootBlock vf) ((sortNats p.cores).filter s.enabled)
      (t.rootRegions vf 0 dies p) (t.totalFrames regions) troot)) := by
  have hb : ((s.vf vf).rarg.toNat % 64 != 0 || createBad (s.rootBlock vf)) = false := by simp [ha, hok]
  have hm : modeRefused 0 p.nq dies = false := rfl
  refine (State.pageWrite_open h).trans (congrArg _ ((if_neg (by simp [hr])).trans ((if_neg (by simp [hb])).trans ?_)))
  simp only [hp, hmode, hm, hdies, hregions, hboot, hidx, Bool.false_eq_true, if_false]
  rfl

end Create

section WithRoot

variable (t : State) {idx troot : Nat} {x : Ctx} (hx : x.trace = none)
include hx

/-- With no trace ring no ring's header is written (R454). -/
theorem State.withRoot_untraced : t.withRoot vf idx troot x =
    (({ t with gens := tabPut idx ((tabGet 0 idx t.gens + 1) % 0xFFFF) t.gens, ctxs := t.ctxs ++ [x] } : State).modVf vf fun v =>
      { v with root := some idx, rtroot := BitVec.ofNat 64 troot }).cstat vf 0 0 := by
  simp only [State.withRoot, State.traceHeader, hx]

theorem State.ctxs_withRoot : (t.withRoot vf idx troot x).ctxs = t.ctxs ++ [x] := by
  rw [State.withRoot_untraced t hx]
  rfl

theorem State.vf_withRoot (hv : vf < t.vfs.length) :
    (t.withRoot vf idx troot x).vf vf = { t.vf vf with root := some idx, rtroot := BitVec.ofNat 64 troot, cstat := 0 } := by
  rw [State.withRoot_untraced t hx]
  exact State.vf_modVf_modVf hv _ _

end WithRoot

theorem rootCtx_untraced {idx gen frames troot : Nat} {p : Profile} {ws : List DWord} {cores regions : List Nat} (htrace : blkW ws 3 = 0) :
    (rootCtx vf idx gen p ws cores regions frames troot).trace = none := if_pos htrace

/-! ## SAVE -/

section Save

variable (h : s.pageOpen vf = true) {root : Ctx} (hr : s.vfRoot vf = some root)
include h hr

/-- What SAVE first does to a tree: the page says 0xFF, the tree's communicators die, and it is drained from every core (R455, R466). -/
theorem execSave_begins {part : Nat} {p : Profile} (hp : (s.vf vf).profile = some (part, p)) (hs : (s.vf vf).saving = false)
    (hroom : s.savedFrames vf + s.chargeCount root.idx ≤ p.saveAllow) {t : State}
    (ht : (s.treeOf vf).foldl (fun s x => s.killCommsOf x) ((s.modVf vf fun v => { v with saving := true }).cstat vf 0xFF 0) = t) :
    execSave vf s = .next ((t.cores.map (·.1)).foldl (fun u c => (s.treeOf vf).foldl (fun u x => u.beginDrain c x false) u) t) := by
  refine (if_neg (by rw [hs]; exact Bool.false_ne_true)).trans ((State.pageWrite_open h).trans (congrArg _ ?_))
  simp only [hr, hp, if_neg (Nat.not_lt.2 hroom), ht]

/-- Once the tree is quiet its image is made (R466). -/
theorem execSave_ends (hs : (s.vf vf).saving = true) (hq : s.treeQuiet (s.treeOf vf) = true) :
    execSave vf s = .next (s.finishSave vf root (s.treeOf vf)) := by
  have hup : s.pageUp vf = true := by
    rw [State.pageOpen, Bool.and_eq_true] at h
    exact h.1
  simp only [execSave, hs, hr, hup, hq, Bool.and_self, if_true]

end Save

/-! ## RESTORE -/

/-- The handle in a block of RESTORE, and that the block keeps to Table 21.7. -/
theorem restoreBlock_ok {handle : Nat} (hh : handle < 2 ^ 32) {ws : List DWord} (hws : ws = [0, 0, 0, 0, BitVec.ofNat 64 handle, 0, 0, 0]) :
    blkF ws 4 31 0 = handle ∧ (!blkZero ws 5 || blkF ws 4 63 32 != 0 || blkF ws 0 63 8 != 0 || blkF ws 0 5 2 != 0) = false := by
  subst hws
  constructor
  · simp [blkF, bitsOf]
    omega
  · simp [blkZero, blkW, blkF, bitsOf, List.range_succ]
    omega

section Restore

variable (h : s.pageOpen vf = true) (hr : (s.vf vf).root = none) {part : Nat} {p : Profile} (hp : (s.vf vf).profile = some (part, p))
  (ha : (s.vf vf).rarg.toNat % 64 = 0) {m : RootImage} (hb : s.rootBlock vf = [0, 0, 0, 0, BitVec.ofNat 64 m.handle, 0, 0, 0])
  (hh : m.handle < 2 ^ 32) (hm : s.dev.images.find? (fun i => i.handle == m.handle) = some m) {root : Ctx}
  (hroot : m.ctxs.find? (fun c => c.idx == m.root) = some root) {dies : List Nat}
  (hdies : ((root.cores.filterMap (coreMap root.byDie (s.offer p))).map dieOf).eraseDups = dies)
include h hr hp ha hb hh hm hroot hdies

/-- RESTORE of an image in the save pool turns on the offer of cores and on the plan for its frames (R455 to R457). -/
theorem execRestore_judges : execRestore vf s = .next (if !root.elastic && !coresFit root.byDie (s.offer p) then s.restoreShort vf
    else (s.planFrames (s.frameRegions vf root.mode dies p) m).elim (s.restoreShort vf) fun plan => s.doRestore vf m p plan root) := by
  obtain ⟨hhandle, hok⟩ := restoreBlock_ok hh hb
  have hgo : ((s.vf vf).rarg.toNat % 64 != 0 || !blkZero (s.rootBlock vf) 5 || blkF (s.rootBlock vf) 4 63 32 != 0 ||
      blkF (s.rootBlock vf) 0 63 8 != 0 || blkF (s.rootBlock vf) 0 5 2 != 0) = false := by
    simp only [Bool.or_assoc] at hok ⊢
    rw [hok, ha]
    rfl
  refine (State.pageWrite_open h).trans (congrArg _ ((if_neg (by simp [hr])).trans ((if_neg (by simp [hgo])).trans ?_)))
  simp only [hp, hhandle, hm, hroot, hdies]
  cases s.planFrames (s.frameRegions vf root.mode dies p) m <;> rfl

theorem execRestore_fits {plan : FramePlan} (hfit : root.elastic = true ∨ coresFit root.byDie (s.offer p) = true)
    (hplan : s.planFrames (s.frameRegions vf root.mode dies p) m = some plan) : execRestore vf s = .next (s.doRestore vf m p plan root) := by
  have hgo : (!root.elastic && !coresFit root.byDie (s.offer p)) = false := by
    obtain he | hc := hfit
    · rw [he]; rfl
    · rw [hc]; exact Bool.and_false _
  rw [execRestore_judges h hr hp ha hb hh hm hroot hdies, hgo, hplan]
  rfl

theorem execRestore_short (hno : s.planFrames (s.frameRegions vf root.mode dies p) m = none ∨
      root.elastic = false ∧ coresFit root.byDie (s.offer p) = false) : execRestore vf s = .next (s.restoreShort vf) := by
  rw [execRestore_judges h hr hp ha hb hh hm hroot hdies]
  obtain hplan | ⟨he, hc⟩ := hno
  · rw [hplan]
    exact congrArg _ (ite_self _)
  · rw [he, hc]
    rfl

end Restore

/-! ## FLR and hot reset -/

/-- What an FLR does to the page at once: it answers nothing, and its posted requests are gone (R460). -/
def State.stopPage (s : State) (vf : Nat) : State := s.modVf vf fun v => { v with flr := true, ready := false, posted := [] }

section Flr

variable (h : s.pageUp vf = true)
include h

theorem execFlr_noRoot (hr : s.vfRoot vf = none) : execFlr vf s = .next (s.stopPage vf) := by
  simp only [execFlr, h, hr, Bool.not_true, Bool.false_eq_true, if_false, State.stopPage]

/-- An FLR starts the kill of a root that is not dying already. -/
theorem execFlr_kills {r : Ctx} (hr : s.vfRoot vf = some r) (hk : r.st ≠ .killing) : execFlr vf s = .next ((s.startKill r.idx none 0).stopPage vf) := by
  have hlive : (r.st == CtxSt.killing) = false := beq_eq_false_iff_ne.2 hk
  simp only [execFlr, h, hr, hlive, Bool.not_true, Bool.false_eq_true, if_false, State.stopPage]

end Flr

/-- Once the root is gone and no handover command waits, the FLR ends with the page at its reset values. -/
theorem execFlrComplete_ends (hf : (s.vf vf).flr = true) (hr : (s.vf vf).root = none) (hc : (s.vf vf).handCmds = []) :
    execFlrComplete vf s = .next ((s.discardHost vf).modVf vf fun v => { v.flrReset s.time with ready := s.dev.up }) := by
  simp only [execFlrComplete, hf, hr, hc, Option.isNone_none, Bool.and_self, if_true, List.foldl_nil]

/-- Every page-request index in use is quarantined (R83). -/
theorem Vf.quarantine_flrReset (v : Vf) (now : Nat) : ∀ r ∈ (v.flrReset now).pri, r.quarantine = true := by
  intro r hr
  obtain ⟨q, -, rfl⟩ := List.mem_map.1 hr
  split
  · assumption
  · rfl

/-! ## The obligation -/

/-- Settles O59: a command at a time, by the lemma of its function. -/
theorem rootCommandEvents : Obligations.RootCommandEvents := by
  refine ⟨fun s vf value r h hr => ⟨fun hst => execRootStart_starts h hr hst, fun hno => execRootStart_ignored h hr hno⟩,
    fun s vf r h hr => execCreate_rooted h hr, fun s vf h hr hbad => execCreate_badBlock h hr hbad,
    fun s t vf part troot idx p h hr ha hok hp hmode htrace hboot hidx hv => ?_,
    fun s vf part p root h hr hp => ⟨fun hs hroom => execSave_begins h hr hp hs hroom rfl, fun hs hq => execSave_ends h hr hs hq⟩,
    fun s vf part p m root plan h hr hp ha hb hh hm hroot => ⟨fun hfit hplan => execRestore_fits h hr hp ha hb hh hm hroot rfl hfit hplan,
      fun hno => execRestore_short h hr hp ha hb hh hm hroot rfl hno⟩,
    fun s vf h => ⟨fun hr => execFlr_noRoot h hr, fun r hr hk => execFlr_kills h hr hk⟩,
    fun s vf hf hr hc => execFlrComplete_ends hf hr hc,
    fun v now => ⟨rfl, rfl, rfl, rfl, rfl, Vf.quarantine_flrReset v now⟩,
    fun s => ⟨_, rfl, rfl, rfl, rfl, rfl, rfl, rfl⟩⟩
  refine ⟨_, _, execCreate_makes h hr ha hok hp hmode rfl rfl hboot hidx, State.ctxs_withRoot t (rootCtx_untraced htrace), rfl, rfl, rfl, rfl, rfl, rfl,
    rfl, rfl, rfl, rfl, ?_⟩
  rw [State.vf_withRoot t (rootCtx_untraced htrace) hv]
  exact ⟨rfl, rfl, rfl⟩

end Sys2Proof.Machine
end

section
/-! PROOF. Loads and stores (R114, R330, R333, R334, R336, R342): what a form does once the order of its block lets it fire and its
checks pass. -/

namespace Sys2Proof.Machine

variable {s t : State} {c : Issue} {accs : List Access} {space : Space} {sz : Sz} {o : MemOp}

/-! ## Loads -/

/-- A load whose checks pass leaves a pending access with an entry for each of its lanes, and is tried at once (R333). -/
theorem loadMeaning_pends (h : Issues s c) (hheld : s.held c false false = false) (hmid : s.midCommit c.who.core = false)
    (hck : s.checkAccess c space .read .load sz.bytes (memAddr o (space == .gl) c) (fun _ => true) false = .ok t accs) :
    let p : Pend := { idx := c.idx, kind := .load sz.bytes, cls := o.cls, acq := acquireScope o, mask := c.mask, lanes := t.loadLanes c accs }
    loadMeaning space sz o s = .next ((t.startPend c p).tryPend c.who p) := by
  simp only [loadMeaning, issuing_of_issues h, hheld, hmid, hck, Bool.or_self, Bool.false_eq_true, if_false]

/-- An LDRES whose checks pass leaves a pending access that acquires nothing (R342). -/
theorem execLdres_pends {w64 : Bool} (h : Issues s c) (hheld : s.held c true false = false) (hmid : s.midCommit c.who.core = false)
    (hck : s.checkAccess c space .atomic .atomic (if w64 then 8 else 4) (memAddr o (space == .gl) c) Place.notHost true = .ok t accs) :
    let p : Pend := { idx := c.idx, kind := .ldres (if w64 then 8 else 4), cls := o.cls, acq := none, mask := c.mask, lanes := t.loadLanes c accs }
    execLdres space w64 o s = .next ((t.startPend c p).tryPend c.who p) := by
  simp only [execLdres, issuing_of_issues h, hheld, hmid, hck, Bool.or_self, Bool.false_eq_true, if_false]

/-- Settles O27: LD, LDS and LDW are one load over three spaces. -/
theorem loadsLeaveAPendingAccess : Obligations.LoadsLeaveAPendingAccess :=
  ⟨fun _ _ _ _ _ _ h hheld hmid =>
      ⟨loadMeaning_pends (space := .gl) h hheld hmid, loadMeaning_pends (space := .sp) h hheld hmid, loadMeaning_pends (space := .wn) h hheld hmid⟩,
    fun _ _ _ _ _ _ _ h hheld hmid hck => execLdres_pends h hheld hmid hck⟩

/-! ## Stores -/

/-- The order codes that release. -/
theorem releases_iff (x : Order) : releases x = true ↔ x = .rel ∨ x = .acqrel := by
  cases x <;> decide

/-- The other order codes do not release. -/
theorem releases_eq_false_iff (x : Order) : releases x = false ↔ x = .none ∨ x = .acq := by
  cases x <;> decide

/-- A releasing store writes its own bytes through at its scope, any other at none. -/
theorem throughScope_eq (o : MemOp) : throughScope o = if o.order = .rel ∨ o.order = .acqrel then some o.scope else none := by
  simp only [throughScope, releases_iff]

/-- A single lane that is done leaves nothing to do. -/
theorem applyLanes_singleton {f : State → Access → BitVec 128 → RelSt} {a : Access} {x : BitVec 128} (hf : f s a x = .done t) :
    applyLanes f s [(a, x)] = (t, []) := by
  simp only [applyLanes, hf]

section Store

variable (h : Issues s c) (hheld : s.held c false false = false)
  (hck : s.checkAccess c space .write .store sz.bytes (memAddr o (space == .gl) c) (fun _ => true) false = .ok t accs)

include h hheld hck

/-- A warp's store is buffered, behind its release where its order code asks for one (R334, R336). -/
theorem storeMeaning_warp (hw : c.inWarp) :
    storeMeaning space sz o s = .next (((if releases o.order then t.addEff c (.release c.idx o.scope 0b111) else t).addEff c
      (.store c.idx o.cls (withData accs (storeData sz c)) (throughScope o))).finish c []) := by
  simp only [storeMeaning, issuing_of_issues h, hheld, hck, Bool.false_eq_true, if_false]
  cases hc : c.who with
  | warp core slot itag => rfl
  | ctl core x => simp [Issue.inWarp, hc, Who.isCtl] at hw

/-- A control thread's store is performed as it executes, after its release, once its mailbox has room (R50, R196). -/
theorem storeMeaning_ctl {u v : State} (hc : c.who.isCtl = true) (hroom : t.mailRoom (accs.map (·.place)) = true)
    (hrel : t.releaseNow c.who o.order o.scope 0b111 = .done u)
    (happ : applyLanes (fun s a x => s.applyStore c.who c.idx o.cls (throughScope o) a x) u (withData accs (storeData sz c)) = (v, [])) :
    storeMeaning space sz o s = .next (v.finish c []) := by
  simp only [storeMeaning, issuing_of_issues h, hheld, hck, hroom, hrel, happ, Bool.false_eq_true, Bool.not_true, if_false]
  cases hw : c.who with
  | warp core slot itag => simp [hw, Who.isCtl] at hc
  | ctl core x => rfl

/-- The three cases of a store: a warp's with and without a release, and a control thread's. -/
theorem storeMeaning_cases :
    let e : Eff := .store c.idx o.cls (accs.map fun a => (a, storeData sz c a.lane)) (if o.order = .rel ∨ o.order = .acqrel then some o.scope else none)
    (c.inWarp → o.order = .rel ∨ o.order = .acqrel →
      storeMeaning space sz o s = .next (((t.addEff c (.release c.idx o.scope 0b111)).addEff c e).finish c [])) ∧
    (c.inWarp → o.order = .none ∨ o.order = .acq → storeMeaning space sz o s = .next ((t.addEff c e).finish c [])) ∧
    (∀ a u v, c.who.isCtl = true → accs = [a] → t.mailRoom [a.place] = true → t.releaseNow c.who o.order o.scope 0b111 = .done u →
      u.applyStore c.who c.idx o.cls (throughScope o) a (storeData sz c a.lane) = .done v → storeMeaning space sz o s = .next (v.finish c [])) := by
  refine ⟨fun hw ho => ?_, fun hw ho => ?_, fun a u v hc ha hroom hrel happ => ?_⟩
  · rw [storeMeaning_warp h hheld hck hw, if_pos ((releases_iff _).2 ho), throughScope_eq]
    rfl
  · rw [storeMeaning_warp h hheld hck hw, if_neg (ne_true_of_eq_false ((releases_eq_false_iff _).2 ho)), throughScope_eq]
    rfl
  · subst ha
    exact storeMeaning_ctl h hheld hck hc hroom hrel (applyLanes_singleton happ)

end Store

/-- Settles O28: ST, STS and STW are one store over three spaces. -/
theorem storesAreBufferedUntilCommit : Obligations.StoresAreBufferedUntilCommit :=
  fun _ _ _ _ _ _ h hheld =>
    ⟨storeMeaning_cases (space := .gl) h hheld, storeMeaning_cases (space := .sp) h hheld, storeMeaning_cases (space := .wn) h hheld⟩

end Sys2Proof.Machine
end

section
/-! PROOF. Value-returning atomics and STCOND (R138 to R140, R148, R149, R338, R339, R342): what a form does once it may leave, and
the requests it leaves as. -/

namespace Sys2Proof.Machine

variable {s t u : State} {c : Issue} {accs : List Access} {o : MemOp} {op : Option AtomOp} {n : Nat}

/-! ## Leaving -/

/-- With no lane in the log, the lanes still to be served are those that issue. -/
theorem unlogged_nil (c : Issue) : { c with mask := c.mask &&& ~~~ maskOf (([] : List (Nat × BitVec 128)).map (·.1)) } = c := by
  have hall : c.mask &&& ~~~ maskOf [] = c.mask := BitVec.and_allOnes
  simp only [List.map_nil, hall]

/-- An atomic that may fire, with nothing to replay, its checks passed and its release made, leaves for its places; one of 128 bits
reads its operand record, which must have passed its own checks (R339). -/
theorem atomicMeaning_leaves {space : Space} {support : Place → Bool} (h : Issues s c) (hheld : s.held c true true = false)
    (hmid : s.midCommit c.who.core = false) (hlog : s.logged c = []) (hrel : t.releaseNow c.who o.order o.scope 0b111 = .done u)
    (hrec : n = 16 → s.casRecord c = none ∧ t.recordOverlapped c = 0)
    (hck : s.checkAccess c space (if op.isNone then .write else .atomic) .atomic n (memAddr o (space == .gl) c) support true = .ok t accs) :
    atomicMeaning space op n support o s = .next (u.startAtomic c o op n [] accs) := by
  simp only [atomicMeaning, issuing_of_issues h, hheld, hmid, hlog, unlogged_nil, Bool.or_self, Bool.false_eq_true, if_false]
  by_cases hn : n = 16
  · obtain ⟨hcas, hover⟩ := hrec hn
    subst hn
    simp only [hcas, hck, hover, hrel, ite_self, beq_self_eq_true, bne_self_eq_false, Bool.false_eq_true, if_false]
  · simp only [beq_false_of_ne hn, Bool.false_and, hck, hrel, bne_self_eq_false, Bool.false_eq_true, if_false]

/-- Only the widest atomics are 16 bytes wide. -/
theorem AWidth.bytes_eq_sixteen_iff (aw : AWidth) : aw.bytes = 16 ↔ aw = .w128 := by
  cases aw <;> decide

/-! ## Requests -/

/-- A request asks for the operation of one lane's access, with these operands. -/
def AsksAtomic (c : Issue) (op : Option AtomOp) (n : Nat) (v cmp : Nat → BitVec 128) (a : Access) (r : Req) : Prop :=
  r.core = c.who.core ∧ r.kind = .atomic c.who c.idx a.lane a.place op n (v a.lane) (cmp a.lane) true

/-- The number of an .ord access is taken without a request. -/
theorem State.takeOrd_reqs (s : State) (core : Nat) (cls : MClass) : (s.takeOrd core cls).1.reqs = s.reqs := by
  unfold State.takeOrd
  split <;> rfl

/-- An atomic on a scratchpad place sends its own request and writes back no sector before it. -/
theorem State.sendAtomic_reqs (s : State) {cls : MClass} {v cmp : Nat → BitVec 128} {a : Access} (ha : ∃ core off, a.place = .sp core off) :
    ∃ r, (s.sendAtomic c cls op n (v a.lane) (cmp a.lane) a).reqs = s.reqs ++ [r] ∧ AsksAtomic c op n v cmp a r := by
  obtain ⟨core, off, hp⟩ := ha
  simp only [State.sendAtomic, State.send, hp, State.takeOrd_reqs]
  exact ⟨_, rfl, rfl, by rw [hp]⟩

/-- The atomics of several lanes send a request each, in the order of the lanes. -/
theorem State.sendAtomics_reqs (s : State) {cls : MClass} {v cmp : Nat → BitVec 128} (hsp : ∀ a ∈ accs, ∃ core off, a.place = .sp core off) :
    ∃ rs, (accs.foldl (fun s a => s.sendAtomic c cls op n (v a.lane) (cmp a.lane) a) s).reqs = s.reqs ++ rs ∧
      List.Forall₂ (AsksAtomic c op n v cmp) accs rs := by
  induction accs generalizing s with
  | nil => exact ⟨[], (List.append_nil _).symm, .nil⟩
  | cons a accs ih =>
    obtain ⟨ha, hrest⟩ := List.forall_mem_cons.1 hsp
    obtain ⟨r, hr, hask⟩ := s.sendAtomic_reqs (c := c) (cls := cls) (op := op) (n := n) (v := v) (cmp := cmp) ha
    obtain ⟨rs, hrs, hasks⟩ := ih (s.sendAtomic c cls op n (v a.lane) (cmp a.lane) a) hrest
    exact ⟨r :: rs, by rw [List.foldl_cons, hrs, hr, List.append_assoc, List.singleton_append], .cons hask hasks⟩

/-- Clearing another block's log sends nothing. -/
theorem State.ownLog_reqs (s : State) (c : Issue) : (s.ownLog c).reqs = s.reqs := by
  unfold State.ownLog
  split
  · rfl
  · split <;> rfl

/-- An access that leaves its instruction is noted in its thread alone. -/
theorem State.startPend_reqs (s : State) (c : Issue) (p : Pend) : (s.startPend c p).reqs = s.reqs := by
  have hfired : (s.fired c).reqs = s.reqs := by
    unfold State.fired
    split
    · rfl
    · split <;> rfl
  unfold State.startPend State.addPend
  split <;> exact hfired

/-- An atomic of 32 or 64 bits whose places are in scratchpads adds one request for each of its lanes, with the lane's operands. -/
theorem State.startAtomic_reqs (s : State) (hn : n ≠ 16) (hsp : ∀ a ∈ accs, ∃ core off, a.place = .sp core off) :
    ∃ rs, (s.startAtomic c o op n [] accs).reqs = s.reqs ++ rs ∧
      List.Forall₂ (AsksAtomic c op n (wideOperand (n == 8) c .b .bx) (wideOperand (n == 8) c .c .cx)) accs rs := by
  simp only [State.startAtomic, beq_false_of_ne hn, Bool.false_eq_true, if_false]
  refine Exists.imp (fun rs ⟨hrs, hasks⟩ => ⟨hrs.trans ?_, hasks⟩) (State.sendAtomics_reqs _ hsp)
  rw [State.startPend_reqs, State.ownLog_reqs]

/-- Where each access has its request, every access has one. -/
theorem exists_asksAtomic_of_mem {v cmp : Nat → BitVec 128} {rs : List Req} {a : Access} (h : List.Forall₂ (AsksAtomic c op n v cmp) accs rs)
    (ha : a ∈ accs) : ∃ r ∈ rs, AsksAtomic c op n v cmp a r := by
  induction h with
  | nil => exact absurd ha List.not_mem_nil
  | cons hask _ ih =>
    rcases List.mem_cons.1 ha with rfl | ha
    · exact ⟨_, List.mem_cons_self, hask⟩
    · obtain ⟨r, hr, hask⟩ := ih ha
      exact ⟨r, List.mem_cons_of_mem _ hr, hask⟩

/-- Settles O30: the three forms are one atomic over their spaces, and its requests are those of its lanes. -/
theorem atomicsLeaveForTheirPlaces : Obligations.AtomicsLeaveForTheirPlaces := by
  refine ⟨fun op aw wn w64 space o s t u c accs h hheld hmid hlog hrel hrec => ?_, fun s c o op n accs hn hsp a ha => ?_⟩
  · have hrec' (h16 : aw.bytes = 16) := hrec ((AWidth.bytes_eq_sixteen_iff aw).1 h16)
    refine ⟨atomicMeaning_leaves (space := .gl) (op := some op) h hheld hmid hlog hrel hrec', fun hck => ?_, ?_⟩
    · cases wn <;> exact atomicMeaning_leaves (op := some op) h hheld hmid hlog hrel hrec' hck
    · have hw : (if w64 then 8 else 4) ≠ 16 := by cases w64 <;> decide
      exact atomicMeaning_leaves (op := none) h hheld hmid hlog hrel fun h16 => absurd h16 hw
  · obtain ⟨rs, hreqs, hasks⟩ := s.startAtomic_reqs (c := c) (o := o) (op := op) (by omega : n ≠ 16) hsp
    obtain ⟨r, hr, hask⟩ := exists_asksAtomic_of_mem hasks ha
    exact ⟨r, hreqs ▸ List.mem_append_right s.reqs hr, hask⟩

end Sys2Proof.Machine
end

section
/-! PROOF. Integer arithmetic and logic (R161, R295, R300): the functions of Table 13.5 on natural numbers are the operations of
words of every width. -/

namespace Sys2Proof.Machine

variable {s : State} {c : Issue} {o : IntOp}

/-! ## Operands and results -/

/-- Sign-extending further and cutting again is sign-extending less. -/
theorem toNat_signExtend_mod {m n w : Nat} (h : m ≤ n) (x : BitVec w) : (x.signExtend n).toNat % 2 ^ m = (x.signExtend m).toNat := by
  rw [← BitVec.toNat_setWidth]
  congr 1
  ext i hi
  simp [BitVec.getElem_signExtend, hi.trans_le h]

/-- Operand b of a 32-bit form is its word. -/
theorem intB_eq_intB32 (hw : o.w64 = false) (c : Issue) (l : Nat) : intB o c l = (intB32 o c l).toNat := by
  unfold intB intB32
  cases o.imm with
  | none => simp [intOperand, hw]
  | some x => simpa [IntOp.width, hw] using toNat_signExtend_mod (by decide : 32 ≤ 64) x

/-- Operand b of a 64-bit form is its word. -/
theorem intB_eq_intB64 (hw : o.w64 = true) (c : Issue) (l : Nat) : intB o c l = (intB64 o c l).toNat := by
  unfold intB intB64
  cases o.imm with
  | none => simp [intOperand, hw]
  | some x => simpa [IntOp.width, hw] using toNat_signExtend_mod (le_refl 64) x

/-- A form whose function on natural numbers is an operation of words, in every width, sends what the operation gives (R295). -/
theorem sendsInt_of_words {i : Instr} {f : Nat → Nat → Nat → Nat → Nat} {g : (w : Nat) → BitVec w → BitVec w → BitVec w → BitVec w}
    (hi : exec i s = intMeaning o s (f o.width)) (hfg : ∀ w (a b d : BitVec w), BitVec.ofNat w (f w a.toNat b.toNat d.toNat) = g w a b d)
    (h : Issues s c) : SendsInt i o s c g := by
  have hexec : exec i s = .next (s.finish c (intResult o c (f o.width))) := hi.trans (issuing_of_issues h)
  constructor
  all_goals
    intro hw
    refine hexec.trans ?_
    simp only [intResult, intOperand, hw, IntOp.width, intB_eq_intB32, intB_eq_intB64, hfg, if_true, if_false, Bool.false_eq_true]

/-! ## Functions on numbers and operations of words -/

/-- What is added to subtract a word. -/
theorem ofNat_two_pow_sub {w : Nat} (b : BitVec w) : BitVec.ofNat w (2 ^ w - b.toNat) = -b := by
  apply BitVec.eq_of_toNat_eq
  rw [BitVec.toNat_ofNat, BitVec.toNat_neg]

/-- A number times a power of two is its word shifted. -/
theorem ofNat_mul_two_pow {w : Nat} (b : BitVec w) (n : Nat) : BitVec.ofNat w (b.toNat * 2 ^ n) = b <<< n := by
  apply BitVec.eq_of_toNat_eq
  rw [BitVec.toNat_ofNat, BitVec.toNat_shiftLeft, Nat.shiftLeft_eq]

/-- Settles O8: each form by the operation of words that its function is. -/
theorem integerArithmeticAndLogic : Obligations.IntegerArithmeticAndLogic := by
  refine ⟨fun o sh s c h => ⟨?_, ?_, ?_, ?_, ?_, ?_⟩, fun o s c h => ⟨?_, ?_, ?_, ?_, ?_⟩⟩
  · exact sendsInt_of_words (f := fun _ a b _ => a + b) rfl (fun w a b _ => by simp only [BitVec.ofNat_add, BitVec.ofNat_toNat, BitVec.setWidth_eq]) h
  · refine sendsInt_of_words (f := fun w a b _ => a + (2 ^ w - b)) rfl (fun w a b _ => ?_) h
    rw [BitVec.ofNat_add, BitVec.ofNat_toNat, BitVec.setWidth_eq, ofNat_two_pow_sub, BitVec.sub_eq_add_neg]
  · exact sendsInt_of_words (f := fun _ a b _ => a * b) rfl (fun w a b _ => by simp only [BitVec.ofNat_mul, BitVec.ofNat_toNat, BitVec.setWidth_eq]) h
  · exact sendsInt_of_words (f := fun _ a b d => a * b + d) rfl
      (fun w a b d => by simp only [BitVec.ofNat_add, BitVec.ofNat_mul, BitVec.ofNat_toNat, BitVec.setWidth_eq]) h
  · exact sendsInt_of_words (f := fun w a _ _ => 2 ^ w - a) rfl (fun w a _ _ => ofNat_two_pow_sub a) h
  · exact sendsInt_of_words (f := fun _ a b _ => a + b * 2 ^ sh.toNat) rfl
      (fun w a b _ => by rw [BitVec.ofNat_add, BitVec.ofNat_toNat, BitVec.setWidth_eq, ofNat_mul_two_pow]) h
  · exact sendsInt_of_words (f := fun _ a b _ => a &&& b) rfl (fun w a b _ => by rw [← BitVec.toNat_and, BitVec.ofNat_toNat, BitVec.setWidth_eq]) h
  · exact sendsInt_of_words (f := fun _ a b _ => a ||| b) rfl (fun w a b _ => by rw [← BitVec.toNat_or, BitVec.ofNat_toNat, BitVec.setWidth_eq]) h
  · exact sendsInt_of_words (f := fun _ a b _ => a ^^^ b) rfl (fun w a b _ => by rw [← BitVec.toNat_xor, BitVec.ofNat_toNat, BitVec.setWidth_eq]) h
  · exact sendsInt_of_words (f := fun w a _ _ => 2 ^ w - 1 - a) rfl (fun w a _ _ => by rw [← BitVec.toNat_not, BitVec.ofNat_toNat, BitVec.setWidth_eq]) h
  · refine sendsInt_of_words (f := fun w a b _ => a &&& (2 ^ w - 1 - b)) rfl (fun w a b _ => ?_) h
    rw [← BitVec.toNat_not, ← BitVec.toNat_and, BitVec.ofNat_toNat, BitVec.setWidth_eq]

end Sys2Proof.Machine
end

section
/-! PROOF. REDUCE and SCAN (R178, R179, R306, R307): the fixed tree of an associative operation gives the fold over the leaves that
are present, in their order, whatever the absent ones. -/

namespace Sys2Proof.Machine

/-! ## The tree -/

section Tree

variable {α β : Type} {op : α → α → α}

/-- A node merges its two sides. -/
theorem treeLevel_cons₂ (a b : Option α) (l : List (Option α)) : treeLevel op (a :: b :: l) = a.merge op b :: treeLevel op l := by
  cases a <;> cases b <;> rfl

/-- A level halves the number of leaves. -/
theorem length_treeLevel_le {n : Nat} (l : List (Option α)) (h : l.length ≤ 2 * n) : (treeLevel op l).length ≤ n := by
  induction l using treeLevel.induct generalizing n with
  | case1 => exact Nat.zero_le n
  | case2 a => simp only [treeLevel, List.length_singleton] at h ⊢; omega
  | case3 a b l ih =>
    rw [treeLevel_cons₂, List.length_cons]
    simp only [List.length_cons] at h
    have := ih (n := n - 1) (by omega)
    omega

/-- A level of an associative operation keeps the fold. -/
theorem foldr_treeLevel (hop : Std.Associative op) (l : List (Option α)) :
    (treeLevel op l).foldr (Option.merge op) none = l.foldr (Option.merge op) none := by
  induction l using treeLevel.induct with
  | case1 => rfl
  | case2 a => rfl
  | case3 a b l ih => rw [treeLevel_cons₂, List.foldr_cons, ih, List.foldr_cons, List.foldr_cons, (Option.associative_merge op).assoc]

/-- The root of an associative operation is the fold over the leaves. -/
theorem treeRoot_eq_foldr (hop : Std.Associative op) (n : Nat) (l : List (Option α)) (h : l.length ≤ 2 ^ n) :
    treeRoot op n l = l.foldr (Option.merge op) none := by
  induction n generalizing l with
  | zero =>
    match l, h with
    | [], _ => rfl
    | [a], _ => exact (Option.merge_none_right).symm
  | succ n ih =>
    rw [treeRoot, ih _ (length_treeLevel_le l (by rwa [pow_succ'] at h)), foldr_treeLevel hop]

/-- A tree of images under a map that carries one operation to another is the image of the tree. -/
theorem treeRoot_map {opβ : β → β → β} {f : α → β} (hf : ∀ x y, opβ (f x) (f y) = f (op x y)) (n : Nat) (l : List (Option α)) :
    treeRoot opβ n (l.map (Option.map f)) = (treeRoot op n l).map f := by
  have hlevel (l : List (Option α)) : treeLevel opβ (l.map (Option.map f)) = (treeLevel op l).map (Option.map f) := by
    induction l using treeLevel.induct with
    | case1 => rfl
    | case2 a => rfl
    | case3 a b l ih =>
      simp only [List.map_cons, treeLevel_cons₂, ih]
      cases a <;> cases b <;> simp [hf]
  induction n generalizing l with
  | zero => cases l <;> rfl
  | succ n ih => rw [treeRoot, hlevel, ih, treeRoot]

/-- Absent leaves do not count. -/
theorem foldr_merge_filter (p : Nat → Bool) (x : Nat → α) (l : List Nat) :
    (l.map fun k => if p k then some (x k) else none).foldr (Option.merge op) none =
      ((l.filter p).map fun k => some (x k)).foldr (Option.merge op) none := by
  induction l with
  | nil => rfl
  | cons k l ih =>
    rw [List.map_cons, List.foldr_cons, ih, List.filter_cons]
    cases p k
    · exact Option.merge_none_left
    · rfl

/-- With an identity, the fold over leaves that are all present is the plain one. -/
theorem foldr_merge_some {e : α} (he : ∀ x, op x e = x) (x : Nat → α) {l : List Nat} (hl : l ≠ []) :
    (l.map fun k => some (x k)).foldr (Option.merge op) none = some ((l.map x).foldr op e) := by
  induction l with
  | nil => exact absurd rfl hl
  | cons k l ih =>
    cases l with
    | nil => simp [he]
    | cons j l => rw [List.map_cons, List.foldr_cons, ih (List.cons_ne_nil j l), Option.merge_some_some]; rfl

/-- An operation that picks the argument of the lower rank picks, of some leaves, one of the lowest rank. -/
theorem foldr_merge_pick {R : α → α → Prop} (hrefl : ∀ x, R x x) (htrans : ∀ x y z, R x y → R y z → R x z)
    (hpick : ∀ x y, (op x y = x ∧ R x y) ∨ (op x y = y ∧ R y x)) (x : Nat → α) {l : List Nat} (hl : l ≠ []) :
    ∃ k ∈ l, (∀ j ∈ l, R (x k) (x j)) ∧ (l.map fun k => some (x k)).foldr (Option.merge op) none = some (x k) := by
  induction l with
  | nil => exact absurd rfl hl
  | cons i l ih =>
    cases l with
    | nil => exact ⟨i, List.mem_singleton_self i, by simp [hrefl], rfl⟩
    | cons j l =>
      obtain ⟨k, hk, hmin, hfold⟩ := ih (List.cons_ne_nil j l)
      rw [List.map_cons, List.foldr_cons, hfold, Option.merge_some_some]
      rcases hpick (x i) (x k) with ⟨hop, hR⟩ | ⟨hop, hR⟩
      · exact ⟨i, List.mem_cons_self, List.forall_mem_cons.2 ⟨hrefl _, fun m hm => htrans _ _ _ hR (hmin m hm)⟩, congrArg some hop⟩
      · exact ⟨k, List.mem_cons_of_mem _ hk, List.forall_mem_cons.2 ⟨hR, hmin⟩, congrArg some hop⟩

end Tree

/-! ## Integer reductions -/

/-- A mask with a lane has a lowest one. -/
theorem lanesOf_ne_nil {m : Mask} (hm : m ≠ 0) : lanesOf m ≠ [] := by
  intro hnil
  apply hm
  ext k hk
  have hnot := List.filter_eq_nil_iff.1 hnil k (List.mem_range.2 hk)
  simpa [BitVec.getLsbD_eq_getElem hk] using hnot

/-- The root of an integer operation, where the operation of numbers is an associative one of words: the fold over the lanes. -/
theorem redRoot_of_words {op : RedOp} {w64 nat : Bool} {rnd : Rnd} {w : Nat} {g : BitVec w → BitVec w → BitVec w} (hint : redFloat op = false)
    (hg : ∀ a b, redNode op w64 nat rnd a.toNat b.toNat = (g a b).toNat) (hassoc : Std.Associative g) (mask : Mask) (x : Nat → BitVec w) :
    redRoot op w64 nat rnd mask (fun l => (x l).toNat) =
      (((lanesOf mask).map fun l => some (x l)).foldr (Option.merge g) none).map BitVec.toNat := by
  have hleaves : ((List.range 32).map fun l => if mask.getLsbD l then some (x l).toNat else none) =
      ((List.range 32).map fun l => if mask.getLsbD l then some (x l) else none).map (Option.map BitVec.toNat) := by
    simp [List.map_map, Function.comp_def, apply_ite (Option.map BitVec.toNat)]
  unfold redRoot
  simp only [hint, Bool.false_eq_true, if_false, hleaves, treeRoot_map hg]
  rw [treeRoot_eq_foldr hassoc 5 _ (by simp), foldr_merge_filter]
  exact Option.map_id'

/-- A word's number read as two's complement is its integer. -/
theorem signedOf_toNat {w : Nat} (hw : 0 < w) (a : BitVec w) : signedOf a.toNat w = a.toInt := by
  have h2 : 2 ^ w = 2 * 2 ^ (w - 1) := by rw [← pow_succ', Nat.sub_add_cancel hw]
  rw [signedOf, Nat.mod_eq_of_lt a.isLt, BitVec.toInt_eq_toNat_cond]
  exact if_congr (by omega) rfl rfl

/-- The integer of a word, natural or signed (R295). -/
def wordValue {w : Nat} (nat : Bool) (a : BitVec w) : Int := if nat then (a.toNat : Int) else a.toInt

/-- The order of words is that of their integers. -/
theorem leWords_iff {w : Nat} (nat : Bool) (a b : BitVec w) : leWords nat a b = true ↔ wordValue nat a ≤ wordValue nat b := by
  cases nat
  · simp [leWords, wordValue, BitVec.sle_iff_toInt_le]
  · simp [leWords, wordValue, BitVec.ule_iff_toNat_le]

section Fold

variable {op : RedOp} {w64 nat : Bool} {rnd : Rnd} {w : Nat} {g : BitVec w → BitVec w → BitVec w} {mask : Mask} (hint : redFloat op = false)
  (hg : ∀ a b, redNode op w64 nat rnd a.toNat b.toNat = (g a b).toNat) (hassoc : Std.Associative g) (hm : mask ≠ 0) (x : Nat → BitVec w)

include hint hg hassoc hm

/-- An operation with an identity folds the lanes of the mask. -/
theorem redRoot_eq_fold {e : BitVec w} (he : ∀ a, g a e = a) :
    redRoot op w64 nat rnd mask (fun l => (x l).toNat) = some (((lanesOf mask).map x).foldr g e).toNat := by
  rw [redRoot_of_words hint hg hassoc, foldr_merge_some he x (lanesOf_ne_nil hm), Option.map_some]

/-- An operation that picks finds a lane of the lowest rank. -/
theorem redRoot_eq_pick {R : BitVec w → BitVec w → Prop} (hrefl : ∀ a, R a a) (htrans : ∀ a b c, R a b → R b c → R a c)
    (hpick : ∀ a b, (g a b = a ∧ R a b) ∨ (g a b = b ∧ R b a)) :
    ∃ k ∈ lanesOf mask, (∀ l ∈ lanesOf mask, R (x k) (x l)) ∧ redRoot op w64 nat rnd mask (fun l => (x l).toNat) = some (x k).toNat := by
  obtain ⟨k, hk, hR, hfold⟩ := foldr_merge_pick hrefl htrans hpick x (lanesOf_ne_nil hm)
  exact ⟨k, hk, hR, by rw [redRoot_of_words hint hg hassoc, hfold, Option.map_some]⟩

end Fold

/-! ## The forms -/

section Forms

variable {s : State} {c : Issue} (h : Issues s c)

include h

/-- REDUCE sends the root over the lanes that fire to every lane (R306). -/
theorem execReduce_sends (op : RedOp) (wd : Wd) (w64 nat : Bool) (rnd : Rnd) : exec (.reduce op wd w64 nat rnd) s =
    .next (s.finish c (laneResult c w64 fun _ => (redRoot op w64 nat rnd c.mask (laneA c w64)).getD 0)) :=
  issuing_of_issues h

/-- A reduction of words whose root is a word sends it. -/
theorem reduce_sends32 {op : RedOp} {wd : Wd} {nat : Bool} {rnd : Rnd} {r : Word}
    (hroot : redRoot op false nat rnd c.mask (fun l => (c.w32 .a l).toNat) = some r.toNat) :
    Sends32 (.reduce op wd false nat rnd) s c fun _ => r := by
  refine (execReduce_sends h op wd false nat rnd).trans ?_
  have hlane : laneA c false = fun l => (c.w32 .a l).toNat := rfl
  simp only [hlane, hroot, laneResult, Option.getD_some, BitVec.ofNat_toNat, BitVec.setWidth_eq, Bool.false_eq_true, if_false]

/-- A reduction of 64-bit words whose root is a word sends it. -/
theorem reduce_sends64 {op : RedOp} {wd : Wd} {nat : Bool} {rnd : Rnd} {r : DWord}
    (hroot : redRoot op true nat rnd c.mask (fun l => (c.w64 .a .ax l).toNat) = some r.toNat) :
    Sends64 (.reduce op wd true nat rnd) s c fun _ => r := by
  refine (execReduce_sends h op wd true nat rnd).trans ?_
  have hlane : laneA c true = fun l => (c.w64 .a .ax l).toNat := rfl
  simp only [hlane, hroot, laneResult, Option.getD_some, BitVec.ofNat_toNat, BitVec.setWidth_eq, if_true]

/-- The least word over the lanes that fire (R306). -/
theorem reduce_min_sends (wd : Wd) (nat : Bool) (rnd : Rnd) :
    ∃ k ∈ c.lanes, (∀ l ∈ c.lanes, leWords nat (c.w32 .a k) (c.w32 .a l) = true) ∧ Sends32 (.reduce .min wd false nat rnd) s c fun _ => c.w32 .a k := by
  have hg (a b : Word) : redNode .min false nat rnd a.toNat b.toNat = (if wordValue nat a ≤ wordValue nat b then a else b).toNat := by
    simp only [redNode, wordValue, Bool.false_eq_true, if_false, signedOf_toNat (by decide : 0 < 32)]
    exact (apply_ite BitVec.toNat _ _ _).symm
  obtain ⟨k, hk, hmin, hroot⟩ := redRoot_eq_pick (R := fun a b => wordValue nat a ≤ wordValue nat b) rfl hg ⟨by grind⟩ h.2 (c.w32 .a)
    (fun _ => le_refl _) (fun _ _ _ => le_trans) (by grind)
  exact ⟨k, hk, fun l hl => (leWords_iff _ _ _).2 (hmin l hl), reduce_sends32 h hroot⟩

/-- The greatest word over the lanes that fire (R306). -/
theorem reduce_max_sends (wd : Wd) (nat : Bool) (rnd : Rnd) :
    ∃ k ∈ c.lanes, (∀ l ∈ c.lanes, leWords nat (c.w32 .a l) (c.w32 .a k) = true) ∧ Sends32 (.reduce .max wd false nat rnd) s c fun _ => c.w32 .a k := by
  have hg (a b : Word) : redNode .max false nat rnd a.toNat b.toNat = (if wordValue nat a ≤ wordValue nat b then b else a).toNat := by
    simp only [redNode, wordValue, Bool.false_eq_true, if_false, signedOf_toNat (by decide : 0 < 32)]
    exact (apply_ite BitVec.toNat _ _ _).symm
  obtain ⟨k, hk, hmax, hroot⟩ := redRoot_eq_pick (R := fun a b => wordValue nat b ≤ wordValue nat a) rfl hg ⟨by grind⟩ h.2 (c.w32 .a)
    (fun _ => le_refl _) (fun _ _ _ hab hbc => le_trans hbc hab) (by grind)
  exact ⟨k, hk, fun l hl => (leWords_iff _ _ _).2 (hmax l hl), reduce_sends32 h hroot⟩

end Forms

/-- The lanes of a mask at or below a lane, or strictly below it (R307). -/
theorem getLsbD_lanesBelow (mask : Mask) (excl : Bool) (l k : Nat) :
    (mask &&& BitVec.ofNat 32 (if excl then 2 ^ l - 1 else 2 ^ (l + 1) - 1)).getLsbD k =
      (mask.getLsbD k && decide (if excl then k < l else k ≤ l)) := by
  rw [BitVec.getLsbD_and, BitVec.getLsbD_ofNat]
  by_cases hk : k < 32
  · cases excl <;> simp [hk, Nat.testBit_two_pow_sub_one]
  · rw [BitVec.getLsbD_of_ge mask k (not_lt.1 hk), Bool.false_and, Bool.false_and]

/-- Settles O16: the integer reductions by the fold that their tree is, the tree forms by their definitions. -/
theorem reductionsAndScans : Obligations.ReductionsAndScans := by
  refine ⟨fun wd nat rnd s c h => ⟨?_, ?_, ?_, ?_, ?_, reduce_min_sends h wd nat rnd, reduce_max_sends h wd nat rnd⟩,
    fun op wd w64 nat excl rnd s c h => ⟨execReduce_sends h op wd w64 nat rnd, _, fun l k _ => getLsbD_lanesBelow c.mask excl l k, issuing_of_issues h⟩⟩
  · rw [List.sum_eq_foldr]
    exact reduce_sends32 h (redRoot_eq_fold rfl (fun a b => (BitVec.toNat_add a b).symm) inferInstance h.2 (c.w32 .a) BitVec.add_zero)
  · rw [List.sum_eq_foldr]
    exact reduce_sends64 h (redRoot_eq_fold rfl (fun a b => (BitVec.toNat_add a b).symm) inferInstance h.2 (c.w64 .a .ax) BitVec.add_zero)
  · rw [← List.foldl_map (f := fun l => c.w32 .a l), List.foldl_eq_foldr]
    exact reduce_sends32 h (redRoot_eq_fold (op := .and) rfl (fun a b => (BitVec.toNat_and a b).symm) inferInstance h.2 (c.w32 .a) fun a => BitVec.and_allOnes)
  · rw [← List.foldl_map (f := fun l => c.w32 .a l), List.foldl_eq_foldr]
    exact reduce_sends32 h (redRoot_eq_fold (op := .or) rfl (fun a b => (BitVec.toNat_or a b).symm) inferInstance h.2 (c.w32 .a) fun a => BitVec.or_zero)
  · rw [← List.foldl_map (f := fun l => c.w32 .a l), List.foldl_eq_foldr]
    exact reduce_sends32 h (redRoot_eq_fold (op := .xor) rfl (fun a b => (BitVec.toNat_xor a b).symm) inferInstance h.2 (c.w32 .a) fun a => BitVec.xor_zero)

end Sys2Proof.Machine
end

section
/-! PROOF. One rounding of an exact result (R157 to R159, R166 to R168, R309, R310): what the model computes on numerators,
denominators and exponents is Round of R167 of the exact result of Table 14.2. -/

namespace Sys2Proof.Machine

/-! ## Magnitudes and binary logarithms -/

theorem absRat_eq_abs (x : Rat) : absRat x = |x| := by
  unfold absRat
  split_ifs with h
  · exact (abs_of_neg h).symm
  · exact (abs_of_nonneg (not_lt.1 h)).symm

/-- A logarithm is the exponent of the power of two at or below its argument. -/
theorem log_eq_of_between {q : Rat} {z : Int} (hlo : (2 : Rat) ^ z ≤ q) (hhi : q < (2 : Rat) ^ (z + 1)) : Int.log 2 q = z := by
  have hq : 0 < q := (zpow_pos two_pos z).trans_le hlo
  have h₁ := (Int.zpow_le_iff_le_log one_lt_two hq).1 (by exact_mod_cast hlo)
  have h₂ := (Int.lt_zpow_iff_log_lt one_lt_two hq).1 (by exact_mod_cast hhi)
  omega

theorem zpow_log_le {q : Rat} (hq : 0 < q) : (2 : Rat) ^ Int.log 2 q ≤ q := by exact_mod_cast Int.zpow_log_le_self one_lt_two hq

theorem lt_zpow_log (q : Rat) : q < (2 : Rat) ^ (Int.log 2 q + 1) := by exact_mod_cast Int.lt_zpow_succ_log_self one_lt_two q

theorem log_mul_zpow {q : Rat} (hq : 0 < q) (k : Int) : Int.log 2 (q * (2 : Rat) ^ k) = Int.log 2 q + k := by
  apply log_eq_of_between
  · rw [zpow_add₀ two_ne_zero]
    exact mul_le_mul_of_nonneg_right (zpow_log_le hq) (zpow_pos two_pos k).le
  · rw [add_right_comm, zpow_add₀ two_ne_zero]
    exact mul_lt_mul_of_pos_right (lt_zpow_log q) (zpow_pos two_pos k)

/-- The logarithm of a fraction is the difference of those of its parts, or one less. -/
theorem log_div_eq {n d : Nat} (hn : n ≠ 0) (hd : d ≠ 0) : Int.log 2 ((n : Rat) / d) =
    if (2 : Rat) ^ ((n.log2 : Int) - d.log2) ≤ (n : Rat) / d then (n.log2 : Int) - d.log2 else (n.log2 : Int) - d.log2 - 1 := by
  have hd₀ : (0 : Rat) < d := by positivity
  have hnlo : (2 : Rat) ^ (n.log2 : Int) ≤ n := by exact_mod_cast Nat.log2_self_le hn
  have hnhi : (n : Rat) < 2 ^ ((n.log2 : Int) + 1) := by exact_mod_cast Nat.lt_log2_self
  have hdlo : (2 : Rat) ^ (d.log2 : Int) ≤ d := by exact_mod_cast Nat.log2_self_le hd
  have hdhi : (d : Rat) < 2 ^ ((d.log2 : Int) + 1) := by exact_mod_cast Nat.lt_log2_self
  split_ifs with h
  · refine log_eq_of_between h ((div_lt_iff₀ hd₀).2 (hnhi.trans_le ?_))
    calc (2 : Rat) ^ ((n.log2 : Int) + 1) = 2 ^ ((n.log2 : Int) - d.log2 + 1) * 2 ^ (d.log2 : Int) := by rw [← zpow_add₀ two_ne_zero]; ring_nf
      _ ≤ 2 ^ ((n.log2 : Int) - d.log2 + 1) * d := mul_le_mul_of_nonneg_left hdlo (zpow_pos two_pos _).le
  · refine log_eq_of_between ((le_div_iff₀ hd₀).2 (le_trans ?_ hnlo)) (by rw [sub_add_cancel]; exact not_le.1 h)
    calc (2 : Rat) ^ ((n.log2 : Int) - d.log2 - 1) * d ≤ 2 ^ ((n.log2 : Int) - d.log2 - 1) * 2 ^ ((d.log2 : Int) + 1) :=
        mul_le_mul_of_nonneg_left hdhi.le (zpow_pos two_pos _).le
      _ = 2 ^ (n.log2 : Int) := by rw [← zpow_add₀ two_ne_zero]; ring_nf

theorem ratLog2_eq_log {a : Rat} (ha : 0 < a) : ratLog2 a = Int.log 2 a := by
  have hnum : (a.num.natAbs : Rat) = a.num := by rw [Nat.cast_natAbs, abs_of_pos (Rat.num_pos.2 ha)]
  have hdiv : (a.num.natAbs : Rat) / a.den = a := by rw [hnum, Rat.num_div_den]
  have hlog := log_div_eq (Int.natAbs_ne_zero.2 (Rat.num_pos.2 ha).ne') a.den_nz
  rw [hdiv] at hlog
  exact hlog.symm

theorem log2Ratio_eq_log {n d : Nat} (hn : n ≠ 0) (hd : d ≠ 0) : log2Ratio n d = Int.log 2 ((n : Rat) / d) := by
  have hd₀ : (0 : Rat) < d := by positivity
  rw [log_div_eq hn hd, log2Ratio]
  refine if_congr ?_ rfl rfl
  rw [le_div_iff₀ hd₀]
  split_ifs with h
  · obtain ⟨k, hk⟩ := Int.eq_ofNat_of_zero_le h
    rw [hk, Int.toNat_natCast, mul_comm, zpow_natCast]
    exact_mod_cast Iff.rfl
  · obtain ⟨k, hk⟩ := Int.eq_ofNat_of_zero_le (by omega : 0 ≤ -((n.log2 : Int) - d.log2))
    rw [hk, Int.toNat_natCast, ← neg_neg ((n.log2 : Int) - d.log2), hk, zpow_neg, zpow_natCast, inv_mul_le_iff₀ (by positivity), mul_comm]
    exact_mod_cast Iff.rfl

/-! ## Rounding -/

/-- Whether a magnitude with integer part `k` and fraction `f` is rounded up (R167). -/
def roundsUp (m : RMode) (neg : Bool) (k : Nat) (f : Rat) : Bool :=
  match m.rnd with
  | .rne => decide (1 / 2 < f) || (decide (f = 1 / 2) && k % 2 == 1)
  | .rz => false
  | .ru => decide (0 < f) && !neg
  | .rd => decide (0 < f) && neg
  | .sr => decide (2 ^ m.n ≤ (f * 2 ^ m.n).floor.toNat + m.r)

theorem roundMag_eq (m : RMode) (neg : Bool) (a : Rat) : roundMag m neg a = ⌊a⌋₊ + (roundsUp m neg ⌊a⌋₊ (a - (⌊a⌋₊ : Rat))).toNat := by
  obtain ⟨rnd, r, n⟩ := m
  cases rnd <;> rfl

/-- A fraction of numbers is rounded up by its remainder. -/
theorem roundsUp_div (m : RMode) (neg : Bool) (k n : Nat) {d : Nat} (hd : d ≠ 0) : roundsUp m neg k ((n : Rat) / d) = roundUp m neg k n d := by
  have hd₀ : (0 : Rat) < d := by positivity
  have hpos : decide (0 < (n : Rat) / d) = (n != 0) := by
    rw [Bool.eq_iff_iff, decide_eq_true_iff, bne_iff_ne, div_pos_iff_of_pos_right hd₀, Nat.cast_pos, Nat.pos_iff_ne_zero]
  unfold roundsUp roundUp
  cases m.rnd with
  | rne =>
    have hhalf : decide ((n : Rat) / d = 1 / 2) = (2 * n == d) := by
      rw [Bool.eq_iff_iff, decide_eq_true_iff, beq_iff_eq, div_eq_div_iff hd₀.ne' two_ne_zero, one_mul, mul_comm]
      exact_mod_cast Iff.rfl
    have hmore : decide (1 / 2 < (n : Rat) / d) = decide (d < 2 * n) := by
      rw [Bool.eq_iff_iff, decide_eq_true_iff, decide_eq_true_iff, div_lt_div_iff₀ two_pos hd₀, one_mul, mul_comm]
      exact_mod_cast Iff.rfl
    simp only [hhalf, hmore]
  | rz => rfl
  | ru => simp only [hpos]
  | rd => simp only [hpos]
  | sr =>
    have hfloor : ((n : Rat) / d * 2 ^ m.n).floor.toNat = n * 2 ^ m.n / d := by
      have hcast : (n : Rat) / d * 2 ^ m.n = (n * 2 ^ m.n : Nat) / d := by push_cast; rw [div_mul_eq_mul_div]
      exact hcast ▸ Rat.natFloor_natCast_div_natCast _ d
    simp only [hfloor]

/-- A fraction of numbers is rounded by its quotient and remainder (R167). -/
theorem roundMag_div (m : RMode) (neg : Bool) (n : Nat) {d : Nat} (hd : d ≠ 0) :
    roundMag m neg ((n : Rat) / d) = if roundUp m neg (n / d) (n % d) d then n / d + 1 else n / d := by
  have hd₀ : (0 : Rat) < d := by positivity
  have hfrac : (n : Rat) / d - (n / d : Nat) = (n % d : Nat) / d := by
    rw [eq_div_iff hd₀.ne', sub_mul, div_mul_cancel₀ _ hd₀.ne', sub_eq_iff_eq_add]
    exact_mod_cast (Nat.mod_add_div' n d).symm
  rw [roundMag_eq, Rat.natFloor_natCast_div_natCast, hfrac, roundsUp_div m neg _ _ hd]
  cases roundUp m neg (n / d) (n % d) d <;> rfl

/-- A magnitude with a sign. -/
def signed (neg : Bool) (a : Rat) : Rat := if neg then -a else a

theorem signed_neg_iff {neg : Bool} {a : Rat} (ha : 0 < a) : signed neg a < 0 ↔ neg = true := by
  cases neg
  · simpa [signed] using ha.le
  · simpa [signed] using ha

theorem absRat_signed {neg : Bool} {a : Rat} (ha : 0 ≤ a) : absRat (signed neg a) = a := by
  rw [absRat_eq_abs]
  cases neg
  · exact abs_of_nonneg ha
  · exact (abs_neg a).trans (abs_of_nonneg ha)

theorem signed_eq_zero {neg : Bool} {a : Rat} : signed neg a = 0 ↔ a = 0 := by
  cases neg <;> simp [signed]

theorem rat_fin (n : Bool) (m : Nat) (e : Int) : (FVal.fin n m e).rat = signed n (m * (2 : Rat) ^ e) := by
  cases n <;> simp [FVal.rat, signed]

/-- A fraction scaled by a power of two, as a fraction of numbers. -/
theorem div_mul_zpow (n d : Nat) (k : Int) : (n : Rat) / d * (2 : Rat) ^ k =
    ((if 0 ≤ k then n * 2 ^ k.toNat else n : Nat) : Rat) / (if 0 ≤ k then d else d * 2 ^ (-k).toNat : Nat) := by
  split_ifs with h
  · obtain ⟨j, rfl⟩ := Int.eq_ofNat_of_zero_le h
    rw [Int.toNat_natCast, zpow_natCast, div_mul_eq_mul_div]
    push_cast
    rfl
  · obtain ⟨j, hj⟩ := Int.eq_ofNat_of_zero_le (by omega : 0 ≤ -k)
    rw [hj, Int.toNat_natCast, ← neg_neg k, hj, zpow_neg, zpow_natCast, ← div_eq_mul_inv, div_div]
    push_cast
    rfl

/-- Rounding a signed fraction times a power of two is Round of R167 of it. -/
theorem roundTo_eq_roundExact (f : Fmt) (m : RMode) (ftz sat neg : Bool) {n d : Nat} (hn : n ≠ 0) (hd : d ≠ 0) (exp : Int) :
    roundTo f m ftz sat neg n d exp = roundExact f m ftz sat (signed neg ((n : Rat) / d * (2 : Rat) ^ exp)) := by
  have hq : 0 < (n : Rat) / d := by positivity
  have ha : 0 < (n : Rat) / d * (2 : Rat) ^ exp := mul_pos hq (zpow_pos two_pos exp)
  have hneg : decide (signed neg ((n : Rat) / d * (2 : Rat) ^ exp) < 0) = neg := by
    rw [Bool.eq_iff_iff, decide_eq_true_iff, signed_neg_iff ha]
  have hlog : ratLog2 ((n : Rat) / d * (2 : Rat) ^ exp) = log2Ratio n d + exp := by
    rw [ratLog2_eq_log ha, log_mul_zpow hq, log2Ratio_eq_log hn hd]
  have hscale (q : Int) : (n : Rat) / d * (2 : Rat) ^ exp / (2 : Rat) ^ q = n / d * (2 : Rat) ^ (exp - q) := by
    rw [zpow_sub₀ two_ne_zero, mul_div_assoc]
  have hmag (k : Int) : roundMag m neg ((n : Rat) / d * (2 : Rat) ^ k) = _ :=
    div_mul_zpow n d k ▸ roundMag_div m neg _ (by split_ifs <;> positivity)
  simp only [roundTo, roundExact, absRat_signed ha.le, hneg, hlog, hscale, hmag]

/-- Rounding a number times a power of two. -/
theorem roundTo_nat (f : Fmt) (m : RMode) (ftz sat neg : Bool) {n : Nat} (hn : n ≠ 0) (e : Int) :
    roundTo f m ftz sat neg n 1 e = roundExact f m ftz sat (signed neg (n * (2 : Rat) ^ e)) := by
  rw [roundTo_eq_roundExact f m ftz sat neg hn one_ne_zero, Nat.cast_one, div_one]

/-- An integer is its magnitude with its sign. -/
theorem signed_natAbs_mul (v : Int) (q : Rat) : signed (decide (v < 0)) (v.natAbs * q) = v * q := by
  simp only [signed, Nat.cast_natAbs, decide_eq_true_eq]
  split_ifs with h
  · rw [abs_of_neg h, Int.cast_neg, neg_mul, neg_neg]
  · rw [abs_of_nonneg (not_lt.1 h)]

/-- Rounding an integer times a power of two. -/
theorem roundTo_int (f : Fmt) (m : RMode) (ftz sat : Bool) {v : Int} (hv : v ≠ 0) (e : Int) :
    roundTo f m ftz sat (decide (v < 0)) v.natAbs 1 e = roundExact f m ftz sat (v * (2 : Rat) ^ e) := by
  rw [roundTo_nat f m ftz sat _ (Int.natAbs_ne_zero.2 hv), signed_natAbs_mul]

/-! ## Exact results of values (Table 14.2) -/

theorem FVal.eq_fin_of_finite {x : FVal} (h : x.finite = true) : ∃ n m e, x = .fin n m e := by
  cases x with
  | nan => cases h
  | inf n => cases h
  | fin n m e => exact ⟨n, m, e, rfl⟩

theorem FVal.eq_nan_of_isNan {x : FVal} (h : x.isNan = true) : x = .nan := by
  cases x with
  | nan => rfl
  | inf n => cases h
  | fin n m e => cases h

@[simp] theorem exact_inf (n : Bool) : (FVal.inf n).exact = .inf n := rfl

@[simp] theorem exact_fin (n : Bool) (m : Nat) (e : Int) : (FVal.fin n m e).exact = .val n (signed n (m * (2 : Rat) ^ e)) := by
  rw [FVal.exact, rat_fin]

theorem signed_mul_zpow_eq_zero {n : Bool} {m : Nat} {e : Int} : signed n (m * (2 : Rat) ^ e) = 0 ↔ m = 0 := by
  rw [signed_eq_zero, mul_eq_zero, Nat.cast_eq_zero, or_iff_left (zpow_ne_zero e two_ne_zero)]

/-- A positive value has no sign and is its magnitude. -/
theorem rat_of_pos {n : Bool} {m : Nat} {e : Int} (h : 0 < (FVal.fin n m e).rat) : n = false ∧ (FVal.fin n m e).rat = m * (2 : Rat) ^ e := by
  rw [rat_fin] at h ⊢
  cases n with
  | false => exact ⟨rfl, rfl⟩
  | true => exact absurd h (not_lt.2 (neg_nonpos.2 (by positivity)))

/-- A negative value has a sign and a magnitude. -/
theorem rat_of_neg {n : Bool} {m : Nat} {e : Int} (h : (FVal.fin n m e).rat < 0) :
    n = true ∧ m ≠ 0 ∧ (FVal.fin n m e).rat = -(m * (2 : Rat) ^ e) := by
  rw [rat_fin] at h ⊢
  cases n with
  | false => exact absurd h (not_lt.2 (by rw [signed, if_neg Bool.false_ne_true]; positivity))
  | true => exact ⟨rfl, fun hm => h.ne (signed_mul_zpow_eq_zero.2 hm), rfl⟩

/-- The code of a finite value, by whether it is a zero. -/
theorem code_fin (f : Fmt) (m : RMode) (ftz sat n : Bool) (v : Nat) (e : Int) :
    (FVal.fin n v e).exact.code f m ftz sat = if v = 0 then withSign f n 0 else roundTo f m ftz sat n v 1 e := by
  rw [exact_fin, Exact.code]
  by_cases hv : v = 0
  · rw [if_pos (signed_mul_zpow_eq_zero.2 hv), if_pos hv]
  · rw [if_neg (mt signed_mul_zpow_eq_zero.1 hv), if_neg hv, roundTo_nat f m ftz sat n hv]

/-- A value is rounded as its exact value is. -/
theorem roundVal_eq_code (f : Fmt) (m : RMode) (ftz sat : Bool) (x : FVal) : roundVal f m ftz sat x = x.exact.code f m ftz sat := by
  cases x with
  | nan => rfl
  | inf n => rfl
  | fin n v e => simp only [roundVal, code_fin, beq_iff_eq]

/-- A value that is not 0, rounded. -/
theorem roundVal_fin (f : Fmt) (m : RMode) (ftz sat n : Bool) {v : Nat} (hv : v ≠ 0) (e : Int) :
    roundVal f m ftz sat (.fin n v e) = roundExact f m ftz sat (signed n (v * (2 : Rat) ^ e)) := by
  rw [roundVal_eq_code, code_fin, if_neg hv, roundTo_nat f m ftz sat n hv]

theorem exact_negate (x : FVal) : x.negate.exact = x.exact.neg := by
  cases x with
  | nan => rfl
  | inf n => rfl
  | fin n m e => cases n <;> simp [FVal.negate, Exact.neg, signed]

theorem signed_mul_signed (n₁ n₂ : Bool) (a b : Rat) : signed n₁ a * signed n₂ b = signed (n₁ != n₂) (a * b) := by
  cases n₁ <;> cases n₂ <;> simp [signed]

theorem exact_mul (x y : FVal) : (x.mul y).exact = x.exact.mul y.exact := by
  cases x with
  | nan => cases y <;> rfl
  | inf a =>
    cases y with
    | nan => rfl
    | inf b => rfl
    | fin b m e =>
      simp only [FVal.mul, apply_ite FVal.exact, exact_fin, exact_inf, Exact.mul, beq_iff_eq, signed_mul_zpow_eq_zero]
      split_ifs <;> rfl
  | fin a m e =>
    cases y with
    | nan => rfl
    | inf b =>
      simp only [FVal.mul, apply_ite FVal.exact, exact_fin, exact_inf, Exact.mul, beq_iff_eq, signed_mul_zpow_eq_zero]
      split_ifs <;> rfl
    | fin b k j =>
      simp only [FVal.mul, exact_fin, Exact.mul, signed_mul_signed, Nat.cast_mul, zpow_add₀ (two_ne_zero (α := Rat)), mul_mul_mul_comm]

/-- A finite value aligned to an exponent at or below its own. -/
theorem alignInt_mul_zpow (n : Bool) (m : Nat) {e e₀ : Int} (h : e₀ ≤ e) : (alignInt n m e e₀ : Rat) * (2 : Rat) ^ e₀ = signed n (m * (2 : Rat) ^ e) := by
  obtain ⟨k, rfl⟩ := Int.le.dest h
  rw [alignInt, add_sub_cancel_left, Int.toNat_natCast, zpow_add₀ two_ne_zero, zpow_natCast]
  cases n <;> simp [signed] <;> ring

/-- A sum rounded once: R159 for a zero, Round of R167 for any other. -/
theorem sumFin_eq_code (f : Fmt) (m : RMode) (ftz n₁ n₂ : Bool) (m₁ m₂ : Nat) (e₁ e₂ : Int) :
    sumFin f m ftz n₁ m₁ e₁ n₂ m₂ e₂ = ((FVal.fin n₁ m₁ e₁).exact.add m.rnd (FVal.fin n₂ m₂ e₂).exact).code f m ftz false := by
  have hsum : signed n₁ (m₁ * (2 : Rat) ^ e₁) + signed n₂ (m₂ * (2 : Rat) ^ e₂) =
      (alignInt n₁ m₁ e₁ (min e₁ e₂) + alignInt n₂ m₂ e₂ (min e₁ e₂) : Int) * (2 : Rat) ^ min e₁ e₂ := by
    rw [Int.cast_add, add_mul, alignInt_mul_zpow n₁ m₁ (min_le_left e₁ e₂), alignInt_mul_zpow n₂ m₂ (min_le_right e₁ e₂)]
  simp only [sumFin, exact_fin, Exact.add, Exact.code, hsum, mul_eq_zero, Int.cast_eq_zero, zpow_ne_zero _ (two_ne_zero (α := Rat)), or_false, beq_iff_eq]
  split_ifs with hv heq
  · simp [zeroSumNeg, heq]
  · simp [zeroSumNeg, heq]
  · exact roundTo_int f m ftz false hv _

theorem fAdd_eq_code (f : Fmt) (m : RMode) (ftz : Bool) (x y : FVal) : fAdd f m ftz x y = (x.exact.add m.rnd y.exact).code f m ftz false := by
  cases x with
  | nan => cases y <;> rfl
  | inf a =>
    cases y with
    | nan => rfl
    | inf b => cases a <;> cases b <;> rfl
    | fin b k j => rfl
  | fin a k j =>
    cases y with
    | nan => rfl
    | inf b => rfl
    | fin b k' j' => exact sumFin_eq_code f m ftz a b k k' j j'

theorem fMul_eq_code (f : Fmt) (m : RMode) (ftz : Bool) (x y : FVal) : fMul f m ftz x y = (x.exact.mul y.exact).code f m ftz false := by
  rw [fMul, roundVal_eq_code, exact_mul]

theorem fFma_eq_code (f : Fmt) (m : RMode) (ftz : Bool) (x y z : FVal) :
    fFma f m ftz x y z = ((x.exact.mul y.exact).add m.rnd z.exact).code f m ftz false := by
  rw [fFma, fAdd_eq_code, exact_mul]

theorem signed_div_signed (n₁ n₂ : Bool) (a b : Rat) : signed n₁ a / signed n₂ b = signed (n₁ != n₂) (a / b) := by
  cases n₁ <;> cases n₂ <;> simp [signed, neg_div, div_neg]

theorem fDiv_eq_code (f : Fmt) (m : RMode) (ftz : Bool) (x y : FVal) : fDiv f m ftz x y = (x.exact.div y.exact).code f m ftz false := by
  cases x with
  | nan => cases y <;> rfl
  | inf a => cases y <;> rfl
  | fin a k e =>
    cases y with
    | nan => rfl
    | inf b => simp [fDiv, FVal.exact, Exact.div, Exact.code]
    | fin b j e' =>
      simp only [fDiv, exact_fin, Exact.div, signed_mul_zpow_eq_zero, beq_iff_eq]
      by_cases hj : j = 0
      · simp only [hj, if_true]
        split_ifs <;> rfl
      · have hquot : signed a (k * (2 : Rat) ^ e) / signed b (j * (2 : Rat) ^ e') = signed (a != b) ((k : Rat) / j * (2 : Rat) ^ (e - e')) := by
          rw [signed_div_signed, zpow_sub₀ two_ne_zero, mul_div_mul_comm]
        have hzero : signed (a != b) ((k : Rat) / j * (2 : Rat) ^ (e - e')) = 0 ↔ k = 0 := by
          rw [signed_eq_zero, mul_eq_zero, div_eq_zero_iff, Nat.cast_eq_zero, Nat.cast_eq_zero, or_iff_left hj,
            or_iff_left (zpow_ne_zero _ two_ne_zero)]
        simp only [hj, if_false, Exact.code, hquot, hzero]
        split_ifs with hk
        · rfl
        · exact roundTo_eq_roundExact f m ftz false _ hk hj _

end Sys2Proof.Machine
end

section
/-! PROOF. Roots, scaling, rounding to an integer and classes of FP32 values (R310, R314, R315). -/

namespace Sys2Proof.Machine

/-! ## Where a rounding does not change -/

/-- Fractions on one side of a half, and not 0, are rounded alike by a mode without random bits. -/
theorem roundsUp_congr {m : RMode} (hm : m.n = 0) (neg : Bool) (k : Nat) {f g : Rat} (hf : 0 < f ∧ f < 1 ∧ f ≠ 1 / 2) (hg : 0 < g ∧ g < 1 ∧ g ≠ 1 / 2)
    (hside : 1 / 2 < f ↔ 1 / 2 < g) : roundsUp m neg k f = roundsUp m neg k g := by
  obtain ⟨hf₀, hf₁, hfh⟩ := hf
  obtain ⟨hg₀, hg₁, hgh⟩ := hg
  have hfloor {x : Rat} (hx : x < 1) : (x * 2 ^ m.n).floor.toNat = 0 := by
    rw [hm, pow_zero, mul_one]
    exact Nat.floor_eq_zero.2 hx
  unfold roundsUp
  cases m.rnd with
  | rne => simp only [hside, hfh, hgh]
  | rz => rfl
  | ru => simp only [hf₀, hg₀]
  | rd => simp only [hf₀, hg₀]
  | sr => simp only [hfloor hf₁, hfloor hg₁]

/-- Between two neighbouring halves of integers all magnitudes are rounded alike. -/
theorem roundMag_congr {m : RMode} (hm : m.n = 0) (neg : Bool) {j : Nat} {a b : Rat} (ha : (j : Rat) < 2 * a ∧ 2 * a < j + 1)
    (hb : (j : Rat) < 2 * b ∧ 2 * b < j + 1) : roundMag m neg a = roundMag m neg b := by
  have hdiv : (j : Rat) = 2 * (j / 2 : Nat) + (j % 2 : Nat) := by exact_mod_cast (Nat.div_add_mod j 2).symm
  have hmod : ((j % 2 : Nat) : Rat) = 0 ∨ ((j % 2 : Nat) : Rat) = 1 := by exact_mod_cast Nat.mod_two_eq_zero_or_one j
  have hfrac {x : Rat} (hx : (j : Rat) < 2 * x ∧ 2 * x < j + 1) : (0 < x - (j / 2 : Nat) ∧ x - (j / 2 : Nat) < 1 ∧ x - (j / 2 : Nat) ≠ 1 / 2) ∧
      (1 / 2 < x - (j / 2 : Nat) ↔ ((j % 2 : Nat) : Rat) = 1) := by
    obtain ⟨hlo, hhi⟩ := hx
    rcases hmod with h | h
    · have h₀ : 0 < x - (j / 2 : Nat) := by linarith
      have h₁ : x - (j / 2 : Nat) < 1 / 2 := by linarith
      exact ⟨⟨h₀, by linarith, h₁.ne⟩, iff_of_false h₁.not_gt (by rw [h]; exact zero_ne_one)⟩
    · have h₀ : 1 / 2 < x - (j / 2 : Nat) := by linarith
      have h₁ : x - (j / 2 : Nat) < 1 := by linarith
      exact ⟨⟨by linarith, h₁, h₀.ne'⟩, iff_of_true h₀ h⟩
  have hfloor {x : Rat} (hx : (j : Rat) < 2 * x ∧ 2 * x < j + 1) : ⌊x⌋₊ = j / 2 := by
    obtain ⟨⟨h₀, h₁, -⟩, -⟩ := hfrac hx
    have := Nat.cast_nonneg (α := Rat) (j / 2)
    exact (Nat.floor_eq_iff (by linarith)).2 ⟨by linarith, by linarith⟩
  obtain ⟨hfa, hsa⟩ := hfrac ha
  obtain ⟨hfb, hsb⟩ := hfrac hb
  rw [roundMag_eq, roundMag_eq, hfloor ha, hfloor hb, roundsUp_congr hm neg _ hfa hfb (hsa.trans hsb.symm)]

/-- Reals of one sign that lie between two neighbouring halves of the same last place are rounded to one code. -/
theorem roundExact_congr (f : Fmt) {m : RMode} (hm : m.n = 0) (ftz sat : Bool) {x y : Rat} (hsign : x < 0 ↔ y < 0) {e : Int} {j : Nat}
    (hx : max (ratLog2 (absRat x)) (1 - (f.spec.bias : Int)) = e) (hy : max (ratLog2 (absRat y)) (1 - (f.spec.bias : Int)) = e)
    (hjx : (j : Rat) < 2 * (absRat x / (2 : Rat) ^ (e - f.spec.fbits)) ∧ 2 * (absRat x / (2 : Rat) ^ (e - f.spec.fbits)) < j + 1)
    (hjy : (j : Rat) < 2 * (absRat y / (2 : Rat) ^ (e - f.spec.fbits)) ∧ 2 * (absRat y / (2 : Rat) ^ (e - f.spec.fbits)) < j + 1) :
    roundExact f m ftz sat x = roundExact f m ftz sat y := by
  simp only [roundExact, hx, hy, hsign, roundMag_congr hm (decide (y < 0)) hjx hjy]

/-! ## Scaling by a power of two -/

/-- A magnitude below half the least subnormal is rounded as any other of its sign. -/
theorem roundExact_tiny {m : RMode} (hm : m.n = 0) (ftz sat neg : Bool) {a b : Rat} (ha : 0 < a ∧ a < (2 : Rat) ^ (-150 : Int))
    (hb : 0 < b ∧ b < (2 : Rat) ^ (-150 : Int)) : roundExact .fp32 m ftz sat (signed neg a) = roundExact .fp32 m ftz sat (signed neg b) := by
  have hexp {x : Rat} (hx : 0 < x ∧ x < (2 : Rat) ^ (-150 : Int)) : max (ratLog2 x) (-126) = -126 := by
    have := (Int.lt_zpow_iff_log_lt one_lt_two hx.1 (x := -150)).1 (by exact_mod_cast hx.2)
    rw [ratLog2_eq_log hx.1]
    exact max_eq_right (by omega)
  have hhalf {x : Rat} (hx : 0 < x ∧ x < (2 : Rat) ^ (-150 : Int)) :
      ((0 : Nat) : Rat) < 2 * (x / (2 : Rat) ^ (-126 - (23 : Int))) ∧ 2 * (x / (2 : Rat) ^ (-126 - (23 : Int))) < (0 : Nat) + 1 := by
    obtain ⟨h₀, h₁⟩ := hx
    refine ⟨by rw [Nat.cast_zero]; positivity, ?_⟩
    rw [← mul_div_assoc, div_lt_iff₀ (by positivity)]
    norm_num at h₁ ⊢
    linarith
  refine roundExact_congr .fp32 hm ftz sat (j := 0) ((signed_neg_iff ha.1).trans (signed_neg_iff hb.1).symm) (e := -126) ?_ ?_ ?_ ?_
  · rw [absRat_signed ha.1.le]; exact hexp ha
  · rw [absRat_signed hb.1.le]; exact hexp hb
  · rw [absRat_signed ha.1.le]; exact hhalf ha
  · rw [absRat_signed hb.1.le]; exact hhalf hb

/-- Rounding takes no magnitude below its integer part. -/
theorem floor_le_roundMag (m : RMode) (neg : Bool) (a : Rat) : ⌊a⌋₊ ≤ roundMag m neg a := by
  rw [roundMag_eq]
  exact Nat.le_add_right _ _

/-- A magnitude of 2^128 or more overflows. -/
theorem roundExact_overflow (m : RMode) (ftz sat neg : Bool) {a : Rat} (ha : (2 : Rat) ^ (128 : Int) ≤ a) :
    roundExact .fp32 m ftz sat (signed neg a) = overflowCode .fp32 m.rnd sat neg := by
  have ha₀ : 0 < a := (zpow_pos two_pos _).trans_le ha
  have hlog : 128 ≤ Int.log 2 a := (Int.zpow_le_iff_le_log one_lt_two ha₀).1 (by exact_mod_cast ha)
  have hneg : decide (signed neg a < 0) = neg := by rw [Bool.eq_iff_iff, decide_eq_true_iff, signed_neg_iff ha₀]
  have he : max (Int.log 2 a) (1 - ((Fmt.fp32.spec.bias : Nat) : Int)) = Int.log 2 a := max_eq_left (by simp only [Fmt.spec]; omega)
  have hsig : 2 ^ 23 ≤ roundMag m neg (a / (2 : Rat) ^ (Int.log 2 a - ((23 : Nat) : Int))) := by
    refine (Nat.le_floor ?_).trans (floor_le_roundMag m neg _)
    rw [le_div_iff₀ (zpow_pos two_pos _), Nat.cast_pow, Nat.cast_two, ← zpow_natCast, ← zpow_add₀ two_ne_zero, add_sub_cancel]
    exact zpow_log_le ha₀
  simp only [roundExact, absRat_signed ha₀.le, hneg, ratLog2_eq_log ha₀, he]
  refine if_pos ?_
  simp only [Fmt.spec]
  omega

/-! ## Values of FP32 codes -/

/-- The value of an FP32 code by its fields (Table 7.2). -/
theorem fval_fp32 (b : Nat) : fval .fp32 b =
    if 0x7F7FFFFF < b % 2 ^ 31 then (if b % 2 ^ 31 = 0x7F800000 then .inf (b / 2 ^ 31 % 2 == 1) else .nan)
    else if b % 2 ^ 31 / 2 ^ 23 = 0 then .fin (b / 2 ^ 31 % 2 == 1) (b % 2 ^ 31 % 2 ^ 23) (-149)
    else .fin (b / 2 ^ 31 % 2 == 1) (2 ^ 23 + b % 2 ^ 31 % 2 ^ 23) ((b % 2 ^ 31 / 2 ^ 23 : Nat) - 150) := by
  simp only [fval, Fmt.spec, beq_iff_eq, Option.some.injEq, eq_comm (a := 0x7F800000)]
  split_ifs
  · rfl
  · rfl
  · norm_num
  · norm_num
    omega

/-- A finite value of FP32 has a significand of 24 bits and an exponent from -149 to 104. -/
theorem fval_fp32_bounds {b : Nat} {n : Bool} {v : Nat} {e : Int} (h : fval .fp32 b = .fin n v e) : v < 2 ^ 24 ∧ -149 ≤ e ∧ e ≤ 104 := by
  rw [fval_fp32] at h
  split_ifs at h <;> cases h <;> omega

/-- FLDEXP rounds the operand times the power of two: a power out of reach gives what one in reach gives (R310). -/
theorem fLdexp_fin {m : RMode} (hm : m.n = 0) (ftz : Bool) {b : Nat} {n : Bool} {v : Nat} {e : Int} (hb : fval .fp32 b = .fin n v e) (y : Int) :
    fLdexp .fp32 m ftz (fval .fp32 b) y = (Exact.val n ((FVal.fin n v e).rat * (2 : Rat) ^ y)).code .fp32 m ftz false := by
  obtain ⟨hv, he₀, he₁⟩ := fval_fp32_bounds hb
  have hscale : (FVal.fin n v e).rat * (2 : Rat) ^ y = (FVal.fin n v (e + y)).rat := by
    rw [rat_fin, rat_fin, zpow_add₀ two_ne_zero]
    cases n <;> simp [signed, mul_assoc]
  rw [hb, fLdexp, roundVal_eq_code, hscale, ← FVal.exact]
  by_cases hv₀ : v = 0
  · rw [code_fin, code_fin, if_pos hv₀, if_pos hv₀]
  rw [code_fin, code_fin, if_neg hv₀, if_neg hv₀, roundTo_nat _ _ _ _ _ hv₀, roundTo_nat _ _ _ _ _ hv₀]
  have hv₁ : (1 : Rat) ≤ v := by exact_mod_cast Nat.one_le_iff_ne_zero.2 hv₀
  have hv₂ : (v : Rat) ≤ (2 : Rat) ^ (24 : Int) := by exact_mod_cast hv.le
  rcases lt_or_ge 1000 y with hy | hy
  · have hbig {k : Int} (hk : 128 ≤ k) : (2 : Rat) ^ (128 : Int) ≤ v * (2 : Rat) ^ k :=
      (zpow_le_zpow_right₀ one_le_two hk).trans (le_mul_of_one_le_left (zpow_pos two_pos k).le hv₁)
    rw [roundExact_overflow m ftz false n (hbig (by omega)), roundExact_overflow m ftz false n (hbig (by omega))]
  rcases lt_or_ge y (-1000) with hy' | hy'
  · have hsmall {k : Int} (hk : k < -174) : 0 < v * (2 : Rat) ^ k ∧ v * (2 : Rat) ^ k < (2 : Rat) ^ (-150 : Int) := by
      refine ⟨by positivity, (mul_le_mul_of_nonneg_right hv₂ (zpow_pos two_pos k).le).trans_lt ?_⟩
      rw [← zpow_add₀ two_ne_zero]
      exact zpow_lt_zpow_right₀ one_lt_two (by omega)
    exact roundExact_tiny hm ftz false n (hsmall (by omega)) (hsmall (by omega))
  · rw [min_eq_right hy, max_eq_right hy']

/-- An exact result times a power of two. -/
def Exact.scale (y : Int) : Exact → Exact
  | .val n x => .val n (x * (2 : Rat) ^ y)
  | x => x

theorem fLdexp_eq_code {m : RMode} (hm : m.n = 0) (ftz : Bool) (b : Nat) (y : Int) :
    fLdexp .fp32 m ftz (fval .fp32 b) y = ((fval .fp32 b).exact.scale y).code .fp32 m ftz false := by
  cases hb : fval .fp32 b with
  | nan => rfl
  | inf n => rfl
  | fin n v e =>
    rw [← hb, fLdexp_fin hm ftz hb y, hb]
    rfl

/-! ## Roots -/

/-- The root found bit by bit is the integer square root. -/
theorem isqrtFrom_eq_sqrt (n k r : Nat) (hlo : r * r ≤ n) (hhi : n < (r + 2 ^ k) * (r + 2 ^ k)) : isqrtFrom n k r = Nat.sqrt n := by
  induction k generalizing r with
  | zero => exact Nat.eq_sqrt.2 ⟨hlo, hhi⟩
  | succ k ih =>
    rw [isqrtFrom]
    split_ifs with h
    · exact ih _ h (by rwa [add_assoc, ← two_mul, ← pow_succ'])
    · exact ih _ hlo (not_le.1 h)

theorem isqrt_eq_sqrt (n : Nat) : isqrt n = Nat.sqrt n := by
  refine isqrtFrom_eq_sqrt n _ 0 (Nat.zero_le n) ?_
  rw [zero_add, ← pow_add]
  exact (Nat.lt_log2_self (n := n)).trans_le (pow_le_pow_right₀ one_le_two (by omega))

/-- Between two neighbouring multiples of a power of two that have 26 bits, all reals are rounded to one code. -/
theorem roundExact_congr_of_between {m : RMode} (hm : m.n = 0) (ftz sat : Bool) {r : Nat} (hr : 2 ^ 25 ≤ r) (k : Int) {a b : Rat}
    (ha : (r : Rat) < a ∧ a < r + 1) (hb : (r : Rat) < b ∧ b < r + 1) :
    roundExact .fp32 m ftz sat (a * (2 : Rat) ^ k) = roundExact .fp32 m ftz sat (b * (2 : Rat) ^ k) := by
  have hr₀ : (0 : Rat) < r := by positivity
  have hlog {x : Rat} (hx : (r : Rat) < x ∧ x < r + 1) : ratLog2 (absRat (x * (2 : Rat) ^ k)) = r.log2 + k := by
    obtain ⟨hlo, hhi⟩ := hx
    have hx₀ : 0 < x := hr₀.trans hlo
    rw [absRat_eq_abs, abs_of_pos (mul_pos hx₀ (zpow_pos two_pos k)), ratLog2_eq_log (mul_pos hx₀ (zpow_pos two_pos k)), log_mul_zpow hx₀]
    congr 1
    refine log_eq_of_between (le_trans ?_ hlo.le) (hhi.trans_le ?_)
    · exact_mod_cast Nat.log2_self_le (by omega)
    · exact_mod_cast Nat.lt_log2_self (n := r)
  have hbits : 25 ≤ r.log2 := (Nat.le_log2 (by omega)).2 hr
  obtain ⟨e, he⟩ : ∃ e, max ((r.log2 : Int) + k) (-126) = e := ⟨_, rfl⟩
  obtain ⟨i, hi⟩ : ∃ i : Nat, e - ((23 : Nat) : Int) = k + (i + 1) := ⟨(e - 24 - k).toNat, by omega⟩
  have hhalf {x : Rat} (hx : (r : Rat) < x ∧ x < r + 1) :
      ((r / 2 ^ i : Nat) : Rat) < 2 * (absRat (x * (2 : Rat) ^ k) / (2 : Rat) ^ (e - ((23 : Nat) : Int))) ∧
      2 * (absRat (x * (2 : Rat) ^ k) / (2 : Rat) ^ (e - ((23 : Nat) : Int))) < (r / 2 ^ i : Nat) + 1 := by
    obtain ⟨hlo, hhi⟩ := hx
    have hplace : 2 * (absRat (x * (2 : Rat) ^ k) / (2 : Rat) ^ (e - ((23 : Nat) : Int))) = x / 2 ^ i := by
      rw [hi, absRat_eq_abs, abs_of_pos (mul_pos (hr₀.trans hlo) (zpow_pos two_pos k)), zpow_add₀ two_ne_zero, zpow_add₀ two_ne_zero, zpow_natCast, zpow_one]
      field_simp
    have hle : ((r / 2 ^ i * 2 ^ i : Nat) : Rat) ≤ r := by exact_mod_cast Nat.div_mul_le_self r _
    have hlt : (r : Rat) + 1 ≤ ((r / 2 ^ i + 1) * 2 ^ i : Nat) := by
      rw [add_mul, one_mul]
      exact_mod_cast Nat.lt_div_mul_add (a := r) (Nat.two_pow_pos i)
    push_cast at hle hlt
    rw [hplace, lt_div_iff₀ (by positivity), div_lt_iff₀ (by positivity)]
    exact ⟨hle.trans_lt hlo, hhi.trans_le hlt⟩
  have hpos {x : Rat} (hx : (r : Rat) < x ∧ x < r + 1) : ¬ x * (2 : Rat) ^ k < 0 := not_lt.2 (mul_pos (hr₀.trans hx.1) (zpow_pos two_pos k)).le
  exact roundExact_congr .fp32 hm ftz sat (iff_of_false (hpos ha) (hpos hb)) (by rw [hlog ha]; exact he) (by rw [hlog hb]; exact he) (hhalf ha) (hhalf hb)

/-- A number that is no square has rationals next to its root, on both sides, between the same two integers. -/
theorem exists_between_root {n : Nat} (hn : Nat.sqrt n * Nat.sqrt n ≠ n) : ∃ a b : Rat, ((Nat.sqrt n : Rat) < a ∧ a < Nat.sqrt n + 1) ∧
    ((Nat.sqrt n : Rat) < b ∧ b < Nat.sqrt n + 1) ∧ a * a < n ∧ (n : Rat) < b * b := by
  have hlo : ((Nat.sqrt n : Rat) * Nat.sqrt n) + 1 ≤ n := by exact_mod_cast lt_of_le_of_ne (Nat.sqrt_le n) hn
  have hhi : (n : Rat) + 1 ≤ (Nat.sqrt n + 1) * (Nat.sqrt n + 1) := by exact_mod_cast Nat.lt_succ_sqrt n
  have hs : (0 : Rat) ≤ Nat.sqrt n := Nat.cast_nonneg _
  obtain ⟨d, hd₀, hd⟩ : ∃ d : Rat, 0 < d ∧ d * (2 * Nat.sqrt n + 2) = 1 :=
    ⟨1 / (2 * Nat.sqrt n + 2), by positivity, one_div_mul_cancel (by positivity)⟩
  have hd₁ : d ≤ 1 / 2 := by nlinarith
  refine ⟨Nat.sqrt n + d, Nat.sqrt n + 1 - d, ⟨by linarith, by linarith⟩, ⟨by linarith, by linarith⟩, ?_, ?_⟩
  · calc (Nat.sqrt n + d) * (Nat.sqrt n + d) = Nat.sqrt n * Nat.sqrt n + 1 - (2 - d) * d := by linear_combination hd
      _ < n := by nlinarith
  · calc (n : Rat) < (Nat.sqrt n + 1) * (Nat.sqrt n + 1) - 1 + d * d := by nlinarith
      _ = (Nat.sqrt n + 1 - d) * (Nat.sqrt n + 1 - d) := by linear_combination hd

/-- A positive value is a number times an even power of two; its root is found with 40 more bits and a last one that says whether it is
exact (R310). -/
theorem fSqrt_eq_roundTo (m : RMode) (ftz : Bool) {v : Nat} (hv : v ≠ 0) (e : Int) : ∃ (w : Nat) (h : Int), w ≠ 0 ∧
    (v : Rat) * (2 : Rat) ^ e = w * (2 : Rat) ^ (2 * h) ∧ fSqrt .fp32 m ftz (.fin false v e) = roundTo .fp32 m ftz false false
      (2 * Nat.sqrt (w * 2 ^ 80) + if Nat.sqrt (w * 2 ^ 80) * Nat.sqrt (w * 2 ^ 80) = w * 2 ^ 80 then 0 else 1) 1 (h - 41) := by
  rcases Int.emod_two_eq_zero_or_one e with he | he
  · refine ⟨v, e / 2, hv, ?_, ?_⟩
    · rw [Int.mul_ediv_cancel' (Int.dvd_of_emod_eq_zero he)]
    · simp [fSqrt, hv, he, isqrt_eq_sqrt]
  · refine ⟨2 * v, (e - 1) / 2, by omega, ?_, ?_⟩
    · rw [Int.mul_ediv_cancel' (by omega), zpow_sub_one₀ two_ne_zero]
      push_cast
      ring
    · simp [fSqrt, hv, he, isqrt_eq_sqrt]

/-- The rounded root of a positive value lies between two rationals that round alike, or is one (R310). -/
theorem fSqrt_fin {m : RMode} (hm : m.n = 0) (ftz : Bool) {v : Nat} (hv : v ≠ 0) (e : Int) : ∃ a b : Rat, 0 < a ∧
    ((a = b ∧ a * a = v * (2 : Rat) ^ e) ∨ (a * a < v * (2 : Rat) ^ e ∧ v * (2 : Rat) ^ e < b * b ∧ 0 < b)) ∧
    fSqrt .fp32 m ftz (.fin false v e) = roundExact .fp32 m ftz false a ∧ fSqrt .fp32 m ftz (.fin false v e) = roundExact .fp32 m ftz false b := by
  obtain ⟨w, h, hw, hval, hroot⟩ := fSqrt_eq_roundTo m ftz hv e
  have hr : 2 ^ 40 ≤ Nat.sqrt (w * 2 ^ 80) := Nat.le_sqrt.2 (by omega)
  have hscale (a : Rat) : a * (2 : Rat) ^ (h - 40) * (a * (2 : Rat) ^ (h - 40)) = a * a * 2 ^ (-80 : Int) * (2 : Rat) ^ (2 * h) := by
    rw [mul_mul_mul_comm, ← zpow_add₀ two_ne_zero, mul_assoc (a * a), ← zpow_add₀ two_ne_zero]
    ring_nf
  have hbig : (w : Rat) * (2 : Rat) ^ (2 * h) = (w * 2 ^ 80 : Nat) * 2 ^ (-80 : Int) * (2 : Rat) ^ (2 * h) := by
    have hone : (2 : Rat) ^ 80 * 2 ^ (-80 : Int) = 1 := by norm_num
    rw [Nat.cast_mul, Nat.cast_pow, Nat.cast_two, mul_assoc (w : Rat), hone, mul_one]
  have hhalf (n : Nat) : signed false ((n : Rat) * (2 : Rat) ^ (h - 41)) = n / 2 * (2 : Rat) ^ (h - 40) := by
    rw [signed, if_neg Bool.false_ne_true, (by ring : h - 40 = h - 41 + 1), zpow_add_one₀ two_ne_zero]
    ring
  rw [hval, hroot, roundTo_nat _ _ _ _ _ (by omega), hhalf, hbig]
  generalize w * 2 ^ 80 = big at hr ⊢
  have hs₀ : (0 : Rat) < Nat.sqrt big := by exact_mod_cast (by decide : 0 < 2 ^ 40).trans_le hr
  have hpow : (0 : Rat) < 2 ^ (-80 : Int) * (2 : Rat) ^ (2 * h) := mul_pos (zpow_pos two_pos _) (zpow_pos two_pos _)
  by_cases hsq : Nat.sqrt big * Nat.sqrt big = big
  · have hwhole : ((2 * Nat.sqrt big + 0 : Nat) : Rat) / 2 = Nat.sqrt big := by push_cast; ring
    rw [if_pos hsq, hwhole]
    refine ⟨_, _, mul_pos hs₀ (zpow_pos two_pos _), .inl ⟨rfl, ?_⟩, rfl, rfl⟩
    rw [hscale, ← Nat.cast_mul, hsq]
  · have hmid : ((2 * Nat.sqrt big + 1 : Nat) : Rat) / 2 = Nat.sqrt big + 1 / 2 := by push_cast; ring
    have hbetween : (Nat.sqrt big : Rat) < Nat.sqrt big + 1 / 2 ∧ (Nat.sqrt big : Rat) + 1 / 2 < Nat.sqrt big + 1 := ⟨by linarith, by linarith⟩
    obtain ⟨a, b, ha, hb, haa, hbb⟩ := exists_between_root hsq
    have hcongr {x : Rat} := roundExact_congr_of_between hm ftz false ((by decide : 2 ^ 25 ≤ 2 ^ 40).trans hr) (h - 40) hbetween (b := x)
    rw [if_neg hsq, hmid]
    refine ⟨a * (2 : Rat) ^ (h - 40), b * (2 : Rat) ^ (h - 40), mul_pos (hs₀.trans ha.1) (zpow_pos two_pos _), .inr ⟨?_, ?_, ?_⟩, hcongr ha, hcongr hb⟩
    · rw [hscale, mul_assoc (a * a), mul_assoc (big : Rat)]
      exact mul_lt_mul_of_pos_right haa hpow
    · rw [hscale, mul_assoc (b * b), mul_assoc (big : Rat)]
      exact mul_lt_mul_of_pos_right hbb hpow
    · exact mul_pos (hs₀.trans hb.1) (zpow_pos two_pos _)

/-! ## Rounding to an integer -/

/-- A whole magnitude is not rounded up, when the random bits are fewer than their width. -/
theorem roundsUp_zero {m : RMode} (hm : m.r < 2 ^ m.n) (neg : Bool) (k : Nat) : roundsUp m neg k 0 = false := by
  unfold roundsUp
  cases m.rnd with
  | rne => norm_num
  | rz => rfl
  | ru => simp
  | rd => simp
  | sr =>
    rw [zero_mul]
    exact decide_eq_false (not_le.2 ((Nat.zero_add _).trans_lt hm))

theorem roundMag_natCast {m : RMode} (hm : m.r < 2 ^ m.n) (neg : Bool) (k : Nat) : roundMag m neg k = k := by
  rw [roundMag_eq, Nat.floor_natCast, sub_self, roundsUp_zero hm, Bool.toNat_false, Nat.add_zero]

/-- A signed magnitude is rounded by its magnitude (R167). -/
theorem roundWhole_signed {m : RMode} (hm : m.r < 2 ^ m.n) (n : Bool) {a : Rat} (ha : 0 ≤ a) :
    roundWhole m (signed n a) = if n then -(roundMag m n a : Int) else roundMag m n a := by
  rcases ha.eq_or_lt with rfl | ha
  · have hzero (neg : Bool) : roundMag m neg 0 = 0 := by exact_mod_cast roundMag_natCast hm neg 0
    simp [roundWhole, signed, absRat, hzero]
  · simp only [roundWhole, signed_neg_iff ha, absRat_signed ha.le]
    cases n <;> rfl

theorem fracOf_den_ne_zero (m : Nat) (e : Int) : (fracOf m e).2 ≠ 0 := by
  unfold fracOf
  split_ifs
  · exact one_ne_zero
  · exact (Nat.two_pow_pos _).ne'

/-- The fraction of a magnitude is the magnitude. -/
theorem fracOf_div (m : Nat) (e : Int) : ((fracOf m e).1 : Rat) / (fracOf m e).2 = m * (2 : Rat) ^ e := by
  have h := div_mul_zpow m 1 e
  rw [Nat.cast_one, div_one] at h
  rw [h, fracOf]
  split_ifs
  · rfl
  · rw [one_mul]

/-- A finite value is rounded to an integer as its exact value is (R170, R315). -/
theorem roundInt_fracOf {m : RMode} (hm : m.r < 2 ^ m.n) (n : Bool) (v : Nat) (e : Int) :
    roundInt m n (fracOf v e).1 (fracOf v e).2 = roundWhole m (FVal.fin n v e).rat := by
  rw [rat_fin, roundWhole_signed hm n (by positivity), ← fracOf_div, roundMag_div m n _ (fracOf_den_ne_zero v e)]
  rfl

/-- The value of an FP32 code with a sign. -/
theorem fval_withSign {mag : Nat} (hmag : mag < 2 ^ 31) (neg : Bool) : fval .fp32 (withSign .fp32 neg mag) =
    if 0x7F7FFFFF < mag then (if mag = 0x7F800000 then .inf neg else .nan)
    else if mag / 2 ^ 23 = 0 then .fin neg (mag % 2 ^ 23) (-149) else .fin neg (2 ^ 23 + mag % 2 ^ 23) ((mag / 2 ^ 23 : Nat) - 150) := by
  have hlow : withSign .fp32 neg mag % 2 ^ 31 = mag := by
    cases neg <;> simp [withSign, Fmt.spec] <;> omega
  have hneg : (withSign .fp32 neg mag / 2 ^ 31 % 2 == 1) = neg := by
    cases neg <;> simp [withSign, Fmt.spec] <;> omega
  rw [fval_fp32, hlow, hneg]

/-- The bits of a number of at most 24, moved to the top of the significand. -/
theorem significand_bounds {k : Nat} (hk : k ≠ 0) (hk' : k < 2 ^ 24) : 2 ^ 23 ≤ k * 2 ^ (23 - k.log2) ∧ k * 2 ^ (23 - k.log2) < 2 ^ 24 := by
  have hL : k.log2 < 24 := (Nat.log2_lt hk).2 hk'
  have hsum : k.log2 + (23 - k.log2) = 23 := by omega
  have hpow : 2 ^ k.log2 * 2 ^ (23 - k.log2) = 2 ^ 23 := by rw [← pow_add, hsum]
  constructor
  · calc 2 ^ 23 = 2 ^ k.log2 * 2 ^ (23 - k.log2) := hpow.symm
      _ ≤ k * 2 ^ (23 - k.log2) := Nat.mul_le_mul_right _ (Nat.log2_self_le hk)
  · calc k * 2 ^ (23 - k.log2) < 2 ^ (k.log2 + 1) * 2 ^ (23 - k.log2) := Nat.mul_lt_mul_of_pos_right Nat.lt_log2_self (Nat.two_pow_pos _)
      _ = 2 ^ 24 := by rw [pow_succ', mul_assoc, hpow, ← pow_succ']

/-- The code of a whole number of at most 24 bits: its exponent and its significand. -/
theorem roundTo_natCast {k : Nat} (hk : k ≠ 0) (hk' : k < 2 ^ 24) (neg : Bool) :
    roundTo .fp32 ⟨.rne, 0, 0⟩ false false neg k 1 0 = withSign .fp32 neg ((k.log2 + 126) * 2 ^ 23 + k * 2 ^ (23 - k.log2)) := by
  have hL : k.log2 < 24 := (Nat.log2_lt hk).2 hk'
  have hsig := (significand_bounds hk hk').2
  have hlog : log2Ratio k 1 = k.log2 := by
    rw [log2Ratio_eq_log hk one_ne_zero, Nat.cast_one, div_one, Int.log_natCast, Nat.log2_eq_log_two]
  have hmax : max ((k.log2 : Int) + 0) (1 - ((127 : Nat) : Int)) = k.log2 := max_eq_left (by omega)
  have hsh : (0 : Int) - ((k.log2 : Int) - ((23 : Nat) : Int)) = (23 - k.log2 : Nat) := by omega
  have hexp : ((k.log2 : Int) - (1 - ((127 : Nat) : Int))).toNat = k.log2 + 126 := by omega
  have hwhole (q : Nat) : roundUp ⟨.rne, 0, 0⟩ neg q 0 1 = false := rfl
  have hfits : ¬ 0x7F7FFFFF < (k.log2 + 126) * 2 ^ 23 + k * 2 ^ (23 - k.log2) := by omega
  simp only [roundTo, Fmt.spec, hlog, hmax, hsh, hexp, Int.natCast_nonneg, Int.toNat_natCast, Nat.div_one, Nat.mod_one, hwhole, hfits, if_true, if_false,
    Bool.false_and, Bool.false_eq_true]

/-- A whole number of at most 24 bits is an FP32 value. -/
theorem fval_roundTo_natCast {k : Nat} (hk : k ≠ 0) (hk' : k < 2 ^ 24) (neg : Bool) :
    ∃ v e, fval .fp32 (roundTo .fp32 ⟨.rne, 0, 0⟩ false false neg k 1 0) = .fin neg v e ∧ (v : Rat) * (2 : Rat) ^ e = k := by
  have hL : k.log2 < 24 := (Nat.log2_lt hk).2 hk'
  obtain ⟨hlo, hhi⟩ := significand_bounds hk hk'
  refine ⟨k * 2 ^ (23 - k.log2), (k.log2 : Int) - 23, ?_, ?_⟩
  · rw [roundTo_natCast hk hk', fval_withSign (by omega), if_neg (by omega), if_neg (by omega)]
    congr 1 <;> omega
  · have hexp : ((23 - k.log2 : Nat) : Int) + ((k.log2 : Int) - 23) = 0 := by omega
    push_cast
    rw [mul_assoc, ← zpow_natCast, ← zpow_add₀ two_ne_zero, hexp, zpow_zero, mul_one]

/-- A magnitude below a whole one is not rounded above it. -/
theorem roundMag_le (m : RMode) (neg : Bool) {a : Rat} (ha₀ : 0 ≤ a) {k : Nat} (ha : a < k) : roundMag m neg a ≤ k := by
  have hfloor : ⌊a⌋₊ < k := (Nat.floor_lt ha₀).2 ha
  have hup := Bool.toNat_le (roundsUp m neg ⌊a⌋₊ (a - (⌊a⌋₊ : Rat)))
  rw [roundMag_eq]
  omega

/-- A value of 2^23 or more, by its numbers. -/
theorem two_pow_23_le_iff (v : Nat) {e : Int} (he : -149 ≤ e) : 2 ^ 23 * 2 ^ 149 ≤ v * 2 ^ (e + 149).toNat ↔ (2 : Rat) ^ 23 ≤ v * (2 : Rat) ^ e := by
  obtain ⟨j, hj⟩ := Int.eq_ofNat_of_zero_le (by omega : 0 ≤ e + 149)
  have hval : (v : Rat) * (2 : Rat) ^ e * 2 ^ 149 = v * 2 ^ j := by
    rw [mul_assoc, ← zpow_natCast, ← zpow_natCast, ← zpow_add₀ two_ne_zero, ← hj, Nat.cast_ofNat]
  rw [hj, Int.toNat_natCast, ← mul_le_mul_iff_left₀ (by positivity : (0 : Rat) < 2 ^ 149), hval]
  exact_mod_cast Iff.rfl

section Frnd

variable {m : RMode} {b : Nat} {n : Bool} {v : Nat} {e : Int} (hb : fval .fp32 b = .fin n v e)

include hb

/-- FRND leaves a magnitude of 2^23 or more as it is: it is whole (R315). -/
theorem fRound_of_large (h : (2 : Rat) ^ 23 ≤ v * (2 : Rat) ^ e) : fRound m b = b := by
  obtain ⟨-, he, -⟩ := fval_fp32_bounds hb
  rw [fRound, hb]
  exact if_pos ((two_pow_23_le_iff v he).2 h)

/-- FRND gives any other operand's integer, with its sign (R315). -/
theorem fval_fRound_of_small (hm : m.r < 2 ^ m.n) (h : (v : Rat) * (2 : Rat) ^ e < 2 ^ 23) :
    ∃ k j, fval .fp32 (fRound m b) = .fin n k j ∧ (FVal.fin n k j).rat = roundWhole m (FVal.fin n v e).rat := by
  obtain ⟨-, he, -⟩ := fval_fp32_bounds hb
  have hle : roundMag m n (v * (2 : Rat) ^ e) ≤ 2 ^ 23 := roundMag_le m n (by positivity) (by exact_mod_cast h)
  have hwhole : roundWhole m (FVal.fin n v e).rat = _ := (rat_fin n v e).symm ▸ roundWhole_signed hm n (by positivity)
  have habs : (roundInt m n (fracOf v e).1 (fracOf v e).2).natAbs = roundMag m n (v * (2 : Rat) ^ e) := by
    rw [roundInt_fracOf hm, hwhole]
    cases n <;> simp
  have hround : fRound m b = if roundMag m n (v * (2 : Rat) ^ e) = 0 then withSign .fp32 n 0
      else roundTo .fp32 ⟨.rne, 0, 0⟩ false false n (roundMag m n (v * (2 : Rat) ^ e)) 1 0 := by
    rw [fRound, hb]
    simp only [if_neg (mt (two_pow_23_le_iff v he).1 (not_le.2 h)), habs, beq_iff_eq]
  have hsigned (k : Nat) : (((if n then -(k : Int) else k : Int) : Int) : Rat) = signed n k := by
    cases n <;> simp [signed]
  rw [hround, hwhole, hsigned]
  by_cases hk : roundMag m n (v * (2 : Rat) ^ e) = 0
  · rw [if_pos hk, hk, fval_withSign (by decide)]
    exact ⟨0, -149, rfl, by rw [rat_fin, Nat.cast_zero, zero_mul]⟩
  · obtain ⟨k, j, hval, hkj⟩ := fval_roundTo_natCast hk (by omega) n
    exact ⟨k, j, by rw [if_neg hk, hval], by rw [rat_fin, hkj]⟩

end Frnd

/-! ## Classes -/

/-- FCLASS: the bit of the class of an FP32 code (Table 14.4). -/
theorem fClass_eq {b : Nat} (hb : b < 2 ^ 32) : BitVec.ofNat 32 (fClass b) = (match fval .fp32 b with
    | .nan => if b.testBit 22 then 2 else 1
    | .inf n => if n then 4 else 512
    | .fin n m _ => if m = 0 then (if n then 32 else 64) else if isSubnormal .fp32 b then (if n then 16 else 128) else (if n then 8 else 256) : Word) := by
  have hneg : b / 2 ^ 31 % 2 = b / 2 ^ 31 := Nat.mod_eq_of_lt (by omega)
  have hexp : b / 2 ^ 23 % 256 = b % 2 ^ 31 / 2 ^ 23 := by omega
  have hfrac : b % 2 ^ 23 = b % 2 ^ 31 % 2 ^ 23 := by omega
  have hquiet : b.testBit 22 = (b % 2 ^ 31 % 2 ^ 23 / 2 ^ 22 == 1) := by
    rw [Nat.testBit_eq_decide_div_mod_eq, Bool.eq_iff_iff, decide_eq_true_iff, beq_iff_eq]
    omega
  have hsubn : isSubnormal .fp32 b = (b % 2 ^ 31 != 0 && b % 2 ^ 31 / 2 ^ 23 == 0) := rfl
  rw [fval_fp32, fClass, hsubn, hneg, hexp, hfrac, hquiet]
  have hmag : b % 2 ^ 31 < 2 ^ 31 := Nat.mod_lt _ (by decide)
  generalize b % 2 ^ 31 = mag at hmag ⊢
  generalize (b / 2 ^ 31 == 1) = neg
  by_cases hspecial : 0x7F7FFFFF < mag
  · have h255 : mag / 2 ^ 23 = 255 := by omega
    by_cases hinf : mag = 0x7F800000
    · subst hinf
      cases neg <;> rfl
    · have hnan : mag % 2 ^ 23 ≠ 0 := by omega
      simp only [hspecial, hinf, h255, beq_self_eq_true, beq_false_of_ne hnan, if_true, if_false, Bool.false_eq_true]
      split_ifs <;> rfl
  · have h255 : mag / 2 ^ 23 ≠ 255 := by omega
    by_cases hsub : mag / 2 ^ 23 = 0
    · have hmod : mag % 2 ^ 23 = mag := by omega
      by_cases hzero : mag = 0
      · subst hzero
        cases neg <;> rfl
      · simp only [hspecial, hsub, hmod, hzero, beq_self_eq_true, beq_false_of_ne hzero, bne, Bool.not_false, Bool.and_self, if_true, if_false,
          Bool.false_eq_true]
        cases neg <;> rfl
    · have hsig : 2 ^ 23 + mag % 2 ^ 23 ≠ 0 := by omega
      simp only [hspecial, hsub, hsig, beq_false_of_ne h255, beq_false_of_ne hsub, Bool.and_false, if_false, Bool.false_eq_true]
      cases neg <;> rfl

end Sys2Proof.Machine
end

section
/-! PROOF. The FP32 forms (R309, R310, R314 to R317): each sends what its function gives of its prepared operands; the approximate functions
take their exact values (Tables 14.5 and 14.6) whatever their free values are. -/

namespace Sys2Proof.Machine

/-! ## Exact values of the approximate functions -/

/-- A significand that is a power of two at its exponent. -/
theorem eq_two_pow_of_mul_zpow {m : Nat} {e k : Int} (h : (m : Rat) * (2 : Rat) ^ e = (2 : Rat) ^ k) : m = 2 ^ m.log2 ∧ e + m.log2 = k := by
  have hm : m ≠ 0 := by
    rintro rfl
    rw [Nat.cast_zero, zero_mul] at h
    exact (zpow_pos (two_pos (α := Rat)) k).ne h
  have hk : e + m.log2 = k := by
    have hlog := congrArg (Int.log 2) h
    have hpow : Int.log 2 ((2 : Rat) ^ k) = k := by exact_mod_cast Int.log_zpow (R := Rat) one_lt_two k
    rw [log_mul_zpow (by positivity), Int.log_natCast, hpow, ← Nat.log2_eq_log_two] at hlog
    omega
  refine ⟨?_, hk⟩
  rw [← hk, zpow_add₀ two_ne_zero, mul_comm, mul_right_inj' (zpow_ne_zero e two_ne_zero)] at h
  exact_mod_cast h

/-- A power of two, rounded. -/
theorem roundVal_two_zpow (m : RMode) (ftz n : Bool) (k : Int) :
    roundVal .fp32 m ftz false (.fin n 1 k) = roundExact .fp32 m ftz false (signed n ((2 : Rat) ^ k)) := by
  rw [roundVal_fin _ _ _ _ _ one_ne_zero, Nat.cast_one, one_mul]

section Approximate

variable {x : Nat} {ftz : Bool}

theorem approximate_nan (fn : Config.ApproxFn) (hx : fval .fp32 x = .nan) : approximate fn ftz x = 0x7FC00000 := by
  cases fn <;> simp only [approximate, hx] <;> rfl

/-- The approximate functions of an infinity (Table 14.6). -/
theorem approximate_inf {n : Bool} (hx : fval .fp32 x = .inf n) :
    approximate .rcp ftz x = withSign .fp32 n 0 ∧ approximate .rsq ftz x = (if n then 0x7FC00000 else 0) ∧
    approximate .ex2 ftz x = (if n then 0 else 0x7F800000) ∧ approximate .lg2 ftz x = (if n then 0x7FC00000 else 0x7F800000) ∧
    approximate .sin ftz x = 0x7FC00000 ∧ approximate .cos ftz x = 0x7FC00000 := by
  refine ⟨?_, ?_, ?_, ?_, ?_, ?_⟩ <;> simp only [approximate, hx] <;> rfl

variable {n : Bool} {m : Nat} {e : Int} (hx : fval .fp32 x = .fin n m e)

include hx

/-- FRCP, FRSQ, FLG2, FSIN and FCOS of a zero (Table 14.6). -/
theorem approximate_zero (hm : m = 0) :
    approximate .rcp ftz x = infCode .fp32 false n ∧ approximate .rsq ftz x = infCode .fp32 false n ∧ approximate .lg2 ftz x = infCode .fp32 false true ∧
    approximate .sin ftz x = withSign .fp32 n 0 ∧ approximate .cos ftz x = 0x3F800000 := by
  subst hm
  simp only [approximate, hx]
  exact ⟨rfl, rfl, rfl, rfl, rfl⟩

/-- FRSQ and FLG2 of a negative value (Table 14.6). -/
theorem approximate_negative (hm : m ≠ 0) (hn : n = true) : approximate .rsq ftz x = 0x7FC00000 ∧ approximate .lg2 ftz x = 0x7FC00000 := by
  subst hn
  simp only [approximate, hx, beq_false_of_ne hm]
  exact ⟨rfl, rfl⟩

/-- FRCP of a power of two is exact where it is a normal number (Table 14.5). -/
theorem approximate_rcp_two_zpow {k : Int} (hk : (m : Rat) * (2 : Rat) ^ e = (2 : Rat) ^ k) (hlo : -126 ≤ -k) (hhi : -k ≤ 127) :
    approximate .rcp ftz x = roundExact .fp32 ⟨.rne, 0, 0⟩ ftz false (signed n ((2 : Rat) ^ (-k))) := by
  obtain ⟨hpow, rfl⟩ := eq_two_pow_of_mul_zpow hk
  have hm : m ≠ 0 := hpow ▸ (Nat.two_pow_pos _).ne'
  have hrange : (decide (-(e + m.log2) ≥ (-126 : Int)) && decide (-(e + m.log2) ≤ (127 : Int))) = true := by
    rw [Bool.and_eq_true, decide_eq_true_iff, decide_eq_true_iff]
    exact ⟨hlo, hhi⟩
  simp only [approximate, hx, beq_false_of_ne hm, beq_iff_eq.2 hpow, hrange, Bool.true_and, if_true, Bool.false_eq_true, if_false]
  exact roundVal_two_zpow _ _ _ _

/-- FRSQ of an even power of two is exact (Table 14.5). -/
theorem approximate_rsq_two_zpow {k : Int} (hn : n = false) (hk : (m : Rat) * (2 : Rat) ^ e = (2 : Rat) ^ (2 * k)) :
    approximate .rsq ftz x = roundExact .fp32 ⟨.rne, 0, 0⟩ ftz false ((2 : Rat) ^ (-k)) := by
  obtain ⟨hpow, hexp⟩ := eq_two_pow_of_mul_zpow hk
  have hm : m ≠ 0 := hpow ▸ (Nat.two_pow_pos _).ne'
  have hhalf : 2 * k / 2 = k := Int.mul_ediv_cancel_left k two_ne_zero
  have heven : (2 * k % 2 == 0) = true := beq_iff_eq.2 (Int.mul_emod_right 2 k)
  subst hn
  simp only [approximate, hx, hexp, hhalf, heven, beq_false_of_ne hm, beq_iff_eq.2 hpow, Bool.and_self, if_true, Bool.false_eq_true, if_false]
  exact roundVal_two_zpow _ _ false _

/-- FLG2 of a power of two that is a normal number is exact (Table 14.5). -/
theorem approximate_lg2_two_zpow {k : Int} (hn : n = false) (hk : (m : Rat) * (2 : Rat) ^ e = (2 : Rat) ^ k) (hlo : -126 ≤ k) :
    approximate .lg2 ftz x = (Exact.val false (k : Rat)).code .fp32 ⟨.rne, 0, 0⟩ ftz false := by
  obtain ⟨hpow, hexp⟩ := eq_two_pow_of_mul_zpow hk
  have hm : m ≠ 0 := hpow ▸ (Nat.two_pow_pos _).ne'
  subst hn
  simp only [approximate, hx, hexp, beq_false_of_ne hm, beq_iff_eq.2 hpow, hlo, decide_true, Bool.and_self, if_true, Bool.false_eq_true, if_false]
  rw [Exact.code]
  by_cases hk₀ : k = 0
  · subst hk₀
    rfl
  · rw [if_neg (by exact_mod_cast hk₀), roundVal_eq_code, code_fin, if_neg (Int.natAbs_ne_zero.2 hk₀), roundTo_int _ _ _ _ hk₀, zpow_zero, mul_one]

omit hx in
/-- The fraction of a value against a whole number. -/
theorem mul_le_fracOf_iff (c : Nat) : c * (fracOf m e).2 ≤ (fracOf m e).1 ↔ (c : Rat) ≤ m * (2 : Rat) ^ e := by
  have hden : (0 : Rat) < (fracOf m e).2 := by exact_mod_cast Nat.pos_of_ne_zero (fracOf_den_ne_zero m e)
  rw [← fracOf_div, le_div_iff₀ hden]
  exact_mod_cast Iff.rfl

omit hx in
theorem mul_lt_fracOf_iff (c : Nat) : c * (fracOf m e).2 < (fracOf m e).1 ↔ (c : Rat) < m * (2 : Rat) ^ e := by
  have hden : (0 : Rat) < (fracOf m e).2 := by exact_mod_cast Nat.pos_of_ne_zero (fracOf_den_ne_zero m e)
  rw [← fracOf_div, lt_div_iff₀ hden]
  exact_mod_cast Iff.rfl

/-- FEX2 from 128 up (Table 14.6). -/
theorem approximate_ex2_large (hn : n = false) (h : (128 : Rat) ≤ m * (2 : Rat) ^ e) : approximate .ex2 ftz x = 0x7F800000 := by
  have hle := (mul_le_fracOf_iff (m := m) (e := e) 128).2 (by exact_mod_cast h)
  subst hn
  simp only [approximate, hx, Bool.not_false, decide_eq_true hle, Bool.and_self, if_true]
  rfl

/-- FEX2 from -150 down, and below -126 with .ftz (Table 14.6). -/
theorem approximate_ex2_small (hn : n = true) (h : (150 : Rat) ≤ m * (2 : Rat) ^ e ∨ (ftz = true ∧ (126 : Rat) < m * (2 : Rat) ^ e)) :
    approximate .ex2 ftz x = 0 := by
  have hsmall : (decide (150 * (fracOf m e).2 ≤ (fracOf m e).1) || (ftz && decide (126 * (fracOf m e).2 < (fracOf m e).1))) = true := by
    rw [Bool.or_eq_true, Bool.and_eq_true, decide_eq_true_iff, decide_eq_true_iff]
    refine h.imp (fun h => (mul_le_fracOf_iff 150).2 (by exact_mod_cast h)) fun ⟨hf, h⟩ => ⟨hf, (mul_lt_fracOf_iff 126).2 (by exact_mod_cast h)⟩
  subst hn
  simp only [approximate, hx, hsmall, Bool.not_true, Bool.false_and, Bool.and_self, if_true, Bool.false_eq_true, if_false]

/-- FEX2 of a whole number from -126 to 127 is exact (Table 14.5). -/
theorem approximate_ex2_whole {k : Nat} (hk : (m : Rat) * (2 : Rat) ^ e = k) (hlo : n = true → k ≤ 126) (hhi : n = false → k ≤ 127) :
    approximate .ex2 ftz x = roundExact .fp32 ⟨.rne, 0, 0⟩ ftz false ((2 : Rat) ^ (if n then -(k : Int) else k)) := by
  have hden : 0 < (fracOf m e).2 := Nat.pos_of_ne_zero (fracOf_den_ne_zero m e)
  have hnum : (fracOf m e).1 = k * (fracOf m e).2 := by
    rw [← fracOf_div, div_eq_iff (by exact_mod_cast hden.ne')] at hk
    exact_mod_cast hk
  have hle (c : Nat) : decide (c * (fracOf m e).2 ≤ k * (fracOf m e).2) = decide (c ≤ k) :=
    decide_eq_decide.2 (Nat.mul_le_mul_right_iff hden)
  have hlt (c : Nat) : decide (c * (fracOf m e).2 < k * (fracOf m e).2) = decide (c < k) :=
    decide_eq_decide.2 (Nat.mul_lt_mul_right hden)
  have hceil : (k * (fracOf m e).2 + (fracOf m e).2 - 1) / (fracOf m e).2 = k := by
    rw [Nat.add_sub_assoc hden, Nat.mul_comm, Nat.mul_add_div hden, Nat.div_eq_of_lt (by omega), Nat.add_zero]
  cases n with
  | false =>
    have h₁ : decide (128 ≤ k) = false := decide_eq_false (by have := hhi rfl; omega)
    have h₂ : (-126 : Int) ≤ k := by omega
    simp only [approximate, hx, hnum, hle, h₁, h₂, Nat.mul_div_cancel _ hden, Nat.mul_mod_left, Bool.not_false, Bool.and_false, Bool.false_and,
      beq_self_eq_true, decide_true, Bool.and_self, if_true, Bool.false_eq_true, if_false]
    exact roundVal_two_zpow _ _ false _
  | true =>
    have h₁ : decide (150 ≤ k) = false := decide_eq_false (by have := hlo rfl; omega)
    have h₂ : decide (126 < k) = false := decide_eq_false (by have := hlo rfl; omega)
    have h₃ : (-126 : Int) ≤ -k := by have := hlo rfl; omega
    simp only [approximate, hx, hnum, hle, hlt, h₁, h₂, h₃, hceil, Nat.sub_self, Bool.not_true, Bool.and_false, Bool.false_and, Bool.or_self,
      beq_self_eq_true, decide_true, Bool.and_self, if_true, Bool.false_eq_true, if_false]
    exact roundVal_two_zpow _ _ false _

end Approximate

/-! ## Words -/

/-- The value of a word depends on its 32 bits only. -/
theorem fval_ofNat (b : Nat) : fval .fp32 (BitVec.ofNat 32 b).toNat = fval .fp32 b := by
  rw [BitVec.toNat_ofNat, fval_fp32, fval_fp32, Nat.mod_mod_of_dvd b (by decide : 2 ^ 31 ∣ 2 ^ 32)]
  have hsign : b % 2 ^ 32 / 2 ^ 31 % 2 = b / 2 ^ 31 % 2 := by omega
  rw [hsign]

/-- A prepared operand is an FP32 code (R309). -/
theorem prepare_lt {x : Nat} (hx : x < 2 ^ 32) (ftz absx negx : Bool) : prepare .fp32 ftz absx negx x < 2 ^ 32 := by
  have hflush {y : Nat} (hy : y < 2 ^ 32) : flushIn .fp32 ftz y < 2 ^ 32 := by
    unfold flushIn
    split_ifs
    · cases y / 2 ^ (Fmt.fp32.spec.width - 1) % 2 == 1 <;> decide
    · exact hy
  refine hflush ?_
  simp only [Fmt.spec]
  split_ifs <;> omega

theorem ofNat_withSign_zero (n : Bool) : BitVec.ofNat 32 (withSign .fp32 n 0) = zeroWord n := by cases n <;> rfl

theorem ofNat_infCode (n : Bool) : BitVec.ofNat 32 (infCode .fp32 false n) = infWord n := by cases n <;> rfl

theorem Sends32.congr {i : Instr} {s : State} {c : Issue} {f g : Nat → Word} (h : Sends32 i s c f) (hfg : ∀ l, f l = g l) : Sends32 i s c g :=
  funext hfg ▸ h

section Sends

variable {s : State} {c : Issue} {o : FltOp} (h : Issues s c)

include h

/-- A floating form sends its function of the prepared operands (R309). -/
theorem flt_sends {i : Instr} (f : Nat → Nat → Nat → Nat) (hi : exec i s = fltMeaning o s f) :
    Sends32 i s c fun l => BitVec.ofNat 32 (f (fltA o c l) (fltB o c l) (fltC o c l)) :=
  hi.trans (issuing_of_issues h)

/-- FADD, FSUB, FMUL, FFMA, FDIV and FLDEXP send their exact results, rounded once (R310). -/
theorem arithmetic_sends :
    let a (l : Nat) : Exact := (fval .fp32 (fltA o c l)).exact
    let b (l : Nat) : Exact := (fval .fp32 (fltB o c l)).exact
    let d (l : Nat) : Exact := (fval .fp32 (fltC o c l)).exact
    let round (x : Exact) : Word := BitVec.ofNat 32 (x.code .fp32 (fltMode o) o.ftz false)
    (Sends32 (.fadd o) s c fun l => round ((a l).add o.rnd (b l))) ∧
    (Sends32 (.fsub o) s c fun l => round ((a l).add o.rnd (b l).neg)) ∧
    (Sends32 (.fmul o) s c fun l => round ((a l).mul (b l))) ∧
    (Sends32 (.ffma o) s c fun l => round (((a l).mul (b l)).add o.rnd (d l))) ∧
    (Sends32 (.fdiv o) s c fun l => round ((a l).div (b l))) ∧
    (Sends32 (.fldexp o) s c fun l => round ((a l).scale (match o.imm with | some y => y.toInt | none => (c.w32 .b l).toInt))) := by
  refine ⟨?_, ?_, ?_, ?_, ?_, ?_⟩
  · exact (flt_sends h (fun a b _ => fAdd .fp32 (fltMode o) o.ftz (fval .fp32 a) (fval .fp32 b)) rfl).congr fun l =>
      congrArg (BitVec.ofNat 32) (fAdd_eq_code ..)
  · refine (flt_sends h (fun a b _ => fAdd .fp32 (fltMode o) o.ftz (fval .fp32 a) (fval .fp32 b).negate) rfl).congr fun l =>
      congrArg (BitVec.ofNat 32) ((fAdd_eq_code ..).trans ?_)
    rw [exact_negate]
    rfl
  · exact (flt_sends h (fun a b _ => fMul .fp32 (fltMode o) o.ftz (fval .fp32 a) (fval .fp32 b)) rfl).congr fun l =>
      congrArg (BitVec.ofNat 32) (fMul_eq_code ..)
  · exact (flt_sends h (fun a b d => fFma .fp32 (fltMode o) o.ftz (fval .fp32 a) (fval .fp32 b) (fval .fp32 d)) rfl).congr fun l =>
      congrArg (BitVec.ofNat 32) (fFma_eq_code ..)
  · exact (flt_sends h (fun a b _ => fDiv .fp32 (fltMode o) o.ftz (fval .fp32 a) (fval .fp32 b)) rfl).congr fun l =>
      congrArg (BitVec.ofNat 32) (fDiv_eq_code ..)
  · exact Sends32.congr (issuing_of_issues h) fun l => congrArg (BitVec.ofNat 32) (fLdexp_eq_code rfl ..)

end Sends

/-- The square root of an FP32 value: its special cases, and a root that lies between two rationals which round alike, or is one (R310). -/
theorem fSqrt_spec {m : RMode} (hm : m.n = 0) (ftz : Bool) (a : FVal) :
    (a.isNan = true ∨ (a.isNeg = true ∧ a.isZero = false) → fSqrt .fp32 m ftz a = 0x7FC00000) ∧
    (a.isZero = true → fSqrt .fp32 m ftz a = withSign .fp32 a.isNeg 0) ∧ (a = .inf false → fSqrt .fp32 m ftz a = infCode .fp32 false false) ∧
    (a.finite = true → 0 < a.rat → ∃ u v : Rat, 0 < u ∧ ((u = v ∧ u * u = a.rat) ∨ (u * u < a.rat ∧ a.rat < v * v ∧ 0 < v)) ∧
      fSqrt .fp32 m ftz a = roundExact .fp32 m ftz false u ∧ fSqrt .fp32 m ftz a = roundExact .fp32 m ftz false v) := by
  cases a with
  | nan => exact ⟨fun _ => rfl, nofun, nofun, nofun⟩
  | inf n => cases n <;> simp [fSqrt, FVal.isNan, FVal.isNeg, FVal.isZero, FVal.finite, nanCode, Fmt.spec]
  | fin n v e =>
    by_cases hv : v = 0
    · subst hv
      simp [fSqrt, FVal.isNan, FVal.isNeg, FVal.isZero, FVal.rat]
    · cases n with
      | false =>
        refine ⟨by simp [FVal.isNan, FVal.isNeg], by simp [FVal.isZero, hv], nofun, fun _ _ => ?_⟩
        rw [rat_fin]
        exact fSqrt_fin hm ftz hv e
      | true =>
        refine ⟨fun _ => by simp [fSqrt, hv, nanCode, Fmt.spec], by simp [FVal.isZero, hv], nofun, fun _ hpos => absurd hpos (not_lt.2 ?_)⟩
        rw [rat_fin]
        exact neg_nonpos.2 (by positivity)

/-- FRND of an FP32 code (R315). -/
theorem fRound_spec {m : RMode} (hm : m.r < 2 ^ m.n) (b : Nat) :
    ((fval .fp32 b).isNan = true → fRound m b = 0x7FC00000) ∧
    ((fval .fp32 b).isNan = false → (fval .fp32 b).finite = false ∨ 2 ^ 23 ≤ absRat (fval .fp32 b).rat → fRound m b = b) ∧
    ((fval .fp32 b).finite = true → absRat (fval .fp32 b).rat < 2 ^ 23 → (fval .fp32 (fRound m b)).finite = true ∧
      (fval .fp32 (fRound m b)).rat = roundWhole m (fval .fp32 b).rat ∧ (fval .fp32 (fRound m b)).isNeg = (fval .fp32 b).isNeg) := by
  cases hb : fval .fp32 b with
  | nan => exact ⟨fun _ => by rw [fRound, hb]; rfl, nofun, nofun⟩
  | inf n => exact ⟨nofun, fun _ _ => by rw [fRound, hb], nofun⟩
  | fin n v e =>
    have habs : absRat (FVal.fin n v e).rat = v * (2 : Rat) ^ e := by rw [rat_fin, absRat_signed (by positivity)]
    rw [habs]
    refine ⟨nofun, fun _ hlarge => fRound_of_large hb (hlarge.resolve_left nofun), fun _ hsmall => ?_⟩
    obtain ⟨k, j, hval, hrat⟩ := fval_fRound_of_small hb hm hsmall
    rw [hval]
    exact ⟨rfl, hrat, rfl⟩

/-- The word an approximate function sends for a prepared operand: the operand and .ftz alone fix it (R317). -/
def approxWord (fn : Config.ApproxFn) (ftz : Bool) (x : Nat) : Word := BitVec.ofNat 32 (approximate fn ftz x)

/-- FEX2 of a zero is 1 (Table 14.6). -/
theorem approximate_ex2_zero {x : Nat} {n : Bool} {m : Nat} {e : Int} (hx : fval .fp32 x = .fin n m e) (hm : m = 0) (ftz : Bool) :
    approximate .ex2 ftz x = 0x3F800000 := by
  rw [approximate_ex2_whole hx (k := 0) (by simp [hm]) (fun _ => Nat.zero_le _) (fun _ => Nat.zero_le _)]
  have hone := roundVal_two_zpow ⟨.rne, 0, 0⟩ ftz false 0
  rw [signed, if_neg Bool.false_ne_true] at hone
  simp only [Nat.cast_zero, neg_zero, ite_self, ← hone]
  cases ftz <;> rfl

section ApproxWord

variable {x : Nat} {ftz : Bool}

/-- The approximate functions of a zero (Table 14.6). -/
theorem approxWord_zero (h : (fval .fp32 x).isZero = true) :
    approxWord .rcp ftz x = infWord (fval .fp32 x).isNeg ∧ approxWord .rsq ftz x = infWord (fval .fp32 x).isNeg ∧ approxWord .ex2 ftz x = 0x3F800000 ∧
    approxWord .lg2 ftz x = infWord true ∧ approxWord .sin ftz x = zeroWord (fval .fp32 x).isNeg ∧ approxWord .cos ftz x = 0x3F800000 := by
  cases hx : fval .fp32 x with
  | nan => rw [hx] at h; cases h
  | inf n => rw [hx] at h; cases h
  | fin n m e =>
    rw [hx] at h
    have hm : m = 0 := beq_iff_eq.1 h
    obtain ⟨hrcp, hrsq, hlg2, hsin, hcos⟩ := approximate_zero (ftz := ftz) hx hm
    refine ⟨?_, ?_, ?_, ?_, ?_, ?_⟩ <;>
      simp only [approxWord, hrcp, hrsq, hlg2, hsin, hcos, approximate_ex2_zero hx hm ftz, ofNat_infCode, ofNat_withSign_zero] <;> rfl

/-- The approximate functions of an infinity (Table 14.6). -/
theorem approxWord_inf {n : Bool} (hx : fval .fp32 x = .inf n) :
    approxWord .rcp ftz x = zeroWord n ∧ approxWord .rsq ftz x = (if n then 0x7FC00000 else 0) ∧
    approxWord .ex2 ftz x = (if n then 0 else infWord false) ∧ approxWord .lg2 ftz x = (if n then 0x7FC00000 else infWord false) ∧
    approxWord .sin ftz x = 0x7FC00000 ∧ approxWord .cos ftz x = 0x7FC00000 := by
  obtain ⟨hrcp, hrsq, hex2, hlg2, hsin, hcos⟩ := approximate_inf (ftz := ftz) hx
  refine ⟨?_, ?_, ?_, ?_, ?_, ?_⟩ <;> simp only [approxWord, hrcp, hrsq, hex2, hlg2, hsin, hcos, ofNat_withSign_zero] <;> cases n <;> rfl

theorem approxWord_nan (h : (fval .fp32 x).isNan = true) (fn : Config.ApproxFn) : approxWord fn ftz x = 0x7FC00000 :=
  congrArg (BitVec.ofNat 32) (approximate_nan fn (FVal.eq_nan_of_isNan h))

variable (h : (fval .fp32 x).finite = true)

include h

/-- FRSQ and FLG2 of a negative value (Table 14.6). -/
theorem approxWord_negative (hneg : (fval .fp32 x).rat < 0) : approxWord .rsq ftz x = 0x7FC00000 ∧ approxWord .lg2 ftz x = 0x7FC00000 := by
  obtain ⟨n, m, e, hx⟩ := FVal.eq_fin_of_finite h
  rw [hx] at hneg
  obtain ⟨hn, hm, -⟩ := rat_of_neg hneg
  obtain ⟨hrsq, hlg2⟩ := approximate_negative (ftz := ftz) hx hm hn
  exact ⟨congrArg (BitVec.ofNat 32) hrsq, congrArg (BitVec.ofNat 32) hlg2⟩

/-- FEX2 from 128 up (Table 14.6). -/
theorem approxWord_ex2_large (hlarge : 128 ≤ (fval .fp32 x).rat) : approxWord .ex2 ftz x = infWord false := by
  obtain ⟨n, m, e, hx⟩ := FVal.eq_fin_of_finite h
  rw [hx] at hlarge
  obtain ⟨hn, hrat⟩ := rat_of_pos (lt_of_lt_of_le (by norm_num) hlarge)
  exact congrArg (BitVec.ofNat 32) (approximate_ex2_large hx hn (hrat ▸ hlarge))

/-- FEX2 from -150 down, and below -126 with .ftz (Table 14.6). -/
theorem approxWord_ex2_small (hsmall : (fval .fp32 x).rat ≤ -150 ∨ (ftz = true ∧ (fval .fp32 x).rat < -126)) : approxWord .ex2 ftz x = 0 := by
  obtain ⟨n, m, e, hx⟩ := FVal.eq_fin_of_finite h
  rw [hx] at hsmall
  have hneg : (FVal.fin n m e).rat < 0 := by
    rcases hsmall with hs | ⟨-, hs⟩ <;> linarith
  obtain ⟨hn, -, hrat⟩ := rat_of_neg hneg
  rw [hrat] at hsmall
  exact congrArg (BitVec.ofNat 32) (approximate_ex2_small hx hn (hsmall.imp (fun hs => by linarith) fun ⟨hf, hs⟩ => ⟨hf, by linarith⟩))

/-- FRCP of a power of two (Table 14.5). -/
theorem approxWord_rcp {k : Int} (hk : absRat (fval .fp32 x).rat = (2 : Rat) ^ k) (hlo : -126 ≤ -k) (hhi : -k ≤ 127) :
    approxWord .rcp ftz x = BitVec.ofNat 32 (roundExact .fp32 ⟨.rne, 0, 0⟩ ftz false (1 / (fval .fp32 x).rat)) := by
  obtain ⟨n, m, e, hx⟩ := FVal.eq_fin_of_finite h
  rw [hx, rat_fin, absRat_signed (by positivity)] at hk
  have hinv : 1 / (fval .fp32 x).rat = signed n ((2 : Rat) ^ (-k)) := by
    rw [hx, rat_fin, hk, zpow_neg]
    cases n <;> simp [signed]
  rw [approxWord, approximate_rcp_two_zpow hx hk hlo hhi, hinv]

/-- FRSQ of an even power of two (Table 14.5). -/
theorem approxWord_rsq {k : Int} (hk : (fval .fp32 x).rat = (2 : Rat) ^ (2 * k)) :
    approxWord .rsq ftz x = BitVec.ofNat 32 (roundExact .fp32 ⟨.rne, 0, 0⟩ ftz false ((2 : Rat) ^ (-k))) := by
  obtain ⟨n, m, e, hx⟩ := FVal.eq_fin_of_finite h
  rw [hx] at hk
  obtain ⟨hn, hrat⟩ := rat_of_pos (hk ▸ zpow_pos two_pos _)
  exact congrArg (BitVec.ofNat 32) (approximate_rsq_two_zpow hx hn (hrat.symm.trans hk))

/-- FEX2 of a whole number (Table 14.5). -/
theorem approxWord_ex2 {k : Int} (hk : (fval .fp32 x).rat = k) (hlo : -126 ≤ k) (hhi : k ≤ 127) :
    approxWord .ex2 ftz x = BitVec.ofNat 32 (roundExact .fp32 ⟨.rne, 0, 0⟩ ftz false ((2 : Rat) ^ k)) := by
  obtain ⟨n, m, e, hx⟩ := FVal.eq_fin_of_finite h
  rw [hx, rat_fin] at hk
  obtain ⟨j, hj, hkj⟩ : ∃ j : Nat, (m : Rat) * (2 : Rat) ^ e = j ∧ k = if n then -(j : Int) else j := by
    have hmag : (0 : Rat) ≤ m * (2 : Rat) ^ e := by positivity
    cases n with
    | false =>
      rw [signed, if_neg Bool.false_ne_true] at hk
      obtain ⟨j, rfl⟩ := Int.eq_ofNat_of_zero_le (by exact_mod_cast hk ▸ hmag : 0 ≤ k)
      exact ⟨j, hk, rfl⟩
    | true =>
      rw [signed, if_pos rfl, neg_eq_iff_eq_neg] at hk
      obtain ⟨j, hj⟩ := Int.eq_ofNat_of_zero_le (by exact_mod_cast hk ▸ hmag : 0 ≤ -k)
      exact ⟨j, by rw [hk]; exact_mod_cast hj, by rw [if_pos rfl]; omega⟩
  rw [approxWord, approximate_ex2_whole hx hj (fun hn => by rw [hkj, if_pos hn] at hlo; omega)
    (fun hn => by rw [hkj, if_neg (ne_true_of_eq_false hn)] at hhi; omega), ← hkj]

/-- FLG2 of a power of two (Table 14.5). -/
theorem approxWord_lg2 {k : Int} (hk : (fval .fp32 x).rat = (2 : Rat) ^ k) (hlo : -126 ≤ k) :
    approxWord .lg2 ftz x = BitVec.ofNat 32 ((Exact.val false (k : Rat)).code .fp32 ⟨.rne, 0, 0⟩ ftz false) := by
  obtain ⟨n, m, e, hx⟩ := FVal.eq_fin_of_finite h
  rw [hx] at hk
  obtain ⟨hn, hrat⟩ := rat_of_pos (hk ▸ zpow_pos two_pos _)
  exact congrArg (BitVec.ofNat 32) (approximate_lg2_two_zpow hx hn (hrat.symm.trans hk) hlo)

end ApproxWord

/-- Settles O17: each clause by the lemma of its function. -/
theorem floatFormsRoundOnce : Obligations.FloatFormsRoundOnce := by
  refine ⟨fun o s c h => ?_, fun o s c h => ⟨_, flt_sends h (fun a _ _ => fSqrt .fp32 (fltMode o) o.ftz (fval .fp32 a)) rfl, fun l => ?_⟩,
    fun o s c h => ⟨_, flt_sends h (fun a _ _ => fRound (fltMode o) a) rfl, fun l => ?_⟩, fun o s c h => ?_, fun ftz => ?_⟩
  · obtain ⟨hadd, hsub, hmul, hfma, hdiv, hldexp⟩ := arithmetic_sends (o := o) h
    refine ⟨hadd, hsub, hmul, hfma, hdiv, hldexp.congr fun l => ?_⟩
    beta_reduce
    cases (fval .fp32 (fltA o c l)).exact <;> rfl
  · obtain ⟨hnan, hzero, hinf, hpos⟩ := fSqrt_spec (m := fltMode o) rfl o.ftz (fval .fp32 (fltA o c l))
    refine ⟨fun h => congrArg _ (hnan h), fun h => ?_, fun h => congrArg _ (hinf h), fun hf h => ?_⟩
    · rw [hzero h, ofNat_withSign_zero]
    · obtain ⟨u, v, hu, huv, hru, hrv⟩ := hpos hf h
      exact ⟨u, v, hu, huv, congrArg _ hru, congrArg _ hrv⟩
  · obtain ⟨hnan, hlarge, hsmall⟩ := fRound_spec (m := fltMode o) Nat.one_pos (fltA o c l)
    simp only [fval_ofNat]
    exact ⟨fun h => congrArg _ (hnan h), fun h h' => congrArg _ (hlarge h h'), hsmall⟩
  · exact (flt_sends h (fun a _ _ => fClass a) rfl).congr fun l => fClass_eq (prepare_lt (c.w32 .a l).isLt _ _ _)
  · refine ⟨approxWord .rcp ftz, approxWord .rsq ftz, approxWord .ex2 ftz, approxWord .lg2 ftz, approxWord .sin ftz, approxWord .cos ftz,
      fun o s c hftz h => ?_, fun x _ => ⟨fun h => ?_, fun n => approxWord_inf, approxWord_zero, approxWord_negative, approxWord_ex2_large,
        fun h hs => approxWord_ex2_small h (.inl hs), fun h hf hs => approxWord_ex2_small h (.inr ⟨hf, hs⟩), fun k h => approxWord_rcp h,
        fun k h => approxWord_rsq h, fun k h => approxWord_ex2 h, fun k h => approxWord_lg2 h⟩⟩
    · subst hftz
      exact ⟨flt_sends h (fun a _ _ => approximate .rcp o.ftz a) rfl, flt_sends h (fun a _ _ => approximate .rsq o.ftz a) rfl,
        flt_sends h (fun a _ _ => approximate .ex2 o.ftz a) rfl, flt_sends h (fun a _ _ => approximate .lg2 o.ftz a) rfl,
        flt_sends h (fun a _ _ => approximate .sin o.ftz a) rfl, flt_sends h (fun a _ _ => approximate .cos o.ftz a) rfl⟩
    · simp only [List.forall_mem_cons, approxWord_nan h, List.not_mem_nil, false_imp_iff, implies_true, and_self]

end Sys2Proof.Machine
end

section
/-! PROOF. The conversion forms and RNG (R169 to R172, R318 to R327): one element's conversion, packed elements, DS8 bytes, block
scales and random words. -/

namespace Sys2Proof.Machine

/-! ## One element (R169, R170) -/

/-- An exact value to an integer format: rounded and clamped (R170). -/
def Exact.toInt (m : RMode) (lo hi : Int) : Exact → Int
  | .nan => 0
  | .inf n => if n then lo else hi
  | .val _ x => clampInt (roundWhole m x) lo hi

theorem floatToInt_eq_toInt {m : RMode} (hm : m.r < 2 ^ m.n) (lo hi : Int) (x : FVal) : floatToInt m lo hi x = x.exact.toInt m lo hi := by
  cases x with
  | nan => rfl
  | inf n => rfl
  | fin n v e => exact congrArg (clampInt · lo hi) (roundInt_fracOf hm n v e)

/-- An element is converted as R169 and R170 say of its exact value. -/
theorem convert_eq_convertExact {m : RMode} (hm : m.r < 2 ^ m.n) (src dst : Fmt) (ftz sat : Bool) (b : Nat) :
    convert src dst m ftz sat b = convertExact src dst m ftz sat b := by
  unfold convert convertExact
  cases hs : src.intRange with
  | none =>
    cases hd : dst.intRange with
    | none =>
      by_cases h : src = .e8m0
      · simp [h, roundVal_eq_code]
      · simp [h, roundVal_eq_code]
    | some r =>
      simp only [floatToInt_eq_toInt hm, reduceCtorEq, and_false, if_false]
      cases (fval src (flushIn src ftz (b % 2 ^ src.width))).exact <;> rfl
  | some q =>
    cases hd : dst.intRange with
    | none =>
      by_cases hv : intVal src (b % 2 ^ src.width) = 0
      · simp [hv, Exact.code, withSign]
      · simp [hv, Exact.code, roundTo_int]
    | some r => simp [apply_ite (intBits · dst.width)]

/-! ## Packed elements -/

/-- A field of a word. -/
theorem extractLsb'_ofNat {w start len : Nat} (h : start + len ≤ w) (x : Nat) :
    (BitVec.ofNat w x).extractLsb' start len = BitVec.ofNat len (x / 2 ^ start) := by
  ext i hi
  have hlt : start + i < w := by omega
  simp only [← BitVec.getLsbD_eq_getElem, BitVec.getLsbD_extractLsb', BitVec.getLsbD_ofNat, Nat.testBit_div_two_pow, hi, hlt, decide_true, Bool.true_and,
    Nat.add_comm i]

/-- The fields of a word that is built of them (R322). -/
theorem foldl_digits (w : Nat) (d : Nat → Nat) (n : Nat) :
    let x := (List.range n).foldl (fun r j => r + d j % 2 ^ w * 2 ^ (w * j)) 0
    x < 2 ^ (w * n) ∧ ∀ j < n, x / 2 ^ (w * j) % 2 ^ w = d j % 2 ^ w := by
  induction n with
  | zero => exact ⟨by simp, nofun⟩
  | succ n ih =>
    obtain ⟨hlt, hdigit⟩ := ih
    rw [List.range_succ, List.foldl_append]
    simp only [List.foldl_cons, List.foldl_nil]
    generalize (List.range n).foldl (fun r j => r + d j % 2 ^ w * 2 ^ (w * j)) 0 = x at hlt hdigit ⊢
    have htop := Nat.mod_lt (d n) (Nat.two_pow_pos w)
    refine ⟨?_, fun j hj => ?_⟩
    · calc x + d n % 2 ^ w * 2 ^ (w * n) < 2 ^ (w * n) + d n % 2 ^ w * 2 ^ (w * n) := Nat.add_lt_add_right hlt _
        _ = (d n % 2 ^ w + 1) * 2 ^ (w * n) := by ring
        _ ≤ 2 ^ w * 2 ^ (w * n) := Nat.mul_le_mul_right _ htop
        _ = 2 ^ (w * (n + 1)) := by rw [← pow_add]; ring_nf
    · rcases Nat.lt_succ_iff_lt_or_eq.1 hj with hj | rfl
      · obtain ⟨k, rfl⟩ := Nat.exists_eq_add_of_lt hj
        have hsplit : d (j + k + 1) % 2 ^ w * 2 ^ (w * (j + k + 1)) = 2 ^ (w * j) * (2 ^ w * (2 ^ (w * k) * (d (j + k + 1) % 2 ^ w))) := by
          ring
        rw [hsplit, Nat.add_mul_div_left _ _ (Nat.two_pow_pos _), Nat.add_mul_mod_self_left, hdigit j (by omega)]
      · rw [Nat.add_mul_div_right _ _ (Nat.two_pow_pos _), Nat.div_eq_of_lt hlt, Nat.zero_add, Nat.mod_mod]

/-- A number modulo 2^w, as a word of w bits. -/
theorem ofNat_mod_two_pow (w x : Nat) : BitVec.ofNat w (x % 2 ^ w) = BitVec.ofNat w x := by
  apply BitVec.eq_of_toNat_eq
  rw [BitVec.toNat_ofNat, BitVec.toNat_ofNat, Nat.mod_mod]

/-- The elements of a PACK stand in ascending order: those of a, then those of b (R322). -/
theorem extractLsb'_packWords (o : CvtOp) (a b j : Nat) (hj : j < 2 * (32 / o.src.width)) (hfit : o.dst.width * (j + 1) ≤ 128) :
    (BitVec.ofNat 128 (packWords o a b)).extractLsb' (o.dst.width * j) o.dst.width = BitVec.ofNat o.dst.width
      (convertExact o.src o.dst ⟨o.rnd, 0, 0⟩ o.ftz o.sat
        ((if j < 32 / o.src.width then a else b) / 2 ^ (o.src.width * (j % (32 / o.src.width))) % 2 ^ o.src.width)) := by
  obtain ⟨-, hdigit⟩ := foldl_digits o.dst.width
    (fun j => cvtElem o (if j < 32 / o.src.width then elemOf o.src a j else elemOf o.src b (j - 32 / o.src.width))) (2 * (32 / o.src.width))
  rw [extractLsb'_ofNat (by rwa [← Nat.mul_succ]), ← ofNat_mod_two_pow]
  refine (congrArg _ (hdigit j hj)).trans ((ofNat_mod_two_pow _ _).trans (congrArg _ ?_))
  rw [cvtElem, convert_eq_convertExact Nat.one_pos]
  congr 1
  split_ifs with hk
  · rw [elemOf, Nat.mod_eq_of_lt hk]
  · have hmod : j % (32 / o.src.width) = j - 32 / o.src.width := by
      rw [Nat.mod_eq_sub_mod (not_lt.1 hk), Nat.mod_eq_of_lt (by omega)]
    rw [elemOf, hmod]

/-- CVT.SR of a destination narrower than a word: a pair of elements, each with 16 random bits (R320). -/
theorem extractLsb'_cvtSrWord (o : CvtOp) (a ax r j : Nat) (hd : o.dst.width < 32) (hj : j < 2) :
    (BitVec.ofNat 32 (cvtSrWord o a ax r)).extractLsb' (o.dst.width * j) o.dst.width = BitVec.ofNat o.dst.width
      (convertExact o.src o.dst ⟨.sr, r / 2 ^ (16 * j) % 2 ^ 16, 16⟩ o.ftz o.sat
        (if o.src.width = 32 then (if j = 0 then a else ax) else a / 2 ^ (o.src.width * j) % 2 ^ o.src.width)) := by
  have hwidth : o.dst.width ≤ 16 := by cases hdst : o.dst <;> simp [hdst, Fmt.width] at hd ⊢
  have hfit : o.dst.width * j + o.dst.width ≤ 32 := by
    have := Nat.mul_le_mul_left o.dst.width (Nat.le_of_lt_succ hj)
    omega
  have helem (j : Nat) : convert o.src o.dst ⟨.sr, bitsOf r (16 * j + 15) (16 * j), 16⟩ o.ftz o.sat
      (if o.src.width = 32 then (if j = 0 then a else ax) else elemOf o.src a j) = convertExact o.src o.dst ⟨.sr, r / 2 ^ (16 * j) % 2 ^ 16, 16⟩ o.ftz o.sat
      (if o.src.width = 32 then (if j = 0 then a else ax) else a / 2 ^ (o.src.width * j) % 2 ^ o.src.width) := by
    rw [bitsOf, Nat.sub_eq_of_eq_add (by omega : 16 * j + 15 + 1 = 16 + 16 * j)]
    exact convert_eq_convertExact (m := ⟨.sr, _, 16⟩) (Nat.mod_lt _ (Nat.two_pow_pos 16)) _ _ _ _ _
  obtain ⟨-, hdigit⟩ := foldl_digits o.dst.width (fun j => convertExact o.src o.dst ⟨.sr, r / 2 ^ (16 * j) % 2 ^ 16, 16⟩ o.ftz o.sat
    (if o.src.width = 32 then (if j = 0 then a else ax) else a / 2 ^ (o.src.width * j) % 2 ^ o.src.width)) 2
  rw [extractLsb'_ofNat hfit, ← ofNat_mod_two_pow, ← ofNat_mod_two_pow _ (convertExact ..), ← hdigit j hj, cvtSrWord, if_neg hd.ne]
  refine congrArg (fun x => BitVec.ofNat o.dst.width (x / 2 ^ (o.dst.width * j) % 2 ^ o.dst.width))
    ((congrArg₂ (fun u v => u % 2 ^ o.dst.width + v % 2 ^ o.dst.width * 2 ^ o.dst.width) (helem 0) (helem 1)).trans ?_)
  simp [List.range_succ]

/-! ## DS8 bytes (R163, R324) -/

/-- The magnitudes of V, worked out (R324). -/
theorem ds8Mags_eq : ds8Mags = [0, 1, 2, 3, 4, 5, 6, 7, 8, 9, 10, 12, 14, 15, 16, 17, 18, 20, 24, 28, 30, 31, 32, 33, 34, 36, 40, 48, 56, 60, 62, 63,
    64, 65, 66, 68, 72, 80, 96, 128] := by
  decide

/-- Every W of V has its canonical byte, of either sign. -/
theorem ds8Val_ds8Canon : ∀ w ∈ ds8Mags, ∀ n : Bool,
    ds8Canon (if n then -(w : Int) else w) < 256 ∧ ds8Val (ds8Canon (if n then -(w : Int) else w)) = if n then -(w : Int) else w := by
  rw [ds8Mags_eq]
  decide

theorem natAbs_ds8Half_add_mem : ∀ p < 16, ∀ q < 16, (ds8Half p + ds8Half q).natAbs ∈ ds8Mags := by
  rw [ds8Mags_eq]
  decide

/-- The values of the bytes are those of V. -/
theorem natAbs_ds8Val_mem (b : Nat) : (ds8Val b).natAbs ∈ ds8Mags :=
  natAbs_ds8Half_add_mem _ (Nat.mod_lt _ (by decide)) _ (Nat.mod_lt _ (by decide))

/-- V rises, up to 128. -/
theorem pairwise_ds8Mags : (0 :: ds8Mags).Pairwise (· ≤ ·) ∧ ∀ w ∈ ds8Mags, w ≤ 128 := by
  rw [ds8Mags_eq]
  decide

/-- The first least of a rising list of numbers, searched from one at or below them. -/
theorem foldl_least {dist : Nat → Nat} {l : List Nat} {b : Nat} (hl : (b :: l).Pairwise (· ≤ ·)) :
    let r := l.foldl (fun b w => if dist w < dist b then w else b) b
    r ∈ b :: l ∧ ∀ w ∈ b :: l, dist r ≤ dist w ∧ (dist r = dist w → r ≤ w) := by
  induction l generalizing b with
  | nil => simp
  | cons v l ih =>
    obtain ⟨hb, hvl⟩ := List.pairwise_cons.1 hl
    obtain ⟨-, hl'⟩ := List.pairwise_cons.1 hvl
    have hbv : b ≤ v := hb v List.mem_cons_self
    rw [List.foldl_cons]
    by_cases h : dist v < dist b
    · obtain ⟨hmem, hleast⟩ := ih hvl
      obtain ⟨hle, -⟩ := hleast v List.mem_cons_self
      simp only [h, if_true]
      refine ⟨List.mem_cons_of_mem _ hmem, List.forall_mem_cons.2 ⟨⟨hle.trans h.le, fun heq => ?_⟩, hleast⟩⟩
      exact absurd heq (hle.trans_lt h).ne
    · obtain ⟨hmem, hleast⟩ := ih (List.pairwise_cons.2 ⟨fun w hw => hb w (List.mem_cons_of_mem _ hw), hl'⟩)
      obtain ⟨hbest, hrest⟩ := List.forall_mem_cons.1 hleast
      obtain ⟨hle, htie⟩ := hbest
      simp only [h, if_false]
      refine ⟨?_, List.forall_mem_cons.2 ⟨⟨hle, htie⟩, List.forall_mem_cons.2 ⟨⟨hle.trans (not_lt.1 h), fun heq => ?_⟩, hrest⟩⟩⟩
      · exact (List.mem_cons.1 hmem).elim (fun h => by rw [h]; exact List.mem_cons_self) fun h => List.mem_cons_of_mem _ (List.mem_cons_of_mem _ h)
      · exact (htie (le_antisymm hle (heq ▸ not_lt.1 h))).trans hbv

/-- A magnitude of V nearest to another, of two such the lesser (R324). -/
def NearestDs8 (a : Rat) (w : Nat) : Prop := w ∈ ds8Mags ∧ ∀ v ∈ ds8Mags, |a - w| ≤ |a - v| ∧ (|a - w| = |a - v| → w ≤ v)

/-- From 128 up the nearest is 128. -/
theorem nearestDs8_of_large {a : Rat} (ha : 128 ≤ a) : NearestDs8 a 128 := by
  refine ⟨by simp [ds8Mags_eq], fun v hv => ?_⟩
  have hv : (v : Rat) ≤ 128 := by exact_mod_cast pairwise_ds8Mags.2 v hv
  rw [Nat.cast_ofNat, abs_of_nonneg (by linarith), abs_of_nonneg (by linarith)]
  refine ⟨by linarith, fun heq => ?_⟩
  exact_mod_cast (by linarith : (128 : Rat) ≤ v)

/-- The distance of a number from a fraction, by its numerator. -/
theorem natAbs_sub_mul (n w : Nat) {d : Nat} (hd : d ≠ 0) : ((((n : Int) - (w * d : Nat)).natAbs : Nat) : Rat) = |(n : Rat) / d - w| * d := by
  have hd₀ : (0 : Rat) < d := by positivity
  rw [Nat.cast_natAbs, Int.cast_abs, ← abs_of_pos hd₀, ← abs_mul, abs_of_pos hd₀, sub_mul, div_mul_cancel₀ _ hd₀.ne']
  push_cast
  rfl

/-- The first number of V at the least distance from a fraction is the nearest. -/
theorem nearestDs8_foldl (n : Nat) {d : Nat} (hd : d ≠ 0) : NearestDs8 ((n : Rat) / d) (ds8Mags.foldl
    (fun b w => if ((n : Int) - (w * d : Nat)).natAbs < ((n : Int) - (b * d : Nat)).natAbs then w else b) 0) := by
  have hd₀ : (0 : Rat) < d := by positivity
  obtain ⟨hmem, hleast⟩ := foldl_least (dist := fun w => ((n : Int) - (w * d : Nat)).natAbs) pairwise_ds8Mags.1
  generalize ds8Mags.foldl _ 0 = r at hmem hleast ⊢
  refine ⟨(List.mem_cons.1 hmem).elim (fun h => by simp [h, ds8Mags_eq]) id, fun v hv => ?_⟩
  obtain ⟨hle, htie⟩ := hleast v (List.mem_cons_of_mem _ hv)
  constructor
  · rw [← mul_le_mul_iff_left₀ hd₀, ← natAbs_sub_mul n r hd, ← natAbs_sub_mul n v hd]
    exact_mod_cast hle
  · intro heq
    refine htie ?_
    have hmul := congrArg (· * (d : Rat)) heq
    rw [← natAbs_sub_mul n r hd, ← natAbs_sub_mul n v hd] at hmul
    exact_mod_cast hmul

/-- DSENC of a finite value: the canonical byte of the nearest magnitude of V to 64 times its own, with its sign (R324). -/
theorem dsEncode_fin (n : Bool) (m : Nat) (e : Int) :
    ∃ w : Nat, dsEncode (.fin n m e) = ds8Canon (if n then -(w : Int) else w) ∧ NearestDs8 (m * (2 : Rat) ^ (e + 6)) w := by
  by_cases hbig : 128 * (fracOf m (e + 6)).2 ≤ (fracOf m (e + 6)).1
  · refine ⟨128, if_pos hbig, nearestDs8_of_large ?_⟩
    exact_mod_cast (mul_le_fracOf_iff 128).1 hbig
  · refine ⟨_, if_neg hbig, ?_⟩
    rw [← fracOf_div]
    exact nearestDs8_foldl _ (fracOf_den_ne_zero _ _)

/-- DSENC gives a byte whose value is nearest 64 times the operand, of two such the one of lesser magnitude (R324). -/
theorem dsEncode_nearest (n : Bool) (m : Nat) (e : Int) : dsEncode (.fin n m e) < 256 ∧ ∀ b,
    absRat (64 * (FVal.fin n m e).rat - ds8Val (dsEncode (.fin n m e))) ≤ absRat (64 * (FVal.fin n m e).rat - ds8Val b) ∧
    (absRat (64 * (FVal.fin n m e).rat - ds8Val (dsEncode (.fin n m e))) = absRat (64 * (FVal.fin n m e).rat - ds8Val b) →
      (ds8Val (dsEncode (.fin n m e))).natAbs ≤ (ds8Val b).natAbs) := by
  obtain ⟨w, henc, hw, hnear⟩ := dsEncode_fin n m e
  obtain ⟨hlt, hval⟩ := ds8Val_ds8Canon w hw n
  have hx : 64 * (FVal.fin n m e).rat = signed n (m * (2 : Rat) ^ (e + 6)) := by
    rw [rat_fin, zpow_add₀ two_ne_zero]
    cases n <;> simp [signed] <;> ring
  have hmag : (0 : Rat) ≤ m * (2 : Rat) ^ (e + 6) := by positivity
  generalize (m : Rat) * (2 : Rat) ^ (e + 6) = a at hx hmag hnear
  have hself : |signed n a - ((if n then -(w : Int) else w : Int) : Rat)| = |a - w| := by
    cases n with
    | false => simp [signed]
    | true => simp [signed, neg_add_eq_sub, abs_sub_comm]
  rw [henc, hx]
  refine ⟨hlt, fun b => ?_⟩
  obtain ⟨hle, htie⟩ := hnear _ (natAbs_ds8Val_mem b)
  have hother : |a - (ds8Val b).natAbs| ≤ |signed n a - ds8Val b| := by
    have habs : |signed n a| = a := by rw [← absRat_eq_abs, absRat_signed hmag]
    have hcast : (((ds8Val b).natAbs : Nat) : Rat) = |(ds8Val b : Rat)| := by rw [Nat.cast_natAbs, Int.cast_abs]
    have htri := abs_abs_sub_abs_le (signed n a) (ds8Val b)
    rwa [habs, ← hcast] at htri
  rw [hval, absRat_eq_abs, absRat_eq_abs, hself]
  refine ⟨hle.trans hother, fun heq => ?_⟩
  have hw' : (if n then -(w : Int) else w : Int).natAbs = w := by cases n <;> simp
  rw [hw']
  exact htie (le_antisymm hle (heq ▸ hother))

theorem dsEncode_inf (n : Bool) : dsEncode (.inf n) < 256 ∧ ds8Val (dsEncode (.inf n)) = if n then -128 else 128 := by
  cases n <;> decide

/-- What DSENC gives of any value (R324). -/
theorem dsEncode_spec (x : FVal) : dsEncode x < 256 ∧ (x = .nan → dsEncode x = 0x77) ∧
    (∀ n, x = .inf n → ds8Val (dsEncode x) = if n then -128 else 128) ∧
    (x.finite = true → ∀ b, absRat (64 * x.rat - ds8Val (dsEncode x)) ≤ absRat (64 * x.rat - ds8Val b) ∧
      (absRat (64 * x.rat - ds8Val (dsEncode x)) = absRat (64 * x.rat - ds8Val b) → (ds8Val (dsEncode x)).natAbs ≤ (ds8Val b).natAbs)) := by
  cases x with
  | nan => exact ⟨by decide, fun _ => rfl, nofun, nofun⟩
  | inf n => exact ⟨(dsEncode_inf n).1, nofun, fun k hk => by cases hk; exact (dsEncode_inf n).2, nofun⟩
  | fin n m e => exact ⟨(dsEncode_nearest n m e).1, nofun, nofun, fun _ => (dsEncode_nearest n m e).2⟩

/-- DSDEC rounds W / 64 to the destination; a zero has no sign (R325). -/
theorem dsdec_code (f : Fmt) (m : RMode) (w : Int) : (if w.natAbs == 0 then 0 else roundVal f m false false (.fin (decide (w < 0)) w.natAbs (-6))) =
    (Exact.val false ((w : Rat) / 64)).code f m false false := by
  by_cases hw : w = 0
  · subst hw
    simp [Exact.code, withSign]
  · have hexact : (w : Rat) * (2 : Rat) ^ (-6 : Int) = w / 64 := by norm_num [div_eq_mul_inv]
    have hw' : (w : Rat) / 64 ≠ 0 := by rw [div_ne_zero_iff]; exact ⟨by exact_mod_cast hw, by norm_num⟩
    rw [if_neg (by simpa using hw), roundVal_fin _ _ _ _ _ (Int.natAbs_ne_zero.2 hw), signed_natAbs_mul, hexact, Exact.code, if_neg hw']

/-! ## Block scales (R326, R327) -/

theorem clampInt_eq (v : Int) {lo hi : Int} (h : lo ≤ hi) : clampInt v lo hi = min hi (max lo v) := by
  unfold clampInt
  split_ifs <;> omega

/-- The logarithm of a value's magnitude (R326). -/
theorem ratLog2_fin (n : Bool) {m : Nat} (hm : m ≠ 0) (e : Int) : ratLog2 (absRat (FVal.fin n m e).rat) = m.log2 + e := by
  have hm₀ : (0 : Rat) < m := by positivity
  rw [rat_fin, absRat_signed (by positivity), ratLog2_eq_log (by positivity), log_mul_zpow hm₀, Int.log_natCast, Nat.log2_eq_log_two]

/-- SCALEQ's byte for a finite value (R326). -/
theorem scaleFor_fin (n : Bool) (m : Nat) (e : Int) (t : Nat) : BitVec.ofNat 32 (scaleFor (.fin n m e) t) =
    if t ≠ 7 ∧ t ≠ 9 then 0xFF else if m = 0 then 0x7F
    else BitVec.ofInt 32 (clampInt (ratLog2 (absRat (FVal.fin n m e).rat) - (if t = 7 then 6 else 0) + 127) 0 254) := by
  by_cases ht : t ≠ 7 ∧ t ≠ 9
  · simp [scaleFor, ht]
  · by_cases hm : m = 0
    · simp [scaleFor, ht, hm]
    · rw [ratLog2_fin n hm, clampInt_eq _ (by decide), if_neg ht, if_neg hm]
      have hcond : (t != 7 && t != 9) = false := by simpa [Bool.and_eq_false_iff, imp_iff_not_or] using ht
      obtain ⟨z, hz⟩ := Int.eq_ofNat_of_zero_le (by omega : 0 ≤ min 254 (max 0 ((m.log2 : Int) + e - (if t = 7 then 6 else 0) + 127)))
      simp only [scaleFor, hcond, beq_false_of_ne hm, beq_iff_eq, Bool.false_eq_true, if_false]
      rw [hz, Int.toNat_natCast, BitVec.ofInt_natCast]

/-- An integer of 8 bits, sign-extended from its byte (R327). -/
theorem placeResult_int8 {v : Int} (hlo : -128 ≤ v) (hhi : v ≤ 127) : placeResult .int8 (intBits v 8) = BitVec.ofInt 32 v := by
  have hv : intVal .int8 (intBits v 8) = v := by
    simp only [intVal, intBits, Fmt.width, Fmt.signedInt, Bool.true_and]
    norm_num
    split_ifs <;> omega
  rw [placeResult, hv]

theorem placeResult_int8_clamp (v : Int) : placeResult .int8 (intBits (clampInt v (-128) 127) 8) = BitVec.ofInt 32 (clampInt v (-128) 127) := by
  refine placeResult_int8 ?_ ?_ <;> rw [clampInt_eq _ (by decide)] <;> omega

/-- A byte in a 32-bit token. -/
theorem toNat_placeResult_nat8 {b : Nat} (hb : b < 256) : (placeResult .nat8 b).toNat = b :=
  (BitVec.toNat_ofNat _ _).trans (by omega : b % 2 ^ 8 % 2 ^ 32 = b)

section Quant

variable {m : RMode} {x : FVal} {e : Nat}

/-- QUANT of a NaN, or by the scale that is none (R327). -/
theorem quantise_nan (toInt8 : Bool) (he : e < 256) (h : x.isNan = true ∨ e = 255) : quantise toInt8 m x e = if toInt8 then 0 else 0x77 := by
  unfold quantise
  rw [Nat.mod_eq_of_lt he]
  exact if_pos (by simpa using h)

variable (he : e < 256) (he' : e ≠ 255)

include he he'

/-- QUANT of an infinity encodes it (R327). -/
theorem quantise_inf (toInt8 n : Bool) :
    quantise toInt8 m (.inf n) e = if toInt8 then intBits (if n then -128 else 127) 8 else dsEncode (.inf n) := by
  unfold quantise
  rw [Nat.mod_eq_of_lt he]
  exact if_neg (by simpa [FVal.isNan] using he')

/-- QUANT of a finite value encodes it divided by its scale (R327). -/
theorem quantise_fin (toInt8 n : Bool) (v : Nat) (k : Int) : quantise toInt8 m (.fin n v k) e =
    if toInt8 then intBits (floatToInt m (-128) 127 (.fin n v (k + 127 - e))) 8 else dsEncode (.fin n v (k + 127 - e)) := by
  unfold quantise
  rw [Nat.mod_eq_of_lt he]
  exact if_neg (by simpa [FVal.isNan] using he')

omit he he' in
/-- A value divided by its scale. -/
theorem rat_scaled (n : Bool) (v : Nat) (k : Int) (e : Nat) : (FVal.fin n v (k + 127 - e)).rat = (FVal.fin n v k).rat * (2 : Rat) ^ (127 - (e : Int)) := by
  rw [rat_fin, rat_fin, add_sub_assoc, zpow_add₀ two_ne_zero]
  cases n <;> simp [signed, mul_assoc]

omit he he' in
/-- QUANT to INT8: the operand divided by its scale, rounded (R327). -/
theorem quant_int8 (hm : m.r < 2 ^ m.n) (he : e < 256) (x : FVal) :
    (x.isNan = true ∨ e = 255 → placeResult .int8 (quantise true m x e) = 0) ∧
    (e ≠ 255 → x.finite = true → placeResult .int8 (quantise true m x e) =
      BitVec.ofInt 32 (clampInt (roundWhole m (x.rat * (2 : Rat) ^ (127 - (e : Int)))) (-128) 127)) ∧
    (e ≠ 255 → ∀ n, x = .inf n → placeResult .int8 (quantise true m x e) = BitVec.ofInt 32 (if n then -128 else 127)) := by
  refine ⟨fun h => ?_, fun he' hx => ?_, fun he' n hx => ?_⟩
  · rw [quantise_nan true he h]
    rfl
  · obtain ⟨n, v, k, rfl⟩ := FVal.eq_fin_of_finite hx
    rw [quantise_fin he he', if_pos rfl, ← rat_scaled, ← placeResult_int8_clamp, floatToInt_eq_toInt hm]
    rfl
  · subst hx
    rw [quantise_inf he he', if_pos rfl]
    cases n <;> rfl

omit he he' in
/-- QUANT to DS8: the operand divided by its scale, encoded (R327). -/
theorem quant_ds8 (he : e < 256) (x : FVal) :
    (x.isNan = true ∨ e = 255 → placeResult .nat8 (quantise false m x e) = 0x77) ∧
    (e ≠ 255 → x.finite = true → (placeResult .nat8 (quantise false m x e)).toNat < 256 ∧ ∀ b,
      absRat (64 * (x.rat * (2 : Rat) ^ (127 - (e : Int))) - ds8Val (placeResult .nat8 (quantise false m x e)).toNat) ≤
        absRat (64 * (x.rat * (2 : Rat) ^ (127 - (e : Int))) - ds8Val b) ∧
      (absRat (64 * (x.rat * (2 : Rat) ^ (127 - (e : Int))) - ds8Val (placeResult .nat8 (quantise false m x e)).toNat) =
        absRat (64 * (x.rat * (2 : Rat) ^ (127 - (e : Int))) - ds8Val b) →
          (ds8Val (placeResult .nat8 (quantise false m x e)).toNat).natAbs ≤ (ds8Val b).natAbs)) ∧
    (e ≠ 255 → ∀ n, x = .inf n → ds8Val (placeResult .nat8 (quantise false m x e)).toNat = if n then -128 else 128) := by
  refine ⟨fun h => ?_, fun he' hx => ?_, fun he' n hx => ?_⟩
  · rw [quantise_nan false he h]
    rfl
  · obtain ⟨n, v, k, rfl⟩ := FVal.eq_fin_of_finite hx
    obtain ⟨hlt, hnear⟩ := dsEncode_nearest n v (k + 127 - e)
    rw [quantise_fin he he', if_neg Bool.false_ne_true, toNat_placeResult_nat8 hlt, ← rat_scaled]
    exact ⟨hlt, hnear⟩
  · subst hx
    obtain ⟨hlt, hval⟩ := dsEncode_inf n
    rw [quantise_inf he he', if_neg Bool.false_ne_true, toNat_placeResult_nat8 hlt, hval]

end Quant

/-! ## The forms -/

section Forms

variable {s : State} {c : Issue} {o : CvtOp} (h : Issues s c)

include h

/-- A conversion form sends its function of the operands. -/
theorem cvt_sends {i : Instr} (f : Issue → Nat → Word) (hi : exec i s = cvtMeaning s f) : Sends32 i s c (f c) :=
  hi.trans (issuing_of_issues h)

/-- RNG sends the word of R172 (R321). -/
theorem rng_sends (w : Wd) {core slot itag : Nat} {wp : Warp} {i : Inst} {tm : Team} {x : Ctx} (hwho : c.who = .warp core slot itag)
    (hwp : s.warp? core slot = some wp) (hi : wp.inst? itag = some i) (htm : (s.core core).team? wp.team = some tm) (hx : s.ctx? wp.ctx = some x) :
    Sends32 (.rng w) s c fun l => rngWord x.seed i.number wp.gwn i.iterNo c.idx tm.lrec.rngw l := by
  have hinst : s.instOf (.warp core slot itag) = some i := by rw [State.instOf, hwp, Option.bind_some, hi]
  have hteam : s.teamOf (.warp core slot itag) = some tm := by rw [State.teamOf, hwp, Option.bind_some, htm]
  have hctx : s.ctx? (s.ctxOf (.warp core slot itag)) = some x := by rw [State.ctxOf, hwp, Option.map_some, Option.getD_some, hx]
  refine (show exec (.rng w) s = _ from issuing_of_issues h).trans ?_
  simp only [hwho, hinst, hteam, hctx, hwp, Option.map_some, Option.getD_some]

end Forms

/-- Settles O20: each form by the lemma of its function. -/
theorem conversionsAndRandomWords : Obligations.ConversionsAndRandomWords := by
  refine ⟨fun o s c h => ⟨?_, ?_, ?_, ?_, ?_, ?_, ?_, ?_, ?_⟩, fun w s c core slot itag wp i tm x h => rng_sends h w⟩
  · exact (cvt_sends h (fun c l => placeResult o.dst (cvtElem o (c.w32 .a l).toNat)) rfl).congr fun l =>
      congrArg (placeResult o.dst) (convert_eq_convertExact Nat.one_pos _ _ _ _ _)
  · intro hd
    refine (cvt_sends h (fun c l => BitVec.ofNat 32 (cvtSrWord o (c.w32 .a l).toNat (c.w32 .ax l).toNat (c.w32 .b l).toNat)) rfl).congr fun l => ?_
    rw [cvtSrWord, if_pos hd, convert_eq_convertExact (m := ⟨.sr, (c.w32 .b l).toNat, 32⟩) (c.w32 .b l).isLt]
  · intro hd
    exact ⟨_, cvt_sends h (fun c l => BitVec.ofNat 32 (cvtSrWord o (c.w32 .a l).toNat (c.w32 .ax l).toNat (c.w32 .b l).toNat)) rfl,
      fun l j hj => extractLsb'_cvtSrWord o _ _ _ j hd hj⟩
  · exact ⟨_, issuing_of_issues h, fun l j hj hfit => extractLsb'_packWords o _ _ j hj hfit⟩
  · exact (cvt_sends h (fun c l =>
      placeResult o.dst (cvtElem o (elemOf o.src (c.w32 .a l).toNat ((c.w32 .b l).toNat % (32 / o.src.width))))) rfl).congr fun l =>
      congrArg (placeResult o.dst) (convert_eq_convertExact Nat.one_pos _ _ _ _ _)
  · refine ⟨_, cvt_sends h (fun c l => BitVec.ofNat 32 (dsEncode (cvtValue o (c.w32 .a l).toNat))) rfl, fun l => ?_⟩
    obtain ⟨hlt, hnan, hinf, hnear⟩ := dsEncode_spec (cvtValue o (c.w32 .a l).toNat)
    have hword : (BitVec.ofNat 32 (dsEncode (cvtValue o (c.w32 .a l).toNat))).toNat = dsEncode (cvtValue o (c.w32 .a l).toNat) := by
      rw [BitVec.toNat_ofNat, Nat.mod_eq_of_lt (by omega)]
    simp only [hword]
    exact ⟨hlt, fun h => congrArg _ (hnan h), hinf, fun h b _ => hnear h b⟩
  · exact (cvt_sends h _ rfl).congr fun l => congrArg (BitVec.ofNat 32) (dsdec_code _ _ _)
  · refine (cvt_sends h (fun c l => BitVec.ofNat 32 (scaleFor (cvtValue o (c.w32 .a l).toNat) ((c.w32 .b l).toNat % 16))) rfl).congr fun l => ?_
    unfold cvtValue
    generalize fval o.src (flushIn o.src o.ftz ((c.w32 .a l).toNat % 2 ^ o.src.width)) = x
    cases x with
    | nan => unfold scaleFor; split_ifs <;> rfl
    | inf n => unfold scaleFor; split_ifs <;> rfl
    | fin n m e => exact scaleFor_fin n m e _
  · refine ⟨_, cvt_sends h (fun c l => placeResult (if o.dst == .int8 then .int8 else .nat8)
      (quantise (o.dst == .int8) (cvtMode o) (cvtValue o (c.w32 .a l).toNat) ((c.w32 .b l).toNat % 256))) rfl, fun l => ?_⟩
    have he : (c.w32 .b l).toNat % 256 < 256 := Nat.mod_lt _ (by decide)
    by_cases hd : o.dst = .int8
    · obtain ⟨hnone, hfin, hinf⟩ := quant_int8 (m := cvtMode o) Nat.one_pos he (cvtValue o (c.w32 .a l).toNat)
      simp only [hd, beq_self_eq_true, if_true]
      exact ⟨hnone, fun _ => hfin, fun _ => hinf, fun h => absurd rfl h, fun h => absurd rfl h⟩
    · obtain ⟨hnone, hfin, hinf⟩ := quant_ds8 (m := cvtMode o) he (cvtValue o (c.w32 .a l).toNat)
      simp only [hd, beq_false_of_ne hd, Bool.false_eq_true, if_false]
      exact ⟨hnone, fun h => absurd h id, fun h => absurd h id, fun _ h hx => ⟨(hfin h hx).1, fun b _ => (hfin h hx).2 b⟩, fun _ => hinf⟩

end Sys2Proof.Machine
end

section
/-! PROOF. A step refuses a request that waits at a function and that no thread carries out: a state that the model can write down, though
no message of Moves.lean puts an instruction form there (R467). -/

namespace Sys2Proof.Machine

/-- A SINK. -/
def strayRequest : Instr := .sink ⟨.always, false, none, none, none⟩

/-- Function 0 has a SINK among the requests of the host that wait, no thread is carrying anything out, and the agenda tries that
request again. -/
def strayRequestState : State := { State.reset with
  vfs := [{ posted := [strayRequest] }]
  agenda := [{ dt := 0, act := .host 0 0 }] }

/-- The machine refuses the step. -/
theorem step_strayRequestState : step strayRequestState = .refused .noIssuer := rfl

/-- Refutes O6: the statement speaks of every state, and so of one whose waiting requests hold an instruction form. -/
theorem not_everyStepAnswersANextState : ¬ Obligations.EveryStepAnswersANextState := by
  rintro ⟨hstep, -⟩
  obtain ⟨t, ht⟩ := hstep strayRequestState
  rw [step_strayRequestState] at ht
  cases ht

/-! ## What holds of the statement

Every instruction, machine operation and event answers whenever a thread is carrying one out, and a step answers in every state whose
waiting requests are machine operations. -/

section Answers

variable {s t : State} {i : Instr} {c : Issue}

/-- An instruction form is carried out for the thread that issues it. -/
theorem exec_of_form (hi : i.form.isSome = true) : ∃ k, exec i s = issuing s k := by
  cases i <;> cases hi
  all_goals exact ⟨_, rfl⟩

/-- A machine operation or an event answers in every state; SAVE does so while it goes on, too (R455). -/
theorem exec_event (hi : i.form = none) : ∃ t, exec i s = .next t := by
  cases i <;> cases hi
  case save vf =>
    change ∃ t, execSave vf s = .next t
    rw [execSave]
    split <;> exact ⟨_, rfl⟩
  all_goals exact ⟨_, rfl⟩

/-- The second claim of O6: every instruction, machine operation and event answers whenever a thread is carrying one out. -/
theorem exec_answers (hcur : s.cur = some c) : ∃ t, exec i s = .next t := by
  cases hf : i.form with
  | none => exact exec_event hf
  | some f =>
    obtain ⟨k, hk⟩ := exec_of_form (s := s) (i := i) (by rw [hf]; rfl)
    exact ⟨_, by rw [hk, issuing, hcur]⟩

theorem State.issue_answers (q : Instr × Issue) : ∃ t, s.issue q = .next t := by
  obtain ⟨t, ht⟩ := exec_answers (s := { s with cur := some q.2 }) (i := q.1) rfl
  exact ⟨_, by rw [State.issue, ht]⟩

theorem State.fireWarp_answers (core slot itag idx : Nat) : ∃ t, s.fireWarp core slot itag idx = .next t := by
  unfold State.fireWarp
  dsimp only
  split
  · split
    · exact ⟨_, rfl⟩
    · split
      · exact ⟨_, rfl⟩
      · split
        · exact State.issue_answers _
        · exact ⟨_, rfl⟩
  · exact ⟨_, rfl⟩

theorem State.ctlTurn_answers (core : Nat) (h : Ctl) : ∃ t, s.ctlTurn core h = .next t := by
  unfold State.ctlTurn
  dsimp only
  split
  · exact ⟨_, rfl⟩
  · split
    · exact ⟨_, rfl⟩
    · split
      · exact ⟨_, rfl⟩
      · split
        · exact ⟨_, rfl⟩
        · split
          · exact ⟨_, rfl⟩
          · split
            · exact ⟨_, rfl⟩
            · split
              · exact ⟨_, rfl⟩
              · exact State.issue_answers _

theorem State.fireCtl_answers (core x : Nat) : ∃ t, s.fireCtl core x = .next t := by
  unfold State.fireCtl
  dsimp only
  split
  · exact ⟨_, rfl⟩
  · split
    · exact ⟨_, rfl⟩
    · next h _ _ =>
      obtain ⟨t, ht⟩ := State.ctlTurn_answers (s := s.modCore core fun k => { k with ctlCur := x }) core h
      exact ⟨_, by rw [ht]⟩

/-- The requests that wait at every function are machine operations, as Moves.lean puts them there. -/
def State.PostsNoForm (s : State) : Prop := ∀ vf, ∀ i ∈ (s.vf vf).posted, i.form = none

theorem State.goOnHost_answers (h : s.PostsNoForm) (vf n : Nat) : ∃ t, s.goOnHost vf n = .next t := by
  unfold State.goOnHost
  dsimp only
  split
  · exact ⟨_, rfl⟩
  · next i hi =>
    split
    · exact ⟨_, rfl⟩
    · obtain ⟨t, ht⟩ := exec_event (s := s.modVf vf fun v => { v with posted := [] }) (h vf i (List.mem_of_getElem? hi))
      exact ⟨_, by rw [ht]⟩

theorem State.move_answers (h : s.PostsNoForm) (a : Act) : ∃ t, s.move a = .next t := by
  unfold State.move
  split
  · exact State.fireWarp_answers ..
  · exact State.fireCtl_answers ..
  · split
    · exact ⟨_, rfl⟩
    · next hi => exact exec_event (by simpa using hi)
  · exact State.goOnHost_answers h ..

theorem State.modNBar_vfs (core tid b : Nat) (f : NBar → NBar) : (s.modNBar core tid b f).vfs = s.vfs := by
  unfold State.modNBar
  split
  · rfl
  · split
    · rfl
    · dsimp only
      split <;> rfl

theorem State.settleLeaves_vfs (core : Nat) : (s.settleLeaves core).vfs = s.vfs :=
  List.foldlRecOn (motive := fun t : State => t.vfs = s.vfs) _ _ rfl fun _ ht _ _ =>
    List.foldlRecOn (motive := fun t : State => t.vfs = s.vfs) _ _ ht fun _ ht _ _ => (State.modNBar_vfs ..).trans ht

/-- Time that passes changes no function. -/
theorem State.pass_vfs (dt : Nat) : (s.pass dt).vfs = s.vfs := by
  unfold State.pass
  dsimp only
  split
  · rfl
  · exact List.foldlRecOn (motive := fun t : State => t.vfs = s.vfs) _ _ rfl fun _ ht c _ => (State.settleLeaves_vfs c).trans ht

/-- No request waits after reset. -/
theorem postsNoForm_reset : State.reset.PostsNoForm := by
  intro vf i hi
  have hvf : State.reset.vf vf = {} := by
    rw [State.vf, List.getD_eq_getElem?_getD]
    exact List.getElem?_getD_replicate_default_eq ({} : Vf) Config.functions vf
  rw [hvf] at hi
  cases hi

/-- What of O6's first claim holds: a step answers unless a request that waits at a function is an instruction form. -/
theorem safeStep_of_postsNoForm (h : s.PostsNoForm) : SafeStep s := by
  have hpass : ∀ (agenda : List Turn) (free dt : Nat), State.PostsNoForm (({ s with agenda, free } : State).pass dt) := fun agenda free dt vf i hi => by
    rw [State.vf, State.pass_vfs] at hi
    exact h vf i hi
  change ∃ t, s.turn = .next t
  unfold State.turn
  split
  · exact State.move_answers (hpass _ _ _) _
  · dsimp only
    split
    · exact ⟨_, rfl⟩
    · exact State.move_answers (hpass _ _ _) _

end Answers
end Sys2Proof.Machine
end

section
/-! PROOF. A step that fires a warp's ready entry, or turns to a control thread, is exec of the instruction decoded there (R196, R198,
R203, R417). -/

namespace Sys2Proof.Machine

variable {s t : State}

/-- A turn of the agenda: its time passes, and its move is made. -/
theorem step_agenda {dt : Nat} {act : Act} {rest : List Turn} (h : s.agenda = { dt, act } :: rest) :
    step s = (({ s with agenda := rest } : State).pass dt).move act := by
  simp only [step, State.turn, h]

/-- What a thread would fire is what the words of its block decode to. -/
theorem State.decode_of_issueOf {who : Who} {idx : Nat} {b : RBlock} {i : Instr} {c : Issue} (hb : s.blockOf who = some b)
    (hi : s.issueOf who idx = some (i, c)) : (decode (b.words.drop idx)).toOption.map (·.1) = some i := by
  simp only [State.issueOf, hb, Option.bind_eq_some_iff] at hi
  obtain ⟨ins, hins, form, -, hq⟩ := hi
  have : ins = i := by
    split at hq
    · obtain ⟨_, -, hq⟩ := Option.map_eq_some_iff.1 hq
      exact congrArg Prod.fst hq
    · obtain ⟨_, -, hq⟩ := Option.bind_eq_some_iff.1 hq
      obtain ⟨_, -, hq⟩ := Option.map_eq_some_iff.1 hq
      exact congrArg Prod.fst hq
  exact this ▸ hins

/-- Carrying out an instruction of a thread leaves nothing being carried out. -/
theorem State.issue_next {i : Instr} {c : Issue} (h : exec i { s with cur := some c } = .next t) :
    s.issue (i, c) = .next { t with cur := none } := by
  simp only [State.issue, h]

/-- Settles O4. -/
theorem stepFiresTheDecodedInstruction : Obligations.StepFiresTheDecodedInstruction := by
  intro s r t dt core slot itag idx rest x b m i c hag hr hx hb hq hnow hpick hslot hitag hidx hexec
  refine ⟨r.decode_of_issueOf hb hq, ?_⟩
  rw [step_agenda hag, ← hr]
  simp only [State.move, State.fireWarp, hq, hx, hb, hnow, hpick, hslot, hitag, hidx]
  exact State.issue_next hexec

/-- Outside a due pre-emption, point 2 of R432 changes nothing. -/
theorem State.slicePoint2_of_not_pending {core vf : Nat} (h : s.slicePending core vf = false) : s.slicePoint2 core vf = s := by
  simp [State.slicePoint2, h]

/-- Settles O5. -/
theorem stepRunsTheControlThread : Obligations.StepRunsTheControlThread := by
  intro s r u t dt core x rest h b i c hag hr hpick hx hu hready hstop hent hb hlt hq hslice hexec hpend
  refine ⟨u.decode_of_issueOf hb hq, ?_⟩
  subst hx
  have hgo : (slicePoint i && u.slicePending core (u.vfOf h.ctx)) = false := by
    rcases hslice with e | e <;> simp [e]
  have hturn : u.ctlTurn core h = .next { t with cur := none } := by
    simp only [State.ctlTurn, hready, hstop, hent, hb, Nat.not_le.2 hlt, hq, hgo]
    exact State.issue_next hexec
  rw [step_agenda hag, ← hr]
  simp only [State.move, State.fireCtl, hpick, ← hu, hturn, ne_eq, not_true_eq_false, if_false]
  rw [State.slicePoint2_of_not_pending (s := { t with cur := none }) hpend]

end Sys2Proof.Machine
end

section
/-! PROOF. TRAP, TRACE, TMASK and TRET (R294, R403, R404, R423, R426): a warp's are recorded or buffered, a control thread's act at once. -/

namespace Sys2Proof.Machine

/-- A thread of a warp is an iteration of it. -/
theorem Issue.warp_of_inWarp {c : Issue} (hw : c.inWarp) : ∃ core slot itag, c.who = .warp core slot itag := by
  cases e : c.who with
  | warp core slot itag => exact ⟨core, slot, itag, rfl⟩
  | ctl => simp [Issue.inWarp, Who.isCtl, e] at hw

/-- A thread of no warp is a control thread. -/
theorem Issue.ctl_of_isCtl {c : Issue} (hc : c.who.isCtl = true) : ∃ core x, c.who = .ctl core x := by
  cases e : c.who with
  | warp => simp [Who.isCtl, e] at hc
  | ctl core x => exact ⟨core, x, rfl⟩

section Trap

variable {s : State} {c : Issue} (w : Wd) (h : Issues s c)
include h

/-! ## TRAP -/

theorem execTrap_warp (code : BitVec 16) (hw : c.inWarp) {i : Inst} (hi : s.instOf c.who = some i) : execTrap w code s =
    .next (if i.skipTrap then s.finish c [] else s.faultIssue c { code := .userTrap, mask := c.mask, ucode := code.toNat }) := by
  obtain ⟨core, slot, itag, hwho⟩ := c.warp_of_inWarp hw
  simp only [hwho] at hi
  simp only [execTrap, issuing_of_issues h, hwho, hi, Option.any_some]

theorem execTrap_ctl (code : BitVec 16) {core x : Nat} {t : Ctl} (hc : c.who = .ctl core x) (ht : s.ctl? core x = some t)
    (hskip : t.skip = false) : execTrap w code s =
    .next ((s.haltCtl core x { code := .userTrap, mask := c.mask, ucode := code.toNat } true).modCtl core x fun t => { t with skip := true }) := by
  simp [execTrap, issuing_of_issues h, hc, ht, hskip]

/-! ## TRACE, TMASK and TRET -/

theorem execTrace_warp (hw : c.inWarp) : execTrace w s = .next ((s.addEff c (.trace c.idx (c.lowW .a))).finish c []) := by
  obtain ⟨core, slot, itag, hwho⟩ := c.warp_of_inWarp hw
  simp only [execTrace, issuing_of_issues h, hwho]

theorem execTrace_ctl (hc : c.who.isCtl = true) {t : State} (ht : s.traceAppend c.who (c.lowW .a) = .done t) :
    execTrace w s = .next (t.finish c []) := by
  obtain ⟨core, x, hwho⟩ := c.ctl_of_isCtl hc
  rw [hwho] at ht
  simp only [execTrace, issuing_of_issues h, hwho, ht]

end Trap

/-- Settles O26. -/
theorem trapAndTraceForms : Obligations.TrapAndTraceForms := by
  refine ⟨fun w code s c h => ⟨fun i hi hw hskip => ?_, fun i hi hw hskip => ?_, fun core x t hc ht hskip => ?_⟩,
    fun w s c h => ⟨fun hw => ?_, fun t hc ht => ?_⟩⟩
  · exact (execTrap_warp w h code hw hi).trans (by rw [hskip]; rfl)
  · exact (execTrap_warp w h code hw hi).trans (by rw [hskip]; rfl)
  · exact execTrap_ctl w h code hc ht hskip
  · exact ⟨execTrace_warp w h hw, issuing_of_issues h, issuing_of_issues h, issuing_of_issues h⟩
  · exact execTrace_ctl w h hc ht

end Sys2Proof.Machine
end

section
/-! PROOF. The matrix path's holder (R223, R369 to R377): MXCFG takes a free path, and the other forms of a context that does not hold it. -/

namespace Sys2Proof.Machine

section Path

variable {s : State} {c : Issue} (h : Issues s c)
include h

/-- MXCFG of a context that does not hold the path: it takes a free one, and waits for another. -/
theorem execMxcfg_free (arr : MxArr) (w : Wd) (hfree : (s.core c.who.core).mx.holder = none) (hq : (s.core c.who.core).mx.queue = []) :
    execMxcfg arr w s = .next ((s.modCore c.who.core fun k => { k with mx := { k.mx with holder := some (s.ctxOf c.who) } }).issueForm c
      (plainReq (.mxcfg arr) 0 0 0 .warp none false)) := by
  simp [execMxcfg, issuing_of_issues h, hfree, hq]

theorem execMxcfg_waits (arr : MxArr) (w : Wd) {y : Nat} (hy : (s.core c.who.core).mx.holder = some y) (hne : y ≠ s.ctxOf c.who) :
    execMxcfg arr w s = .next s := by
  simp [execMxcfg, issuing_of_issues h, hy, hne]

variable (hno : s.holdsPath c.who.core (s.ctxOf c.who) = false)
include hno

theorem execMxcfgRelease_other (w : Wd) : execMxcfgRelease w s = .next (s.finish c []) := by
  simp [execMxcfgRelease, issuing_of_issues h, hno]

theorem execMxstat_other (w : Wd) : execMxstat w s = .next (s.finish c (c.status 0)) := by
  have hstat : s.mxstat c.who.core (s.ctxOf c.who) = 0 := if_pos (congrArg not hno)
  rw [execMxstat, issuing_of_issues h, hstat]

theorem execMxfeed_other (w : Wd) : execMxfeed w s = .next (s.faultIssue c (mxFault c)) := by
  simp [execMxfeed, issuing_of_issues h, hno]

theorem execMxfeeds_other (e : EngForm) : execMxfeeds e s = .next (s.faultIssue c (mxFault c)) := by
  simp [execMxfeeds, issuing_of_issues h, hno]

/-- MXZERO and MXDRAIN fault without an arrangement as they do without the path. -/
theorem execMxzero_other (w : Wd) : execMxzero w s = .next (s.faultIssue c (mxFault c)) := by
  simp only [execMxzero, issuing_of_issues h, hno]
  cases (s.core c.who.core).mx.arr <;> simp

theorem execMxdrain_other (o : CvtOp) : execMxdrain o s = .next (s.faultIssue c (mxFault c)) := by
  simp only [execMxdrain, issuing_of_issues h, hno]
  cases (s.core c.who.core).mx.arr <;> simp

end Path

/-- Settles O39. -/
theorem matrixPathHasOneHolder : Obligations.MatrixPathHasOneHolder := by
  intro arr w e o s c h core x faults
  refine ⟨execMxcfg_free h arr w, fun y => execMxcfg_waits h arr w, fun hne => ?_⟩
  have hno : s.holdsPath core x = false := by simpa [State.holdsPath] using hne
  exact ⟨execMxcfgRelease_other h hno w, execMxstat_other h hno w, execMxfeed_other h hno w, execMxfeeds_other h hno e,
    execMxzero_other h hno w, execMxdrain_other h hno o⟩

end Sys2Proof.Machine
end

section
/-! PROOF. What the end of a firing does (R198, R199, R203): the entry leaves its node, each target's node receives its tokens, and
nothing else of the state changes. -/

namespace Sys2Proof.Machine

variable {s t u : State} {core slot itag x n : Nat}

/-! ## Warps, instances and cores after an update -/

theorem Warp.inst?_modInst (w : Warp) {f : Inst → Inst} (hf : ∀ i, (f i).itag = i.itag) :
    (w.modInst itag f).inst? itag = (w.inst? itag).map f :=
  find?_mapIf_self w.insts (·.itag) f hf itag

theorem State.warp?_modInst (f : Inst → Inst) :
    (s.modInst core slot itag f).warp? core slot = (s.warp? core slot).map (·.modInst itag f) :=
  State.warp?_modWarp _

/-- A change of a core that leaves its warps alone. -/
theorem State.warp?_modCore {f : Core → Core} (hf : (f (s.core core)).warps = (s.core core).warps) (m sl : Nat) :
    (s.modCore core f).warp? m sl = s.warp? m sl := by
  simp only [State.warp?, State.core_modCore]
  split
  · subst m; simp only [Core.warp?, hf]
  · rfl

theorem Core.warp?_modWarp (k : Core) (f : Warp → Warp) (sl : Nat) :
    (k.modWarp slot f).warp? sl = if sl = slot then (k.warp? slot).map f else k.warp? sl := by
  rw [Core.modWarp]
  cases hw : k.warp? slot with
  | none => by_cases hsl : sl = slot <;> simp [hsl, hw]
  | some w => simp [Core.warp?, Core.setWarp, tabFind_tabPut]

@[simp] theorem Core.modWarp_nodes (k : Core) (f : Warp → Warp) : (k.modWarp slot f).nodes = k.nodes := by
  unfold Core.modWarp
  split <;> rfl

/-! ## Tokens that reach a core's nodes -/

/-- A token enters the channel of a node, and its tag counts it. -/
def Core.takeToken (k : Core) (node : Nat) (t : Token) : Core :=
  (k.modNode node fun n => { n with chan := n.chan ++ [t] }).tagAdd t.wslot t.itag 1

/-- Tokens enter their nodes one after the other. -/
def Core.takeTokens (k : Core) (ts : List (Nat × Token)) : Core := ts.foldl (fun k q => k.takeToken q.1 q.2) k

theorem Core.chan_takeToken (k : Core) (m : Nat) (t : Token) (hn : n < k.nodes.length) :
    ((k.takeToken m t).nodes.getD n {}).chan = (k.nodes.getD n {}).chan ++ if m == n then [t] else [] := by
  simp only [Core.takeToken, Core.modNode, Core.tagAdd]
  by_cases hm : m = n
  · subst hm
    rw [listMod_getD_self _ _ _ _ hn, if_pos (beq_self_eq_true m)]
  · rw [listMod_getD_other _ _ _ _ _ (Ne.symm hm), if_neg (by simpa using hm), List.append_nil]

/-- Every node keeps the tokens it holds and receives, behind them, those sent to it, in order. -/
theorem Core.chan_takeTokens (k : Core) (ts : List (Nat × Token)) (hn : n < k.nodes.length) :
    ((k.takeTokens ts).nodes.getD n {}).chan = (k.nodes.getD n {}).chan ++ (ts.filter fun q => q.1 == n).map (·.2) := by
  induction ts generalizing k with
  | nil => exact (List.append_nil _).symm
  | cons q ts ih =>
    have hlen : n < (k.takeToken q.1 q.2).nodes.length := by simpa [Core.takeToken, Core.modNode, Core.tagAdd] using hn
    have hrest : ((k.takeTokens (q :: ts)).nodes.getD n {}).chan = _ := ih (k.takeToken q.1 q.2) hlen
    rw [hrest, k.chan_takeToken _ _ hn, List.append_assoc]
    by_cases hq : q.1 == n <;> simp [hq]

/-- Nothing of the core but its nodes and tags changes. -/
theorem Core.takeTokens_eq (k : Core) (ts : List (Nat × Token)) : ∃ nodes tags, k.takeTokens ts = { k with nodes, tags } := by
  induction ts generalizing k with
  | nil => exact ⟨_, _, rfl⟩
  | cons q ts ih =>
    obtain ⟨nodes, tags, h⟩ := ih (k.takeToken q.1 q.2)
    exact ⟨nodes, tags, h⟩

/-! ## The firing of a warp's instruction -/

/-- What a change of an element keeps is the same at every place of the list. -/
theorem getD_listMod_of_keep {α β : Type} {f : α → α} {g : α → β} (h : ∀ x, g (f x) = g x) (l : List α) (k n : Nat) (d : α) :
    g ((listMod l k f).getD n d) = g (l.getD n d) := by
  by_cases hn : n = k
  · subst hn
    by_cases hl : n < l.length
    · rw [listMod_getD_self _ _ _ _ hl, h]
    · rw [List.getD_eq_default _ _ (by simpa using hl), List.getD_eq_default _ _ (by simpa using hl)]
  · rw [listMod_getD_other _ _ _ _ _ hn]

section Warp

variable {c : Issue} {w : Warp} {i : Inst} {b : RBlock}

/-- A token of a warp's iteration for a target. -/
def targetToken (slot itag : Nat) (m : Mask) (q : Nat × PortName × Lanes) : Token :=
  { wslot := slot, itag, idx := q.1, port := q.2.1, mask := m, val := q.2.2 }

/-- The tokens of a result enter the nodes of their targets (R201, R202). -/
theorem State.sendTokens_warp (hi : s.instOf (.warp core slot itag) = some i) (hb : s.blockOf (.warp core slot itag) = some b) (f : Form) (m : Mask)
    (parts : List Lanes) : s.sendTokens (.warp core slot itag) f m parts =
    s.modCore core fun k => k.takeTokens ((route f b.words parts).map fun q => (b.node i.replica q.1, targetToken slot itag m q)) := by
  simp only [State.sendTokens, hb, hi, Option.map_some, Option.getD_some, Core.takeTokens, List.foldl_map]
  rfl

/-- An iteration that has fired an instruction. -/
def Inst.countFired (idx time : Nat) (i : Inst) : Inst := { i with fired := idx :: i.fired, lastAct := time }

variable (hc : c.who = .warp core slot itag) (hw : s.warp? core slot = some w) (hi : w.inst? itag = some i)
include hc hw hi

/-- A firing changes one node of the core, whose channels stay, and a tag; then the iteration counts it (R203, R206). -/
theorem State.fired_warp (hb : s.blockOf c.who = some b) : ∃ nodes tags,
    s.fired c = (s.modCore core fun k => { k with nodes, tags }).modInst core slot itag (Inst.countFired c.idx s.time) ∧
    nodes.length = (s.core core).nodes.length ∧ ∀ n, (nodes.getD n {}).chan = ((s.core core).nodes.getD n {}).chan := by
  have hinst : s.instOf c.who = some i := by simp only [hc, State.instOf, hw, Option.bind_some, hi]
  rw [hc] at hb hinst
  simp only [State.fired, hc, hinst, hb]
  refine ⟨_, _, rfl, listMod_length _ _ _, fun n => ?_⟩
  refine getD_listMod_of_keep (g := Node.chan) ?_ _ _ _ _
  exact fun _ => rfl

theorem State.warp?_fired (hb : s.blockOf c.who = some b) :
    (s.fired c).warp? core slot = some (w.modInst itag (Inst.countFired c.idx s.time)) := by
  obtain ⟨nodes, tags, hf, -⟩ := State.fired_warp hc hw hi hb
  rw [hf, State.warp?_modInst, State.warp?_modCore (by rfl), hw]
  rfl

theorem State.blockOf_fired (hb : s.blockOf c.who = some b) : (s.fired c).blockOf c.who = some b := by
  obtain ⟨nodes, tags, hf, -⟩ := State.fired_warp hc hw hi hb
  have hblock : ((s.fired c).core core).block? = (s.core core).block? := by
    rw [hf, State.modInst, State.modWarp, State.core_modCore, if_pos rfl, Core.block?_modWarp, State.core_modCore, if_pos rfl]
    rfl
  have hinst := w.inst?_modInst (f := Inst.countFired c.idx s.time) (itag := itag) fun _ => rfl
  have hwarp := State.warp?_fired hc hw hi hb
  simp only [hc, State.blockOf, hw, Option.bind_some, hi] at hb
  simp only [hc, State.blockOf, hwarp, Option.bind_some, hinst, hi, Option.map_some, hblock]
  exact hb

/-- The warp of an instruction that has fired, and the channels of its core's nodes. -/
theorem State.finishMask_warp (hb : s.blockOf c.who = some b) (m : Mask) (parts : List Lanes) :
    (s.finishMask c m parts).warp? core slot = some (w.modInst itag (Inst.countFired c.idx s.time)) ∧
    ∀ n, n < (s.core core).nodes.length → (((s.finishMask c m parts).core core).nodes.getD n {}).chan = ((s.core core).nodes.getD n {}).chan ++
      ((route c.form b.words parts).filter fun q => b.node i.replica q.1 == n).map (targetToken slot itag m) := by
  have hwf := State.warp?_fired hc hw hi hb
  have hbf := State.blockOf_fired hc hw hi hb
  have hif : (s.fired c).instOf c.who = some (i.countFired c.idx s.time) := by
    simp only [hc, State.instOf, hwf, Option.bind_some, Warp.inst?_modInst w (f := Inst.countFired c.idx s.time) fun _ => rfl, hi, Option.map_some]
  rw [hc] at hbf hif
  have hs := State.sendTokens_warp hif hbf c.form m parts
  simp only [State.finishMask, hc, hs, State.advance]
  refine ⟨?_, fun n hn => ?_⟩
  · have hkept : ∀ ts, (((s.fired c).core core).takeTokens ts).warps = ((s.fired c).core core).warps := fun ts => by
      obtain ⟨nodes, tags, hk⟩ := ((s.fired c).core core).takeTokens_eq ts
      rw [hk]
    rw [State.warp?_modCore (hkept _), hwf]
  · obtain ⟨nodes, tags, hf, hlen, hchan⟩ := State.fired_warp hc hw hi hb
    have hnodes : ((s.fired c).core core).nodes = nodes := by
      rw [hf, State.modInst, State.modWarp, State.core_modCore, if_pos rfl, Core.modWarp_nodes, State.core_modCore, if_pos rfl]
    rw [State.core_modCore, if_pos rfl, Core.chan_takeTokens _ _ (by rw [hnodes, hlen]; exact hn), hnodes, hchan, List.filter_map, List.map_map]
    rfl

end Warp

end Sys2Proof.Machine
end

section
/-! PROOF. The statements on the end of a firing: its results and its faults (R196, R198, R199, R203, R207, R427). -/

namespace Sys2Proof.Machine

variable {s : State} {c : Issue} {core slot itag x : Nat}

/-- A control thread goes on behind its instruction, with the results that its targets hold (R196, R199). -/
theorem State.finish_ctl {h : Ctl} {b : RBlock} (hc : c.who = .ctl core x) (hh : s.ctl? core x = some h) (hb : s.blockOf c.who = some b)
    (parts : List Lanes) : (s.finish c parts).ctl? core x = some { h with
      next := c.idx + (if c.form.isLong then 2 else 1)
      vals := (h.vals ++ (route c.form b.words parts).map fun q =>
        (q.1, { port := q.2.1, mask := c.mask, val := q.2.2 : PortVal })).filter fun v => v.1 != c.idx } := by
  rw [hc] at hb
  simp only [State.finish, State.fired, State.sendTokens, State.advance, hc, hb]
  rw [State.ctl?_modCtl fun _ => by rfl, State.ctl?_modCtl fun _ => by rfl, hh]
  rfl

/-- Settles O50: a warp's tokens enter their nodes one after the other and its iteration counts the firing, and a control thread's targets
hold its result. -/
theorem resultsReachTheirTargets : Obligations.ResultsReachTheirTargets := by
  refine ⟨fun s c core slot itag w i b parts hc hw hi hb => ?_, fun s c core x h b parts hc hh hb => ?_⟩
  · obtain ⟨hwarp, hchan⟩ := State.finishMask_warp hc hw hi hb c.mask parts
    refine ⟨_, i.countFired c.idx s.time, hwarp, ?_, rfl, rfl, rfl, rfl, rfl, hchan⟩
    rw [Warp.inst?_modInst w fun _ => by rfl, hi]
    rfl
  · exact ⟨_, State.finish_ctl hc hh hb parts, rfl, rfl, rfl⟩

/-! ## Faults of a firing, and their delivery (R207, R427) -/

/-- An iteration that records a fault keeps the one that it has. -/
def Inst.recordFault (f : FaultInfo) (i : Inst) : Inst := { i with exit := some (i.exit.getD f) }

theorem State.recordExit_eq (f : FaultInfo) : s.recordExit core slot itag f = s.modInst core slot itag (Inst.recordFault f) := by
  refine congrArg (s.modInst core slot itag) (funext fun i => ?_)
  rw [Inst.recordFault]
  cases i.exit <;> rfl

theorem State.recordExit_warp {w : Warp} {i : Inst} (hw : s.warp? core slot = some w) (hi : w.inst? itag = some i) (f : FaultInfo) :
    (s.recordExit core slot itag f).warp? core slot = some (w.modInst itag (Inst.recordFault f)) ∧
      (w.modInst itag (Inst.recordFault f)).inst? itag = some (i.recordFault f) := by
  rw [State.recordExit_eq, State.warp?_modInst, hw, Warp.inst?_modInst w fun _ => by rfl, hi]
  exact ⟨rfl, rfl⟩

/-- A free halt number is no receiver's halt number, and no 0 (R427). -/
theorem State.freeHalt_spec {recv n : Nat} (h : s.freeHalt recv = some n) : (∀ m ∈ s.halts, m.recv = recv → m.num ≠ n) ∧ 0 < n := by
  have hfree := List.find?_some h
  have hmem := List.mem_of_find?_eq_some h
  simp only [Bool.and_eq_true, Bool.not_eq_true', decide_eq_true_eq, List.contains_eq_mem, decide_eq_false_iff_not, List.mem_map,
    List.mem_filter, beq_iff_eq, List.mem_range] at hfree hmem
  obtain ⟨k, -, rfl⟩ := hmem
  exact ⟨fun m hm hr hn => hfree.2 ⟨m, ⟨hm, hr⟩, hn⟩, k.succ_pos⟩

/-- A fault's record as its halt keeps it (R427). -/
def WaitingFault.halt (f : WaitingFault) (r : Requester) (n : Nat) : Halt :=
  { num := n, recv := f.recv, host := f.host, req := r, ctx := f.ctx, code := f.code, record := withHaltNum f.record n }

theorem State.ctx?_modCtx_self {a : Ctx} {f : Ctx → Ctx} {n : Nat} (ha : s.ctx? n = some a) (hf : ∀ c, (f c).idx = c.idx) :
    (s.modCtx n f).ctx? n = some (f a) := by
  rw [State.ctx?_modCtx s n f hf, if_pos rfl, ha, Option.map_some]

/-- A record enters a context's fault queue, and its event counter 63 rises (R397). -/
def Ctx.takeFault (record : List DWord) (c : Ctx) : Ctx := { c with fq := c.fq ++ [record], events := listMod c.events 63 (· + 1) }

section Deliver

variable {f : WaitingFault} {rx : Ctx} {r : Requester} {n : Nat} (hd : f.driver = none) (hr : f.req = some r) (hnum : f.num = none)
  (hrx : s.ctx? f.recv = some rx)
include hd hr hnum hrx

theorem State.enqueueFault_unnumbered (hfree : s.freeHalt f.recv = none) :
    s.enqueueFault f = { s with waitFaults := s.waitFaults ++ [f] } := by
  simp only [State.enqueueFault, hd, hrx, State.numberFault, hnum, hr, hfree, Option.map_none]

variable (hhost : f.host = false) (hfree : s.freeHalt f.recv = some n)
include hhost hfree

theorem State.enqueueFault_numbered : s.enqueueFault f = if rx.fq.length + rx.fqHeld < 256
    then { s with halts := s.halts ++ [f.halt r n] }.modCtx f.recv (Ctx.takeFault (withHaltNum f.record n))
    else { s with halts := s.halts ++ [f.halt r n], waitFaults := s.waitFaults ++ [{ f with num := some n }] } := by
  simp only [State.enqueueFault, hd, hrx, State.numberFault, hnum, hr, hfree, hhost, Option.map_some, WaitingFault.halt]
  rfl

end Deliver

/-- Settles O48: a recorded fault stays, and a delivered one takes a free halt number before its record goes to the queue or waits. -/
theorem faultsAreRecordedAndDelivered : Obligations.FaultsAreRecordedAndDelivered := by
  refine ⟨fun s c core slot itag w i f hc hw hi => ⟨?_, ?_⟩, fun s c core x f hc => ?_,
    fun s f rx r n hd hhost hr hnum hrx hidx hfree => ⟨fun hroom => ?_, fun hfull => ?_⟩,
    fun s f rx r hd hr hnum hrx hfree => State.enqueueFault_unnumbered hd hr hnum hrx hfree⟩
  · simp only [State.faultIssue, hc]
  · obtain ⟨hv, hj⟩ := State.recordExit_warp hw hi f
    exact ⟨_, _, hv, hj, rfl, rfl, rfl, rfl, rfl⟩
  · simp only [State.faultIssue, hc]
  · obtain ⟨hother, hpos⟩ := State.freeHalt_spec hfree
    rw [State.enqueueFault_numbered hd hr hnum hrx hhost hfree, if_pos hroom]
    exact ⟨_, State.ctx?_modCtx_self hrx fun _ => rfl, rfl, rfl, by rw [State.modCtx_halts, WaitingFault.halt, hhost], hother, hpos, State.modCtx_mem ..⟩
  · rw [State.enqueueFault_numbered hd hr hnum hrx hhost hfree, if_neg (by omega), WaitingFault.halt, hhost]

end Sys2Proof.Machine
end

section
/-! PROOF. The frame of the forms that compute and of those that a warp only buffers: firing moves tokens and counts (R198, R206). -/

namespace Sys2Proof.Machine

variable {s t u : State} {c : Issue} {core slot itag x : Nat} {view : Warp → Warp}

/-! ## What a change of a core leaves alone -/

theorem map_mapIf_of_keep {α β : Type} {f : α → α} {g : α → β} (h : ∀ x, g (f x) = g x) (p : α → Bool) (l : List α) :
    (mapIf p f l).map g = l.map g := by
  rw [mapIf, List.map_map]
  refine List.map_congr_left fun x _ => ?_
  by_cases hp : p x <;> simp [hp, h]

/-- Only what a core's quiet reading and a view of its warps leave out has changed: `TokensOnly` and `BuffersOnly` are its two cases. -/
def State.AlikeBut (view : Warp → Warp) (s t : State) : Prop :=
  { t with cores := s.cores } = s ∧ (∀ n, (t.core n).quiet = (s.core n).quiet) ∧
  (∀ n sl, (t.warp? n sl).map view = (s.warp? n sl).map view) ∧ ∀ p, t.peek p = s.peek p

theorem State.AlikeBut.refl : State.AlikeBut view s s := ⟨rfl, fun _ => rfl, fun _ _ => rfl, fun _ => rfl⟩

theorem State.AlikeBut.trans (h : State.AlikeBut view s t) (h' : State.AlikeBut view t u) : State.AlikeBut view s u := by
  obtain ⟨hrest, hcore, hwarp, hpeek⟩ := h
  obtain ⟨hrest', hcore', hwarp', hpeek'⟩ := h'
  refine ⟨?_, fun n => (hcore' n).trans (hcore n), fun n sl => (hwarp' n sl).trans (hwarp n sl), fun p => (hpeek' p).trans (hpeek p)⟩
  rw [← hrest'] at hrest
  exact hrest

/-- A coarser view of the warps: the effects that they buffer are left out too (R206). -/
theorem State.AlikeBut.calm (h : State.AlikeBut Warp.quiet s t) : State.AlikeBut Warp.calm s t := by
  have hcalm : ∀ w : Warp, w.calm = w.quiet.calm := fun w => by simp [Warp.calm, Warp.quiet, Inst.quiet]
  obtain ⟨hrest, hcore, hwarp, hpeek⟩ := h
  refine ⟨hrest, hcore, fun n sl => ?_, hpeek⟩
  have hview := congrArg (Option.map Warp.calm) (hwarp n sl)
  simpa only [Option.map_map, Function.comp_def, ← hcalm] using hview

/-- A change of one core. -/
theorem State.alikeBut_modCore {f : Core → Core} (hq : (f (s.core core)).quiet = (s.core core).quiet)
    (hw : ∀ sl, ((f (s.core core)).warp? sl).map view = ((s.core core).warp? sl).map view) :
    State.AlikeBut view s (s.modCore core f) := by
  refine ⟨rfl, fun n => ?_, fun n sl => ?_, fun p => by cases p <;> rfl⟩
  · by_cases hn : n = core
    · subst hn; simpa using hq
    · simp [hn]
  · by_cases hn : n = core
    · subst hn; simpa [State.warp?] using hw sl
    · simp [State.warp?, hn]

/-- A change of the nodes and tags of a core. -/
theorem State.alikeBut_nodes {f : Core → Core} (hf : ∃ nodes tags, f (s.core core) = { s.core core with nodes, tags }) :
    State.AlikeBut view s (s.modCore core f) := by
  obtain ⟨nodes, tags, hf⟩ := hf
  exact State.alikeBut_modCore (by rw [hf]; rfl) fun sl => by rw [hf]; rfl

/-- A change of a control thread's operands and place. -/
theorem State.alikeBut_modCtl {f : Ctl → Ctl} (hf : ∀ t, (f t).quiet = t.quiet) : State.AlikeBut view s (s.modCtl core x f) :=
  State.alikeBut_modCore (congrArg (fun ctls => { (s.core core).quiet with ctls }) (map_mapIf_of_keep hf _ _)) fun _ => rfl

/-- A change of a warp that the view does not see. -/
theorem State.alikeBut_modWarp {f : Warp → Warp} (hf : ∀ w, view (f w) = view w) : State.AlikeBut view s (s.modWarp core slot f) := by
  cases hw : (s.core core).warp? slot with
  | none => exact State.alikeBut_modCore (by rw [Core.modWarp, hw]) fun sl => by rw [Core.modWarp, hw]
  | some w =>
    refine State.alikeBut_modCore (by rw [Core.modWarp, hw]; rfl) fun sl => ?_
    rw [Core.warp?_modWarp]
    split
    · next hsl => rw [hsl, hw, Option.map_some, Option.map_some, Option.map_some, hf]
    · rfl

theorem Warp.quiet_modInst {f : Inst → Inst} (hf : ∀ i, (f i).quiet = i.quiet) (w : Warp) : (w.modInst itag f).quiet = w.quiet := by
  simp only [Warp.quiet, Warp.modInst, map_mapIf_of_keep hf]

/-- An iteration as `Warp.calm` reads it. -/
def Inst.calm (i : Inst) : Inst := { i.quiet with effs := [], fires := [] }

theorem Warp.calm_modInst {f : Inst → Inst} (hf : ∀ i, (f i).calm = i.calm) (w : Warp) : (w.modInst itag f).calm = w.calm :=
  congrArg (fun insts => { w with insts }) (map_mapIf_of_keep hf _ w.insts)

/-! ## The end of a firing, and a buffered effect -/

theorem State.instOf_of_blockOf {b : RBlock} (hb : s.blockOf (.warp core slot itag) = some b) :
    ∃ w i, s.warp? core slot = some w ∧ w.inst? itag = some i := by
  simp only [State.blockOf, Option.bind_eq_some_iff] at hb
  obtain ⟨w, hw, i, hi, -⟩ := hb
  exact ⟨w, i, hw, hi⟩

theorem State.fired_of_noBlock (hb : s.blockOf c.who = none) : s.fired c = s := by
  rw [State.fired, hb]
  split
  · rfl
  · split
    · next h => cases h
    · rfl

theorem State.alikeBut_fired : State.AlikeBut Warp.quiet s (s.fired c) := by
  cases hc : c.who with
  | ctl core x => rw [State.fired, hc]; exact .refl
  | warp core slot itag =>
    cases hb : s.blockOf c.who with
    | none => rw [State.fired_of_noBlock hb]; exact .refl
    | some b =>
      obtain ⟨w, i, hw, hi⟩ := State.instOf_of_blockOf (hc ▸ hb)
      obtain ⟨nodes, tags, hf, -⟩ := State.fired_warp hc hw hi hb
      rw [hf]
      exact .trans (State.alikeBut_nodes ⟨nodes, tags, rfl⟩) (State.alikeBut_modWarp (Warp.quiet_modInst fun _ => rfl))

theorem State.alikeBut_sendTokens (who : Who) (f : Form) (m : Mask) (parts : List Lanes) :
    State.AlikeBut view s (s.sendTokens who f m parts) := by
  cases hb : s.blockOf who with
  | none => rw [State.sendTokens, hb]; exact .refl
  | some b =>
    cases who with
    | ctl core x => simp only [State.sendTokens, hb]; exact State.alikeBut_modCtl fun _ => rfl
    | warp core slot itag =>
      obtain ⟨w, i, hw, hi⟩ := State.instOf_of_blockOf hb
      have hinst : s.instOf (.warp core slot itag) = some i := by rw [State.instOf, hw]; exact hi
      rw [State.sendTokens_warp hinst hb]
      exact State.alikeBut_nodes (Core.takeTokens_eq _ _)

theorem State.alikeBut_advance (who : Who) (idx : Nat) (long : Bool) : State.AlikeBut view s (s.advance who idx long) := by
  cases who with
  | ctl core x => exact State.alikeBut_modCtl fun _ => rfl
  | warp core slot itag => exact .refl

theorem State.alikeBut_finish (parts : List Lanes) : State.AlikeBut Warp.quiet s (s.finish c parts) :=
  .trans State.alikeBut_fired (.trans (State.alikeBut_sendTokens ..) (State.alikeBut_advance ..))

theorem State.alikeBut_addEff (e : Eff) : State.AlikeBut Warp.calm s (s.addEff c e) := by
  rw [State.addEff]
  cases c.who with
  | ctl core x => exact .refl
  | warp core slot itag =>
    exact State.alikeBut_modWarp (Warp.calm_modInst fun _ => rfl)

/-! ## The forms -/

section Forms

variable {k : Issue → State} (hcur : s.cur = some c)
include hcur

/-- A form that only ends its firing ends it with an empty mask, too (R199). -/
theorem issuing_finishes (hk : ∃ parts, k c = s.finish c parts) : ∃ parts, issuing s k = .next (s.finish c parts) := by
  obtain ⟨parts, hk⟩ := hk
  rw [issuing, hcur]
  by_cases hm : c.mask = 0
  · exact ⟨[], congrArg _ (if_pos hm)⟩
  · exact ⟨parts, congrArg _ ((if_neg hm).trans hk)⟩

/-- A form that buffers an effect and ends its firing. -/
theorem issuing_buffers (hk : ∃ e, k c = (s.addEff c e).finish c []) : ∃ u, issuing s k = .next u ∧ BuffersOnly s u := by
  obtain ⟨e, hk⟩ := hk
  rw [issuing, hcur]
  by_cases hm : c.mask = 0
  · exact ⟨_, congrArg _ (if_pos hm), (State.alikeBut_finish []).calm⟩
  · exact ⟨_, congrArg _ ((if_neg hm).trans hk), (State.alikeBut_addEff e).trans (State.alikeBut_finish []).calm⟩

/-- Every computing form sends a result and does nothing else; a random word is one too, of a warp or of a control thread. -/
theorem exec_computes {i : Instr} (hi : computes i = true) : ∃ parts, exec i s = .next (s.finish c parts) := by
  cases i <;> cases hi
  case rng w =>
    refine issuing_finishes hcur ?_
    split
    · exact ⟨_, rfl⟩
    · exact ⟨_, rfl⟩
  all_goals exact issuing_finishes hcur ⟨_, rfl⟩

/-- Every form of `buffered` adds one effect to its warp's iteration and sends nothing. -/
theorem exec_buffered {i : Instr} (hi : buffered i = true) (hwarp : c.inWarp) : ∃ u, exec i s = .next u ∧ BuffersOnly s u := by
  obtain ⟨core, slot, itag, hwho⟩ := Issue.warp_of_inWarp hwarp
  cases c
  cases hwho
  cases i <;> cases hi
  all_goals exact issuing_buffers hcur ⟨_, rfl⟩

end Forms

/-- Settles O51: a computing form is the end of its firing, a buffered one an effect and that end, and both change nodes, tags and
counts alone. -/
theorem computingFormsTouchNothingElse : Obligations.ComputingFormsTouchNothingElse := by
  intro i s t c hcur hexec
  refine ⟨fun hi => ?_, fun hi hwarp => ?_⟩
  · obtain ⟨parts, h⟩ := exec_computes hcur hi
    cases h.symm.trans hexec
    exact State.alikeBut_finish parts
  · obtain ⟨u, h, hframe⟩ := exec_buffered hcur hi hwarp
    cases h.symm.trans hexec
    exact hframe

end Sys2Proof.Machine
end

section
/-! PROOF. The channel forms (R218, R219, R349 to R351). -/

namespace Sys2Proof.Machine

/-! ## The team of a thread, and its channels, after an update -/

section Channels

variable {s : State} {who : Who} {core x n d : Nat} {t : Team}

theorem Team.chan_modChan (f : Chan → Chan) (hn : n < t.chans.length) : (t.modChan n f).chan n = f (t.chan n) :=
  listMod_getD_self _ _ _ _ hn

/-- A channel that is in use is one of the team's table: any other number reads as unused. -/
theorem Team.lt_of_chan_fifo (h : (t.chan n).kind = .fifo) : n < t.chans.length := by
  by_contra hn
  rw [Team.chan, List.getD_eq_default _ _ (not_lt.1 hn)] at h
  cases h

theorem State.chan_of_team (ht : s.teamOf who = some t) : s.chan who n = t.chan n := by
  rw [State.chan, ht, Option.map_some, Option.getD_some]

theorem State.modChanOf_of_team (ht : s.teamOf who = some t) (f : Chan → Chan) :
    s.modChanOf who n f = s.modTeam who.core t.id fun t => t.modChan n f := by
  rw [State.modChanOf, ht]

/-- The team of a control thread whose own record keeps its team. -/
theorem State.teamOf_modCtl {f : Ctl → Ctl} (hx : ∀ h, (f h).ctx = h.ctx) (hf : ∀ h, (f h).team = h.team) :
    (s.modCtl core x f).teamOf (.ctl core x) = s.teamOf (.ctl core x) := by
  have hteams : ∀ t, ((s.modCtl core x f).core core).team? t = (s.core core).team? t := fun t => by simp [State.modCtl, Core.team?]
  simp only [State.teamOf, State.ctl?_modCtl hx, hteams]
  cases s.ctl? core x with
  | none => rfl
  | some h => simp only [Option.map_some, Option.bind_some, hf]

theorem State.teamOf_modChanOf (ht : s.teamOf (.ctl core x) = some t) (f : Chan → Chan) :
    (s.modChanOf (.ctl core x) n f).teamOf (.ctl core x) = some (t.modChan n f) := by
  rw [State.modChanOf_of_team ht]
  simp only [State.teamOf, Option.bind_eq_some_iff] at ht ⊢
  obtain ⟨id, ⟨h, hh, hid⟩, hteam⟩ := ht
  have hown : t.id = id := by simpa using List.find?_some hteam
  refine ⟨id, ⟨h, by simpa [State.ctl?, State.modTeam, Who.core, Core.ctl?] using hh, hid⟩, ?_⟩
  have hfound : ((s.core core).team? id).map (fun t => t.modChan n f) = some (t.modChan n f) := congrArg _ hteam
  simp only [State.modTeam, Who.core, State.core_modCore, if_true, Core.team?, hown]
  exact (find?_mapIf_self (s.core core).teams Team.id (Team.modChan · n f) (fun _ => rfl) id).trans hfound

end Channels

/-! ## SEND and RECV -/

/-- A unit in which no error stands is read as it is. -/
theorem State.sense_of_clean {s : State} {e : ErrSite} (hclean : ∀ e' ∈ s.dev.soft ++ s.dev.hard, e' ≠ e) (by_ : Option (Nat × Requester)) :
    s.sense by_ e = s := by
  have hsoft : s.dev.soft.contains e = false := by simpa using fun he => hclean e (List.mem_append_left _ he) rfl
  have hhard : s.dev.hard.contains e = false := by simpa using fun he => hclean e (List.mem_append_right _ he) rfl
  simp only [State.sense, hsoft, hhard, Bool.false_eq_true, if_false]

section Forms

variable {s : State} {c : Issue} {core slot itag x : Nat} {t : Team} (w : Wd) (num : BitVec 6)
variable (h : Issues s c) (ht : s.teamOf c.who = some t)
include h ht

theorem execSend_takes (hk : (t.chan num.toNat).kind = .fifo ∨ (t.chan num.toNat).kind = .sink) :
    execSend w num s = .next ((s.addEff c (.send c.idx num.toNat c.mask (c.port .a).val)).finish c []) := by
  rw [execSend, issuing_of_issues h, State.chan_of_team ht]
  rcases hk with hk | hk <;> rw [hk]

theorem execSend_faults (hk : (t.chan num.toNat).kind = .unused ∨ (t.chan num.toNat).kind = .source) :
    execSend w num s = .next (s.faultIssue c (chanFault c)) := by
  rw [execSend, issuing_of_issues h, State.chan_of_team ht]
  rcases hk with hk | hk <;> rw [hk]

theorem execRecv_faults (hk : (t.chan num.toNat).kind = .unused ∨ (t.chan num.toNat).kind = .sink) :
    execRecv w num s = .next (s.faultIssue c (chanFault c)) := by
  simp only [execRecv, issuing_of_issues h, State.chan_of_team ht]
  rcases hk with hk | hk <;> rw [hk]

theorem execRecv_waits (hk : (t.chan num.toNat).kind = .fifo ∨ (t.chan num.toNat).kind = .source) (hitems : (t.chan num.toNat).items = []) :
    execRecv w num s = .next s := by
  simp only [execRecv, issuing_of_issues h, State.chan_of_team ht, Chan.take, hitems]
  rcases hk with hk | hk <;> rw [hk]

theorem execRecv_takes {m : Mask} {v : Lanes} {more : List (Mask × Lanes)} (hwho : c.who = .warp core slot itag)
    (hk : (t.chan num.toNat).kind = .fifo ∨ (t.chan num.toNat).kind = .source) (hitems : (t.chan num.toNat).items = (m, v) :: more)
    (hclean : ∀ e ∈ s.dev.soft ++ s.dev.hard, e ≠ .pool core) :
    execRecv w num s = .next (((s.modChanOf c.who num.toNat fun ch => (ch.take.map (·.2)).getD ch).modInst core slot itag fun i =>
      { i with taken := i.taken ++ [(num.toNat, c.mask, m, v)] }).finishMask c (c.mask &&& m) [v]) := by
  have hsense : ∀ f g by_, ((s.modChanOf (.warp core slot itag) num.toNat f).modInst core slot itag g).sense by_ (.pool core) =
      (s.modChanOf (.warp core slot itag) num.toNat f).modInst core slot itag g := fun f g by_ =>
    State.sense_of_clean (by rw [State.modChanOf_of_team (hwho ▸ ht)]; exact hclean) by_
  have hchan := State.chan_of_team ht (n := num.toNat)
  have htake : (t.chan num.toNat).take = some ((m, v), { t.chan num.toNat with items := more, taken := (t.chan num.toNat).taken + 1 }) := by
    rw [Chan.take, hitems]
  rw [execRecv, issuing_of_issues h]
  rw [hwho] at hchan
  simp only [hwho, hchan, htake, hsense]
  rcases hk with hk | hk <;> rw [hk]

theorem execChstat_sends : execChstat w num s = .next (s.finish c (c.status (t.chan num.toNat).stat)) := by
  rw [execChstat, issuing_of_issues h, State.chan_of_team ht]

end Forms

/-! ## CHRESIZE (R351) -/

section Resize

variable {s : State} {c : Issue} {core x n d : Nat} {t : Team} (ht : s.teamOf c.who = some t)
include ht

/-- The depth is set once the channel is idle, and the control thread no longer resizes. -/
theorem State.resizeCtl_idle (hwho : c.who = .ctl core x) (hk : (t.chan n).kind = .fifo) (hitems : (t.chan n).items = [])
    (htaken : (t.chan n).taken = 0) : ∃ u : State, s.resizeCtl c n d = u.finish c (c.status 0) ∧ u.resizing c.who = none ∧
      (u.chan c.who n).depth = d ∧ (u.chan c.who n).resizes = (t.chan n).resizes.erase d := by
  have hidle : (s.chan c.who n).idle = true := by simp [State.chan_of_team ht, Chan.idle, hitems, htaken]
  rw [hwho] at ht hidle
  refine ⟨_, by rw [State.resizeCtl, hwho, if_pos hidle], ?_⟩
  have hteam := State.teamOf_modChanOf ht (n := n) fun ch => { ch with depth := d, resizes := ch.resizes.erase d }
  rw [hwho, State.chan_of_team (State.teamOf_modCtl (fun _ => by rfl) (fun _ => by rfl) |>.trans hteam), Team.chan_modChan _ (Team.lt_of_chan_fifo hk)]
  refine ⟨?_, rfl, rfl⟩
  rw [State.resizing, State.ctl?_modCtl fun _ => by rfl]
  cases State.ctl? _ core x <;> rfl

theorem State.resizeCtl_busy (hbusy : (t.chan n).items ≠ [] ∨ (t.chan n).taken ≠ 0) : s.resizeCtl c n d = s := by
  have hidle : (t.chan n).idle = false := by
    rcases hbusy with hb | hb <;> simp [Chan.idle, hb]
  rw [State.resizeCtl, State.chan_of_team ht, hidle, if_neg Bool.false_ne_true]

/-- A depth that a control thread reserves is noted on its channel, which it leaves as it is. -/
theorem State.teamOf_reserveDepth (hwho : c.who = .ctl core x) :
    (s.reserveDepth c.who n d).teamOf c.who = some (t.modChan n fun ch => { ch with resizes := ch.resizes ++ [d] }) := by
  rw [hwho] at ht ⊢
  rw [State.reserveDepth, State.teamOf_modCtl (fun _ => by rfl) fun _ => by rfl]
  exact State.teamOf_modChanOf ht _

omit ht in
theorem State.resizeStatus_zero {ch : Chan} {who : Who} (hk : ch.kind = .fifo) (hpos : 0 < d) (hd : d ≤ 256)
    (hroom : (s.core who.core).poolUsed - ch.reserved + d ≤ 256) : s.resizeStatus who ch d = 0 := by
  have hrange : (d = 0 || 256 < d : Bool) = false := by simp; omega
  simp only [State.resizeStatus, hk, hrange, bne_self_eq_false, Bool.false_eq_true, if_false]
  exact if_neg (by omega)

variable (w : Wd) (num : BitVec 6) (h : Issues s c)
include h

omit ht in
theorem execChresize_resizing {k : Nat} (hk : s.resizing c.who = some k) : execChresize w num s = .next (s.resizeCtl c num.toNat k) := by
  rw [execChresize, issuing_of_issues h, hk]

variable (hfree : s.resizing c.who = none)
include hfree

theorem execChresize_unused (hk : (t.chan num.toNat).kind = .unused) : execChresize w num s = .next (s.faultIssue c (chanFault c)) := by
  rw [execChresize, issuing_of_issues h]
  simp only [hfree, State.chan_of_team ht, hk, beq_self_eq_true, if_true]

/-- A status that is not 0 is sent, and nothing is reserved. -/
theorem execChresize_refuses {n : Nat} (hk : (t.chan num.toNat).kind ≠ .unused) (hn : n ≠ 0)
    (hst : s.resizeStatus c.who (t.chan num.toNat) (c.lowW .a).toNat = n) : execChresize w num s = .next (s.finish c (c.status n)) := by
  rw [execChresize, issuing_of_issues h]
  simp [hfree, State.chan_of_team ht, hk, hst, hn]

theorem execChresize_warp (hk : (t.chan num.toNat).kind = .fifo) (hst : s.resizeStatus c.who (t.chan num.toNat) (c.lowW .a).toNat = 0)
    (hw : c.inWarp) : execChresize w num s = .next (((s.modChanOf c.who num.toNat fun ch =>
      { ch with resizes := ch.resizes ++ [(c.lowW .a).toNat] }).addEff c (.chresize c.idx num.toNat (c.lowW .a).toNat)).finish c (c.status 0)) := by
  obtain ⟨core, slot, itag, hwho⟩ := Issue.warp_of_inWarp hw
  rw [execChresize, issuing_of_issues h]
  simp only [hfree, State.chan_of_team ht, hst, hk, State.reserveDepth]
  simp [hwho]

theorem execChresize_ctl (hk : (t.chan num.toNat).kind = .fifo) (hst : s.resizeStatus c.who (t.chan num.toNat) (c.lowW .a).toNat = 0)
    (hwho : c.who = .ctl core x) :
    execChresize w num s = .next ((s.reserveDepth c.who num.toNat (c.lowW .a).toNat).resizeCtl c num.toNat (c.lowW .a).toNat) := by
  rw [execChresize, issuing_of_issues h]
  simp only [hfree, State.chan_of_team ht, hst, hk]
  simp [hwho]

end Resize

/-- Settles O36: each form by the kind of its channel, and CHRESIZE by what it is judged to. -/
theorem channelForms : Obligations.ChannelForms := by
  intro w num s c t h ht
  refine ⟨fun _ hk => execSend_takes w num h ht hk, execSend_faults w num h ht, execRecv_faults w num h ht, execRecv_waits w num h ht,
    fun core slot itag m v more hwho hk hitems hclean => execRecv_takes w num h ht hwho hk hitems hclean, execChstat_sends w num h ht,
    fun hfree => ⟨execChresize_unused ht w num h hfree, fun hk => ?_, fun hk hd => ?_, fun hk hpos hd hfull => ?_, fun hk hpos hd hroom => ?_⟩,
    fun k hres hctl hk => ⟨fun hbusy => ?_, fun hitems htaken => ?_⟩, fun hfree hctl hk hpos hd hroom hitems htaken => ?_⟩
  · refine execChresize_refuses ht w num h hfree (by rcases hk with hk | hk <;> simp [hk]) one_ne_zero ?_
    rcases hk with hk | hk <;> rw [State.resizeStatus, hk] <;> rfl
  · refine execChresize_refuses ht w num h hfree (by simp [hk]) two_ne_zero ?_
    simp [State.resizeStatus, hk, hd]
  · refine execChresize_refuses ht w num h hfree (by simp [hk]) three_ne_zero ?_
    have hrange : ¬ ((c.lowW .a).toNat = 0 ∨ 256 < (c.lowW .a).toNat) := by omega
    simp [State.resizeStatus, hk, hrange, hfull]
  · have hst := State.resizeStatus_zero hk hpos hd hroom
    refine ⟨execChresize_warp ht w num h hfree hk hst, fun hctl hbusy => ?_⟩
    obtain ⟨core, x, hwho⟩ := Issue.ctl_of_isCtl hctl
    refine (execChresize_ctl ht w num h hfree hk hst hwho).trans (congrArg _ (State.resizeCtl_busy (State.teamOf_reserveDepth ht hwho) ?_))
    rwa [Team.chan_modChan _ (Team.lt_of_chan_fifo hk)]
  · exact (execChresize_resizing w num h hres).trans (congrArg _ (State.resizeCtl_busy ht hbusy))
  · obtain ⟨core, x, hwho⟩ := Issue.ctl_of_isCtl hctl
    obtain ⟨u, hu, hrest⟩ := State.resizeCtl_idle ht hwho hk hitems htaken
    exact ⟨u, (execChresize_resizing w num h hres).trans (congrArg _ hu), hrest⟩
  · obtain ⟨core, x, hwho⟩ := Issue.ctl_of_isCtl hctl
    have hst := State.resizeStatus_zero hk hpos hd hroom
    have hlt := Team.lt_of_chan_fifo hk
    obtain ⟨u, hu, hnone, hdepth, -⟩ := State.resizeCtl_idle (State.teamOf_reserveDepth ht hwho) hwho (by rw [Team.chan_modChan _ hlt]; exact hk)
      (by rw [Team.chan_modChan _ hlt]; exact hitems) (by rw [Team.chan_modChan _ hlt]; exact htaken)
    exact ⟨u, (execChresize_ctl ht w num h hfree hk hst hwho).trans (congrArg _ hu), hnone, hdepth⟩

end Sys2Proof.Machine
end

section
/-! PROOF. RED, PREF and FENCE (R126, R196, R337, R341, R343). -/

namespace Sys2Proof.Machine

/-! ## What asking for a sector leaves alone -/

section Ask

variable {s t u : State} {d core x k n : Nat}

/-- Memory, contexts and warps are as they were, and a die has at most `k` misses more. -/
def State.AskedMore (d k : Nat) (s t : State) : Prop :=
  t.mem = s.mem ∧ t.ctxs = s.ctxs ∧ (∀ n sl, t.warp? n sl = s.warp? n sl) ∧ (t.die d).missq.length ≤ (s.die d).missq.length + k

theorem State.AskedMore.refl : State.AskedMore d 0 s s := ⟨rfl, rfl, fun _ _ => rfl, le_rfl⟩

theorem State.AskedMore.trans (h : State.AskedMore d k s t) (h' : State.AskedMore d n t u) : State.AskedMore d (k + n) s u := by
  obtain ⟨hmem, hctxs, hwarps, hmiss⟩ := h
  obtain ⟨hmem', hctxs', hwarps', hmiss'⟩ := h'
  exact ⟨hmem'.trans hmem, hctxs'.trans hctxs, fun n sl => (hwarps' n sl).trans (hwarps n sl), by omega⟩

theorem State.AskedMore.mono (h : State.AskedMore d k s t) (hk : k ≤ n) : State.AskedMore d n s t := by
  obtain ⟨hmem, hctxs, hwarps, hmiss⟩ := h
  exact ⟨hmem, hctxs, hwarps, by omega⟩

theorem State.askedMore_coreTlbEnter (e : TlbEntry) : State.AskedMore d 0 s (s.coreTlbEnter core e) := by
  refine ⟨rfl, rfl, fun n sl => ?_, le_rfl⟩
  have hfree : ∀ v : State, v.nextFree.warp? n sl = v.warp? n sl := fun _ => rfl
  rw [State.coreTlbEnter, hfree, State.warp?_modCore (by rfl)]

theorem State.askedMore_tlbPull (va : DWord) (acc : AccKind) : State.AskedMore d 0 s (s.tlbPull core x va acc) := by
  simp only [State.tlbPull]
  cases tlbFind (s.core core).tlb x va.toNat acc with
  | some e => exact .refl
  | none =>
    cases tlbFind (s.die (dieOf core)).tlb x va.toNat acc with
    | none => exact .refl
    | some e => exact State.askedMore_coreTlbEnter e

theorem State.askedMore_askDcu (key : SKey) (kind : DcuKind) : State.AskedMore d 0 s (s.askDcu core x key kind) := by
  refine ⟨rfl, rfl, fun _ _ => rfl, ?_⟩
  rw [State.askDcu, State.die_modDie]
  split
  · next hd => subst hd; split <;> exact le_rfl
  · exact le_rfl

/-- What keeps the frame at every element keeps it over a list of them. -/
theorem State.askedMore_foldl {f : State → Nat → State} (hf : ∀ s n, State.AskedMore d 0 s (f s n)) (l : List Nat) :
    State.AskedMore d 0 s (l.foldl f s) := by
  induction l generalizing s with
  | nil => exact .refl
  | cons n l ih => exact (hf s n).trans ih

theorem State.askedMore_readAhead (cls : MClass) (va : DWord) : State.AskedMore d 0 s (s.readAhead core x cls va) := by
  rw [State.readAhead]
  split
  · exact .refl
  · refine .trans (n := 0) (State.askedMore_foldl (fun s n => ?_) _) ⟨rfl, rfl, fun _ _ => rfl, le_rfl⟩
    dsimp only
    split
    · exact .refl
    · split
      · exact .refl
      · split
        · exact State.askedMore_askDcu _ _
        · exact .refl

theorem State.askedMore_prefAsk (cls : MClass) (va : DWord) (p : Place) : State.AskedMore d 0 s (s.prefAsk core x cls va p) := by
  rw [State.prefAsk]
  split
  · exact (State.askedMore_askDcu _ _).trans (State.askedMore_readAhead _ _)
  · exact .refl

/-- A miss takes at most one entry of the queue of its die (R71). -/
theorem missAdd_length (q : List Miss) (m : Miss) : (missAdd q m).length ≤ q.length + 1 := by
  rw [missAdd]
  split
  · rw [mapIf, List.length_map]; exact Nat.le_succ _
  · split
    · exact (List.length_append ..).le
    · exact Nat.le_succ _

theorem State.askedMore_missAt (va : DWord) (acc : AccKind) (w : Waiter) : State.AskedMore (dieOf core) 1 s (s.missAt core x va acc w) := by
  refine ⟨rfl, rfl, fun _ _ => rfl, ?_⟩
  rw [State.missAt, State.die_modDie, if_pos rfl]
  exact missAdd_length _ _

end Ask

/-! ## PREF -/

section Pref

variable {s t : State} {c : Issue} {o : MemOp} {core x : Nat}

/-- One lane of PREF, as `execPref` takes it: the state, and whether the lane found the queue full. -/
def State.prefLane (o : MemOp) (c : Issue) (core x : Nat) (r : State × Bool) (l : Nat) : State × Bool :=
  match r.1.lookup core x (memAddr o true c l) .read with
  | .hit p => ((r.1.tlbPull core x (memAddr o true c l) .read).prefAsk core x o.cls (memAddr o true c l) p, r.2)
  | .miss => if r.1.missFull core x (memAddr o true c l) then (r.1, true)
    else (r.1.missAt core x (memAddr o true c l) .read (.pref core o.cls), r.2)
  | .fault _ => r

/-- A lane that finds an entry free asks for its sector or its walk, and takes at most one entry. -/
theorem State.prefLane_room {b : Bool} {l : Nat} (hroom : (s.die (dieOf core)).missq.length < 64) :
    ∃ t, State.prefLane o c core x (s, b) l = (t, b) ∧ State.AskedMore (dieOf core) 1 s t := by
  have hfull : s.missFull core x (memAddr o true c l) = false := by simp [State.missFull, hroom]
  rw [State.prefLane]
  cases s.lookup core x (memAddr o true c l) .read with
  | hit p => exact ⟨_, rfl, ((State.askedMore_tlbPull _ _).trans (State.askedMore_prefAsk _ _ _)).mono (Nat.zero_le 1)⟩
  | miss => exact ⟨_, if_neg (by simp [hfull]), State.askedMore_missAt _ _ _⟩
  | fault f => exact ⟨s, rfl, State.AskedMore.refl.mono (Nat.zero_le 1)⟩

theorem State.prefLanes_room (ls : List Nat) {b : Bool} (hroom : (s.die (dieOf core)).missq.length + ls.length ≤ 64) :
    ∃ t, ls.foldl (State.prefLane o c core x) (s, b) = (t, b) ∧ State.AskedMore (dieOf core) ls.length s t := by
  induction ls generalizing s with
  | nil => exact ⟨s, rfl, .refl⟩
  | cons l ls ih =>
    simp only [List.length_cons] at hroom ⊢
    obtain ⟨t, ht, hone⟩ := State.prefLane_room (s := s) (o := o) (c := c) (core := core) (x := x) (b := b) (l := l) (by omega)
    obtain ⟨u, hu, hmore⟩ := ih (s := t) (by have := hone.2.2.2; omega)
    exact ⟨u, by rw [List.foldl_cons, ht, hu], (hone.trans hmore).mono (by omega)⟩

theorem lanesOf_length_le (m : Mask) : (lanesOf m).length ≤ 32 := (List.length_filter_le ..).trans (List.length_range).le

/-- PREF is its lanes one after the other. -/
theorem execPref_lanes (h : Issues s c) (hheld : s.held c false false = false) : execPref o s =
    let r := c.lanes.foldl (State.prefLane o c c.who.core (s.ctxOf c.who)) (s, false)
    .next (if r.2 then r.1 else r.1.finish c []) := by
  rw [execPref, issuing_of_issues h, hheld, if_neg Bool.false_ne_true]
  rfl

/-- PREF with an entry for every lane asks and ends (R71, R337). -/
theorem execPref_room (h : Issues s c) (hheld : s.held c false false = false) (hroom : (s.die (dieOf c.who.core)).missq.length + 32 ≤ 64) :
    ∃ u, execPref o s = .next (u.finish c []) ∧ State.AskedMore (dieOf c.who.core) c.lanes.length s u := by
  have hlanes : c.lanes.length ≤ 32 := lanesOf_length_le c.mask
  obtain ⟨u, hu, hmore⟩ := State.prefLanes_room (s := s) (o := o) (c := c) (core := c.who.core) (x := s.ctxOf c.who) c.lanes (b := false) (by omega)
  refine ⟨u, ?_, hmore⟩
  rw [execPref_lanes h hheld, hu]
  rfl

end Pref

/-! ## RED -/

section Red

variable {s t u : State} {c : Issue} {op : AtomOp} {aw : AWidth} {o : MemOp} {accs : List Access}
variable (h : Issues s c) (hheld : s.held c false false = false)
  (hck : s.checkAccess c .gl .atomic .atomic aw.bytes (memAddr o true c) (fun p => supports op aw p && s.hostAtomics p) false = .ok t accs)
include h hheld hck

theorem execRed_warp (hw : c.inWarp) : execRed op aw o s =
    .next ((t.addEff c (.red c.idx op aw o.cls (withData accs (wideOperand (aw == .w64) c .b .bx)))).finish c []) := by
  obtain ⟨core, slot, itag, hwho⟩ := Issue.warp_of_inWarp hw
  rw [execRed, issuing_of_issues h, hheld, if_neg Bool.false_ne_true, hck]
  simp only [hwho]

theorem execRed_ctl {a : Access} (hc : c.who.isCtl = true) (ha : accs = [a])
    (hdone : t.applyRed c.who c.idx op o.cls a (wideOperand (aw == .w64) c .b .bx a.lane) = .done u) :
    execRed op aw o s = .next (u.finish c []) := by
  obtain ⟨core, x, hwho⟩ := Issue.ctl_of_isCtl hc
  subst ha
  rw [execRed, issuing_of_issues h, hheld, if_neg Bool.false_ne_true, hck]
  rw [hwho] at hdone
  simp only [hwho, withData, List.map_cons, List.map_nil]
  rw [applyLanes_singleton (f := fun s a v => s.applyRed (.ctl core x) c.idx op o.cls a v) hdone]

end Red

/-! ## FENCE -/

section Fence

variable {s : State} {c : Issue} (h : Issues s c) {order : Order} (scope : Scope) (mask : BitVec 3) (w : Wd)
include h

/-- A warp's FENCE: what of it acts at its firing, and what its iteration buffers. -/
theorem execFence_warp (hw : c.inWarp) (hheld : s.held c true false = false) : execFence w order scope mask s =
    let s1 := if acquires order then s.acquireActs c.who.core scope mask else s
    let s2 := if releases order then s1.addEff c (.release c.idx scope mask) else s1
    let s3 := if acquires order && (releases order || s.fenceBefore c) then s2.addEff c (.acquire c.idx scope mask) else s2
    .next (s3.finish c []) := by
  obtain ⟨core, slot, itag, hwho⟩ := Issue.warp_of_inWarp hw
  rw [execFence, issuing_of_issues h, hheld, Bool.and_false, if_neg Bool.false_ne_true]
  simp only [hwho, Who.core]

/-- A control thread's FENCE: its release, then its acquire. -/
theorem execFence_ctl {u : State} (hc : c.who.isCtl = true) (hu : s.releaseNow c.who order scope mask = .done u) :
    execFence w order scope mask s = .next ((if acquires order then u.acquireActs c.who.core scope mask else u).finish c []) := by
  obtain ⟨core, x, hwho⟩ := Issue.ctl_of_isCtl hc
  have hheld : s.held c true false = false := by simp only [State.held, hwho]
  rw [execFence, issuing_of_issues h, hheld, Bool.and_false, if_neg Bool.false_ne_true]
  rw [hwho] at hu
  simp only [hwho, Who.core, hu]

end Fence

/-- Settles O31: a warp buffers and a control thread acts, and PREF only asks. -/
theorem redPrefetchAndFence : Obligations.RedPrefetchAndFence := by
  intro op aw o w order scope mask s t c accs h
  refine ⟨fun hheld hck => ⟨fun hw => execRed_warp h hheld hck hw, fun a u hc ha hdone => execRed_ctl h hheld hck hc ha hdone⟩,
    fun hheld hroom => ?_, fun hw hheld => ⟨?_, ?_, ?_, ?_⟩, fun hc => ⟨?_, fun u hu => ⟨?_, ?_⟩⟩⟩
  · obtain ⟨u, hu, hmem, hctxs, hwarps, -⟩ := execPref_room h hheld hroom
    exact ⟨u, hu, hmem, hctxs, hwarps⟩
  · rintro rfl hb
    exact (execFence_warp h scope mask w hw hheld).trans (by simp [acquires, releases, hb])
  · rintro rfl hb
    exact (execFence_warp h scope mask w hw hheld).trans (by simp [acquires, releases, hb])
  · rintro rfl
    exact (execFence_warp h scope mask w hw hheld).trans (by simp [acquires, releases])
  · rintro rfl
    exact (execFence_warp h scope mask w hw hheld).trans (by simp [acquires, releases])
  · rintro rfl
    exact execFence_ctl h scope mask w hc rfl
  · rintro rfl
    exact execFence_ctl h scope mask w hc hu
  · rintro rfl
    exact execFence_ctl h scope mask w hc hu

end Sys2Proof.Machine
end

section
/-! PROOF. The events of a block's life (R203, R205 to R217, R234). -/

namespace Sys2Proof.Machine

variable {s t u : State} {core slot node x : Nat} {w : Warp} {i : Inst} {b : RBlock}

/-! ## Admission -/

/-- A change of nodes one after the other changes no warp. -/
theorem Core.warp?_foldl_modNode {α : Type} (l : List α) (at_ : α → Nat) (f : α → Node → Node) (k : Core) (sl : Nat) :
    (l.foldl (fun k q => k.modNode (at_ q) (f q)) k).warp? sl = k.warp? sl := by
  induction l generalizing k with
  | nil => rfl
  | cons q l ih => exact ih (k.modNode (at_ q) (f q))

/-- The iteration that a warp without one starts: nothing has fired in it, nothing is buffered, and no fault is recorded (R205). -/
def State.freshInst (s : State) (slot : Nat) (w : Warp) (e : SEntry) (b : RBlock) : Inst :=
  { itag := w.nt, block := b.addr, ver := b.ver, replica := (slot + w.nt) % b.bases.length, mask := e.mask
    depth := e.depth, number := w.icount, iterNo := e.iter
    skipTrap := w.skipDue b.addr e.mask, admitted := s.time, lastAct := s.time }

/-- A warp whose first iteration has been admitted (R209). -/
def Warp.admitFirst (w : Warp) (b : RBlock) (i : Inst) : Warp :=
  { w.skipDone b.addr i.mask with insts := [i], nt := (w.nt + 1) % 32, win1 := w.win1 - 1 }

theorem State.startInst_first (e : SEntry) (hw : s.warp? core slot = some w) (hnone : w.insts = []) :
    (s.startInst core slot w e b).warp? core slot = some (w.admitFirst b (s.freshInst slot w e b)) := by
  have hcore : ∀ k : Core, ∀ tags cycle age, ({ k with tags, lastAdmit := cycle, lastAge := age } : Core).warp? slot = k.warp? slot :=
    fun _ _ _ _ => rfl
  rw [State.startInst, State.warp?, State.core_modCore, if_pos rfl, hcore]
  rw [Core.warp?_foldl_modNode]
  rw [Core.warp?_modWarp, if_pos rfl, ← State.warp?, hw]
  simp [Warp.admitFirst, State.freshInst, hnone]

/-! ## Tokens -/

section Handle

variable {n : Node} {tok : Token} {rest : List Token} {f : Form} {loc : Nat × Nat}

/-- The entry of an instruction whose first operand a token brings. -/
def Token.entry (t : Token) : MatchEntry :=
  { wslot := t.wslot, itag := t.itag, idx := t.idx, vals := [{ port := t.port, mask := t.mask, val := t.val }] }

theorem Node.handle_fetch (hslot : n.slots.contains loc = false) :
    n.handle tok rest (some f) loc = some ({ n with slots := (loc :: n.slots).take 32 }, false) := by
  rw [Node.handle]
  simp only [hslot, Bool.not_false, if_true]

/-- The first operand of an instruction that takes no other makes it ready (R203). -/
theorem Node.handle_only (hslot : n.slots.contains loc = true) (hall : ∀ q ∈ usedPorts f, q = tok.port) (hstore : n.store = []) :
    n.handle tok rest (some f) loc = some ({ n with chan := rest, ready := n.ready ++ [tok.entry] }, false) := by
  have hports : ((usedPorts f).all fun q => tok.port == q) = true := by simpa using fun q hq => (hall q hq).symm
  have hmem : loc ∈ n.slots := by simpa using hslot
  rw [Node.handle]
  simp [hmem, hstore, hports, Token.entry]

/-- An operand before the last waits for the others. -/
theorem Node.handle_first (hslot : n.slots.contains loc = true) (hmore : ∃ q ∈ usedPorts f, q ≠ tok.port) (hstore : n.store = []) :
    n.handle tok rest (some f) loc = some ({ n with chan := rest, store := [tok.entry] }, false) := by
  obtain ⟨q, hq, hne⟩ := hmore
  have hports : ((usedPorts f).all fun q => tok.port == q) = false := by simpa using ⟨q, hq, hne.symm⟩
  have hmem : loc ∈ n.slots := by simpa using hslot
  rw [Node.handle]
  simp [hmem, hstore, hports, Token.entry, Config.matchEntries]

theorem execTokenArrive_handled {m : Node} {dropped : Bool} (hchan : ((s.core core).nodes.getD node {}).chan = tok :: rest)
    (hm : (m, dropped) ∈ ((s.core core).nodes.getD node {}).handle tok rest (s.tokenForm core tok) (s.tokenBlock core tok, tok.idx)) :
    execTokenArrive core node s = .next (s.modCore core fun k =>
      if dropped then (k.modNode node fun _ => m).tagSub tok.wslot tok.itag 1 else k.modNode node fun _ => m) := by
  rw [Option.mem_def] at hm
  simp only [execTokenArrive, hchan, hm]

end Handle

/-! ## Commit and discard -/

section Oldest

variable {more : List Inst} (hw : s.warp? core slot = some w) (hi : w.insts = i :: more)
include hw hi

theorem State.commitStep_notRunning {c : Ctx} (hc : s.ctx? w.ctx = some c) (hst : c.st ≠ .running) : s.commitStep core slot = s := by
  rw [State.commitStep]
  simp only [hw, hi, hc, Option.any_some, bne_iff_ne, ne_eq, hst, not_false_eq_true, if_true]
  split <;> rfl

variable (hb : (s.core core).block? w.ctx i.block i.ver = some b)
include hb

/-- An ended iteration whose exit stands, whose room is there and whose effects all apply finishes its commit (R206, R116). -/
theorem State.commitStep_finishes {v : Warp} {after : List SEntry × Bool} (hrun : ∀ c, s.ctx? w.ctx = some c → c.st = .running)
    (hst : i.st = .running) (hend : i.isEnded b = true) (hexit : i.exit = none) (hsq : i.squash = false) (hhalt : w.halt = none)
    (hck : s.checkExit core slot w i b = .ok t after) (hready : t.commitReady core slot i = true)
    (hreads : i.effs.any Eff.isStore = true → t.homeReadsInFlight core = false)
    (heffs : State.runEffs core slot i.itag (t.modInst core slot i.itag fun q => { q with st := .committing, after := some after }) i.work = (u, []))
    (hv : u.warp? core slot = some v) : s.commitStep core slot = (u.finishCommit core slot v i b after).endIfDone core slot := by
  have hctx : ((s.ctx? w.ctx).any fun c => c.st != .running) = false := by simpa [Option.any_eq_false] using hrun
  have hstores : (i.effs.any Eff.isStore &&
      (t.modInst core slot i.itag fun q => { q with st := .committing, after := some after }).homeReadsInFlight core) = false := by
    cases he : i.effs.any Eff.isStore with
    | false => rfl
    | true => exact hreads he
  rw [State.commitStep]
  simp only [hw, hi, hb, hctx, hst, hend, hexit, hsq, hhalt, hck, hready, hstores, heffs, hv, Option.isSome_none, Bool.not_true, Bool.or_self,
    Bool.false_eq_true, if_false, if_true]

theorem State.discardStep_raises {f : FaultInfo} (hst : i.st = .running) (hatom : s.atomicOut (.warp core slot i.itag) = false)
    (hsq : i.squash = false) (hexit : i.exit = some f) (hend : i.isEnded b = true) :
    s.discardStep core slot i.itag = s.raiseExit core slot i f := by
  have hinst : w.inst? i.itag = some i := by simp [Warp.inst?, hi]
  have hhead : (w.insts.head?.map (·.itag) == some i.itag) = true := by simp [hi]
  rw [State.discardStep]
  simp only [hw, hinst, hhead, hst, hatom, hsq, hexit, hb, hend]
  rfl

theorem execBlockStuck_due (hidle : s.idleInst core slot w i b = true) (hlong : 2 ^ 20 ≤ cyclesBetween (max i.lastAct i.admitted) s.time)
    (hexit : i.exit = none) :
    execBlockStuck core slot i.itag s = .next (s.raiseExit core slot i { code := .blockStuck, mask := i.mask }) := by
  simp only [execBlockStuck, hw, hi, hb, hexit]
  exact congrArg _ (if_neg (by simpa [hidle] using hlong))

end Oldest

/-- A fault halts the warp at its discard; a trap would meet its fate (R207, R420). -/
theorem State.raiseExit_fault {f : FaultInfo} (hf : f.code.isTrap = false) : s.raiseExit core slot i f =
    (((s.squash core slot fun _ => true).applyMailbox core slot).haltWarp core slot f i.block i.itag false false).modCore core Core.unpin := by
  rw [State.raiseExit]
  simp only [hf, Bool.false_eq_true, if_false]

theorem Warp.trapReturn_kept (w : Warp) (m : Mask) : (w.trapReturn m).icount = w.icount ∧ (w.trapReturn m).insts = w.insts := by
  rw [Warp.trapReturn]
  split <;> exact ⟨rfl, rfl⟩

/-- A commit counts one more, and no iteration keeps the tag of the committed one (R206). -/
theorem Warp.committed_counts (w : Warp) (i : Inst) (stay : Mask) :
    (w.committed i stay).icount = w.icount + 1 ∧ ∀ q ∈ (w.committed i stay).insts, q.itag ≠ i.itag := by
  refine ⟨?_, fun q hq => ?_⟩
  · rw [Warp.committed]
    dsimp only
    split
    · rw [(Warp.trapReturn_kept _ _).1]
    · rfl
  · simp only [Warp.committed, List.mem_map, List.mem_filter, bne_iff_ne] at hq
    obtain ⟨y, ⟨-, hy⟩, rfl⟩ := hq
    exact hy

/-! ## Timers -/

theorem execFairnessTimer_due {j : Nat} {e : SEntry} (hw : s.warp? core slot = some w) (hrun : w.runSplit = some e) (hfair : 512 ≤ e.fair)
    (hnone : w.insts = []) (hhalt : w.halt = none) (hpick : fairPick (s.entriesOf core slot w) w.runIndex w.icount.toNat = some j) :
    execFairnessTimer core slot s = .next ((s.setTable core slot (pinSplit (s.entriesOf core slot w) j) w.run).boundary core slot) := by
  have hdue : ¬ e.fair < 512 := by omega
  simp [execFairnessTimer, hw, hrun, hdue, hnone, hhalt, hpick]

/-- A full node whose warps hold one iteration each gives up the youngest holder alone (R215). -/
theorem execTagExhausted_youngest {sl itag : Nat} (hfull : s.nodeFull core node = true)
    (hlong : 1024 ≤ cyclesBetween (max (((s.core core).nodes.getD node {}).lastFire - 1) (s.core core).restored) s.time)
    (hone : ∀ m ∈ ((s.core core).nodes.getD node {}).store, ∀ w, s.warp? core m.wslot = some w → w.insts.length ≤ 1)
    (hpick : s.youngestHolder core ((s.core core).nodes.getD node {}).store = some (sl, itag)) : execTagExhausted core node s =
      .next (((s.modInst core sl itag fun i => { i with squash := true }).tagSuffer core sl false).tagCount core [sl]) := by
  have hslots : (((((s.core core).nodes.getD node {}).store.map (·.wslot)).eraseDups).filter
      fun sl => (s.warp? core sl).any fun w => 1 < w.insts.length) = [] := by
    rw [List.filter_eq_nil_iff]
    intro sl hsl
    rw [List.mem_eraseDups, List.mem_map] at hsl
    obtain ⟨m, hm, rfl⟩ := hsl
    cases hw : s.warp? core m.wslot with
    | none => exact Bool.false_ne_true
    | some w => simpa using hone m hm w hw
  have hdue : ¬ cyclesBetween (max (((s.core core).nodes.getD node {}).lastFire - 1) (s.core core).restored) s.time < 1024 := by omega
  simp only [execTagExhausted, hfull, hdue, hslots, hpick]
  rfl

/-- Settles O52: each event of a block's life is what its function gives for the state it meets. -/
theorem blockLifeEvents : Obligations.BlockLifeEvents := by
  refine ⟨fun s r core slot hnow hpick => ?_, fun s core slot w e b hw hnone => ?_, fun s core node t rest n hchan hn => ?_,
    fun s core node t rest n hchan hn => ?_, fun n t rest f loc => ⟨rfl, Node.handle_fetch, Node.handle_only, Node.handle_first⟩,
    fun s t u core slot w v i more b after hw hi hb hrun hst hend hexit hsq hhalt hck hready hreads heffs hv => ?_, Warp.committed_counts,
    fun s core slot w i more c hw hi hc hst => ?_, fun s core slot w i more b f hw hi hb hst hatom hsq hexit hend => ⟨?_, State.raiseExit_fault⟩,
    fun s core slot j w e hw hrun hfair hnone hhalt hpick => execFairnessTimer_due hw hrun hfair hnone hhalt hpick,
    fun s core node sl itag hfull hlong hone hpick => execTagExhausted_youngest hfull hlong hone hpick,
    fun s core slot w i more b hw hi hb hidle hlong hexit => execBlockStuck_due hw hi hb hidle hlong hexit⟩
  · change execBlockAdmit core slot s = _
    simp [execBlockAdmit, hnow, hpick]
  · exact ⟨_, _, State.startInst_first e hw hnone, rfl, rfl, rfl, rfl, rfl, rfl, rfl, rfl, rfl, rfl, rfl, rfl, rfl, rfl, rfl⟩
  · exact execTokenArrive_handled hchan hn
  · exact execTokenArrive_handled hchan hn
  · exact congrArg _ (State.commitStep_finishes hw hi hb hrun hst hend hexit hsq hhalt hck hready hreads heffs hv)
  · exact congrArg _ (State.commitStep_notRunning hw hi hc hst)
  · exact congrArg _ (State.discardStep_raises hw hi hb hst hatom hsq hexit hend)

end Sys2Proof.Machine
end

section
/-! PROOF. What a die gives up puts no request in flight: a sector that a die writes back and drops leaves only requests that stood
before (R91, R107). -/

namespace Sys2Proof.Machine

variable {s : State} {l : List Req}

/-- Every request in flight is one of a list. -/
def State.ReqsIn (l : List Req) (s : State) : Prop := s.reqs ⊆ l

theorem State.ReqsIn.foldl {α : Type} {f : State → α → State} {as : List α} (h : s.ReqsIn l)
    (hf : ∀ (t : State) a, t.ReqsIn l → (f t a).ReqsIn l) : (as.foldl f s).ReqsIn l :=
  List.foldlRecOn as f h fun t ht a _ => hf t a ht

theorem State.ReqsIn.filter (h : s.ReqsIn l) (p : Req → Bool) : State.ReqsIn l { s with reqs := s.reqs.filter p } :=
  List.Subset.trans (List.filter_subset_self _) h

/-! ## Faults -/

theorem State.ReqsIn.hostRecord (h : s.ReqsIn l) {t : State} (vf : Nat) (record : List DWord) (ht : s.hostRecord vf record = some t) : t.ReqsIn l := by
  unfold State.hostRecord at ht
  dsimp only at ht
  split at ht
  · cases ht; exact h
  · cases ht

theorem State.ReqsIn.hostRecord_getD (h : s.ReqsIn l) {t : State} (ht : t.ReqsIn l) (vf : Nat) (record : List DWord) :
    ((s.hostRecord vf record).getD t).ReqsIn l := by
  cases hr : s.hostRecord vf record with
  | none => exact ht
  | some u => exact h.hostRecord vf record hr

theorem State.ReqsIn.numberFault (h : s.ReqsIn l) {f : WaitingFault} {q : State × WaitingFault × Nat} (hq : s.numberFault f = some q) :
    q.1.ReqsIn l := by
  unfold State.numberFault at hq
  split at hq
  · cases hq; exact h
  · cases hq; exact h
  · obtain ⟨n, -, rfl⟩ := Option.map_eq_some_iff.1 hq
    exact h

theorem State.ReqsIn.enqueueFault (h : s.ReqsIn l) (f : WaitingFault) : (s.enqueueFault f).ReqsIn l := by
  unfold State.enqueueFault
  split
  · exact h.hostRecord_getD (by exact h) _ _
  · split
    · exact h
    · exact h
    · next hq =>
      have hnum := h.numberFault hq
      dsimp only
      split
      · exact State.ReqsIn.hostRecord_getD hnum (by exact hnum) _ _
      · split <;> exact hnum

theorem State.ReqsIn.deliver (h : s.ReqsIn l) (x : Nat) (r : Requester) (halts : Bool) (f : FaultInfo) (block itag : Nat) :
    (s.deliver x r halts f block itag).ReqsIn l := by
  unfold State.deliver
  split
  · exact h
  · split
    · exact h
    · exact h.enqueueFault _

theorem State.ReqsIn.reportError (h : s.ReqsIn l) (x : Nat) (r : Requester) (e : ErrSite) : (s.reportError x r e).ReqsIn l :=
  h.deliver x r false _ 0 0

/-- An error that is met may be reported and may kill; it sends nothing. -/
theorem State.ReqsIn.sense (h : s.ReqsIn l) (by_ : Option (Nat × Requester)) (e : ErrSite) : (s.sense by_ e).ReqsIn l := by
  unfold State.sense
  dsimp only
  split
  · have hcounted : State.ReqsIn l { s with dev := { s.dev with corrected := s.dev.corrected + 1, soft := s.dev.soft.filter (· != e) } } := h
    split
    · split
      · exact hcounted.reportError _ _ _
      · exact hcounted.reportError _ _ _
      · exact h
    · exact h
  · split
    · split
      · exact h.reportError _ _ _
      · exact h.reportError _ _ _
      · exact h
    · exact h

/-! ## Memory and its ports -/

theorem State.ReqsIn.poke (h : s.ReqsIn l) (p : Place) (b : BitVec 8) : (s.poke p b).ReqsIn l := by
  unfold State.poke
  split
  · split <;> exact h
  all_goals exact h

theorem State.ReqsIn.pokeSector (h : s.ReqsIn l) (k : SKey) (mask : BitVec 64) (data : List (BitVec 8)) : (s.pokeSector k mask data).ReqsIn l := by
  refine h.foldl fun t i ht => ?_
  split
  · exact ht.poke _ _
  · exact ht

theorem State.ReqsIn.throughFirn (h : s.ReqsIn l) (k : SKey) (dirty : Bool) : (s.throughFirn k dirty).ReqsIn l := by
  unfold State.throughFirn
  split
  · exact h
  · dsimp only
    split
    · exact State.ReqsIn.foldl (by exact h) fun t e ht => ht.sense _ e
    · exact h

theorem State.ReqsIn.clearReserves (h : s.ReqsIn l) (p : Place) : (s.clearReserves p).ReqsIn l := by
  unfold State.clearReserves
  split
  · unfold State.modMonitor
    split <;> exact h
  · exact h

theorem State.ReqsIn.land (h : s.ReqsIn l) (core : Nat) (key : SKey) (mask : BitVec 64) (data : List (BitVec 8)) :
    (s.land core key mask data).ReqsIn l := by
  unfold State.land
  split
  · exact h.pokeSector _ _ _
  · split
    · exact h
    · exact ((h.throughFirn _ _).clearReserves _).pokeSector _ _ _

/-! ## A die gives a sector up -/

theorem State.ReqsIn.l1Drop (h : s.ReqsIn l) (core : Nat) (key : SKey) : (s.l1Drop core key).ReqsIn l := h.filter _

theorem State.ReqsIn.dieDrop (h : s.ReqsIn l) (d : Nat) (key : SKey) : (s.dieDrop d key).ReqsIn l := by
  refine State.ReqsIn.foldl ((h.filter fun r => !r.isBack d key).filter _) fun t c ht => ?_
  split
  · exact ht
  · refine State.ReqsIn.l1Drop ?_ _ _
    split
    · exact ht.sense _ _
    · exact ht

theorem State.ReqsIn.invalidateOthers (h : s.ReqsIn l) (writer : Option Nat) (key : SKey) : (s.invalidateOthers writer key).ReqsIn l := by
  unfold State.invalidateOthers
  dsimp only
  split
  · exact h
  · refine State.ReqsIn.foldl ?_ fun t q ht => ht.land _ _ _ _
    exact h.foldl fun t d ht => ht.dieDrop _ _

theorem State.ReqsIn.dieFlush (h : s.ReqsIn l) (d : Nat) (key : SKey) : (s.dieFlush d key).ReqsIn l :=
  (h.dieDrop d key).foldl fun _ _ ht => (ht.invalidateOthers _ _).land _ _ _ _

/-! ## PRESENCE_INVALIDATION -/

theorem State.id_of_req? {id : Nat} {r : Req} (hr : s.req? id = some r) : r ∈ s.reqs ∧ r.id = id :=
  ⟨List.mem_of_find?_eq_some hr, by simpa using List.find?_some hr⟩

section Acknowledge

variable {die id : Nat} {r : Req} {key : SKey} (hr : s.req? id = some r) (hkey : r.kind.sector = some key) (hdie : die ∈ r.acks)
include hr hkey hdie

/-- A die that is asked gives the sector up, its bit is cleared, and it acknowledges. -/
theorem execPresenceInvalidation_asked : ∃ u : State, u.reqs ⊆ s.reqs ∧ execPresenceInvalidation die id s =
    .next { u with reqs := mapIf (fun q => q.id == id) (fun q => { q with acks := q.acks.filter (· != die) }) u.reqs } := by
  have hasked : r.acks.contains die = true := by simpa using hdie
  refine ⟨(s.dieFlush die key).setPresence key (((s.dieFlush die key).presence key).filter (· != die)),
    State.ReqsIn.dieFlush (l := s.reqs) (List.Subset.refl _) die key, ?_⟩
  simp only [execPresenceInvalidation, hr, hkey, hasked, Bool.not_true, Bool.false_eq_true, if_false]

/-- The die's acknowledgement is taken from the request that asked, and no other's (R91). -/
theorem execPresenceInvalidation_acknowledges (hone : ∀ q ∈ s.reqs, q.id = id → q = r) :
    ∃ t, execPresenceInvalidation die id s = .next t ∧ ∀ q, t.req? id = some q → die ∉ q.acks ∧ ∀ d ∈ r.acks, d ≠ die → d ∈ q.acks := by
  obtain ⟨u, hsub, hexec⟩ := execPresenceInvalidation_asked hr hkey hdie
  refine ⟨_, hexec, fun q hq => ?_⟩
  obtain ⟨hmem, hid⟩ := State.id_of_req? hq
  simp only [mapIf, List.mem_map] at hmem
  obtain ⟨y, hy, rfl⟩ := hmem
  by_cases hyid : y.id = id
  · obtain rfl := hone y (hsub hy) hyid
    simpa [hyid] using fun d hd hne => ⟨hd, hne⟩
  · simp [hyid] at hid

end Acknowledge

end Sys2Proof.Machine
end

section
/-! PROOF. Requests on their routes (R18): the port toward a site, the next hop, and the arbiter's turn. -/

namespace Sys2Proof.Machine

variable {s : State} {id : Nat} {r : Req} {a b : Site} {p : Stitch}

/-! ## Routes -/

/-- The column first; each hop leads to a site one crossing nearer. -/
theorem Site.toward_next (hrow : b.row < 8) (hcol : b.col < 24) (h : a.toward b = some p) :
    (a.col ≠ b.col → p = .e ∨ p = .w) ∧ ∃ c, a.next p = some c ∧ c.hops b + 1 = a.hops b := by
  unfold Site.toward at h
  split at h
  · next hlt =>
    cases h
    refine ⟨fun _ => .inl rfl, _, if_pos (by omega), ?_⟩
    simp only [Site.hops, natDist]
    omega
  · split at h
    · next hlt =>
      cases h
      refine ⟨fun _ => .inr rfl, _, if_pos (by omega), ?_⟩
      simp only [Site.hops, natDist]
      omega
    · next hge hle =>
      have hcols : a.col = b.col := by omega
      split at h
      · cases h
        refine ⟨fun hne => absurd hcols hne, _, if_pos (by omega), ?_⟩
        simp only [Site.hops, natDist]
        omega
      · split at h
        · cases h
          refine ⟨fun hne => absurd hcols hne, _, if_pos (by omega), ?_⟩
          simp only [Site.hops, natDist]
          omega
        · cases h

theorem State.outPort_of_goal (hh : r.here = some a) (hg : s.goal r = some b) : s.outPort r = a.toward b := by
  rw [State.outPort, hh, hg]

/-! ## One crossing -/

theorem mem_arbiterOrder (last i : Option Stitch) : i ∈ arbiterOrder last := by
  rcases last with _ | _ | _ | _ | _ <;> rcases i with _ | _ | _ | _ | _ <;> decide

/-- The state in which a request has left a die by a port, and the port's arbiter has noted the input it came by. -/
def State.crossed (s : State) (r : Req) (a : Site) (p : Stitch) : State :=
  { s with
    reqs := mapIf (fun y => y.id == r.id) (a.hop p) s.reqs
    routers := ((a, p), r.inp) :: s.routers.filter fun y => y.1 != (a, p) }

/-- The only request at a port is served there, whatever input the arbiter tries first (R18). -/
theorem State.travel_only (hmem : r ∈ s.reqs) (hh : r.here = some a) (hp : s.outPort r = some p)
    (honly : ∀ q ∈ s.reqs, q.here = some a → s.outPort q = some p → q = r) : s.travel r = s.crossed r a p := by
  have hfind : ∀ last, ((arbiterOrder last).findSome? fun i =>
      (s.reqs.filter fun q => q.here == some a && s.outPort q == some p).find? fun q => q.inp == i) = some r := by
    intro last
    have hwait : r ∈ s.reqs.filter fun q => q.here == some a && s.outPort q == some p := by simp [hmem, hh, hp]
    cases hres : (arbiterOrder last).findSome? fun i =>
      (s.reqs.filter fun q => q.here == some a && s.outPort q == some p).find? fun q => q.inp == i with
    | none =>
      have hturn := List.find?_eq_none.1 (List.findSome?_eq_none_iff.1 hres r.inp (mem_arbiterOrder last r.inp)) r hwait
      exact absurd (beq_self_eq_true r.inp) hturn
    | some q =>
      obtain ⟨i, -, hq⟩ := List.exists_of_findSome?_eq_some hres
      obtain ⟨hqmem, hqat⟩ := List.mem_filter.1 (List.mem_of_find?_eq_some hq)
      simp only [Bool.and_eq_true, beq_iff_eq] at hqat
      rw [honly q hqmem hqat.1 hqat.2]
  simp only [State.travel, hh, hp, hfind]
  rfl

/-- A request on the edge chain crosses one of its links (log 57). -/
theorem State.travel_edge {m : Nat} (hh : r.here = none) (he : r.edge = some m) :
    s.travel r = { s with reqs := mapIf (fun y => y.id == r.id) (s.chain m) s.reqs } := by
  simp only [State.travel, hh, he]

theorem State.not_arrived_of_outPort (hp : s.outPort r = some p) : s.arrived r = false := by
  rw [State.arrived, hp]
  rfl

/-! ## Every event of a request on its way is one crossing -/

section Way

variable (hr : s.req? id = some r) (hway : s.arrived r = false)
include hr hway

theorem execHomeRead_travels : execHomeRead id s = .next (s.travel r) := by
  simp only [execHomeRead, hr, hway, Bool.not_false, if_true]

theorem execHomeWrite_travels {key : SKey} {mask : BitVec 64} {data : List (BitVec 8)} {src : Option (Who × Nat)}
    (hk : r.kind = .write key mask data src) : execHomeWrite id s = .next (s.travel r) := by
  simp only [execHomeWrite, hr, hk, hway, Bool.not_false, if_true]

theorem execWindowAccessArrive_load_travels {who : Who} {idx lane n : Nat} {q : Place} {resv : Bool}
    (hk : r.kind = .wload who idx lane q n resv) : execWindowAccessArrive id s = .next (s.travel r) := by
  simp only [execWindowAccessArrive, hr, hk, hway, Bool.not_false, if_true]

theorem execWindowAccessArrive_store_travels {who : Who} {idx lane : Nat} {q : Place} {bs : List (BitVec 8)}
    (hk : r.kind = .wstore who idx lane q bs) : execWindowAccessArrive id s = .next (s.travel r) := by
  simp only [execWindowAccessArrive, hr, hk, hway, Bool.not_false, if_true]

theorem execMailboxArrive_travels {core slot reg lane : Nat} {vals : List Word} {who : Who} {rel : Option Scope}
    (hk : r.kind = .mail (.mbox core slot reg lane) vals who rel) : execMailboxArrive id s = .next (s.travel r) := by
  simp only [execMailboxArrive, hr, hk, hway, Bool.not_false, if_true]

theorem execAtomicAtPort_travels {who : Who} {idx lane n : Nat} {q : Place} {op : Option AtomOp} {v cmp : BitVec 128} {reply : Bool}
    (hk : r.kind = .atomic who idx lane q op n v cmp reply) : execAtomicAtPort id s = .next (s.travel r) := by
  simp only [execAtomicAtPort, hr, hk, hway, Bool.not_false, if_true]

theorem execAtomicReply_travels {who : Who} {idx lane : Nat} {v : BitVec 128} (hk : r.kind = .reply who idx lane v) :
    execAtomicReply id s = .next (s.travel r) := by
  simp only [execAtomicReply, hr, hk, hway, Bool.not_false, if_true]

end Way

end Sys2Proof.Machine
end

section
/-! PROOF. Loads that return, the die coherence unit, homes, windows, mailboxes and atomic ports (R48 to R53, R92, R140, R199, R333). -/

namespace Sys2Proof.Machine

variable {s t : State} {id idx lane core : Nat} {r : Req} {who : Who}

/-! ## LOAD_REPLY (R199, R333) -/

/-- A walk over a list whose every element leaves the state as it is. -/
theorem foldl_stays {α β : Type} {f : β → α → β} {b : β} {l : List α} (h : ∀ a ∈ l, f b a = b) : l.foldl f b = b := by
  induction l with
  | nil => rfl
  | cons a l ih =>
    rw [List.foldl_cons, h a List.mem_cons_self]
    exact ih fun a' ha => h a' (List.mem_cons_of_mem _ ha)

section Load

variable {p : Pend} (hgot : ∀ l ∈ p.lanes, l.got.isSome = true)
include hgot

/-- Lanes that have returned are not tried again. -/
theorem State.tryPend_returned : s.tryPend who p = s := by
  have hlane : ∀ l ∈ p.lanes, ∀ (cls : MClass) (acq : Option Scope), s.tryLoad who p.idx cls acq l = s ∧ s.tryResv who p.idx cls l = s := by
    intro l hl cls acq
    simp only [State.tryLoad, State.tryResv, hgot l hl, Bool.true_or, if_true, and_self]
  rw [State.tryPend]
  split
  · rfl
  · refine foldl_stays fun l hl => ?_
    have hmem : l ∈ p.lanes := by
      split at hl
      · exact List.takeWhile_subset _ hl
      · exact hl
    obtain ⟨hload, hresv⟩ := hlane l hmem p.cls p.acq
    split
    · rfl
    · split
      · exact hload
      · exact hresv
      · rfl

theorem execLoadReply_returned {f : Form} (hp : s.pend? who idx = some p) (hf : s.formAt who idx = some f) (hacq : p.acq = none) :
    execLoadReply who idx s = .next (((s.dropPend who idx).sendTokens who f p.mask (p.parts f)).advance who idx f.isLong) := by
  have hall : (p.lanes.all fun l => l.got.isSome) = true := List.all_eq_true.2 hgot
  simp only [execLoadReply, hp, State.tryPend_returned hgot, State.completePend, hf, hall, hacq, if_true]

theorem execLoadReply_acquires {f : Form} {sc : Scope} (hp : s.pend? who idx = some p) (hf : s.formAt who idx = some f) (hacq : p.acq = some sc) :
    execLoadReply who idx s =
      .next ((((s.acquireActs who.core sc 0b111).dropPend who idx).sendTokens who f p.mask (p.parts f)).advance who idx f.isLong) := by
  have hall : (p.lanes.all fun l => l.got.isSome) = true := List.all_eq_true.2 hgot
  simp only [execLoadReply, hp, State.tryPend_returned hgot, State.completePend, hf, hall, hacq, if_true]

end Load

/-! ## DCU_REQUEST (R92) -/

theorem execDcuRequest_first {die : Nat} {q : DcuReq} {rest : List DcuReq} (hq : (s.die die).dreqs = q :: rest) (hfree : s.pageBusy die q = false)
    (hmoot : (s.modDie die fun x => { x with dreqs := rest }).dcuMoot q = false) :
    execDcuRequest die s = .next ((s.modDie die fun x => { x with dreqs := rest }).ownerServe die q) := by
  have hnext : s.dcuNext die [] (q :: rest) = some q := by
    simp only [State.dcuNext, hfree, List.contains_nil, Bool.false_eq_true, if_false]
  have herase : (s.modDie die fun x => { x with dreqs := x.dreqs.erase q }) = s.modDie die fun x => { x with dreqs := rest } := by
    simp only [State.modDie, hq, List.erase_cons_head]
  simp only [execDcuRequest, hq, hnext, herase, hmoot, Bool.false_eq_true, if_false]

/-! ## Homes (R53, R91, R99) -/

section Home

variable (hr : s.req? id = some r) (hhere : s.arrived r = true) (hfree : s.blocked r = false)

section

variable (hs : s.dev.soft = []) (hh : s.dev.hard = [])
include hs hh

/-- An access through a Firn cache meets no error where none stands, and leaves the device's errors as they are. -/
theorem State.throughFirn_dev (k : SKey) (dirty : Bool) : (s.throughFirn k dirty).dev = s.dev := by
  unfold State.throughFirn
  split
  · rfl
  · dsimp only
    split
    · rw [State.senseWhere_clean]
      · rfl
      · intro e he
        change e ∈ s.dev.soft ++ s.dev.hard at he
        rw [hs, hh] at he
        cases he
    · rfl

omit hs hh in
theorem eraseDups_of_forall_eq {α : Type} [BEq α] [LawfulBEq α] {l : List α} {a : α} (hne : l ≠ []) (h : ∀ x ∈ l, x = a) : l.eraseDups = [a] := by
  cases l with
  | nil => exact absurd rfl hne
  | cons x l =>
    obtain rfl := h x List.mem_cons_self
    have hrest : l.filter (fun y => !y == x) = [] :=
      List.filter_eq_nil_iff.2 fun y hy => by simp [h y (List.mem_cons_of_mem _ hy)]
    rw [List.eraseDups_cons, hrest]
    rfl

omit hs hh in
theorem Place.sectors_of_sector (sec : Nat) : Place.sectors (.dev (sec * 64)) 64 = [⟨none, sec⟩] := by
  refine eraseDups_of_forall_eq (by simp) fun k hk => ?_
  obtain ⟨i, hi, rfl⟩ := List.mem_map.1 hk
  have hbyte : (sec * 64 + i) / 64 = sec := by have := List.mem_range.1 hi; omega
  simp only [Place.add, Place.sector, hbyte]

/-- A read of a sector in a frame that is not being zeroed passes its home's Firn cache once (R97). -/
theorem State.homeRead_sector {key : SKey} (hkey : key.vf = none) (hz : s.zeroing (frameOf (key.sec * 64)) = false) (by_ : Option (Nat × Requester)) :
    s.homeRead by_ (key.place 0) 64 = (s.throughFirn key false, (s.throughFirn key false).peekN (key.place 0) 64) := by
  obtain ⟨vf, sec⟩ := key
  subst hkey
  have hdev := State.throughFirn_dev hs hh ⟨none, sec⟩ false
  have hfold : ∀ l : List ErrSite, l.foldl (fun s e => s.sense by_ e) (s.throughFirn ⟨none, sec⟩ false) = s.throughFirn ⟨none, sec⟩ false :=
    fun l => foldl_stays fun e _ => State.sense_clean (by rw [hdev, hs]) (by rw [hdev, hh])
  simp only [SKey.place, Nat.add_zero, State.homeRead, hz, Bool.false_eq_true, if_false, Place.sectors_of_sector, List.foldl_cons, List.foldl_nil, hfold]

end

include hr hhere hfree

theorem execHomeRead_fill {key : SKey} (hk : r.kind = .fill key false) (hkey : key.vf = none) (hs : s.dev.soft = []) (hh : s.dev.hard = [])
    (hz : s.zeroing (frameOf (key.sec * 64)) = false) (htr : s.tracked r.core key false = true) :
    execHomeRead id s = .next ((s.throughFirn key false).turnBack id (.filled key false ((s.throughFirn key false).peekN (key.place 0) 64))) := by
  simp only [execHomeRead, hr, hhere, hfree, hk, htr, State.homeRead_sector hs hh hkey hz, Bool.not_true, Bool.false_eq_true, if_false]

theorem execHomeRead_filled {key : SKey} {priv : Bool} {data : List (BitVec 8)} (hk : r.kind = .filled key priv data)
    (htr : s.tracked r.core key priv = true) : execHomeRead id s = .next ((s.l1Fill r.core key priv data).dropReq id).hostPoll := by
  simp only [execHomeRead, hr, hhere, hfree, hk, htr, Bool.not_true, Bool.false_eq_true, if_false, if_true]

theorem execHomeRead_data {v : BitVec 128} (hk : r.kind = .data who idx lane v) :
    execHomeRead id s = .next ((s.laneValue who idx lane v).dropReq id).hostPoll := by
  simp only [execHomeRead, hr, hhere, hfree, hk, Bool.not_true, Bool.false_eq_true, if_false]

theorem execHomeRead_read {p : Place} {n : Nat} (hk : r.kind = .read who idx lane p n false) :
    ∃ t, s.readAt r who idx lane p n false = some t ∧ execHomeRead id s = .next t.hostPoll := by
  obtain ⟨t, ht⟩ : ∃ t, s.readAt r who idx lane p n false = some t := ⟨_, rfl⟩
  refine ⟨t, ht, ?_⟩
  simp only [execHomeRead, hr, hhere, hfree, hk, ht, Bool.not_true, Bool.false_eq_true, if_false, Option.getD_some]

theorem execHomeWrite_performs {key : SKey} {mask : BitVec 64} {data : List (BitVec 8)} {src : Option (Who × Nat)}
    (hk : r.kind = .write key mask data src) (hask : s.askMarked r key = none) :
    execHomeWrite id s = .next (((s.dropReq id).beforeWrite r key mask data src).homeWrite r.core key mask data).hostPoll := by
  simp only [execHomeWrite, hr, hhere, hfree, hk, hask, Bool.not_true, Bool.false_eq_true, if_false]

theorem execHomeWrite_asks {key : SKey} {mask : BitVec 64} {data : List (BitVec 8)} {src : Option (Who × Nat)}
    (hk : r.kind = .write key mask data src) (hask : s.askMarked r key = some t) : execHomeWrite id s = .next t := by
  simp only [execHomeWrite, hr, hhere, hfree, hk, hask, Bool.not_true, Bool.false_eq_true, if_false]

end Home

/-- A flushing read that no handover and no invalidation awaits settles the writes posted before it (R101). -/
theorem execFlushingReadDone_settles {vf : Nat} (hvf : vf ∈ (s.core core).flushing) (hagain : s.flushAgain vf = false) :
    execFlushingReadDone core vf s = .next (State.hostPoll (s.modCore core fun k => { k with flushing := k.flushing.filter (· != vf) })) := by
  have hout : (s.core core).flushing.contains vf = true := by simpa using hvf
  simp only [execFlushingReadDone, hout, State.flushed, hagain, Bool.false_eq_true, if_false, if_true]

/-! ## Window and mailbox (R48 to R50) -/

section Port

variable (hr : s.req? id = some r) (hhere : s.arrived r = true)
include hr hhere

section Window

variable {a n : Nat} {bs : List (BitVec 8)}

theorem execWindowAccessArrive_loads (hk : r.kind = .wload who idx lane (.sp core a) n false) (hport : s.portBlocked r (.sp core a) n = false)
    (hin : inAllocs ((s.core core).allocs r.ctx) a n = true) (hs : s.dev.soft = []) (hh : s.dev.hard = []) :
    execWindowAccessArrive id s = .next (s.turnBack id (.data who idx lane (toVal (s.peekN (.sp core a) n)))) := by
  have hbad : s.windowBad r.ctx (.sp core a) n = none := if_pos hin
  have hread := State.homeRead_clean (n := n) hs hh (by_ := some (r.ctx, who.requester)) (p := .sp core a) fun d h => by cases h
  simp only [execWindowAccessArrive, hr, hhere, hk, hport, hbad, hread, Bool.not_true, Bool.false_eq_true, if_false]

theorem execWindowAccessArrive_load_faults (hk : r.kind = .wload who idx lane (.sp core a) n false)
    (hport : s.portBlocked r (.sp core a) n = false) (hout : inAllocs ((s.core core).allocs r.ctx) a n = false) :
    execWindowAccessArrive id s = .next (((s.laneValue who idx lane 0).faultAt who
      { code := .windowPerm, mask := (1 : Mask) <<< lane, raddr := s.laneVa who idx lane }).dropReq id) := by
  have hbad : s.windowBad r.ctx (.sp core a) n = some .windowPerm := if_neg (by simp [hout])
  simp only [execWindowAccessArrive, hr, hhere, hk, hport, hbad, Bool.not_true, Bool.false_eq_true, if_false]

theorem execWindowAccessArrive_stores (hk : r.kind = .wstore who idx lane (.sp core a) bs) (hport : s.portBlocked r (.sp core a) bs.length = false)
    (hin : inAllocs ((s.core core).allocs r.ctx) a bs.length = true) :
    execWindowAccessArrive id s = .next (((s.clearReserves (.sp core a)).pokeN (.sp core a) bs).dropReq id) := by
  have hbad : s.windowBad r.ctx (.sp core a) bs.length = none := if_pos hin
  simp only [execWindowAccessArrive, hr, hhere, hk, hport, hbad, State.homePoke, Bool.not_true, Bool.false_eq_true, if_false]

theorem execWindowAccessArrive_store_reports (hk : r.kind = .wstore who idx lane (.sp core a) bs)
    (hport : s.portBlocked r (.sp core a) bs.length = false) (hout : inAllocs ((s.core core).allocs r.ctx) a bs.length = false) :
    execWindowAccessArrive id s = .next ((s.lateFault r.ctx who .windowPerm lane).dropReq id) := by
  have hbad : s.windowBad r.ctx (.sp core a) bs.length = some .windowPerm := if_neg (by simp [hout])
  simp only [execWindowAccessArrive, hr, hhere, hk, hport, hbad, Bool.not_true, Bool.false_eq_true, if_false]

end Window

/-- A mailbox store that no request stands before: it is checked, and enters once there is room (R49, R50). -/
theorem execMailboxArrive_first {slot reg : Nat} {vals : List Word} {rel : Option Scope} (hk : r.kind = .mail (.mbox core slot reg lane) vals who rel)
    (hfirst : ∀ q ∈ s.reqs, id ≤ q.id) : execMailboxArrive id s =
      .next (if s.mboxOk r.ctx core slot reg then ((s.mailArrive core slot reg lane vals none rel).map (·.dropReq id)).getD s
        else (s.lateFault r.ctx who .windowPerm lane).dropReq id) := by
  have hbefore : ∀ p : Req → Bool, (s.reqs.any fun q => decide (q.id < id) && p q) = false := fun p =>
    List.any_eq_false.2 fun q hq => by simp [not_lt.2 (hfirst q hq)]
  simp only [execMailboxArrive, hr, hhere, hk, hbefore, Bool.not_true, Bool.false_eq_true, if_false]
  cases s.mboxOk r.ctx core slot reg with
  | false => rfl
  | true => cases s.mailArrive core slot reg lane vals none rel <;> rfl

/-! ## Atomics at a scratchpad port (R48, R140) -/

section Atomic

variable {a n : Nat} {op : Option AtomOp} {v cmp : BitVec 128} (hk : r.kind = .atomic who idx lane (.sp core a) op n v cmp true)
  (hport : s.portBlocked r (.sp core a) n = false)
include hk hport

theorem execAtomicAtPort_performs (hin : inAllocs ((s.core core).allocs r.ctx) a n = true) : execAtomicAtPort id s =
    .next (State.hostPoll ((s.performAt r who lane (.sp core a) op n v cmp).1.turnBack id
      (.reply who idx lane (s.performAt r who lane (.sp core a) op n v cmp).2))) := by
  have hbad : s.windowBad r.ctx (.sp core a) n = none := if_pos hin
  simp only [execAtomicAtPort, hr, hhere, hk, State.atomicBlocked, hport, State.atomicBad, hbad, State.hostRefusesAtomic, Bool.not_true,
    Bool.false_eq_true, if_false, if_true]

theorem execAtomicAtPort_turned (hout : inAllocs ((s.core core).allocs r.ctx) a n = false) :
    execAtomicAtPort id s = .next (s.atomicTurned r who idx lane true .windowPerm) := by
  have hbad : s.windowBad r.ctx (.sp core a) n = some .windowPerm := if_neg (by simp [hout])
  simp only [execAtomicAtPort, hr, hhere, hk, State.atomicBlocked, hport, State.atomicBad, hbad, Bool.not_true, Bool.false_eq_true, if_false]

end Atomic

theorem execAtomicReply_returns {v : BitVec 128} (hk : r.kind = .reply who idx lane v) :
    execAtomicReply id s = .next ((((s.setGot who idx lane v).logValue who idx lane v).dropReq id).completePend who idx) := by
  simp only [execAtomicReply, hr, hhere, hk, Bool.not_true, Bool.false_eq_true, if_false]

end Port

section Perform

variable {a n : Nat} {op : AtomOp} {v cmp : BitVec 128} (hs : s.dev.soft = []) (hh : s.dev.hard = [])
include hs hh

/-- An atomic at a scratchpad port where no error stands: the new value is written there, and the old one returned. -/
theorem State.performAt_writes {x : Nat}
    (hx : atomNew op n (bytesVal (s.peekN (.sp core a) n)) (v.toNat % 2 ^ (8 * n)) (cmp.toNat % 2 ^ (8 * n)) = some x) :
    s.performAt r who lane (.sp core a) (some op) n v cmp =
      ((s.clearReserves (.sp core a)).pokeN (.sp core a) (valBytes n x), BitVec.ofNat 128 (bytesVal (s.peekN (.sp core a) n))) := by
  have hread := State.homeRead_clean (n := n) hs hh (by_ := some (r.ctx, who.requester)) (p := .sp core a) fun d h => by cases h
  simp only [State.performAt, State.settleSector, hread, hx, State.homePoke, Bool.false_eq_true, if_false]

theorem State.performAt_keeps
    (hx : atomNew op n (bytesVal (s.peekN (.sp core a) n)) (v.toNat % 2 ^ (8 * n)) (cmp.toNat % 2 ^ (8 * n)) = none) :
    s.performAt r who lane (.sp core a) (some op) n v cmp = (s, BitVec.ofNat 128 (bytesVal (s.peekN (.sp core a) n))) := by
  have hread := State.homeRead_clean (n := n) hs hh (by_ := some (r.ctx, who.requester)) (p := .sp core a) fun d h => by cases h
  simp only [State.performAt, State.settleSector, hread, hx, Bool.false_eq_true, if_false]

end Perform

/-! ## RESERVATION_PIN_EXPIRY (R152) -/

theorem unpinned_of_mem {p : Reserve → Bool} {l : List Reserve} {q : Reserve} (hq : q ∈ mapIf p (fun y => { y with pinned := false }) l)
    (hold : p q = true) : q.pinned = false := by
  simp only [mapIf, List.mem_map] at hq
  obtain ⟨y, -, rfl⟩ := hq
  by_cases hy : p y = true
  · rw [if_pos hy]
  · rw [if_neg hy] at hold
    exact absurd hold hy

theorem execReservationPinExpiry_core (port : Nat) : ∃ t, execReservationPinExpiry port false s = .next t ∧
    ∀ q ∈ (t.core port).monitor, 2048 ≤ cyclesBetween q.since s.time → q.pinned = false := by
  refine ⟨_, congrArg Host.Outcome.next (if_neg Bool.false_ne_true), fun q hq hold => ?_⟩
  rw [State.core_modCore, if_pos rfl] at hq
  have hticks : 2048 * 4 ≤ s.time - q.since := by
    have h : 2048 ≤ (s.time - q.since) / 4 := hold
    omega
  exact unpinned_of_mem hq (by simpa [Config.ticksPerCycle] using hticks)

theorem execReservationPinExpiry_firn (port : Nat) : ∃ t, execReservationPinExpiry port true s = .next t ∧
    ∀ q ∈ (t.firn port).monitor, 2048 * Config.ticksPerFirnCycle ≤ s.time - q.since → q.pinned = false := by
  refine ⟨_, congrArg Host.Outcome.next (if_pos rfl), fun q hq hold => ?_⟩
  rw [State.firn_modFirn, if_pos rfl] at hq
  exact unpinned_of_mem hq (by simpa using hold)

/-- Settles O53: a request on its way crosses one link, and one that has arrived does what its event gives. -/
theorem memoryAndPortEvents : Obligations.MemoryAndPortEvents := by
  refine ⟨fun s who idx p f hp hf hgot => ⟨execLoadReply_returned hgot hp hf, fun sc hacq => execLoadReply_acquires hgot hp hf hacq⟩,
    fun s die q rest hq hfree hmoot => execDcuRequest_first hq hfree hmoot,
    fun a b p hrow hcol h => Site.toward_next hrow hcol h, fun s r a b hh hg => State.outPort_of_goal hh hg,
    fun s id m r hr hh he hway => ?_, fun s id r a p hr hh hp honly => ?_, fun s id r hr hhere hfree => ?_,
    fun s die id r key hr hone hkey hdie => execPresenceInvalidation_acknowledges hr hkey hdie hone,
    fun s core vf hvf hagain => execFlushingReadDone_settles hvf hagain,
    fun s id r core a hr hhere => ⟨fun who idx lane n hk hport => ⟨?_, ?_⟩, fun who idx lane bs hk hport => ⟨?_, ?_⟩⟩,
    fun s id r core slot reg lane vals who rel hr hhere hk hfirst => ?_,
    fun s id r who idx lane core a n op v cmp hr hhere hk hport => ⟨?_, ?_⟩,
    fun s r who lane core a n op v cmp hs hh => ⟨?_, fun x hx => ?_, fun hx => ?_⟩,
    fun s id r who idx lane v hr hhere hk => execAtomicReply_returns hr hhere hk, fun s port onFirn => ?_⟩
  · rw [← State.travel_edge hh he]
    exact ⟨fun key mask data src hk => execHomeWrite_travels hr hway hk, fun who idx lane q n resv hk => execHomeRead_travels hr hway⟩
  · have hway := State.not_arrived_of_outPort hp
    have htravel := State.travel_only (State.id_of_req? hr).1 hh hp honly
    rw [State.crossed] at htravel
    rw [← htravel]
    exact ⟨fun _ _ _ => execHomeRead_travels hr hway, fun _ _ _ _ _ _ _ => execHomeRead_travels hr hway,
      fun _ _ _ _ => execHomeRead_travels hr hway, fun _ _ _ _ _ => execHomeRead_travels hr hway,
      fun _ _ _ _ hk => execHomeWrite_travels hr hway hk, fun _ _ _ _ _ _ hk => execWindowAccessArrive_load_travels hr hway hk,
      fun _ _ _ _ _ hk => execWindowAccessArrive_store_travels hr hway hk, fun _ _ _ _ _ _ _ hk => execMailboxArrive_travels hr hway hk,
      fun _ _ _ _ _ _ _ _ _ hk => execAtomicAtPort_travels hr hway hk, fun _ _ _ _ hk => execAtomicReply_travels hr hway hk⟩
  · exact ⟨fun key hk hkey hs hh hz htr => execHomeRead_fill hr hhere hfree hk hkey hs hh hz htr,
      fun key priv data hk htr => execHomeRead_filled hr hhere hfree hk htr, fun who idx lane v hk => execHomeRead_data hr hhere hfree hk,
      fun who idx lane d n hk => execHomeRead_read hr hhere hfree hk,
      fun key mask data src hk hask => execHomeWrite_performs hr hhere hfree hk hask,
      fun key mask data src t hk hask => execHomeWrite_asks hr hhere hfree hk hask⟩
  · exact execWindowAccessArrive_loads hr hhere hk hport
  · exact execWindowAccessArrive_load_faults hr hhere hk hport
  · exact execWindowAccessArrive_stores hr hhere hk hport
  · exact execWindowAccessArrive_store_reports hr hhere hk hport
  · refine ⟨fun t hok ht => ?_, fun hok ht => ?_, fun hok => ?_⟩ <;> refine (execMailboxArrive_first hr hhere hk hfirst).trans ?_
    · simp only [hok, ht, if_true, Option.map_some, Option.getD_some]
    · simp only [hok, ht, if_true, Option.map_none, Option.getD_none]
    · simp only [hok, Bool.false_eq_true, if_false]
  · exact execAtomicAtPort_performs hr hhere hk hport
  · exact execAtomicAtPort_turned hr hhere hk hport
  · cases hx : atomNew op n (bytesVal (s.peekN (.sp core a) n)) (v.toNat % 2 ^ (8 * n)) (cmp.toNat % 2 ^ (8 * n)) with
    | none => rw [State.performAt_keeps hs hh hx]
    | some x => rw [State.performAt_writes hs hh hx]
  · exact congrArg Prod.fst (State.performAt_writes hs hh hx)
  · exact congrArg Prod.fst (State.performAt_keeps hs hh hx)
  · cases onFirn with
    | false =>
      obtain ⟨t, ht, hpins⟩ := execReservationPinExpiry_core (s := s) port
      exact ⟨t, ht, fun _ => hpins, fun h => by cases h⟩
    | true =>
      obtain ⟨t, ht, hpins⟩ := execReservationPinExpiry_firn (s := s) port
      exact ⟨t, ht, (fun h => by cases h), fun _ => hpins⟩

end Sys2Proof.Machine
end

section
/-! PROOF. Class 1 barriers and the named-barrier forms (R236, R240, R241, R344 to R346, Table 10.4). -/

namespace Sys2Proof.Machine

/-! ## Arrivals at a named barrier (R241, Table 10.4) -/

section Arrive

variable {b : NBar} (p : Party) {n : Nat}

/-- A count below EXP completes no phase. -/
theorem NBar.settle_of_lt (h : b.cnt < b.exp) : b.settle = b := by
  simp only [NBar.settle, Nat.div_eq_of_lt h, decide_true, Bool.or_true, if_true]

/-- A count of EXP, and less than two of them, completes one phase, and the count goes on from the rest. -/
theorem NBar.settle_of_le (hle : b.exp ≤ b.cnt) (hlt : b.cnt < 2 * b.exp) : b.settle =
    { b with ph := (b.ph + 1) % 2 ^ 32, cnt := b.cnt - b.exp, regs := b.regs.map fun r => { r with left := r.pledge } } := by
  have hpos : b.exp ≠ 0 := by omega
  have hone : b.cnt / b.exp = 1 := Nat.div_eq_of_lt_le (by omega) (by omega)
  have hrest : b.cnt % b.exp = b.cnt - b.exp := by rw [Nat.mod_eq_sub_mod hle, Nat.mod_eq_of_lt (by omega)]
  simp [NBar.settle, hpos, hone, hrest]

theorem NBar.arrive_stranded (hst : b.stranded = true) : b.arrive p n = b := by
  simp only [NBar.arrive, hst, Bool.true_or, if_true]

/-- An arrival at an open barrier is counted, and then settled. -/
theorem NBar.arrive_open (hst : b.stranded = false) (hn : n ≠ 0) : b.arrive p n =
    { b with cnt := b.cnt + n, regs := mapIf (fun r => r.party == p) (fun r => { r with left := r.left - n }) b.regs : NBar }.settle := by
  simp only [NBar.arrive, hst, hn, decide_false, Bool.or_false, Bool.false_eq_true, if_false]

theorem NBar.arrive_counts (hst : b.stranded = false) (hn : n ≠ 0) (hlt : b.cnt + n < b.exp) :
    (b.arrive p n).cnt = b.cnt + n ∧ (b.arrive p n).ph = b.ph := by
  rw [NBar.arrive_open p hst hn, NBar.settle_of_lt hlt]
  exact ⟨rfl, rfl⟩

theorem NBar.arrive_completes (hst : b.stranded = false) (hn : n ≠ 0) (hle : b.exp ≤ b.cnt + n) (hlt : b.cnt + n < 2 * b.exp) :
    (b.arrive p n).cnt = b.cnt + n - b.exp ∧ (b.arrive p n).ph = (b.ph + 1) % 2 ^ 32 ∧ ∀ r ∈ (b.arrive p n).regs, r.left = r.pledge := by
  rw [NBar.arrive_open p hst hn, NBar.settle_of_le hle hlt]
  refine ⟨rfl, rfl, fun r hr => ?_⟩
  obtain ⟨q, -, rfl⟩ := List.mem_map.1 hr
  rfl

end Arrive

/-! ## The halves of a named-barrier form's operand (R345) -/

/-- The lower half: the pledge of NBJOIN, the count of NBARRIVE and NBSYNC. -/
theorem bitsOf_lower_half (a : Nat) : bitsOf a 15 0 = a % 65536 := by simp [bitsOf]

/-- The upper half: the arrivals of NBJOIN. -/
theorem bitsOf_upper_half (a : Word) : bitsOf a.toNat 31 16 = a.toNat / 65536 :=
  Nat.mod_eq_of_lt (by have := a.isLt; omega)

/-! ## BAR and GBAR (R344) -/

section Forms

variable {s : State} {c : Issue} (w : Wd) (num : BitVec 6) (h : Issues s c)
include h

theorem execBar_buffers : execBar w s = .next ((s.addEff c (.bar c.idx)).finish c []) := by
  rw [execBar, issuing_of_issues h]

theorem execGbar_gang {t : Team} (ht : s.teamOf c.who = some t) (hg : t.lrec.gang ≠ 0) :
    execGbar w s = .next ((s.addEff c (.gbar c.idx)).finish c []) := by
  simp only [execGbar, issuing_of_issues h, ht, Option.any_some, bne_iff_ne, if_pos hg]

theorem execGbar_noGang {t : Team} (ht : s.teamOf c.who = some t) (hg : t.lrec.gang = 0) :
    execGbar w s = .next (s.faultIssue c { code := .illegalBlock, mask := c.mask }) := by
  simp only [execGbar, issuing_of_issues h, ht, Option.any_some, hg, bne_self_eq_false, Bool.false_eq_true, if_false]

/-! ## A barrier that the team does not have (R345) -/

section NoBarrier

variable (hb : s.nbar? c.who num.toNat = none)
include hb

theorem execNbjoin_noBarrier : execNbjoin w num s = .next (s.faultIssue c (nbFault c)) := by
  simp only [execNbjoin, issuing_of_issues h, hb]

theorem execNbarrive_noBarrier : execNbarrive w num s = .next (s.faultIssue c (nbFault c)) := by
  simp only [execNbarrive, issuing_of_issues h, hb]

theorem execNbsync_noBarrier : execNbsync w num s = .next (s.faultIssue c (nbFault c)) := by
  simp only [execNbsync, issuing_of_issues h, hb]

theorem execNbwait_noBarrier : execNbwait w num s = .next (s.faultIssue c (nbFault c)) := by
  simp only [execNbwait, issuing_of_issues h, hb]

end NoBarrier

/-! ## The named-barrier forms on a barrier of the team (R345, R346) -/

variable {b : NBar} (hb : s.nbar? c.who num.toNat = some b)

section Join

include hb

theorem execNbjoin_within (hle : (c.lowW .a).toNat / 65536 ≤ (c.lowW .a).toNat % 65536) : execNbjoin w num s =
    .next ((s.addEff c (.nbjoin c.idx num.toNat ((c.lowW .a).toNat % 65536) ((c.lowW .a).toNat / 65536))).finish c []) := by
  simp only [execNbjoin, issuing_of_issues h, hb, bitsOf_lower_half, bitsOf_upper_half, if_neg (not_lt.2 hle)]

theorem execNbjoin_beyond (hlt : (c.lowW .a).toNat % 65536 < (c.lowW .a).toNat / 65536) :
    execNbjoin w num s = .next (s.faultIssue c (nbFault c)) := by
  simp only [execNbjoin, issuing_of_issues h, hb, bitsOf_lower_half, bitsOf_upper_half, if_pos hlt]

end Join

section Arrivals

variable {may : Bool} (hmay : b.mayArrive (Who.party c.who) ((c.lowW .a).toNat % 65536) = may)
include hb hmay

theorem execNbarrive_judged : execNbarrive w num s = .next (if may then
    (s.addEff c (.nbarrive c.idx num.toNat ((c.lowW .a).toNat % 65536))).finish c [] else s.faultIssue c (nbFault c)) := by
  simp only [execNbarrive, issuing_of_issues h, hb, bitsOf_lower_half, hmay]

theorem execNbsync_judged : execNbsync w num s = .next (if may then
    if b.stranded then (s.addEff c (.nbarrive c.idx num.toNat ((c.lowW .a).toNat % 65536))).finish c (c.status 0x29)
    else (s.addEff c (.nbsync c.idx num.toNat ((c.lowW .a).toNat % 65536))).finish c (c.status 0)
    else s.faultIssue c (nbFault c)) := by
  simp only [execNbsync, issuing_of_issues h, hb, bitsOf_lower_half, hmay]

end Arrivals

section Wait

include hb

theorem execNbwait_completed (hph : b.ph ≠ s.waitPhase c num.toNat b) :
    execNbwait w num s = .next ((s.addEff c (.nbwaited c.idx num.toNat)).finish c (c.status 0)) := by
  simp only [execNbwait, issuing_of_issues h, hb, NBar.done, bne_iff_ne, if_pos hph]

variable (hph : b.ph = s.waitPhase c num.toNat b)
include hph

/-- NBWAIT for the phase that is going on: what it does turns on the barrier's state and on its targets. -/
theorem execNbwait_current : execNbwait w num s = .next (if b.stranded then
    if c.form.targets.all (·.isNone) then s.faultIssue c { code := .barrierStranded, mask := c.mask }
    else (s.addEff c (.nbwaited c.idx num.toNat)).finish c (c.status 0x29)
    else s.notePhase c b.ph) := by
  simp only [execNbwait, issuing_of_issues h, hb, NBar.done, ← hph, bne_self_eq_false, Bool.false_eq_true, if_false]

theorem execNbwait_stranded_sends (hst : b.stranded = true) (ht : ∃ t ∈ c.form.targets, t ≠ none) :
    execNbwait w num s = .next ((s.addEff c (.nbwaited c.idx num.toNat)).finish c (c.status 0x29)) := by
  have hall : ¬ c.form.targets.all (·.isNone) = true := by simpa [Option.ne_none_iff_exists'] using ht
  rw [execNbwait_current w num h hb hph, if_pos hst, if_neg hall]

theorem execNbwait_stranded_faults (hst : b.stranded = true) (ht : ∀ t ∈ c.form.targets, t = none) :
    execNbwait w num s = .next (s.faultIssue c { code := .barrierStranded, mask := c.mask }) := by
  have hall : c.form.targets.all (·.isNone) = true := by simpa using ht
  rw [execNbwait_current w num h hb hph, if_pos hst, if_pos hall]

theorem execNbwait_waits (hst : b.stranded = false) : execNbwait w num s = .next (s.notePhase c b.ph) := by
  rw [execNbwait_current w num h hb hph, if_neg (ne_true_of_eq_false hst)]

end Wait

end Forms

/-- Settles O34: each form by the barrier it names and what it finds there, and an arrival by the count it makes. -/
theorem barrierForms : Obligations.BarrierForms := by
  refine ⟨fun w s c t h => ⟨fun _ => execBar_buffers w h, fun _ => execGbar_gang w h, execGbar_noGang w h⟩,
    fun w num s core slot itag c b h hwho hb => ?_, fun w num s c i h hb hi => ?_,
    fun b p n => ⟨NBar.arrive_stranded p, NBar.arrive_counts p, NBar.arrive_completes p⟩⟩
  · have hparty : Party.warp slot = Who.party c.who := by rw [hwho, Who.party]
    rw [hparty]
    refine ⟨execNbjoin_within w num h hb, execNbjoin_beyond w num h hb, fun hmay => ?_, fun hmay => ?_, execNbwait_completed w num h hb,
      execNbwait_stranded_sends w num h hb, execNbwait_stranded_faults w num h hb, execNbwait_waits w num h hb⟩
    · have hsync := execNbsync_judged w num h hb hmay
      exact ⟨execNbarrive_judged w num h hb hmay, fun hst => hsync.trans (congrArg _ (if_pos hst)),
        fun hst => hsync.trans (congrArg _ (if_neg (ne_true_of_eq_false hst)))⟩
    · exact ⟨execNbarrive_judged w num h hb hmay, execNbsync_judged w num h hb hmay⟩
  · obtain rfl | rfl | rfl | rfl := hi
    · exact execNbjoin_noBarrier w num h hb
    · exact execNbarrive_noBarrier w num h hb
    · exact execNbsync_noBarrier w num h hb
    · exact execNbwait_noBarrier w num h hb

end Sys2Proof.Machine
end

section
/-! PROOF. The encoding (R251 to R264, Tables 11.5 to 11.17): what is read from the words of a form is what was written there, layout
by layout, and the decoder accepts exactly the encodings of well-formed instructions. -/

namespace Sys2Proof

/-! ## Codes -/

@[simp] theorem readRnd_code (x : Rnd) : readRnd x.code = some x := by cases x <;> rfl
@[simp] theorem readOrder_code (x : Order) : readOrder x.code = x := by cases x <;> rfl
@[simp] theorem readScope_code (x : Scope) : readScope x.code = some x := by cases x <;> rfl
@[simp] theorem readClass_code (x : MClass) : readClass x.code = some x := by cases x <;> rfl
@[simp] theorem readFmt_code (x : Fmt) : readFmt x.code = some x := by cases x <;> rfl
@[simp] theorem readSz_code (x : Sz) : readSz x.code = some x := by cases x <;> rfl
@[simp] theorem readAWidth_code (x : AWidth) : readAWidth x.code = some x := by cases x <;> rfl
@[simp] theorem readSpace_code (x : Space) : readSpace x.code = some x := by cases x <;> rfl
@[simp] theorem readAtomOp_code (x : AtomOp) : readAtomOp x.code = some x := by cases x <;> rfl
@[simp] theorem readCmpRel_code (x : CmpRel) : readCmpRel x.code = some x := by cases x <;> rfl
@[simp] theorem readFCmpRel_code (x : FCmpRel) : readFCmpRel x.code = some x := by cases x <;> rfl
@[simp] theorem readShflMode_code (x : ShflMode) : readShflMode x.code = some x := by cases x <;> rfl
@[simp] theorem readVoteMode_code (x : VoteMode) : readVoteMode x.code = some x := by cases x <;> rfl
@[simp] theorem readRedOp_code (x : RedOp) : readRedOp x.code = some x := by cases x <;> rfl
@[simp] theorem Pred.read_code (x : Pred) : Pred.read x.code = x := by cases x <;> rfl
theorem packBool_beq_one (b : Bool) : (packBool b == 1) = b := by cases b <;> rfl

@[simp] theorem readTarget_packTarget (t : Option Target) : readTarget (packTarget t) = t := by
  cases t with
  | none => rfl
  | some t =>
    obtain ⟨port, idx⟩ := t
    have hp : (port.code ++ idx).extractLsb' 6 3 = port.code := BitVec.extractLsb'_append_eq_left
    have hidx : (port.code ++ idx).extractLsb' 0 6 = idx := BitVec.extractLsb'_append_eq_right
    rw [packTarget, readTarget, hp, hidx]
    cases port <;> rfl

@[simp] theorem readW64_tyW (b : Bool) : readW64 (tyW b) = b := by cases b <;> rfl
theorem getLsbD_tyI_one (w64 nat : Bool) : (tyI w64 nat).getLsbD 1 = w64 := by cases w64 <;> cases nat <;> rfl
theorem getLsbD_tyI_zero (w64 nat : Bool) : (tyI w64 nat).getLsbD 0 = nat := by cases w64 <;> cases nat <;> rfl
theorem getLsbD_tyF (ftz : Bool) : (tyF ftz).getLsbD 0 = ftz := by cases ftz <;> rfl
theorem getLsbD_tyH_two (bf ftz : Bool) : (tyH bf ftz).getLsbD 2 = bf := by cases bf <;> cases ftz <;> rfl
theorem getLsbD_tyH_zero (bf ftz : Bool) : (tyH bf ftz).getLsbD 0 = ftz := by cases bf <;> cases ftz <;> rfl

/-! ## Words -/

/-- The fields of a first word are read as they were written (Table 11.5). -/
theorem RawWord.read_bits (r : RawWord) : RawWord.read r.bits = r := by
  obtain ⟨⟩ := r
  rw [RawWord.read, RawWord.bits, RawWord.mk.injEq]
  refine ⟨?_, ?_, ?_, ?_, ?_, ?_, ?_, ?_, ?_⟩
  all_goals repeat rw [BitVec.extractLsb'_append_eq_of_add_le (by decide)]
  case refine_9 => exact BitVec.extractLsb'_eq_self
  all_goals exact BitVec.extractLsb'_append_eq_left

/-- The targets of a second word are read as they were written (R253). -/
theorem Ext.read_bits (e : Ext) : Ext.read (Second.targets e).bits = e := by
  have h2 : (Second.targets e).bits.extractLsb' 0 9 = packTarget e.t2 := by
    rw [Second.bits, BitVec.extractLsb'_append_eq_of_add_le (by decide)]
    exact BitVec.extractLsb'_append_eq_right
  have h3 : (Second.targets e).bits.extractLsb' 9 9 = packTarget e.t3 := by
    rw [Second.bits, BitVec.extractLsb'_append_eq_of_add_le (by decide)]
    exact BitVec.extractLsb'_append_eq_left
  rw [Ext.read, h2, h3, readTarget_packTarget, readTarget_packTarget]

/-! ## Layouts (Table 11.7) -/

theorem readReg_packG (r : RegSpec) : readReg (packG r) = r := by
  obtain ⟨scalar, num⟩ := r
  rw [readReg, packG, RegSpec.byte]
  congr 1
  · repeat rw [BitVec.getLsbD_append]
    simp [packBool]
  · rw [BitVec.extractLsb'_append_eq_of_add_le (by decide)]
    exact BitVec.extractLsb'_append_eq_right

section LayoutA

variable (imm : Option (BitVec 17)) (absC absB absA negC negB negA : Bool) (rnd : BitVec 3)

theorem bit_packA : let f := packA imm absC absB absA negC negB negA rnd
    bit f 3 = negA ∧ bit f 4 = negB ∧ bit f 5 = negC ∧ bit f 6 = absA ∧ bit f 7 = absB ∧ bit f 8 = absC ∧ bit f 9 = imm.isSome := by
  simp only [bit, packA]
  repeat rw [BitVec.getLsbD_append]
  simp [packBool]

theorem rnd_packA : (packA imm absC absB absA negC negB negA rnd).extractLsb' 0 3 = rnd := BitVec.extractLsb'_append_eq_right

theorem readImm17_packA : readImm17 (packA imm absC absB absA negC negB negA rnd) = imm := by
  obtain ⟨-, -, -, -, -, -, hsome⟩ := bit_packA imm absC absB absA negC negB negA rnd
  have hval : (packA imm absC absB absA negC negB negA rnd).extractLsb' 10 17 = imm.getD 0 := by
    rw [packA]
    repeat rw [BitVec.extractLsb'_append_eq_of_le (by decide)]
    exact BitVec.extractLsb'_eq_self
  rw [readImm17, hval, ← bit, hsome]
  cases imm <;> rfl

end LayoutA

theorem fields_packM (off : BitVec 19) (win : Bool) (order : Order) (scope : Scope) (cls : MClass) : let f := packM off win order scope cls
    f.extractLsb' 8 19 = off ∧ bit f 7 = win ∧ f.extractLsb' 5 2 = order.code ∧ f.extractLsb' 2 3 = scope.code ∧ f.extractLsb' 0 2 = cls.code := by
  simp only [bit, packM]
  refine ⟨?_, ?_, ?_, ?_, BitVec.extractLsb'_append_eq_right⟩
  · repeat rw [BitVec.extractLsb'_append_eq_of_le (by decide)]
    exact BitVec.extractLsb'_eq_self
  · repeat rw [BitVec.getLsbD_append]
    simp [packBool]
  · repeat rw [BitVec.extractLsb'_append_eq_of_le (by decide)]
    exact BitVec.extractLsb'_append_eq_right
  · rw [BitVec.extractLsb'_append_eq_of_le (by decide)]
    exact BitVec.extractLsb'_append_eq_right

theorem fields_packF (order : Order) (scope : Scope) (mask : BitVec 3) : let f := packF order scope mask
    f.extractLsb' 6 2 = order.code ∧ f.extractLsb' 3 3 = scope.code ∧ f.extractLsb' 0 3 = mask := by
  simp only [packF]
  refine ⟨?_, ?_, BitVec.extractLsb'_append_eq_right⟩
  all_goals
    repeat rw [BitVec.extractLsb'_append_eq_of_le (by decide)]
    exact BitVec.extractLsb'_append_eq_right

theorem fields_packE (scope : Scope) (tok : Option (BitVec 6)) : let f := packE scope tok
    f.extractLsb' 7 3 = scope.code ∧ bit f 6 = tok.isSome ∧ f.extractLsb' 0 6 = tok.getD 0 := by
  simp only [bit, packE]
  refine ⟨?_, ?_, BitVec.extractLsb'_append_eq_right⟩
  · repeat rw [BitVec.extractLsb'_append_eq_of_le (by decide)]
    exact BitVec.extractLsb'_append_eq_right
  · repeat rw [BitVec.getLsbD_append]
    simp [packBool]

theorem fields_packC (ftz sat : Bool) (rnd : Rnd) (dst src : Fmt) : let f := packC ftz sat rnd dst src
    bit f 12 = ftz ∧ bit f 11 = sat ∧ f.extractLsb' 8 3 = rnd.code ∧ f.extractLsb' 4 4 = dst.code ∧ f.extractLsb' 0 4 = src.code := by
  simp only [bit, packC]
  refine ⟨?_, ?_, ?_, ?_, BitVec.extractLsb'_append_eq_right⟩
  iterate 2
    · repeat rw [BitVec.getLsbD_append]
      simp [packBool]
  all_goals
    repeat rw [BitVec.extractLsb'_append_eq_of_le (by decide)]
    exact BitVec.extractLsb'_append_eq_right

theorem fields_packV (excl : Bool) (rnd : Rnd) : let f := packV excl rnd
    bit f 3 = excl ∧ f.extractLsb' 0 3 = rnd.code := by
  simp only [bit, packV]
  refine ⟨?_, BitVec.extractLsb'_append_eq_right⟩
  repeat rw [BitVec.getLsbD_append]
  simp [packBool]

/-! ## The fields of a form, read from its first word and the word after it -/

section Reads

variable {f : Form} {w2 : BitVec 64}

@[simp] theorem Form.raw_fmtf (f : Form) : f.raw.fmtf = f.fmtf := rfl
@[simp] theorem Form.raw_ty (f : Form) : f.raw.ty = f.ty := rfl

/-- LONG is 1 where the form has a second word. -/
theorem Form.raw_long_beq (f : Form) : (f.raw.long == 1) = f.isLong := packBool_beq_one _

/-- The common fields, where the second word has layout T. -/
theorem Form.raw_wdT (hs : f.second = f.wd.second) (h2 : f.isLong = true → w2 = f.second.bits) : f.raw.wdT w2 = f.wd := by
  rcases hwd : f.wd with ⟨pred, fsel, t0, t1, ext⟩
  rw [RawWord.wdT, Form.raw_long_beq]
  have hext : (if f.isLong = true then some (Ext.read w2) else none) = ext := by
    rw [hwd] at hs
    cases ext with
    | none => simp [Form.isLong, hs, Wd.second]
    | some e =>
      have hlong : f.isLong = true := by rw [Form.isLong, hs]; rfl
      rw [if_pos hlong, h2 hlong, hs]
      exact congrArg some (Ext.read_bits e)
  simp only [Form.raw, hwd, readTarget_packTarget, Pred.read_code, packBool_beq_one, hext]

/-- The common fields, where the second word has another layout or there is none. -/
theorem Form.raw_wdN (hs : f.extOk = f.wd.ext.isNone) (hwf : f.wellFormed = true) : f.raw.wdN = f.wd := by
  simp only [Form.wellFormed, Bool.and_eq_true] at hwf
  obtain ⟨⟨-, hext⟩, -⟩ := hwf
  rw [hs, Option.isNone_iff_eq_none] at hext
  rcases hwd : f.wd with ⟨pred, fsel, t0, t1, ext⟩
  rw [hwd] at hext
  simp only [RawWord.wdN, Form.raw, hwd, readTarget_packTarget, Pred.read_code, packBool_beq_one, ← hext]

theorem Form.raw_intOp {o : IntOp} (hwd : f.raw.wdT w2 = o.wd) (hty : f.ty = tyI o.w64 o.nat)
    (hfm : f.fmtf = packA o.imm false false false false false false 0) : f.raw.intOp w2 = o := by
  rw [RawWord.intOp, hwd, Form.raw_ty, hty, Form.raw_fmtf, hfm, getLsbD_tyI_one, getLsbD_tyI_zero, readImm17_packA]

theorem Form.raw_fltOp {o : FltOp} (hwd : f.raw.wdT w2 = o.wd) (hty : f.ty.getLsbD 0 = o.ftz)
    (hfm : f.fmtf = packA o.imm o.absC o.absB o.absA o.negC o.negB o.negA o.rnd.code) : f.raw.fltOp w2 = some o := by
  obtain ⟨hna, hnb, hnc, haa, hab, hac, -⟩ := bit_packA o.imm o.absC o.absB o.absA o.negC o.negB o.negA o.rnd.code
  rw [RawWord.fltOp, hwd, Form.raw_ty, hty, Form.raw_fmtf, hfm, readImm17_packA, rnd_packA, hna, hnb, hnc, haa, hab, hac, readRnd_code]
  rfl

theorem Form.raw_cvtOp {o : CvtOp} (hwd : f.raw.wdT w2 = o.wd) (hfm : f.fmtf = packC o.ftz o.sat o.rnd o.dst o.src) :
    f.raw.cvtOp w2 = some o := by
  obtain ⟨hftz, hsat, hrnd, hdst, hsrc⟩ := fields_packC o.ftz o.sat o.rnd o.dst o.src
  simp only [RawWord.cvtOp, hwd, Form.raw_fmtf, hfm, hftz, hsat, hrnd, hdst, hsrc, readRnd_code, readFmt_code]

theorem Form.raw_memOp {o : MemOp} {win : Bool} (hwd : f.raw.wdT w2 = o.wd) (hfm : f.fmtf = packM o.off win o.order o.scope o.cls) :
    f.raw.memOp w2 = some o := by
  obtain ⟨hoff, -, horder, hscope, hcls⟩ := fields_packM o.off win o.order o.scope o.cls
  simp only [RawWord.memOp, hwd, Form.raw_fmtf, hfm, hoff, horder, hscope, hcls, readScope_code, readClass_code, readOrder_code]

theorem Form.raw_engForm {e : EngForm} (hwd : f.raw.wdT w2 = e.wd) (hfm : f.fmtf = packE e.scope e.tok) : f.raw.engForm w2 = some e := by
  obtain ⟨wd, scope, tok⟩ := e
  obtain ⟨hscope, hsome, htok⟩ := fields_packE scope tok
  rw [RawWord.engForm, hwd, Form.raw_fmtf, hfm, hscope, hsome, htok, readScope_code]
  cases tok <;> rfl

theorem Form.raw_num {num : BitVec 6} (hfm : f.fmtf = packH num) : f.raw.num = num :=
  (congrArg _ hfm).trans BitVec.extractLsb'_append_eq_right

theorem Form.raw_sel {sel : BitVec 16} (hfm : f.fmtf = packS sel) : f.raw.sel = sel :=
  (congrArg _ hfm).trans BitVec.extractLsb'_append_eq_right

/-- The number in a second word of layout off2 (R253). -/
theorem Form.off2_of_second {x : BitVec 27} (hs : f.second = .off2 x) (h2 : f.isLong = true → w2 = f.second.bits) : w2.extractLsb' 0 27 = x := by
  have hlong : f.isLong = true := by rw [Form.isLong, hs]; rfl
  rw [h2 hlong, hs]
  exact BitVec.extractLsb'_append_eq_right

end Reads

/-! ## The opcode map (Tables 11.9 to 11.17) -/

theorem varOfBool_beq_one (b : Bool) : ((if b then 1 else 0 : BitVec 4) == 1) = b := by cases b <;> rfl

/-- The first word of a well-formed form, with its second word after it where LONG is 1, names the form's instruction: each layout's fields
are read as they were written, and the tables give the instruction its opcode and variant stand for. -/
theorem candidate_raw {i : Instr} {f : Form} (hf : i.form = some f) (hwf : f.wellFormed = true) (w2 : BitVec 64)
    (h2 : f.isLong = true → w2 = f.second.bits) : candidate f.raw w2 = some i := by
  have hT (hs : f.second = f.wd.second) : f.raw.wdT w2 = f.wd := Form.raw_wdT hs h2
  have hN (hs : f.extOk = f.wd.ext.isNone) : f.raw.wdN = f.wd := Form.raw_wdN hs hwf
  have hoff2 {x : BitVec 27} (hs : f.second = .off2 x) : w2.extractLsb' 0 27 = x := Form.off2_of_second hs h2
  cases i <;> cases hf
  -- Table 11.9
  case getr | setr => exact congrArg some (congr (congrArg₂ _ (hT rfl) (readW64_tyW _)) (readReg_packG _))
  case fan | sel => exact congrArg some (congrArg₂ _ (hT rfl) (readW64_tyW _))
  case movi _ _ _ imm64 =>
    cases imm64 with
    | none => exact congrArg some (congr (congr (congrArg₂ _ (hN rfl) (readW64_tyW _)) rfl) rfl)
    | some x => exact congrArg some (congr (congr (congrArg₂ _ (hN rfl) (readW64_tyW _)) rfl) (congrArg some (h2 rfl)))
  case sink | bri => exact congrArg some (congrArg _ (hT rfl))
  case br => exact congrArg some (congrArg₂ _ (hN rfl) rfl)
  case brc | call => exact congrArg some (congr (congrArg₂ _ (hN rfl) rfl) (hoff2 rfl))
  case calli | loop => exact congrArg some (congrArg₂ _ (hN rfl) (hoff2 rfl))
  case ret | exit => exact congrArg some (congrArg _ (hN rfl))
  case trap => exact congrArg some (congrArg₂ _ (hT rfl) (Form.raw_sel rfl))
  -- Table 11.10
  case iadd | isub | imul | imulh | imad | ineg | iabs | imin | imax | idiv | irem | iand | ior | ixor | inot | andn | shl | shr | sar | rol | ror
      | popc | clz | ctz | brev | bfx | bfi | lea =>
    exact congrArg some (congrArg _ (Form.raw_intOp (hT rfl) rfl rfl))
  case icmp => exact Option.map_eq_some_iff.2 ⟨_, readCmpRel_code _, congrArg _ (Form.raw_intOp (hT rfl) rfl rfl)⟩
  -- Table 11.11
  case laneid => exact congrArg some (congrArg _ (hT rfl))
  case shfl => exact Option.map_eq_some_iff.2 ⟨_, readShflMode_code _, congrArg₂ _ (hT rfl) (readW64_tyW _)⟩
  case bcast => exact congrArg some (congrArg₂ _ (hT rfl) (readW64_tyW _))
  case vote => exact Option.map_eq_some_iff.2 ⟨_, readVoteMode_code _, congrArg _ (hT rfl)⟩
  case reduce op w w64 nat rnd =>
    obtain ⟨-, hrnd⟩ := fields_packV false rnd
    refine (?_ : (match readRedOp op.code, readRnd ((packV false rnd).extractLsb' 0 3) with | some _, some _ => _ | _, _ => none) = _)
    rw [hrnd, readRnd_code, readRedOp_code]
    exact congrArg some (congr (congr (congrArg₂ _ (hT rfl) (getLsbD_tyI_one _ _)) (getLsbD_tyI_zero _ _)) rfl)
  case scan op w w64 nat excl rnd =>
    obtain ⟨hexcl, hrnd⟩ := fields_packV excl rnd
    refine (?_ : (match readRedOp op.code, readRnd ((packV excl rnd).extractLsb' 0 3) with | some _, some _ => _ | _, _ => none) = _)
    rw [hrnd, readRnd_code, readRedOp_code]
    exact congrArg some (congr (congr (congr (congrArg₂ _ (hT rfl) (getLsbD_tyI_one _ _)) (getLsbD_tyI_zero _ _)) hexcl) rfl)
  -- Table 11.12
  case fadd | fsub | fmul | ffma | fdiv | fsqrt | frcp | frsq | fex2 | flg2 | fsin | fcos | frnd | fclass | fldexp =>
    exact congrArg (Option.map _) (Form.raw_fltOp (hT rfl) (getLsbD_tyF _) rfl)
  case fmin | fmax => exact Option.map_eq_some_iff.2 ⟨_, Form.raw_fltOp (hT rfl) (getLsbD_tyF _) rfl, congrArg₂ _ (varOfBool_beq_one _) rfl⟩
  case fcmp =>
    exact Option.bind_eq_some_iff.2 ⟨_, readFCmpRel_code _, congrArg (Option.map _) (Form.raw_fltOp (hT rfl) (getLsbD_tyF _) rfl)⟩
  case hadd2 | hmul2 | hfma2 =>
    exact Option.map_eq_some_iff.2 ⟨_, Form.raw_fltOp (hT rfl) (getLsbD_tyH_zero _ _) rfl, congrArg₂ _ (getLsbD_tyH_two _ _) rfl⟩
  -- Table 11.13
  case cvt | cvtSr | pack | unpack | dsenc | dsdec | scaleq | quant => exact congrArg (Option.map _) (Form.raw_cvtOp (hT rfl) rfl)
  case rng => exact congrArg some (congrArg _ (hT rfl))
  -- Table 11.14
  case ld | st | lds | sts | ldw | stw =>
    exact Option.bind_eq_some_iff.2 ⟨_, readSz_code _, congrArg (Option.map _) (Form.raw_memOp (hT rfl) rfl)⟩
  case ldres | stcond =>
    exact Option.bind_eq_some_iff.2 ⟨_, readSpace_code _,
      Option.map_eq_some_iff.2 ⟨_, Form.raw_memOp (hT rfl) rfl, congrArg₂ _ (readW64_tyW _) rfl⟩⟩
  case pref => exact congrArg (Option.map _) (Form.raw_memOp (hT rfl) rfl)
  case atom | red =>
    exact Option.bind_eq_some_iff.2 ⟨_, readAtomOp_code _,
      Option.bind_eq_some_iff.2 ⟨_, readAWidth_code _, congrArg (Option.map _) (Form.raw_memOp (hT rfl) rfl)⟩⟩
  case atoms op aw wn o =>
    obtain ⟨-, hwin, -⟩ := fields_packM o.off wn o.order o.scope o.cls
    exact Option.bind_eq_some_iff.2 ⟨_, readAtomOp_code _, Option.bind_eq_some_iff.2 ⟨_, readAWidth_code _,
      Option.map_eq_some_iff.2 ⟨_, Form.raw_memOp (hT rfl) rfl, congrArg₂ _ hwin rfl⟩⟩⟩
  case fence w order scope mask =>
    obtain ⟨horder, hscope, hmask⟩ := fields_packF order scope mask
    exact Option.map_eq_some_iff.2 ⟨_, (congrArg readScope hscope).trans (readScope_code _),
      congr (congrArg₂ (Instr.fence · · scope) (hT rfl) ((congrArg readOrder horder).trans (readOrder_code _))) hmask⟩
  -- Table 11.15
  case bar | gbar => exact congrArg some (congrArg _ (hT rfl))
  case nbjoin | nbarrive | nbwait | nbsync | waitf | evwait | evsig | send | recv | chstat | chresize =>
    exact congrArg some (congrArg₂ _ (hT rfl) (Form.raw_num rfl))
  -- Table 11.16
  case copy | copy2d | tcopy | gath | scat | stream | istream | handoffTohost | handoffTodevice | mxload | mxfeeds | mxmul | collAllreduce | collReduce
      | collBroadcast | collAllgather | collReducescatter | collAlltoall | collBarrier =>
    exact congrArg (Option.map _) (Form.raw_engForm (hT rfl) rfl)
  case fill => exact Option.bind_eq_some_iff.2 ⟨_, readSz_code _, congrArg (Option.map _) (Form.raw_engForm (hT rfl) rfl)⟩
  case mxcfg arr _ => cases arr <;> exact congrArg some (congrArg _ (hT rfl))
  case mxdrain => exact congrArg (Option.map _) (Form.raw_cvtOp (hT rfl) rfl)
  case strmctlStart | strmctlPause | strmctlResume | strmctlCancel | mxcfgRelease | mxfeed | mxzero | mxstat | commnew | commfree | commstat =>
    exact congrArg some (congrArg _ (hT rfl))
  -- Table 11.17
  case rdsys | wrsys | topo => exact congrArg some (congrArg₂ _ (hT rfl) (Form.raw_sel rfl))
  case launch | lstat | ctxnew | ctxgrant | ctxrevoke | ctxkill | ctxrunResume | ctxrunReflect | ctxstat | tlbinv | fqpop | time | latband | capw
      | trace | tmaskMask | tmaskUnmask | tret =>
    exact congrArg some (congrArg _ (hT rfl))

/-! ## The decoder -/

theorem encode_of_form {i : Instr} {f : Form} (hf : i.form = some f) : encode i = f.words := by rw [encode, hf]

/-- What it takes for the decoder to accept a word and the words after it. -/
theorem decode_cons_eq_ok_iff {w : BitVec 64} {ws rest : List (BitVec 64)} {i : Instr} : decode (w :: ws) = .ok (i, rest) ↔
    ((RawWord.read w).long = 1 → ws ≠ []) ∧ candidate (.read w) (ws.headD 0) = some i ∧ w :: ws = encode i ++ rest ∧
      ((encode i).length = 2 ↔ (RawWord.read w).long = 1) ∧ i.wellFormed = true := by
  constructor
  · intro h
    simp only [decode] at h
    split at h
    case isTrue => cases h
    split at h
    case h_1 => cases h
    split at h
    case isTrue => cases h
    split at h
    case isFalse => cases h
    cases h
    rename_i hlong _ hcand hread hwf
    simp only [Bool.or_eq_true, bne_iff_ne, not_or, not_not] at hread
    obtain ⟨htake, hlen⟩ := hread
    rw [Bool.eq_iff_iff, beq_iff_eq, beq_iff_eq] at hlen
    refine ⟨by simpa using hlong, hcand, ?_, hlen, hwf⟩
    exact (List.take_append_drop (encode i).length _).symm.trans (congrArg (· ++ _) htake.symm)
  · rintro ⟨hlong, hcand, hws, hlen, hwf⟩
    have hlong' : ((RawWord.read w).long == 1 && ws.isEmpty) = false := by simpa using hlong
    have hread : (encode i != (w :: ws).take (encode i).length || ((encode i).length == 2) != ((RawWord.read w).long == 1)) = false := by
      rw [hws, List.take_left, bne_self_eq_false, Bool.false_or, bne_eq_false_iff_eq, Bool.eq_iff_iff, beq_iff_eq, beq_iff_eq, hlen]
    simp only [decode, hlong', hcand, hread, hwf, Bool.false_eq_true, if_false, if_true]
    rw [hws, List.drop_left]

/-- Settles O2: the fields of the words are those of the form, and the map gives its instruction. -/
theorem decodingAnEncodedFormGivesItBack : Obligations.DecodingAnEncodedFormGivesItBack := by
  intro i f rest hf hwf
  have hform : f.wellFormed = true := by rwa [Instr.wellFormed, hf] at hwf
  have hlong : (RawWord.read f.raw.bits).long = 1 ↔ f.isLong = true := by
    rw [RawWord.read_bits, ← beq_iff_eq, Form.raw_long_beq]
  have henc := encode_of_form hf
  rw [Form.words] at henc
  rw [henc, List.cons_append, decode_cons_eq_ok_iff, henc, hlong, RawWord.read_bits]
  by_cases h : f.isLong = true
  · rw [if_pos h]
    exact ⟨fun _ => List.cons_ne_nil _ _, candidate_raw hf hform _ fun _ => rfl, rfl, iff_of_true rfl h, hwf⟩
  · rw [if_neg h]
    exact ⟨fun h' => absurd h' h, candidate_raw hf hform _ fun h' => absurd h' h, rfl, iff_of_false nofun h, hwf⟩

/-- Settles O3: the decoder accepts a word only where it is the encoding of what was read. -/
theorem decodedWordsAreTheEncoding : Obligations.DecodedWordsAreTheEncoding := by
  intro ws rest i h
  cases ws with
  | nil => cases h
  | cons w ws =>
    obtain ⟨-, -, hws, -, hwf⟩ := decode_cons_eq_ok_iff.1 h
    exact ⟨hws, hwf⟩

/-- Settles O1: each word is a closed value, and so is what it decodes to. -/
theorem wordsDecodeAsTheTablesSay : Obligations.WordsDecodeAsTheTablesSay := by
  unfold Obligations.WordsDecodeAsTheTablesSay
  decide

end Sys2Proof
end

section
/-! PROOF. The packed forms (R258, R311): the two halves of their results. -/

namespace Sys2Proof.Machine

variable {bf : Bool} {o : FltOp} {s : State} {c : Issue}

/-- The word of two halves. -/
def packHalves (r : Nat → Nat) : Word := BitVec.ofNat 32 (r 0 % 2 ^ 16 + r 1 % 2 ^ 16 * 2 ^ 16)

theorem extractLsb'_packHalves (r : Nat → Nat) {h : Nat} (hh : h < 2) : (packHalves r).extractLsb' (16 * h) 16 = BitVec.ofNat 16 (r h) := by
  rw [packHalves, extractLsb'_ofNat (by omega), ← ofNat_mod_two_pow, ← ofNat_mod_two_pow _ (r h)]
  congr 1
  interval_cases h <;> omega

/-- Operand b of a packed form: an immediate stands in both halves (R258). -/
def packedB (o : FltOp) (c : Issue) (l : Nat) : Nat := match o.imm with | some x => x.toNat % 65536 * 65537 | none => (c.w32 .b l).toNat

/-- A function of the prepared operands of one half of a lane (R311). -/
def onHalf (bf : Bool) (o : FltOp) (c : Issue) (f : Fmt → Nat → Nat → Nat → Nat) (l h : Nat) : Nat :=
  f (halfFmt bf) (halfOf (halfFmt bf) o.ftz o.absA o.negA (c.w32 .a l).toNat h) (halfOf (halfFmt bf) o.ftz o.absB o.negB (packedB o c l) h)
    (halfOf (halfFmt bf) o.ftz o.absC o.negC (c.w32 .c l).toNat h)

/-- A packed form sends, in each half, its function of that half's operands. -/
theorem packed_sends {i : Instr} {f : Fmt → Nat → Nat → Nat → Nat} (h : Issues s c) (hi : exec i s = halfMeaning bf o s f) :
    Sends32 i s c fun l => packHalves (onHalf bf o c f l) :=
  hi.trans (issuing_of_issues h)

/-- Settles O19: a packed form's word, half by half, and the rounding of one half's exact result. -/
theorem packedHalvesAreIndependent : Obligations.PackedHalvesAreIndependent := by
  intro bf o s c h
  refine ⟨_, _, _, packed_sends (f := fun f a b _ => fAdd f (fltMode o) o.ftz (fval f a) (fval f b)) h rfl,
    packed_sends (f := fun f a b _ => fMul f (fltMode o) o.ftz (fval f a) (fval f b)) h rfl,
    packed_sends (f := fun f a b d => fFma f (fltMode o) o.ftz (fval f a) (fval f b) (fval f d)) h rfl, fun l k hk => ?_⟩
  simp only [extractLsb'_packHalves _ hk, onHalf, fAdd_eq_code, fMul_eq_code, fFma_eq_code]
  exact ⟨rfl, rfl, rfl⟩

end Sys2Proof.Machine
end

section
/-! PROOF. Shifts and rotations (R297): on numbers of w bits they are the operations of words, for every count. -/

namespace Sys2Proof.Machine

variable {s : State} {c : Issue} {o : IntOp}

/-! ## Forms whose function depends on their width -/

theorem width_pos (o : IntOp) : 0 < o.width := by
  unfold IntOp.width
  split <;> decide

/-- A form whose function on natural numbers is, in the form's width, an operation of words sends what the operation gives (R295). -/
theorem sendsInt_of_width {i : Instr} {f : Nat → Nat → Nat → Nat} {g : (w : Nat) → BitVec w → BitVec w → BitVec w → BitVec w}
    (hi : exec i s = intMeaning o s f) (hfg : ∀ a b d : BitVec o.width, BitVec.ofNat o.width (f a.toNat b.toNat d.toNat) = g o.width a b d)
    (h : Issues s c) : SendsInt i o s c g := by
  have hexec : exec i s = .next (s.finish c (intResult o c f)) := hi.trans (issuing_of_issues h)
  constructor
  all_goals intro hw; refine hexec.trans ?_
  · have hwidth : o.width = 32 := by simp [IntOp.width, hw]
    rw [hwidth] at hfg
    simp only [intResult, intOperand, hw, intB_eq_intB32, hfg, if_false, Bool.false_eq_true]
  · have hwidth : o.width = 64 := by simp [IntOp.width, hw]
    rw [hwidth] at hfg
    simp only [intResult, intOperand, hw, intB_eq_intB64, hfg, if_true]

/-! ## Shifts -/

/-- An integer taken as w bits is its word. -/
theorem ofNat_wrapInt (w : Nat) (x : Int) : BitVec.ofNat w (wrapInt w x) = BitVec.ofInt w x := by
  apply BitVec.eq_of_toNat_eq
  rw [BitVec.toNat_ofNat, BitVec.toNat_ofInt, wrapInt, Nat.mod_eq_of_lt]
  have := Int.emod_lt_of_pos x (b := ((2 ^ w : Nat) : Int)) (by positivity)
  omega

/-- A number divided by a power of two is its word shifted. -/
theorem ofNat_div_two_pow {w : Nat} (a : BitVec w) (n : Nat) : BitVec.ofNat w (a.toNat / 2 ^ n) = a >>> n := by
  apply BitVec.eq_of_toNat_eq
  rw [BitVec.toNat_ofNat, BitVec.toNat_ushiftRight, Nat.shiftRight_eq_div_pow, Nat.mod_eq_of_lt]
  exact (Nat.div_le_self _ _).trans_lt a.isLt

theorem ofNat_shiftLeft {w : Nat} (a : BitVec w) (n : Nat) : BitVec.ofNat w (shiftLeft w a.toNat n) = a <<< n := by
  unfold shiftLeft
  split_ifs with h
  · exact ofNat_mul_two_pow a n
  · rw [BitVec.shiftLeft_eq_zero (not_lt.1 h)]

theorem ofNat_shiftRight {w : Nat} (a : BitVec w) (n : Nat) : BitVec.ofNat w (shiftRight w a.toNat n) = a >>> n := by
  unfold shiftRight
  split_ifs with h
  · exact ofNat_div_two_pow a n
  · rw [BitVec.ushiftRight_eq_zero (not_lt.1 h)]

/-- An arithmetic shift by more than the width is one by the width: every bit is the sign. -/
theorem sshiftRight_min {w : Nat} (a : BitVec w) (n : Nat) : a.sshiftRight (min n w) = a.sshiftRight n := by
  rcases le_total n w with h | h
  · rw [min_eq_left h]
  · rw [min_eq_right h]
    ext i hi
    rw [BitVec.getElem_sshiftRight, BitVec.getElem_sshiftRight, dif_neg (by omega), dif_neg (by omega)]

theorem ofNat_shiftArith {w : Nat} (hw : 0 < w) (a : BitVec w) (n : Nat) : BitVec.ofNat w (shiftArith w a.toNat n) = a.sshiftRight n := by
  rw [shiftArith, ofNat_wrapInt, signedOf_toNat hw, ← Int.shiftRight_eq_div_pow, ← BitVec.sshiftRight_eq, sshiftRight_min]

/-! ## Rotations -/

/-- What a rotation shifts up and what it brings round do not overlap. -/
theorem shiftLeft_and_ushiftRight {w : Nat} (a : BitVec w) (r : Nat) : a <<< r &&& a >>> (w - r) = 0 := by
  ext i hi
  rw [BitVec.getElem_and, BitVec.getElem_shiftLeft, BitVec.getElem_ushiftRight]
  by_cases h : i < r
  · simp [h]
  · rw [BitVec.getLsbD_of_ge a _ (by omega), Bool.and_false]
    exact (BitVec.getElem_zero hi).symm

theorem ofNat_rotLeft {w : Nat} (a : BitVec w) (n : Nat) : BitVec.ofNat w (rotLeft w a.toNat n) = a.rotateLeft n := by
  rw [rotLeft, BitVec.ofNat_add, ofNat_mul_two_pow, ofNat_div_two_pow, BitVec.rotateLeft_def,
    BitVec.add_eq_or_of_and_eq_zero _ _ (shiftLeft_and_ushiftRight a (n % w))]

/-- A rotation to the right is the one to the left by what is missing to the width. -/
theorem rotateLeft_sub_mod {w : Nat} (a : BitVec w) (n : Nat) : a.rotateLeft (w - n % w) = a.rotateRight n := by
  rcases Nat.eq_zero_or_pos (n % w) with h | h
  · rw [BitVec.rotateLeft_def, BitVec.rotateRight_def, h, Nat.sub_zero, Nat.mod_self, Nat.sub_zero, BitVec.ushiftRight_eq_zero (le_refl w),
      BitVec.shiftLeft_eq_zero (le_refl w), BitVec.shiftLeft_zero, BitVec.ushiftRight_zero]
  · rcases Nat.eq_zero_or_pos w with rfl | hw
    · exact Subsingleton.elim _ _
    · have hlt : n % w < w := Nat.mod_lt n hw
      rw [BitVec.rotateLeft_def, BitVec.rotateRight_def, Nat.mod_eq_of_lt (by omega : w - n % w < w), Nat.sub_sub_self hlt.le, BitVec.or_comm]

theorem ofNat_rotRight {w : Nat} (a : BitVec w) (n : Nat) : BitVec.ofNat w (rotRight w a.toNat n) = a.rotateRight n :=
  (ofNat_rotLeft a _).trans (rotateLeft_sub_mod a n)

/-- Settles O9: each form by the operation of words that its function is. -/
theorem shiftsAndRotations : Obligations.ShiftsAndRotations := by
  refine fun o s c h => ⟨?_, ?_, ?_, ?_, ?_⟩
  · exact sendsInt_of_width rfl (fun a b _ => ofNat_shiftLeft a b.toNat) h
  · exact sendsInt_of_width rfl (fun a b _ => ofNat_shiftRight a b.toNat) h
  · exact sendsInt_of_width rfl (fun a b _ => ofNat_shiftArith (width_pos o) a b.toNat) h
  · exact sendsInt_of_width rfl (fun a b _ => ofNat_rotLeft a b.toNat) h
  · exact sendsInt_of_width rfl (fun a b _ => ofNat_rotRight a b.toNat) h

end Sys2Proof.Machine
end

section
/-! PROOF. Division, the high product, absolute value and order (R295, R296, Table 13.5): the integers val(a) and val(b) of the
model are those of the words. -/

namespace Sys2Proof.Machine

variable {o : IntOp}

/-- val of a word is its integer, signed or natural (R295). -/
theorem intValue_toNat (a : BitVec o.width) : intValue o a.toNat = wordValue o.nat a := by
  rw [intValue, signedOf_toNat (width_pos o), wordValue]

theorem ofNat_toNat_self {w : Nat} (a : BitVec w) : BitVec.ofNat w a.toNat = a := by rw [BitVec.ofNat_toNat, BitVec.setWidth_eq]

/-! ## IDIV and IREM -/

theorem toNat_eq_zero_iff {w : Nat} (b : BitVec w) : b.toNat = 0 ↔ b = 0 := by
  rw [← BitVec.toNat_inj]
  rfl

/-- The quotient of two integers, as a word, is the words' signed quotient: of the most negative one by −1 it is that one. -/
theorem ofInt_tdiv {w : Nat} (a b : BitVec w) : BitVec.ofInt w (a.toInt.tdiv b.toInt) = a.sdiv b := by
  apply BitVec.eq_of_toInt_eq
  rw [BitVec.toInt_ofInt, BitVec.toInt_sdiv]

theorem ofInt_tmod {w : Nat} (a b : BitVec w) : BitVec.ofInt w (a.toInt.tmod b.toInt) = a.srem b := by
  rw [← BitVec.toInt_srem, BitVec.ofInt_toInt]

theorem ofNat_quotient (a b : BitVec o.width) : BitVec.ofNat o.width (divRem o a.toNat b.toNat).1 =
    if b = 0 then BitVec.allOnes o.width else if o.nat then a / b else a.sdiv b := by
  simp only [divRem, toNat_eq_zero_iff]
  split_ifs
  · rw [BitVec.allOnes, BitVec.ofNatLT_eq_ofNat]
  · rw [← BitVec.toNat_udiv, ofNat_toNat_self]
  · rw [ofNat_wrapInt, signedOf_toNat (width_pos o), signedOf_toNat (width_pos o), ofInt_tdiv]

theorem ofNat_remainder (a b : BitVec o.width) : BitVec.ofNat o.width (divRem o a.toNat b.toNat).2 =
    if b = 0 then a else if o.nat then a % b else a.srem b := by
  simp only [divRem, toNat_eq_zero_iff]
  split_ifs
  · exact ofNat_toNat_self a
  · rw [← BitVec.toNat_umod, ofNat_toNat_self]
  · rw [ofNat_wrapInt, signedOf_toNat (width_pos o), signedOf_toNat (width_pos o), mul_comm, ← Int.tmod_def, ofInt_tmod]

/-! ## IMULH -/

/-- The second digit of an integer does not see the digits above it. -/
theorem emod_mul_ediv_emod {m : Int} (hm : 0 < m) (x : Int) : x % (m * m) / m % m = x / m % m := by
  rw [Int.emod_def x, mul_assoc, sub_eq_add_neg, ← mul_neg, Int.add_mul_ediv_left _ _ hm.ne', ← mul_neg, Int.add_mul_emod_self_left]

/-- The high half of an integer of twice the width is its quotient by 2^w, rounded down. -/
theorem extractLsb'_ofInt_two_mul (w : Nat) (x : Int) : (BitVec.ofInt (2 * w) x).extractLsb' w w = BitVec.ofInt w (x / ((2 ^ w : Nat) : Int)) := by
  have hpow : ((2 ^ (2 * w) : Nat) : Int) = ((2 ^ w : Nat) : Int) * ((2 ^ w : Nat) : Int) := by rw [two_mul, pow_add, Nat.cast_mul]
  have hpos : 0 < ((2 ^ w : Nat) : Int) := by positivity
  apply BitVec.eq_of_toNat_eq
  rw [← Int.natCast_inj, BitVec.extractLsb'_toNat, BitVec.toNat_ofInt, BitVec.toNat_ofInt, Nat.shiftRight_eq_div_pow, Int.natCast_mod, Int.natCast_div,
    hpow, Int.toNat_of_nonneg (Int.emod_nonneg x (mul_pos hpos hpos).ne'), Int.toNat_of_nonneg (Int.emod_nonneg _ hpos.ne'), emod_mul_ediv_emod hpos]

theorem ofNat_mulHigh (a b : BitVec o.width) : BitVec.ofNat o.width (mulHigh o a.toNat b.toNat) =
    if o.nat then (a.setWidth (2 * o.width) * b.setWidth (2 * o.width)).extractLsb' o.width o.width
    else (a.signExtend (2 * o.width) * b.signExtend (2 * o.width)).extractLsb' o.width o.width := by
  rw [mulHigh, ofNat_wrapInt, ← extractLsb'_ofInt_two_mul, intValue_toNat, intValue_toNat, BitVec.ofInt_mul]
  unfold wordValue
  split_ifs
  · rw [BitVec.ofInt_natCast, BitVec.ofInt_natCast, BitVec.ofNat_toNat, BitVec.ofNat_toNat]
  · rfl

/-! ## IABS, IMIN and IMAX -/

theorem ofNat_natAbs_toInt {w : Nat} (a : BitVec w) : BitVec.ofNat w a.toInt.natAbs = a.abs := by
  rw [BitVec.abs_eq]
  split_ifs with h
  · rw [BitVec.toInt_eq_neg_toNat_neg_of_msb_true h, Int.natAbs_neg, Int.natAbs_natCast, ofNat_toNat_self]
  · rw [BitVec.toInt_eq_toNat_of_msb (Bool.eq_false_iff.2 h), Int.natAbs_natCast, ofNat_toNat_self]

theorem ofNat_absInt (a : BitVec o.width) : BitVec.ofNat o.width (absInt o a.toNat) = if o.nat then a else a.abs := by
  unfold absInt
  split_ifs
  · exact ofNat_toNat_self a
  · rw [signedOf_toNat (width_pos o), ofNat_natAbs_toInt]

/-- IMIN and IMAX choose by the order of the words. -/
theorem ofNat_pickInt (wantMax : Bool) (a b : BitVec o.width) : BitVec.ofNat o.width (pickInt o wantMax a.toNat b.toNat) =
    if leWords o.nat a b == wantMax then b else a := by
  rw [pickInt, intValue_toNat, intValue_toNat]
  simp only [← leWords_iff, Bool.decide_eq_true, apply_ite (BitVec.ofNat o.width), ofNat_toNat_self]

/-- Settles O10: each form by the operation of words that its function is. -/
theorem divisionProductsAndOrder : Obligations.DivisionProductsAndOrder := by
  refine ⟨fun o s c h => ⟨?_, ?_⟩, fun o s c h => ⟨?_, ?_, ?_, ?_⟩⟩
  · exact sendsInt_of_width rfl (fun a b _ => ofNat_quotient a b) h
  · exact sendsInt_of_width rfl (fun a b _ => ofNat_remainder a b) h
  · exact sendsInt_of_width rfl (fun a b _ => ofNat_mulHigh a b) h
  · exact sendsInt_of_width rfl (fun a _ _ => ofNat_absInt a) h
  · refine sendsInt_of_width rfl (fun a b _ => (ofNat_pickInt false a b).trans ?_) h
    cases leWords o.nat a b <;> rfl
  · refine sendsInt_of_width rfl (fun a b _ => (ofNat_pickInt true a b).trans ?_) h
    cases leWords o.nat a b <;> rfl

end Sys2Proof.Machine
end

section
/-! PROOF. Counts of bits, the mirrored word and fields (R295, R298, Table 13.5). -/

namespace Sys2Proof.Machine

variable {o : IntOp} {w : Nat}

/-! ## Counts -/

/-- The ones among the low bits of a word. -/
theorem length_filter_testBit (a : BitVec w) (n : Nat) : ((List.range n).filter fun j => a.toNat.testBit j).length = a.cpopNatRec n 0 := by
  induction n with
  | zero => rfl
  | succ n ih =>
    rw [List.range_succ, List.filter_append, List.length_append, ih, BitVec.cpopNatRec_succ, BitVec.cpopNatRec_eq (0 + _), Nat.zero_add,
      List.filter_singleton, BitVec.testBit_toNat]
    cases a.getLsbD n <;> rfl

theorem ofNat_onesIn (a : BitVec w) : BitVec.ofNat w (onesIn w a.toNat) = a.cpop := by
  rw [onesIn, length_filter_testBit, BitVec.cpop]

/-- A width fits into a word of that width. -/
theorem toNat_natCast_width (w : Nat) : (w : BitVec w).toNat = w := by
  rw [BitVec.natCast_eq_ofNat, BitVec.toNat_ofNat, Nat.mod_eq_of_lt Nat.lt_two_pow_self]

/-- The highest one of a word stands below its leading zeros. -/
theorem leadZeros_toNat (a : BitVec w) : leadZeros w a.toNat = a.clz.toNat := by
  unfold leadZeros
  split_ifs with h
  · rw [BitVec.clz_eq_iff_eq_zero.2 ((toNat_eq_zero_iff a).1 h), toNat_natCast_width]
  · have ha : a ≠ 0 := mt (toNat_eq_zero_iff a).2 h
    have hlt : a.clz.toNat < w := (BitVec.lt_def.1 (BitVec.clz_lt_iff_ne_zero.2 ha)).trans_eq (toNat_natCast_width w)
    have hlog : a.toNat.log2 = w - 1 - a.clz.toNat := by
      refine (Nat.log2_eq_iff h).2 ⟨BitVec.two_pow_sub_clz_le_toNat_of_ne_zero (by omega) ha, ?_⟩
      rw [show w - 1 - a.clz.toNat + 1 = w - a.clz.toNat by omega]
      exact BitVec.toNat_lt_two_pow_sub_clz
    omega

/-- The lowest one of a word stands above its trailing zeros. -/
theorem trailZeros_toNat (a : BitVec w) : trailZeros w a.toNat = a.ctz.toNat := by
  by_cases ha : a = 0
  · have hctz : a.ctz = w := BitVec.ctz_eq_reverse_clz.trans (BitVec.clz_eq_iff_eq_zero.2 (BitVec.reverse_eq_zero_iff.2 ha))
    rw [hctz, toNat_natCast_width, trailZeros, ha, List.find?_eq_none.2 (by simp), Option.getD_none]
  · have hlt : a.ctz.toNat < w := (BitVec.lt_def.1 (BitVec.ctz_lt_iff_ne_zero.2 ha)).trans_eq (toNat_natCast_width w)
    have hfind : (List.range w).find? (fun j => a.toNat.testBit j) = some a.ctz.toNat := by
      refine List.find?_range_eq_some.2 ⟨?_, List.mem_range.2 hlt, fun j hj => ?_⟩
      · rw [BitVec.testBit_toNat, BitVec.getLsbD_true_ctz_of_ne_zero ha]
      · rw [BitVec.testBit_toNat, BitVec.getLsbD_false_of_lt_ctz hj, Bool.not_false]
    rw [trailZeros, hfind, Option.getD_some]

/-! ## The mirrored word -/

theorem ofNat_two_pow_eq_twoPow (w n : Nat) : BitVec.ofNat w (2 ^ n) = BitVec.twoPow w n :=
  BitVec.eq_of_toNat_eq (by rw [BitVec.toNat_ofNat, BitVec.toNat_twoPow])

/-- What the `n` lowest bits of a number add to its mirrored word. -/
def mirrorLow (w a n : Nat) : Nat := ((List.range n).filter fun j => a.testBit j).foldl (fun r j => r + 2 ^ (w - 1 - j)) 0

theorem mirrorLow_succ (w a n : Nat) : mirrorLow w a (n + 1) = if a.testBit n then mirrorLow w a n + 2 ^ (w - 1 - n) else mirrorLow w a n := by
  rw [mirrorLow, List.range_succ, List.filter_append, List.foldl_append, List.filter_singleton]
  cases a.testBit n <;> rfl

/-- The low bits stand mirrored in the high ones: each of them is added in a place where none stands yet. -/
theorem getLsbD_mirrorLow (a : BitVec w) {n : Nat} (hn : n ≤ w) {i : Nat} (hi : i < w) :
    (BitVec.ofNat w (mirrorLow w a.toNat n)).getLsbD i = (decide (w - 1 - i < n) && a.getLsbD (w - 1 - i)) := by
  induction n generalizing i with
  | zero => simp [mirrorLow]
  | succ n ih =>
    rw [mirrorLow_succ, BitVec.testBit_toNat]
    split_ifs with hbit
    · have hnone : BitVec.ofNat w (mirrorLow w a.toNat n) &&& BitVec.twoPow w (w - 1 - n) = 0#w := by
        refine BitVec.eq_of_getLsbD_eq fun k hk => ?_
        rw [BitVec.getLsbD_and, BitVec.getLsbD_twoPow, ih (by omega) hk, BitVec.getLsbD_zero]
        grind
      rw [BitVec.ofNat_add, ofNat_two_pow_eq_twoPow, BitVec.add_eq_or_of_and_eq_zero _ _ hnone, BitVec.getLsbD_or, ih (by omega) hi,
        BitVec.getLsbD_twoPow]
      grind
    · rw [ih (by omega) hi]
      grind

theorem ofNat_mirror (a : BitVec w) : BitVec.ofNat w (mirror w a.toNat) = a.reverse := by
  refine BitVec.eq_of_getLsbD_eq fun i hi => (getLsbD_mirrorLow a (le_refl w) hi).trans ?_
  rw [BitVec.getLsbD_reverse, BitVec.getMsbD, decide_eq_true (by omega : w - 1 - i < w), decide_eq_true hi]

/-! ## Fields -/

/-- The position that a control word names. -/
theorem bitsOf_position (b : BitVec w) : bitsOf b.toNat 7 0 = (b.extractLsb' 0 8).toNat := by
  rw [BitVec.extractLsb'_toNat, Nat.shiftRight_eq_div_pow, bitsOf]

/-- The length that a control word names. -/
theorem bitsOf_length (b : BitVec w) : bitsOf b.toNat 15 8 = (b.extractLsb' 8 8).toNat := by
  rw [BitVec.extractLsb'_toNat, Nat.shiftRight_eq_div_pow, bitsOf]

/-- The field of `m` bits at a position. -/
theorem bitsOf_field (a : BitVec w) (p : Nat) {m : Nat} (hm : 0 < m) : bitsOf a.toNat (p + m - 1) p = ((a >>> p).setWidth m).toNat := by
  rw [BitVec.toNat_setWidth, BitVec.toNat_ushiftRight, Nat.shiftRight_eq_div_pow, bitsOf, show p + m - 1 + 1 - p = m by omega]

theorem ofNat_fieldExtract (a b : BitVec o.width) : BitVec.ofNat o.width (fieldExtract o a.toNat b.toNat) = bfxWord o.nat o.width a b := by
  simp only [fieldExtract, bfxWord, bitsOf_position, bitsOf_length, Bool.or_eq_true, decide_eq_true_eq]
  split_ifs with hout hnat
  · rfl
  · rw [bitsOf_field a _ (by omega), BitVec.ofNat_toNat]
  · rw [bitsOf_field a _ (by omega), signedOf_toNat (by omega), ofNat_wrapInt]
    rfl

/-- Three numbers that lie side by side in their bits. -/
theorem testBit_insert (x y z p m i : Nat) : (x % 2 ^ p + y % 2 ^ m * 2 ^ p + z * 2 ^ (p + m)).testBit i =
    if i < p then x.testBit i else if i < p + m then y.testBit (i - p) else z.testBit (i - (p + m)) := by
  have hlow : x % 2 ^ p < 2 ^ p := Nat.mod_lt _ (Nat.two_pow_pos p)
  have hsum : 2 ^ p * (y % 2 ^ m) + x % 2 ^ p < 2 ^ (p + m) := by
    calc 2 ^ p * (y % 2 ^ m) + x % 2 ^ p < 2 ^ p * (y % 2 ^ m) + 2 ^ p := Nat.add_lt_add_left hlow _
      _ = 2 ^ p * (y % 2 ^ m + 1) := (Nat.mul_succ _ _).symm
      _ ≤ 2 ^ p * 2 ^ m := Nat.mul_le_mul_left _ (Nat.mod_lt y (Nat.two_pow_pos m))
      _ = 2 ^ (p + m) := (pow_add 2 p m).symm
  rw [Nat.add_comm, Nat.add_comm (x % 2 ^ p), Nat.mul_comm z, Nat.mul_comm (y % 2 ^ m), Nat.two_pow_add_eq_or_of_lt hsum,
    Nat.two_pow_add_eq_or_of_lt hlow, Nat.testBit_or, Nat.testBit_or, Nat.testBit_two_pow_mul, Nat.testBit_two_pow_mul,
    Nat.testBit_mod_two_pow, Nat.testBit_mod_two_pow]
  grind

/-- The word whose field of `m` bits at `p` is taken from another. -/
theorem ofNat_insert (a d : BitVec w) (p m : Nat) :
    BitVec.ofNat w (a.toNat % 2 ^ p + d.toNat % 2 ^ m * 2 ^ p + a.toNat / 2 ^ (p + m) * 2 ^ (p + m)) =
      (a &&& ~~~((BitVec.allOnes m).setWidth w <<< p)) ||| ((d <<< p) &&& ((BitVec.allOnes m).setWidth w <<< p)) := by
  ext i hi
  rw [← BitVec.getLsbD_eq_getElem, BitVec.getLsbD_ofNat, testBit_insert, Nat.testBit_div_two_pow]
  simp only [BitVec.testBit_toNat, BitVec.getElem_or, BitVec.getElem_and, BitVec.getElem_not, BitVec.getElem_shiftLeft, BitVec.getElem_setWidth,
    BitVec.getLsbD_allOnes]
  grind

theorem ofNat_fieldInsert (a b d : BitVec w) : BitVec.ofNat w (fieldInsert w a.toNat b.toNat d.toNat) = bfiWord w a b d := by
  simp only [fieldInsert, bfiWord, bitsOf_position, bitsOf_length, Bool.or_eq_true, decide_eq_true_eq]
  split_ifs with hout
  · exact ofNat_toNat_self a
  · exact ofNat_insert a d _ _

/-- Settles O11: each form by the operation of words that its function is. -/
theorem bitCountsAndFields : Obligations.BitCountsAndFields := by
  refine ⟨fun o s c h => ⟨?_, ?_, ?_, ?_⟩, fun o s c h => ⟨?_, ?_⟩⟩
  · exact sendsInt_of_width rfl (fun a _ _ => ofNat_onesIn a) h
  · exact sendsInt_of_width rfl (fun a _ _ => by rw [leadZeros_toNat, ofNat_toNat_self]) h
  · exact sendsInt_of_width rfl (fun a _ _ => by rw [trailZeros_toNat, ofNat_toNat_self]) h
  · exact sendsInt_of_width rfl (fun a _ _ => ofNat_mirror a) h
  · exact sendsInt_of_width rfl (fun a b _ => ofNat_fieldExtract a b) h
  · exact sendsInt_of_width rfl (fun a b d => ofNat_fieldInsert a b d) h

end Sys2Proof.Machine
end

section
/-! PROOF. ICMP (R299): the relation of the integers is that of the words, and a 32-bit truth value goes to every target. -/

namespace Sys2Proof.Machine

variable {o : IntOp} {w : Nat}

/-! ## Relations -/

theorem wordValue_inj (nat : Bool) (a b : BitVec w) : wordValue nat a = wordValue nat b ↔ a = b := by
  cases nat
  · exact BitVec.toInt_inj
  · exact Int.natCast_inj.trans BitVec.toNat_inj

theorem wordValue_lt_iff (nat : Bool) (a b : BitVec w) : wordValue nat a < wordValue nat b ↔ (if nat then a.ult b else a.slt b) = true := by
  cases nat
  · exact BitVec.slt_iff_toInt_lt.symm
  · exact Int.ofNat_lt.trans BitVec.ult_iff_toNat_lt.symm

theorem wordValue_le_iff (nat : Bool) (a b : BitVec w) : wordValue nat a ≤ wordValue nat b ↔ (if nat then a.ule b else a.sle b) = true :=
  (leWords_iff nat a b).symm

/-- The relation of two integers is the relation of their words (R299). -/
theorem relHolds_wordValue (rel : CmpRel) (nat : Bool) (a b : BitVec w) :
    relHolds rel (wordValue nat a) (wordValue nat b) = relWords rel nat a b := by
  rw [Bool.eq_iff_iff]
  cases rel
  case eq => simp only [relHolds, relWords, beq_iff_eq, wordValue_inj]
  case ne => simp only [relHolds, relWords, bne_iff_ne, ne_eq, wordValue_inj]
  case lt | gt => simp only [relHolds, relWords, decide_eq_true_eq, wordValue_lt_iff]
  case le | ge => simp only [relHolds, relWords, decide_eq_true_eq, wordValue_le_iff]

theorem relHolds_intValue (hw : o.width = w) (rel : CmpRel) (a b : BitVec w) :
    relHolds rel (intValue o a.toNat) (intValue o b.toNat) = relWords rel o.nat a b := by
  subst hw
  rw [intValue_toNat, intValue_toNat, relHolds_wordValue]

/-! ## The form -/

/-- ICMP sends the truth value of its relation. -/
theorem execIcmp_sends {s : State} {c : Issue} (h : Issues s c) (rel : CmpRel) (o : IntOp) :
    (o.w64 = false → Sends32 (.icmp rel o) s c fun l => if relWords rel o.nat (c.w32 .a l) (intB32 o c l) then 0xFFFFFFFF else 0) ∧
    (o.w64 = true → Sends32 (.icmp rel o) s c fun l => if relWords rel o.nat (c.w64 .a .ax l) (intB64 o c l) then 0xFFFFFFFF else 0) := by
  refine ⟨fun hw => (issuing_of_issues h).trans ?_, fun hw => (issuing_of_issues h).trans ?_⟩
  · have hwidth : o.width = 32 := by simp [IntOp.width, hw]
    simp only [intOperand, hw, intB_eq_intB32, relHolds_intValue hwidth, truthWord, if_false, Bool.false_eq_true]
  · have hwidth : o.width = 64 := by simp [IntOp.width, hw]
    simp only [intOperand, hw, intB_eq_intB64, relHolds_intValue hwidth, truthWord, if_true]

/-- The variant field of an instruction's first word is its form's (Table 11.5). -/
theorem extractLsb'_var_encode {i : Instr} {f : Form} (hf : i.form = some f) : ((encode i).headD 0).extractLsb' 8 4 = f.var := by
  rw [encode_of_form hf]
  exact congrArg RawWord.var (RawWord.read_bits f.raw)

/-- A form with a 64-bit operand and an optional second word needs that word (R263). -/
theorem isLong_of_wideOperand {f : Form} (hwf : f.wellFormed = true) (hopt : f.long = .opt) (hwide : f.wideOperand = true) : f.isLong = true := by
  simp only [Form.wellFormed, Bool.and_eq_true] at hwf
  obtain ⟨⟨⟨⟨-, hlong⟩, -⟩, -⟩, -⟩ := hwf
  simpa [Form.longOk, hopt, hwide] using hlong

/-- A form of layout T that is LONG has its further targets. -/
theorem ext_isSome_of_isLong {f : Form} (hs : f.second = f.wd.second) (hl : f.isLong = true) : f.wd.ext.isSome = true := by
  rw [Form.isLong, hs, Wd.second] at hl
  cases hext : f.wd.ext with
  | none => simp [hext] at hl
  | some e => rfl

/-- Settles O12: the form's result, and the fields of its word and of its form. -/
theorem integerCompareSendsATruthWord : Obligations.IntegerCompareSendsATruthWord := by
  refine fun rel o => ⟨fun s c h => execIcmp_sends h rel o, (extractLsb'_var_encode rfl).trans ?_, fun f hf n _ => ?_, fun hw hwf => ?_⟩
  · cases rel <;> rfl
  · cases hf
    rfl
  · refine ext_isSome_of_isLong (f := { intForm 0x2B o true false 32 with var := rel.code }) rfl (isLong_of_wideOperand hwf rfl ?_)
    simp [Form.wideOperand, intForm, hw, portsIf]

end Sys2Proof.Machine
end

section
/-! PROOF. Lane forms (R302 to R305): LANEID, SHFL, BCAST and VOTE. -/

namespace Sys2Proof.Machine

variable {s : State} {c : Issue}

/-! ## Lanes of a mask -/

/-- The lowest lane of a mask is in it, and no lane below is. -/
theorem lowestLane_spec {m : Mask} (hm : m ≠ 0) : m.getLsbD (lowestLane m) = true ∧ ∀ j, j < lowestLane m → m.getLsbD j = false := by
  obtain ⟨k, hk⟩ := Option.ne_none_iff_exists'.1 (mt List.head?_eq_none_iff.1 (lanesOf_ne_nil hm))
  have hlow : lowestLane m = k := by rw [lowestLane, List.headD_eq_head?_getD, hk, Option.getD_some]
  rw [lanesOf, List.head?_filter, List.find?_range_eq_some] at hk
  obtain ⟨hin, -, hbelow⟩ := hk
  rw [hlow]
  exact ⟨hin, fun j hj => by simpa using hbelow j hj⟩

/-- The mask of a list holds its lanes. -/
theorem getLsbD_maskOf (ls : List Nat) (k : Nat) : (maskOf ls).getLsbD k = (decide (k < 32) && decide (k ∈ ls)) := by
  have hfold (m : Mask) : (ls.foldl (fun m l => m ||| (1 : Mask) <<< l) m).getLsbD k = (m.getLsbD k || decide (k < 32) && decide (k ∈ ls)) := by
    induction ls generalizing m with
    | nil => simp
    | cons l ls ih =>
      have hone : ((1 : Mask) <<< l).getLsbD k = (decide (k < 32) && decide (l = k)) :=
        (congrArg (·.getLsbD k) (BitVec.twoPow_eq 32 l).symm).trans ((BitVec.getLsbD_twoPow l k).trans (by grind))
      rw [List.foldl_cons, ih, BitVec.getLsbD_or, hone]
      grind
  simpa [maskOf] using hfold 0

/-- The lanes of a mask that satisfy a test. -/
theorem getLsbD_lanesWhere (m : Mask) (p : Nat → Bool) (k : Nat) : (lanesWhere (lanesOf m) p).getLsbD k = (m.getLsbD k && p k) := by
  rw [lanesWhere, getLsbD_maskOf]
  by_cases hk : k < 32
  · simp only [lanesOf, List.mem_filter, List.mem_range, hk, true_and, decide_true, Bool.true_and, Bool.decide_and, Bool.decide_eq_true]
  · rw [decide_eq_false hk, BitVec.getLsbD_of_ge m k (not_lt.1 hk), Bool.false_and, Bool.false_and]

theorem mem_lanesOf {m : Mask} {k : Nat} : k ∈ lanesOf m ↔ m.getLsbD k = true := by
  rw [lanesOf, List.mem_filter, List.mem_range, and_iff_right_iff_imp]
  exact BitVec.lt_of_getLsbD

/-- Some lane satisfies a test where the set of those that do is not empty. -/
theorem lanesWhere_bne_zero (m : Mask) (p : Nat → Bool) : (lanesWhere (lanesOf m) p != 0) = (lanesOf m).any p := by
  rw [Bool.eq_iff_iff, bne_iff_ne, ne_eq, BitVec.eq_of_getLsbD_eq_iff, List.any_eq_true]
  simp only [getLsbD_lanesWhere, mem_lanesOf]
  grind [BitVec.lt_of_getLsbD]

/-- All lanes satisfy a test where the set of those that do is the whole mask. -/
theorem lanesWhere_beq_self (m : Mask) (p : Nat → Bool) : (lanesWhere (lanesOf m) p == m) = (lanesOf m).all p := by
  rw [Bool.eq_iff_iff, beq_iff_eq, BitVec.eq_of_getLsbD_eq_iff, List.all_eq_true]
  simp only [getLsbD_lanesWhere, mem_lanesOf]
  grind [BitVec.lt_of_getLsbD]

/-! ## Results -/

/-- A form whose result is one of 32-bit words sends the words. -/
theorem sends32_of_laneResult {i : Instr} {f : Nat → Nat} {g : Nat → Word} (hi : exec i s = .next (s.finish c (laneResult c false f)))
    (hfg : ∀ l, f l = (g l).toNat) : Sends32 i s c g := by
  refine hi.trans ?_
  simp only [laneResult, hfg, ofNat_toNat_self, Bool.false_eq_true, if_false]

/-- A form whose result is one of 64-bit words sends the words. -/
theorem sends64_of_laneResult {i : Instr} {f : Nat → Nat} {g : Nat → DWord} (hi : exec i s = .next (s.finish c (laneResult c true f)))
    (hfg : ∀ l, f l = (g l).toNat) : Sends64 i s c g := by
  refine hi.trans ?_
  simp only [laneResult, hfg, ofNat_toNat_self, if_true]

/-! ## The forms -/

section Forms

variable (h : Issues s c) (w : Wd)

include h

theorem shfl_sends32 (m : ShflMode) : Sends32 (.shfl m w false) s c fun l => match shflSource m l (c.w32 .b l).toNat with
    | some k => if c.mask.getLsbD k then c.w32 .a k else c.w32 .a l
    | none => c.w32 .a l := by
  refine sends32_of_laneResult (issuing_of_issues h) fun l => ?_
  cases shflSource m l (c.w32 .b l).toNat with
  | none => rfl
  | some k => exact (apply_ite BitVec.toNat _ _ _).symm

theorem shfl_sends64 (m : ShflMode) : Sends64 (.shfl m w true) s c fun l => match shflSource m l (c.w32 .b l).toNat with
    | some k => if c.mask.getLsbD k then c.w64 .a .ax k else c.w64 .a .ax l
    | none => c.w64 .a .ax l := by
  refine sends64_of_laneResult (issuing_of_issues h) fun l => ?_
  cases shflSource m l (c.w32 .b l).toNat with
  | none => rfl
  | some k => exact (apply_ite BitVec.toNat _ _ _).symm

theorem vote_any_sends : Sends32 (.vote .any w) s c fun _ => if c.lanes.any fun l => c.w32 .a l != 0 then 0xFFFFFFFF else 0 :=
  (issuing_of_issues h).trans
    (congrArg (fun b => Host.Outcome.next (s.finish c (c.res32 fun _ => truthWord b))) (lanesWhere_bne_zero c.mask fun l => c.w32 .a l != 0))

theorem vote_all_sends : Sends32 (.vote .all w) s c fun _ => if c.lanes.all fun l => c.w32 .a l != 0 then 0xFFFFFFFF else 0 :=
  (issuing_of_issues h).trans
    (congrArg (fun b => Host.Outcome.next (s.finish c (c.res32 fun _ => truthWord b))) (lanesWhere_beq_self c.mask fun l => c.w32 .a l != 0))

end Forms

/-- Settles O13: the lane number is the result, and the form uses no port. -/
theorem laneidSendsTheLaneNumber : Obligations.LaneidSendsTheLaneNumber := by
  refine fun w => ⟨fun s c h => issuing_of_issues h, fun f hf => ?_⟩
  cases hf
  rfl

/-- Settles O14: a lane's source decides what it takes, and the votes look at the set of true lanes. -/
theorem shufflesAndVotes : Obligations.ShufflesAndVotes :=
  ⟨fun m w _ _ h => ⟨shfl_sends32 h w m, shfl_sends64 h w m⟩, fun w _ c h => ⟨vote_any_sends h w, vote_all_sends h w,
    lanesWhere c.lanes fun l => c.w32 .a l != 0, fun l _ => getLsbD_lanesWhere c.mask (fun l => c.w32 .a l != 0) l, issuing_of_issues h⟩⟩

/-- Settles O15: the lowest lane of the firing mask is the one that BCAST reads. -/
theorem broadcastSendsTheLowestLane : Obligations.BroadcastSendsTheLowestLane := by
  intro w s c h
  obtain ⟨hin, hbelow⟩ := lowestLane_spec h.2
  exact ⟨c.low, hin, hbelow, sends32_of_laneResult (issuing_of_issues h) fun _ => rfl, sends64_of_laneResult (issuing_of_issues h) fun _ => rfl⟩

end Sys2Proof.Machine
end

section
/-! PROOF. Token plumbing and vector register writes (R278, R280 to R283). -/

namespace Sys2Proof.Machine

variable {s : State} {c : Issue}

/-! ## FAN, MOVI, SEL and SINK -/

section Plumbing

variable (h : Issues s c) (w : Wd)

include h

/-- MOVI sends the same word to every lane (R281). -/
theorem movi_sends32 {imm : BitVec 27} {imm64 : Option (BitVec 64)} {x : Word} (hx : lowHalf (imm64.getD (imm.signExtend 64)) = x) :
    Sends32 (.movi w false imm imm64) s c fun _ => x :=
  (issuing_of_issues h).trans (congrArg (fun x => Host.Outcome.next (s.finish c (c.res32 fun _ => x))) hx)

theorem movi_sends64 (imm : BitVec 27) (imm64 : Option (BitVec 64)) :
    Sends64 (.movi w true imm imm64) s c fun _ => imm64.getD (imm.signExtend 64) := issuing_of_issues h

/-- SEL asks, lane by lane, whether its condition is not 0 (R282). -/
theorem sel_sends32 : Sends32 (.sel w false) s c fun l => if c.w32 .c l ≠ 0 then c.w32 .a l else c.w32 .b l := by
  refine (issuing_of_issues h).trans ?_
  simp only [bne_iff_ne, Bool.false_eq_true, if_false]

theorem sel_sends64 : Sends64 (.sel w true) s c fun l => if c.w32 .c l ≠ 0 then c.w64 .a .ax l else c.w64 .b .bx l := by
  refine (issuing_of_issues h).trans ?_
  simp only [bne_iff_ne, if_true]

end Plumbing

/-- The low half of an immediate extended to 64 bits is the one extended to 32. -/
theorem lowHalf_signExtend {n : Nat} (imm : BitVec n) : lowHalf (imm.signExtend 64) = imm.signExtend 32 :=
  BitVec.eq_of_toNat_eq ((BitVec.toNat_setWidth _ _).trans (toNat_signExtend_mod (by decide : 32 ≤ 64) imm))

/-- A well-formed instruction keeps its form's own rules, and those of its second word. -/
theorem ok_and_extOk_of_wellFormed {i : Instr} {f : Form} (hf : i.form = some f) (hwf : i.wellFormed = true) : f.ok = true ∧ f.extOk = true := by
  rw [Instr.wellFormed, hf] at hwf
  simp only [Form.wellFormed, Bool.and_eq_true] at hwf
  obtain ⟨⟨⟨⟨hok, -⟩, -⟩, hext⟩, -⟩ := hwf
  exact ⟨hok, hext⟩

/-- What a well-formed MOVI with a second word keeps (R281). -/
theorem movi_wellFormed {w : Wd} {w64 : Bool} {imm : BitVec 27} {x : BitVec 64} (hwf : (Instr.movi w w64 imm (some x)).wellFormed = true) :
    imm = 0 ∧ (w64 = false → x.toNat < 2 ^ 32) ∧ w.ext = none := by
  obtain ⟨hfields, hext⟩ := ok_and_extOk_of_wellFormed rfl hwf
  have hsplit : (imm == 0 && (w64 || decide (x.toNat < 2 ^ 32))) = true := hfields
  simp only [Bool.and_eq_true, beq_iff_eq, Bool.or_eq_true, decide_eq_true_eq] at hsplit
  obtain ⟨himm, hx⟩ := hsplit
  exact ⟨himm, fun hw => hx.resolve_left (Bool.eq_false_iff.1 hw), Option.isNone_iff_eq_none.1 hext⟩

/-- Settles O21: the words sent, and the checks of the form. -/
theorem moviSendsItsImmediate : Obligations.MoviSendsItsImmediate := by
  refine fun w imm x => ⟨fun s c h => ⟨movi_sends32 h w (lowHalf_signExtend imm), movi_sends64 h w imm none, movi_sends32 h w rfl,
    movi_sends64 h w imm (some x)⟩, fun hwf => ?_, fun hwf => ?_, fun f hf => ?_⟩
  · obtain ⟨himm, hx, -⟩ := movi_wellFormed hwf
    refine ⟨himm, BitVec.eq_of_toNat_eq ?_⟩
    rw [BitVec.extractLsb'_toNat, Nat.shiftRight_eq_div_pow, Nat.div_eq_of_lt (hx rfl)]
    rfl
  · obtain ⟨himm, -, hext⟩ := movi_wellFormed hwf
    exact ⟨himm, hext⟩
  · cases hf
    exact ⟨rfl, rfl, rfl⟩

/-- Settles O22: each form's meaning, the condition of SEL read as a proposition. -/
theorem fanSelectAndSink : Obligations.FanSelectAndSink := fun w _ _ h =>
  ⟨issuing_of_issues h, issuing_of_issues h, sel_sends32 h w, sel_sends64 h w, issuing_of_issues h⟩

/-! ## A SETR at its commit -/

/-- A lane of a row replaced where a mask says so. -/
theorem at_overlayLanes (old new : Lanes) (mask : Mask) {l : Nat} (hl : l < 32) :
    (overlayLanes old new mask).at l = if mask.getLsbD l then new.at l else old.at l := by
  rw [overlayLanes, Lanes.of, Lanes.at, List.getD_eq_getElem _ _ (by simpa using hl), List.getElem_map, List.getElem_range]

/-- Every register of a file of which one is overlaid, lane by lane. -/
theorem at_listMod_overlay (v : List Lanes) (r : Nat) (hr : r < v.length) (new : Lanes) (mask : Mask) (n : Nat) {l : Nat} (hl : l < 32) :
    ((listMod v r fun old => overlayLanes old new mask).getD n []).at l =
      if mask.getLsbD l ∧ n = r then new.at l else (v.getD n []).at l := by
  by_cases hn : n = r
  · subst hn
    rw [listMod_getD_self _ _ _ _ hr, at_overlayLanes _ _ _ hl]
    simp only [and_true]
  · rw [listMod_getD_other _ _ _ _ _ hn, if_neg fun h => hn h.2]

/-- Settles O24: with an empty mask nothing is written, else one register or two are overlaid in their lanes. -/
theorem registerWritesKeepOtherLanes : Obligations.RegisterWritesKeepOtherLanes := by
  intro w r w64 mask lo hi n l hr hl _ hlen
  have hscalar : ¬ r.scalar = true := Bool.eq_false_iff.1 hr
  have hlow : r.num.toNat < w.v.length := by omega
  by_cases hm : mask = 0
  · simp [Warp.writeReg, hm]
  · rw [Warp.writeReg, if_neg hm, if_neg hscalar]
    refine ⟨?_, rfl⟩
    cases w64
    · simpa using at_listMod_overlay w.v _ hlow lo mask n hl
    · have hlen' : r.num.toNat + 1 < (listMod w.v r.num.toNat fun old => overlayLanes old lo mask).length := by rwa [listMod_length]
      refine (at_listMod_overlay _ _ hlen' hi mask n hl).trans ?_
      rw [at_listMod_overlay w.v _ hlow lo mask n hl]
      grind

end Sys2Proof.Machine
end

section
/-! PROOF. Successor forms (R196, R230, R284 to R293): a warp's lanes choose, buffered for the vote, and a control thread's first
successor is its choice. -/

namespace Sys2Proof.Machine

variable {s : State} {c : Issue} {b : RBlock}

/-- The target of an offset: the block's own address plus 8 times it (R284). -/
def RBlock.target (b : RBlock) (off : BitVec 27) : DWord := BitVec.ofNat 64 b.addr + (off.signExtend 64) * 8

theorem offsetTarget_of_block {who : Who} (hb : s.blockOf who = some b) (off : BitVec 27) : s.offsetTarget who off = b.target off := by
  rw [State.offsetTarget, hb]
  rfl

/-- A successor form is the choice that it makes in each lane. -/
theorem exec_succeeds (h : Issues s c) {i : Instr} {f : Issue → Nat → Choice} {g : Nat → Choice}
    (hi : exec i s = issuing s fun c => s.succeed c (f c)) (hfg : f c = g) : exec i s = .next (s.succeed c g) := by
  rw [hi, issuing_of_issues h, hfg]

theorem bri_succeeds (h : Issues s c) (w : Wd) : exec (.bri w) s = .next (s.succeed c fun l => .goto (c.w64 .a .ax l)) := issuing_of_issues h

theorem ret_succeeds (h : Issues s c) (w : Wd) : exec (.ret w) s = .next (s.succeed c fun _ => .ret) := issuing_of_issues h

theorem exit_succeeds (h : Issues s c) (w : Wd) : exec (.exit w) s = .next (s.succeed c fun _ => .exit) := issuing_of_issues h

section Forms

variable (h : Issues s c) (hb : s.blockOf c.who = some b) (w : Wd) (off off2 : BitVec 27)

include h hb

theorem br_succeeds : exec (.br w off) s = .next (s.succeed c fun _ => .goto (b.target off)) :=
  exec_succeeds h rfl (by simp only [offsetTarget_of_block hb])

theorem call_succeeds : exec (.call w off off2) s = .next (s.succeed c fun _ => .call (b.target off) (b.target off2)) :=
  exec_succeeds h rfl (by simp only [offsetTarget_of_block hb])

theorem calli_succeeds : exec (.calli w off2) s = .next (s.succeed c fun l => .call (c.w64 .a .ax l) (b.target off2)) :=
  exec_succeeds h rfl (by simp only [offsetTarget_of_block hb])

/-- BRC goes, lane by lane, where its condition says (R286). -/
theorem brc_succeeds : exec (.brc w off off2) s =
    .next (s.succeed c fun l => .goto (if c.w32 .a l ≠ 0 then b.target off else b.target off2)) :=
  exec_succeeds h rfl (by simp only [offsetTarget_of_block hb, bne_iff_ne, apply_ite b.target])

/-- LOOP re-enters the block in the lanes whose condition holds (R293). -/
theorem loop_succeeds : exec (.loop w off2) s =
    .next (s.succeed c fun l => .goto (if c.w32 .a l ≠ 0 then b.target 0 else b.target off2)) :=
  exec_succeeds h rfl (by simp only [offsetTarget_of_block hb, bne_iff_ne, apply_ite b.target])

end Forms

/-! ## Warps -/

/-- A warp's successor is buffered with the choice of every lane that fires (R284). -/
theorem buffers_of_succeeds (hw : c.inWarp) {i : Instr} {f : Nat → Choice} (hi : exec i s = .next (s.succeed c f)) :
    Buffers i s c (.choose c.idx (c.lanes.map fun l => (l, f l))) [] := by
  obtain ⟨core, slot, itag, hwho⟩ := c.warp_of_inWarp hw
  refine hi.trans ?_
  simp only [State.succeed, hwho]

/-! ## Control threads -/

section Control

variable {core x : Nat} {t : Ctl} (hwho : c.who = .ctl core x) (ht : s.ctl? core x = some t)

include hwho ht

/-- A successor that may not take effect halts the thread before it (R196, R230). -/
theorem halts_of_refused {i : Instr} {f : Nat → Choice} (hi : exec i s = .next (s.succeed c f)) (href : t.refuses (f 0) = true) :
    exec i s = .next (s.haltCtl core x { code := .illegalBlock, mask := c.mask }) := by
  refine hi.trans ?_
  simp only [State.succeed, State.faultIssue, hwho, ht, href, if_true]

/-- Another is what the thread chooses. -/
theorem chooses_of_not_refused {i : Instr} {f : Nat → Choice} (hi : exec i s = .next (s.succeed c f)) (href : t.refuses (f 0) = false) :
    exec i s = .next ((s.modCtl core x fun t => t.choose (f 0)).finish c []) := by
  refine hi.trans ?_
  simp only [State.succeed, hwho, ht, href, Bool.false_eq_true, if_false]

end Control

/-- The second successor of a block may not take effect (R196). -/
theorem refuses_of_chosen {t : Ctl} (h : t.choice.isSome = true) (q : Choice) : t.refuses q = true := by
  unfold Ctl.refuses
  rw [h, Bool.true_or]

section First

variable {t : Ctl} (h : t.choice = none)
include h

theorem refuses_goto (a : DWord) : t.refuses (.goto a) = false := by
  unfold Ctl.refuses
  rw [h, Option.isSome_none, Bool.false_or]

theorem refuses_exit : t.refuses .exit = false := by
  unfold Ctl.refuses
  rw [h, Option.isSome_none, Bool.false_or]

/-- A RET needs an address (R230). -/
theorem refuses_ret : t.refuses .ret = (t.depth == 0) := by
  unfold Ctl.refuses
  rw [h, Option.isSome_none, Bool.false_or]

/-- A call needs a depth of at most 4 (R230). -/
theorem refuses_call (a r : DWord) : t.refuses (.call a r) = decide (4 ≤ t.depth) := by
  unfold Ctl.refuses
  rw [h, Option.isSome_none, Bool.false_or]

end First

/-- Settles O25: a warp buffers what each form chooses, and a control thread takes it where it may. -/
theorem successorsChoose : Obligations.SuccessorsChoose := by
  refine ⟨fun w off off2 s c b h hw hb => ?_, fun w off off2 s c core x t b h hwho ht hb => ⟨fun hsome => ?_, fun hnone => ?_⟩⟩
  · exact ⟨buffers_of_succeeds hw (br_succeeds h hb w off), buffers_of_succeeds hw (brc_succeeds h hb w off off2),
      buffers_of_succeeds hw (bri_succeeds h w), buffers_of_succeeds hw (call_succeeds h hb w off off2),
      buffers_of_succeeds hw (calli_succeeds h hb w off2), buffers_of_succeeds hw (ret_succeeds h w),
      buffers_of_succeeds hw (exit_succeeds h w), buffers_of_succeeds hw (loop_succeeds h hb w off2)⟩
  · have hall := refuses_of_chosen hsome
    exact ⟨halts_of_refused hwho ht (br_succeeds h hb w off) (hall _), halts_of_refused hwho ht (call_succeeds h hb w off off2) (hall _),
      halts_of_refused hwho ht (ret_succeeds h w) (hall _), halts_of_refused hwho ht (exit_succeeds h w) (hall _)⟩
  · have hbr := chooses_of_not_refused hwho ht (br_succeeds h hb w off) (refuses_goto hnone _)
    have hexit := chooses_of_not_refused hwho ht (exit_succeeds h w) (refuses_exit hnone)
    have hcall (hd : t.depth < 4) := chooses_of_not_refused hwho ht (call_succeeds h hb w off off2)
      ((refuses_call hnone _ _).trans (decide_eq_false (not_le.2 hd)))
    have hret (hd : t.depth ≠ 0) := chooses_of_not_refused hwho ht (ret_succeeds h w) ((refuses_ret hnone).trans (beq_false_of_ne hd))
    exact ⟨hbr, hexit, fun hd => halts_of_refused hwho ht (call_succeeds h hb w off off2) ((refuses_call hnone _ _).trans (decide_eq_true hd)), hcall,
      fun hd => halts_of_refused hwho ht (ret_succeeds h w) ((refuses_ret hnone).trans (beq_iff_eq.2 hd)), hret⟩

end Sys2Proof.Machine
end

section
/-! PROOF. Taking a trap, returning from it, and what a boundary does with one (R420 to R423, Table 19.2). -/

namespace Sys2Proof.Machine

variable {w : Warp} {entry : DWord} {code : Code} {ucode block resume n : Nat} {mask : Mask} {async : Bool}

/-- What TAKE A TRAP sets (R421). -/
theorem Warp.takeTrap_sets (hn : n < w.splits.length) : let t := w.takeTrap entry n code ucode block resume mask
    t.cause = BitVec.ofNat 32 code.num ∧ t.tblock = BitVec.ofNat 64 block ∧ t.tlanes = mask ∧ t.trapMask = true ∧ t.log = {} ∧
    (t.splits.getD n default).next = entry.toNat := by
  refine ⟨rfl, rfl, rfl, rfl, rfl, ?_⟩
  rw [Warp.takeTrap, listMod_getD_self _ _ _ _ hn]

/-- The return from a trap undoes it, but for the TRAPs that the resumed block skips after a USER_TRAP (R422, R423). -/
theorem Warp.trapReturn_takeTrap (lanes : Mask) : let r := (w.takeTrap entry n code ucode block resume mask).trapReturn lanes
    r.traps = w.traps ∧ r.log = w.log ∧ r.trapMask = w.trapMask ∧ r.v = w.v ∧ r.s = w.s ∧ r.flags = w.flags :=
  ⟨rfl, rfl, rfl, rfl, rfl, rfl⟩

/-- The blocks whose TRAPs are skipped after a return: the one resumed after a USER_TRAP, and those before (R423). -/
theorem Warp.skipDue_trapReturn (lanes : Mask) (b : Nat) (m : Mask) :
    ((w.takeTrap entry n code ucode block resume mask).trapReturn lanes).skipDue b m = true ↔
      (code = .userTrap ∧ resume = b ∧ (lanes &&& m) ≠ 0) ∨ w.skipDue b m = true := by
  have hskips : ((w.takeTrap entry n code ucode block resume mask).trapReturn lanes).skips =
      if code == .userTrap then w.skips ++ [(resume, lanes)] else w.skips := rfl
  rw [Warp.skipDue, hskips, Warp.skipDue]
  by_cases h : code = .userTrap
  · simp [h, or_comm]
  · simp [h]

/-- Table 19.2, a row at a time: the mask defers an asynchronous trap. -/
theorem Warp.trapFate_deferred (ha : async = true) (hm : w.trapMask = true) : w.trapFate entry code async = .deferred := by
  simp [Warp.trapFate, ha, hm]

theorem Warp.trapFate_noEntry (h : ¬ (async = true ∧ w.trapMask = true)) (he : entry = 0) : w.trapFate entry code async = .escalated code false := by
  have hlate : (async && w.trapMask) = false := by simpa using h
  simp [Warp.trapFate, hlate, he]

theorem Warp.trapFate_masked (ha : async = false) (hm : w.trapMask = true) (he : entry ≠ 0#64) :
    w.trapFate entry code async = .escalated code true := by
  simp [Warp.trapFate, ha, hm, he]

theorem Warp.trapFate_open (hm : w.trapMask = false) (he : entry ≠ 0#64) :
    w.trapFate entry code async = if 4 ≤ w.traps.length then .escalated .trapOverflow false else .handled := by
  simp [Warp.trapFate, hm, he]

/-- Settles O47: what a trap sets, what its return restores, and the rows of Table 19.2. -/
theorem trapsAreTakenAndReturnedFrom : Obligations.TrapsAreTakenAndReturnedFrom := by
  refine ⟨fun w entry n code ucode block resume mask hn => ?_, fun w entry code async => ?_⟩
  · obtain ⟨hcause, hblock, hlanes, hmask, hlog, hnext⟩ :=
      Warp.takeTrap_sets (w := w) (entry := entry) (code := code) (ucode := ucode) (block := block) (resume := resume) (mask := mask) hn
    refine ⟨hcause, hblock, hlanes, hmask, hlog, hnext, rfl, rfl, rfl, rfl, rfl, rfl, rfl, fun lanes => ?_⟩
    obtain ⟨htraps, hlog, hmask, hv, hs, hflags⟩ := Warp.trapReturn_takeTrap (w := w) (entry := entry) (n := n) (code := code) (ucode := ucode)
      (block := block) (resume := resume) (mask := mask) lanes
    exact ⟨htraps, hlog, hmask, Warp.skipDue_trapReturn lanes, hv, hs, hflags⟩
  · exact ⟨Warp.trapFate_deferred, Warp.trapFate_noEntry, Warp.trapFate_masked,
      fun hm he h => (Warp.trapFate_open hm he).trans (if_pos h), fun hm he h => (Warp.trapFate_open hm he).trans (if_neg (not_le.2 h))⟩

end Sys2Proof.Machine
end

section
/-! PROOF. Device management and the state after reset (R39, R40, R449, R451, R465, R466, R472 to R475, Table 21.2, logs 5 to 8). -/

namespace Sys2Proof.Machine

variable {s : State}

/-! ## Power and firmware -/

/-- The firmware a device comes up with: the image, or the last that verified (R474). -/
def Device.bootVersion (d : Device) (version : Nat) (image : List (BitVec 8)) : Nat := if d.accepts version image then version else d.fwVersion

/-- POWER_GOOD without an image that verifies leaves the device down (R474). -/
theorem execPowerGood_down (hup : s.dev.up = false) {version : Nat} {image : List (BitVec 8)} (hfw : s.dev.bootVersion version image = 0) :
    execPowerGood version image s = .next { s with dev := { s.dev with power := true } } := by
  rw [Device.bootVersion] at hfw
  simp [execPowerGood, hup, hfw]

/-- The words of LATBAND that bring-up writes (log 4). -/
def bootLatband : List (Nat × Nat × Word) := (List.range Config.seracDies).flatMap fun d => (List.range 4).map fun p => (d, p, latbandWord d p)

/-- A device that is brought up: memory zeroed and every function ready (R474). -/
def State.bootedWith (s : State) (version : Nat) : State :=
  { s with dev := { s.dev with power := true, up := true, fwVersion := version, latband := bootLatband }
           mem := { s.mem with hbm := [] }
           vfs := s.vfs.map fun v => { v with ready := true } }

theorem execPowerGood_up (hup : s.dev.up = false) {version : Nat} {image : List (BitVec 8)} (hfw : s.dev.bootVersion version image ≠ 0) :
    execPowerGood version image s = .next (s.bootedWith (s.dev.bootVersion version image)) := by
  rw [Device.bootVersion] at hfw ⊢
  simp only [execPowerGood, hup, Bool.false_eq_true, if_false, hfw]
  rfl

theorem execFirmwareUpdate_up (hup : s.dev.up = true) (version : Nat) (image : List (BitVec 8)) : execFirmwareUpdate version image s =
    .next { s with dev := { s.dev.dma 0 image with fwVersion := s.dev.bootVersion version image } } := by
  rw [execFirmwareUpdate, if_pos hup]
  rfl

/-- A die that is noted once. -/
theorem mem_noted (l : List Nat) (d : Nat) : d ∈ if l.contains d then l else d :: l := by
  split_ifs with h
  · exact List.contains_iff_mem.1 h
  · exact List.mem_cons_self

/-! ## Regions, partitions and profiles -/

theorem execRegionDescriptorWrite_good {idx : Nat} {w0 w1 w2 w3 : DWord} (hup : s.dev.up = true) (hidx : idx < s.dev.regions.length)
    (hbad : (regionOf w0 w1 w2 w3).bad = false) (hmeets : ∀ q ∈ s.dev.regions.zipIdx, q.2 ≠ idx → q.1.meets (regionOf w0 w1 w2 w3) = false)
    (hnamed : s.regionNamed idx = false) : execRegionDescriptorWrite idx w0 w1 w2 w3 s =
      .next { s with dev := { s.dev with regions := listMod s.dev.regions idx fun _ => regionOf w0 w1 w2 w3 } } := by
  have hapart : (s.dev.regions.zipIdx.any fun q => q.2 != idx && q.1.meets (regionOf w0 w1 w2 w3)) = false := by
    rw [List.any_eq_false]
    intro q hq
    by_cases h : q.2 = idx
    · simp [h]
    · simp [hmeets q hq h]
  simp only [execRegionDescriptorWrite, hup, hbad, hapart, hnamed, not_le.2 hidx, decide_false, Bool.not_true, Bool.or_self, Bool.false_eq_true, if_false]

theorem execPartitionCut_noRoot {runs : List (Nat × Nat)} (hup : s.dev.up = true) (hcut : cutOk (runs.map fun r => ⟨r.1, r.2⟩) = true)
    (hroot : ∀ v ∈ s.vfs, v.root = none) :
    ∃ t, execPartitionCut runs s = .next t ∧ t.dev.parts = runs.map (fun r => ⟨r.1, r.2⟩) ∧ t.ctxs = s.ctxs := by
  have hempty (n : Nat) : s.rootIn n = false := by
    rw [State.rootIn, List.any_eq_false]
    intro v hv
    simp [hroot v hv]
  have hheld (new : List Partition) : (s.dev.parts.zipIdx.any fun q => !new.contains q.1 && s.rootIn q.2) = false := by simp [hempty]
  simp only [execPartitionCut, hup, hcut, hheld, Bool.not_true, Bool.or_self, Bool.false_eq_true, if_false]
  exact ⟨_, rfl, rfl, rfl⟩

theorem execResourceProfileAssign_fits {vf part : Nat} {q : Partition} {p : Profile} (hpart : s.dev.parts[part]? = some q) (hup : s.dev.up = true)
    (hvf : vf < 96) (hroot : (s.vf vf).root = none)
    (hothers : (s.vfs.zipIdx.filter fun v => v.2 != vf && v.1.profile.any fun f => f.1 == part).length < 8) (hok : s.profileOk q p = true) :
    execResourceProfileAssign vf part p s = .next (s.modVf vf fun v => { v with profile := some (part, p) }) := by
  have hfn : ¬ Config.functions ≤ vf := not_le.2 hvf
  simp only [execResourceProfileAssign, hpart, hup, hroot, hok, hfn, not_le.2 hothers, decide_false, Option.isSome_none, Bool.not_true,
    Bool.or_self, Bool.false_eq_true, if_false]

/-! ## Images (R466) -/

/-- An image that goes out is away, and no longer here. -/
theorem execImageMove_out (handle : Nat) : ∃ t, execImageMove handle false s = .next t ∧ (∀ m ∈ t.dev.images, m.handle ≠ handle) ∧
    ∀ m ∈ s.dev.images, m.handle = handle → m ∈ t.dev.away := by
  refine ⟨_, rfl, fun m hm => ?_, fun m hm hh => ?_⟩
  · simpa using (List.mem_filter.1 hm).2
  · exact List.mem_append_right _ (List.mem_filter.2 ⟨hm, by simpa using hh⟩)

/-- One of this device's that comes in is here again. -/
theorem execImageMove_in (handle : Nat) : ∃ u, execImageMove handle true s = .next u ∧ ∀ m ∈ s.dev.away, m.handle = handle → m ∈ u.dev.images := by
  refine ⟨_, rfl, fun m hm hh => ?_⟩
  have haway : (s.dev.away.any fun m => m.handle == handle) = true := List.any_eq_true.2 ⟨m, hm, by simpa using hh⟩
  rw [if_pos rfl, if_pos haway]
  exact List.mem_append_right _ (List.mem_filter.2 ⟨hm, by simpa using hh⟩)

theorem execImageRelease_drops (handle : Nat) : ∃ v, execImageRelease handle s = .next v ∧
    ∀ m, m ∈ v.dev.images ↔ m ∈ s.dev.images ∧ m.handle ≠ handle :=
  ⟨_, rfl, fun m => by simp⟩

/-- Settles O60: each event carries out what its conditions allow. -/
theorem deviceManagementEvents : Obligations.DeviceManagementEvents := by
  refine ⟨fun s version image hup => ?_, fun s version image hup => execFirmwareUpdate_up hup version image,
    fun s => ⟨_, rfl, rfl, rfl, rfl, rfl⟩, fun s die => ⟨⟨_, rfl, mem_noted _ _, rfl⟩, _, rfl, mem_noted _ _, rfl⟩,
    fun s idx w0 w1 w2 w3 hup hidx => ?_, fun s runs hup hcut hroot => execPartitionCut_noRoot hup hcut hroot,
    fun s vf part q p hpart hup hvf hroot hothers hok => execResourceProfileAssign_fits hpart hup hvf hroot hothers hok, fun s handle => ?_⟩
  · by_cases hfw : s.dev.bootVersion version image = 0
    · exact ⟨_, execPowerGood_down hup hfw, rfl, rfl, hup.trans (bne_eq_false_iff_eq.2 hfw).symm, fun h => absurd hfw h⟩
    · refine ⟨_, execPowerGood_up hup hfw, rfl, rfl, (bne_iff_ne.2 hfw).symm, fun _ => ⟨rfl, rfl, fun v hv => ?_⟩⟩
      obtain ⟨u, -, rfl⟩ := List.mem_map.1 hv
      rfl
  · have hregion : regionOf w0 w1 w2 w3 = { w0 := w0 &&& (if bitsOf w0.toNat 1 0 = 2 then 0xFFFFFFFFFF else 0xFFFFFFFE03), w1 := w1 &&& 0xFFFFFF,
                                            w2, w3 := w3 &&& 0xFFFFFFFF } := by simp [regionOf]
    rw [← hregion]
    exact fun hbad hmeets hnamed => execRegionDescriptorWrite_good hup hidx hbad hmeets hnamed
  · obtain ⟨t, ht, hgone, haway⟩ := execImageMove_out (s := s) handle
    obtain ⟨u, hu, hback⟩ := execImageMove_in (s := s) handle
    obtain ⟨v, hv, hleft⟩ := execImageRelease_drops (s := s) handle
    exact ⟨t, u, v, ht, hu, hv, hgone, haway, hback, hleft⟩

/-! ## Reset -/

/-- No page of a device that is down answers (R461). -/
theorem State.vfRead_of_down (hup : s.dev.up = false) (vf off width : Nat) : s.vfRead vf off width = 0 := by
  have hpage : s.pageUp vf = false := by simp [State.pageUp, hup]
  simp [State.vfRead, hpage]

theorem State.peek_reset (p : Place) : State.reset.peek p = 0 := by
  cases p with
  | dev d => rfl
  | host vf a o => rfl
  | sp c o => rfl
  | acc c o => rfl
  | mbox c sl r l => rfl

/-- A function's entry after bring-up from reset. -/
theorem State.vf_bootedWith_reset (version : Nat) {vf : Nat} (hvf : vf < 96) : (State.reset.bootedWith version).vf vf = { ready := true } := by
  have hvfs : (State.reset.bootedWith version).vfs = List.replicate Config.functions { ready := true } := List.map_replicate
  rw [State.vf, hvfs]
  exact List.getD_replicate _ hvf

/-- The page of a function of a device brought up from reset: READY, no root, and a fault queue that is not set (Table 21.2). -/
theorem State.vfRead_bootedWith_reset (version : Nat) {vf : Nat} (hvf : vf < 96) :
    (State.reset.bootedWith version).vfRead vf 0 8 = 1 ∧ (State.reset.bootedWith version).vfRead vf 0x40 8 = 0 := by
  have hentry := State.vf_bootedWith_reset version hvf
  have hpage : (State.reset.bootedWith version).pageUp vf = true := by
    rw [State.pageUp, hentry]
    simp [State.bootedWith, Config.functions, hvf]
  have hroot : (State.reset.bootedWith version).vfRoot vf = none := by
    rw [State.vfRoot, hentry]
    rfl
  constructor
  · simp [State.vfRead, hpage, State.vfStatus, hroot, hentry, fieldAt]
  · simp [State.vfRead, hpage, hentry]

/-- Settles O49: what reset leaves, and what POWER_GOOD makes of it. -/
theorem resetState : Obligations.ResetState := by
  refine ⟨rfl, rfl, by decide, rfl, rfl, rfl, rfl, rfl, rfl, State.peek_reset, State.vfRead_of_down rfl, fun version image => ?_⟩
  have hversion : State.reset.dev.bootVersion version image = if State.reset.dev.accepts version image then version else 0 := rfl
  by_cases hfw : State.reset.dev.bootVersion version image = 0
  · refine ⟨_, execPowerGood_down rfl hfw, ?_, fun hup => absurd hup Bool.false_ne_true⟩
    rw [hversion] at hfw
    cases hacc : State.reset.dev.accepts version image
    · exact (Bool.and_false _).symm
    · rw [hacc, if_pos rfl] at hfw
      subst hfw
      rfl
  · have hacc : State.reset.dev.accepts version image = true := by
      by_contra hno
      exact hfw (if_neg hno)
    have hbooted : State.reset.dev.bootVersion version image = version := if_pos hacc
    refine ⟨_, execPowerGood_up rfl hfw, ?_, fun _ => ⟨hbooted, rfl, fun vf hvf => State.vfRead_bootedWith_reset _ hvf⟩⟩
    rw [hacc, Bool.and_true, ← hbooted]
    exact (bne_iff_ne.2 hfw).symm

end Sys2Proof.Machine
end

section
/-! PROOF. Flags and events (R131, R135, R347, R348, R467). -/

namespace Sys2Proof.Machine

variable {s : State} {c : Issue} {x : Ctx} (w : Wd) (num : BitVec 6) (h : Issues s c)

/-! ## WAITF -/

section Waitf

include h

theorem execWaitf_waits (hset : (s.flagsOf c.who).getD num.toNat 0 ≠ 0) : execWaitf w num s = .next s :=
  (issuing_of_issues h).trans (congrArg Host.Outcome.next (if_pos (bne_iff_ne.2 hset)))

theorem execWaitf_goes (hclear : (s.flagsOf c.who).getD num.toNat 0 = 0) :
    execWaitf w num s = .next ((s.joinFlag c.who num.toNat).finish c []) := by
  have hflag : ¬ s.flagSet c.who num.toNat = true := fun hset => bne_iff_ne.1 hset hclear
  exact (issuing_of_issues h).trans (congrArg Host.Outcome.next (if_neg hflag))

end Waitf

/-! ## Scopes of events -/

/-- Events of a context of several devices order at .sys (R135). -/
theorem State.eventScope_of_ctx {n : Nat} (hx : s.ctx? n = some x) : s.eventScope n = if 1 < x.devices then .sys else .dev := by
  simp [State.eventScope, hx]

/-- An EVWAIT orders at .sys on a counter that a kick has raised as well (R467, log 53). -/
theorem State.evwaitScope_of_ctx {n e : Nat} (hx : s.ctx? n = some x) :
    s.evwaitScope n e = if e ∈ x.kicked ∨ 1 < x.devices then .sys else .dev := by
  rw [State.evwaitScope, State.eventScope_of_ctx hx, hx]
  by_cases hk : e ∈ x.kicked <;> simp [hk]

/-! ## EVWAIT -/

section Evwait

variable (hx : s.ctx? (s.ctxOf c.who) = some x)

include h hx

/-- EVWAIT asks how far its counter is past the target, modulo 2^32 (R348). -/
theorem execEvwait_eq : execEvwait w num s = .next (if (x.events.getD num.toNat 0 - c.lowW .a).toNat < 2 ^ 31 then
    (s.acquireActs c.who.core (s.evwaitScope (s.ctxOf c.who) num.toNat) 0b111).finish c [] else s) := by
  refine (issuing_of_issues h).trans ?_
  simp only [hx, Option.map_some, Option.getD_some]

theorem execEvwait_goes (hreached : (x.events.getD num.toNat 0 - c.lowW .a).toNat < 2 ^ 31) : execEvwait w num s =
    .next ((s.acquireActs c.who.core (if num.toNat ∈ x.kicked ∨ 1 < x.devices then .sys else .dev) 0b111).finish c []) := by
  rw [execEvwait_eq w num h hx, if_pos hreached, State.evwaitScope_of_ctx hx]

theorem execEvwait_waits (hshort : 2 ^ 31 ≤ (x.events.getD num.toNat 0 - c.lowW .a).toNat) : execEvwait w num s = .next s := by
  rw [execEvwait_eq w num h hx, if_neg (not_lt.2 hshort)]

end Evwait

/-! ## EVSIG -/

section Evsig

include h

theorem execEvsig_warp (hw : c.inWarp) : execEvsig w num s = .next ((s.addEff c (.evsig c.idx num.toNat)).finish c []) := by
  obtain ⟨core, slot, itag, hwho⟩ := c.warp_of_inWarp hw
  refine (issuing_of_issues h).trans ?_
  simp only [hwho]

/-- A control thread's EVSIG adds 1 after its release (R348). -/
theorem execEvsig_ctl {core y : Nat} {t : State} (hwho : c.who = .ctl core y) (hx : s.ctx? y = some x)
    (hrel : s.releaseActs core (s.vfOf y) (if 1 < x.devices then .sys else .dev) 0b111 = .done t) : execEvsig w num s =
    .next ((t.modCtx y fun q => { q with events := listMod q.events num.toNat (· + 1) }).finish c []) := by
  rw [← State.eventScope_of_ctx hx] at hrel
  refine (issuing_of_issues h).trans ?_
  simp only [hwho, hrel]
  rfl

end Evsig

/-- Settles O35: each form with its flag or counter on either side, and EVSIG of both kinds of thread. -/
theorem flagsAndEvents : Obligations.FlagsAndEvents := by
  refine fun w num s t c x h hx => ⟨execWaitf_waits w num h, execWaitf_goes w num h, execEvwait_goes w num h hx, execEvwait_waits w num h hx,
    execEvsig_warp w num h, fun core y hwho hrel => ?_⟩
  rw [hwho] at hx
  exact execEvsig_ctl w num h hwho hx hrel

end Sys2Proof.Machine
end

section
/-! PROOF. Alignment comes before the other checks of a memory form (R330). -/

namespace Sys2Proof.Machine

variable {s : State} {c : Issue} {sz : Sz} {o : MemOp} {space : Space}

/-- A misaligned lane ends the checks, whatever the others would find. -/
theorem State.checkAccess_misaligned {acc : AccKind} {use : WnUse} {n : Nat} {addr : Nat → DWord} {support : Place → Bool} {overlap : Bool}
    (hmis : (c.lanes.any fun l => (addr l).toNat % n != 0) = true) : s.checkAccess c space acc use n addr support overlap =
      .fault (accessFault .misaligned (lanesWhere c.lanes fun l => (addr l).toNat % n != 0) addr acc) := by
  rw [State.checkAccess, if_pos hmis]

/-- The record of a fault that lanes meet before translation, lane by lane. -/
theorem accessFault_eq (code : Code) (m : Mask) (addr : Nat → DWord) (acc : AccKind) : accessFault code m addr acc =
    { code, mask := m, raddr := addr (lowestLane m), acc, lanes := (lanesOf m).map fun l => { lane := l, raddr := addr l } } := by
  rw [accessFault, laneAddrs, List.map_map]
  rfl

variable (h : Issues s c) (hheld : s.held c false false = false)
  (hmis : (c.lanes.any fun l => (memAddr o (space == .gl) c l).toNat % sz.bytes != 0) = true)

include h hheld hmis

theorem loadMeaning_misaligned (hmid : s.midCommit c.who.core = false) : loadMeaning space sz o s = .next (s.faultIssue c
    (accessFault .misaligned (lanesWhere c.lanes fun l => (memAddr o (space == .gl) c l).toNat % sz.bytes != 0) (memAddr o (space == .gl) c) .read)) := by
  refine (issuing_of_issues h).trans ?_
  simp only [hheld, hmid, Bool.or_self, Bool.false_eq_true, if_false, State.checkAccess_misaligned hmis]

theorem storeMeaning_misaligned : storeMeaning space sz o s = .next (s.faultIssue c
    (accessFault .misaligned (lanesWhere c.lanes fun l => (memAddr o (space == .gl) c l).toNat % sz.bytes != 0) (memAddr o (space == .gl) c) .write)) := by
  refine (issuing_of_issues h).trans ?_
  simp only [hheld, Bool.false_eq_true, if_false, State.checkAccess_misaligned hmis]

end Sys2Proof.Machine

namespace Sys2Proof.Machine

/-- Settles O32: the six forms are loads and stores of their spaces. -/
theorem misalignedAccessFaults : Obligations.MisalignedAccessFaults := by
  intro sz o s c h hheld hmid gl sp f
  have hf (m : Mask) (g : Bool) (acc : AccKind) : accessFault .misaligned m (memAddr o g c) acc = f m g acc := accessFault_eq ..
  simp only [← hf]
  exact ⟨fun hgl => ⟨loadMeaning_misaligned (space := .gl) h hheld hgl hmid, storeMeaning_misaligned (space := .gl) h hheld hgl⟩,
    fun hsp => ⟨loadMeaning_misaligned (space := .sp) h hheld hsp hmid, storeMeaning_misaligned (space := .sp) h hheld hsp,
      loadMeaning_misaligned (space := .wn) h hheld hsp hmid, storeMeaning_misaligned (space := .wn) h hheld hsp⟩⟩

end Sys2Proof.Machine
end

section
/-! PROOF. FCMP, FMIN and FMAX (R312, R313): the order of finite values is that of their exact values. -/

namespace Sys2Proof.Machine

/-! ## The order of values -/

/-- Finite values are below each other as the reals they stand for; zeros of both signs are equal (R313). -/
theorem FVal.lt_eq_rat {x y : FVal} (hx : x.finite = true) (hy : y.finite = true) : x.lt y = decide (x.rat < y.rat) := by
  obtain ⟨n₁, m₁, e₁, rfl⟩ := FVal.eq_fin_of_finite hx
  obtain ⟨n₂, m₂, e₂, rfl⟩ := FVal.eq_fin_of_finite hy
  have hpow : (0 : Rat) < 2 ^ min e₁ e₂ := by positivity
  rw [rat_fin, rat_fin, ← alignInt_mul_zpow n₁ m₁ (min_le_left e₁ e₂), ← alignInt_mul_zpow n₂ m₂ (min_le_right e₁ e₂)]
  simp only [FVal.lt, mul_lt_mul_iff_left₀ hpow, Int.cast_lt]

theorem FVal.isNan_of_finite {x : FVal} (hx : x.finite = true) : x.isNan = false := by
  obtain ⟨n, m, e, rfl⟩ := FVal.eq_fin_of_finite hx
  rfl

/-! ## FCMP -/

/-- A relation of finite values is that of their exact values (Table 14.3). -/
theorem fCompare_finite (rel : FCmpRel) {x y : FVal} (hx : x.finite = true) (hy : y.finite = true) : fCompare rel x y = relRats rel x.rat y.rat := by
  have hlt := FVal.lt_eq_rat hx hy
  have hgt := FVal.lt_eq_rat hy hx
  have hnan : (x.isNan || y.isNan) = false := by rw [FVal.isNan_of_finite hx, FVal.isNan_of_finite hy, Bool.or_self]
  cases rel <;> grind [fCompare, relRats]

/-- A pair with a NaN is unordered (R313). -/
theorem fCompare_nan (rel : FCmpRel) {x y : FVal} (h : x.isNan = true ∨ y.isNan = true) :
    fCompare rel x y = decide (rel = .ne ∨ rel = .unordered) := by
  have hlt : x.lt y = false := by
    rcases h with hx | hy
    · rw [FVal.eq_nan_of_isNan hx, FVal.lt]
    · rw [FVal.eq_nan_of_isNan hy]
      cases x <;> rfl
  have hgt : y.lt x = false := by
    rcases h with hx | hy
    · rw [FVal.eq_nan_of_isNan hx]
      cases y <;> rfl
    · rw [FVal.eq_nan_of_isNan hy, FVal.lt]
  have hnan : (x.isNan || y.isNan) = true := by rwa [Bool.or_eq_true]
  cases rel <;> simp [fCompare, hlt, hgt, hnan]

/-! ## FMIN and FMAX -/

section MinMax

variable {isMax num : Bool} {a b : Nat}

/-- A NaN operand gives the other one in the Number forms, and the canonical NaN else (R312). -/
theorem fMinMax_nan_left (ha : (fval .fp32 a).isNan = true) :
    fMinMax .fp32 isMax num a b = if num = true ∧ (fval .fp32 b).isNan = false then b else 0x7FC00000 := by
  cases hb : (fval .fp32 b).isNan <;> simp [fMinMax, ha, hb] <;> rfl

theorem fMinMax_nan_right (hb : (fval .fp32 b).isNan = true) :
    fMinMax .fp32 isMax num a b = if num = true ∧ (fval .fp32 a).isNan = false then a else 0x7FC00000 := by
  cases ha : (fval .fp32 a).isNan <;> simp [fMinMax, ha, hb] <;> rfl

/-- Without a NaN, the maximum is b where a is below it, and the minimum b where it is below a. -/
theorem fMinMax_ordered (ha : (fval .fp32 a).isNan = false) (hb : (fval .fp32 b).isNan = false) : fMinMax .fp32 isMax num a b =
    if (if isMax then (fval .fp32 a).below (fval .fp32 b) else (fval .fp32 b).below (fval .fp32 a)) = true then b else a := by
  cases isMax <;> simp [fMinMax, ha, hb]

theorem fMinMax_mem (ha : (fval .fp32 a).isNan = false) (hb : (fval .fp32 b).isNan = false) :
    fMinMax .fp32 isMax num a b = a ∨ fMinMax .fp32 isMax num a b = b := by
  rw [fMinMax_ordered ha hb]
  exact (ite_eq_or_eq _ b a).symm

/-- What is below is no greater; what is not is no less. -/
theorem FVal.rat_le_of_below {x y : FVal} (hx : x.finite = true) (hy : y.finite = true) : if x.below y = true then x.rat ≤ y.rat else y.rat ≤ x.rat := by
  rw [FVal.below, FVal.lt_eq_rat hx hy, FVal.lt_eq_rat hy hx]
  split_ifs with h
  · simp only [Bool.or_eq_true, Bool.and_eq_true, decide_eq_true_eq, Bool.not_eq_true', decide_eq_false_iff_not] at h
    rcases h with h | ⟨⟨h, -⟩, -⟩
    · exact h.le
    · exact not_lt.1 h
  · simp only [Bool.or_eq_true, decide_eq_true_eq, not_or, not_lt] at h
    exact h.1

theorem rat_fMin (ha : (fval .fp32 a).finite = true) (hb : (fval .fp32 b).finite = true) :
    (fval .fp32 (fMinMax .fp32 false num a b)).rat = min (fval .fp32 a).rat (fval .fp32 b).rat := by
  have hle := FVal.rat_le_of_below hb ha
  rw [fMinMax_ordered (FVal.isNan_of_finite ha) (FVal.isNan_of_finite hb)]
  simp only [Bool.false_eq_true, if_false]
  split_ifs at hle ⊢
  · exact (min_eq_right hle).symm
  · exact (min_eq_left hle).symm

theorem rat_fMax (ha : (fval .fp32 a).finite = true) (hb : (fval .fp32 b).finite = true) :
    (fval .fp32 (fMinMax .fp32 true num a b)).rat = max (fval .fp32 a).rat (fval .fp32 b).rat := by
  have hle := FVal.rat_le_of_below ha hb
  rw [fMinMax_ordered (FVal.isNan_of_finite ha) (FVal.isNan_of_finite hb)]
  simp only [if_true]
  split_ifs at hle ⊢
  · exact (max_eq_right hle).symm
  · exact (max_eq_left hle).symm

end MinMax

/-! ## The forms -/

/-- FCMP sends a truth word of the relation of its prepared operands. -/
theorem fcmp_sends {s : State} {c : Issue} (h : Issues s c) (rel : FCmpRel) (o : FltOp) :
    Sends32 (.fcmp rel o) s c fun l => if fCompare rel (fval .fp32 (fltA o c l)) (fval .fp32 (fltB o c l)) then 0xFFFFFFFF else 0 :=
  (flt_sends h (fun a b _ => (truthWord (fCompare rel (fval .fp32 a) (fval .fp32 b))).toNat) rfl).congr fun _ => BitVec.ofNat_toNat _ _

/-- Settles O18: the relation of exact values, and the lesser or greater operand. -/
theorem floatComparesMinimaAndMaxima : Obligations.FloatComparesMinimaAndMaxima := by
  refine ⟨fun rel o s c h => ⟨_, fcmp_sends h rel o, fun l => ⟨fun ha hb => ?_, fun hnan => ?_⟩⟩, fun num o s c h =>
    ⟨_, _, flt_sends h (fun a b _ => fMinMax .fp32 false num a b) rfl, flt_sends h (fun a b _ => fMinMax .fp32 true num a b) rfl, fun l =>
      ⟨fun ha => ⟨(fMinMax_nan_left ha).trans (fMinMax_nan_left ha).symm, fMinMax_nan_left ha⟩,
        fun hb => ⟨(fMinMax_nan_right hb).trans (fMinMax_nan_right hb).symm, fMinMax_nan_right hb⟩,
        fun ha hb => ⟨fMinMax_mem ha hb, fMinMax_mem ha hb⟩, fun ha hb => ⟨rat_fMin ha hb, rat_fMax ha hb⟩⟩⟩⟩
  · rw [fCompare_finite rel ha hb]
  · simp only [fCompare_nan rel hnan, decide_eq_true_eq]

end Sys2Proof.Machine
end

section
/-! PROOF. The forms of launches and contexts (R386 to R388, R392 to R397, Table 17.3): what each does by its operands and the state of
the context it names. -/

namespace Sys2Proof.Machine

/-! ## Fields, and effects of both kinds of thread -/

/-- The field above bit `k` of a 32-bit number is 0 where the number is below 2^k. -/
theorem bitsOf_above_eq_zero_iff {n k : Nat} (hn : n < 2 ^ 32) (hk : k ≤ 32) : bitsOf n 31 k = 0 ↔ n < 2 ^ k := by
  have hquot : n / 2 ^ k < 2 ^ (32 - k) := by
    rw [Nat.div_lt_iff_lt_mul (Nat.two_pow_pos k), ← pow_add, Nat.sub_add_cancel hk]
    exact hn
  rw [bitsOf, Nat.mod_eq_of_lt hquot, Nat.div_eq_zero_iff_lt (Nat.two_pow_pos k)]

variable {s u : State} {c : Issue} {scope : Scope} {e : Eff} {res : List Lanes} {reserve now : State → State} {i : Instr}

/-- A form that is carried out as R386 says takes effect so. -/
theorem takesEffect_of_effectForm {now : State → RelSt} (hi : exec i s = .next (u.effectForm c scope e res reserve now)) :
    TakesEffect i s u c scope e res reserve now := by
  refine ⟨fun hw => ?_, fun core x v t hwho hrel hnow => ?_⟩
  · obtain ⟨core, slot, itag, hwho⟩ := c.warp_of_inWarp hw
    rw [hi, State.effectForm, hwho]
  · rw [hi, State.effectForm, hwho]
    simp only [hrel, hnow]

/-- A form that asks which kind of thread carries it out. -/
theorem buffersOrDoes_of_match (hi : exec i s = .next (match c.who with
      | .warp _ _ _ => ((reserve u).addEff c e).finish c res
      | .ctl _ _ => (now u).finish c res)) : BuffersOrDoes i s u c e res reserve now := by
  refine ⟨fun hw => ?_, fun hc => ?_⟩
  · obtain ⟨core, slot, itag, hwho⟩ := c.warp_of_inWarp hw
    rw [hi, hwho]
  · obtain ⟨core, x, hwho⟩ := c.ctl_of_isCtl hc
    rw [hi, hwho]

end Sys2Proof.Machine

namespace Sys2Proof.Machine

variable {s : State} {c : Issue} {x : Ctx} (w : Wd) (h : Issues s c)

/-! ## LAUNCH -/

/-- The result of a LAUNCH that its queue takes: its number (R387). -/
theorem launchRes_taken (c : Issue) (seq : Nat) : launchRes c seq 0 = c.status (seq % 2 ^ 24 * 256) :=
  congrArg c.status (Nat.add_zero (fieldAt seq 8 24))

/-- A refused LAUNCH sends its status under some sequence number (log 23). -/
theorem State.refuseLaunch_eq (s : State) (c : Issue) (st : CtxStatus) :
    ∃ seq, seq < 2 ^ 24 ∧ s.refuseLaunch c st = { s with free := s.free + 1 }.finish c (c.status (seq * 256 + st.num)) :=
  ⟨_, Nat.mod_lt _ (by decide), rfl⟩

theorem exists_next_of_refuseLaunch {i : Instr} {st : CtxStatus} {n : Nat} (hn : st.num = n) (hi : exec i s = .next (s.refuseLaunch c st)) :
    ∃ seq, seq < 2 ^ 24 ∧ exec i s = .next ({ s with free := s.free + 1 }.finish c (c.status (seq * 256 + n))) := by
  obtain ⟨seq, hseq, heq⟩ := s.refuseLaunch_eq c st
  exact ⟨seq, hseq, hn ▸ heq ▸ hi⟩

section Launch

variable (hx : s.ctx? (s.ctxOf c.who) = some x)

include h hx

theorem execLaunch_misaligned (hmis : (c.lowD .a .ax).toNat % 128 ≠ 0) : execLaunch w s = .next (s.faultIssue c (misFault c (c.lowD .a .ax))) := by
  refine (issuing_of_issues h).trans ?_
  simp only [hx, bne_iff_ne.2 hmis, if_true]

variable (hal : (c.lowD .a .ax).toNat % 128 = 0)

include hal

theorem execLaunch_malformed (hq : 64 ≤ (c.lowW .b).toNat) : execLaunch w s = .next (s.refuseLaunch c .malformed) := by
  have hfield : bitsOf (c.lowW .b).toNat 31 6 ≠ 0 := fun h0 => not_le.2 ((bitsOf_above_eq_zero_iff (c.lowW .b).isLt (by decide)).1 h0) hq
  refine (issuing_of_issues h).trans ?_
  simp only [hx, hal, bne_self_eq_false, Bool.false_eq_true, if_false, bne_iff_ne.2 hfield, if_true]

variable (hq : (c.lowW .b).toNat < 64)

include hq

/-- A LAUNCH with an aligned record and a queue number in range: which of the statuses, or the launch itself. -/
theorem execLaunch_queue : execLaunch w s = .next (
    if x.queueCount ≤ (c.lowW .b).toNat then s.refuseLaunch c .badQueue
    else if 256 ≤ (x.queues.getD (c.lowW .b).toNat default).load then
      if c.form.targets.any (·.isSome) then s.refuseLaunch c .queueFull
      else match c.who with
        | .warp _ _ _ => (s.addEff c (.launchFull c.idx)).finish c []
        | .ctl _ _ => s.faultIssue c { code := .queueFull, mask := c.mask }
    else s.effectForm c (x.effectScope c.who.core (x.queueDev (c.lowW .b).toNat))
      (.launch c.idx (c.lowW .b).toNat (x.queues.getD (c.lowW .b).toNat default).next (c.lowD .a .ax))
      (launchRes c (x.queues.getD (c.lowW .b).toNat default).next 0) (fun s' => s'.reserveGrid (s.ctxOf c.who) (c.lowW .b).toNat)
      (fun s => s.launchNow c.who (c.lowW .b).toNat (x.queues.getD (c.lowW .b).toNat default).next (c.lowD .a .ax))) := by
  have hfield : bitsOf (c.lowW .b).toNat 31 6 = 0 := (bitsOf_above_eq_zero_iff (c.lowW .b).isLt (by decide)).2 hq
  refine (issuing_of_issues h).trans ?_
  simp only [hx, hal, hfield, bne_self_eq_false, Bool.false_eq_true, if_false] <;> rfl

theorem execLaunch_badQueue (hcount : x.queueCount ≤ (c.lowW .b).toNat) : execLaunch w s = .next (s.refuseLaunch c .badQueue) := by
  rw [execLaunch_queue w h hx hal hq, if_pos hcount]

variable (hcount : (c.lowW .b).toNat < x.queueCount)

include hcount

theorem execLaunch_takesEffect (hload : (x.queues.getD (c.lowW .b).toNat default).load < 256) : execLaunch w s =
    .next (s.effectForm c (x.effectScope c.who.core (x.queueDev (c.lowW .b).toNat))
      (.launch c.idx (c.lowW .b).toNat (x.queues.getD (c.lowW .b).toNat default).next (c.lowD .a .ax))
      (launchRes c (x.queues.getD (c.lowW .b).toNat default).next 0) (fun s' => s'.reserveGrid (s.ctxOf c.who) (c.lowW .b).toNat)
      (fun s => s.launchNow c.who (c.lowW .b).toNat (x.queues.getD (c.lowW .b).toNat default).next (c.lowD .a .ax))) := by
  rw [execLaunch_queue w h hx hal hq, if_neg (not_le.2 hcount), if_neg (not_le.2 hload)]

variable (hload : 256 ≤ (x.queues.getD (c.lowW .b).toNat default).load)

include hload

theorem execLaunch_queueFull (htarget : ∃ t ∈ c.form.targets, t ≠ none) : execLaunch w s = .next (s.refuseLaunch c .queueFull) := by
  have hany : (c.form.targets.any (·.isSome)) = true := by simpa [List.any_eq_true, Option.isSome_iff_ne_none] using htarget
  rw [execLaunch_queue w h hx hal hq, if_neg (not_le.2 hcount), if_pos hload, if_pos hany]

variable (htarget : ∀ t ∈ c.form.targets, t = none)

include htarget

theorem execLaunch_fullUntaken : execLaunch w s = .next (match c.who with
    | .warp _ _ _ => (s.addEff c (.launchFull c.idx)).finish c []
    | .ctl _ _ => s.faultIssue c { code := .queueFull, mask := c.mask }) := by
  have hany : ¬ (c.form.targets.any (·.isSome)) = true := by
    rw [List.any_eq_true]
    rintro ⟨t, ht, hsome⟩
    rw [htarget t ht] at hsome
    cases hsome
  rw [execLaunch_queue w h hx hal hq, if_neg (not_le.2 hcount), if_pos hload, if_neg hany]

theorem execLaunch_fullWarp (hw : c.inWarp) : execLaunch w s = .next ((s.addEff c (.launchFull c.idx)).finish c []) := by
  obtain ⟨core, slot, itag, hwho⟩ := c.warp_of_inWarp hw
  rw [execLaunch_fullUntaken w h hx hal hq hcount hload htarget, hwho]

theorem execLaunch_fullCtl (hc : c.who.isCtl = true) : execLaunch w s = .next (s.faultIssue c { code := .queueFull, mask := c.mask }) := by
  obtain ⟨core, y, hwho⟩ := c.ctl_of_isCtl hc
  rw [execLaunch_fullUntaken w h hx hal hq hcount hload htarget, hwho]

end Launch

/-! ## LSTAT -/

section Lstat

variable (hx : s.ctx? (s.ctxOf c.who) = some x)

include h hx

theorem execLstat_unknown (hno : 64 ≤ (c.lowW .a).toNat ∨ 2 ^ 24 ≤ (c.lowW .b).toNat ∨ x.queueCount ≤ (c.lowW .a).toNat) :
    execLstat w s = .next (s.finish c (c.status 5)) := by
  have hcond : (bitsOf (c.lowW .a).toNat 31 6 != 0 || bitsOf (c.lowW .b).toNat 31 24 != 0 || decide (x.queueCount ≤ (c.lowW .a).toNat)) = true := by
    simp only [Bool.or_eq_true, bne_iff_ne, ne_eq, bitsOf_above_eq_zero_iff (c.lowW .a).isLt (by decide : 6 ≤ 32),
      bitsOf_above_eq_zero_iff (c.lowW .b).isLt (by decide : 24 ≤ 32), decide_eq_true_eq, not_lt]
    tauto
  refine (issuing_of_issues h).trans ?_
  simp only [hx, hcond, if_true]
  rfl

/-- LSTAT of a queue and number in range: an acquire comes before DONE and KILLED (R388). -/
theorem execLstat_known (hql : (c.lowW .a).toNat < 64) (hseq : (c.lowW .b).toNat < 2 ^ 24) (hcount : (c.lowW .a).toNat < x.queueCount) :
    execLstat w s = .next ((if (x.queues.getD (c.lowW .a).toNat default).stat (c.lowW .b).toNat = 2 ∨
        (x.queues.getD (c.lowW .a).toNat default).stat (c.lowW .b).toNat = 4 then
      s.acquireActs c.who.core (x.effectScope c.who.core (x.queueDev (c.lowW .a).toNat)) 0b111 else s).finish c
        (c.status ((x.queues.getD (c.lowW .a).toNat default).stat (c.lowW .b).toNat))) := by
  have hcond : (bitsOf (c.lowW .a).toNat 31 6 != 0 || bitsOf (c.lowW .b).toNat 31 24 != 0 || decide (x.queueCount ≤ (c.lowW .a).toNat)) = false := by
    rw [(bitsOf_above_eq_zero_iff (c.lowW .a).isLt (by decide)).2 hql, (bitsOf_above_eq_zero_iff (c.lowW .b).isLt (by decide)).2 hseq,
      decide_eq_false (not_le.2 hcount)]
    rfl
  refine (issuing_of_issues h).trans ?_
  simp only [hx, hcond, Bool.false_eq_true, if_false, Bool.or_eq_true, decide_eq_true_eq]

end Lstat

/-- Settles O42: the statuses in their order, and the launch itself. -/
theorem launchReservesTheNextNumber : Obligations.LaunchReservesTheNextNumber := by
  intro w s c x h hx va q u ql core refused
  have htaken : launchRes c u.next 0 = c.status (u.next % 2 ^ 24 * 256) := launchRes_taken c u.next
  rw [← htaken]
  exact ⟨execLaunch_misaligned w h hx, fun hal hq => exists_next_of_refuseLaunch rfl (execLaunch_malformed w h hx hal hq),
    fun hal hq hcount => exists_next_of_refuseLaunch rfl (execLaunch_badQueue w h hx hal hq hcount),
    fun hal hq hcount hload htarget => exists_next_of_refuseLaunch rfl (execLaunch_queueFull w h hx hal hq hcount hload htarget),
    fun hal hq hcount hload htarget =>
      ⟨execLaunch_fullWarp w h hx hal hq hcount hload htarget, execLaunch_fullCtl w h hx hal hq hcount hload htarget⟩,
    fun hal hq hcount hload => takesEffect_of_effectForm (execLaunch_takesEffect w h hx hal hq hcount hload),
    execLstat_unknown w h hx, execLstat_known w h hx⟩

/-! ## The context a form names -/

section Target

variable {y : Nat} {id : Word} {k : Ctx}

theorem State.targetById_none (hd : s.descendantById y id = none) : s.targetById y id = .error .notDesc := by
  rw [State.targetById, hd]

theorem State.targetById_killing (hd : s.descendantById y id = some k) (hk : k.st = .killing) : s.targetById y id = .error .killing := by
  simp only [State.targetById, hd, hk, beq_self_eq_true, if_true]

theorem State.targetById_alive (hd : s.descendantById y id = some k) (hk : k.st ≠ .killing) : s.targetById y id = .ok k := by
  simp only [State.targetById, hd, beq_false_of_ne hk, Bool.false_eq_true, if_false]

end Target

/-! ## CTXKILL -/

section Kill

include h

theorem execCtxkill_misaligned (hmis : (c.lowD .b .bx).toNat % 8 ≠ 0) : execCtxkill w s = .next (s.faultIssue c (misFault c (c.lowD .b .bx))) := by
  refine (issuing_of_issues h).trans ?_
  simp only [bne_iff_ne.2 hmis, if_true]

variable (hal : (c.lowD .b .bx).toNat % 8 = 0)

include hal

theorem execCtxkill_refuses {e : CtxStatus} (ht : s.targetById (s.ctxOf c.who) (c.lowW .a) = .error e) {n : Nat} (hn : e.num = n) :
    execCtxkill w s = .next (s.finish c (c.status n)) := by
  rw [← hn]
  refine (issuing_of_issues h).trans ?_
  simp only [hal, bne_self_eq_false, Bool.false_eq_true, if_false, ht]

variable {k : Ctx} (ht : s.targetById (s.ctxOf c.who) (c.lowW .a) = .ok k)

include ht

theorem execCtxkill_waits (hl : s.lockFree k.idx c.who = false) : execCtxkill w s = .next s := by
  refine (issuing_of_issues h).trans ?_
  simp only [hal, bne_self_eq_false, Bool.false_eq_true, if_false, ht, hl, Bool.not_false, if_true]

theorem execCtxkill_kills (hl : s.lockFree k.idx c.who = true) : execCtxkill w s = .next (match c.who with
    | .warp _ _ _ => ((s.takeLock k.idx c.who).addEff c (.ctxkill c.idx k.idx k.id (c.lowD .b .bx))).finish c (c.status 0)
    | .ctl _ _ => (s.startKill k.idx (some (s.ctxOf c.who)) (c.lowD .b .bx)).finish c (c.status 0)) := by
  refine (issuing_of_issues h).trans ?_
  simp only [hal, bne_self_eq_false, Bool.false_eq_true, if_false, ht, hl, Bool.not_true] <;> rfl

end Kill

/-! ## CTXRUN -/

section Run

variable (hx : s.ctx? (s.ctxOf c.who) = some x)

include h hx

theorem execCtxrun_refuses {e : CtxStatus} (ht : s.targetById (s.ctxOf c.who) (c.lowW .a) = .error e) {n : Nat} (hn : e.num = n) :
    execCtxrunResume w s = .next (s.finish c (c.status n)) ∧ execCtxrunReflect w s = .next (s.finish c (c.status n)) := by
  rw [← hn]
  constructor
  all_goals
    refine (issuing_of_issues h).trans ?_
    simp only [hx, ht]

variable {k : Ctx} (ht : s.targetById (s.ctxOf c.who) (c.lowW .a) = .ok k)

include ht

theorem execCtxrun_waits (hl : s.lockFree k.idx c.who = false) : execCtxrunResume w s = .next s ∧ execCtxrunReflect w s = .next s := by
  constructor
  all_goals
    refine (issuing_of_issues h).trans ?_
    simp only [hx, ht, hl, Bool.not_false, if_true]

variable (hl : s.lockFree k.idx c.who = true)

include hl

theorem execCtxrunResume_resumes (hst : s.resumeStatus (s.ctxOf c.who) k (c.lowW .b).toNat = .done) : execCtxrunResume w s =
    .next (s.effectForm c (x.childScope c.who.core k.cores) (.resume c.idx k.idx (c.lowW .b).toNat) (c.status 0)
      (fun s => s.takeLock k.idx c.who) (fun u => .done (u.resumeDo (s.ctxOf c.who) k.idx (c.lowW .b).toNat))) := by
  refine (issuing_of_issues h).trans ?_
  simp only [hx, ht, hl, hst, Bool.not_true, Bool.false_eq_true, if_false]

theorem execCtxrunReflect_reflects (hst : s.reflectStatus (s.ctxOf c.who) k (c.lowW .b).toNat (c.lowW .c).toNat = .done) : execCtxrunReflect w s =
    .next (s.effectForm c (x.childScope c.who.core k.cores)
      (.reflect c.idx k.idx (c.lowW .b).toNat (bitsOf (c.lowW .c).toNat 7 0) (bitsOf (c.lowW .c).toNat 9 8)) (c.status 0)
      (fun s => s.takeLock k.idx c.who)
      (fun u => .done (u.reflectHalt (s.ctxOf c.who) k.idx (c.lowW .b).toNat (bitsOf (c.lowW .c).toNat 7 0) (bitsOf (c.lowW .c).toNat 9 8)))) := by
  refine (issuing_of_issues h).trans ?_
  simp only [hx, ht, hl, hst, Bool.not_true, Bool.false_eq_true, if_false]

end Run

/-- A form reaches another device where a core of its target lies on one (R386). -/
theorem Ctx.childScope_eq (x : Ctx) (core : Nat) (cores : List Nat) :
    x.childScope core cores = if ∃ n ∈ cores, x.devIdx n ≠ x.devIdx core then .sys else .dev := by
  simp [Ctx.childScope, List.any_eq_true]

/-! ## CTXSTAT -/

section Stat

include h

/-- CTXSTAT of identifier 0 looks at the caller (R395). -/
theorem execCtxstat_self (hx : s.ctx? (s.ctxOf c.who) = some x) (hid : c.lowW .a = 0) :
    execCtxstat w s = .next (s.finish c (c.status (s.ctxStat x (c.lowW .b).toNat))) := by
  refine (issuing_of_issues h).trans ?_
  simp only [hid, if_true, hx]

theorem execCtxstat_unknown (hid : c.lowW .a ≠ 0) (hd : s.descendantById (s.ctxOf c.who) (c.lowW .a) = none) :
    execCtxstat w s = .next (s.finish c (c.status 0xFFFFFFFF)) := by
  refine (issuing_of_issues h).trans ?_
  simp only [hid, if_false, hd]

theorem execCtxstat_descendant {k : Ctx} (hid : c.lowW .a ≠ 0) (hd : s.descendantById (s.ctxOf c.who) (c.lowW .a) = some k) :
    execCtxstat w s = .next (s.finish c (c.status (s.ctxStat k (c.lowW .b).toNat))) := by
  refine (issuing_of_issues h).trans ?_
  simp only [hid, if_false, hd]

end Stat

/-- Settles O44: the identifier decides first, then the target's state and its control lock. -/
theorem killRunAndStatActOnDescendants : Obligations.KillRunAndStatActOnDescendants := by
  intro w s c x k h hx id y b v cw tells lock scope
  refine ⟨execCtxkill_misaligned w h, fun hd => ?_, execCtxstat_self w h hx, fun hd => ⟨fun hk => ?_, fun hk hl => ?_, fun hk hl => ?_,
    fun hid => execCtxstat_descendant w h hid hd⟩⟩
  · have ht := State.targetById_none hd
    obtain ⟨hresume, hreflect⟩ := execCtxrun_refuses w h hx ht rfl
    exact ⟨fun hal => execCtxkill_refuses w h hal ht rfl, hresume, hreflect, fun hid => execCtxstat_unknown w h hid hd⟩
  · have ht := State.targetById_killing hd hk
    obtain ⟨hresume, hreflect⟩ := execCtxrun_refuses w h hx ht rfl
    exact ⟨fun hal => execCtxkill_refuses w h hal ht rfl, hresume, hreflect⟩
  · have ht := State.targetById_alive hd hk
    obtain ⟨hresume, hreflect⟩ := execCtxrun_waits w h hx ht hl
    exact ⟨fun hal => execCtxkill_waits w h hal ht hl, hresume, hreflect⟩
  · have ht := State.targetById_alive hd hk
    have hscope : x.childScope c.who.core k.cores = scope := Ctx.childScope_eq ..
    rw [← hscope]
    have hfields : bitsOf v 7 0 = v % 256 ∧ bitsOf v 9 8 = v / 256 % 4 := by simp [bitsOf]
    obtain ⟨hcode, haux⟩ := hfields
    rw [← hcode, ← haux]
    exact ⟨fun hal => buffersOrDoes_of_match (execCtxkill_kills w h hal ht hl),
      fun hst => takesEffect_of_effectForm (execCtxrunResume_resumes w h hx ht hl hst),
      fun hst => takesEffect_of_effectForm (execCtxrunReflect_reflects w h hx ht hl hst)⟩

/-! ## TLBINV and FQPOP -/

section Tlbinv

include h

theorem execTlbinv_misaligned (hmis : (c.lowD .a .ax).toNat % 65536 ≠ 0) :
    execTlbinv w s = .next (s.faultIssue c (misFault c (c.lowD .a .ax))) := by
  refine (issuing_of_issues h).trans ?_
  simp only [bne_iff_ne.2 hmis, if_true]

variable (hal : (c.lowD .a .ax).toNat % 65536 = 0)

include hal

theorem execTlbinv_warp (hw : c.inWarp) : execTlbinv w s = .next ((s.addEff c (.tlbinv c.idx (c.lowD .a .ax) (c.lowW .b).toNat)).finish c []) := by
  obtain ⟨core, slot, itag, hwho⟩ := c.warp_of_inWarp hw
  refine (issuing_of_issues h).trans ?_
  simp only [hal, bne_self_eq_false, Bool.false_eq_true, if_false, hwho]

/-- A control thread's TLBINV waits for the accesses that use the translations (R396). -/
theorem execTlbinv_ctl (hc : c.who.isCtl = true) : execTlbinv w s = .next (
    if s.invWaits c.who (c.lowD .a .ax).toNat (c.lowW .b).toNat then s
    else (s.invDo (s.ctxOf c.who) (c.lowD .a .ax).toNat (c.lowW .b).toNat).finish c []) := by
  obtain ⟨core, y, hwho⟩ := c.ctl_of_isCtl hc
  refine (issuing_of_issues h).trans ?_
  simp only [hal, bne_self_eq_false, Bool.false_eq_true, if_false, hwho]
  rfl

end Tlbinv

section Fqpop

include h

theorem execFqpop_misaligned (hmis : (c.lowD .a .ax).toNat % 64 ≠ 0) :
    execFqpop w s = .next (s.faultIssue c (misFault c (c.lowD .a .ax))) := by
  refine (issuing_of_issues h).trans ?_
  simp only [bne_iff_ne.2 hmis, if_true]

variable (hal : (c.lowD .a .ax).toNat % 64 = 0) (hx : s.ctx? (s.ctxOf c.who) = some x)

include hal hx

theorem execFqpop_empty (hfq : x.fq = []) : execFqpop w s = .next (s.finish c (c.status 1)) := by
  refine (issuing_of_issues h).trans ?_
  simp only [hal, bne_self_eq_false, Bool.false_eq_true, if_false, hx, Option.map_some, hfq]

variable {t : State} {r : List DWord} {rest : List (List DWord)} {accs : List Access} (hfq : x.fq = r :: rest)
  (hck : s.checkAccess { c with mask := maskOf [c.low] } .gl .write .store 64 (fun _ => c.lowD .a .ax) (fun _ => true) false = .ok t accs)

include hfq hck

theorem execFqpop_warp (hw : c.inWarp) : execFqpop w s =
    .next (((t.modCtx (s.ctxOf c.who) fun x => { x with fq := rest, fqHeld := x.fqHeld + 1 }).addEff c
      (.fqpop c.idx (accs.flatMap fun a => recordStore a r) r)).finish c (c.status (rest.length % 65536 * 256))) := by
  obtain ⟨core, slot, itag, hwho⟩ := c.warp_of_inWarp hw
  refine (issuing_of_issues h).trans ?_
  simp only [hal, bne_self_eq_false, Bool.false_eq_true, if_false, hx, Option.map_some, hfq, hck]
  rw [hwho]
  rfl

theorem execFqpop_ctl (hc : c.who.isCtl = true) {u : State}
    (happ : applyLanes (fun s a v => s.applyStore c.who c.idx .rnd none a v) t (accs.flatMap fun a => recordStore a r) = (u, [])) :
    execFqpop w s = .next (((u.modCtx (s.ctxOf c.who) fun x => { x with fq := x.fq.drop 1 }).drainFaults).finish c
      (c.status (rest.length % 65536 * 256))) := by
  obtain ⟨core, y, hwho⟩ := c.ctl_of_isCtl hc
  refine (issuing_of_issues h).trans ?_
  simp only [hal, bne_self_eq_false, Bool.false_eq_true, if_false, hx, Option.map_some, hfq, hck]
  rw [hwho] at happ ⊢
  simp only [happ]
  rfl

end Fqpop

/-- Settles O45: alignment first, then the two kinds of thread. -/
theorem invalidateAndPopForms : Obligations.InvalidateAndPopForms := by
  intro w s t u c x r rest accs h hx va n y data left
  exact ⟨execTlbinv_misaligned w h, execTlbinv_warp w h, fun hal hc hwait => (execTlbinv_ctl w h hal hc).trans (congrArg _ (if_pos hwait)),
    fun hal hc hfree => (execTlbinv_ctl w h hal hc).trans (congrArg _ (if_neg (Bool.eq_false_iff.1 hfree))),
    execFqpop_misaligned w h, fun hal hfq => execFqpop_empty w h hal hx hfq, fun hal hfq hck =>
      ⟨execFqpop_warp w h hal hx hfq hck, fun hc happ => execFqpop_ctl w h hal hx hfq hck hc happ⟩⟩

end Sys2Proof.Machine
end

section
/-! PROOF. STRMCTL (R357, R366, Table 16.8). -/

namespace Sys2Proof.Machine

/-- The fields of a generator number in range (R366). -/
theorem bitsOf_generator {x : Word} (hx : x.toNat < 8) : bitsOf x.toNat 31 3 = 0 ∧ bitsOf x.toNat 2 0 = x.toNat :=
  ⟨(bitsOf_above_eq_zero_iff x.isLt (by decide)).2 hx, by simpa [bitsOf] using hx⟩

variable {s : State} {c : Issue} (h : Issues s c) (a : StrmAct)

include h

/-- A generator number above 7 (R366). -/
theorem strmctl_beyond (hx : 8 ≤ (c.lowW .a).toNat) : strmctl a s = .next (s.finish c (c.status 3)) := by
  have hfield : bitsOf (c.lowW .a).toNat 31 3 ≠ 0 := fun h0 => not_le.2 ((bitsOf_above_eq_zero_iff (c.lowW .a).isLt (by decide)).1 h0) hx
  refine (issuing_of_issues h).trans ?_
  simp only [bne_iff_ne.2 hfield, if_true]

variable (hx : (c.lowW .a).toNat < 8)

include hx

theorem strmctl_noStream (hgen : (s.core c.who.core).gens.getD (c.lowW .a).toNat none = none) :
    strmctl a s = .next (s.finish c (c.status 1)) := by
  obtain ⟨hhigh, hlow⟩ := bitsOf_generator hx
  refine (issuing_of_issues h).trans ?_
  simp only [hhigh, hlow, bne_self_eq_false, Bool.false_eq_true, if_false, hgen, Option.bind_none]

variable {st : Stream} {o : EngOp} (hgen : (s.core c.who.core).gens.getD (c.lowW .a).toNat none = some st)
  (ho : (s.core c.who.core).op? st.op = some o) (hctx : o.ctx = s.ctxOf c.who) (hkind : o.req.kind = .stream)

include hgen ho hctx hkind

/-- STRMCTL of a STREAM of the context follows Table 16.8. -/
theorem strmctl_held : strmctl a s = .next (match strmNext st.st a with
    | none => s.finish c (c.status 2)
    | some none => (s.cancelStream c.who.core o).finish c (c.status 0)
    | some (some n) => (s.putGen c.who.core (c.lowW .a).toNat (some { st with st := n })).finish c (c.status 0)) := by
  obtain ⟨hhigh, hlow⟩ := bitsOf_generator hx
  refine (issuing_of_issues h).trans ?_
  simp only [hhigh, hlow, bne_self_eq_false, Bool.false_eq_true, if_false, hgen, Option.bind_some, ho, hctx, hkind, beq_self_eq_true, Bool.and_self,
    if_true] <;> rfl

theorem strmctl_forbidden (hnext : strmNext st.st a = none) : strmctl a s = .next (s.finish c (c.status 2)) := by
  rw [strmctl_held h a hx hgen ho hctx hkind, hnext]

theorem strmctl_moves {n : StreamSt} (hnext : strmNext st.st a = some (some n)) :
    strmctl a s = .next ((s.putGen c.who.core (c.lowW .a).toNat (some { st with st := n })).finish c (c.status 0)) := by
  rw [strmctl_held h a hx hgen ho hctx hkind, hnext]

theorem strmctl_cancels : strmctl .cancel s = .next ((s.cancelStream c.who.core o).finish c (c.status 0)) := by
  have hnext : strmNext st.st .cancel = some none := by cases st.st <;> rfl
  rw [strmctl_held h .cancel hx hgen ho hctx hkind, hnext]

end Sys2Proof.Machine

namespace Sys2Proof.Machine

/-- A cancelled stream none of whose mailbox stores is on its way completes at once (R357). -/
theorem State.cancelStream_of_mailIn {s : State} {core : Nat} {o : EngOp} (hm : s.mailOut core o.id = false) :
    s.cancelStream core o = s.finishOp core o.id 5 := by
  simp only [State.cancelStream, hm, Bool.not_false, if_true]

/-- Table 16.8: the one state in which an action other than CANCEL is allowed. -/
theorem strmNext_start {st : StreamSt} (h : st ≠ .loaded) : strmNext st .start = none := by cases st <;> trivial
theorem strmNext_pause {st : StreamSt} (h : st ≠ .running) : strmNext st .pause = none := by cases st <;> trivial
theorem strmNext_resume {st : StreamSt} (h : st ≠ .paused) : strmNext st .resume = none := by cases st <;> trivial

/-- Settles O38: the number, the generator, and the table. -/
theorem streamControlFollowsTheTable : Obligations.StreamControlFollowsTheTable := by
  refine fun w s c h => ⟨fun hx => ⟨strmctl_beyond h _ hx, strmctl_beyond h _ hx, strmctl_beyond h _ hx, strmctl_beyond h _ hx⟩,
    fun hx hgen => ⟨strmctl_noStream h _ hx hgen, strmctl_noStream h _ hx hgen, strmctl_noStream h _ hx hgen, strmctl_noStream h _ hx hgen⟩,
    fun st o hx hgen ho hctx hkind => ?_⟩
  have hmoves (a : StrmAct) {n : StreamSt} := strmctl_moves h a hx hgen ho hctx hkind (n := n)
  have hforbidden (a : StrmAct) := strmctl_forbidden h a hx hgen ho hctx hkind
  have hcancel := strmctl_cancels h hx hgen ho hctx hkind
  exact ⟨fun hst => hmoves .start (by rw [hst]; rfl), fun hst => hforbidden .start (strmNext_start hst),
    fun hst => hmoves .pause (by rw [hst]; rfl), fun hst => hforbidden .pause (strmNext_pause hst),
    fun hst => hmoves .resume (by rw [hst]; rfl), fun hst => hforbidden .resume (strmNext_resume hst),
    hcancel, fun hm => State.cancelStream_of_mailIn hm ▸ hcancel⟩

end Sys2Proof.Machine
end

section
/-! PROOF. The communicator forms (R378, R379). -/

namespace Sys2Proof.Machine

variable {s t u : State} {c : Issue} {ws : List DWord} (w : Wd) (h : Issues s c)

/-! ## COMMNEW -/

section New

variable {x : Ctx} (hblock : s.readBlock c (c.lowD .a .ax) = .ok t ws) (hx : t.ctx? (s.ctxOf c.who) = some x)

include h hblock hx

theorem execCommnew_full (hfree : x.freeHandle = none) : execCommnew w s = .next (t.finish c (c.status 0x100)) := by
  refine (issuing_of_issues h).trans ?_
  simp only [hblock, hx, Option.bind_some, hfree]

variable {k : Nat} (hfree : x.freeHandle = some k)

include hfree

theorem execCommnew_badBlock (hbad : commBad ws = true) : execCommnew w s = .next (t.finish c (c.status 0x101)) := by
  refine (issuing_of_issues h).trans ?_
  simp only [hblock, hx, Option.bind_some, hfree, hbad, if_true]

variable {bs : List (BitVec 8)} (hbad : commBad ws = false) (htable : t.readPieces c 16 (blkF ws 1 31 0) (blkW ws 2) = .ok u bs)

include hbad htable

theorem execCommnew_badTable (hmem : membersBad (memberPairs (blkF ws 1 31 0) (dwords (2 * blkF ws 1 31 0) bs)) = true) :
    execCommnew w s = .next (u.finish c (c.status 0x101)) := by
  refine (issuing_of_issues h).trans ?_
  simp only [hblock, hx, Option.bind_some, hfree, hbad, Bool.false_eq_true, if_false, htable, hmem, if_true]

/-- A legal COMMNEW reserves its handle, or joins at once (R378). -/
theorem execCommnew_joins (hmem : membersBad (memberPairs (blkF ws 1 31 0) (dwords (2 * blkF ws 1 31 0) bs)) = false) :
    execCommnew w s = .next (match c.who with
      | .warp _ _ _ => ((u.modHandle (s.ctxOf c.who) k fun q => { q with st := .reserved }).addEff c (.commnew c.idx k (blkW ws 0) (blkF ws 1 31 0)
          (blkF ws 1 63 32) (memberPairs (blkF ws 1 31 0) (dwords (2 * blkF ws 1 31 0) bs)))).finish c (c.status k)
      | .ctl _ _ => (u.joinComm (s.ctxOf c.who) k (blkW ws 0) (blkF ws 1 31 0) (blkF ws 1 63 32)
          (memberPairs (blkF ws 1 31 0) (dwords (2 * blkF ws 1 31 0) bs))).finish c (c.status k)) := by
  refine (issuing_of_issues h).trans ?_
  simp only [hblock, hx, Option.bind_some, hfree, hbad, Bool.false_eq_true, if_false, htable, hmem] <;> rfl

end New

/-! ## COMMFREE and COMMSTAT -/

section Free

include h

theorem execCommfree_free (hfree : (s.handle (s.ctxOf c.who) (c.lowW .a).toNat).st = .free) :
    execCommfree w s = .next (s.finish c (c.status 1)) := by
  refine (issuing_of_issues h).trans ?_
  simp only [hfree, beq_self_eq_true, if_true]

variable (hheld : (s.handle (s.ctxOf c.who) (c.lowW .a).toNat).st ≠ .free)

include hheld

/-- COMMFREE of a handle that is not free: a control thread waits for its open collectives (R379). -/
theorem execCommfree_held : execCommfree w s = .next (match c.who with
    | .warp _ _ _ => (s.addEff c (.commfree c.idx (c.lowW .a).toNat)).finish c (c.status 0)
    | .ctl _ _ => if (s.handle (s.ctxOf c.who) (c.lowW .a).toNat).open_ = 0 then
        (s.freeHandle (s.ctxOf c.who) (c.lowW .a).toNat).finish c (c.status 0) else s) := by
  refine (issuing_of_issues h).trans ?_
  simp only [beq_false_of_ne hheld, Bool.false_eq_true, if_false] <;> rfl

theorem execCommfree_frees (hopen : c.who.isCtl = true → (s.handle (s.ctxOf c.who) (c.lowW .a).toNat).open_ = 0) :
    BuffersOrDoes (.commfree w) s s c (.commfree c.idx (c.lowW .a).toNat) (c.status 0) id (fun s' => s'.freeHandle (s.ctxOf c.who) (c.lowW .a).toNat) := by
  refine ⟨fun hw => ?_, fun hc => ?_⟩
  · obtain ⟨core, slot, itag, hwho⟩ := c.warp_of_inWarp hw
    refine (execCommfree_held w h hheld).trans ?_
    rw [hwho]
    rfl
  · have hopen := hopen hc
    obtain ⟨core, y, hwho⟩ := c.ctl_of_isCtl hc
    refine (execCommfree_held w h hheld).trans ?_
    rw [if_pos hopen, hwho]

theorem execCommfree_waits (hc : c.who.isCtl = true) (hopen : (s.handle (s.ctxOf c.who) (c.lowW .a).toNat).open_ ≠ 0) :
    execCommfree w s = .next s := by
  obtain ⟨core, y, hwho⟩ := c.ctl_of_isCtl hc
  rw [execCommfree_held w h hheld, if_neg hopen, hwho]

end Free

/-- Settles O41: the handle first, then the block and its table; and the states of a handle. -/
theorem communicatorForms : Obligations.CommunicatorForms := by
  refine fun w s t u c ws bs k x h => ⟨fun hblock hx => ⟨execCommnew_full w h hblock hx, execCommnew_badBlock w h hblock hx,
    fun hfree => execCommnew_badTable w h hblock hx hfree, fun hfree hbad htable hmem => ?_⟩, execCommfree_free w h, execCommfree_frees w h, execCommfree_waits w h,
    issuing_of_issues h⟩
  exact buffersOrDoes_of_match (execCommnew_joins w h hblock hx hfree hbad htable hmem)

end Sys2Proof.Machine
end

section
/-! PROOF. Issuing an engine operation (R130, R353 to R355, R358). -/

namespace Sys2Proof.Machine

variable {s t u : State} {who : Who} {r : EngReq}

/-! ## Operations that bind a flag -/

section Flagged

variable {res : Except EngStop (EngOp × Option Nat)}

/-- An operation whose preparation ends, with a result or with a fault, has been issued (R355). -/
theorem State.goOnIssue_prepared {o : EngOp} (hst : o.st ≠ .halted) (hprep : (prepareOp who.core o).go s = (res, u))
    (hfree : (∃ q, res = .ok q) ∨ (∃ f, res = .error (.fault f))) : s.goOnIssue who o =
      .done (if o.req.kind = .mxload ∨ o.req.kind = .mxmul then (u.issuedOp who o.id res).leaveQueue who.core o.id o.ctx else u.issuedOp who o.id res) := by
  rw [State.goOnIssue, if_neg (by simpa using hst), hprep]
  rcases hfree with ⟨q, rfl⟩ | ⟨f, rfl⟩
  all_goals
    simp only [Bool.or_eq_true, beq_iff_eq]
    rfl

/-- An operation that binds a flag is issued at once when nothing keeps it waiting. -/
theorem State.issueEngine_now (hk : r.kind.flagged = true) (hi : IssuesNow s who r t u res) : s.issueEngine who r =
    .done (if r.kind = .mxload ∨ r.kind = .mxmul then (u.issuedOp who (t.core who.core).nextOp res).leaveQueue who.core (t.core who.core).nextOp (t.ctxOf who)
      else u.issuedOp who (t.core who.core).nextOp res) := by
  have hqueued : (t.enterOp who (s.flagFor who r.fsel) r).2.st ≠ .halted := OpSt.noConfusion
  have hgo := State.goOnIssue_prepared hqueued hi.prepare hi.free
  simp only [State.issueEngine, hi.fresh, hk, if_true, hi.flag, hi.room, hi.behind, Bool.not_true, Bool.and_false, Bool.or_self, Bool.false_eq_true,
    if_false, hi.release]
  exact hgo

end Flagged

/-! ## MXCFG and its release -/

/-- What the issue of an MXCFG leaves of a core once the operation has been entered: the path, the operations' numbers, the control threads. -/
structure Core.KeepsPath (k l : Core) : Prop where
  mx   : l.mx = k.mx
  next : l.nextOp = k.nextOp
  ctls : l.ctls = k.ctls

theorem Core.KeepsPath.refl (k : Core) : k.KeepsPath k := ⟨rfl, rfl, rfl⟩

theorem Core.KeepsPath.trans {k l m : Core} (h : k.KeepsPath l) (h' : l.KeepsPath m) : k.KeepsPath m :=
  ⟨h'.mx.trans h.mx, h'.next.trans h.next, h'.ctls.trans h.ctls⟩

theorem State.keepsPath_modCore (core : Nat) {f : Core → Core} (hf : ∀ k : Core, k.KeepsPath (f k)) : (s.core core).KeepsPath ((s.modCore core f).core core) := by
  rw [State.core_modCore, if_pos rfl]
  exact hf _

theorem State.keepsPath_modOp (core id : Nat) (f : EngOp → EngOp) : (s.core core).KeepsPath ((s.modOp core id f).core core) :=
  State.keepsPath_modCore core fun _ => ⟨rfl, rfl, rfl⟩

theorem State.keepsPath_holdFor (core id : Nat) (team : Option Nat) : (s.core core).KeepsPath ((s.holdFor core id team).core core) := by
  cases team with
  | none => exact .refl _
  | some t => exact State.keepsPath_modCore core fun _ => ⟨rfl, rfl, rfl⟩

theorem State.keepsPath_holdTeam (who : Who) (id : Nat) : (s.core who.core).KeepsPath ((s.holdTeam who id).core who.core) := by
  rw [State.holdTeam]
  split
  · exact .refl _
  · refine .trans ?_ (State.keepsPath_holdFor ..)
    split_ifs
    · exact .refl _
    · exact State.keepsPath_holdFor ..

/-- The form of MXCFG that takes the path, or the one that releases it (R370). -/
def EngKind.configures (k : EngKind) : Prop := (∃ a, k = .mxcfg a) ∨ k = .mxrelease

/-- The preparation of an MXCFG only notes its operand. -/
theorem prepareOp_config {core : Nat} {o : EngOp} (hk : o.req.kind.configures) (hp : o.params = []) :
    (prepareOp core o).go s = (.ok ({ o with params := [o.req.a] }, none), s.modOp core o.id fun q => { q with params := [o.req.a] }) := by
  cases o with
  | mk _ _ _ req =>
    cases req with
    | mk kind =>
      subst hp
      rcases hk with ⟨a, rfl⟩ | rfl
      · rfl
      · rfl

theorem State.issueEngine_configRefused (hk : r.kind.configures) (hfree : s.issuingOp who = none)
    (hfull : 32 ≤ (s.core who.core).mx.queue.length) : s.issueEngine who r = .wait s := by
  have hroom : s.queueRoom who.core r.kind = false := by
    rcases hk with ⟨a, hk⟩ | hk
    all_goals
      rw [hk]
      exact decide_eq_false (not_lt.2 hfull)
  simp only [State.issueEngine, hfree, hroom, Bool.not_false, Bool.or_true, Bool.true_or, if_true]

theorem State.flagsOf_ctl_congr {core x : Nat} (h : (t.core core).ctls = (s.core core).ctls) : t.flagsOf (.ctl core x) = s.flagsOf (.ctl core x) := by
  rw [State.flagsOf, State.flagsOf, State.ctl?, State.ctl?, Core.ctl?, Core.ctl?, h]

/-- The issue of a configuring operation goes on to its end. -/
theorem State.goOnIssue_config {o : EngOp} (hk : o.req.kind.configures) (hp : o.params = []) (hst : o.st ≠ .halted) :
    ∃ u : State, s.goOnIssue who o = .done u ∧ (s.core who.core).KeepsPath (u.core who.core) := by
  have hother : ¬ (o.req.kind = .mxload ∨ o.req.kind = .mxmul) := by rcases hk with ⟨a, hk⟩ | hk <;> simp [hk]
  refine ⟨_, (State.goOnIssue_prepared hst (prepareOp_config hk hp) (.inl ⟨_, rfl⟩)).trans (congrArg RelSt.done (if_neg hother)), ?_⟩
  exact (((State.keepsPath_modOp ..).trans (State.keepsPath_modOp ..)).trans (State.keepsPath_holdTeam ..)).trans (State.keepsPath_modOp ..)

/-- The entry of a configuring operation: it takes the next number, enters the end of the matrix queue, and binds no flag (R130, R354). -/
theorem State.core_enterOp_config {core x : Nat} (hk : r.kind.configures) : let k := ((s.enterOp (.ctl core x) none r).1.core core)
    k.mx.queue = (s.core core).mx.queue ++ [(s.core core).nextOp] ∧ k.nextOp = (s.core core).nextOp + 1 ∧ k.ctls = (s.core core).ctls := by
  have hmatrix : r.kind.matrix = true := by rcases hk with ⟨a, hk⟩ | hk <;> rw [hk] <;> rfl
  have hflag : r.kind.flagged = false := by rcases hk with ⟨a, hk⟩ | hk <;> rw [hk] <;> rfl
  simp [State.enterOp, hmatrix, hflag, Who.core]

theorem State.issueEngine_configEnters {core x : Nat} (hk : r.kind.configures) (hfree : s.issuingOp (.ctl core x) = none)
    (hroom : (s.core core).mx.queue.length < 32) : ∃ u : State, s.issueEngine (.ctl core x) r = .done u ∧
      (u.core core).mx.queue = (s.core core).mx.queue ++ [(s.core core).nextOp] ∧ (u.core core).nextOp = (s.core core).nextOp + 1 ∧
      u.flagsOf (.ctl core x) = s.flagsOf (.ctl core x) := by
  have hqueue : s.queueRoom core r.kind = true := by
    rcases hk with ⟨a, hk⟩ | hk <;> rw [hk] <;> exact decide_eq_true hroom
  have hflag : r.kind.flagged = false := by rcases hk with ⟨a, hk⟩ | hk <;> rw [hk] <;> rfl
  obtain ⟨hpos, hnext, hctls⟩ := State.core_enterOp_config (s := s) (x := x) hk
  obtain ⟨u, hgo, hkeep⟩ := State.goOnIssue_config (s := (s.enterOp (.ctl core x) none r).1) (who := .ctl core x)
    (o := (s.enterOp (.ctl core x) none r).2) hk rfl OpSt.noConfusion
  refine ⟨u, ?_, (congrArg Mx.queue hkeep.mx).trans hpos, hkeep.next.trans hnext, State.flagsOf_ctl_congr (hkeep.ctls.trans hctls)⟩
  simp only [State.issueEngine, hfree, hflag, Bool.false_eq_true, if_false, Who.core, hqueue, Bool.not_true, Bool.or_false, Bool.false_and,
    State.flagFull, Option.any_none]
  exact hgo

end Sys2Proof.Machine
end

section
/-! PROOF. The engine forms with a parameter block (R353 to R355, R380, R381). -/

namespace Sys2Proof.Machine

/-- What a form with a parameter block asks before anything else: COLL, whether its handle is there (R381). -/
def EngKind.first (kind : EngKind) (s : State) (c : Issue) : Checked := if kind.isColl then s.collDead c else .ok s []

theorem EngKind.exists_first_ok {kind : EngKind} {s : State} {c : Issue} (h : kind.isColl = true → ∃ t accs, s.collDead c = .ok t accs) :
    ∃ t accs, kind.first s c = .ok t accs := by
  rw [EngKind.first]
  split_ifs with hk
  · exact h hk
  · exact ⟨s, [], rfl⟩

/-- The forms that `blockKind` names are the forms with a parameter block. -/
theorem exec_of_blockKind {i : Instr} {kind : EngKind} {e : EngForm} (hi : blockKind i = some (kind, e)) (s : State) :
    exec i s = blockForm kind e s (kind.first s) ∧ kind.flagged = true ∧ kind ≠ .mxmul := by
  unfold blockKind at hi
  split at hi
  case h_19 => cases hi
  all_goals
    cases hi
    exact ⟨rfl, rfl, EngKind.noConfusion⟩

section Forms

variable {s : State} {c : Issue} {i : Instr} {kind : EngKind} {e : EngForm} (hi : blockKind i = some (kind, e)) (h : Issues s c)

include hi h

/-- A misaligned lane faults before anything else (R353, R355). -/
theorem blockForm_misaligned (hmis : (c.lanes.any fun l => (c.w64 .a .ax l).toNat % 64 != 0) = true) :
    Faults i s c { code := .misaligned, mask := lanesWhere c.lanes fun l => (c.w64 .a .ax l).toNat % 64 != 0
                   raddr := c.w64 .a .ax (lowestLane (lanesWhere c.lanes fun l => (c.w64 .a .ax l).toNat % 64 != 0)) } := by
  refine ((exec_of_blockKind hi s).1.trans (issuing_of_issues h)).trans ?_
  exact congrArg Host.Outcome.next (if_pos ((lanesWhere_bne_zero ..).trans hmis))

variable (hal : (c.lanes.any fun l => (c.w64 .a .ax l).toNat % 64 != 0) = false)

include hal

/-- An aligned form asks its first question, and is then buffered or issued. -/
theorem blockForm_aligned : exec i s = .next (match kind.first s c with
    | .wait s => s
    | .fault f => s.faultIssue c f
    | .ok _ _ => match c.who with
      | .warp _ _ _ => (s.addEff c (.engine c.idx (blockReq kind e c))).finish c []
      | .ctl _ _ => match s.issueEngine c.who (blockReq kind e c) with
        | .wait s => s
        | .done s => s.finish c []) := by
  refine ((exec_of_blockKind hi s).1.trans (issuing_of_issues h)).trans ?_
  exact congrArg Host.Outcome.next (if_neg (Bool.eq_false_iff.1 ((lanesWhere_bne_zero ..).trans hal)))

theorem blockForm_buffers (hfirst : ∃ t accs, kind.first s c = .ok t accs) (hw : c.inWarp) :
    Buffers i s c (.engine c.idx (blockReq kind e c)) [] := by
  obtain ⟨t, accs, hfirst⟩ := hfirst
  obtain ⟨core, slot, itag, hwho⟩ := c.warp_of_inWarp hw
  refine (blockForm_aligned hi h hal).trans ?_
  rw [hfirst, hwho]

theorem blockForm_faults {f : FaultInfo} (hfirst : kind.first s c = .fault f) : Faults i s c f := by
  refine (blockForm_aligned hi h hal).trans ?_
  rw [hfirst]

/-- A control thread issues the operation at once when nothing keeps it waiting (R355); an MXLOAD of a context without the path leaves
the matrix queue (R369). -/
theorem blockForm_issues {core x : Nat} {t u : State} {res : Except EngStop (EngOp × Option Nat)} (hwho : c.who = .ctl core x)
    (hfirst : ∃ t accs, kind.first s c = .ok t accs) (hnow : IssuesNow s c.who (blockReq kind e c) t u res) :
    exec i s = .next ((if kind = .mxload then (u.issuedOp c.who (t.core core).nextOp res).leaveQueue core (t.core core).nextOp x
      else u.issuedOp c.who (t.core core).nextOp res).finish c []) := by
  obtain ⟨t', accs, hfirst⟩ := hfirst
  obtain ⟨-, hflag, hmul⟩ := exec_of_blockKind hi s
  have hkind : (blockReq kind e c).kind = .mxload ∨ (blockReq kind e c).kind = .mxmul ↔ kind = .mxload := or_iff_left hmul
  refine (blockForm_aligned hi h hal).trans ?_
  rw [hfirst]
  simp only [hkind, State.issueEngine_now hflag hnow]
  rw [hwho]
  rfl

end Forms

/-! ## The handle of a COLL -/

section Handle

variable {s t : State} {c : Issue} {p : Place} (htr : s.translate c.who.core (s.ctxOf c.who) (c.lowD .a .ax + 16) .read = (t, .ok p))

/-- The handle that the parameter block of a COLL names. -/
def State.collHandle (s : State) (c : Issue) (t : State) (p : Place) : Handle :=
  t.handle (s.ctxOf c.who) (bytesVal (t.engGet c.who.core (some (s.ctxOf c.who, c.who.requester)) p 8).2 / 2 ^ 42 % 16)

include htr

/-- Whoever reads the block, its bytes are the same. -/
theorem State.collDead_translated : s.collDead c = match (s.collHandle c t p).st with
    | .free | .reserved | .dead => .fault { code := .commDead, mask := c.mask }
    | .forming | .ready => .ok t [] := by
  rw [State.collDead, htr]
  rfl

theorem State.collDead_gone (hst : (s.collHandle c t p).st = .free ∨ (s.collHandle c t p).st = .dead) :
    s.collDead c = .fault { code := .commDead, mask := c.mask } := by
  rw [State.collDead_translated htr]
  rcases hst with hst | hst <;> rw [hst]

theorem State.collDead_open (hst : (s.collHandle c t p).st = .forming ∨ (s.collHandle c t p).st = .ready) : s.collDead c = .ok t [] := by
  rw [State.collDead_translated htr]
  rcases hst with hst | hst <;> rw [hst]

end Handle

/-- Settles O37: alignment, the handle of a COLL, and the two kinds of thread. -/
theorem engineFormsAreBufferedOrIssued : Obligations.EngineFormsAreBufferedOrIssued := by
  refine ⟨fun i kind e s c hi h => ⟨blockForm_misaligned hi h, fun hal hcoll => blockForm_buffers hi h hal (EngKind.exists_first_ok hcoll),
    fun t p hal hk htr => ⟨fun hst => ?_, fun hst => ?_⟩⟩, fun i kind e s t u c core x res hi h hwho hal hcoll hnow => ?_⟩
  · exact blockForm_faults hi h hal ((if_pos hk).trans (State.collDead_gone htr hst))
  · exact blockForm_buffers hi h hal ⟨t, [], (if_pos hk).trans (State.collDead_open htr hst)⟩
  · exact blockForm_issues hi h hal hwho (EngKind.exists_first_ok hcoll) hnow

end Sys2Proof.Machine
end

section
/-! PROOF. The matrix forms of the path's holder (R122, R225, R353, R354, R369 to R377, log 42). -/

namespace Sys2Proof.Machine

/-! ## Operations issued by a form -/

section Issue

variable {s t u : State} {c : Issue} {r : EngReq} {core x : Nat}

/-- A warp's operation is buffered until its block commits. -/
theorem State.issueForm_warp (hw : c.inWarp) : s.issueForm c r = (s.addEff c (.engine c.idx r)).finish c [] := by
  obtain ⟨core, slot, itag, hwho⟩ := c.warp_of_inWarp hw
  rw [State.issueForm, hwho]

theorem State.issueForm_ctl (hwho : c.who = .ctl core x) : s.issueForm c r = match s.issueEngine c.who r with
    | .wait s => s
    | .done s => s.finish c [] := by
  have hnow : s.issueForm c r = s.issueNow c r := by rw [State.issueForm, hwho]
  exact hnow

/-- A control thread's operation that binds a flag is issued at once when nothing keeps it waiting. -/
theorem State.issueForm_now {res : Except EngStop (EngOp × Option Nat)} (hwho : c.who = .ctl core x) (hk : r.kind.flagged = true)
    (hnow : IssuesNow s c.who r t u res) : s.issueForm c r =
      (if r.kind = .mxload ∨ r.kind = .mxmul then (u.issuedOp c.who (t.core core).nextOp res).leaveQueue core (t.core core).nextOp x
        else u.issuedOp c.who (t.core core).nextOp res).finish c [] := by
  rw [State.issueForm_ctl hwho, State.issueEngine_now hk hnow, hwho]
  rfl

end Issue

variable {s : State} {c : Issue} {arr : MxArr} (h : Issues s c) (w : Wd)

/-! ## MXCFG, MXFEEDS and MXMUL -/

section Operations

include h

theorem execMxmul_issues (e : EngForm) : execMxmul e s =
    .next (s.issueForm c (plainReq .mxmul ((c.lowW .a).setWidth 64) (c.lowW .b) 0 e.scope e.tok e.wd.fsel)) := issuing_of_issues h

variable (hold : s.holdsPath c.who.core (s.ctxOf c.who) = true)

include hold

theorem execMxfeeds_issues (e : EngForm) : execMxfeeds e s =
    .next (s.issueForm c (plainReq .mxfeeds ((c.lowW .a).setWidth 64) (c.lowW .b) (c.lowW .c) e.scope e.tok e.wd.fsel)) := by
  refine (issuing_of_issues h).trans ?_
  simp only [hold, Bool.not_true, Bool.false_eq_true, if_false]

theorem execMxcfg_issues (a : MxArr) : execMxcfg a w s = .next (s.issueForm c (plainReq (.mxcfg a) 0 0 0 .warp none false)) := by
  have hholder : ((s.core c.who.core).mx.holder == some (s.ctxOf c.who)) = true := hold
  refine (issuing_of_issues h).trans ?_
  simp only [hholder, if_true]

theorem execMxcfgRelease_issues : execMxcfgRelease w s = .next (s.issueForm c (plainReq .mxrelease 0 0 0 .warp none false)) := by
  refine (issuing_of_issues h).trans ?_
  simp only [hold, if_true]

end Operations

/-- MXCFG of a holder's control thread enters the end of the matrix queue, or waits for room (R354, R369, R370). -/
theorem exec_config {core x : Nat} {i : Instr} {r : EngReq} (hi : exec i s = .next (s.issueForm c r)) (hk : r.kind.configures)
    (hwho : c.who = .ctl core x) (hfree : s.issuingOp c.who = none) :
    (32 ≤ (s.core core).mx.queue.length → Waits i s) ∧
    ((s.core core).mx.queue.length < 32 → ∃ u : State, exec i s = .next (u.finish c []) ∧
      (u.core core).mx.queue = (s.core core).mx.queue ++ [(s.core core).nextOp] ∧ (u.core core).nextOp = (s.core core).nextOp + 1 ∧
      u.flagsOf c.who = s.flagsOf c.who) := by
  rw [State.issueForm_ctl hwho, hwho] at hi
  rw [hwho] at hfree ⊢
  refine ⟨fun hfull => ?_, fun hroom => ?_⟩
  · rw [State.issueEngine_configRefused hk hfree hfull] at hi
    exact hi
  · obtain ⟨u, hissue, hu⟩ := State.issueEngine_configEnters hk hfree hroom
    rw [hissue] at hi
    exact ⟨u, hi, hu⟩

/-! ## MXZERO -/

section Zero

variable (hold : s.holdsPath c.who.core (s.ctxOf c.who) = true) (harr : (s.core c.who.core).mx.arr = some arr)

include h hold harr

/-- MXZERO of rows beyond the arrangement, or with a reserved bit (R375). -/
theorem execMxzero_faults (hbad : 65536 ≤ (c.lowW .a).toNat ∨
    (arrangement arr).rows < (c.lowW .a).toNat % 256 + (c.lowW .a).toNat / 256 % 256 + 1) : execMxzero w s = .next (s.faultIssue c (mxFault c)) := by
  have hcond : (bitsOf (c.lowW .a).toNat 31 16 != 0 ||
      decide ((arrangement arr).rows < bitsOf (c.lowW .a).toNat 7 0 + (bitsOf (c.lowW .a).toNat 15 8 + 1))) = true := by
    rw [Bool.or_eq_true, bne_iff_ne, ne_eq, bitsOf_above_eq_zero_iff (c.lowW .a).isLt (by decide), decide_eq_true_eq, not_lt]
    simpa [bitsOf, Nat.add_assoc] using hbad
  refine (issuing_of_issues h).trans ?_
  simp only [harr, hold, Bool.not_true, Bool.false_or, hcond, if_true]

/-- MXZERO of rows of the arrangement. -/
theorem execMxzero_rows (hlt : (c.lowW .a).toNat < 65536)
    (hrows : (c.lowW .a).toNat % 256 + (c.lowW .a).toNat / 256 + 1 ≤ (arrangement arr).rows) : execMxzero w s = .next (match c.who with
      | .warp _ _ _ => (s.addEff c (.mxzero c.idx ((c.lowW .a).toNat % 256) ((c.lowW .a).toNat / 256 + 1))).finish c []
      | .ctl _ _ => if (s.core c.who.core).mx.queue.isEmpty then
          (s.zeroRows c.who.core (arrangement arr) ((c.lowW .a).toNat % 256) ((c.lowW .a).toNat / 256 + 1)).finish c [] else s) := by
  have hlow : bitsOf (c.lowW .a).toNat 7 0 = (c.lowW .a).toNat % 256 := by simp [bitsOf]
  have hmid : bitsOf (c.lowW .a).toNat 15 8 = (c.lowW .a).toNat / 256 := by
    rw [bitsOf]
    omega
  have hhigh := (bitsOf_above_eq_zero_iff (c.lowW .a).isLt (by decide : 16 ≤ 32)).2 hlt
  have hfits : decide ((arrangement arr).rows < (c.lowW .a).toNat % 256 + ((c.lowW .a).toNat / 256 + 1)) = false := decide_eq_false (by omega)
  refine (issuing_of_issues h).trans ?_
  simp only [harr, hold, hlow, hmid, hhigh, hfits, Bool.not_true, bne_self_eq_false, Bool.or_self, Bool.false_eq_true, if_false] <;> rfl

section Rows

variable (hlt : (c.lowW .a).toNat < 65536) (hrows : (c.lowW .a).toNat % 256 + (c.lowW .a).toNat / 256 + 1 ≤ (arrangement arr).rows)

include hlt hrows

theorem execMxzero_warp (hw : c.inWarp) :
    execMxzero w s = .next ((s.addEff c (.mxzero c.idx ((c.lowW .a).toNat % 256) ((c.lowW .a).toNat / 256 + 1))).finish c []) := by
  obtain ⟨core, slot, itag, hwho⟩ := c.warp_of_inWarp hw
  rw [execMxzero_rows h w hold harr hlt hrows, hwho]

/-- A control thread zeroes the rows once the matrix queue is empty (R375). -/
theorem execMxzero_ctl (hc : c.who.isCtl = true) : execMxzero w s = .next (if (s.core c.who.core).mx.queue.isEmpty then
    (s.zeroRows c.who.core (arrangement arr) ((c.lowW .a).toNat % 256) ((c.lowW .a).toNat / 256 + 1)).finish c [] else s) := by
  obtain ⟨core, y, hwho⟩ := c.ctl_of_isCtl hc
  rw [execMxzero_rows h w hold harr hlt hrows]
  simp only [hwho]

end Rows

end Zero

/-! ## MXFEED -/

/-- What the row slot that an MXFEED names makes of its part (R372). -/
def State.rowFor (s : State) (c : Issue) : TakeRow :=
  ((s.core c.who.core).mx.slots.getD (fwSlot (c.lowW .b)) default).take (fwFmt (c.lowW .b)) (fwEa (c.lowW .b)) (fwPart (c.lowW .b))

/-- The slot with the part of an MXFEED reserved (R372). -/
def State.reserveRow (s : State) (c : Issue) : State :=
  s.modCore c.who.core fun k => { k with mx := { k.mx with slots := listMod k.mx.slots (fwSlot (c.lowW .b)) fun q =>
    { q with hold := q.hold ++ [(fwPart (c.lowW .b), fwFmt (c.lowW .b), fwEa (c.lowW .b))] } } }

section Feed

variable (hold : s.holdsPath c.who.core (s.ctxOf c.who) = true)

include h hold

theorem execMxfeed_diverges (hno : ¬ ∀ l ∈ c.lanes, c.w32 .b l = c.lowW .b) :
    execMxfeed w s = .next (s.faultIssue c { code := .formatDivergence, mask := c.mask }) := by
  have hany : (c.lanes.any fun l => c.w32 .b l != c.lowW .b) = true := by
    rw [List.any_eq_true]
    push Not at hno
    simpa using hno
  refine (issuing_of_issues h).trans ?_
  simp only [hold, Bool.not_true, Bool.false_eq_true, if_false, hany, if_true]

variable (hagree : ∀ l ∈ c.lanes, c.w32 .b l = c.lowW .b)

include hagree

/-- MXFEED with one word in all its lanes: the word is judged, then the slot (R372). -/
theorem execMxfeed_agreed : execMxfeed w s = .next (if fwBad (c.lowW .b) then s.faultIssue c (mxFault c)
    else match s.rowFor c with
      | .refuse => s.faultIssue c (mxFault c)
      | .wait => s
      | .take => ((s.reserveRow c).addEff c
          (.mxfeed c.idx (fwSlot (c.lowW .b)) (fwPart (c.lowW .b)) (fwFmt (c.lowW .b)) (fwEa (c.lowW .b)) (c.rowPart (fwFmt (c.lowW .b))))).finish c []) := by
  have hany : (c.lanes.any fun l => c.w32 .b l != c.lowW .b) = false := by
    rw [List.any_eq_false]
    intro l hl
    simp [hagree l hl]
  refine (issuing_of_issues h).trans ?_
  simp only [hold, Bool.not_true, Bool.false_eq_true, if_false, hany]
  rfl

theorem execMxfeed_malformed (hbad : fwBad (c.lowW .b) = true) : execMxfeed w s = .next (s.faultIssue c (mxFault c)) := by
  rw [execMxfeed_agreed h w hold hagree, if_pos hbad]

variable (hgood : fwBad (c.lowW .b) = false)

include hgood

theorem execMxfeed_refuses (hrow : s.rowFor c = .refuse) : execMxfeed w s = .next (s.faultIssue c (mxFault c)) := by
  rw [execMxfeed_agreed h w hold hagree, if_neg (Bool.eq_false_iff.1 hgood), hrow]

theorem execMxfeed_waits (hrow : s.rowFor c = .wait) : execMxfeed w s = .next s := by
  rw [execMxfeed_agreed h w hold hagree, if_neg (Bool.eq_false_iff.1 hgood), hrow]

theorem execMxfeed_takes (hrow : s.rowFor c = .take) : execMxfeed w s = .next (((s.reserveRow c).addEff c
    (.mxfeed c.idx (fwSlot (c.lowW .b)) (fwPart (c.lowW .b)) (fwFmt (c.lowW .b)) (fwEa (c.lowW .b)) (c.rowPart (fwFmt (c.lowW .b))))).finish c []) := by
  rw [execMxfeed_agreed h w hold hagree, if_neg (Bool.eq_false_iff.1 hgood), hrow]

end Feed

/-! ## MXDRAIN and MXSTAT -/

section Drain

variable {o : CvtOp}

/-- The rounding mode of an element of MXDRAIN: a stochastic one takes its bits of the lowest lane's word (R353, log 42). -/
def drainMode (o : CvtOp) (rb j : Nat) : RMode :=
  if o.rnd = .sr then (if 32 / o.dst.width = 1 then ⟨.sr, rb, 32⟩ else ⟨.sr, rb / 2 ^ (16 * j) % 2 ^ 16, 16⟩) else ⟨o.rnd, 0, 0⟩

theorem drainMode_lt {rb : Nat} (hrb : rb < 2 ^ 32) (j : Nat) : (drainMode o rb j).r < 2 ^ (drainMode o rb j).n := by
  unfold drainMode
  split_ifs
  · exact hrb
  · exact Nat.mod_lt _ (Nat.two_pow_pos 16)
  · exact Nat.one_pos

/-- Elements of every format fill a word. -/
theorem Fmt.width_mul_add_le (f : Fmt) {j : Nat} (hj : j < 32 / f.width) : f.width * j + f.width ≤ 32 := by
  rw [← Nat.mul_succ]
  exact (Nat.mul_le_mul_left _ hj).trans (Nat.mul_div_le 32 _)

/-- The elements of a drained word stand in ascending order (R376). -/
theorem extractLsb'_drainWord (a : Arrangement) (pos l : Nat) {core rb j : Nat} (hrb : rb < 2 ^ 32) (hj : j < 32 / o.dst.width) :
    (BitVec.ofNat 32 (s.drainWord core o a pos l rb)).extractLsb' (o.dst.width * j) o.dst.width = BitVec.ofNat o.dst.width
      (convertExact .fp32 o.dst (drainMode o rb j) o.ftz o.sat (s.accOf core (pos % 128 * a.n + pos / 128 % 2048 + 32 / o.dst.width * l + j))) := by
  obtain ⟨-, hdigit⟩ := foldl_digits o.dst.width (fun j => convertExact .fp32 o.dst (drainMode o rb j) o.ftz o.sat
    (s.accOf core (pos % 128 * a.n + pos / 128 % 2048 + 32 / o.dst.width * l + j))) (32 / o.dst.width)
  rw [extractLsb'_ofNat (Fmt.width_mul_add_le _ hj), ← ofNat_mod_two_pow, ← ofNat_mod_two_pow _ (convertExact ..), ← hdigit j hj, State.drainWord]
  congr 4
  funext r k
  rw [← convert_eq_convertExact (drainMode_lt hrb k)]
  have hbits : bitsOf rb (16 * k + 15) (16 * k) = rb / 2 ^ (16 * k) % 2 ^ 16 := by
    rw [bitsOf, Nat.sub_eq_of_eq_add (by omega : 16 * k + 15 + 1 = 16 + 16 * k)]
  have hrow : bitsOf pos 6 0 = pos % 128 := by simp [bitsOf]
  have hcol : bitsOf pos 17 7 = pos / 128 % 2048 := by simp [bitsOf]
  simp only [beq_iff_eq, hbits, hrow, hcol]
  rfl

variable (hold : s.holdsPath c.who.core (s.ctxOf c.who) = true) (harr : (s.core c.who.core).mx.arr = some arr)

include h hold harr

theorem execMxdrain_illegal (hbad : drainOk o (arrangement arr) (c.lowW .a).toNat = false) :
    execMxdrain o s = .next (s.faultIssue c (mxFault c)) := by
  refine (issuing_of_issues h).trans ?_
  simp only [harr, hold, hbad, Bool.not_true, Bool.not_false, Bool.or_true, if_true]

theorem execMxdrain_sends (hok : drainOk o (arrangement arr) (c.lowW .a).toNat = true) (hheld : s.held c false false = false)
    (hclean : ∀ e ∈ s.dev.soft ++ s.dev.hard, ∀ sec, e ≠ .acc c.who.core sec) : execMxdrain o s = .next (s.finish c (c.res32 fun l =>
      BitVec.ofNat 32 (s.drainWord c.who.core o (arrangement arr) (c.lowW .a).toNat l (c.lowW .b).toNat))) := by
  have hsite (a n : Nat) : ∀ e ∈ s.dev.soft ++ s.dev.hard, ¬ ErrSite.inAcc c.who.core a n e = true := by
    intro e he hin
    cases e with
    | acc k sec =>
      simp only [ErrSite.inAcc, Bool.and_eq_true, beq_iff_eq] at hin
      obtain ⟨⟨hk, -⟩, -⟩ := hin
      exact hclean _ he sec (hk ▸ rfl)
    | _ => cases hin
  refine (issuing_of_issues h).trans ?_
  simp only [harr, hold, hok, hheld, Bool.not_true, Bool.or_self, Bool.false_eq_true, if_false, State.senseWhere_clean (hsite _ _)]

end Drain

end Sys2Proof.Machine

namespace Sys2Proof.Machine

/-- Settles O40: the forms of both kinds of thread, and what a control thread puts into the matrix queue. -/
theorem matrixFormsOfTheHolder : Obligations.MatrixFormsOfTheHolder := by
  refine ⟨fun arr w e o s c h hholder harr => ?_, fun e s t u c core x res h hwho hholder => ?_,
    fun a w s c core x i h hwho hholder hfree hi => ?_⟩
  · have hold : s.holdsPath c.who.core (s.ctxOf c.who) = true := beq_iff_eq.2 hholder
    intro core a0 faults fw row agree
    exact ⟨fun hw => (execMxfeeds_issues h hold e).trans (congrArg _ (State.issueForm_warp hw)), fun hlt hrows => ⟨execMxzero_warp h w hold harr hlt hrows,
        fun hc hq => (execMxzero_ctl h w hold harr hlt hrows hc).trans (congrArg _ (if_pos (List.isEmpty_iff.2 hq))),
        fun hc hq => (execMxzero_ctl h w hold harr hlt hrows hc).trans (congrArg _ (if_neg (mt List.isEmpty_iff.1 hq)))⟩,
      execMxzero_faults h w hold harr, execMxfeed_diverges h w hold, execMxfeed_malformed h w hold, execMxfeed_refuses h w hold,
      execMxfeed_waits h w hold, execMxfeed_takes h w hold, execMxdrain_illegal h hold harr, fun hok hheld hclean =>
        ⟨_, execMxdrain_sends h hold harr hok hheld hclean, fun l j hj => extractLsb'_drainWord _ _ _ (c.lowW .b).isLt hj⟩, issuing_of_issues h⟩
  · have hold : s.holdsPath c.who.core (s.ctxOf c.who) = true := by
      rw [hwho]
      exact beq_iff_eq.2 hholder
    exact ⟨fun hnow => (execMxmul_issues h e).trans (congrArg _ (State.issueForm_now hwho rfl hnow)),
      fun hnow => (execMxfeeds_issues h hold e).trans (congrArg _ (State.issueForm_now hwho rfl hnow))⟩
  · have hold : s.holdsPath c.who.core (s.ctxOf c.who) = true := by
      rw [hwho]
      exact beq_iff_eq.2 hholder
    rcases hi with rfl | rfl
    · exact exec_config (execMxcfg_issues h w hold a) (.inl ⟨a, rfl⟩) hwho hfree
    · exact exec_config (execMxcfgRelease_issues h w hold) (.inr rfl) hwho hfree

end Sys2Proof.Machine
end

section
/-! PROOF. The events of engine operations and of the matrix path (R223, R354 to R357, R364, R369, R370, R373, R374, R383). -/

namespace Sys2Proof.Machine

variable {s t : State} {core op : Nat} {o : EngOp}

/-! ## ENGINE_OP_START -/

/-- A prepared operation of an engine queue starts; a COLL and what moves through the path or a generator start elsewhere (R354). -/
theorem execEngineOpStart_starts (ho : (s.core core).op? op = some o) (hfree : s.opFree core o true = true) (hst : o.st = .queued)
    (hiss : o.issuing = false) (hready : o.ready = true) (hmatrix : o.req.kind.matrix = false) (hstreams : o.req.kind.streams = false)
    (hcoll : o.req.kind.isColl = false) : execEngineOpStart core op s = .next (s.modOp core op fun q => { q with st := .started }) := by
  have hidle : (o.st != .queued || o.issuing || !s.opFree core o true) = false := by rw [hst, hiss, hfree]; rfl
  simp only [execEngineOpStart, ho, hidle, hready, hmatrix, hstreams, Bool.not_true, Bool.or_self, Bool.false_eq_true, if_false]
  split
  · rw [‹o.req.kind = _›] at hcoll
    cases hcoll
  · rfl

/-! ## ENGINE_OP_COMPLETE -/

section Complete

variable (ho : (s.core core).op? op = some o) (hfree : s.opFree core o false = true) (hiss : o.issuing = false) (hmul : o.req.kind ≠ .mxmul)

include ho hfree hiss hmul

/-- What a free operation does next, by its state (R356). -/
theorem execEngineOpComplete_free : execEngineOpComplete core op s = .next (match o.st with
    | .finished => s.endOp core op
    | .started | .waiting =>
      if o.req.kind.streams then s
      else match (transferOp core o).go s with
      | (.ok (some code), s) => s.transferred core op code
      | (.ok none, s) => s.modOp core op fun q => { q with st := .started }
      | (.error (.fault f), s) => s.haltOp core op f
      | (.error _, s) => s.modOp core op fun q => { q with st := .waiting }
    | .queued | .halted => match s.collDecided o with
      | some code => s.transferred core op code
      | none => s) := by
  have hidle : (!s.opFree core o false || o.issuing || o.req.kind == .mxmul) = false := by rw [hfree, hiss, beq_false_of_ne hmul]; rfl
  simp only [execEngineOpComplete, ho, hidle, Bool.false_eq_true, if_false] <;> rfl

/-- A COLL whose collective is decided completes before it has started, and when it is halted (R383). -/
theorem execEngineOpComplete_decided (hst : o.st = .queued ∨ o.st = .halted) {code : Nat} (hdec : s.collDecided o = some code) :
    execEngineOpComplete core op s = .next (s.transferred core op code) := by
  rw [execEngineOpComplete_free ho hfree hiss hmul]
  rcases hst with hst | hst <;> rw [hst, hdec]

/-- One whose transfer has ended and whose mailbox stores have been performed completes with its code (R356, R357). -/
theorem execEngineOpComplete_finished (hst : o.st = .finished) (hstream : o.req.kind ≠ .istream) (hmail : s.mailOut core op = false)
    (hsaved : s.savedOn core o.ctx = false) : execEngineOpComplete core op s = .next ((s.finishOp core op o.status).closeColl o) := by
  rw [execEngineOpComplete_free ho hfree hiss hmul, hst]
  simp only [State.endOp, ho, hst, bne_self_eq_false, hmail, Bool.or_self, Bool.false_eq_true, if_false, hsaved]
  split
  · exact absurd ‹_› hstream
  · rfl

variable (hst : o.st = .started ∨ o.st = .waiting) (hstreams : o.req.kind.streams = false)

include hst hstreams

/-- One step of a started operation's transfer, by its outcome (R357). -/
theorem execEngineOpComplete_step : execEngineOpComplete core op s = .next (match (transferOp core o).go s with
    | (.ok (some code), s) => s.transferred core op code
    | (.ok none, s) => s.modOp core op fun q => { q with st := .started }
    | (.error (.fault f), s) => s.haltOp core op f
    | (.error _, s) => s.modOp core op fun q => { q with st := .waiting }) := by
  rw [execEngineOpComplete_free ho hfree hiss hmul]
  rcases hst with hst | hst
  all_goals
    rw [hst]
    exact congrArg Host.Outcome.next (if_neg (Bool.eq_false_iff.1 hstreams))

theorem execEngineOpComplete_ends {code : Nat} (hgo : (transferOp core o).go s = (.ok (some code), t)) :
    execEngineOpComplete core op s = .next (t.transferred core op code) := by
  rw [execEngineOpComplete_step ho hfree hiss hmul hst hstreams, hgo]

theorem execEngineOpComplete_moves (hgo : (transferOp core o).go s = (.ok none, t)) :
    execEngineOpComplete core op s = .next (t.modOp core op fun q => { q with st := .started }) := by
  rw [execEngineOpComplete_step ho hfree hiss hmul hst hstreams, hgo]

theorem execEngineOpComplete_faults {f : FaultInfo} (hgo : (transferOp core o).go s = (.error (.fault f), t)) :
    execEngineOpComplete core op s = .next (t.haltOp core op f) := by
  rw [execEngineOpComplete_step ho hfree hiss hmul hst hstreams, hgo]

theorem execEngineOpComplete_waits {e : EngStop} (he : ∀ f, e ≠ .fault f) (hgo : (transferOp core o).go s = (.error e, t)) :
    execEngineOpComplete core op s = .next (t.modOp core op fun q => { q with st := .waiting }) := by
  rw [execEngineOpComplete_step ho hfree hiss hmul hst hstreams, hgo]
  cases e with
  | fault f => exact absurd rfl (he f)
  | wait => rfl
  | busy => rfl

end Complete

/-- The transfers that move units and then are DONE: all but those of HANDOFF, MXLOAD and COLL (R356). -/
def EngKind.plain (k : EngKind) : Prop :=
  k = .copy ∨ k = .copy2d ∨ k = .tcopy ∨ k = .gath ∨ k = .scat ∨ k = .istream ∨ ∃ sz, k = .fill sz

theorem EngKind.plain_streams {k : EngKind} (hk : k.plain) : k.streams = false ∧ k ≠ .mxmul := by
  rcases hk with rfl | rfl | rfl | rfl | rfl | rfl | ⟨sz, rfl⟩ <;> exact ⟨rfl, EngKind.noConfusion⟩

/-- With nothing left to read or write they have ended DONE. -/
theorem transferOp_done (hk : o.req.kind.plain) (hwork : o.work = []) (houts : o.outs = []) : (transferOp core o).go s = (.ok (some 0), s) := by
  have hnone : (!o.work.isEmpty || !o.outs.isEmpty) = false := by rw [hwork, houts]; rfl
  rcases hk with hk | hk | hk | hk | hk | hk | ⟨sz, hk⟩
  all_goals
    simp only [transferOp, hk, hnone, Bool.false_eq_true, if_false]
    rfl

/-! ## STREAM_BUFFER -/

section Stream

variable {gen : Nat} {x : Stream}

/-- The units of a generator's work: buffers of a stream, rows of an MXFEEDS. -/
def EngOp.genUnits (o : EngOp) : Nat := if o.req.kind = .mxfeeds then o.req.mfRows else o.sUnits

variable (hx : (s.core core).gens.getD gen none = some x) (ho : (s.core core).op? x.op = some o) (hfree : s.opFree core o true = true)
  (hst : x.st = .running) (hiss : o.issuing = false) (hhalt : o.st ≠ .halted) (hfin : o.st ≠ .finished)

include hx ho hfree hst hiss hhalt hfin

/-- A running generator ends, or makes its next step (R364, R373). -/
theorem execStreamBuffer_running : execStreamBuffer core gen s = .next (if o.genUnits ≤ x.pos then s.endStream core o
    else match (stepStream core gen x o).go s with
      | (.ok _, s) => s
      | (.error (.fault f), s) => s.haltOp core o.id f
      | (.error _, s) => s) := by
  simp only [execStreamBuffer, hx, Option.bind_some, ho, Option.map_some, hst, bne_self_eq_false, Bool.false_and, hiss, hfree,
    Bool.not_true, beq_false_of_ne hhalt, beq_false_of_ne hfin, Bool.or_self, Bool.false_eq_true, if_false, beq_iff_eq]
  rfl

theorem execStreamBuffer_ends (hall : o.genUnits ≤ x.pos) (hmail : s.mailOut core o.id = false) :
    execStreamBuffer core gen s = .next ((s.modOp core o.id fun q => { q with pos := q.total }).finishOp core o.id 0) := by
  rw [execStreamBuffer_running hx ho hfree hst hiss hhalt hfin, if_pos hall, State.endStream, if_neg (Bool.eq_false_iff.1 hmail)]

variable (hmore : x.pos < o.genUnits)

include hmore

theorem execStreamBuffer_moves (hgo : (stepStream core gen x o).go s = (.ok (), t)) : execStreamBuffer core gen s = .next t := by
  rw [execStreamBuffer_running hx ho hfree hst hiss hhalt hfin, if_neg (not_le.2 hmore), hgo]

theorem execStreamBuffer_faults {f : FaultInfo} (hgo : (stepStream core gen x o).go s = (.error (.fault f), t)) :
    execStreamBuffer core gen s = .next (t.haltOp core o.id f) := by
  rw [execStreamBuffer_running hx ho hfree hst hiss hhalt hfin, if_neg (not_le.2 hmore), hgo]

end Stream

/-- A unit that no channel feeds begins with empty bytes. -/
theorem beginUnit_blank {j : Nat} (hchan : (o.sOut && o.sChan) = false) : beginUnit core o j = engMod fun s => s.modOp core o.id fun q => { q with
    work := [{ first := 0, n := (o.sBytes j + o.sCell - 1) / o.sCell }], row := List.replicate (o.sBytes j) 0, rowMask := 0, phase := 1 } :=
  if_neg (Bool.eq_false_iff.1 hchan)

/-- A stream begins a buffer that is ready, where no channel feeds it (R364, R365). -/
theorem stepStream_begins {gen : Nat} {x : Stream} (hk : o.req.kind = .stream) (hphase : o.phase = 0) (hready : s.bufferReady core o x x.pos = true)
    (hchan : (o.sOut && o.sChan) = false) : (stepStream core gen x o).go s = (.ok (), s.modOp core o.id fun q => { q with
      work := [{ first := 0, n := (o.sBytes x.pos + o.sCell - 1) / o.sCell }], row := List.replicate (o.sBytes x.pos) 0, rowMask := 0, phase := 1 }) := by
  have hfeeds : (o.req.kind == .mxfeeds) = false := by rw [hk]; rfl
  simp only [stepStream, hfeeds, hphase, beginUnit_blank hchan, Bool.false_eq_true, if_false, if_true]
  change EngM.go (do if !s.bufferReady core o x x.pos then throw .wait
                     engMod _) s = _
  rw [hready]
  rfl

/-! ## MATRIX_QUEUE_START -/

section Turn

variable (ho : (s.core core).mx.queue.head?.bind (s.core core).op? = some o) (hactive : (s.core core).mx.active = false)
  (hhalted : (s.core core).mx.halted = false) (hst : o.st = .queued) (hready : o.ready = true) (hiss : o.issuing = false)
  (hfree : s.opFree core o true = true)

include ho hactive hhalted hst hready hiss hfree

/-- The head of the queue takes its turn: without the path it faults, but for the forms that take and release it (R369). -/
theorem execMatrixQueueStart_turn : execMatrixQueueStart core s = .next (
    if (s.core core).mx.holder.any (· != o.ctx) || ((s.core core).mx.holder.isNone && !(match o.req.kind with | .mxcfg _ | .mxrelease => true | _ => false)) then
      s.haltOp core o.id { code := .mxState }
    else match o.req.kind with
      | .mxcfg arr => s.startCfg core o arr
      | .mxrelease => (s.clearPath core).finishOp core o.id 0
      | .mxload => s.activate core o
      | .mxmul => s.startMul core o
      | _ => s) := by
  simp only [execMatrixQueueStart, ho, hactive, hhalted, hst, hready, hiss, hfree, bne_self_eq_false, Bool.not_true, Bool.or_self, Bool.false_eq_true,
    if_false] <;> rfl

theorem execMatrixQueueStart_other {y : Nat} (hy : (s.core core).mx.holder = some y) (hne : y ≠ o.ctx) :
    execMatrixQueueStart core s = .next (s.haltOp core o.id { code := .mxState }) := by
  have hother : (s.core core).mx.holder.any (· != o.ctx) = true := by rw [hy]; exact bne_iff_ne.2 hne
  rw [execMatrixQueueStart_turn ho hactive hhalted hst hready hiss hfree, hother]
  rfl

/-- MXCFG takes a free path as well as its own (R370). -/
theorem execMatrixQueueStart_cfg {a : MxArr} (hk : o.req.kind = .mxcfg a)
    (hpath : (s.core core).mx.holder = none ∨ (s.core core).mx.holder = some o.ctx) : execMatrixQueueStart core s = .next (s.startCfg core o a) := by
  rw [execMatrixQueueStart_turn ho hactive hhalted hst hready hiss hfree, hk]
  rcases hpath with hpath | hpath <;> simp [hpath]

/-- Of the path's holder every operation has its turn. -/
theorem execMatrixQueueStart_held (hpath : (s.core core).mx.holder = some o.ctx) : execMatrixQueueStart core s = .next (match o.req.kind with
    | .mxcfg arr => s.startCfg core o arr
    | .mxrelease => (s.clearPath core).finishOp core o.id 0
    | .mxload => s.activate core o
    | .mxmul => s.startMul core o
    | _ => s) := by
  rw [execMatrixQueueStart_turn ho hactive hhalted hst hready hiss hfree, hpath]
  simp

end Turn

/-- A legal MXMUL is judged by its macros (R374). -/
theorem State.startMul_legal {arr : MxArr} (harr : (s.core core).mx.arr = some arr) (hstatus : o.status = 0)
    (hlegal : o.req.mmMalformed (arrangement arr) = false) : s.startMul core o = match (s.core core).mx.macroFault o.req (arrangement arr) with
      | some code => s.haltOp core o.id { code }
      | none => s.activate core o := by
  simp only [State.startMul, harr, hstatus, hlegal, bne_self_eq_false, Bool.or_self, Bool.false_eq_true, if_false] <;> rfl

/-! ## MXMUL_KBLOCK and MATRIX_PATH_IDLE_RELEASE -/

/-- A running MXMUL looks at the row slots of its next K-block (R226, R374). -/
theorem execMxmulKblock_running {arr : MxArr} (ho : (s.core core).mx.queue.head?.bind (s.core core).op? = some o)
    (harr : (s.core core).mx.arr = some arr) (hactive : (s.core core).mx.active = true) (hhalted : (s.core core).mx.halted = false)
    (hk : o.req.kind = .mxmul) (hfree : s.opFree core o true = true) (hsoft : s.dev.soft = []) (hhard : s.dev.hard = []) :
    execMxmulKblock core s = .next (match (s.core core).mx.rowStop o.req (s.core core).mx.kprog with
      | some (_, false) => s
      | some (_, true) => s.haltOp core o.id { code := .mxFormatMismatch }
      | none => (s.addBlock core o.req (arrangement arr) (s.core core).mx.kprog).afterBlock core o (s.core core).mx.kprog) := by
  have hclean (b : Option (Nat × Requester)) (p : ErrSite → Bool) : s.senseWhere b p = s := State.senseWhere_clean (by simp [hsoft, hhard]) b
  simp only [execMxmulKblock, ho, harr, hactive, hhalted, hk, hfree, hclean, bne_self_eq_false, Bool.not_true, Bool.or_self, Bool.false_eq_true, if_false] <;> rfl

theorem execMatrixPathIdleRelease_wanted {c : Ctl} (hidle : (s.core core).pathIdle = true) (hc : c ∈ (s.core core).ctls)
    (hother : some c.ctx ≠ (s.core core).mx.holder) (hwant : s.wantsPath core c = true) : execMatrixPathIdleRelease core s = .next (s.clearPath core) := by
  have hany : ((s.core core).ctls.any fun t => some t.ctx != (s.core core).mx.holder && s.wantsPath core t) = true :=
    List.any_eq_true.2 ⟨c, hc, by rw [hwant, Bool.and_true]; exact bne_iff_ne.2 hother⟩
  simp only [execMatrixPathIdleRelease, hidle, hany, Bool.and_self, if_true]

/-- Settles O55: each event on the states its conditions allow. -/
theorem engineAndMatrixEvents : Obligations.EngineAndMatrixEvents := by
  refine ⟨fun s core op o => execEngineOpStart_starts, fun s t core op o ho hfree hst hiss hstreams hmul => ⟨fun code => ?_, ?_, fun f => ?_, fun e => ?_⟩,
    fun s core op o ho hfree hst hiss hk hwork houts => ?_, fun s core op code o ho hfree hst hiss hmul => execEngineOpComplete_decided ho hfree hiss hmul hst,
    fun s core op o ho hfree hst hiss hstream hmul => execEngineOpComplete_finished ho hfree hiss hmul hst hstream,
    fun s t core gen x o hx ho hfree hst hiss hhalt hfin => ⟨execStreamBuffer_ends hx ho hfree hst hiss hhalt hfin, fun hmore hk hphase hready hchan => ?_,
      execStreamBuffer_moves hx ho hfree hst hiss hhalt hfin, fun f hmore => execStreamBuffer_faults hx ho hfree hst hiss hhalt hfin hmore⟩,
    fun s core o ho hactive hhalted hst hready hiss hfree => ⟨fun a hk => ?_, fun hk hpath => ?_, fun y => ?_, fun hk hpath => ?_,
      fun arr hk hpath harr hstatus hlegal => ⟨fun code hmac => ?_, fun hmac => ?_⟩⟩,
    fun s core o arr ho harr hactive hhalted hk hfree hsoft hhard => ⟨fun hrow => ?_, fun n hrow => ?_, fun n hrow => ?_⟩,
    fun s core t => execMatrixPathIdleRelease_wanted⟩
  · exact execEngineOpComplete_ends ho hfree hiss hmul hst hstreams
  · exact execEngineOpComplete_moves ho hfree hiss hmul hst hstreams
  · exact execEngineOpComplete_faults ho hfree hiss hmul hst hstreams
  · exact execEngineOpComplete_waits ho hfree hiss hmul hst hstreams
  · obtain ⟨hstreams, hmul⟩ := EngKind.plain_streams hk
    exact execEngineOpComplete_ends ho hfree hiss hmul hst hstreams (transferOp_done hk hwork houts)
  · exact execStreamBuffer_moves hx ho hfree hst hiss hhalt hfin hmore (stepStream_begins hk hphase hready hchan)
  · exact execMatrixQueueStart_cfg ho hactive hhalted hst hready hiss hfree hk
  · refine (execMatrixQueueStart_held ho hactive hhalted hst hready hiss hfree hpath).trans ?_
    rw [hk]
  · exact execMatrixQueueStart_other ho hactive hhalted hst hready hiss hfree
  · refine (execMatrixQueueStart_held ho hactive hhalted hst hready hiss hfree hpath).trans ?_
    rw [hk]
  · refine (execMatrixQueueStart_held ho hactive hhalted hst hready hiss hfree hpath).trans ?_
    rw [hk, State.startMul_legal harr hstatus hlegal, hmac]
  · refine (execMatrixQueueStart_held ho hactive hhalted hst hready hiss hfree hpath).trans ?_
    rw [hk, State.startMul_legal harr hstatus hlegal, hmac]
  all_goals
    refine (execMxmulKblock_running ho harr hactive hhalted hk hfree hsoft hhard).trans ?_
    rw [hrow]

end Sys2Proof.Machine
end

section
/-! PROOF. The events of communicators, collectives and peer links (R378, R383, R447, R448, R470, R471). -/

namespace Sys2Proof.Machine

variable {s : State} {m : Comm} {key k port : Nat}

/-! ## A communicator becomes DEAD -/

/-- Steps that each keep the communicators keep them together. -/
theorem State.comms_foldl {α : Type} (s : State) (l : List α) {f : State → α → State} (hf : ∀ s a, (f s a).comms = s.comms) :
    (l.foldl f s).comms = s.comms :=
  List.foldlRecOn (motive := fun t => t.comms = s.comms) l f rfl fun t ht a _ => (hf t a).trans ht

@[simp] theorem State.sendFlits_comms (s : State) (x ch : Nat) (l : List FlitBody) : (s.sendFlits x ch l).comms = s.comms := by
  unfold State.sendFlits
  split <;> rfl

@[simp] theorem State.tellPeers_comms (s : State) (m : Comm) (ch : Nat) (p : Nat → Bool) (l : List FlitBody) :
    (s.tellPeers m ch p l).comms = s.comms := by
  unfold State.tellPeers
  split
  · rfl
  · exact State.comms_foldl s _ fun s _ => s.sendFlits_comms _ ch l

@[simp] theorem State.markHandles_comms (s : State) (m : Comm) (st : CommSt) : (s.markHandles m st).comms = s.comms :=
  State.comms_foldl s _ fun s j => by split <;> rfl

/-- The only communicator of the device, killed, is DEAD (R383). -/
theorem State.killComm_only (hm : s.comms = [m]) (hst : m.st ≠ .dead) : (s.killComm m).comms.map (·.st) = [.dead] := by
  simp [State.killComm, beq_false_of_ne hst, State.modComm, hm, mapIf]

/-- The links tell nobody where every member is local. -/
theorem State.tellPeers_local (hlocal : ∀ j ∈ m.joined, j.2.isSome = true) (ch : Nat) (p : Nat → Bool) (l : List FlitBody) :
    s.tellPeers m ch p l = s := by
  have hnone : (m.joined.filter fun j => j.2.isNone && p j.1) = [] :=
    List.filter_eq_nil_iff.2 fun j hj => by simp [Option.isSome_iff_ne_none.1 (hlocal j hj)]
  unfold State.tellPeers
  split
  · rfl
  · rw [hnone]
    rfl

theorem State.tellDecisions_local {old : State} (hlocal : ∀ m ∈ s.comms, ∀ j ∈ m.joined, j.2.isSome = true) : s.tellDecisions old k = s :=
  foldl_stays fun m hm => by
    split
    · split
      · exact State.tellPeers_local (hlocal m hm) _ _ _
      · rfl
    · rfl

/-! ## Forming and deciding -/

theorem execCommReady_complete (hfind : s.comms.find? (fun m => m.key == key && s.commComplete m) = some m) :
    execCommReady key s = .next ((s.markHandles m .ready).modComm (· == m) fun m => { m with st := .ready }) := by
  simp only [execCommReady, hfind]

theorem execCommFormTimeout_due (hm : s.comms = [m]) (hkey : m.key = key) (hst : m.st = .forming) (hdue : 10000000000 ≤ nsBetween m.since s.time) :
    execCommFormTimeout key s = .next (s.killComm m) := by
  have hfind : s.comms.find? (fun m => m.key == key && m.st == .forming && decide (10000000000 ≤ nsBetween m.since s.time)) = some m := by
    simp [hm, hkey, hst, hdue]
  simp only [execCommFormTimeout, hfind]

section Decide

variable {q : Coll} (hm : s.comms = [m]) (hkey : m.key = key) (hst : m.st = .dead) (hq : m.colls = [q]) (hk : q.k = k) (hopen : q.decided = none)

include hm hkey hst hq hk hopen

/-- The deciding engine looks at which ranks have placed their destinations (R447). -/
theorem execAbortNotice_decides (hhere : m.decidesHere = true) (hlocal : ∀ j ∈ m.joined, j.2.isSome = true) : execAbortNotice key k s = .next { s with
    comms := [{ m with colls := [{ q with decided := some (decide (∀ r, r < m.nranks → r ∈ q.placed)) }] }] } := by
  have hall : (List.range m.nranks).all q.placed.contains = decide (∀ r, r < m.nranks → r ∈ q.placed) := by
    rw [Bool.eq_iff_iff]
    simp
  have hany : (s.comms.any fun m => m.key == key && m.st == .dead && m.decidesHere) = true := by simp [hm, hkey, hst, hhere]
  have hmod : (s.modComm (fun m => m.key == key && m.st == .dead) fun m =>
      { m with colls := mapIf (fun q => q.k == k && q.decided.isNone) (fun q => { q with decided := some ((List.range m.nranks).all q.placed.contains) }) m.colls }) =
      { s with comms := [{ m with colls := [{ q with decided := some (decide (∀ r, r < m.nranks → r ∈ q.placed)) }] }] } := by
    simp [State.modComm, mapIf, hm, hkey, hst, hq, hk, hopen, hall]
  rw [execAbortNotice, if_pos hany, State.decideColl, hmod, State.tellDecisions_local]
  simpa using hlocal

/-- After 1 s without a decision the members' own engines end the collective ABORTED (R448). -/
theorem execCollDecisionTimeout_due {t0 : Nat} (hdead : q.deadAt = some t0) (hdue : 1000000000 ≤ nsBetween t0 s.time) :
    execCollDecisionTimeout key k s = .next { s with comms := [{ m with colls := [{ q with decided := some false }] }] } := by
  simp [execCollDecisionTimeout, State.modComm, mapIf, hm, hkey, hst, hq, hk, hopen, hdead, hdue]

end Decide

/-! ## Links -/

/-- Sending what waits takes nothing in. -/
theorem Link.drain_seq (l : Link) : l.drain.seq = l.seq :=
  List.foldlRecOn (motive := fun t : Link => t.seq = l.seq) l.waits _ rfl fun t ht q _ => by split <;> exact ht

theorem Link.credited_seq (l : Link) (ch n : Nat) : (l.credited ch n).seq = l.seq := Link.drain_seq _

section Receive

variable {flit : Flit} (hport : port < 48) (hpart : ∃ n, s.partitionOf (portColumn port) = some n)

include hport hpart

/-- A port of a partition's column judges each flit by its CRC and its sequence number (R470). -/
theorem execVociaFlitReceive_powered : execVociaFlitReceive port flit s = .next (
    if !flit.crcOk then s.modLink port fun l => { l with retry := true }
    else if flit.seq != (s.links.getD port default).seq then s
    else (s.modLink port fun l => ({ l with seq := (l.seq + 1) % 4096, retry := false, down := none } : Link).credited flit.vc flit.credits).flitEffect
      port flit.member flit.body) := by
  obtain ⟨n, hn⟩ := hpart
  have hpowered : ¬(decide (Config.vociaPorts ≤ port) || (s.partitionOf (portColumn port)).isNone) = true := by
    rw [hn, decide_eq_false (p := Config.vociaPorts ≤ port) (not_le.2 hport)]
    exact Bool.false_ne_true
  rw [execVociaFlitReceive, if_neg hpowered]

theorem execVociaFlitReceive_bad (hcrc : flit.crcOk = false) :
    execVociaFlitReceive port flit s = .next (s.modLink port fun l => { l with retry := true }) := by
  rw [execVociaFlitReceive_powered hport hpart, hcrc]
  rfl

theorem execVociaFlitReceive_outOfSequence (hcrc : flit.crcOk = true) (hseq : flit.seq ≠ (s.links.getD port default).seq) :
    execVociaFlitReceive port flit s = .next s := by
  rw [execVociaFlitReceive_powered hport hpart, hcrc, if_neg (by decide), if_pos (bne_iff_ne.2 hseq)]

/-- The next flit moves the link's sequence number on, and then its effect is made. -/
theorem execVociaFlitReceive_taken (hlinks : port < s.links.length) (hcrc : flit.crcOk = true) (hseq : flit.seq = (s.links.getD port default).seq) :
    ∃ t : State, execVociaFlitReceive port flit s = .next (t.flitEffect port flit.member flit.body) ∧
      (t.links.getD port default).seq = (flit.seq + 1) % 4096 ∧ t.comms = s.comms := by
  refine ⟨s.modLink port fun l => ({ l with seq := (l.seq + 1) % 4096, retry := false, down := none } : Link).credited flit.vc flit.credits, ?_, ?_, rfl⟩
  · rw [execVociaFlitReceive_powered hport hpart, hcrc, if_neg (by decide), if_neg (by simp [hseq])]
  · rw [State.modLink, listMod_getD_self _ _ _ _ hlinks, Link.credited_seq, hseq]

end Receive

section Loss

variable (hport : port < 48)

include hport

theorem execVociaPathLoss_down (hup : (s.links.getD port default).down = none) :
    execVociaPathLoss port s = .next (s.modLink port fun l => { l with down := some s.time }) := by
  rw [execVociaPathLoss, if_neg (by simpa [Config.vociaPorts] using hport), hup]

variable {t0 : Nat} (hdown : (s.links.getD port default).down = some t0)

include hdown

theorem execVociaPathLoss_early (hearly : nsBetween t0 s.time < 1000000000) : execVociaPathLoss port s = .next s := by
  rw [execVociaPathLoss, if_neg (by simpa [Config.vociaPorts] using hport), hdown]
  simp only [if_neg (not_le.2 hearly)]

/-- A lost path kills the only communicator, which has a member beyond it and one in the port's partition (R383, R471). -/
theorem execVociaPathLoss_lost {n r q x : Nat} (hdue : 1000000000 ≤ nsBetween t0 s.time) (hm : s.comms = [m])
    (hpart : s.partitionOf (portColumn port) = some n) (hfar : (r, none) ∈ m.joined) (hnear : (q, some x) ∈ m.joined) (hx : s.partOf x = some n) :
    execVociaPathLoss port s = .next (s.killComm m) := by
  have hbeyond : (m.joined.any fun j => j.2.isNone) = true := List.any_eq_true.2 ⟨_, hfar, rfl⟩
  have hlocal : (m.joined.any fun j => j.2.any fun x => (s.partitionOf (portColumn port)).isSome && s.partOf x == s.partitionOf (portColumn port)) = true :=
    List.any_eq_true.2 ⟨_, hnear, by simp [hpart, hx]⟩
  rw [execVociaPathLoss, if_neg (by simpa [Config.vociaPorts] using hport), hdown]
  simp [hdue, hm, hbeyond, hlocal]

end Loss

/-- Settles O56: each event on the states its conditions allow. -/
theorem communicatorEvents : Obligations.CommunicatorEvents := by
  refine ⟨fun s key m => execCommReady_complete,
    fun s key m hm hkey hst hdue => ⟨_, execCommFormTimeout_due hm hkey hst hdue, State.killComm_only hm (by simp [hst])⟩,
    fun s key k m q hm hkey hst hhere hq hk hopen => execAbortNotice_decides hm hkey hst hq hk hopen hhere,
    fun s key k m q t0 hm hkey hst hq hk hopen => execCollDecisionTimeout_due hm hkey hst hq hk hopen,
    fun s port flit hport hlinks hpart => ⟨execVociaFlitReceive_bad hport hpart, execVociaFlitReceive_outOfSequence hport hpart,
      execVociaFlitReceive_taken hport hpart hlinks⟩,
    fun s port hport => execVociaPathLoss_down hport,
    fun s port t0 hport hdown => execVociaPathLoss_early hport hdown,
    fun s port n r q x t0 m hport hdown hdue hm hst hpart hfar hnear hx =>
      ⟨_, execVociaPathLoss_lost hport hdown hdue hm hpart hfar hnear hx, State.killComm_only hm hst⟩⟩

end Sys2Proof.Machine
end
